-- ==== Sys2Proof/Word.lean ====
section
/-!
DEFINITION. The word types of the Gareno and their plainest arithmetic: bytes, 32-bit registers,
64-bit addresses and control registers (R4, R5), and exact helpers over natural numbers.
-/
namespace Sys2Proof

abbrev Byte := BitVec 8
abbrev Half := BitVec 16
/-- One register word, and one 32-thread mask (GW = 32, R21). -/
abbrev Word := BitVec 32
/-- One instruction word, PC, address or 64-bit control register. -/
abbrev Dword := BitVec 64

/-- Bits `hi` down to `lo` of a natural number, as a natural number (R4). -/
def bitsN (n hi lo : Nat) : Nat := n / 2 ^ lo % 2 ^ (hi + 1 - lo)

/-- Ceiling of a division, the manual's `ceil(a ÷ b)`. -/
def ceilDiv (a b : Nat) : Nat := (a + b - 1) / b

/-- Round `a` up to a multiple of `b`. -/
def roundUp (a b : Nat) : Nat := ceilDiv a b * b

end Sys2Proof
end

