-- ==== Sys2Proof/Config.lean ====
section
/-!
DEFINITION. What an implementation fixes and the manual does not state: the free values. Each is opaque, so no proof
can lean on a value of it. Each names the log entry that declares it.
-/
namespace Sys2Proof.Config

/-- Log 4. FRSQ, FTR and FPRINT may deliver either FP32 neighbour of the exact real (R106, R116, R135): true takes the
upper one. The arguments name the function and its operands; R3 makes the result a function of them. -/
opaque faithfulUp : Nat → List Word → Bool

/-- Log 5. FDIV's component where `(b ⊙ a.k − a ⊙ b.k) ÷ b²` is 0 ÷ 0 or inf ÷ inf, which R105 gives no value:
arguments a, b, a.k, b.k. -/
opaque fdivOpenComponent : Word → Word → Word → Word → Word

/-- Log 7. R75, chk = 0: true when a read that comes too early obtains the old word; the argument is a fresh number. -/
opaque shortReadOld : Nat → Bool

/-- Log 8. R359: the first 64 bits of AES-128-CMAC under the code key of a partition; the key is secret and the manual
names the algorithm without defining it. Arguments: partition, creation count, message bytes. -/
opaque codeTag : Nat → Nat → List Byte → Dword

/-- Log 8. R361: SHA-256 of a byte string, which the manual names without defining it. -/
opaque sha256 : List Byte → BitVec 256

/-- Log 8. R360: whether a 64-byte ECDSA P-256 signature by the key id verifies over a message. -/
opaque ecdsaVerifies : Dword → List Byte → List Byte → Bool

/-- Log 8. R360: whether a signing-key id stands in the signed configuration records. -/
opaque keyKnown : Dword → Bool

/-- Log 8. R377: whether the firmware and configuration signatures check at power-on. -/
opaque firmwareSigOk : Bool
opaque configSigOk : Bool

/-- Log 10. R356: the device's random source, at a fresh number, as a number below 2^32. -/
opaque randomDraw : Nat → Word

/-- Log 11. R270, R341, R288: whether a byte of a cancelled, killed or timed-out operation holds its new value; the
argument is a fresh number. -/
opaque byteLanded : Nat → Bool

/-- Log 12. R288: the order in which a reduction adds its members, as a permutation seed for one element; the argument
is a fresh number. -/
opaque reductionOrder : Nat → Nat

/-- Log 11. R288: the new value of a destination element of a reduction whose peers have not all joined, which the manual does
not state; the argument is a fresh number. -/
opaque cprPartial : Nat → Word

/-- Log 14. R235: a quad access is two pairs, each a unit of its own; true when the upper pair is performed first. The argument
is a fresh number. -/
opaque upperPairFirst : Nat → Bool

/-- Log 9. R235, R246: which of the writes that a read may still read from it does read from: 0 the newest, and so on; the arguments
are a fresh number and the unit's address. -/
opaque readChoice : Nat → Nat → Nat

/-- Log 9. R217: which of its contents since the last invalidation the translation caches hold of an entry: 0 the newest; the arguments are
a fresh number and the entry's address. -/
opaque cachedEntry : Nat → Nat → Nat

/-- Log 9. R209, R13: which line a full instruction cache gives up; the argument is a fresh number. -/
opaque evictLine : Nat → Nat

/-- Log 9. R157: which of its contents since the bind one decode uses of a line or a code: 0 the newest; the arguments are a fresh number, the
texel's level and position, and the address. -/
opaque cachedTexture : Nat → Nat → Int → Int → Nat → Nat

/-- Log 31. R382: bytes that a die-to-die link or a fabric port sends for one access, which the manual does not count; the arguments are a
fresh number and the address. -/
opaque linkBytes : Nat → Nat → Nat
opaque fabricBytes : Nat → Nat → Nat

/-- Log 21. What a register word with an uncorrectable error holds until its reader meets the error; the argument is a fresh number. -/
opaque upsetWord : Nat → Word

/-- Log 13. R95 gives both codes 0x0 and 0x8 the value +0 in facets 01, 10 and 11 and does not say which a negative
element that rounds to zero takes: true takes 0x8. -/
opaque facetNegZero : Bool

end Sys2Proof.Config
end

