-- ==== Sys2Proof/Machine/Fp.lean ====
section
/-!
DEFINITION. Exact values, rounding and flags of the arithmetic promise (R80 to R85), and the FP32 operations of R133 to
R136 on them. A value is a NaN, an infinity or a signed exact dyadic number; every operation forms the exact real
and rounds it once.
-/
namespace Sys2Proof.Fp

/-- The rounding modes of R62 and R84. -/
inductive Rm where
  | rn | rz | ru | rd
  deriving DecidableEq, Repr

def Rm.ofNat2 (n : Nat) : Rm := match n % 4 with | 0 => .rn | 1 => .rz | 2 => .ru | _ => .rd

/-- How a format's all-ones exponent reads (R82). -/
inductive Tops where
  | ieee | e4m3 | normal
  deriving DecidableEq, Repr

/-- A floating-point format (R82, R97): fraction bits, exponent bits, bias, the magnitude code of its largest finite
value, the reading of the all-ones exponent, and whether overflow saturates (R84). -/
structure Format where
  m    : Nat
  e    : Nat
  bias : Nat
  max  : Nat
  tops : Tops
  sat  : Bool
  deriving DecidableEq, Repr

def fp32 : Format := ⟨23, 8, 127, 0x7F7FFFFF, .ieee, false⟩
def fp16 : Format := ⟨10, 5, 15, 0x7BFF, .ieee, false⟩
def bf16 : Format := ⟨7, 8, 127, 0x7F7F, .ieee, false⟩
def e4m3 : Format := ⟨3, 4, 7, 0x7E, .e4m3, true⟩
def e5m2 : Format := ⟨2, 5, 15, 0x7B, .ieee, true⟩
def e3m2 : Format := ⟨2, 3, 3, 0x1F, .normal, true⟩
def e2m3 : Format := ⟨3, 2, 1, 0x1F, .normal, true⟩
def e2m1 : Format := ⟨1, 2, 1, 0x7, .normal, true⟩
/-- AX without its eleven zero bits (R97). -/
def ax : Format := ⟨41, 11, 1023, 2 ^ 52 - 2 ^ 41 - 1, .ieee, false⟩

/-- The exponent of a format's subnormal spacing. -/
def Format.qmin (f : Format) : Int := 1 - (f.bias : Int) - (f.m : Int)
/-- Width in bits. -/
def Format.width (f : Format) : Nat := 1 + f.e + f.m
/-- The magnitude code of infinity in a format that has one. -/
def Format.infCode (f : Format) : Nat := (2 ^ f.e - 1) * 2 ^ f.m

/-- A decoded value: a NaN (signalling or not), a signed infinity, or exactly ± mag × 2^exp. -/
inductive Fv where
  | nan (sig : Bool)
  | inf (neg : Bool)
  | fin (neg : Bool) (mag : Nat) (exp : Int)
  deriving DecidableEq, Repr

/-- Flags in the order of fpflags (R86): NX, UF, OF, DZ, IV, TI from bit 0. -/
abbrev Flags := BitVec 6
def NX : Flags := 0x01
def UF : Flags := 0x02
def OF : Flags := 0x04
def DZ : Flags := 0x08
def IV : Flags := 0x10
def TI : Flags := 0x20

/-- Set the flag `f` when `b` holds. -/
def flagIf (b : Bool) (f : Flags) : Flags := if b then f else 0

/-- Decode the code `n` of a format (R82, R83): E4M3 and E5M2 NaNs are quiet. -/
def decode (f : Format) (n : Nat) : Fv :=
  let neg := n / 2 ^ (f.e + f.m) % 2 == 1
  let ex := n / 2 ^ f.m % 2 ^ f.e
  let fr := n % 2 ^ f.m
  if ex == 2 ^ f.e - 1 && f.tops == .ieee then
    if fr == 0 then .inf neg else .nan (!f.sat && fr / 2 ^ (f.m - 1) % 2 == 0)
  else if f.tops == .e4m3 && ex == 2 ^ f.e - 1 && fr == 2 ^ f.m - 1 then .nan false
  else if ex == 0 then .fin neg fr f.qmin
  else .fin neg (2 ^ f.m + fr) (f.qmin + (ex : Int) - 1)

def Fv.isNan : Fv → Bool | .nan _ => true | _ => false
def Fv.isSig : Fv → Bool | .nan s => s | _ => false
def Fv.isInf : Fv → Bool | .inf _ => true | _ => false
def Fv.isZero : Fv → Bool | .fin _ 0 _ => true | _ => false
def Fv.isNeg : Fv → Bool | .nan _ => false | .inf n => n | .fin n _ _ => n
def Fv.neg : Fv → Fv | .nan s => .nan s | .inf n => .inf (!n) | .fin n m e => .fin (!n) m e
def Fv.zero : Fv := .fin false 0 0
/-- The exact value of an integer. -/
def Fv.ofInt (i : Int) : Fv := .fin (i < 0) i.natAbs 0

/-- `2^k` times a natural number, or divided by: a shift whose negative part goes to the other operand. -/
def shiftBy (n : Nat) (k : Int) : Nat := n * 2 ^ k.toNat

/-- The canonical quiet NaN of a format (R83); formats without NaN never ask for it. -/
def nanCode (f : Format) : Nat :=
  match f.tops with
  | .e4m3 => 2 ^ (f.e + f.m) - 1
  | _ => f.infCode + 2 ^ (f.m - 1)

/-- A rounded result: the code and its flags. -/
structure Res where
  code : Nat
  fl   : Flags
  deriving DecidableEq, Repr

/-- The sign bit of a format in place. -/
def signCode (f : Format) (neg : Bool) : Nat := if neg then 2 ^ (f.e + f.m) else 0

/-- The magnitude and inexactness of `num / den × 2^e` in a format of unbounded range (steps 1 and 2 of R84). -/
def selectMag (f : Format) (rm : Rm) (neg : Bool) (num den : Nat) (e : Int) : Nat × Bool :=
  let k0 : Int := (num.log2 : Int) - den.log2 + e
  let k := if shiftBy num (e - k0) < shiftBy den (k0 - e) then k0 - 1 else k0
  let q := max (k - f.m) f.qmin
  let n := shiftBy num (e - q)
  let d := shiftBy den (q - e)
  let quo := n / d
  let rem := n % d
  let up := match rm with
    | .rn => 2 * rem > d || (2 * rem == d && quo % 2 == 1)
    | .rz => false
    | .ru => !neg && rem != 0
    | .rd => neg && rem != 0
  ((q - f.qmin).toNat * 2 ^ f.m + quo + (if up then 1 else 0), rem != 0)

/-- Step 3 of R84: the code delivered when the selected magnitude passes the largest finite value. -/
def overflowCode (f : Format) (rm : Rm) (neg : Bool) : Nat :=
  if f.sat then f.max
  else match rm with
    | .rn => f.infCode
    | .rz => f.max
    | .ru => if neg then f.max else f.infCode
    | .rd => if neg then f.infCode else f.max

/-- Round the nonzero magnitude `num / den × 2^e` (R84, R85). -/
def roundMag (f : Format) (rm : Rm) (neg : Bool) (num den : Nat) (e : Int) : Res :=
  let (c, inexact) := selectMag f rm neg num den e
  if c > f.max then ⟨signCode f neg + overflowCode f rm neg, OF ||| NX⟩
  else ⟨signCode f neg + c, flagIf inexact NX ||| flagIf (inexact && c != 0 && c < 2 ^ f.m) UF⟩

/-- Round an exact value into a format (R83, R84); a NaN gives the canonical quiet NaN, an infinity saturates in a
narrow format with OF and NX (R85, R89). -/
def round (f : Format) (rm : Rm) : Fv → Res
  | .nan _ => ⟨nanCode f, 0⟩
  | .inf neg => if f.sat then ⟨signCode f neg + f.max, OF ||| NX⟩ else ⟨signCode f neg + f.infCode, 0⟩
  | .fin neg 0 _ => ⟨signCode f neg, 0⟩
  | .fin neg m e => roundMag f rm neg m 1 e

/-- The exact product; 0 × inf is a NaN. -/
def Fv.mul : Fv → Fv → Fv
  | .nan _, _ | _, .nan _ => .nan false
  | .inf a, .inf b => .inf (a != b)
  | .inf a, .fin b m _ | .fin a m _, .inf b => if m == 0 then .nan false else .inf (a != b)
  | .fin a m e, .fin b n g => .fin (a != b) (m * n) (e + g)

/-- A signed dyadic as an integer over a common exponent. -/
def sInt (neg : Bool) (m : Nat) : Int := if neg then -(m : Int) else m

/-- The exact sum of two values. An exact zero sum of opposite-signed operands is +0, and −0 under RD (R84). -/
def Fv.add (rm : Rm) : Fv → Fv → Fv
  | .nan _, _ | _, .nan _ => .nan false
  | .inf a, .inf b => if a == b then .inf a else .nan false
  | .inf a, .fin _ _ _ | .fin _ _ _, .inf a => .inf a
  | .fin a m e, .fin b n g =>
    let lo := min e g
    let s := sInt a (shiftBy m (e - lo)) + sInt b (shiftBy n (g - lo))
    if s == 0 then .fin (if a == b then a else rm == .rd) 0 0
    else .fin (s < 0) s.natAbs lo

/-- The exact sum of a list of terms, rounded RN by the caller: R104's `exact real sum of the terms`. -/
def sumTerms : List Fv → Fv
  | [] => .zero
  | [x] => x
  | x :: xs => Fv.add .rn x (sumTerms xs)

/-- The annihilating product `p ⊙ z` (R104): +0 when z is ±0, whatever p is. -/
def annih (p z : Fv) : Fv := if z.isZero then .zero else p.mul z

/-- Multiplication by 2^n. -/
def Fv.scale (v : Fv) (n : Int) : Fv := match v with | .fin s m e => .fin s m (e + n) | v => v

def v32 (w : Word) : Fv := decode fp32 w.toNat
def toWord (r : Res) : Word := BitVec.ofNat 32 r.code
/-- The canonical FP32 quiet NaN (R83). -/
def qnan32 : Word := 0x7FC00000

/-- rne32 of an exact value (R54). -/
def rne32 (v : Fv) : Res := round fp32 .rn v

/-- IV for a signalling operand (R83). -/
def sigIV (vs : List Fv) : Flags := flagIf (vs.any Fv.isSig) IV

/-- An operation's result: IV from signalling operands and from an invalid operation that makes a NaN of operands none of
which is a NaN (R85). -/
def finish (f : Format) (rm : Rm) (ops : List Fv) (exact : Fv) : Res :=
  let r := round f rm exact
  ⟨r.code, r.fl ||| sigIV ops ||| flagIf (exact.isNan && !ops.any Fv.isNan) IV⟩

/-- Addition, multiplication and fused multiply-add, each with one rounding (R133, R137). -/
def addF (f : Format) (rm : Rm) (a b : Fv) : Res := finish f rm [a, b] (a.add rm b)
def mulF (f : Format) (rm : Rm) (a b : Fv) : Res := finish f rm [a, b] (a.mul b)
/-- 0 × inf raises IV even when c is a quiet NaN (R133). -/
def fmaF (f : Format) (rm : Rm) (a b c : Fv) : Res :=
  let p := a.mul b
  let r := finish f rm [a, b, c] (p.add rm c)
  ⟨r.code, r.fl ||| flagIf (p.isNan && !a.isNan && !b.isNan) IV⟩

/-- A scale that no FP32 operand tells from the exact one: beyond ±1000 every result overflows or underflows alike. -/
def clampScale (n : Int) : Int := max (-1000) (min 1000 n)

/-- FSCALE (R133): a × 2^n with one rounding. -/
def scaleF (rm : Rm) (a : Fv) (n : Int) : Res := finish fp32 rm [a] (a.scale (clampScale n))

/-- The exact quotient rounded (R135), with DZ and IV of R85. -/
def divF (rm : Rm) (a b : Fv) : Res :=
  let neg := a.isNeg != b.isNeg
  match a, b with
  | .nan _, _ | _, .nan _ => ⟨nanCode fp32, sigIV [a, b]⟩
  | .inf _, .inf _ => ⟨nanCode fp32, IV⟩
  | .inf _, .fin _ _ _ => ⟨signCode fp32 neg + fp32.infCode, 0⟩
  | .fin _ _ _, .inf _ => ⟨signCode fp32 neg, 0⟩
  | .fin _ m e, .fin _ n g =>
    if n == 0 then if m == 0 then ⟨nanCode fp32, IV⟩ else ⟨signCode fp32 neg + fp32.infCode, DZ⟩
    else if m == 0 then ⟨signCode fp32 neg, 0⟩
    else roundMag fp32 rm neg m n (e - g)

/-- Integer square root by binary digits, from bit `k` down. -/
def isqrtGo (n : Nat) : Nat → Nat → Nat
  | 0, r => if (r + 1) * (r + 1) ≤ n then r + 1 else r
  | k + 1, r => isqrtGo n k (if (r + 2 ^ (k + 1)) * (r + 2 ^ (k + 1)) ≤ n then r + 2 ^ (k + 1) else r)

/-- The largest r with r² ≤ n. -/
def isqrt (n : Nat) : Nat := isqrtGo n (n.log2 / 2) 0

/-- The square root of `num / den × 2^e` as a magnitude: the root to 100 bits or more, with a sticky last bit, so that
it rounds in every mode as the exact real does. -/
def sqrtRat (num den : Nat) (e : Int) : Nat × Int :=
  let odd := e % 2 != 0
  let num := if odd then 2 * num else num
  let e := if odd then e - 1 else e
  let p := 110 + den.log2
  let n := num * 2 ^ (2 * p)
  let s := isqrt (n / den)
  (2 * s + (if s * s * den == n then 0 else 1), e / 2 - p - 1)

/-- FSQRT (R135). -/
def sqrtF (rm : Rm) (a : Fv) : Res :=
  match a with
  | .nan s => ⟨nanCode fp32, flagIf s IV⟩
  | .inf neg => if neg then ⟨nanCode fp32, IV⟩ else ⟨fp32.infCode, 0⟩
  | .fin neg 0 _ => ⟨signCode fp32 neg, 0⟩
  | .fin true _ _ => ⟨nanCode fp32, IV⟩
  | .fin false m e => let (s, q) := sqrtRat m 1 e; roundMag fp32 rm false s 1 q

/-- FRCP (R135). -/
def rcpF (rm : Rm) (a : Fv) : Res := divF rm (.fin false 1 0) a

/-- The lesser of two values that are no NaN, −0 ordered below +0. -/
def Fv.lt (a b : Fv) : Bool :=
  match a, b with
  | .nan _, _ | _, .nan _ => false
  | .inf x, .inf y => x && !y
  | .inf x, .fin _ _ _ => x
  | .fin _ _ _, .inf y => !y
  | .fin a m e, .fin b n g =>
    let lo := min e g
    sInt a (shiftBy m (e - lo)) < sInt b (shiftBy n (g - lo))

/-- Equality as FCMP has it: +0 and −0 are equal, a NaN equals nothing (R130). -/
def Fv.feq (a b : Fv) : Bool := !a.isNan && !b.isNan && !a.lt b && !b.lt a

/-- Round to an integral value (R134): the exact integer in the direction of rm, with the sign of a. -/
def integral (rm : Rm) (a : Fv) : Fv :=
  match a with
  | .fin neg m e =>
    if e ≥ 0 then a
    else
      let d := 2 ^ (-e).toNat
      let q := m / d
      let r := m % d
      let up := match rm with
        | .rn => 2 * r > d || (2 * r == d && q % 2 == 1)
        | .rz => false
        | .ru => !neg && r != 0
        | .rd => neg && r != 0
      .fin neg (if up then q + 1 else q) 0
  | v => v

/-- FRND (R134): no NX. -/
def frndF (rm : Rm) (a : Fv) : Res :=
  let r := round fp32 rm (integral rm a)
  ⟨r.code, sigIV [a]⟩

/-- FMINMAX (R134): `fn` 0 min, 1 max, 2 minnum, 3 maxnum; `b07` keeps erratum B-07, two zeros of opposite sign
giving +0. The second result is true when the component is the first operand's (R107). -/
def minmaxF (b07 : Bool) (fn : Nat) (wa wb : Word) : Res × Bool :=
  let a := v32 wa
  let b := v32 wb
  let fl := sigIV [a, b]
  let isMax := fn % 2 == 1
  if a.isNan || b.isNan then
    if fn ≥ 2 && !a.isNan then (⟨wa.toNat, fl⟩, true)
    else if fn ≥ 2 && !b.isNan then (⟨wb.toNat, fl⟩, false)
    else (⟨nanCode fp32, fl⟩, true)
  else if a.feq b then
    if a.isNeg == b.isNeg then (⟨wa.toNat, fl⟩, true)
    else if b07 || isMax then (⟨0, fl⟩, true)
    else (⟨0x80000000, fl⟩, true)
  else if a.lt b == isMax then (⟨wb.toNat, fl⟩, false)
  else (⟨wa.toNat, fl⟩, true)

/-- FCMP (R130): the truth of each condition and its flags. -/
def cmpF (fn : Nat) (a b : Fv) : Bool × Flags :=
  let un := a.isNan || b.isNan
  let lt := a.lt b
  let eq := a.feq b
  let gt := b.lt a
  let r := match fn with
    | 0 => eq | 1 => !eq | 2 => lt | 3 => lt || eq | 4 => gt | 5 => gt || eq | 6 => !un | _ => un
  (r, sigIV [a, b] ||| flagIf (un && 2 ≤ fn && fn ≤ 5) IV)

/-- The class bits of FCLASS (R130), from NI in bit 0 to QN in bit 9. -/
def classBit (w : Word) : Nat :=
  match v32 w with
  | .nan s => if s then 8 else 9
  | .inf neg => if neg then 0 else 7
  | .fin neg 0 _ => if neg then 3 else 4
  | .fin neg m _ => if m < 2 ^ 23 then (if neg then 2 else 5) else (if neg then 1 else 6)

/-- TWOSUM and TWOPROD (R136): the rounded result and its error, with the flags of both. DESIGN CHOICE (log 4): an error that rounds to zero raises NX alone,
as R85 has it of a zero result. `x` is the exact sum or
product. -/
def twoF (ops : List Fv) (x : Fv) : Res × Word :=
  let s := finish fp32 .rn ops x
  match v32 (toWord s) with
  | .nan _ => (s, qnan32)
  | .inf _ => (s, 0)
  | sv =>
    let e := round fp32 .rn (Fv.add .rn x sv.neg)
    (⟨s.code, s.fl ||| e.fl⟩, toWord e)

end Sys2Proof.Fp
end

