-- ==== Sys2Proof/Machine/Formats.lean ====
section
/-!
DEFINITION. The format codes of R81 and every conversion among them (R89, R90, R97, R141 to R144): CVT, QNT, PACK and
UNPACK; the block formats of R92 and R93 and the quantiser of R94 and R95; the fixed-point cell of R98 and R99.
-/
namespace Sys2Proof.Fp

/-- The floating-point formats of R81, codes 0x0 to 0x7 and AX. -/
def fpFormat : Nat → Option Format
  | 0x0 => some fp32 | 0x1 => some fp16 | 0x2 => some bf16 | 0x3 => some e4m3 | 0x4 => some e5m2
  | 0x5 => some e3m2 | 0x6 => some e2m3 | 0x7 => some e2m1 | 0xE => some ax | _ => none

/-- Whether a NaN becomes +0 with IV in this destination (R89): the formats without a NaN. -/
def nanless (code : Nat) : Bool := 5 ≤ code && code ≤ 8

/-- An integer format (R90): width, least and greatest value. -/
structure IntFormat where
  width : Nat
  lo    : Int
  hi    : Int
  deriving DecidableEq, Repr

def intFormat : Nat → Option IntFormat
  | 0x9 => some ⟨8, -128, 127⟩ | 0xA => some ⟨8, 0, 255⟩ | 0xB => some ⟨4, -8, 7⟩
  | 0xC => some ⟨16, -32768, 32767⟩ | 0xD => some ⟨32, -2147483648, 2147483647⟩ | _ => none

/-- Width in bits of one element of a format code (R81, R97). -/
def fmtWidth : Nat → Nat
  | 0x0 | 0xD => 32 | 0x1 | 0x2 | 0xC => 16 | 0x3 | 0x4 | 0x9 | 0xA => 8 | 0x5 | 0x6 => 6
  | 0x7 | 0x8 | 0xB => 4 | 0xE => 64 | _ => 1

/-- Two's complement reading of the low `w` bits. -/
def sext (w n : Nat) : Int := let m := n % 2 ^ w; if m ≥ 2 ^ (w - 1) then (m : Int) - 2 ^ w else m

/-- The low `w` bits of an integer. -/
def intBits (w : Nat) (i : Int) : Nat := (i % 2 ^ w).toNat

/-- An integer of a format from its bits: signed but for UINT8 (R141). -/
def intValue (code n : Nat) : Int :=
  match intFormat code with
  | some f => if code == 0xA then (n % 256 : Nat) else sext f.width n
  | none => (n % 2 : Nat)

/-- Saturate an integer (R89): the value and whether it changed. -/
def IntFormat.sat (f : IntFormat) (i : Int) : Int × Bool :=
  let r := max f.lo (min f.hi i)
  (r, r != i)

/-- AX from its 64-bit slot: bits 10 to 0 are ignored, NaN by fraction bit 51 (R97). -/
def axValue (n : Nat) : Fv := decode ax (n / 2 ^ 11 % 2 ^ 53)

/-- Whether the code is a floating format, AX included. -/
def isFloatCode (code : Nat) : Bool := (fpFormat code).isSome

/-- The exact value of a source (R142): integers and BIN1 as integers. -/
def srcValue (code n : Nat) : Fv :=
  if code == 0xE then axValue n
  else match fpFormat code with
    | some f => decode f (n % 2 ^ f.width)
    | none => .ofInt (intValue code n)

/-- Round a value to an integer format (R89): the code sign-extended to 32 bits (R141), and its flags. -/
def toIntFmt (f : IntFormat) (rm : Rm) (v : Fv) : Res :=
  let put := fun (i : Int) => intBits 32 i
  match v with
  | .nan _ => ⟨0, IV⟩
  | .inf neg => ⟨put (if neg then f.lo else f.hi), IV⟩
  | .fin neg m e =>
    -- beyond 2^64 every value saturates alike
    if m != 0 && (m.log2 : Int) + e > 64 then ⟨put (if neg then f.lo else f.hi), IV⟩
    else
      let i := match integral rm v with | .fin n k x => sInt n (shiftBy k x) | _ => 0
      let (r, changed) := f.sat i
      if changed then ⟨put r, IV⟩ else ⟨put r, flagIf (!(Fv.ofInt i).feq v) NX⟩

/-- Convert a floating value into a floating format by R89 and R97; the code stands in the low bits. -/
def toFloat (code : Nat) (f : Format) (rm : Rm) (v : Fv) : Res :=
  match v with
  | .nan s => if nanless code then ⟨0, IV⟩ else ⟨nanCode f, flagIf s IV⟩
  | v => round f rm v

/-- Place an AX code in its 64-bit slot. -/
def axSlot (r : Res) : Res := ⟨r.code * 2 ^ 11, r.fl⟩

/-- Convert any value into any format code but FACET4 (R89). `isInt` says that the source is an integer or BIN1. -/
def convValue (dst : Nat) (rm : Rm) (isInt : Bool) (v : Fv) : Res :=
  if dst == 0xE then axSlot (toFloat dst ax rm v)
  else match fpFormat dst, intFormat dst with
    | some f, _ => toFloat dst f rm v
    | none, some f => toIntFmt f rm v
    | none, none => ⟨if v.isZero || v.isNan then 0 else 1, flagIf (v.isNan && !isInt) IV⟩

/-- The formats whose NaNs raise IV in no conversion (R83): E4M3 and E5M2. -/
def calmNan (code : Nat) : Bool := code == 3 || code == 4

/-- CVT (R142): the delivered register bits and flags. Equal codes deliver the value unchanged, a NaN becoming canonical. -/
def cvtF (dst src : Nat) (rm : Rm) (n : Nat) : Res :=
  let v := srcValue src n
  if dst == src then
    match v with
    | .nan s =>
      let f := (fpFormat dst).getD fp32
      let r : Res := ⟨nanCode f, flagIf s IV⟩
      if dst == 0xE then axSlot r else r
    | _ =>
      if dst == 0xE then ⟨n / 2 ^ 11 % 2 ^ 53 * 2 ^ 11, 0⟩
      else if (intFormat dst).isSome then ⟨intBits 32 (intValue dst n), 0⟩
      else ⟨n % 2 ^ fmtWidth dst, 0⟩
  else
    let r := convValue dst rm (!isFloatCode src) v
    if calmNan src && v.isNan then ⟨r.code, 0⟩ else r

/-- QNT's value (R143): convert to the grid and back to FP32, the way back RNE with NX alone. -/
def qntF (grid : Nat) (rm : Rm) (w : Word) : Res :=
  let r := convValue grid rm false (v32 w)
  let back := round fp32 .rn (srcValue grid r.code)
  ⟨back.code, r.fl ||| (back.fl &&& NX)⟩

/-- Read and replace element `i` of width `w` in a packed register (R141). -/
def getElem (w i : Nat) (r : Word) : Nat := r.toNat / 2 ^ (w * i) % 2 ^ w
def setElem (w i : Nat) (r : Word) (x : Nat) : Word :=
  BitVec.ofNat 32 (r.toNat - getElem w i r * 2 ^ (w * i) + x % 2 ^ w * 2 ^ (w * i))

/-- PACK (R144): the element's bits and flags from the source word. -/
def packF (code : Nat) (rm : Rm) (a : Word) : Res :=
  match fpFormat code, intFormat code with
  | some f, _ => toFloat code f rm (v32 a)
  | none, some f =>
    let (r, changed) := f.sat a.toInt
    ⟨intBits f.width r, flagIf changed IV⟩
  | none, none => ⟨if a == 0 then 0 else 1, 0⟩

/-- UNPACK (R144): the word delivered from the element's bits; a signalling NaN of FP16 or BF16 raises IV (R83). -/
def unpackF (code : Nat) (x : Nat) : Res :=
  match fpFormat code, intFormat code with
  | some f, _ => let v := decode f x; ⟨(round fp32 .rn v).code, flagIf v.isSig IV⟩
  | none, some _ => ⟨intBits 32 (intValue code x), 0⟩
  | none, none => ⟨x % 2, 0⟩

/-- The formats PACK and UNPACK take (R144). -/
def packable (code : Nat) : Bool := !(code == 0x0 || code == 0x8 || code == 0xD || code == 0xE)

/-- An element of an MX block (R92) with scale byte `e`: exact. -/
def mxValue (code e x : Nat) : Fv :=
  if e == 0xFF then .nan false
  else match fpFormat code with
    | some f => (decode f (x % 2 ^ f.width)).scale ((e : Int) - 127)
    | none => .zero

/-- The magnitudes of facets 01, 10 and 11 (R93), in halves of a unit, of 2^-6 and of a unit. -/
def facetMags (facet : Nat) : List Nat :=
  if facet == 2 then [0, 1, 2, 4, 8, 16, 32, 64] else [0, 1, 2, 3, 4, 6, 8, 12]

def facetUnit (facet : Nat) : Int := if facet == 1 then -1 else if facet == 2 then -6 else 0

/-- The value of a code of a facet as an integer in the facet's unit (R93). -/
def facetInt (facet code : Nat) : Int :=
  if facet == 0 then sext 4 code
  else sInt (code / 8 % 2 == 1) ((facetMags facet).getD (code % 8) 0)

/-- An element of a FACET4 block (R93): exact; every zero is +0. -/
def facetValue (scale code : Nat) : Fv :=
  let facet := scale / 64 % 4
  let i := facetInt facet code
  .fin (i < 0) i.natAbs ((scale % 64 : Nat) - 31 + facetUnit facet)

/-- Whether a block format is MX (codes 0x3 to 0x7) or FACET4; its element by scale byte and code. -/
def blockValue (code scale x : Nat) : Fv :=
  if code == 0x8 then facetValue scale x else mxValue code scale x

/-- A quantised block: scale byte and element codes. -/
structure QBlock where
  scale : Nat
  codes : List Nat
  deriving DecidableEq, Repr

/-- floor(log2) of a nonzero finite magnitude. -/
def floorLog2 (m : Nat) (e : Int) : Int := m.log2 + e

/-- The greatest exponent of an element format, emax of R94. -/
def mxEmax : Nat → Int
  | 0x3 => 8 | 0x4 => 15 | 0x5 => 4 | _ => 2

/-- The quantiser into an MX format (R94). -/
def quantMx (code : Nat) (xs : List Fv) : QBlock :=
  let logs := xs.filterMap fun v => match v with | .fin _ m e => if m == 0 then none else some (floorLog2 m e) | _ => none
  match logs with
  | [] => ⟨0x7F, xs.map fun v => (convValue code .rn false v).code⟩
  | l :: ls =>
    let x := max (-127) (min 127 (ls.foldl max l - mxEmax code))
    ⟨(x + 127).toNat, xs.map fun v => (convValue code .rn false (v.scale (-x))).code⟩

/-- The facet's codes in the order in which a tie is broken: codes with even low bits first. Both zero codes of facets
01 to 11 read +0 (R93); only 0x0 is a candidate for a value that is not negative. -/
def facetCodes (facet : Nat) (neg : Bool) : List Nat :=
  if facet == 0 then [0, 2, 4, 6, 8, 10, 12, 14, 1, 3, 5, 7, 9, 11, 13, 15]
  else if neg then [if Config.facetNegZero then 8 else 0, 10, 12, 14, 9, 11, 13, 15]
  else [0, 2, 4, 6, 1, 3, 5, 7]

/-- The first code of a list with the least distance from `x`, both in units of the facet scaled by `u`: the code and its
distance. -/
def nearestCode (facet : Nat) (u : Int) (x : Int) : List Nat → Nat × Int → Nat × Int
  | [], best => best
  | c :: cs, best =>
    let d := ((x - facetInt facet c * u).natAbs : Int)
    nearestCode facet u x cs (if d < best.2 then (c, d) else best)

/-- A finite element as an integer over 2^lo. -/
def Fv.over (lo : Int) : Fv → Int
  | .fin n m e => sInt n (shiftBy m (e - lo))
  | _ => 0

/-- The code of one element for facet and exponent, over the common exponent `lo`, and its error (steps 1 and 2 of R95). -/
def facetPick (facet e : Nat) (lo : Int) (v : Fv) : Nat × Int :=
  match v with
  | .nan _ => (0, 0)
  | .inf neg => (if facet == 0 then (if neg then 8 else 7) else if neg then 15 else 7, 0)
  | v =>
    let u : Int := shiftBy 1 ((e : Int) - 31 + facetUnit facet - lo)
    let x := v.over lo
    let cs := facetCodes facet v.isNeg
    nearestCode facet u x cs.tail (cs.headD 0, ((x - facetInt facet (cs.headD 0) * u).natAbs : Int))

/-- Keep the first candidate of least error. -/
def leastErr : List (Nat × Int) → Option (Nat × Int)
  | [] => none
  | c :: cs => match leastErr cs with | none => some c | some b => if b.2 < c.2 then some b else some c

/-- The quantiser into FACET4 (R95). -/
def quantFacet (xs : List Fv) : QBlock :=
  let lo := xs.foldl (fun l v => match v with | .fin _ m e => if m == 0 then l else min l e | _ => l) (-40)
  let err := fun (f e : Nat) => xs.foldl (fun (acc : Int) v => let d := (facetPick f e lo v).2; acc + d * d) 0
  let best := leastErr ((List.range 4).filterMap fun f =>
    (leastErr ((List.range 64).map fun e => (64 * f + e, err f e))))
  let sc := (best.getD (0, 0)).1
  ⟨sc, xs.map fun v => (facetPick (sc / 64) (sc % 64) lo v).1⟩

/-- The quantiser (R94, R95). -/
def quantise (code : Nat) (xs : List Fv) : QBlock := if code == 0x8 then quantFacet xs else quantMx code xs

/-- A cell from its three status bits (R98) and its value; the reserved bits are written zero. -/
def fxCell (status : BitVec 3) (v : BitVec 120) : BitVec 128 := status ++ 0#5 ++ v

/-- FXADD on a cell (R99). -/
def fxAdd (cell : BitVec 128) (x : Fv) : BitVec 128 :=
  let st := cell.extractLsb' 125 3
  let v := cell.extractLsb' 0 120
  match x with
  | .nan _ | .inf _ => fxCell (st ||| 1) v
  | .fin neg m e =>
    if m != 0 && floorLog2 m e ≥ 55 then fxCell (st ||| 4) v
    else
      let i := match integral .rn (.fin neg m (e + 64)) with | .fin n k g => sInt n (shiftBy k g) | _ => 0
      let inexact := !(Fv.ofInt i).feq (.fin neg m (e + 64))
      fxCell (if inexact then st ||| 2 else st) (BitVec.ofInt 120 (v.toInt + i))

/-- FXRD's value (R99), with the flags of its rounding (R258). -/
def fxRead (cell : BitVec 128) : Res :=
  if cell.getLsbD 125 then ⟨qnan32.toNat, 0⟩
  else
    let i := (cell.extractLsb' 0 120).toInt
    rne32 (.fin (i < 0) i.natAbs (-64))

end Sys2Proof.Fp
end

