-- ==== Sys2Proof/Machine/Elementary.lean ====
section
/-!
DEFINITION. The faithfully rounded functions (R106, R116, R135): FRSQ, FTR and the axes and LOD of FPRINT. Each is
computed in fixed point with 640 fractional bits, far beyond the 2^-450 that the nearest case of an FP32 operand
asks, and delivered as one of the two neighbours of the exact real by the free value of log 4.
-/
namespace Sys2Proof.Fp

/-- Fractional bits of the fixed-point work. -/
def fxBits : Nat := 640
def fxOne : Int := 2 ^ fxBits

/-- The product of two fixed-point numbers. -/
def fxMul (a b : Int) : Int := a * b / fxOne

/-- Σ over k of x^(2k+1) ÷ (2k+1) × s^k for `n` terms: s = −1 gives arctan, s = 1 artanh. -/
def oddSeries (x : Int) (s : Int) (n : Nat) : Int :=
  let x2 := fxMul x x
  ((List.range n).foldl (fun (acc : Int × Int) (k : Nat) =>
    (acc.1 + acc.2 / (2 * (k : Int) + 1), s * fxMul acc.2 x2)) (0, x)).1

/-- π by Machin's formula. -/
def fxPi : Int := 16 * oddSeries (fxOne / 5) (-1) 150 - 4 * oddSeries (fxOne / 239) (-1) 50

/-- ln of a fixed-point number from 1 to 2. -/
def fxLn (x : Int) : Int := 2 * oddSeries ((x - fxOne) * fxOne / (x + fxOne)) 1 210

def fxLn2 : Int := fxLn (2 * fxOne)

/-- Σ x^k ÷ k! from k = `i` in steps of `st` with factor `s` each: exp, sin and cos. -/
def facSeries (x : Int) (i st : Nat) (s : Int) (n : Nat) (t0 : Int) : Int :=
  let xp := if st == 1 then x else fxMul x x
  ((List.range n).foldl (fun (acc : Int × Int) (k : Nat) =>
    let d : Nat := if st == 1 then i + k + 1 else (i + 2 * k + 1) * (i + 2 * k + 2)
    (acc.1 + acc.2, s * (fxMul acc.2 xp / (d : Int)))) (0, t0)).1

def fxExp (x : Int) : Int := facSeries x 0 1 1 140 fxOne
def fxSin (x : Int) : Int := facSeries x 1 2 (-1) 80 x
def fxCos (x : Int) : Int := facSeries x 0 2 (-1) 80 fxOne

/-- A real as sign, magnitude and exponent with a sticky last bit: the exact real lies strictly inside the last unit, so
that both neighbours in a coarser format are those of the exact real. -/
structure Approx where
  neg : Bool
  mag : Nat
  exp : Int
  deriving DecidableEq, Repr

/-- A fixed-point result times 2^k; its last 40 bits are given up to the error of the work. -/
def Approx.ofFx (x : Int) (k : Int) : Approx :=
  ⟨x < 0, 2 * (x.natAbs / 2 ^ 40) + 1, k - fxBits + 39⟩

/-- An exact value seen as an approximation. -/
def Approx.ofFv : Fv → Approx
  | .fin n m e => ⟨n, m, e⟩
  | _ => ⟨false, 0, 0⟩

def Approx.mul (a : Approx) (v : Fv) : Fv :=
  match v with
  | .fin n m e => .fin (a.neg != n) (a.mag * m) (a.exp + e)
  | .inf n => .inf (a.neg != n)
  | .nan s => .nan s

/-- A finite value of magnitude 2^128 or more, whose neighbours both lie beyond the largest finite value. -/
def Fv.beyond (v : Fv) : Bool :=
  match v with
  | .fin _ m e => m != 0 && (128 : Int) ≤ m.log2 + e
  | _ => false

/-- Deliver one of the two neighbours (log 4). An exact FP32 value has one neighbour: itself; one beyond the range overflows to an
infinity (R84). -/
def faithful (fn : Nat) (args : List Word) (v : Fv) : Res :=
  if v.beyond then round fp32 .rn v
  else if Config.faithfulUp fn args then round fp32 .ru v else round fp32 .rd v

/-- The fraction of a finite value below one as fixed point, and its floor. -/
def floorFx (v : Fv) : Int × Int :=
  match v with
  | .fin neg m e =>
    let x := sInt neg (shiftBy m (e + fxBits) / 2 ^ (-(e + fxBits)).toNat)
    (x / fxOne, x % fxOne)
  | _ => (0, 0)

/-- Clamp a finite value's magnitude to 2^k, so that no exponent runs away. -/
def clampMag (k : Nat) (v : Fv) : Fv :=
  match v with
  | .fin neg m e => if m != 0 && (m.log2 : Int) + e ≥ k then .fin neg 1 k else v
  | v => v

/-- 2^a for finite a: exact for an integer, else approximate. -/
def exp2Fv (a : Fv) : Fv :=
  let (i, f) := floorFx (clampMag 12 a)
  if f == 0 then .fin false 1 i
  else
    let r := Approx.ofFx (fxExp (fxMul f fxLn2)) i
    -- an argument too small for the fixed point still lifts the result off 1
    .fin false r.mag r.exp

/-- log2 of a positive value m × 2^e: exact for a power of two, else approximate. -/
def log2Fv (m : Nat) (e : Int) : Fv :=
  let k := m.log2
  if m == 2 ^ k then .ofInt (k + e)
  else
    let x := fxLn (if k ≤ fxBits then (m : Int) * 2 ^ (fxBits - k) else (m : Int) / 2 ^ (k - fxBits))
    let y := x * fxOne / fxLn2 + (k + e) * fxOne
    let r := Approx.ofFx y 0
    .fin r.neg r.mag r.exp

/-- Reduce a finite value modulo π/2: the quadrant and the remainder in fixed point. The bits of π suffice for |a| below
2^129 with 500 bits to spare after the reduction. -/
def reduce (v : Fv) : Nat × Int :=
  match v with
  | .fin neg m e =>
    let hi := 130
    let piX : Int :=
      -- π to fxBits + 130 bits from the integer series at that width
      let one : Int := 2 ^ (fxBits + hi)
      let ser := fun (d : Int) (n : Nat) =>
        ((List.range n).foldl (fun (acc : Int × Int) (k : Nat) =>
          (acc.1 + (if k % 2 == 0 then acc.2 / (2 * (k : Int) + 1) else -(acc.2 / (2 * (k : Int) + 1))), acc.2 / (d * d)))
          (0, one / d)).1
      16 * ser 5 180 - 4 * ser 239 60
    let x := sInt neg (shiftBy m (e + fxBits + hi) / 2 ^ (-(e + fxBits + hi)).toNat)
    let q := (2 * x) / piX
    let r := x - q * piX / 2
    ((q % 4).toNat, r / 2 ^ hi)
  | _ => (0, 0)

/-- sin and cos of a finite nonzero value. -/
def sinFv (a : Fv) : Fv :=
  let (q, r) := reduce a
  let x := match q with | 0 => fxSin r | 1 => fxCos r | 2 => -fxSin r | _ => -fxCos r
  let p := Approx.ofFx x 0
  .fin p.neg p.mag p.exp

def cosFv (a : Fv) : Fv :=
  let (q, r) := reduce a
  let x := match q with | 0 => fxCos r | 1 => -fxSin r | 2 => -fxCos r | _ => fxSin r
  let p := Approx.ofFx x 0
  .fin p.neg p.mag p.exp

/-- exp(−2|a|) in fixed point, for |a| up to 200. -/
def expNeg2 (a : Fv) : Int :=
  match a with
  | .fin _ m e =>
    let (i, f) := floorFx (.fin false m (e + 1))
    -- e^−x = 2^−k e^−f' with x = k ln 2 + f'
    let x := i * fxOne + f
    let k := x / fxLn2
    fxExp (-(x % fxLn2)) / 2 ^ k.toNat
  | _ => 0

/-- tanh of a finite nonzero value. -/
def tanhFv (a : Fv) : Fv :=
  match a with
  | .fin neg m e =>
    if (m.log2 : Int) + e ≥ 7 then .fin neg (2 ^ 400 - 1) (-400)
    else
      let t := expNeg2 a
      let p := Approx.ofFx ((fxOne - t) * fxOne / (fxOne + t)) 0
      .fin neg p.mag p.exp
  | v => v

/-- 1 − tanh² of a finite value: 4 e^−2|a| ÷ (1 + e^−2|a|)². -/
def sech2Fv (a : Fv) : Fv :=
  match a with
  | .fin _ 0 _ => .fin false 1 0
  | .fin _ m e =>
    if (m.log2 : Int) + e ≥ 7 then .fin false 1 (-1000)
    else
      let t := expNeg2 a
      let p := Approx.ofFx (4 * t * fxOne / ((fxOne + t) * (fxOne + t) / fxOne)) 0
      .fin false p.mag p.exp
  | _ => .zero

/-- ln 2 as an exact-looking value with a sticky bit. -/
def ln2Fv : Fv := let p := Approx.ofFx fxLn2 0; .fin false p.mag p.exp

/-- FRSQ (R135): 1 ÷ √a, exact when a is an even power of two times a square that divides, else faithful. -/
def frsqF (w : Word) : Res :=
  match v32 w with
  | .nan s => ⟨nanCode fp32, flagIf s IV⟩
  | .inf neg => if neg then ⟨nanCode fp32, IV⟩ else ⟨0, 0⟩
  | .fin neg 0 _ => ⟨signCode fp32 neg + fp32.infCode, DZ⟩
  | .fin true _ _ => ⟨nanCode fp32, IV⟩
  | .fin false m e =>
    let (s, q) := sqrtRat 1 m (-e)
    faithful 0 [w] (.fin false s q)

/-- FTR (R135): fn 0 exp2, 1 log2, 2 sin, 3 cos, 4 tanh. -/
def ftrF (fn : Nat) (w : Word) : Res :=
  let a := v32 w
  match a with
  | .nan s => ⟨nanCode fp32, flagIf s IV⟩
  | .inf neg =>
    match fn with
    | 0 => if neg then ⟨0, 0⟩ else ⟨fp32.infCode, 0⟩
    | 1 => if neg then ⟨nanCode fp32, IV⟩ else ⟨fp32.infCode, 0⟩
    | 4 => ⟨signCode fp32 neg + 0x3F800000, 0⟩
    | _ => ⟨nanCode fp32, IV⟩
  | .fin neg 0 _ =>
    match fn with
    | 0 | 3 => ⟨0x3F800000, 0⟩
    | 1 => ⟨signCode fp32 true + fp32.infCode, DZ⟩
    | _ => ⟨signCode fp32 neg, 0⟩
  | .fin neg m e =>
    match fn with
    | 0 => faithful 1 [w] (exp2Fv a)
    | 1 => if neg then ⟨nanCode fp32, IV⟩ else faithful 2 [w] (log2Fv m e)
    | 2 => faithful 3 [w] (sinFv a)
    | 3 => faithful 4 [w] (cosFv a)
    | _ => faithful 5 [w] (tanhFv a)

/-- The FTR derivative times a component that is finite and nonzero or infinite (R106): f′(a) ⊙ a.k before rounding. -/
def ftrDeriv (fn : Nat) (a k : Fv) : Fv :=
  match a with
  | .fin _ m e =>
    match fn with
    | 0 => ln2Fv.mul ((exp2Fv a).mul k)
    | 1 =>
      -- 1 ÷ (a ln 2)
      let den := (m : Int) * fxLn2
      let p := Approx.ofFx (fxOne * fxOne * 2 ^ 60 / den) (-60 - e)
      p.mul k
    | 2 => if m == 0 then k else (cosFv a).mul k
    | 3 => if m == 0 then (Fv.fin (!a.isNeg) 0 0).mul k else (sinFv a).neg.mul k
    | _ => (sech2Fv a).mul k
  | .inf neg =>
    match fn with
    | 0 => if neg then Fv.zero.mul k else (Fv.inf false).mul k
    | 1 => Fv.zero.mul k
    | _ => Fv.zero.mul k
  | .nan _ => .nan false

/-- The two axes of R116 for a finite Jacobian: the exact squares are `(E ± √(E² − 4Δ²)) ÷ 2`. Each axis is answered as a
magnitude with a sticky bit. The log2 of the major axis is exact where its square is a power of two. -/
structure Axes where
  major : Fv
  minor : Fv
  lod   : Fv
  deriving DecidableEq, Repr

/-- The exact E² − 4Δ² and E over the common exponent of the four entries, as integers. -/
def axesFv (g11 g12 g21 g22 : Fv) : Axes :=
  let ex := fun (v : Fv) => match v with | .fin _ m e => if m == 0 then (0 : Int) else e | _ => 0
  let lo := min (min (ex g11) (ex g12)) (min (ex g21) (ex g22))
  let int := fun (v : Fv) => match v with | .fin n m e => if m == 0 then (0 : Int) else sInt n (shiftBy m (e - lo)) | _ => 0
  let a := int g11
  let b := int g12
  let c := int g21
  let d := int g22
  let en := (a * a + b * b + c * c + d * d).toNat
  let dl := (a * d - b * c).natAbs
  -- √(E² − 4Δ²) scaled by 2^p, with exactness
  let rad := en * en - 4 * dl * dl
  let p : Nat := 400
  let s := isqrt (rad * 2 ^ (2 * p))
  let exact := s * s == rad * 2 ^ (2 * p)
  -- major² × 2^(p+1) = E 2^p + s
  let big := en * 2 ^ p + s
  let rt := fun (n : Nat) (ex : Bool) =>
    let n2 := n * 2 ^ (2 * p)
    let r := isqrt n2
    Fv.fin false (2 * r + (if ex && r * r == n2 then 0 else 1)) (lo - p - 1)
  -- a root of n × 2^(2lo) needs n / 2^(p+1): fold the odd power of two in
  let half := fun (n : Nat) (ex : Bool) =>
    if n == 0 then Fv.zero else rt (n * 2 ^ (p + 1)) ex |>.scale (-((p : Int) + 1))
  -- minor = Δ ÷ major when major ≠ 0: exact via (E − √…) ÷ 2 = Δ² ÷ ((E + √…) ÷ 2)
  let minor :=
    if dl == 0 then Fv.zero
    else
      let num := dl * dl * 2 ^ (p + 1) * 2 ^ (2 * p)
      let q := num / big
      let r := isqrt (q * 2 ^ (2 * p))
      let ok := exact && q * big == num && r * r == q * 2 ^ (2 * p)
      Fv.fin false (2 * r + (if ok then 0 else 1)) (lo - 2 * p - 1)
  let major := half big exact
  let lod :=
    match major with
    | .fin _ m e =>
      if m == 0 then Fv.inf true
      else if exact && big == 2 ^ big.log2 then
        let x : Int := big.log2 + 2 * lo - (p + 1)
        Fv.fin (x < 0) x.natAbs (-1)
      else log2Fv m e
    | v => v
  ⟨major, minor, lod⟩

/-- FPRINT (R116): major, minor and LOD words for the four Jacobian entries. -/
def fprintF (g11 g12 g21 g22 : Word) : Word × Word × Word :=
  let gs := [g11, g12, g21, g22]
  let vs := gs.map v32
  if vs.any Fv.isNan then (qnan32, qnan32, qnan32)
  else if vs.any Fv.isInf then (0x7F800000, 0x7F800000, 0x7F800000)
  else
    let ax := axesFv (v32 g11) (v32 g12) (v32 g21) (v32 g22)
    (toWord (faithful 6 gs ax.major), toWord (faithful 7 gs ax.minor), toWord (faithful 8 gs ax.lod))

end Sys2Proof.Fp
end

