-- ==== Sys2Proof/Machine/Jets.lean ====
section
/-!
DEFINITION. Jets: values with their components, and the propagation rules R104 to R108 and R118 of each class of
instruction. An operand is a value and a list of component words; a missing component is +0 (R33).
-/
namespace Sys2Proof.Fp

/-- A value and its components (R102). -/
structure Jet where
  v : Word
  k : List Word
  deriving DecidableEq, Repr

/-- What an instruction delivers in one thread: the value, the components of a jet destination, the flags raised. -/
structure JOut where
  v  : Word
  k  : List Word
  fl : Flags
  deriving DecidableEq, Repr

/-- A flat result (R103). -/
def Jet.flat (w : Word) : Jet := ⟨w, []⟩
/-- A flat operand under `d` tangents: every component reads +0 (R103), and a modifier acts on it as on any other (R62). -/
def Jet.plain (d : Nat) (w : Word) : Jet := ⟨w, List.replicate d 0⟩
/-- Component `i`. -/
def Jet.comp (x : Jet) (i : Nat) : Word := x.k.getD i 0
def Jet.val (x : Jet) : Fv := v32 x.v
def Jet.tan (x : Jet) (i : Nat) : Fv := v32 (x.comp i)

/-- Negation and absolute value as modifiers (R62, R105, R107): sign bits of the value and its components. -/
def negWord (w : Word) : Word := w ^^^ 0x80000000
def Jet.negate (x : Jet) : Jet := ⟨negWord x.v, x.k.map negWord⟩
def Jet.abs (x : Jet) : Jet := ⟨x.v &&& 0x7FFFFFFF, if (v32 x.v).lt .zero then x.k.map negWord else x.k⟩
/-- Absolute value first, then negation (R62). -/
def Jet.modify (abs neg : Bool) (x : Jet) : Jet :=
  let y := if abs then x.abs else x
  if neg then y.negate else y

/-- Whether a source value or component is a NaN (R108). -/
def Jet.hasNan (d : Nat) (x : Jet) : Bool := x.val.isNan || (List.range d).any fun i => (x.tan i).isNan

/-- The loop of R104 with the flags of R108: the components of a jet destination under `d` tangents, from the value's result
and the component function. `exempt` components are delivered bit for bit. DESIGN CHOICE (log 4): where the value is a NaN, whose step replaces every component,
the loop's roundings raise no flag. -/
def deliver (d : Nat) (jet : Bool) (srcs : List Jet) (val : Res) (comp : Nat → Res) : JOut :=
  if !jet then ⟨toWord val, [], val.fl⟩
  else
    let srcNan := srcs.any (Jet.hasNan d)
    if (v32 (toWord val)).isNan then
      ⟨toWord val, List.replicate d qnan32, val.fl ||| flagIf (d != 0 && !srcNan) TI⟩
    else
      let cs := (List.range d).map comp
      let fl := cs.foldl (fun f r => f ||| (r.fl &&& (NX ||| UF ||| OF))) val.fl
      ⟨toWord val, cs.map toWord, fl ||| flagIf (!srcNan && cs.any fun r => (v32 (toWord r)).isNan) TI⟩

/-- A component from the exact sum of its terms. -/
def sumComp (ts : List Fv) : Res := rne32 (sumTerms ts)

/-- A component copied bit for bit. -/
def copyComp (w : Word) : Res := ⟨w.toNat, 0⟩

/-- FADD and FADDI (R133). -/
def jAdd (d : Nat) (jet : Bool) (rm : Rm) (a b : Jet) : JOut :=
  deliver d jet [a, b] (addF fp32 rm a.val b.val) fun i => sumComp [a.tan i, b.tan i]

/-- FMUL and FMULI (R133). -/
def jMul (d : Nat) (jet : Bool) (rm : Rm) (a b : Jet) : JOut :=
  deliver d jet [a, b] (mulF fp32 rm a.val b.val) fun i =>
    sumComp [annih b.val (a.tan i), annih a.val (b.tan i)]

/-- FFMA (R133). -/
def jFma (d : Nat) (jet : Bool) (rm : Rm) (a b c : Jet) : JOut :=
  deliver d jet [a, b, c] (fmaF fp32 rm a.val b.val c.val) fun i =>
    sumComp [annih b.val (a.tan i), annih a.val (b.tan i), c.tan i]

/-- FSCALE (R133): component 2^n ⊙ a.k. -/
def jScale (d : Nat) (jet : Bool) (rm : Rm) (a : Jet) (n : Int) : JOut :=
  deliver d jet [a] (scaleF rm a.val n) fun i => rne32 (if (a.tan i).isZero then .zero else (a.tan i).scale (clampScale n))

/-- FMINMAX (R134, R107). -/
def jMinMax (d : Nat) (jet b07 : Bool) (fn : Nat) (a b : Jet) : JOut :=
  let (r, first) := minmaxF b07 fn a.v b.v
  deliver d jet [a, b] r fun i => rne32 (if first then a.tan i else b.tan i)

/-- FRND (R134): components +0. -/
def jRnd (d : Nat) (jet : Bool) (rm : Rm) (a : Jet) : JOut :=
  deliver d jet [a] (frndF rm a.val) fun _ => ⟨0, 0⟩

/-- FABS as an instruction (the P half, R107). -/
def jAbs (a : Jet) : Jet := a.abs

/-- The exact quotient of two values rounded RNE, where it exists: 0 ÷ 0 and inf ÷ inf take the free value `free`. -/
def quotComp (n d : Fv) (free : Word) : Res :=
  match n, d with
  | .nan _, _ | _, .nan _ => ⟨qnan32.toNat, 0⟩
  | .inf _, .inf _ => copyComp free
  | .fin _ 0 _, .fin _ 0 _ => copyComp free
  | n, d => divF .rn n d

/-- FDIV (R135, R105): `(b ⊙ a.k − a ⊙ b.k) ÷ b²` as one exact real. -/
def jDiv (d : Nat) (jet : Bool) (rm : Rm) (a b : Jet) : JOut :=
  deliver d jet [a, b] (divF rm a.val b.val) fun i =>
    quotComp (Fv.add .rn (annih b.val (a.tan i)) (annih a.val (b.tan i)).neg) (b.val.mul b.val)
      (Config.fdivOpenComponent a.v b.v (a.comp i) (b.comp i))

/-- The component of a root at ±0 (R107): `neg` is true where a positive component gives −inf. -/
def edgeComp (neg : Bool) (k : Fv) : Res :=
  if k.isNan then ⟨qnan32.toNat, 0⟩
  else if k.isZero then ⟨0, 0⟩
  else if k.isNeg then ⟨qnan32.toNat, 0⟩
  else ⟨signCode fp32 neg + fp32.infCode, 0⟩

/-- A product whose other factor is zero or infinite, by the annihilating rule. -/
def edgeProduct (p k : Fv) : Res := rne32 (annih p k)

/-- FSQRT (R135, R106): component a.k ÷ (2√a) = ±√(a.k² ÷ 4a). -/
def jSqrt (d : Nat) (jet : Bool) (rm : Rm) (a : Jet) : JOut :=
  deliver d jet [a] (sqrtF rm a.val) fun i =>
    match a.val, a.tan i with
    | .fin _ 0 _, k => edgeComp false k
    | .fin _ m e, .fin n km ke =>
      if km == 0 then ⟨0, 0⟩
      else let (s, q) := sqrtRat (km * km) m (2 * ke - e - 2); roundMag fp32 .rn n s 1 q
    | .inf _, k => edgeProduct .zero k
    | _, k => edgeProduct (.inf false) k

/-- FRCP (R135, R106): component −a.k ÷ a². -/
def jRcp (d : Nat) (jet : Bool) (rm : Rm) (a : Jet) : JOut :=
  deliver d jet [a] (rcpF rm a.val) fun i =>
    match a.val with
    | .fin _ 0 _ => edgeProduct (.inf true) (a.tan i)
    | .inf _ => edgeProduct (.fin true 0 0) (a.tan i)
    | v => if (a.tan i).isZero then ⟨0, 0⟩ else quotComp (a.tan i).neg (v.mul v) 0

/-- FRSQ (R135, R106): component −a.k ÷ (2a√a) = ∓√(a.k² ÷ 4a³), faithful. -/
def jRsq (d : Nat) (jet : Bool) (a : Jet) : JOut :=
  deliver d jet [a] (frsqF a.v) fun i =>
    match a.val, a.tan i with
    | .fin _ 0 _, k => edgeComp true k
    | .fin _ m e, .fin n km ke =>
      if km == 0 then ⟨0, 0⟩
      else
        let (s, q) := sqrtRat (km * km) (m * m * m) (2 * ke - 3 * e - 2)
        faithful 0x10 [a.v, a.comp i] (.fin (!n) s q)
    | .inf _, k => edgeProduct (.fin true 0 0) k
    | _, k => edgeProduct (.inf true) k

/-- FTR (R135, R106, R107), faithful. -/
def jFtr (d : Nat) (jet : Bool) (fn : Nat) (a : Jet) : JOut :=
  deliver d jet [a] (ftrF fn a.v) fun i =>
    if fn == 1 && a.val.isZero then edgeComp false (a.tan i)
    else if (a.tan i).isZero then ⟨0, 0⟩
    else faithful (0x11 + fn) [a.v, a.comp i] (ftrDeriv fn a.val (a.tan i))

/-- TWOSUM and TWOPROD (R136): the two results; the error carries +0 components. -/
def jTwo (d : Nat) (jet prod : Bool) (a b : Jet) : JOut × Word :=
  let x := if prod then a.val.mul b.val else a.val.add .rn b.val
  let (s, e) := twoF [a.val, b.val] x
  (deliver d jet [a, b] s fun i =>
    if prod then sumComp [annih b.val (a.tan i), annih a.val (b.tan i)] else sumComp [a.tan i, b.tan i], e)

/-- QNT (R143, R107): `z` gives +0 components, else they are kept bit for bit. -/
def jQnt (d : Nat) (jet z : Bool) (grid : Nat) (rm : Rm) (a : Jet) : JOut :=
  deliver d jet [a] (qntF grid rm a.v) fun i => if z then ⟨0, 0⟩ else copyComp (a.comp i)

/-- JEVAL (R118): `ds` are the offsets Δk. A zero Δk removes its term, and a zero component makes it +0 whatever Δk is, so a NaN
there meets no other operand. DESIGN CHOICE (log 4): with every Δk zero no term is left, and a value of −0 stays −0. -/
def jEval (d : Nat) (jet : Bool) (a : Jet) (ds : List Word) : JOut :=
  if d == 0 then ⟨a.v, [], 0⟩
  else
    let offs := (List.range d).map fun i => v32 (ds.getD i 0)
    let used := (List.range d).filter fun i => !(offs.getD i .zero).isZero
    let terms := used.map fun i => annih (offs.getD i .zero) (a.tan i)
    let exact := terms.foldl (Fv.add .rn) a.val
    let r := rne32 exact
    let quiet := a.val.isNan || terms.any Fv.isNan && used.any fun i =>
      !(a.tan i).isZero && ((offs.getD i .zero).isNan || (a.tan i).isNan)
    let val : Res := ⟨r.code, r.fl ||| sigIV (a.val :: offs) ||| flagIf (exact.isNan && !quiet) IV⟩
    deliver d jet (a :: ds.map Jet.flat) val fun i => copyComp (a.comp i)

end Sys2Proof.Fp
end

