-- ==== Sys2Proof/Syntax.lean ====
section
/-!
DEFINITION. The instruction type of the model: one constructor for each row of the opcode table. The first
group of constructors are the words of the Coluo instruction set; each carries the fields of its word format
(R58 to R68), already cut out of the word, with FN turned into a constructor or a bounded number. The second
group are the device's events (the table's event rows), each with the unit it happens to.
-/
namespace Sys2Proof

/-- Header of a full word after OPC (R58). -/
structure Hdr where
  stall : BitVec 4
  u     : Bool
  g     : BitVec 3
  gn    : Bool
  deriving DecidableEq, Repr

/-- The fields of an F word but for OPC and FN (R61). -/
structure F where
  h   : Hdr
  d   : BitVec 7
  a   : BitVec 7
  b   : BitVec 7
  c   : BitVec 7
  mod : BitVec 12
  deriving DecidableEq, Repr

/-- The fields of an I word but for OPC (R64); bit 32 is reserved and zero. -/
structure I where
  h   : Hdr
  d   : BitVec 7
  a   : BitVec 7
  imm : Word
  deriving DecidableEq, Repr

/-- The fields of an M word but for OPC (R65). -/
structure M where
  h     : Hdr
  d     : BitVec 7
  a     : BitVec 7
  sb    : BitVec 6
  aw    : Bool
  w     : BitVec 3
  scope : BitVec 3
  ord   : BitVec 2
  sp    : BitVec 2
  sx    : Bool
  off   : BitVec 15
  deriving DecidableEq, Repr

/-- The fields of a J word but for OPC (R66); U, G, GN and bits 35 to 32 are zero (R59). -/
structure J where
  stall : BitVec 4
  x     : BitVec 7
  ms    : BitVec 3
  mn    : Bool
  off   : Word
  deriving DecidableEq, Repr

/-- The fields of an E word but for OPC and FN (R67); U, G and GN are zero (R59). -/
structure E where
  stall : BitVec 4
  hd    : BitVec 3
  hw    : Bool
  sa    : BitVec 6
  sb    : BitVec 6
  sc    : BitVec 6
  bn    : BitVec 4
  be    : Bool
  fe    : Bool
  mod   : BitVec 12
  deriving DecidableEq, Repr

/-- The half opcodes of R69. -/
inductive Hop where
  | hnop | mov | iadd | isub | and | or | xor | shl | shr | sar | imin | imax | iaddi6 | movi6
  | fadd | fmul | fmin | fmax | fneg | fabs | mand | mor | pkadd | pkmul | ldp | stp
  deriving DecidableEq, Repr

/-- One half of a P word (R68). -/
structure PHalf where
  hop : Hop
  u   : Bool
  g   : BitVec 3
  d   : BitVec 7
  b   : BitVec 7
  h6  : BitVec 6
  deriving DecidableEq, Repr

/-- A P word (R68): half 0 is written first in source. -/
structure PWord where
  stall : BitVec 3
  h0    : PHalf
  h1    : PHalf
  deriving DecidableEq, Repr

/-- A strand, named by its block's unique number in the model and its sid (R29, R35). -/
structure StrandRef where
  blk : Nat
  sid : Nat
  deriving DecidableEq, Repr

/-- A partition record (R323). `chan` has bit h for channel h, `colour` bits 16d+15 to 16d for die d. -/
structure PartRec where
  chan   : BitVec 384
  colour : BitVec 64
  root   : Nat
  en     : Bool
  bef    : Bool
  rank   : Nat
  clim   : Nat
  cbase  : Nat
  mincl  : Nat
  minch  : Nat
  share  : Nat
  minfc  : Nat
  drain  : Nat
  deriving DecidableEq, Repr

/-- The two kinds of window (R365). -/
inductive WinKind where
  | hostMemory | ethernetRemote
  deriving DecidableEq, Repr

/-- A window of a partition (R365, R367): base in host or remote memory, size in 64 KiB units, timeout in ns. -/
structure Window where
  kind    : WinKind
  base    : Nat
  size    : Nat
  timeout : Nat
  deriving DecidableEq, Repr

/-- A reduction group (R366): the member devices other than this one, reserved contexts, timeout in ns. -/
structure RedGroup where
  members  : List Nat
  contexts : Nat
  timeout  : Nat
  deriving DecidableEq, Repr

/-- The telemetry set-up of a partition (R376, R380, R381): buffer addresses, sample period exponent
(0: sampling off) and counter enable. -/
structure TelemetryCfg where
  eventBase  : Nat
  sampleBase : Nat
  sampleK    : Nat
  counters   : Bool
  deriving DecidableEq, Repr

/-- What a training event concerns (R364, R377). -/
inductive TrainUnit where
  | port | dieLink | stack
  deriving DecidableEq, Repr

/-- What a retirement names (R376). -/
inductive RetireUnit where
  | cluster | channel
  deriving DecidableEq, Repr

/-- A reading of one cluster's ageing monitors (R379): whether it lies in the monitor's range, and the
highest clock the cluster can hold, in steps of 0.125 GHz. -/
structure AgeReading where
  cluster : Nat
  inRange : Bool
  canHold : Nat
  deriving DecidableEq, Repr

/-- One element of a peer device's buffer in a reduction (R288), as the fabric brings it. -/
abbrev PeerData := List (List Word)

/-- One constructor for each row of spec/opcode_table.json. -/
inductive Instr where
  -- instruction words
  | nop | ill
  | movVV (x : F) | movVS (x : F) | movSV (x : F) | movSS (x : F)
  | movQueuePop (x : F) | movQueuePush (x : F) | movVM (x : F) | movMV (x : F)
  | movHandleStatus (x : F) | movHandleToken (x : F) | movTokenHandle (x : F)
  | movi (x : I) | iaddi (x : I) | andi (x : I) | ori (x : I) | xori (x : I)
  | iadd (fn : Fin 3) (x : F) | isub (fn : Fin 3) (x : F) | imul (fn : Fin 3) (x : F) | imad (x : F)
  | iminmax (fn : Fin 4) (x : F) | iabs (x : F) | iaddw (x : F) | lea (x : F) | twill (x : F)
  | shf (fn : Fin 5) (x : F) | bfx (x : F) | bfi (x : F) | popc (x : F) | clz (x : F) | brev (x : F)
  | sel (x : F) | icmp (fn : Fin 10) (x : F) | fcmp (fn : Fin 8) (x : F) | fclass (x : F)
  | read (fn : Fin 17) (x : F) | peek (fn : Fin 4) (x : F)
  | fadd (x : F) | fmul (x : F) | ffma (x : F) | faddi (x : I) | fmuli (x : I) | fscale (x : F)
  | fminmax (fn : Fin 4) (x : F) | frnd (x : F) | fdiv (x : F) | fsqrt (x : F) | frcp (x : F) | frsq (x : F)
  | ftr (fn : Fin 5) (x : F) | twosum (x : F) | twoprod (x : F)
  /-- PK: `bf` false is FP16, true BF16 (FN bit 2, R137). -/
  | pkadd (bf : Bool) (x : F) | pkmul (bf : Bool) (x : F) | pkfma (bf : Bool) (x : F)
  | jseed (x : F) | tget (x : F) | tset (x : F) | jzero (x : F) | jeval (x : F) | fprint (x : F)
  /-- CVT: `dst` is the destination format code (R142). -/
  | cvt (dst : BitVec 4) (x : F)
  | qntSt (x : F) | qntZ (x : F) | pack (x : F) | unpack (x : F)
  | ld (x : M) | st (x : M) | atom (fn : Fin 9) (x : F) | cas (x : F)
  | fxadd (x : F) | fxrdRead (x : F) | fxrdClr (x : F) | qld (x : M) | qst (x : M)
  /-- FENCE: `ord` 0 acquire, 1 release, 2 acq_rel (FN bits 4 to 3 less 1, R77). -/
  | fence (ord : Fin 3) (scope : Fin 6) (x : F) | fenceSc (x : F) | waita (x : F)
  | barSet (x : F) | barMark (x : F) | barWait (x : F) | barWaitPhase (x : F) | barOwe (x : F)
  | barStat (x : F) | barShare (x : F)
  | sknJoin (x : F) | sknLeave (x : F) | sknSync (x : F) | qcfg (x : F)
  | hndWait (x : F) | hndTest (x : F) | hndCancel (x : F) | hndMove (x : F)
  | cpl (x : E) | cplFo (x : E) | cps (x : E) | cpm (x : E) | cpq (x : E) | cpx (x : E) | cpr (x : E)
  | sample (x : F) | sampleLod (x : F) | texbBind (x : F) | texbInval (x : F)
  | mxb (x : E) | mxsw (x : E) | mxsq (x : E) | mma (sr : Fin 5) (x : E) | mxd (x : E) | mxdGuide (x : E)
  | mxcClear (x : E) | mxcPair (x : E) | mxcUnpair (x : E)
  | tdeWrite (x : F) | tdeRead (x : F) | tdeInval (x : F) | hdlLoad (x : F) | hdlPerm (x : F)
  | bra (x : J) | jmpi (x : F) | call (x : J)
  | ctlRet (x : F) | ctlExit (x : F) | ctlRcv (x : F) | ctlRegion (x : F) | ctlSigchk (x : F) | ctlSigrst (x : F)
  | ctlSleep (x : F) | ctlYield (x : F) | ctlTmrset (x : F) | ctlTmrclr (x : F) | ctlTrapu (x : F)
  | ctlUret (x : F) | ctlBrk (x : F) | ctlEvmark (x : F) | msk (fn : Fin 8) (x : F)
  | sysTrap (x : F) | sysTret (x : F) | sysTretRr (x : F) | sysRdcr (x : F) | sysWrcr (x : F)
  | sysHalt (x : F) | sysHaltRelaunch (x : F) | sysXread (x : F) | sysXwrite (x : F) | sysResume (x : F)
  | sysIcinv (x : F)
  | pWord (x : PWord)
  -- events of strands and memory
  | accessPerformed (acc : Nat) | asyncFaultDelivery (r : StrandRef) | hostBreak (r : StrandRef)
  | stopBlockHalt (r : StrandRef) | timerFire (r : StrandRef) | rcvExpired (r : StrandRef) (pc : Dword)
  | waitaWakeOnWrite (r : StrandRef) (t : Nat) | waitaPeriodicRead (r : StrandRef) (t : Nat)
  | waitaBoundExpiry (r : StrandRef) (t : Nat) | sleepExpiry (r : StrandRef) | heartbeatTick
  | queueStalled (blk : Nat) | queueDeadlock (blk : Nat)
  | quorumAnswer (op copy : Nat) | quorumCopyTimeout (op copy : Nat) | quorumScrub (fe va : Nat)
  -- events of engines
  | mxswExchange (op : Nat) | mxbComplete (op : Nat) | mmaCommit (op : Nat) | mxdComplete (op : Nat)
  | cplFollowOnIssue (op : Nat) | recordFreedStart (op : Nat) | copyAccept (op : Nat)
  | copyUnitWritten (op : Nat) (cell : Nat) | copyComplete (op : Nat)
  /-- The reduction finishes with the peers' elements that the fabric brought. -/
  | cprComplete (op : Nat) (peers : PeerData) | cprTimeout (op : Nat)
  | sampleResult (op : Nat) | texbComplete (op : Nat) | tdeComplete (op : Nat)
  -- events of front ends and the dispatcher
  | packetReceive (vf fe : Nat) (bytes : List Byte)
  | cmdLaunch (fe : Nat) | launchFitStart (fe : Nat) | launchComplete (launch : Nat)
  | cmdCopy (fe : Nat) | copyCmdComplete (cmd : Nat) | cmdWait (fe : Nat) | cmdSignal (fe : Nat)
  | signalStore (cmd : Nat) | cmdMap (fe : Nat) | mapComplete (cmd : Nat)
  | cmdStopSuspend (fe : Nat) | cmdStopTerminate (fe : Nat) | cmdStopResume (fe : Nat)
  | drainExpiry (blk : Nat) | blockSaved (blk : Nat) | blockRestore (blk : Nat)
  | contextSwapOut (fe : Nat) | contextSwapIn (fe cbase : Nat)
  | blockPlace (fe : Nat) | strandSelectable (blk : Nat) | blockRetire (blk : Nat) | screenVerdict (blk : Nat)
  | icacheFill (core : Nat) (va : Nat) | demandPageHash (fe va : Nat)
  | objectLoad (fe va tagTable : Nat)
  | hostMemoryWrite (fe pa : Nat) (bytes : List Byte) | hostMemoryRead (fe pa len : Nat)
  -- events of management, bring-up and the fabric
  | mgmtPartitionWrite (fe : Nat) (rec : PartRec) | mgmtPartitionDisable (fe : Nat)
  | mgmtPrivilegedVector (fe : Nat) (va : Dword) | mgmtWindows (fe win : Nat) (w : Option Window)
  | mgmtReductionGroups (fe group : Nat) (g : Option RedGroup) | mgmtReductionGrant (n : Nat)
  | mgmtTelemetry (fe : Nat) (cfg : TelemetryCfg) | mgmtStatusBlock (fe addr : Nat)
  | mgmtPowerLimit (watts : Nat) | mgmtAgeingMeasure (r : AgeReading) | mgmtRetire (u : RetireUnit) (n : Nat)
  | ageingPeriodicRead (rs : List AgeReading) | powerCapAdjust (cluster step : Nat)
  | powerOn | enterReducedService | enterFullService
  | portTrain (u : TrainUnit) (n : Nat) (ok : Bool) | portDown (n : Nat) | portUp (n : Nat)
  | flitCrcReplay (port : Nat) | ethLink (port : Nat) (up : Bool) | weftRetransmit (port : Nat)
  | weftAccessTimeout (acc : Nat) | pcSample (core : Nat)
  | mxsqComplete (op : Nat) | mxcClearComplete (op : Nat) | deviceFatal
  deriving DecidableEq, Repr

/-- The word formats of R57 to R68: a word of the instruction set, with its major opcode and function code. -/
inductive Form where
  | allOnes
  | f (opc fn : Nat) (x : F)
  | i (opc : Nat) (x : I)
  | m (opc : Nat) (x : M)
  | j (opc : Nat) (x : J)
  | e (opc fn : Nat) (x : E)
  | p (x : PWord)
  deriving DecidableEq, Repr

/-- The zero header and the zero F word, from which NOP is made (R59). -/
def Hdr.zero : Hdr := ⟨0, false, 0, false⟩
def F.zero : F := ⟨.zero, 0, 0, 0, 0, 0⟩

/-- The format, opcode and function code of each instruction word (R77); none for an event. -/
def Instr.form : Instr → Option Form
  | .nop => some (.f 0x00 0 .zero) | .ill => some .allOnes
  | .movVV x => some (.f 0x01 0x00 x) | .movVS x => some (.f 0x01 0x01 x) | .movSV x => some (.f 0x01 0x02 x)
  | .movSS x => some (.f 0x01 0x03 x) | .movQueuePop x => some (.f 0x01 0x04 x)
  | .movQueuePush x => some (.f 0x01 0x05 x) | .movVM x => some (.f 0x01 0x06 x)
  | .movMV x => some (.f 0x01 0x07 x) | .movHandleStatus x => some (.f 0x01 0x08 x)
  | .movHandleToken x => some (.f 0x01 0x09 x) | .movTokenHandle x => some (.f 0x01 0x0A x)
  | .movi x => some (.i 0x02 x) | .iaddi x => some (.i 0x04 x) | .andi x => some (.i 0x0B x)
  | .ori x => some (.i 0x0C x) | .xori x => some (.i 0x0D x)
  | .iadd fn x => some (.f 0x03 fn.val x) | .isub fn x => some (.f 0x05 fn.val x)
  | .imul fn x => some (.f 0x06 fn.val x) | .imad x => some (.f 0x07 0 x)
  | .iminmax fn x => some (.f 0x08 fn.val x) | .iabs x => some (.f 0x09 0 x)
  | .iaddw x => some (.f 0x16 0 x) | .lea x => some (.f 0x15 0 x) | .twill x => some (.f 0x0A 0 x)
  | .shf fn x => some (.f 0x0E fn.val x) | .bfx x => some (.f 0x0F 0 x) | .bfi x => some (.f 0x10 0 x)
  | .popc x => some (.f 0x11 0 x) | .clz x => some (.f 0x12 0 x) | .brev x => some (.f 0x13 0 x)
  | .sel x => some (.f 0x14 0 x) | .icmp fn x => some (.f 0x17 fn.val x) | .fcmp fn x => some (.f 0x26 fn.val x)
  | .fclass x => some (.f 0x27 0 x) | .read fn x => some (.f 0x18 fn.val x) | .peek fn x => some (.f 0x19 fn.val x)
  | .fadd x => some (.f 0x20 0 x) | .fmul x => some (.f 0x21 0 x) | .ffma x => some (.f 0x22 0 x)
  | .faddi x => some (.i 0x23 x) | .fmuli x => some (.i 0x24 x) | .fscale x => some (.f 0x2E 0 x)
  | .fminmax fn x => some (.f 0x25 fn.val x) | .frnd x => some (.f 0x2D 0 x) | .fdiv x => some (.f 0x28 0 x)
  | .fsqrt x => some (.f 0x29 0 x) | .frcp x => some (.f 0x2A 0 x) | .frsq x => some (.f 0x2B 0 x)
  | .ftr fn x => some (.f 0x2C fn.val x) | .twosum x => some (.f 0x2F 0 x) | .twoprod x => some (.f 0x30 0 x)
  | .pkadd bf x => some (.f 0x31 (if bf then 0x04 else 0x00) x)
  | .pkmul bf x => some (.f 0x31 (if bf then 0x05 else 0x01) x)
  | .pkfma bf x => some (.f 0x31 (if bf then 0x06 else 0x02) x)
  | .jseed x => some (.f 0x32 0 x) | .tget x => some (.f 0x33 0 x) | .tset x => some (.f 0x34 0 x)
  | .jzero x => some (.f 0x35 0 x) | .jeval x => some (.f 0x36 0 x) | .fprint x => some (.f 0x37 0 x)
  | .cvt dst x => some (.f 0x40 dst.toNat x) | .qntSt x => some (.f 0x41 0x00 x) | .qntZ x => some (.f 0x41 0x01 x)
  | .pack x => some (.f 0x42 0 x) | .unpack x => some (.f 0x43 0 x)
  | .ld x => some (.m 0x50 x) | .st x => some (.m 0x51 x) | .atom fn x => some (.f 0x52 fn.val x)
  | .cas x => some (.f 0x53 0 x) | .fxadd x => some (.f 0x54 0 x) | .fxrdRead x => some (.f 0x55 0x00 x)
  | .fxrdClr x => some (.f 0x55 0x01 x) | .qld x => some (.m 0x56 x) | .qst x => some (.m 0x57 x)
  | .fence ord scope x => some (.f 0x58 (8 * (ord.val + 1) + scope.val) x) | .fenceSc x => some (.f 0x58 0x20 x)
  | .waita x => some (.f 0x59 0 x)
  | .barSet x => some (.f 0x60 0x00 x) | .barMark x => some (.f 0x60 0x01 x) | .barWait x => some (.f 0x60 0x02 x)
  | .barWaitPhase x => some (.f 0x60 0x02 x) | .barOwe x => some (.f 0x60 0x03 x)
  | .barStat x => some (.f 0x60 0x04 x) | .barShare x => some (.f 0x60 0x05 x)
  | .sknJoin x => some (.f 0x61 0x00 x) | .sknLeave x => some (.f 0x61 0x01 x) | .sknSync x => some (.f 0x61 0x02 x)
  | .qcfg x => some (.f 0x62 0 x)
  | .hndWait x => some (.f 0x63 0x00 x) | .hndTest x => some (.f 0x63 0x01 x) | .hndCancel x => some (.f 0x63 0x02 x)
  | .hndMove x => some (.f 0x63 0x03 x)
  | .cpl x => some (.e 0x68 0 x) | .cplFo x => some (.e 0x68 0 x) | .cps x => some (.e 0x69 0 x)
  | .cpm x => some (.e 0x6A 0 x) | .cpq x => some (.e 0x6B 0 x) | .cpx x => some (.e 0x6C 0 x)
  | .cpr x => some (.e 0x6D 0 x)
  | .sample x => some (.f 0x6E 0 x) | .sampleLod x => some (.f 0x6E 0 x)
  | .texbBind x => some (.f 0x6F 0x00 x) | .texbInval x => some (.f 0x6F 0x01 x)
  | .mxb x => some (.e 0x70 0 x) | .mxsw x => some (.e 0x71 0 x) | .mxsq x => some (.e 0x72 0 x)
  | .mma sr x => some (.e 0x73 sr.val x) | .mxd x => some (.e 0x74 0x00 x) | .mxdGuide x => some (.e 0x74 0x01 x)
  | .mxcClear x => some (.e 0x75 0x00 x) | .mxcPair x => some (.e 0x75 0x01 x) | .mxcUnpair x => some (.e 0x75 0x02 x)
  | .tdeWrite x => some (.f 0x76 0x00 x) | .tdeRead x => some (.f 0x76 0x01 x) | .tdeInval x => some (.f 0x76 0x02 x)
  | .hdlLoad x => some (.f 0x77 0x00 x) | .hdlPerm x => some (.f 0x77 0x01 x)
  | .bra x => some (.j 0x78 x) | .jmpi x => some (.f 0x79 0 x) | .call x => some (.j 0x7A x)
  | .ctlRet x => some (.f 0x7B 0x00 x) | .ctlExit x => some (.f 0x7B 0x01 x) | .ctlRcv x => some (.f 0x7B 0x02 x)
  | .ctlRegion x => some (.f 0x7B 0x03 x) | .ctlSigchk x => some (.f 0x7B 0x04 x)
  | .ctlSigrst x => some (.f 0x7B 0x05 x) | .ctlSleep x => some (.f 0x7B 0x06 x)
  | .ctlYield x => some (.f 0x7B 0x07 x) | .ctlTmrset x => some (.f 0x7B 0x08 x)
  | .ctlTmrclr x => some (.f 0x7B 0x09 x) | .ctlTrapu x => some (.f 0x7B 0x0A x)
  | .ctlUret x => some (.f 0x7B 0x0B x) | .ctlBrk x => some (.f 0x7B 0x0C x) | .ctlEvmark x => some (.f 0x7B 0x0D x)
  | .msk fn x => some (.f 0x7C fn.val x)
  | .sysTrap x => some (.f 0x7D 0x00 x) | .sysTret x => some (.f 0x7D 0x01 x) | .sysTretRr x => some (.f 0x7D 0x01 x)
  | .sysRdcr x => some (.f 0x7D 0x02 x) | .sysWrcr x => some (.f 0x7D 0x03 x)
  | .sysHalt x => some (.f 0x7D 0x04 x) | .sysHaltRelaunch x => some (.f 0x7D 0x04 x)
  | .sysXread x => some (.f 0x7D 0x05 x) | .sysXwrite x => some (.f 0x7D 0x06 x)
  | .sysResume x => some (.f 0x7D 0x07 x) | .sysIcinv x => some (.f 0x7D 0x08 x)
  | .pWord x => some (.p x)
  | .accessPerformed _ | .asyncFaultDelivery _ | .hostBreak _ | .stopBlockHalt _ | .timerFire _ | .rcvExpired _ _
  | .waitaWakeOnWrite _ _ | .waitaPeriodicRead _ _ | .waitaBoundExpiry _ _ | .sleepExpiry _ | .heartbeatTick
  | .queueStalled _ | .queueDeadlock _ | .quorumAnswer _ _ | .quorumCopyTimeout _ _ | .quorumScrub _ _
  | .mxswExchange _ | .mxbComplete _ | .mmaCommit _ | .mxdComplete _ | .cplFollowOnIssue _ | .recordFreedStart _
  | .copyAccept _ | .copyUnitWritten _ _ | .copyComplete _ | .cprComplete _ _ | .cprTimeout _ | .sampleResult _
  | .texbComplete _ | .tdeComplete _ | .packetReceive _ _ _ | .cmdLaunch _ | .launchFitStart _ | .launchComplete _
  | .cmdCopy _ | .copyCmdComplete _ | .cmdWait _ | .cmdSignal _ | .signalStore _ | .cmdMap _ | .mapComplete _
  | .cmdStopSuspend _ | .cmdStopTerminate _ | .cmdStopResume _ | .drainExpiry _ | .blockSaved _ | .blockRestore _
  | .contextSwapOut _ | .contextSwapIn _ _ | .blockPlace _ | .strandSelectable _ | .blockRetire _ | .screenVerdict _
  | .icacheFill _ _ | .demandPageHash _ _ | .objectLoad _ _ _ | .hostMemoryWrite _ _ _ | .hostMemoryRead _ _ _
  | .mgmtPartitionWrite _ _ | .mgmtPartitionDisable _ | .mgmtPrivilegedVector _ _ | .mgmtWindows _ _ _
  | .mgmtReductionGroups _ _ _ | .mgmtReductionGrant _ | .mgmtTelemetry _ _ | .mgmtStatusBlock _ _
  | .mgmtPowerLimit _ | .mgmtAgeingMeasure _ | .mgmtRetire _ _ | .ageingPeriodicRead _ | .powerCapAdjust _ _
  | .powerOn | .enterReducedService | .enterFullService | .portTrain _ _ _ | .portDown _ | .portUp _
  | .flitCrcReplay _ | .ethLink _ _ | .weftRetransmit _ | .weftAccessTimeout _ | .pcSample _
  | .mxsqComplete _ | .mxcClearComplete _ | .deviceFatal => none

end Sys2Proof
end

