-- ==== Sys2Proof/WellFormed.lean ====
section
/-!
DEFINITION. Well-formed instruction words: every check of R59 to R70 and of the entries whose failure is the cause
RESERVED_FIELD (R60). A word that fails one of them is no instruction, and the decoder names RESERVED_FIELD.
Causes of other names (REG_RANGE, UNIFORM_OPERAND, PAIR_RULE and so on) depend on the launch or rank later
(R56); the meanings of the instructions raise those.
-/
namespace Sys2Proof

/-- What may stand in a register field of an F word (R60). -/
inductive Use where
  /-- unused: must be zero -/
  | zero
  /-- a 7-bit register number, or a BI immediate -/
  | reg
  /-- a mask, handle or queue: bits 6 to 3 are zero -/
  | low3
  /-- a barrier: bits 6 to 4 are zero -/
  | low4
  deriving DecidableEq, Repr

def Use.ok : Use → BitVec 7 → Bool
  | .zero, r => r == 0
  | .reg, _ => true
  | .low3, r => r.toNat < 8
  | .low4, r => r.toNat < 16

/-- R59: a guard number is needed to invert a guard. -/
def Hdr.ok (h : Hdr) : Bool := !(h.g == 0 && h.gn)

/-- The common check of an F word: the header, the use of the four register fields, and the MOD bits that the
entry names (`mask`). -/
def F.ok (d a b c : Use) (mask : BitVec 12) (x : F) : Bool :=
  x.h.ok && d.ok x.d && a.ok x.a && b.ok x.b && c.ok x.c && (x.mod &&& ~~~mask) == 0

namespace F
/-- BI (MOD bit 11) and the modifier bits of R62. -/
def bi (x : F) : Bool := x.mod.getLsbD 11
def na (x : F) : Bool := x.mod.getLsbD 10
def nb (x : F) : Bool := x.mod.getLsbD 9
def nc (x : F) : Bool := x.mod.getLsbD 8
def aa (x : F) : Bool := x.mod.getLsbD 7
def ab (x : F) : Bool := x.mod.getLsbD 6
def ac (x : F) : Bool := x.mod.getLsbD 5
/-- MOD bits `hi` to `lo` as a number. -/
def modN (x : F) (hi lo : Nat) : Nat := bitsN x.mod.toNat hi lo
end F

namespace E
/-- MOD bits `hi` to `lo` of an E word as a number; FSP is bits 10 to 9, BK bit 8 (R192, R272). -/
def modN (x : E) (hi lo : Nat) : Nat := bitsN x.mod.toNat hi lo
def fsp (x : E) : Nat := x.modN 10 9
def bk (x : E) : Bool := x.mod.getLsbD 8
def fo (x : E) : Bool := x.mod.getLsbD 11
end E

/-- The common check of an E word (R67, R192, R272): `sa`, `sb` say whether the entry uses the group, `mask` the
MOD bits the entry may use beside FSP. -/
def E.ok (sa sb : Bool) (mask : BitVec 12) (x : E) : Bool :=
  (x.hw || x.hd == 0) && (x.be || x.bn == 0) && (x.fe || (x.sc == 0 && x.fsp == 0))
    && (sa || x.sa == 0) && (sb || x.sb == 0) && (x.mod &&& ~~~(mask ||| 0x600#12)) == 0

/-- The checks of R65 whose cause is RESERVED_FIELD; `store` is true for ST and QST. -/
def M.ok (store : Bool) (x : M) : Bool :=
  x.h.ok && x.w.toNat ≤ 5 && x.scope.toNat ≤ 5
    && (!x.aw || (x.sb == 0 && x.sp == 0)) && (!x.sx || (x.w.toNat < 2 && !store))

/-- The values a half's fields may hold (R70); M0 as a destination is no matter of RESERVED_FIELD. -/
def PHalf.ok (p : PHalf) : Bool :=
  match p.hop with
  | .hnop => p.b == 0 && p.h6 == 0 && p.d == 0 && !p.u && p.g == 0
  | .shl | .shr | .sar => p.b == 0 && p.h6.toNat < 32
  | .iaddi6 | .movi6 => p.b == 0
  | .mand | .mor => p.h6 == 0 && p.b.toNat < 8 && p.d.toNat < 8
  | .ldp | .stp => true
  | .mov | .iadd | .isub | .and | .or | .xor | .imin | .imax | .fadd | .fmul | .fmin | .fmax | .fneg | .fabs
  | .pkadd | .pkmul => p.h6 == 0

/-- SCOPE 6 and 7 are reserved in the MOD layout of R254. -/
def F.scopeOk (x : F) : Bool := x.modN 2 0 ≤ 5

/-- The number of packed elements of a format code in a register (R141); 0 for a code PACK does not take. -/
def packCount : Nat → Nat
  | 0x1 | 0x2 | 0xC => 2
  | 0x3 | 0x4 | 0x9 | 0xA => 4
  | 0x5 | 0x6 => 5
  | 0x7 | 0xB => 8
  | 0xF => 32
  | _ => 0

/-- R144: a BI element index below the element count, and RM zero for the integer formats and BIN1. DESIGN CHOICE (log 19): code 0xD, which names no element
format, is FORMAT_PAIR whatever RM holds. -/
def F.packOk (isPack : Bool) (x : F) : Bool :=
  let fmt := x.modN 3 0
  let n := packCount fmt
  (!x.bi || n == 0 || x.b.toNat < n) && (!isPack || fmt < 9 || fmt == 0xD || fmt == 0xE || x.modN 5 4 == 0)

/-- No header bits at all: U, G and GN zero (CTL but EXIT, R305). -/
def Hdr.plain (h : Hdr) : Bool := !h.u && h.g == 0 && !h.gn

/-- Well-formed: the word's fields pass every RESERVED_FIELD check of its entry. An event has no word; it is
well-formed as it stands. -/
def Instr.wf : Instr → Bool
  | .nop | .ill => true
  | .movVV x | .movVS x | .movSS x => x.ok .reg .reg .zero .zero 0
  | .movSV x => x.ok .reg .reg .zero .zero 0x01F
  | .movQueuePop x => x.ok .reg .low3 .zero .zero 0
  | .movQueuePush x => x.ok .low3 .reg .zero .zero 0
  | .movVM x => x.ok .reg .low3 .zero .zero 0
  | .movMV x => x.ok .low3 .reg .zero .zero 0
  | .movHandleStatus x => x.ok .reg .low3 .zero .zero 0
  | .movHandleToken x => x.ok .reg .low3 .zero .zero 0 && !x.h.u
  | .movTokenHandle x => x.ok .low3 .reg .zero .zero 0 && !x.h.u
  | .movi x => x.h.ok && x.a == 0
  | .iaddi x | .andi x | .ori x | .xori x | .faddi x | .fmuli x => x.h.ok
  | .iadd _ x | .isub _ x | .imul _ x | .iminmax _ x | .iaddw x | .shf _ x => x.ok .reg .reg .reg .zero 0x800
  | .imad x => x.ok .reg .reg .reg .reg 0x800
  | .iabs x | .popc x | .clz x | .brev x => x.ok .reg .reg .zero .zero 0
  | .lea x => x.ok .reg .reg .reg .zero 0x81F
  | .twill x => x.ok .reg .reg .reg .reg 0x8FF
  | .bfx x => x.ok .reg .reg .zero .zero 0x7FF && x.modN 9 5 + x.modN 4 0 < 32
  | .bfi x => x.ok .reg .reg .reg .zero 0x3FF && x.modN 9 5 + x.modN 4 0 < 32
  | .sel x => x.ok .reg .reg .reg .zero 0x80F
  | .icmp _ x => x.ok .low3 .reg .reg .zero 0x800
  | .fcmp _ x => x.ok .low3 .reg .reg .zero 0xEC0
  | .fclass x => x.ok .low3 .reg .zero .zero 0x3FF
  | .read _ x => x.ok .reg .zero .zero .zero 0
  | .peek fn x => x.ok .reg .reg .reg .zero 0x80F && x.modN 2 0 ≤ 4
      && (!x.mod.getLsbD 3 || (x.bi && (fn == 1 || fn == 2)))
  | .fadd x | .fmul x | .fscale x | .fdiv x => x.ok .reg .reg .reg .zero 0xEC3
  | .ffma x => x.ok .reg .reg .reg .reg 0xFE3
  | .fminmax _ x | .twosum x | .twoprod x => x.ok .reg .reg .reg .zero 0xEC0
  -- DEDUCED (log 4): R134 names only RM of FRND; A takes its modifiers as in every form of R62
  | .frnd x | .fsqrt x | .frcp x => x.ok .reg .reg .zero .zero 0x483
  | .frsq x | .ftr _ x => x.ok .reg .reg .zero .zero 0x480
  | .pkadd _ x | .pkmul _ x => x.ok .reg .reg .reg .zero 0xEC3
  | .pkfma _ x => x.ok .reg .reg .reg .reg 0xFE3
  | .jseed x | .tget x | .tset x => x.ok .reg .reg .zero .zero 0x007
  | .jzero x => x.ok .reg .zero .zero .zero 0
  | .jeval x | .fprint x => x.ok .reg .reg .reg .zero 0
  | .cvt _ x | .qntSt x | .qntZ x => x.ok .reg .reg .zero .zero 0x03F
  | .pack x => x.ok .reg .reg .reg .zero 0x83F && x.packOk true
  | .unpack x => x.ok .reg .reg .reg .zero 0x80F && x.packOk false
  | .ld x => x.ok false
  | .st x => x.ok true
  | .qld x => x.ok false && x.w == 4 && !x.sx
  | .qst x => x.ok true && x.w == 4
  | .atom _ x => x.ok .reg .reg .reg .zero 0x8FF && x.scopeOk
  | .cas x => x.ok .reg .reg .reg .reg 0x0FF && x.scopeOk
  | .fxadd x => x.ok .zero .reg .reg .zero 0x37F && x.scopeOk && x.modN 9 8 < 3
  | .fxrdRead x | .fxrdClr x => x.ok .reg .reg .zero .zero 0x07F && x.scopeOk
  | .fence _ _ x | .fenceSc x => x.ok .zero .zero .zero .zero 0 && !x.h.u
  | .waita x => x.ok .reg .reg .reg (if x.mod.getLsbD 7 then .reg else .zero) 0xFFF && x.scopeOk && x.modN 10 8 ≤ 5
  | .barSet x | .barMark x | .barOwe x => x.ok .zero .low4 .reg .zero 0x800 && !x.h.u
  | .barWait x => x.ok .zero .low4 .zero .zero 0 && !x.h.u
  | .barWaitPhase x => x.ok .zero .low4 .reg .zero 1 && x.mod == 1 && !x.h.u
  | .barStat x => x.ok .reg .low4 .zero .zero 0 && !x.h.u
  | .barShare x => x.ok .zero .low4 .reg .reg 0 && !x.h.u
  | .sknJoin x => x.ok .zero .zero .reg .zero 0x800 && !x.h.u && (!x.bi || x.b.toNat ≤ 15)
  | .sknLeave x | .sknSync x => x.ok .zero .zero .zero .zero 0 && !x.h.u
  | .qcfg x => x.ok .low3 .reg .zero .zero 0 && !x.h.u
  | .hndWait x | .hndCancel x => x.ok .zero .low3 .zero .zero 0 && !x.h.u
  | .hndTest x => x.ok .reg .low3 .zero .zero 0 && !x.h.u
  | .hndMove x => x.ok .low3 .low3 .zero .zero 0 && !x.h.u
  | .cpl x => x.ok true true 0x100
  | .cplFo x => x.ok true true 0x900 && x.fo
  | .cps x | .cpm x | .cpx x => x.ok true true 0x100
  | .cpq x => x.ok true true 0x103 && x.modN 1 0 < 3
  | .cpr x => x.ok true false 0x03F && x.modN 5 4 < 3
      && (x.modN 3 0 == 0 || x.modN 3 0 == 1 || x.modN 3 0 == 2 || x.modN 3 0 == 0xD)
  | .sample x => x.ok .reg .reg .reg .zero 0x00F
  | .sampleLod x => x.ok .reg .reg .reg .reg 0x01F && x.mod.getLsbD 4
  | .texbBind x => x.ok .zero .reg .zero .zero 0x00F && !x.h.u
  | .texbInval x => x.ok .zero .zero .zero .zero 0x00F && !x.h.u
  | .mxb x => x.ok true false 0
  | .mxsw x => x.ok false false 0
  | .mxsq x => x.ok true true 0
  | .mma _ x => x.ok true true 0x1FF
  | .mxd x | .mxdGuide x => x.ok true true 0x03F
      && (x.modN 5 4 == 0 || (x.modN 3 0 != 0xD && x.modN 3 0 != 0xE))
  | .mxcClear x => x.ok false true 0x007 && x.modN 2 0 ≤ 4
  | .mxcPair x => x.ok false true 0
  | .mxcUnpair x => x.ok false false 0
  | .tdeWrite x | .tdeRead x => x.ok .zero .reg .reg .zero 0x003 && !x.h.u
  | .tdeInval x => x.ok .zero .reg .zero .zero 0 && !x.h.u
  | .hdlLoad x => x.ok .zero .reg .zero .zero 0x037 && !x.h.u && x.modN 5 4 != 0
  | .hdlPerm x => x.ok .reg .reg .zero .zero 0x007
  | .bra x => x.x == 0 && (x.ms != 0 || !x.mn)
  | .jmpi x => x.ok .reg .reg .zero .zero 0
  | .call x => x.x != 0 && x.ms == 0 && !x.mn
  | .ctlRet x | .ctlTmrset x => x.ok .zero .reg .zero .zero 0 && x.h.plain
  | .ctlExit x => x.ok .zero .zero .zero .zero 0 && !x.h.u
  | .ctlRcv x | .ctlSleep x | .ctlEvmark x => x.ok .zero .zero .reg .zero 0x800 && x.h.plain
  | .ctlRegion x | .ctlSigrst x | .ctlYield x | .ctlTmrclr x | .ctlUret x | .ctlBrk x =>
      x.ok .zero .zero .zero .zero 0 && x.h.plain
  | .ctlSigchk x => x.ok .reg .reg .reg .reg 0x00F && x.h.plain
  | .ctlTrapu x => x.ok .zero .zero .zero .zero 0x0FF && x.h.plain
  | .msk fn x => x.ok .low3 .low3 (if fn.val = 3 ∨ 5 ≤ fn.val then .zero else .low3) .zero 0
  | .sysTrap x => x.ok .zero .zero .zero .zero 0x00F && !x.h.u
  | .sysTret x => x.ok .zero .zero .zero .zero 0 && !x.h.u
  | .sysTretRr x => x.ok .zero .zero .zero .zero 1 && x.mod == 1 && !x.h.u
  | .sysRdcr x => x.ok .reg .zero .zero .zero 0x03F && !x.h.u
  | .sysWrcr x => x.ok .zero .reg .zero .zero 0x03F && !x.h.u
  | .sysHalt x => x.ok .zero .zero .reg .zero 0x800 && !x.h.u
  | .sysHaltRelaunch x => x.ok .zero .zero .reg .zero 0x801 && x.mod.getLsbD 0 && !x.h.u
  | .sysXread x => x.ok .reg .reg .zero .zero 0 && !x.h.u
  | .sysXwrite x => x.ok .zero .reg .reg .zero 0 && !x.h.u
  | .sysResume x => x.ok .zero .reg .zero .zero 0 && !x.h.u
  | .sysIcinv x => x.ok .zero .reg .reg .zero 0 && !x.h.u
  | .pWord x => x.h0.ok && x.h1.ok
  | .accessPerformed _ | .asyncFaultDelivery _ | .hostBreak _ | .stopBlockHalt _ | .timerFire _ | .rcvExpired _ _
  | .waitaWakeOnWrite _ _ | .waitaPeriodicRead _ _ | .waitaBoundExpiry _ _ | .sleepExpiry _ | .heartbeatTick
  | .queueStalled _ | .queueDeadlock _ | .quorumAnswer _ _ | .quorumCopyTimeout _ _ | .quorumScrub _ _
  | .mxswExchange _ | .mxbComplete _ | .mmaCommit _ | .mxdComplete _ | .cplFollowOnIssue _ | .recordFreedStart _
  | .copyAccept _ | .copyUnitWritten _ _ | .copyComplete _ | .cprComplete _ _ | .cprTimeout _ | .sampleResult _
  | .texbComplete _ | .tdeComplete _ | .packetReceive _ _ _ | .cmdLaunch _ | .launchFitStart _ | .launchComplete _
  | .cmdCopy _ | .copyCmdComplete _ | .cmdWait _ | .cmdSignal _ | .signalStore _ | .cmdMap _ | .mapComplete _
  | .cmdStopSuspend _ | .cmdStopTerminate _ | .cmdStopResume _ | .drainExpiry _ | .blockSaved _ | .blockRestore _
  | .contextSwapOut _ | .contextSwapIn _ _ | .blockPlace _ | .strandSelectable _ | .blockRetire _ | .screenVerdict _
  | .icacheFill _ _ | .demandPageHash _ _ | .objectLoad _ _ _ | .hostMemoryWrite _ _ _ | .hostMemoryRead _ _ _
  | .mgmtPartitionWrite _ _ | .mgmtPartitionDisable _ | .mgmtPrivilegedVector _ _ | .mgmtWindows _ _ _
  | .mgmtReductionGroups _ _ _ | .mgmtReductionGrant _ | .mgmtTelemetry _ _ | .mgmtStatusBlock _ _
  | .mgmtPowerLimit _ | .mgmtAgeingMeasure _ | .mgmtRetire _ _ | .ageingPeriodicRead _ | .powerCapAdjust _ _
  | .powerOn | .enterReducedService | .enterFullService | .portTrain _ _ _ | .portDown _ | .portUp _
  | .flitCrcReplay _ | .ethLink _ _ | .weftRetransmit _ | .weftAccessTimeout _ | .pcSample _
  | .mxsqComplete _ | .mxcClearComplete _ | .deviceFatal => true

end Sys2Proof
end

