-- ==== Sys2Proof/Decode.lean ====
section
/-!
DEFINITION. The decoder, total on every 64-bit word (R57 to R79), and after it the encoder. The decoder answers an
instruction, or the cause that the word traps with: ILLEGAL_OPCODE or RESERVED_FIELD. The word of all ones is
ILL, an instruction whose meaning traps ILLEGAL_WORD (R57).
-/
namespace Sys2Proof

/-- Why a word is no instruction (R79), in the rank of R56. -/
inductive DecodeError where
  | illegalOpcode | reservedField
  deriving DecidableEq, Repr

/-- Read a header (R58). -/
def Hdr.ofWord (w : Dword) : Hdr :=
  ⟨w.extractLsb' 52 4, w.getLsbD 51, w.extractLsb' 48 3, w.getLsbD 47⟩

def F.ofWord (w : Dword) : F :=
  ⟨.ofWord w, w.extractLsb' 40 7, w.extractLsb' 33 7, w.extractLsb' 26 7, w.extractLsb' 19 7, w.extractLsb' 0 12⟩

def I.ofWord (w : Dword) : I := ⟨.ofWord w, w.extractLsb' 40 7, w.extractLsb' 33 7, w.extractLsb' 0 32⟩

def M.ofWord (w : Dword) : M :=
  ⟨.ofWord w, w.extractLsb' 40 7, w.extractLsb' 33 7, w.extractLsb' 27 6, w.getLsbD 26, w.extractLsb' 23 3,
   w.extractLsb' 20 3, w.extractLsb' 18 2, w.extractLsb' 16 2, w.getLsbD 15, w.extractLsb' 0 15⟩

def J.ofWord (w : Dword) : J :=
  ⟨w.extractLsb' 52 4, w.extractLsb' 40 7, w.extractLsb' 37 3, w.getLsbD 36, w.extractLsb' 0 32⟩

def E.ofWord (w : Dword) : E :=
  ⟨w.extractLsb' 52 4, w.extractLsb' 44 3, w.getLsbD 43, w.extractLsb' 37 6, w.extractLsb' 31 6,
   w.extractLsb' 25 6, w.extractLsb' 14 4, w.getLsbD 13, w.getLsbD 12, w.extractLsb' 0 12⟩

/-- The half opcodes of R69; the rest are illegal. -/
def Hop.ofCode : Nat → Option Hop
  | 0x00 => some .hnop | 0x01 => some .mov | 0x02 => some .iadd | 0x03 => some .isub | 0x04 => some .and
  | 0x05 => some .or | 0x06 => some .xor | 0x07 => some .shl | 0x08 => some .shr | 0x09 => some .sar
  | 0x0A => some .imin | 0x0B => some .imax | 0x0C => some .iaddi6 | 0x0D => some .movi6
  | 0x10 => some .fadd | 0x11 => some .fmul | 0x12 => some .fmin | 0x13 => some .fmax | 0x14 => some .fneg
  | 0x15 => some .fabs | 0x18 => some .mand | 0x19 => some .mor | 0x1A => some .pkadd | 0x1B => some .pkmul
  | 0x20 => some .ldp | 0x21 => some .stp | _ => none

def Hop.code : Hop → BitVec 6
  | .hnop => 0x00 | .mov => 0x01 | .iadd => 0x02 | .isub => 0x03 | .and => 0x04 | .or => 0x05 | .xor => 0x06
  | .shl => 0x07 | .shr => 0x08 | .sar => 0x09 | .imin => 0x0A | .imax => 0x0B | .iaddi6 => 0x0C
  | .movi6 => 0x0D | .fadd => 0x10 | .fmul => 0x11 | .fmin => 0x12 | .fmax => 0x13 | .fneg => 0x14
  | .fabs => 0x15 | .mand => 0x18 | .mor => 0x19 | .pkadd => 0x1A | .pkmul => 0x1B | .ldp => 0x20 | .stp => 0x21

/-- A half from its 30 bits (R68). -/
def PHalf.ofBits (w : BitVec 30) : Option PHalf :=
  (Hop.ofCode (w.extractLsb' 24 6).toNat).map fun hop =>
    ⟨hop, w.getLsbD 23, w.extractLsb' 20 3, w.extractLsb' 13 7, w.extractLsb' 6 7, w.extractLsb' 0 6⟩

/-- A bounded function code. -/
def finFn (n fn : Nat) (mk : Fin n → Instr) : Option Instr := if h : fn < n then some (mk ⟨fn, h⟩) else none

/-- A function code that must be zero (R77). -/
def fn0 (fn : Nat) (i : Instr) : Option Instr := if fn = 0 then some i else none

/-- F words by opcode and function code (the maps of R77); none is ILLEGAL_OPCODE. -/
def decodeF (opc fn : Nat) (x : F) : Option Instr :=
  match opc with
  -- any bit of a NOP is reserved, those of FN too (R59, R79)
  | 0x00 => some .nop
  | 0x01 =>
    match fn with
    | 0x00 => some (.movVV x) | 0x01 => some (.movVS x) | 0x02 => some (.movSV x) | 0x03 => some (.movSS x)
    | 0x04 => some (.movQueuePop x) | 0x05 => some (.movQueuePush x) | 0x06 => some (.movVM x)
    | 0x07 => some (.movMV x) | 0x08 => some (.movHandleStatus x) | 0x09 => some (.movHandleToken x)
    | 0x0A => some (.movTokenHandle x) | _ => none
  | 0x03 => finFn 3 fn (.iadd · x) | 0x05 => finFn 3 fn (.isub · x) | 0x06 => finFn 3 fn (.imul · x)
  | 0x07 => fn0 fn (.imad x) | 0x08 => finFn 4 fn (.iminmax · x) | 0x09 => fn0 fn (.iabs x)
  | 0x0A => fn0 fn (.twill x) | 0x0E => finFn 5 fn (.shf · x) | 0x0F => fn0 fn (.bfx x) | 0x10 => fn0 fn (.bfi x)
  | 0x11 => fn0 fn (.popc x) | 0x12 => fn0 fn (.clz x) | 0x13 => fn0 fn (.brev x) | 0x14 => fn0 fn (.sel x)
  | 0x15 => fn0 fn (.lea x) | 0x16 => fn0 fn (.iaddw x) | 0x17 => finFn 10 fn (.icmp · x)
  | 0x18 => finFn 17 fn (.read · x) | 0x19 => finFn 4 fn (.peek · x)
  | 0x20 => fn0 fn (.fadd x) | 0x21 => fn0 fn (.fmul x) | 0x22 => fn0 fn (.ffma x)
  | 0x25 => finFn 4 fn (.fminmax · x) | 0x26 => finFn 8 fn (.fcmp · x) | 0x27 => fn0 fn (.fclass x)
  | 0x28 => fn0 fn (.fdiv x) | 0x29 => fn0 fn (.fsqrt x) | 0x2A => fn0 fn (.frcp x) | 0x2B => fn0 fn (.frsq x)
  | 0x2C => finFn 5 fn (.ftr · x) | 0x2D => fn0 fn (.frnd x) | 0x2E => fn0 fn (.fscale x)
  | 0x2F => fn0 fn (.twosum x) | 0x30 => fn0 fn (.twoprod x)
  | 0x31 =>
    match fn with
    | 0x00 => some (.pkadd false x) | 0x01 => some (.pkmul false x) | 0x02 => some (.pkfma false x)
    | 0x04 => some (.pkadd true x) | 0x05 => some (.pkmul true x) | 0x06 => some (.pkfma true x) | _ => none
  | 0x32 => fn0 fn (.jseed x) | 0x33 => fn0 fn (.tget x) | 0x34 => fn0 fn (.tset x) | 0x35 => fn0 fn (.jzero x)
  | 0x36 => fn0 fn (.jeval x) | 0x37 => fn0 fn (.fprint x)
  | 0x40 => if fn < 16 then some (.cvt (BitVec.ofNat 4 fn) x) else none
  | 0x41 => match fn with | 0 => some (.qntSt x) | 1 => some (.qntZ x) | _ => none
  | 0x42 => fn0 fn (.pack x) | 0x43 => fn0 fn (.unpack x)
  | 0x52 => finFn 9 fn (.atom · x) | 0x53 => fn0 fn (.cas x) | 0x54 => fn0 fn (.fxadd x)
  | 0x55 => match fn with | 0 => some (.fxrdRead x) | 1 => some (.fxrdClr x) | _ => none
  | 0x58 =>
    if fn = 0x20 then some (.fenceSc x)
    else if h : 1 ≤ fn / 8 ∧ fn / 8 ≤ 3 ∧ fn % 8 < 6 then some (.fence ⟨fn / 8 - 1, by omega⟩ ⟨fn % 8, h.2.2⟩ x)
    else none
  | 0x59 => fn0 fn (.waita x)
  | 0x60 =>
    match fn with
    | 0x00 => some (.barSet x) | 0x01 => some (.barMark x)
    | 0x02 => some (if x.mod.getLsbD 0 then .barWaitPhase x else .barWait x)
    | 0x03 => some (.barOwe x) | 0x04 => some (.barStat x) | 0x05 => some (.barShare x) | _ => none
  | 0x61 => match fn with | 0 => some (.sknJoin x) | 1 => some (.sknLeave x) | 2 => some (.sknSync x) | _ => none
  | 0x62 => fn0 fn (.qcfg x)
  | 0x63 =>
    match fn with
    | 0 => some (.hndWait x) | 1 => some (.hndTest x) | 2 => some (.hndCancel x) | 3 => some (.hndMove x) | _ => none
  | 0x6E => fn0 fn (if x.mod.getLsbD 4 then .sampleLod x else .sample x)
  | 0x6F => match fn with | 0 => some (.texbBind x) | 1 => some (.texbInval x) | _ => none
  | 0x76 => match fn with | 0 => some (.tdeWrite x) | 1 => some (.tdeRead x) | 2 => some (.tdeInval x) | _ => none
  | 0x77 => match fn with | 0 => some (.hdlLoad x) | 1 => some (.hdlPerm x) | _ => none
  | 0x79 => fn0 fn (.jmpi x)
  | 0x7B =>
    match fn with
    | 0x00 => some (.ctlRet x) | 0x01 => some (.ctlExit x) | 0x02 => some (.ctlRcv x) | 0x03 => some (.ctlRegion x)
    | 0x04 => some (.ctlSigchk x) | 0x05 => some (.ctlSigrst x) | 0x06 => some (.ctlSleep x)
    | 0x07 => some (.ctlYield x) | 0x08 => some (.ctlTmrset x) | 0x09 => some (.ctlTmrclr x)
    | 0x0A => some (.ctlTrapu x) | 0x0B => some (.ctlUret x) | 0x0C => some (.ctlBrk x)
    | 0x0D => some (.ctlEvmark x) | _ => none
  | 0x7C => finFn 8 fn (.msk · x)
  | 0x7D =>
    match fn with
    | 0x00 => some (.sysTrap x)
    | 0x01 => some (if x.mod.getLsbD 0 then .sysTretRr x else .sysTret x)
    | 0x02 => some (.sysRdcr x) | 0x03 => some (.sysWrcr x)
    | 0x04 => some (if x.mod.getLsbD 0 then .sysHaltRelaunch x else .sysHalt x)
    | 0x05 => some (.sysXread x) | 0x06 => some (.sysXwrite x) | 0x07 => some (.sysResume x)
    | 0x08 => some (.sysIcinv x) | _ => none
  | _ => none

/-- I words (R64, R77). -/
def decodeI (opc : Nat) (x : I) : Option Instr :=
  match opc with
  | 0x02 => some (.movi x) | 0x04 => some (.iaddi x) | 0x0B => some (.andi x) | 0x0C => some (.ori x)
  | 0x0D => some (.xori x) | 0x23 => some (.faddi x) | 0x24 => some (.fmuli x) | _ => none

/-- M words (R65, R77). -/
def decodeM (opc : Nat) (x : M) : Option Instr :=
  match opc with
  | 0x50 => some (.ld x) | 0x51 => some (.st x) | 0x56 => some (.qld x) | 0x57 => some (.qst x) | _ => none

/-- J words (R66, R77). -/
def decodeJ (opc : Nat) (x : J) : Option Instr :=
  match opc with | 0x78 => some (.bra x) | 0x7A => some (.call x) | _ => none

/-- E words (R67, R77). -/
def decodeE (opc fn : Nat) (x : E) : Option Instr :=
  match opc with
  | 0x68 => fn0 fn (if x.fo then .cplFo x else .cpl x)
  | 0x69 => fn0 fn (.cps x) | 0x6A => fn0 fn (.cpm x) | 0x6B => fn0 fn (.cpq x) | 0x6C => fn0 fn (.cpx x)
  | 0x6D => fn0 fn (.cpr x)
  | 0x70 => fn0 fn (.mxb x) | 0x71 => fn0 fn (.mxsw x) | 0x72 => fn0 fn (.mxsq x)
  | 0x73 => finFn 5 fn (.mma · x)
  | 0x74 => match fn with | 0 => some (.mxd x) | 1 => some (.mxdGuide x) | _ => none
  | 0x75 => match fn with | 0 => some (.mxcClear x) | 1 => some (.mxcPair x) | 2 => some (.mxcUnpair x) | _ => none
  | _ => none

/-- The format an opcode selects (the Format columns of R77). -/
inductive Fmt where
  | f | i | m | j | e | none
  deriving DecidableEq, Repr

def fmtOf (opc : Nat) : Fmt :=
  match opc with
  | 0x02 | 0x04 | 0x0B | 0x0C | 0x0D | 0x23 | 0x24 => .i
  | 0x50 | 0x51 | 0x56 | 0x57 => .m
  | 0x68 | 0x69 | 0x6A | 0x6B | 0x6C | 0x6D | 0x70 | 0x71 | 0x72 | 0x73 | 0x74 | 0x75 => .e
  | 0x78 | 0x7A => .j
  | 0x7F => .none
  | _ => .f

/-- The word's format, opcode and function code; none where no format is chosen. -/
def Form.ofWord (w : Dword) : Option Form :=
  if w = 0xFFFFFFFFFFFFFFFF#64 then some .allOnes
  else if w.getLsbD 63 then
    match PHalf.ofBits (w.extractLsb' 30 30), PHalf.ofBits (w.extractLsb' 0 30) with
    | some h0, some h1 => some (.p ⟨w.extractLsb' 60 3, h0, h1⟩)
    | _, _ => none
  else
    let opc := (w.extractLsb' 56 7).toNat
    match fmtOf opc with
    | .f => some (.f opc (w.extractLsb' 12 7).toNat (.ofWord w))
    | .i => some (.i opc (.ofWord w))
    | .m => some (.m opc (.ofWord w))
    | .j => some (.j opc (.ofWord w))
    | .e => some (.e opc (w.extractLsb' 18 7).toNat (.ofWord w))
    | .none => none

/-- The instruction of a format (R77). -/
def Form.instr : Form → Option Instr
  | .allOnes => some .ill
  | .f opc fn x => decodeF opc fn x
  | .i opc x => decodeI opc x
  | .m opc x => decodeM opc x
  | .j opc x => decodeJ opc x
  | .e opc fn x => decodeE opc fn x
  | .p x => some (.pWord x)

/-- Bits of the word that its format reserves outside the records: I bit 32 (R64), J bits 51 to 47 and 35 to 32
(R59, R66), E bits 51 to 47 (R59), and every bit of a NOP (R59). -/
def reservedBits (w : Dword) : Form → Bool
  | .f 0x00 _ _ => w != 0
  | .i _ _ => w.getLsbD 32
  | .j _ _ => w.extractLsb' 47 5 != 0 || w.extractLsb' 32 4 != 0
  | .e _ _ _ => w.extractLsb' 47 5 != 0
  | _ => false

/-- Decode a word (R57, R77, R79): ILLEGAL_OPCODE outranks RESERVED_FIELD (R56). -/
def decode (w : Dword) : Except DecodeError Instr :=
  match Form.ofWord w with
  | none => .error .illegalOpcode
  | some fm =>
    match fm.instr with
    | none => .error .illegalOpcode
    | some i => if reservedBits w fm || !i.wf then .error .reservedField else .ok i

/-- A bit as a one-bit vector. -/
def bit1 (b : Bool) : BitVec 1 := BitVec.ofBool b

/-- The header's 17 bits under OPC: STALL, U, G, GN (R58). -/
def Hdr.toBits (h : Hdr) : BitVec 9 := h.stall ++ bit1 h.u ++ h.g ++ bit1 h.gn

def F.toWord (opc fn : Nat) (x : F) : Dword :=
  0#1 ++ BitVec.ofNat 7 opc ++ x.h.toBits ++ x.d ++ x.a ++ x.b ++ x.c ++ BitVec.ofNat 7 fn ++ x.mod

def I.toWord (opc : Nat) (x : I) : Dword :=
  0#1 ++ BitVec.ofNat 7 opc ++ x.h.toBits ++ x.d ++ x.a ++ 0#1 ++ x.imm

def M.toWord (opc : Nat) (x : M) : Dword :=
  0#1 ++ BitVec.ofNat 7 opc ++ x.h.toBits ++ x.d ++ x.a ++ x.sb ++ bit1 x.aw ++ x.w ++ x.scope ++ x.ord ++ x.sp
    ++ bit1 x.sx ++ x.off

def J.toWord (opc : Nat) (x : J) : Dword :=
  0#1 ++ BitVec.ofNat 7 opc ++ x.stall ++ 0#5 ++ x.x ++ x.ms ++ bit1 x.mn ++ 0#4 ++ x.off

def E.toWord (opc fn : Nat) (x : E) : Dword :=
  0#1 ++ BitVec.ofNat 7 opc ++ x.stall ++ 0#5 ++ x.hd ++ bit1 x.hw ++ x.sa ++ x.sb ++ x.sc ++ BitVec.ofNat 7 fn
    ++ x.bn ++ bit1 x.be ++ bit1 x.fe ++ x.mod

def PHalf.toBits (p : PHalf) : BitVec 30 := p.hop.code ++ bit1 p.u ++ p.g ++ p.d ++ p.b ++ p.h6

def PWord.toWord (x : PWord) : Dword := 1#1 ++ x.stall ++ x.h0.toBits ++ x.h1.toBits

/-- The word of a format (the encoding tables R58 to R68). -/
def Form.toWord : Form → Dword
  | .allOnes => 0xFFFFFFFFFFFFFFFF#64
  | .f opc fn x => x.toWord opc fn
  | .i opc x => x.toWord opc
  | .m opc x => x.toWord opc
  | .j opc x => x.toWord opc
  | .e opc fn x => x.toWord opc fn
  | .p x => x.toWord

/-- The word of an instruction; none for an event, which has no word. -/
def encode (i : Instr) : Option Dword := i.form.map Form.toWord

/-- The host's question: the instruction that the decoder reads from an instruction whose bits are `w`, the
bits above `nbits` being zero. The one word of an instruction is 64 bits, so `w` is that word. -/
def decodeTableWord (nbits w : Nat) : Option Instr :=
  (decode (BitVec.ofNat 64 (w % 2 ^ nbits))).toOption

/-- The 64-bit word in eight bytes, the byte at the lowest address first (R5). -/
def wordOfBytes (bs : List Byte) : Dword := bs.foldr (fun b acc => (acc <<< 8) ||| b.setWidth 64) 0

/-- The eight bytes of a word, lowest address first (R5). -/
def bytesOfWord (w : Dword) : List Byte := (List.range 8).map fun k => w.extractLsb' (8 * k) 8

end Sys2Proof
end

