-- ==== Sys2Proof/Machine/Causes.lean ====
section
/-!
DEFINITION. The cause codes of R355, 0x00 to 0xBF, each under the name the manual gives it. A row that covers a range of codes
is a function of the offset in the range.
-/
namespace Sys2Proof.Machine

/-- A cause code (R355). -/
abbrev Cause := Byte

namespace Cause
def none : Cause := 0x00
def illegalOpcode : Cause := 0x01
def reservedField : Cause := 0x02
def pairRule : Cause := 0x03
def stallShort : Cause := 0x04
def privileged : Cause := 0x05
def illegalWord : Cause := 0x06
def regRange : Cause := 0x07
def jetRange : Cause := 0x08
def uniformOperand : Cause := 0x09
def crIndex : Cause := 0x0A
def crReadonly : Cause := 0x0B
def xselRange : Cause := 0x0C
def strandState : Cause := 0x0D
def tretState : Cause := 0x0E
def icinvRange : Cause := 0x0F
def maskWriteM0 : Cause := 0x10
def handleUnused : Cause := 0x11
def handleStale : Cause := 0x12
def queueUnconfigured : Cause := 0x13
def queueDeadlock : Cause := 0x14
def launchParam : Cause := 0x15
def launchFootprint : Cause := 0x16
def launchOverride : Cause := 0x17
def loadRefused (k : Nat) : Cause := BitVec.ofNat 8 (0x18 + k)
def padBounds (k : Nat) : Cause := BitVec.ofNat 8 (0x20 + k)
def commitFault : Cause := 0x23
def misaligned : Cause := 0x24
def vaRange : Cause := 0x25
def xlateNotPresent : Cause := 0x26
def xlatePerm : Cause := 0x27
def writeReadonly : Cause := 0x28
def attrMismatch : Cause := 0x29
def quorumLost : Cause := 0x2A
def atomSpace : Cause := 0x2B
def waitaSpace : Cause := 0x2C
def rootInvalid : Cause := 0x2D
def quorumDegraded : Cause := 0x2E
def quorumRepair : Cause := 0x2F
def xlistOverflow : Cause := 0x30
def reportOverflow : Cause := 0x31
def commitForced : Cause := 0x32
def replayRefault : Cause := 0x33
def xlateFlushed : Cause := 0x34
def fxcellRange : Cause := 0x35
def fxcellNaninf : Cause := 0x36
def qstDeferred : Cause := 0x37
def notPresentKind (k : Nat) : Cause := BitVec.ofNat 8 (0x38 + k)
def barOverflow : Cause := 0x40
def barUninit : Cause := 0x41
def skeinDiverge : Cause := 0x42
def pairBroken : Cause := 0x43
def pairShape : Cause := 0x44
def mcastOutside : Cause := 0x45
def tidInvalid : Cause := 0x46
def layoutInvalid : Cause := 0x47
def boxRange : Cause := 0x48
def scaleQueueEmpty : Cause := 0x49
def bNotLoaded : Cause := 0x4A
def draftInvalid : Cause := 0x4B
def texUnbound : Cause := 0x4C
def formatPair : Cause := 0x4D
def cpxDiscard : Cause := 0x4E
def bindDone : Cause := 0x4F
def copyStart : Cause := 0x50
def copyDone : Cause := 0x51
def copyCancel : Cause := 0x52
def copyAbandon : Cause := 0x53
def cprStart : Cause := 0x54
def cprFallback : Cause := 0x55
def mmaEnter : Cause := 0x56
def mmaCommit : Cause := 0x57
def mmaAbandon : Cause := 0x58
def mxbDone : Cause := 0x59
def mxdDone : Cause := 0x5A
def pairForm : Cause := 0x5B
def pairDissolve : Cause := 0x5C
def blockPlace : Cause := 0x5D
def blockRetire : Cause := 0x5E
def barPhase : Cause := 0x5F
def timer : Cause := 0x60
def trapu : Cause := 0x61
def brk : Cause := 0x62
def step : Cause := 0x63
def indirectNonuniform : Cause := 0x64
def sigMismatch : Cause := 0x65
def userNested : Cause := 0x66
def fpInvalid : Cause := 0x67
def regionNone : Cause := 0x68
def doubleTrap : Cause := 0x69
def sysHalt : Cause := 0x6A
def regionRestart : Cause := 0x6B
def hostBreak : Cause := 0x6C
def rcvExpired : Cause := 0x6D
def queueStalled : Cause := 0x6E
def programMark : Cause := 0x6F
def syscall (k : Nat) : Cause := BitVec.ofNat 8 (0x70 + k)
def eccReg : Cause := 0x80
def eccPad : Cause := 0x81
def memPoison : Cause := 0x82
def codeMac : Cause := 0x83
def codeHash : Cause := 0x84
def screenMismatch : Cause := 0x85
def rollbackCommitted : Cause := 0x86
def relaunchLimit : Cause := 0x87
def corrected (k : Nat) : Cause := BitVec.ofNat 8 (0x88 + k)
def eccStorebuf : Cause := 0x90
def icacheRefetch : Cause := 0x91
def xlateRewalk : Cause := 0x92
def maskParity : Cause := 0x93
def eccContext : Cause := 0x94
def screenPass : Cause := 0x95
def screenAbandoned : Cause := 0x96
def rollback : Cause := 0x97
def codeSig : Cause := 0x98
def codeKey : Cause := 0x99
def firmwareSig : Cause := 0x9A
def configSig : Cause := 0x9B
def ageingMargin : Cause := 0x9C
def clusterRetire : Cause := 0x9D
def channelRetire : Cause := 0x9E
def monitorFail : Cause := 0x9F
def preemptSave : Cause := 0xA0
def preemptFlush : Cause := 0xA1
def partitionStop : Cause := 0xA2
def fabricTimeout : Cause := 0xA3
def hostwinError : Cause := 0xA4
def minimaRevoked : Cause := 0xA5
def erratumRefused : Cause := 0xA6
def launchFit : Cause := 0xA7
def launchDiepad : Cause := 0xA8
def launchToken : Cause := 0xA9
def launchEntry : Cause := 0xAA
def packetInvalid : Cause := 0xAB
def packetForeign : Cause := 0xAC
def mapInvalid : Cause := 0xAD
def recordRefused : Cause := 0xAE
def swapOut : Cause := 0xAF
def swapIn : Cause := 0xB0
def powerCap : Cause := 0xB1
def powerRelease : Cause := 0xB2
def clockChange : Cause := 0xB3
def serviceReduced : Cause := 0xB4
def serviceFull : Cause := 0xB5
def linkTrainFail : Cause := 0xB6
def portDown : Cause := 0xB7
def portUp : Cause := 0xB8
def ethLink : Cause := 0xB9
def preemptDrain : Cause := 0xBA
def preemptRestore : Cause := 0xBB
def suspended : Cause := 0xBC
def partitionCreated : Cause := 0xBD
def partitionDestroyed : Cause := 0xBE
def deviceFatal : Cause := 0xBF
end Cause

end Sys2Proof.Machine
end

