-- ==== Sys2Proof/Machine/Data.lean ====
section
/-!
DEFINITION. The two containers of State: sparse cells in one canonical form (memory bytes, registers), where what is not
listed reads as zero, and tables of records by key. Both are plain lists.
-/
namespace Sys2Proof.Machine

/-- Words by key, keys strictly rising, no entry equal to zero: an unlisted key reads zero. -/
abbrev Cells (w : Nat) := List (Nat × BitVec w)

/-- Bytes by address, in the same form (log 2: an unlisted byte reads 0). -/
abbrev Memory := Cells 8

/-- Records by key, in the order in which they came to be. -/
abbrev Table (κ α : Type) := List (κ × α)

/-- What a key reads: zero where it is not listed. -/
def Cells.get {w : Nat} : Cells w → Nat → BitVec w
  | [], _ => 0
  | (a, x) :: l, k => if a = k then x else Cells.get l k

/-- Put an entry at its place in the rising order. -/
def Cells.insert {w : Nat} (k : Nat) (v : BitVec w) : Cells w → Cells w
  | [] => [(k, v)]
  | (a, x) :: l => if k < a then (k, v) :: (a, x) :: l else (a, x) :: Cells.insert k v l

/-- Take every entry of a key out. -/
def Cells.erase {w : Nat} (c : Cells w) (k : Nat) : Cells w := c.filter fun e => e.1 != k

/-- Write a key: a zero removes the entry. -/
def Cells.set {w : Nat} (c : Cells w) (k : Nat) (v : BitVec w) : Cells w :=
  if v = 0 then c.erase k else Cells.insert k v (c.erase k)

/-- Write a list of entries in order. -/
def Cells.setAll {w : Nat} (c : Cells w) (es : List (Nat × BitVec w)) : Cells w :=
  es.foldl (fun c e => c.set e.1 e.2) c

/-- Every listed key lies above `k`. -/
def Cells.above {w : Nat} (k : Nat) (c : Cells w) : Bool := c.all fun e => k < e.1

/-- The canonical form: keys strictly rising, no listed zero. -/
def Cells.wf {w : Nat} : Cells w → Bool
  | [] => true
  | (a, x) :: l => x != 0 && Cells.above a l && Cells.wf l

/-- The canonical form of a memory. -/
def Memory.wf (m : Memory) : Bool := Cells.wf m

/-- The record of a key. -/
def Table.get? {κ α : Type} [DecidableEq κ] : Table κ α → κ → Option α
  | [], _ => none
  | (a, x) :: l, k => if a = k then some x else Table.get? l k

/-- Put a record: in place, or at the end for a new key. -/
def Table.put {κ α : Type} [DecidableEq κ] : Table κ α → κ → α → Table κ α
  | [], k, v => [(k, v)]
  | (a, x) :: l, k, v => if a = k then (a, v) :: l else (a, x) :: Table.put l k v

/-- Take a key's record out. -/
def Table.drop {κ α : Type} [DecidableEq κ] (t : Table κ α) (k : κ) : Table κ α := t.filter fun e => e.1 ≠ k

/-- The record of a key, or a default. -/
def Table.getD {κ α : Type} [DecidableEq κ] (t : Table κ α) (k : κ) (d : α) : α := (t.get? k).getD d

/-- Change a key's record, if it has one. -/
def Table.mod {κ α : Type} [DecidableEq κ] (t : Table κ α) (k : κ) (f : α → α) : Table κ α :=
  match t.get? k with | some x => t.put k (f x) | none => t

/-- The bytes of a run, lowest address first. -/
def Memory.bytes (m : Memory) (a n : Nat) : List Byte := (List.range n).map fun i => Cells.get m (a + i)

/-- A little-endian number of `n` bytes (R5). -/
def Memory.num (m : Memory) (a n : Nat) : Nat :=
  (m.bytes a n).foldr (fun b acc => acc * 256 + b.toNat) 0

/-- Write a list of bytes from an address up. -/
def Memory.put (m : Memory) (a : Nat) : List Byte → Memory
  | [] => m
  | b :: bs => Memory.put (Cells.set m a b) (a + 1) bs

/-- The `n` bytes of a number, lowest first. -/
def bytesOf (n x : Nat) : List Byte := (List.range n).map fun i => BitVec.ofNat 8 (x / 256 ^ i)

/-- A number from bytes, lowest first. -/
def numOf (bs : List Byte) : Nat := bs.foldr (fun b acc => acc * 256 + b.toNat) 0

end Sys2Proof.Machine
end

