-- ==== Sys2Proof/Machine/State.lean ====
section
/-!
DEFINITION. The state of the device: plain data, holding every piece of state the manual names (see INVENTORY.md), and the
machine right after power-on. Records nest as the manual's objects do: strands are kept in one table by block and
sid, blocks by a number of the model's own, launches by their id in the model.
-/
namespace Sys2Proof.Machine

/-! ## The consistency model -/

/-- What holds bytes, each with one point of coherence (R207, R246): device memory by physical address, host and remote memory by address
on the fabric, and each allocation of a pad. -/
inductive Place where
  | device | host | remote
  | core (blk : Nat)
  | cluster (launch cluster : Nat)
  | die (launch die : Nat)
  deriving DecidableEq, Repr

/-- A party to the model as it is placed at the moment of an event (R236, R237): a thread of a strand, an engine operation (no strand) as
a thread of the core that issued it, or the host and other fabric nodes. -/
structure Party where
  fabric : Bool := false
  blk    : Option Nat := none
  sid    : Option Nat := none
  core   : Nat := 0
  deriving DecidableEq, Repr

/-- Bytes of a place of which every write up to number `seq` happens before a point. -/
structure Span where
  place : Place
  lo    : Nat
  len   : Nat
  seq   : Nat
  deriving DecidableEq, Repr

/-- The writes that happen before a point (R245): all up to number `base`, and those of the spans. -/
structure View where
  base  : Nat := 0
  spans : List Span := []
  deriving DecidableEq, Repr

/-- A release, as the source of sw edges (R242): its scope, its party, and what happens before it. -/
structure Head where
  scope : Nat
  who   : Party
  view  : View
  deriving DecidableEq, Repr

/-- What a thread has behind it (R242, R244): the writes that happen before its next event; the heads of the release sequences that its
reads have read from; its release fences; the strands whose writes it has read, with their place in program order; and what happens before
the writes of no strand that it has read. -/
structure Seen where
  view  : View := {}
  heads : List Head := []
  rels  : List Head := []
  src   : List (Nat × Nat × Nat) := []
  obs   : View := {}
  deriving DecidableEq, Repr

/-- A write that has been performed (R235, R246): its place in co, the bytes before it (none where it wrote nothing), the size of its
units (0: it is one unit), its strand (block and sid) and place in program order, the release sequences that it belongs to, and, where no strand
made it, what happens before it. -/
structure Past where
  seq   : Nat
  place : Place
  addr  : Nat
  old   : List (Option Byte)
  grain : Nat := 0
  src   : Option (Nat × Nat × Nat) := none
  heads : List Head := []
  before : View := {}
  deriving DecidableEq, Repr

/-- A quorum cell's tag as a completed QST left it (R248): the physical address of copy 0, the tag, the strand and its place in program
order, and the release sequences that it heads. -/
structure CellTag where
  pa    : Nat
  tag   : Dword
  src   : Nat × Nat × Nat
  heads : List Head
  deriving DecidableEq, Repr

/-! ## Strands -/

/-- A frontier group that waits (R289): held by CTL.RCV until a cycle (R297), excluded by CTL.YIELD (R298). -/
structure Group where
  mask : Word
  pc   : Dword
  hold : Option Nat := none
  excl : Bool := false
  deriving DecidableEq, Repr

/-- A register a word reads or writes: V register (value and components, all threads), S register, mask, handle. -/
inductive Loc where
  | v (r : Nat) | s (r : Nat) | m (r : Nat) | h (r : Nat)
  deriving DecidableEq, Repr

/-- A fixed-latency result that is not yet written (R73): the register, the cycle by which it is, the cycle from which a read is
timely, which a later result of the same register may bring forward (R74), the threads written, and what each word held before. -/
structure Late where
  loc    : Loc
  ready  : Nat
  timely : Nat
  mask   : Word
  old    : List (Nat × Word)
  deriving DecidableEq, Repr

/-- Why a strand waits (R381). -/
inductive Stall where
  | issued | stallCount | memory | other | laneBusy | barrier | handle | queueEmpty | queueFull | asleep
  | reconverge | fetch | arrayBusy | pair | parked | yielded
  deriving DecidableEq, Repr

/-- Whether a request is held on a page that is not present (R219), or is to be translated again after that (R220). -/
inductive Hold where
  | no | held | replay
  deriving DecidableEq, Repr

/-- Where an access goes (R207, the codes of SP). -/
inductive Space where
  | device | core | cluster | die
  deriving DecidableEq, Repr

/-- The register a read writes: V or S register `reg` of thread `t` and the registers after it. `part` is none for plain words,
which leave +0 components (R112); for one word of a jet load (R111), 0 for the value and k + 1 for component k. -/
structure Dst where
  uni  : Bool
  reg  : Nat
  t    : Nat
  part : Option Nat := none
  deriving DecidableEq, Repr

/-- A WAITA in a thread (R261): the word's space, address, condition, comparand, order and destination, and the
value last read. -/
structure Waita where
  space : Space
  addr  : Nat
  cond  : Nat
  b     : Word
  acq   : Bool
  scope : Nat
  dst   : Dst
  pc    : Dword
  region : Half
  /-- the value last read, none before the first read, and the release sequences that it was read from -/
  last  : Option Word := none
  heads : List Head := []
  held  : Hold := .no
  deriving DecidableEq, Repr

/-- Sleeping threads (R261, R299): one thread of a WAITA, or all the threads of a uniform WAITA or of CTL.SLEEP. -/
structure Sleeper where
  threads : Word
  /-- device time in ns at which the wait ends; none: no bound -/
  till  : Option Nat
  /-- WAITA's condition; none for CTL.SLEEP -/
  waita : Option Waita
  deriving DecidableEq, Repr

/-- An asynchronous fault detected and not yet delivered (R353). -/
structure HeldFault where
  cause  : Cause
  mask   : Word
  va     : Dword
  pc     : Dword
  region : Half
  eng    : Bool
  orig   : Cause
  deriving DecidableEq, Repr

/-- The part of a word that has been carried out while its strand waits in it. -/
inductive Wait where
  | none
  /-- waits at a BAR.WAIT (R264): the barrier, the active threads, and the phase that a form with TK waits to leave -/
  | barrier (b : Nat) (act : Word) (tok : Option Nat)
  /-- waits at a push to or a pop from a queue (R266): the queue, whether it pushes, the active threads -/
  | queue (q : Nat) (push : Bool) (act : Word)
  /-- arrived at SKN.SYNC (R265) -/
  | sync
  /-- the wait is over: the word completes -/
  | released
  /-- arrived at a collective word (R181, R274), or waits for an operation of its own; the operation's number -/
  | op (n : Nat)
  /-- the collective operation has started, and the word completes (R274) -/
  | started (n : Nat)
  /-- FENCE.sc after its first step: the heartbeat count then (R244) -/
  | fence (beat : Nat)
  /-- a store word of a contained block, of which so many units stand in the store buffer, waits for a forced commit (R232, R234) -/
  | buffered (n : Nat)
  deriving DecidableEq, Repr

/-- A strand (R23, R32, R289, R348). Its M0 is `mask`. -/
structure Strand where
  -- registers (R32): V words under (r × 32 + t) × 16 + k, k = 0 the value, k = 1 + c component c
  v       : Cells 32 := []
  s       : Cells 32 := []
  m       : Cells 32 := []
  /-- the stored parity of M1 to M7 (R32), and whether that of M0 disagrees with the current group's mask -/
  mpar    : BitVec 8 := 0
  m0bad   : Bool := false
  /-- handle registers: unused, or a token (R268) -/
  h       : Table Nat (Option Word) := []
  -- frontier groups (R24, R289)
  mask    : Word := 0
  pc      : Dword := 0
  groups  : List Group := []
  exited  : Word := 0
  parked  : Word := 0
  asleep  : Word := 0
  sleepers : Table Nat Sleeper := []
  /-- the next word is a block entry (R52) -/
  entry   : Bool := true
  /-- the next word waits for every fixed-latency result (R76) -/
  drain   : Bool := false
  /-- the fetch of the next word is held on a page that is not present (R219) -/
  fetchHeld : Hold := .no
  -- control registers (R86, R348)
  fpflags : BitVec 6 := 0
  ivt     : Bool := false
  uvec    : Dword := 0
  uepc    : Dword := 0
  ucause  : Word := 0
  tmrcmp  : Dword := 0
  tmrArmed : Bool := false
  sig     : Word := 0xFFFFFFFF
  sigPend : Option Word := none
  region  : Half := 0
  regionpc : Dword := 0
  usigsv  : Dword := 0
  usigpv  : Bool := false
  chk     : Bool := false
  pvec    : Dword := 0
  pepc    : Dword := 0
  pcause  : Word := 0
  pmask   : Word := 0
  pva     : Dword := 0
  pfpc    : Dword := 0
  pregion : Half := 0
  psigsv  : Dword := 0
  psigpv  : Bool := false
  psave   : Cells 32 := []
  -- pstate (R349)
  rv      : Bool := false
  ph      : Bool := false
  uh      : Bool := false
  ss      : Bool := false
  /-- a STEP is due at the next instruction boundary (R303), for the word at this PC -/
  stepDue : Option Dword := none
  /-- cycle at which the privileged handler was entered, or stop-block mode stopped the strand: RCV counts are frozen since (R297, R304) -/
  trapAt  : Nat := 0
  /-- SB was set by another strand, and the strand stops at its next boundary; it is stopped (R350) -/
  stopDue : Bool := false
  stopped : Bool := false
  -- causes that fall due (R351)
  faults  : List HeldFault := []
  hostBreak : Bool := false
  -- issue (R28, R73, R316)
  ready   : Nat := 0
  late    : List Late := []
  passP   : Nat := 0
  passH   : Nat := 0
  lane    : Nat := 0
  slot    : Nat := 0
  why     : Stall := .issued
  -- groups of strands and engines
  skein   : Option Nat := none
  wait    : Wait := .none
  /-- number of the next access in program order -/
  po      : Nat := 0
  /-- what each thread has behind it, and the writes that are behind every thread at the strand's start -/
  seen    : Table Nat Seen := []
  since   : Nat := 0
  /-- all threads have exited and the strand has ended (R30) -/
  ended   : Bool := false
  /-- hash of the store stream of a screened block (R357) -/
  shash   : Word := 0xFFFFFFFF
  /-- register words with an uncorrectable error that nothing has read (R355 ECC_REG): the register and the thread -/
  bad     : List (Loc × Nat) := []
  deriving DecidableEq, Repr

/-! ## Blocks and launches -/

/-- A kernel's queue declaration (R49): depth, producer and consumer stage. -/
structure QueueDecl where
  depth : Nat
  prod  : Nat
  cons  : Nat
  deriving DecidableEq, Repr

/-- An engine operation's posting to a barrier (R263, R273): a byte expectation or bytes received, with
the issuing core, or its arrival. -/
inductive Post where
  | owe (core n : Nat) | bytes (core n : Nat) | arrive
  deriving DecidableEq, Repr

/-- A posting of a CPX that waits for the next BAR.SET of a barrier (R286), with its operation's number. -/
structure HeldPost where
  bar  : Nat
  op   : Nat
  post : Post
  /-- what happens before it (R243) -/
  view : View := {}
  deriving DecidableEq, Repr

/-- What the cohort staging area holds for a member that is not dispatched (R285, R286). -/
structure Staged where
  cluster : Nat
  image   : Memory := []
  posts   : List HeldPost := []
  deriving DecidableEq, Repr

/-- A launch (R37) with its running state (R308, R335). -/
structure Launch where
  fe      : Nat
  entry   : Dword
  n       : Nat
  bdim    : Nat
  /-- V registers per thread, N -/
  nregs   : Nat
  /-- jet registers, J -/
  jregs   : Nat
  /-- the tangent declaration, in component order: codes 0 sx, 1 sy, 2 t, 3 and above the rest -/
  tangents : List Nat
  corePad : Nat
  clusterPad : Nat
  diePad  : Nat
  stages  : List (Option (Nat × Nat))
  queues  : List (Option QueueDecl)
  consts  : Dword
  raster  : Nat
  time    : Word
  /-- memory-model revision, 1 or 2 -/
  mmr     : Nat
  contained : Bool
  idem    : Bool
  screen  : Nat
  cohort  : Nat
  prio    : Nat
  -- running state
  /-- number of the last write that happens before its start (R372) -/
  since   : Nat := 0
  /-- launch id: SEQ bits 10 to 0 of its packet (R370) -/
  lid     : Nat := 0
  /-- number of its LAUNCH command in the front end's table -/
  cmd     : Nat := 0
  /-- the next block to dispatch, and blocks to be placed again from their start (R309, R314) -/
  next    : Nat := 0
  again   : List Nat := []
  /-- blocks retired, and the sum of their residencies (R335) -/
  retired : Nat := 0
  residSum : Nat := 0
  /-- relaunches of each block, and the core whose cluster a relaunched block avoids (R358) -/
  relaunched : Table Nat Nat := []
  avoid   : Table Nat Nat := []
  /-- the launch has failed with a cause (R346), or ends with its partition (R341) -/
  failed  : Option Cause := none
  /-- status of a launch that runs on: SCREEN_MISMATCH (R357) -/
  status  : Cause := 0
  /-- the model's numbers of the blocks that have retired: a store of theirs may still fault (R384) -/
  gone    : List Nat := []
  /-- clusters where its pads are allocated, their dies included, and what the cluster pads and die pads hold (R207) -/
  padsAt  : List Nat := []
  clusterPads : Table Nat Memory := []
  diePads : Table Nat Memory := []
  /-- cohort staging, by block index (R285), and the cluster of each cohort -/
  staging : Table Nat Staged := []
  cohortAt : Table Nat Nat := []
  deriving DecidableEq, Repr

/-- A per-source entry of a barrier (R262). -/
structure BarSource where
  core  : Nat
  share : Int
  pend  : Int
  deriving DecidableEq, Repr

/-- A barrier register (R262). `phases` counts phases since BAR.SET, PHASE being its low 16 bits; `epoch` counts BAR.SETs;
`arrived` names the strands that have arrived in the phase (erratum B-15, R263). -/
structure Barrier where
  init    : Bool := false
  perSource : Bool := false
  aexp    : Nat := 0
  acnt    : Nat := 0
  pend    : Int := 0
  src     : List BarSource := []
  phases  : Nat := 0
  ovf     : Bool := false
  epoch   : Nat := 0
  arrived : List Nat := []
  /-- what happens before the arrivals of this phase, and before those of each phase that has completed, the last first (R242) -/
  view    : View := {}
  done    : List View := []
  deriving DecidableEq, Repr

/-- What a stage's weight asks of a queue at the start of a cycle (R319): its configuration, and the entries held. -/
structure QueueWas where
  depth : Nat := 0
  pstg  : Nat := 0
  cstg  : Nat := 0
  stg   : Bool := false
  held  : Nat := 0
  deriving DecidableEq, Repr

/-- A queue register (R266). -/
structure Queue where
  depth   : Nat := 0
  pstg    : Nat := 0
  cstg    : Nat := 0
  stg     : Bool := false
  entries : List (List Word) := []
  /-- what happens before the push of each entry (R242) -/
  views   : List View := []
  /-- cycle of the last push, pop or QCFG, and the queue at the start of that cycle (R319) -/
  changed : Nat := 0
  before  : QueueWas := {}
  deriving DecidableEq, Repr

/-- One entry of a contained block's store buffer (R231): a store of one unit, or an FXADD's format and addend. -/
inductive Buffered where
  | store (va : Nat) (data : List Byte)
  | add (va : Nat) (fmt : Nat) (x : Word)
  deriving DecidableEq, Repr

/-- The word that caused a commit (R355 COMMIT_FAULT): its strand, PC, active threads and region, and the scope of its access (R233). -/
structure CommitBy where
  strand : StrandRef
  pc     : Dword
  mask   : Word
  region : Half
  scope  : Nat := 4
  deriving DecidableEq, Repr

/-- A commit held on a page that is not present (R234): the entries still to be written; no word caused one at block end. -/
structure Commit where
  who  : Option CommitBy
  left : List Buffered
  deriving DecidableEq, Repr

/-- A handle record (R268): its generation, and the operation that holds it; `status` once it has completed. -/
structure HandleRec where
  gen    : Half := 0
  busy   : Bool := false
  blk    : Nat := 0
  op     : Nat := 0
  status : Option Word := none
  /-- what happens before the operation's completion (R243) -/
  view   : View := {}
  deriving DecidableEq, Repr

/-- A B bank (R165): cells by k × 512 + n, scale bytes by kb × 512 + n. -/
structure Bank where
  cells  : Cells 8 := []
  scales : Cells 8 := []
  loaded : Bool := false
  fmt    : Nat := 0
  scaled : Bool := false
  k      : Nat := 0
  n      : Nat := 0
  /-- cells with an uncorrectable error (R170) -/
  bad    : List Nat := []
  deriving DecidableEq, Repr

/-- What a B bank will be once every operation in array order has finished (R194). -/
structure BankMeta where
  loaded : Bool := false
  fmt    : Nat := 0
  scaled : Bool := false
  k      : Nat := 0
  n      : Nat := 0
  deriving DecidableEq, Repr

/-- A pair of skeins (R177, R200): the conditional and the unconditional one. -/
structure Pair where
  cond : Nat
  unc  : Nat
  deriving DecidableEq, Repr

/-- A core's matrix array while a block owns it (R164 to R177). The AX bank is keyed by row × 512 + column. -/
structure MatrixArray where
  owner  : Nat
  live   : Bank := {}
  shadow : Bank := {}
  ax     : Cells 64 := []
  /-- the scale queue's bytes, oldest first (R169) -/
  queue  : List Byte := []
  /-- the state that the operations in order leave (R194) -/
  liveMeta : BankMeta := {}
  shadowMeta : BankMeta := {}
  count  : Nat := 0
  pair   : Option Pair := none
  /-- operations that have entered array order and not completed -/
  order  : List Nat := []
  /-- AX slots with an uncorrectable error (R170) -/
  bad    : List Nat := []
  deriving DecidableEq, Repr

/-- The states of R336. -/
inductive BlockLife where
  | running | draining | halting | saved | restoring
  deriving DecidableEq, Repr

/-- A block (R29, R336): resident on a core's slot, or saved. -/
structure Block where
  launch  : Nat
  index   : Nat
  shadow  : Bool := false
  core    : Nat := 0
  slot    : Nat := 0
  life    : BlockLife := .running
  /-- device time at which its strands may be selected (R308) -/
  selectable : Nat := 0
  /-- device time at which the present residency began, and the residency before it (R335) -/
  placed  : Nat := 0
  resided : Nat := 0
  /-- device time at which a drain must have ended (R336) -/
  drainBy : Nat := 0
  gen     : Byte := 0
  /-- number of its strands -/
  strands : Nat := 0
  /-- stop-block mode (R349) -/
  sb      : Bool := false
  pad     : Memory := []
  bars    : Table Nat Barrier := []
  queues  : Table Nat Queue := []
  /-- queue entries reserved at placement (R266) -/
  qreserve : Nat := 0
  /-- its share of the store buffer, oldest entry first (R230) -/
  buf     : List Buffered := []
  /-- a commit has begun (R234); a commit that is held -/
  committed : Bool := false
  committing : Option Commit := none
  /-- the draft slots: 128 bytes each (R189) -/
  drafts  : Memory := []
  /-- postings by CPX held until the next BAR.SET of their barrier (R286) -/
  heldPosts : List HeldPost := []
  /-- the handle records and the array of a saved block (R183, R268) -/
  savedRecs : Table Nat HandleRec := []
  savedArray : Option MatrixArray := none
  /-- a CPR was issued, a CPX delivered to another block (R335) -/
  cprIssued : Bool := false
  cpxElsewhere : Bool := false
  /-- cycle at which the block became queue-stalled, and whether it was reported (R320) -/
  qstall  : Option Nat := none
  qreported : Bool := false
  /-- for a screened pair: the partner block (R356), and its strands' hashes and sigs once it has retired (R357) -/
  partner : Option Nat := none
  screenWith : Option (List (Word × Word)) := none
  /-- lines of its store buffer with an uncorrectable error (R355 ECC_STOREBUF); its saved state is unreadable (ECC_CONTEXT) -/
  bufBad  : List Nat := []
  ctxBad  : Bool := false
  deriving DecidableEq, Repr

/-- What an access does at its instant (R248). -/
inductive AccKind where
  | load (sx : Bool)
  | store (data : List Byte)
  | atom (fn : Nat) (b : Nat)
  | cas (cmp new : Nat)
  | fxadd (fmt : Nat) (x : Word)
  | fxrd (clr : Bool)
  deriving DecidableEq, Repr

/-- A single-copy-atomic access of a thread, issued and not performed (R235, R338). -/
structure Access where
  strand : StrandRef
  fe     : Nat
  launch : Nat
  core   : Nat
  /-- number of its word in the strand's program order, and the threads that it belongs to -/
  po     : Nat
  threads : Word
  pc     : Dword
  region : Half
  space  : Space
  addr   : Nat
  size   : Nat
  kind   : AccKind
  dst    : Option Dst
  acq    : Bool
  rel    : Bool
  scope  : Nat
  held   : Hold := .no
  /-- its block has been killed (R341) -/
  orphan : Bool := false
  /-- what happens before its issue, if it is a release (R242) -/
  view   : View := {}
  /-- an access of a uniform word, which is one event of every thread of its strand (R239) -/
  uni    : Bool := false
  /-- device time of its issue (R367) -/
  since  : Nat := 0
  deriving DecidableEq, Repr

/-- One copy's part in a quorum operation (R225, R226). -/
inductive CopyAnswer where
  | none
  | answered (tag : Dword) (payload : BitVec 128)
  | lost
  deriving DecidableEq, Repr

/-- A quorum operation on one cell (R224 to R228). -/
structure QuorumOp where
  strand : StrandRef
  fe     : Nat
  launch : Nat
  core   : Nat
  po     : Nat
  threads : Word
  pc     : Dword
  region : Half
  va     : Nat
  /-- QST: its tag and payload -/
  store  : Option (Dword × BitVec 128)
  dst    : Option Dst
  acq    : Bool
  rel    : Bool
  scope  : Nat
  /-- what happens before its issue -/
  view   : View := {}
  issued : Nat
  /-- an operation of a uniform word (R239) -/
  uni    : Bool := false
  /-- physical address of copy 0's slot and number of copies, once translated -/
  slot   : Option (Nat × Nat)
  copies : List CopyAnswer
  /-- QLD: the chosen tag and payload, and the copies known to hold it (R226) -/
  chosen : Option (Dword × BitVec 128)
  /-- device time at which step 2 of R226 began -/
  again  : Nat := 0
  confirmed : List Nat
  held   : Hold := .no
  /-- its block has been killed (R341) -/
  orphan : Bool := false
  deriving DecidableEq, Repr

/-! ## Engine operations -/

/-- The words that issue engine operations. -/
inductive EngKind where
  | cpl | cps | cpm | cpq | cpx | cpr | mxb | mxsw | mxsq | mma | mxd | guide | clear | pair | unpair
  deriving DecidableEq, Repr

/-- An E word with its function code and the registers read at its arrival. -/
structure EngWord where
  w    : E
  fn   : Nat
  sa   : List Word
  sb   : List Word
  flag : List Word
  deriving DecidableEq, Repr

/-- One member's arrival at a collective word (R181, R274); `fo` is the follow-on MMA of CPL.fo (R282), `sig` the signature before the word
(R52). -/
structure Arrival where
  sid    : Nat
  pc     : Dword
  mask   : Word
  region : Half
  word   : EngWord
  fo     : Option EngWord
  sig    : Word := 0
  deriving DecidableEq, Repr

/-- Where an engine operation stands: its members arrive; all have arrived, and it waits for a record, for its pair, or (a
follow-on MMA) for its CPL; it has started and waits for its port; it runs. -/
inductive OpStage where
  | gathering | ready | queued | running
  deriving DecidableEq, Repr

/-- What an operation has posted to one barrier (R273, R280): the receiving block's index, the barrier, its setting, whether
the postings are held for BAR.SET (R286), the bytes expected and those posted as received. -/
structure OpPost where
  index  : Nat
  bar    : Nat
  epoch  : Nat
  held   : Bool := false
  owed   : Nat
  got    : Nat := 0
  deriving DecidableEq, Repr

/-- An engine operation (R243). -/
structure EngOp where
  kind   : EngKind
  blk    : Nat
  launch : Nat
  core   : Nat
  fe     : Nat
  /-- the skein whose members gather; none for a strand alone or a block -/
  skein  : Option Nat
  bk     : Bool
  arr    : List Arrival := []
  stage  : OpStage := .gathering
  /-- the order in which operations become ready (R271, R274) -/
  ready  : Nat := 0
  record : Option Nat := none
  -- the status word (R269)
  cause  : Cause := 0
  discard : Bool := false
  fallback : Bool := false
  cancelled : Bool := false
  held   : Hold := .no
  heldVa : Nat := 0
  /-- the descriptor of each arrival, read at the fork -/
  descs  : List (BitVec 512) := []
  /-- units already moved, and the causes already delivered (R278) -/
  moved  : List Nat := []
  causes : List Cause := []
  /-- CPQ, quantised from the source as staged: data bytes by unit, scale bytes with their VA, and the exceptions still to
  be listed with their list's VA (R96, R284) -/
  staged : List Byte := []
  scales : List (Nat × Byte) := []
  excs   : List (Nat × BitVec 128) := []
  posts  : List OpPost := []
  /-- the follow-on operation, or for it the CPL; the matched operation of the pair (R178) -/
  follow : Option Nat := none
  isFollow : Bool := false
  partner : Option Nat := none
  /-- the skein's role in the pair at entry: true for conditional (R177) -/
  role   : Option Bool := none
  /-- pair sequence number (R200), CPR number (R287), device time of the start -/
  num    : Nat := 0
  started : Nat := 0
  /-- a CPR's group as it was defined at the start (R366) -/
  group  : Option RedGroup := none
  /-- what happens before its fork, and its own events (R243) -/
  view   : View := {}
  /-- its effects are done, and its completion is being posted (R193, R273) -/
  posting : Bool := false
  deriving DecidableEq, Repr

/-- The sample of one thread, issued and without its result (R159, R162): the destination's first register, the bind point with
the record bound at issue, the coordinates with their components and their sx and sy, and the level of detail. -/
structure SampleOp where
  strand : StrandRef
  fe     : Nat
  launch : Nat
  core   : Nat
  t      : Nat
  pc     : Dword
  region : Half
  d      : Nat
  point  : Nat
  record : BitVec 512
  u      : Word
  v      : Word
  us     : List Word
  vs     : List Word
  uScreen : Word × Word
  vScreen : Word × Word
  lod    : Option Word
  held   : Hold := .no
  /-- what happens before its issue (R159), and its place in the strand's program order -/
  view   : View := {}
  po     : Nat := 0
  /-- the address that is held -/
  heldVa : Nat := 0
  deriving DecidableEq, Repr

/-- What a word that waits for a service of its core asks for (R163, R204): TEXB with the record's VA, TDE with a table entry and
the place of its 64 bytes. -/
inductive Request where
  | bind (point va : Nat) | inval (point : Nat)
  | tdeWrite (tid : Nat) (space : Space) (addr : Nat) | tdeRead (tid : Nat) (space : Space) (addr : Nat) | tdeInval (tid : Nat)
  deriving DecidableEq, Repr

/-- A service under way, for the strand that waits for it. -/
structure ServiceOp where
  strand : StrandRef
  fe     : Nat
  launch : Nat
  core   : Nat
  pc     : Dword
  mask   : Word
  region : Half
  what   : Request
  held   : Hold := .no
  heldVa : Nat := 0
  deriving DecidableEq, Repr

/-! ## The device -/

/-- A cluster's clock (R15, R35): cycles counted up to an instant of device time, and since then at a frequency of
`rate` eighths of a GHz. -/
structure Cluster where
  cycBase : Nat := 0
  nsBase  : Nat := 0
  rate    : Nat := 14
  /-- cap step in force (R378) and least step by ageing (R379) -/
  step    : Nat := 0
  ageStep : Nat := 0
  /-- cycles that counter 0 of R382 has counted -/
  counted : Nat := 0
  deriving DecidableEq, Repr

/-- One core (R13). -/
structure Core where
  /-- the 512 handle records -/
  recs  : Table Nat HandleRec := []
  array : Option MatrixArray := none
  /-- QST words issued in a heartbeat tick: the tick and the count (R224) -/
  qst   : Nat × Nat := (0, 0)
  /-- instruction-cache lines, by partition and line VA: the line's bytes (R209, R359) -/
  icache : Table (Nat × Nat) (List Byte) := []
  /-- ranges reported as not present, by partition (R220) -/
  reported : List (Nat × Nat) := []
  /-- the cycle of the last word's start on the core -/
  reached : Nat := 0
  /-- number of samples taken, and the cycle of the last one (R381) -/
  samples : Nat := 0
  sampleAt : Nat := 0
  deriving DecidableEq, Repr

/-- A lane (R315, R317): the cycle at which its FMA slots are free, the cycle after its last start, and the slot most recently
started. -/
structure Lane where
  busy : Nat := 0
  next : Nat := 0
  last : Nat := 2
  deriving DecidableEq, Repr

/-- A front end's state as its status block has it (R372). -/
inductive FeState where
  | idle | running | suspended | stopped
  deriving DecidableEq, Repr

/-- A command that has started and not completed (R369, R370). -/
structure Cmd where
  typ   : Nat
  seq   : Nat
  done  : Nat
  caddr : Nat
  body  : List Byte
  /-- COPY: bytes moved so far; LAUNCH: the launch's number -/
  pos   : Nat := 0
  /-- number of the last write that happens before its start (R373) -/
  since : Nat := 0
  deriving DecidableEq, Repr

/-- A code object as loaded (R374, R359): its VA, its length, its text sections, its kernel records, the VAs of its demand-loaded
pages with their hashes, its creation count and the physical address of its tag table. -/
structure CodeObject where
  va      : Nat
  size    : Nat
  text    : List (Nat × Nat)
  kernels : List (List Byte)
  demand  : List (Nat × BitVec 256)
  count   : Nat
  tags    : Nat
  deriving DecidableEq, Repr

/-- A terminate under way (R341): its command if a STOP asked for it, the status of the launches, the report's VA, and whether
the partition is disabled after it (R376). -/
structure Stopping where
  cmd    : Option Nat
  cause  : Cause
  report : Option Nat
  gone   : Bool
  deriving DecidableEq, Repr

/-- A command front end and its partition (R323, R345, R364 to R382). -/
structure FrontEnd where
  chan    : BitVec 384 := 0
  colour  : BitVec 64 := 0
  root    : Nat := 0
  en      : Bool := false
  bef     : Bool := false
  rank    : Nat := 0
  clim    : Nat := 0
  cbase   : Nat := 0
  mincl   : Nat := 0
  minch   : Nat := 0
  share   : Nat := 0
  minfc   : Nat := 0
  drain   : Nat := 0
  /-- a record that waits for the partition's blocks to be saved (R324) -/
  nextRec : Option PartRec := none
  pvec    : Dword := 0
  windows : Table Nat Window := []
  /-- windows whose far side does not answer, or reports failures (R215, R367) -/
  silent  : List Nat := []
  groups  : Table Nat RedGroup := []
  /-- bind points 0 to 15 (R156); unlisted: unbound -/
  binds   : Table Nat (BitVec 512) := []
  /-- tensor descriptor table (R184, R204); unlisted: zero -/
  tdes    : Table Nat (BitVec 512) := []
  /-- tokens: pending, or signalled with a cause; unlisted: signalled with 0x00 (R369) -/
  tokens  : Table Nat (Option Cause) := []
  /-- packets received and not started (R368) -/
  queue   : List (List Byte) := []
  cmds    : Table Nat Cmd := []
  st      : FeState := .idle
  seqStart : Nat := 0
  seqDone : Nat := 0
  lastCause : Cause := 0
  statusAddr : Nat := 0
  eventBase : Nat := 0
  sampleBase : Nat := 0
  sampleK : Nat := 0
  counting : Bool := false
  counters : Cells 64 := []
  codes   : List CodeObject := []
  /-- number of times the partition was created, which names its code key (R359) -/
  created : Nat := 0
  /-- demand-loaded pages that have been hashed, and pages whose hash failed (R361) -/
  hashed  : List Nat := []
  failed  : List Nat := []
  /-- CPR number of each reduction group (R287) -/
  cprNum  : Cells 32 := []
  /-- the writes of its virtual function (R373), and the doorbells sent to it (R380) -/
  hostView : View := {}
  doorbells : Nat := 0
  /-- number of the last write when the translation caches were last invalidated (R217), and when each bind point was bound (R157) -/
  flushed : Nat := 0
  boundAt : Cells 64 := []
  /-- being swapped out, swapped out (R344) -/
  swapping : Bool := false
  swapped : Bool := false
  /-- device time of the dispatcher's next placement (R308) -/
  placeAt : Nat := 0
  /-- a launch that waits for its pads to fit, with its command's number (R207) -/
  fitWait : Option (Nat × Launch) := none
  stopping : Option Stopping := none
  /-- status of the last load (R375), and the cause with which the last packet of its virtual function was refused (R368) -/
  loadStatus : Cause := 0
  refused : Cause := 0
  deriving DecidableEq, Repr

/-- Bring-up states (R377). -/
inductive Service where
  | off | powerOn | reduced | full
  deriving DecidableEq, Repr

/-- What comes about without a row of the opcode table. An error of the hardware (R17, R170, R208, R354, R355): an uncorrectable one of a line of device
memory, a word of a pad, a register word, a mask, a macro or AX cell, a line of a store buffer, of an instruction cache or of a translation cache, or a
saved block; a corrected one of the kind that R355 numbers from 0x88, on a unit. The far side of a window stops answering, or answers again. Management
sets Weft's UDP port, or the flow control and the ECN marking of an Ethernet port (R367). A virtual function reads a counter (R382). -/
inductive Upset where
  | line (pa : Nat)
  | pad (pl : Place) (a : Nat)
  | reg (r : StrandRef) (l : Loc) (t : Nat)
  | mask (r : StrandRef) (m : Nat) (t : Nat)
  | macro_ (core cell : Nat)
  | ax (core slot : Nat)
  | storeLine (blk line : Nat)
  | icache (core fe line : Nat)
  | xlate (core : Nat)
  | context (blk : Nat)
  | corrected (kind unit : Nat)
  | window (fe win : Nat) (silent : Bool)
  | udpPort (n : Nat)
  | etherPort (port : Nat) (flowControl ecn : Bool)
  | counterRead (fe i : Nat)
  deriving DecidableEq, Repr

/-- One entry of the model's schedule (log 1): a strand issues its next word, an event happens, or an error occurs. -/
inductive Turn where
  | issue (r : StrandRef)
  | event (e : Instr)
  | upset (u : Upset)
  deriving DecidableEq, Repr

/-- The device. -/
structure State where
  /-- device clock (R7), ns since power-on -/
  ns       : Nat := 0
  /-- device time of the last heartbeat tick (R7) -/
  beatNs   : Nat := 0
  service  : Service := .off
  /-- trained fabric ports, die-to-die links and stacks; Ethernet links up (R364, R367, R377) -/
  ports    : BitVec 18 := 0
  dieLinks : BitVec 4 := 0
  hbmStacks : BitVec 12 := 0
  ethLinks : BitVec 16 := 0
  /-- Weft's UDP destination port; the Ethernet ports with priority flow control and with ECN marking (R367) -/
  udpPort  : BitVec 16 := 51234
  flowControl : BitVec 16 := 0
  ecnMarking : BitVec 16 := 0
  retiredClusters : BitVec 32 := 0
  retiredChannels : BitVec 384 := 0
  powerLimit : Nat := 2400
  /-- device time of the last reading of the ageing monitors (R379) -/
  agedAt   : Nat := 0
  /-- fabric reduction contexts granted (R329) -/
  grant    : Nat := 0
  fatal    : Bool := false
  /-- how the last management operation ended (R376), and what the host's last read obtained (R250) -/
  mgmt     : Cause := 0
  hostRead : List Byte := []
  clusters : Table Nat Cluster := []
  cores    : Table Nat Core := []
  fes      : Table Nat FrontEnd := []
  lanes    : Table Nat Lane := []
  strands  : Table StrandRef Strand := []
  blocks   : Table Nat Block := []
  launches : Table Nat Launch := []
  accs     : Table Nat Access := []
  quorums  : Table Nat QuorumOp := []
  /-- QSTs that have completed and are still on their way to some copies (R225) -/
  echoes   : Table Nat QuorumOp := []
  ops      : Table Nat EngOp := []
  samples  : Table Nat SampleOp := []
  services : Table Nat ServiceOp := []
  /-- device memory by physical address (R18) -/
  mem      : Memory := []
  /-- host memory and remote memory by address on the fabric (R365) -/
  host     : Memory := []
  remote   : Memory := []
  /-- 64-byte lines of device memory that are poisoned (R355 MEM_POISON) -/
  poison   : List Nat := []
  /-- aligned words of pads with an uncorrectable error (R208) -/
  padBad   : List (Place × Nat) := []
  /-- the writes performed, the newest first, their number, what happens before every later FENCE.sc (R244), and the releases of
  quorum cells by the physical address of copy 0 and the tag (R248) -/
  past     : List Past := []
  seq      : Nat := 0
  sc       : View := {}
  tags     : List CellTag := []
  -- the model's own fields (log 1, log 3)
  turns    : List Turn := []
  focus    : Option StrandRef := none
  fresh    : Nat := 0
  uid      : Nat := 0
  deriving DecidableEq, Repr

/-- Why the model stops. -/
inductive Fault where
  /-- Raised by every meaning of an instruction word when no strand has the focus: a state in which no word issues. Safe:
  step never runs a word without a strand. -/
  | noStrand
  deriving DecidableEq, Repr

/-- What the model refuses. -/
inductive Refusal where
  /-- Raised by Dispatch for an instruction that has no meaning yet. Safe. -/
  | notModelled (mnemonic : String)
  deriving DecidableEq, Repr

abbrev Outcome := Host.Outcome State Fault Refusal

/-- The machine right after reset: power-on with nothing configured (R377). -/
def State.reset : State := {}

end Sys2Proof.Machine
end

