-- ==== Sys2Proof/Machine/Clock.lean ====
section
/-!
DEFINITION. Device time, cluster cycles and the heartbeat (R7, R15, R35), and the parts of a device a strand sits on.
-/
namespace Sys2Proof.Machine

/-- The heartbeat count (R7). -/
def State.beat (s : State) : Nat := s.ns / 256

/-- The next heartbeat tick that device time has not reached, or one that it has passed. -/
def State.nextBeat (s : State) : Nat := s.beatNs + 256

/-- Cycles counted by a cluster at an instant of device time (R35). -/
def Cluster.cycles (c : Cluster) (ns : Nat) : Nat := c.cycBase + (ns - c.nsBase) * c.rate / 8

/-- The device time, in whole ns, of the instant at which a cluster has counted `cyc` cycles. -/
def Cluster.nsAt (c : Cluster) (cyc : Nat) : Nat := c.nsBase + (cyc - c.cycBase) * 8 / max 1 c.rate

/-- Change a cluster's frequency at an instant: every cycle counted before stays counted (R35). -/
def Cluster.setRate (c : Cluster) (ns rate : Nat) : Cluster :=
  { c with cycBase := c.cycles ns, nsBase := ns, rate := rate }

def clusterOf (core : Nat) : Nat := core / 18
def dieOf (core : Nat) : Nat := core / 144

def State.cluster (s : State) (core : Nat) : Cluster := s.clusters.getD (clusterOf core) {}

def State.core (s : State) (k : Nat) : Core := s.cores.getD k {}

/-- The cycle count of a core's clock domain now (R35): what device time gives, or the cycle that the core has reached within it. -/
def State.clock (s : State) (core : Nat) : Nat := max ((s.cluster core).cycles s.ns) (s.core core).reached
/-- The cores of a partition's range (R325). -/
def FrontEnd.cores (f : FrontEnd) : List Nat := (List.range (18 * (f.clim + 1))).drop (18 * f.cbase)

def State.fe (s : State) (f : Nat) : FrontEnd := s.fes.getD f {}
def State.setFe (s : State) (f : Nat) (x : FrontEnd) : State := { s with fes := s.fes.put f x }
/-- Move device time forward to a cycle of a core's clock; time never goes back. -/
def State.reachCycle (s : State) (core cyc : Nat) : State :=
  { s with
    ns := max s.ns ((s.cluster core).nsAt cyc)
    cores := s.cores.put core { s.core core with reached := max cyc (s.core core).reached } }

def State.modFe (s : State) (f : Nat) (g : FrontEnd → FrontEnd) : State := s.setFe f (g (s.fe f))
def State.setCore (s : State) (k : Nat) (x : Core) : State := { s with cores := s.cores.put k x }

def State.strand? (s : State) (r : StrandRef) : Option Strand := s.strands.get? r
def State.setStrand (s : State) (r : StrandRef) (k : Strand) : State := { s with strands := s.strands.put r k }
def State.modStrand (s : State) (r : StrandRef) (f : Strand → Strand) : State := { s with strands := s.strands.mod r f }

def State.block? (s : State) (b : Nat) : Option Block := s.blocks.get? b
def State.setBlock (s : State) (b : Nat) (x : Block) : State := { s with blocks := s.blocks.put b x }
def State.modBlock (s : State) (b : Nat) (f : Block → Block) : State := { s with blocks := s.blocks.mod b f }

def State.launch? (s : State) (l : Nat) : Option Launch := s.launches.get? l
def State.setLaunch (s : State) (l : Nat) (x : Launch) : State := { s with launches := s.launches.put l x }
def State.modLaunch (s : State) (l : Nat) (f : Launch → Launch) : State := { s with launches := s.launches.mod l f }

/-- The launch of a block. -/
def State.launchOf (s : State) (b : Nat) : Option Launch := (s.block? b).bind fun x => s.launch? x.launch

/-- Strands of a block, by sid. -/
def State.strandsOf (s : State) (b : Nat) : List (StrandRef × Strand) := s.strands.filter fun e => e.1.blk == b

/-- A free value's number (log 3): the number and the state with the counter moved on. -/
def State.draw (s : State) : Nat × State := (s.fresh, { s with fresh := s.fresh + 1 })

/-- A number for a new object of the model. -/
def State.name (s : State) : Nat × State := (s.uid, { s with uid := s.uid + 1 })

/-- The threads of a mask, ascending (R53). -/
def threadsOf (m : Word) : List Nat := (List.range 32).filter fun t => m.getLsbD t

/-- The number of tangents, D (R37). -/
def Launch.d (l : Launch) : Nat := l.tangents.length

end Sys2Proof.Machine
end

