-- ==== Sys2Proof/Machine/Stalls.lean ====
section
/-!
DEFINITION. The queue store of a core (R266), which strands wait at a queue, and the count of queue-stalled cycles (R320).
-/
namespace Sys2Proof.Machine

def Block.queue (b : Block) (n : Nat) : Queue := b.queues.getD n {}

/-- Entries that a block's queues hold. -/
def Block.queued (b : Block) : Nat := b.queues.foldl (fun n e => n + e.2.entries.length) 0

/-- Entries of the core's queue store that a block takes: its reservation, and what it has drawn beyond it (R266). -/
def Block.storeUse (b : Block) : Nat := max b.qreserve b.queued

/-- Free entries of a core's queue store that no block has reserved. -/
def State.storeFree (s : State) (core : Nat) : Nat :=
  512 - s.blocks.foldl (fun n e => if e.2.core = core && e.2.life != .saved then n + e.2.storeUse else n) 0

/-- Whether a push must wait (R266): the queue is full, or it needs an entry beyond the reservation and none is free. -/
def State.pushBlocked (s : State) (b : Block) (n : Nat) : Bool :=
  (b.queue n).depth ≤ (b.queue n).entries.length || (b.qreserve ≤ b.queued && s.storeFree b.core = 0)

/-- Whether a strand waits at a queue now (R320). -/
def State.atQueue (s : State) (b : Block) (k : Strand) : Bool :=
  match k.wait with
  | .queue n push _ => !k.ph && (if push then s.pushBlocked b n else (b.queue n).entries.isEmpty)
  | _ => false

/-- A block is queue-stalled: every strand that has not ended waits at a queue (R320). -/
def State.queueStalled (s : State) (blk : Nat) (b : Block) : Bool :=
  let ks := (s.strandsOf blk).filter fun e => !e.2.ended
  !ks.isEmpty && ks.all fun e => s.atQueue b e.2

/-- Keep the count of queue-stalled cycles of the blocks on a core (R320); `reset` names the block whose count returns to 0. -/
def State.noteStalls (s : State) (core : Nat) (reset : Option Nat := none) : State :=
  { s with blocks := s.blocks.map fun (e : Nat × Block) =>
      let b := e.2
      if b.core != core || b.life == .saved then e
      else if !(s.queueStalled e.1 b) then (e.1, { b with qstall := none, qreported := false })
      else if reset == some e.1 || b.qstall.isNone then (e.1, { b with qstall := some (s.clock core), qreported := false })
      else e }

end Sys2Proof.Machine
end

