-- ==== Sys2Proof/Machine/Order.lean ====
section
/-!
DEFINITION. The consistency model (R235 to R250): instances and scope-inclusion, what happens before a point, the writes that a read may
read from, and what a thread learns from a read, a fence or another synchronisation.
-/
namespace Sys2Proof.Machine

/-! ## Instances -/

/-- Whether a party lies in the instance of the scope `scope` of `a` (R236). -/
def inInstance (scope : Nat) (a b : Party) : Bool :=
  match scope with
  | 0 => !a.fabric && !b.fabric && a.blk.isSome && a.sid.isSome && a.blk == b.blk && a.sid == b.sid
  | 1 => !a.fabric && !b.fabric && a.blk.isSome && a.blk == b.blk
  | 2 => !a.fabric && !b.fabric && clusterOf a.core == clusterOf b.core
  | 3 => !a.fabric && !b.fabric && dieOf a.core == dieOf b.core
  | 4 => !a.fabric && !b.fabric
  | _ => true

/-- Two events are scope-inclusive (R237). -/
def inclusive (sa : Nat) (a : Party) (sb : Nat) (b : Party) : Bool := inInstance sa a b && inInstance sb b a

/-- The host and the fabric; the front ends, which lie on no core that runs strands. -/
def Party.host : Party := { fabric := true }
def Party.frontEnd : Party := { core := 576 }

/-! ## What happens before a point -/

/-- The number of the newest write of a byte that is known to happen before the point. -/
def View.at (v : View) (pl : Place) (a : Nat) : Nat :=
  v.spans.foldl (fun n x => if x.place = pl && x.lo ≤ a && a < x.lo + x.len then max n x.seq else n) v.base

/-- The number of the newest write of any byte of a run that is known to happen before the point. -/
def View.atRun (v : View) (pl : Place) (a n : Nat) : Nat := (List.range n).foldl (fun b i => max b (v.at pl (a + i))) 0

/-- One span lies within another that is no older. -/
def Span.within (x y : Span) : Bool := x.place = y.place && y.lo ≤ x.lo && x.lo + x.len ≤ y.lo + y.len && x.seq ≤ y.seq

/-- Add a span to a view. -/
def View.add (v : View) (x : Span) : View :=
  if x.seq ≤ v.base || v.spans.any x.within then v else { v with spans := x :: v.spans.filter fun y => !(y.within x) }

/-- The union of two views. -/
def View.join (v w : View) : View :=
  w.spans.foldl View.add { base := max v.base w.base, spans := v.spans.filter fun x => max v.base w.base < x.seq }

/-- The view of everything that has been performed. -/
def State.allSeen (s : State) : View := { base := s.seq }

/-! ## Places -/

/-- The place that a pad access of a core of a block reaches (R207, R208). -/
def padPlace (blk launch core : Nat) : Space → Place
  | .core => .core blk
  | .cluster => .cluster launch (clusterOf core)
  | .die => .die launch (dieOf core)
  | .device => .device

/-- The bytes of a place: the newest write of each. -/
def State.memAt (s : State) : Place → Memory
  | .device => s.mem
  | .host => s.host
  | .remote => s.remote
  | .core b => ((s.block? b).map Block.pad).getD []
  | .cluster l c => ((s.launch? l).map fun x => x.clusterPads.getD c []).getD []
  | .die l d => ((s.launch? l).map fun x => x.diePads.getD d []).getD []

/-- Replace them. -/
def State.setMem (s : State) (pl : Place) (m : Memory) : State :=
  match pl with
  | .device => { s with mem := m }
  | .host => { s with host := m }
  | .remote => { s with remote := m }
  | .core b => s.modBlock b fun x => { x with pad := m }
  | .cluster l c => s.modLaunch l fun x => { x with clusterPads := x.clusterPads.put c m }
  | .die l d => s.modLaunch l fun x => { x with diePads := x.diePads.put d m }

/-! ## Writing -/

/-- Who writes: strand and place in program order, the heads of the release sequences that the write belongs to, the size of its units
(0: the write is one unit), and, for a write of no strand, what happens before it. -/
structure Author where
  src   : Option (Nat × Nat × Nat) := none
  heads : List Head := []
  grain : Nat := 0
  before : View := {}
  deriving DecidableEq, Repr

/-- Write bytes of a place, of which `sel` holds: the newest write in co. -/
def State.write (s : State) (pl : Place) (a : Nat) (bs : List Byte) (w : Author) (sel : Nat → Bool := fun _ => true) : State :=
  let m := s.memAt pl
  let old := (m.bytes a bs.length).zipIdx.map fun e => if sel e.2 then some e.1 else none
  let new := (bs.zip (m.bytes a bs.length)).zipIdx.map fun e => if sel e.2 then e.1.1 else e.1.2
  let s := s.setMem pl (m.put a new)
  { s with
    seq := s.seq + 1, past := ⟨s.seq + 1, pl, a, old, w.grain, w.src, w.heads, w.before⟩ :: s.past
    -- a word of a pad that is written whole holds no error (log 21)
    padBad := s.padBad.filter fun e =>
      !(e.1 = pl && a ≤ e.2 && e.2 + 4 ≤ a + bs.length && (List.range 4).all fun i => sel (e.2 + i - a))
    -- and so does a line of device memory
    poison := s.poison.filter fun l =>
      !(pl = .device && a ≤ l && l + 64 ≤ a + bs.length && (List.range 64).all fun i => sel (l + i - a)) }

/-- The bytes of a write, as a span. -/
def Past.span (e : Past) : Span := ⟨e.place, e.addr, e.old.length, e.seq⟩

/-- The span of the last write. -/
def State.lastSpan (s : State) : List Span := s.past.head?.toList.map Past.span

/-- A view that takes in the last write. -/
def View.wrote (v : View) (s : State) : View := s.lastSpan.foldl View.add v

/-- The author of a release at system scope, after everything that has been performed (R370, R372). -/
def State.release (s : State) : Author := { heads := [⟨5, Party.frontEnd, s.allSeen⟩], before := s.allSeen }

/-! ## Reading -/

/-- The byte at `a` before the write, if the write wrote it. -/
def Past.byte? (e : Past) (a : Nat) : Option Byte := if e.addr ≤ a then (e.old[a - e.addr]?).join else none

/-- The write wrote a byte of a run of a place. -/
def Past.touches (e : Past) (pl : Place) (a n : Nat) : Bool := e.place = pl && (List.range n).any fun i => (e.byte? (a + i)).isSome

/-- The write covers exactly the bytes of a unit (R235). -/
def Past.isUnit (e : Past) (a n : Nat) : Bool :=
  (List.range n).all (fun i => (e.byte? (a + i)).isSome) && if e.grain = 0 then e.addr = a && e.old.length = n else e.grain = n && a % n = 0

/-- The contents of a run before each of some writes to it, newest first: `bs` are its bytes after them. -/
def contents (a : Nat) : List Past → List Byte → List (List Byte)
  | [], bs => [bs]
  | e :: es, bs => bs :: contents a es (bs.zipIdx.map fun x => (e.byte? (a + x.2)).getD x.1)

/-- What a read obtained: its bytes, and the writes that it reads from. -/
structure Got where
  bytes : List Byte
  from_ : List Past
  deriving DecidableEq, Repr

/-- Choose among the writes of a unit, the newest first (R246 Coherence): the read reads from a write that is no older than number
`bound`, which happens before it. -/
def pickWrite (q : List Past) (bs : List Byte) (a bound seed : Nat) : Got :=
  let new := q.filter fun e => bound < e.seq
  let i := if new.isEmpty then 0 else Config.readChoice seed a % (new.length + 1)
  ⟨(contents a new bs).getD i bs, (q[i]?).toList⟩

/-- A read of one unit of a place by an observer with a view (R235): one write for the whole unit where every write of its bytes covers exactly
the unit, else one for each byte. A whole unit is read no older than any of its bytes has been (R246 Coherence). -/
def State.readUnit (s : State) (pl : Place) (v : View) (a n seed : Nat) : Got :=
  let m := s.memAt pl
  let q := s.past.filter fun e => e.touches pl a n
  if q.all fun e => e.isUnit a n then pickWrite q (m.bytes a n) a (v.atRun pl a n) seed
  else
    let rs := (List.range n).map fun i => pickWrite (q.filter fun e => (e.byte? (a + i)).isSome) (m.bytes (a + i) 1) (a + i) (v.at pl (a + i)) seed
    ⟨rs.flatMap Got.bytes, rs.flatMap Got.from_⟩

/-- The newest bytes of a unit: what an RMW reads (R248). -/
def State.readNewest (s : State) (pl : Place) (a n : Nat) : Got :=
  let q := s.past.filter fun e => e.touches pl a n
  ⟨(s.memAt pl).bytes a n, ((List.range n).filterMap fun i => q.find? fun e => (e.byte? (a + i)).isSome).eraseDups⟩

/-- One 32-bit word of an FXCELL page, which is read from the state of its cell as a whole (R221), no older than any word of the cell has
been read (R246). -/
def State.readCell (s : State) (pl : Place) (v : View) (a n seed : Nat) : Got :=
  pickWrite (s.past.filter fun e => e.touches pl a n) ((s.memAt pl).bytes a n) a (v.atRun pl (a / 16 * 16) 16) seed

/-- What an address held before a write, if the write wrote it. -/
def Past.byteAt? (e : Past) (x : Place × Nat) : Option Byte := if e.place = x.1 then e.byte? x.2 else none

/-- The write wrote one of some bytes. -/
def Past.meets (e : Past) (as : List (Place × Nat)) : Bool := as.any fun x => (e.byteAt? x).isSome

/-- A view after reads from writes: none of their bytes may be read older by what follows (R246 Coherence). -/
def View.reads (v : View) (pl : Place) (a n : Nat) (ws : List Past) : View :=
  ws.foldl (fun v e => v.add ⟨pl, max a e.addr, min (a + n) (e.addr + e.old.length) - max a e.addr, e.seq⟩) v

/-- One element whose bytes lie at `as`, as an observer with a view reads it (R168, R195): what it held after some write of any of its bits that is
no older than the view has of any of its bytes; and the view after it. `key` names the element. -/
def State.readElem (s : State) (v : View) (as : List (Place × Nat)) (seed key : Nat) : List Byte × View :=
  let q := s.past.filter fun e => e.meets as
  let bound := as.foldl (fun b x => max b (v.at x.1 x.2)) 0
  let new := q.filter fun e => bound < e.seq
  let i := if new.isEmpty then 0 else Config.readChoice seed key % (new.length + 1)
  let now := as.map fun x => Cells.get (s.memAt x.1) x.2
  ((new.take i).foldl (fun bs e => (as.zip bs).map fun x => (e.byteAt? x.1).getD x.2) now,
    as.foldl (fun v x => v.reads x.1 x.2 1 ((q.drop i).find? fun e => (e.byteAt? x).isSome).toList) v)

/-- What an observer with a view has read of a run: the bytes, the view after it, and the writes read from. -/
structure Ran where
  bytes : List Byte
  view  : View
  from_ : List Past := []
  deriving DecidableEq, Repr

/-- A run as an observer with a view reads it, each unit of `g` bytes for itself (R235, R243). -/
def State.readRunAs (s : State) (pl : Place) (v : View) (g a n seed : Nat) : Ran :=
  if s.past.all fun e => e.seq ≤ v.base || !(e.touches pl a n) then ⟨(s.memAt pl).bytes a n, v, []⟩
  else (List.range (ceilDiv (a % g + n) g)).foldl (fun (r : Ran) i =>
    let lo := max a (a / g * g + g * i)
    let len := min (a + n) (a / g * g + g * i + g) - lo
    let x := s.readUnit pl v lo len seed
    ⟨r.bytes ++ x.bytes, r.view.reads pl lo len x.from_, r.from_ ++ x.from_⟩) ⟨[], v, []⟩

/-- A place as an engine operation with a view reads it, in the units of `g` bytes that `want` names by their addresses: each that a write has
written which is not known to happen before is read for itself; and the view after it. -/
def State.memAs (s : State) (pl : Place) (v : View) (g seed : Nat) (want : Nat → Bool) : Memory × View :=
  let new := s.past.filter fun e => e.place = pl && v.base < e.seq
  let units := (new.flatMap fun e => (List.range (ceilDiv (e.addr % g + e.old.length) g)).map fun i => e.addr / g * g + g * i).eraseDups
  (units.filter want).foldl (fun (r : Memory × View) a =>
    let x := s.readUnit pl v a g seed
    (r.1.put a x.bytes, r.2.reads pl a g x.from_)) (s.memAt pl, v)

/-! ## Threads -/

/-- What a thread has behind it. -/
def Strand.behind (k : Strand) (t : Nat) : Seen := (k.seen.get? t).getD { view := { base := k.since } }

/-- Change what the threads of a mask have behind them. -/
def Strand.learn (k : Strand) (m : Word) (f : Seen → Seen) : Strand :=
  (threadsOf m).foldl (fun k t => { k with seen := k.seen.put t (f (k.behind t)) }) k

/-- What is behind all the threads of a mask together. -/
def Strand.viewOf (k : Strand) (m : Word) : View := (threadsOf m).foldl (fun v t => v.join (k.behind t).view) { base := k.since }

/-- Threads learn that what is in a view happens before their next event. -/
def Strand.sync (k : Strand) (m : Word) (v : View) : Strand :=
  if v.base ≤ k.since && v.spans.isEmpty then k else k.learn m fun z => { z with view := z.view.join v }

/-- Add heads, each once. -/
def addHeads (hs new : List Head) : List Head := new.foldl (fun hs h => if hs.contains h then hs else h :: hs) hs

/-- An acquire of release sequences with these heads (R242): those that are scope-inclusive with it happen before what follows. -/
def Seen.join (z : Seen) (who : Party) (acq : Bool) (scope : Nat) (hs : List Head) : Seen :=
  if !acq then z
  else hs.foldl (fun z h => if inclusive h.scope h.who scope who then { z with view := z.view.join h.view } else z) z

/-- A thread after a read from release sequences with these heads, outside the writes that are listed. -/
def Seen.acquire (z : Seen) (who : Party) (acq : Bool) (scope : Nat) (hs : List Head) : Seen :=
  ({ z with heads := addHeads z.heads hs } : Seen).join who acq scope hs

/-- A thread after a read of `n` bytes at `a` from the writes `ws` (R242, R244): an acquire of a release sequence that is scope-inclusive
with it takes in what happens before the head. -/
def Seen.read (z : Seen) (who : Party) (acq : Bool) (scope : Nat) (pl : Place) (a n : Nat) (ws : List Past) : Seen :=
  let z := { z with
    view := z.view.reads pl a n ws
    heads := ws.foldl (fun hs (e : Past) => addHeads hs e.heads) z.heads
    src := ((ws.filterMap Past.src) ++ z.src).eraseDups
    obs := ws.foldl (fun v (e : Past) => v.join e.before) z.obs }
  z.join who acq scope (ws.flatMap Past.heads)

/-- The release sequences that a write of a thread heads (R242): its own where it is a release with `view` behind it, and those of the
release fences behind it at its scope or a narrower one. -/
def Seen.headsOf (z : Seen) (who : Party) (rel : Bool) (scope : Nat) (view : View) : List Head :=
  (if rel then [⟨scope, who, view⟩] else []) ++ z.rels.filter fun h => h.scope ≤ scope

/-- A fence in a thread (R242): an acquire half takes in the releases that earlier reads have read from, a release half stands before later
writes. -/
def Seen.fence (z : Seen) (who : Party) (acq rel : Bool) (scope : Nat) : Seen :=
  let z := z.join who acq scope z.heads
  if !rel then z else { z with rels := ⟨scope, who, z.view⟩ :: z.rels.filter fun h => h.scope != scope }

/-- A strand as a party, and an engine operation of a block. -/
def Party.ofStrand (r : StrandRef) (core : Nat) : Party := { blk := some r.blk, sid := some r.sid, core := core }
def Party.ofEngine (blk core : Nat) : Party := { blk := some blk, core := core }

/-! ## FENCE.sc -/

/-- A strand has accesses that are not performed and stand before a place in its program order. -/
def State.pendingBefore (s : State) (blk sid po : Nat) : Bool :=
  (s.accs.any fun e => e.2.strand.blk == blk && e.2.strand.sid == sid && e.2.po < po)
    || s.quorums.any fun e => e.2.strand.blk == blk && e.2.strand.sid == sid && e.2.po < po

/-- FENCE.sc may complete for the threads of a mask (R244): what stands before the writes that they have observed has been performed. -/
def State.observedDone (s : State) (k : Strand) (m : Word) : Bool :=
  (threadsOf m).all fun t => (k.behind t).src.all fun x => !(s.pendingBefore x.1 x.2.1 x.2.2)

/-- What is observed before a FENCE.sc of a thread (R244): with a write that it has read from, all that its writer has behind it (log 9), or what
happens before a write of no strand. -/
def State.observed (s : State) (z : Seen) : View :=
  z.src.foldl (fun v x => match s.strand? ⟨x.1, x.2.1⟩ with
    | some k => v.join (k.viewOf 0xFFFFFFFF)
    | none => v.join s.allSeen) (z.view.join z.obs)

/-- FENCE.sc completes (R244). -/
def State.fenceSc (s : State) (r : StrandRef) (m : Word) : State :=
  match s.strand? r with
  | none => s
  | some k =>
    let v := (threadsOf m).foldl (fun v t => v.join (s.observed (k.behind t))) s.sc
    (({ s with sc := v } : State).setStrand r (k.learn m fun z => { z with view := z.view.join v }))

end Sys2Proof.Machine
end

