-- ==== Sys2Proof/Machine/Translate.lean ====
section
/-!
DEFINITION. Device memory as a partition sees it: channels (R327), the page walk (R211 to R213), the kinds of access a page allows
(R214), DIRTY (R218), and the bytes behind each level of storage (R207, R208).
-/
namespace Sys2Proof.Machine

/-- Bytes of one stack, of one channel (R18, R327). -/
def stackBytes : Nat := 64000000000
def channelBytes : Nat := 2000000000

/-- A device physical address that names a byte of a stack (R213). -/
def paOk (pa : Nat) : Bool := pa < 2 ^ 40 && pa / 2 ^ 36 < 12 && pa % 2 ^ 36 < stackBytes

/-- The channel of a physical address (R327). -/
def channelOf (pa : Nat) : Nat := 32 * (pa / 2 ^ 36) + pa % 2 ^ 36 / channelBytes

/-- Every byte of a run lies in channels of a partition (R327). A run is at most one page of 65,536 bytes long, less than a
channel, so its first and last bytes decide. -/
def FrontEnd.owns (f : FrontEnd) (pa len : Nat) : Bool :=
  paOk pa && paOk (pa + len - 1) && f.chan.getLsbD (channelOf pa) && f.chan.getLsbD (channelOf (pa + len - 1))

/-- The page attributes of R213. -/
inductive Attr where
  | normal | quorum3 | quorum5 | fxcell | hostwin
  deriving DecidableEq, Repr

def Attr.ofCode : Nat → Option Attr
  | 0 => some .normal | 1 => some .quorum3 | 2 => some .quorum5 | 3 => some .fxcell | 4 => some .hostwin | _ => none

/-- A translated address: the physical address (for HOSTWIN, the window and the offset in it), and what the leaf entry says. -/
structure Page where
  pa    : Nat
  attr  : Attr
  win   : Nat
  ro    : Bool
  x     : Bool
  dirty : Bool
  /-- physical address of the leaf entry -/
  entry : Nat
  deriving DecidableEq, Repr

/-- How a translation ends. -/
inductive Walk where
  | absent
  | fault (c : Cause)
  | page (p : Page)
  deriving DecidableEq, Repr

/-- The table address or page address of an entry, bits 51 to 12. -/
def pteAddr (e : Nat) : Nat := bitsN e 51 12 * 4096

/-- Where the translations of a partition's cores come from (R217): device memory, the writes to it, the number of the last write before the
last invalidation, and a fresh number. -/
structure Tlb where
  mem   : Memory
  past  : List Past := []
  since : Nat := 0
  seed  : Nat := 0
  deriving DecidableEq, Repr

/-- Translation for a partition now. -/
def State.tlb (s : State) (fe : Nat) : Tlb := ⟨s.mem, s.past, (s.fe fe).flushed, s.fresh⟩

/-- Invalidate the translation caches of a partition (R217). -/
def State.flushTlb (s : State) (fe : Nat) : State := s.modFe fe fun f => { f with flushed := s.seq }

/-- An entry as an access uses it (R217): what memory holds, or a present content that it has held since the last invalidation. -/
def Tlb.entry (t : Tlb) (pa : Nat) : Nat :=
  match (t.past.filter fun e => t.since < e.seq && e.touches .device pa 8) with
  | [] => t.mem.num pa 8
  | es =>
    let old := ((contents pa es (t.mem.bytes pa 8)).tail.map numOf).filter fun e => e.testBit 0
    (t.mem.num pa 8 :: old).getD (Config.cachedEntry t.seed pa % (old.length + 1)) 0

/-- Read one entry: a table entry must lie in the partition's channels (R327). -/
def readPte (t : Tlb) (f : FrontEnd) (pa : Nat) : Option Nat :=
  if f.owns pa 8 then some (t.entry pa) else none

/-- The leaf entry `e` at level `lvl` (R212, R213), or XLATE_PERM where it is malformed. -/
def leafPage (lvl e entry va : Nat) : Walk :=
  let size := if lvl == 2 then 2 ^ 30 else if lvl == 1 then 2 ^ 21 else 2 ^ 16
  match Attr.ofCode (bitsN e 4 2) with
  | none => .fault Cause.xlatePerm
  | some attr =>
    let a := pteAddr e
    let quorum := attr == .quorum3 || attr == .quorum5
    if a % size != 0 then .fault Cause.xlatePerm
    else if attr != .hostwin && (bitsN e 51 40 != 0 || !paOk a) then .fault Cause.xlatePerm
    else if quorum && (lvl != 0 || a % 2 ^ 17 != 0) then .fault Cause.xlatePerm
    else
      let off := va % size
      let pa := if quorum then a + 2 * off else a + off
      .page ⟨pa, attr, bitsN e 57 52, e.testBit 5, e.testBit 6, e.testBit 7, entry⟩

/-- Levels 2 to 0 of the walk from the table at `tab`. -/
def walkLevels (m : Tlb) (f : FrontEnd) (va : Nat) : Nat → Nat → Walk
  | lvl, tab =>
    let idx := match lvl with | 2 => bitsN va 38 30 | 1 => bitsN va 29 21 | _ => bitsN va 20 16
    let entry := tab + 8 * idx
    match readPte m f entry with
    | none => .fault Cause.xlatePerm
    | some e =>
      if !e.testBit 0 then .absent
      else match lvl with
        | 0 => if e.testBit 1 then leafPage 0 e entry va else .fault Cause.xlatePerm
        | l + 1 =>
          if e.testBit 1 then leafPage (l + 1) e entry va
          else if bitsN e 51 40 != 0 || !paOk (pteAddr e) then .fault Cause.xlatePerm
          else walkLevels m f va l (pteAddr e)

/-- Translate a 64-bit address for a partition (R211 to R213). -/
def walk (m : Tlb) (f : FrontEnd) (va : Nat) : Walk :=
  if va ≥ 2 ^ 52 then .fault Cause.vaRange
  else if f.root == 0 || !f.owns f.root 8 then .fault Cause.rootInvalid
  else
    let entry := f.root + 8 * bitsN va 51 39
    match readPte m f entry with
    | none => .fault Cause.xlatePerm
    | some e =>
      if !e.testBit 0 then .absent
      else if e.testBit 1 || bitsN e 51 40 != 0 || !paOk (pteAddr e) then .fault Cause.xlatePerm
      else walkLevels m f va 2 (pteAddr e)

/-- The kinds of access of R214. -/
inductive Reach where
  | ld | st | stQuad | atom | fxadd | fxrd | fxclr | qld | qst | waita | engRead | engWrite | fetch
  deriving DecidableEq, Repr

/-- The write kinds (R214). -/
def Reach.writes : Reach → Bool
  | .st | .stQuad | .atom | .fxadd | .fxclr | .qst | .engWrite => true
  | .ld | .fxrd | .qld | .waita | .engRead | .fetch => false

/-- The cause of an access that lands in a page (R214); none where it is allowed. -/
def Reach.cause (k : Reach) (p : Page) : Option Cause :=
  if p.ro && k.writes then some Cause.writeReadonly
  else
    let bad := some Cause.attrMismatch
    match p.attr, k with
    | .normal, .fetch => if p.x then none else some Cause.xlatePerm
    | .normal, .fxadd | .normal, .fxrd | .normal, .fxclr | .normal, .qld | .normal, .qst => bad
    | .normal, _ => none
    | .quorum3, .qld | .quorum3, .qst | .quorum5, .qld | .quorum5, .qst => none
    | .quorum3, _ | .quorum5, _ => bad
    | .fxcell, .ld | .fxcell, .stQuad | .fxcell, .fxadd | .fxcell, .fxrd | .fxcell, .fxclr => none
    | .fxcell, _ => bad
    | .hostwin, .ld | .hostwin, .st | .hostwin, .stQuad | .hostwin, .atom | .hostwin, .engRead | .hostwin, .engWrite => none
    | .hostwin, _ => bad

/-- Translate and check one access of `len` bytes, at most 128 (R211 to R215, R327). An access to a window whose far side does not answer fails
(R215, R367). -/
def lookup (m : Tlb) (f : FrontEnd) (k : Reach) (va len : Nat) : Walk :=
  match walk m f va with
  | .page p =>
    match k.cause p with
    | some c => .fault c
    | none =>
      if p.attr == .hostwin then
        match f.windows.get? p.win with
        | some w => if p.pa + len ≤ w.size * 65536 && !f.silent.contains p.win then .page p else .fault Cause.hostwinError
        | none => .fault Cause.hostwinError
      else if f.owns p.pa len then .page p
      else .fault Cause.xlatePerm
  | w => w

/-- Set DIRTY in a leaf entry before the first write through it (R218). -/
def setDirty (m : Memory) (p : Page) : Memory :=
  if p.dirty then m else m.set p.entry (m.get p.entry ||| 0x80)

/-- The place and the address of what a page translates to: device memory, or host or remote memory by its address on the fabric (R365). -/
def FrontEnd.place (f : FrontEnd) (p : Page) : Place × Nat :=
  if p.attr == .hostwin then
    match f.windows.get? p.win with
    | some w => (if w.kind == .hostMemory then .host else .remote, w.base + p.pa)
    | none => (.host, p.pa)
  else (.device, p.pa)

/-- The newest `len` bytes behind a translated address. -/
def State.readPage (s : State) (f : FrontEnd) (p : Page) (len : Nat) : List Byte :=
  (s.memAt (f.place p).1).bytes (f.place p).2 len

/-- Write bytes behind a translated address, setting DIRTY. -/
def State.writePage (s : State) (f : FrontEnd) (p : Page) (bs : List Byte) (w : Author) (sel : Nat → Bool := fun _ => true) : State :=
  ({ s with mem := setDirty s.mem p } : State).write (f.place p).1 (f.place p).2 bs w sel

/-- Whether a run of device memory meets a poisoned 64-byte line. -/
def State.poisoned (s : State) (p : Page) (len : Nat) : Bool :=
  p.attr != .hostwin && s.poison.any fun l => l < p.pa + len && p.pa < l + 64

/-- Whether a run of a pad meets a word with an uncorrectable error (R208). -/
def State.padPoisoned (s : State) (pl : Place) (a n : Nat) : Bool := s.padBad.any fun e => e.1 = pl && e.2 < a + n && a < e.2 + 4

/-- The bytes of a block's or launch's pad, as a core of the launch sees it (R207, R208). -/
def State.padOf (s : State) (blk launch core : Nat) (sp : Space) : Memory := s.memAt (padPlace blk launch core sp)

/-- The size of an allocation (R37). -/
def Launch.padSize (l : Launch) : Space → Nat
  | .core => l.corePad | .cluster => l.clusterPad | .die => l.diePad | .device => 0

/-- The cause of a pad access out of bounds (R210). -/
def padCause : Space → Cause
  | .cluster => Cause.padBounds 1 | .die => Cause.padBounds 2 | _ => Cause.padBounds 0

end Sys2Proof.Machine
end

