-- ==== Sys2Proof/Machine/Tensors.lean ====
section
/-!
DEFINITION. Tensor descriptors (R184 to R186), layout words (R187, R188) and the boxes that copies move (R275 to R277): which bytes of
a tensor and of a pad tile hold which bits of a box, and the units of a copy.
-/
namespace Sys2Proof.Machine
open Sys2Proof.Fp

/-- A tensor descriptor entry (R184); box extents as they count, from 1. -/
structure Tde where
  base  : Nat
  sbase : Nat
  xlist : Nat
  fmt   : Nat
  geo   : Nat
  ex    : List Nat
  sd    : List Nat
  bx    : List Nat
  fr    : Nat
  fs    : Nat
  ph    : Nat
  pw    : Nat
  deriving DecidableEq, Repr

/-- The fields of an entry. -/
def tdeOf (e : BitVec 512) : Tde :=
  let f := fun hi lo => bitsN e.toNat hi lo
  { base := f 63 0, sbase := f 127 64, xlist := f 191 128, fmt := f 195 192, geo := f 199 196
    ex := (List.range 5).map fun k => f (223 + 24 * k) (200 + 24 * k)
    sd := (List.range 4).map fun k => f (351 + 32 * k) (320 + 32 * k)
    bx := (List.range 5).map fun k => f (455 + 8 * k) (448 + 8 * k) + 1
    fr := f 491 488, fs := f 495 492, ph := f 499 496, pw := f 503 500 }

/-- The extent of dim `k`, the stride of dim `k` ≥ 1 and the box extent of dim `k`. -/
def Tde.exN (t : Tde) (k : Nat) : Nat := t.ex.getD k 0
def Tde.sdN (t : Tde) (k : Nat) : Nat := t.sd.getD (k - 1) 0
def Tde.bxN (t : Tde) (k : Nat) : Nat := t.bx.getD k 1

/-- The number of dimensions in use; 0 for an invalid geometry. -/
def Tde.rank (t : Tde) : Nat := if t.geo = 6 then 4 else if t.geo ≤ 5 then t.geo else 0

/-- Conv geometry. -/
def Tde.conv (t : Tde) : Bool := t.geo == 6

/-- A valid entry (R185). -/
def Tde.valid (t : Tde) : Bool :=
  t.rank != 0
    && (List.range 5).all (fun k => if k < t.rank then t.exN k != 0 else t.exN k == 1)
    && t.base % 16 == 0 && t.xlist % 16 == 0
    && (List.range 5).all (fun k => k == 0 || t.rank ≤ k || t.sdN k % 16 == 0)
    && t.base < 2 ^ 52 && t.sbase < 2 ^ 52 && t.xlist < 2 ^ 52
    && (t.sbase == 0 || (3 ≤ t.fmt && t.fmt ≤ 8)) && (t.fmt != 8 || t.sbase != 0)
    && (t.sbase == 0 || t.bxN 0 % 32 == 0)

/-- Element width in bits. -/
def Tde.width (t : Tde) : Nat := fmtWidth t.fmt

/-- The entry of a TID as stored (R184). -/
def FrontEnd.tde (f : FrontEnd) (tid : Nat) : BitVec 512 := (f.tdes.get? tid).getD 0

/-- Address of the byte of dim-0 byte offset `x` at indices i1 to i4. -/
def Tde.byteVa (t : Tde) (x : Int) (i : List Int) : Int :=
  (t.base : Int) + x + (List.range 4).foldl (fun a k => a + i.getD k 0 * t.sdN (k + 1)) 0

/-- Whether indices i1 to i4 lie in the tensor. -/
def Tde.rowIn (t : Tde) (i : List Int) : Bool :=
  (List.range 4).all fun k => 0 ≤ i.getD k 0 && i.getD k 0 < t.exN (k + 1)

/-- The scale byte of dim-0 block `b0` at indices i1 to i4 (R186). -/
def Tde.scaleVa (t : Tde) (b0 : Int) (i : List Int) : Int :=
  (t.sbase : Int) + b0 + ceilDiv (t.exN 0) 32 *
    (i.getD 0 0 + t.exN 1 * (i.getD 1 0 + t.exN 2 * (i.getD 2 0 + t.exN 3 * i.getD 3 0)))

/-- The linear index of an element (R284). -/
def Tde.linear (t : Tde) (i0 : Int) (i : List Int) : Int :=
  i0 + t.exN 0 * (i.getD 0 0 + t.exN 1 * (i.getD 1 0 + t.exN 2 * (i.getD 2 0 + t.exN 3 * i.getD 3 0)))

/-! ## Layout words -/

/-- A layout word (R187). -/
structure Layout where
  space : Space
  poff  : Nat
  sd1   : Nat
  sd2   : Nat
  sd3   : Nat
  perm  : Nat
  deriving DecidableEq, Repr

/-- Read a layout word; none: LAYOUT_INVALID (R187, R188). -/
def layoutOf (ws : List Word) : Option Layout :=
  let n := numOf (ws.take 3 |>.flatMap fun w => bytesOf 4 w.toNat)
  let perm := bitsN n 91 88
  let sd1 := bitsN n 47 28
  let lvl := bitsN n 27 26
  if bitsN n 95 92 != 0 || lvl == 3 || 3 < perm || (perm != 0 && sd1 % (16 * 2 ^ (perm + 1)) != 0) then none
  else some ⟨if lvl == 0 then .core else if lvl == 1 then .cluster else .die, bitsN n 25 0, sd1, bitsN n 67 48, bitsN n 87 68, perm⟩

/-- The pad offset of byte `x` at dim-1 to dim-3 indices i, j, k (R187, R188). -/
def Layout.at (l : Layout) (x i j k : Nat) : Nat :=
  l.poff + (if l.perm = 0 then x else x ^^^ (16 * (i % 2 ^ (l.perm + 1)))) + i * l.sd1 + j * l.sd2 + k * l.sd3

/-- One past the highest pad offset of a tile of `run` bytes and the given extents. -/
def Layout.top (l : Layout) (run n1 n2 n3 : Nat) : Nat :=
  (List.range n1).foldl (fun m i =>
    (List.range (ceilDiv run 16)).foldl (fun m q => max m (l.at (min (16 * q + 15) (run - 1)) i (n2 - 1) (n3 - 1) + 1)) m) 0

/-- The bytes of a tile lie in the allocation of their level (R210). -/
def Layout.inside (l : Layout) (la : Launch) (run n1 n2 n3 : Nat) : Bool := l.top run n1 n2 n3 ≤ la.padSize l.space

/-- Every element of a tile lies at a multiple of its size in bytes (R277). -/
def Layout.straight (l : Layout) (size n1 n2 n3 : Nat) : Bool :=
  l.poff % size == 0 && (n1 ≤ 1 || l.sd1 % size == 0) && (n2 ≤ 1 || l.sd2 % size == 0) && (n3 ≤ 1 || l.sd3 % size == 0)

/-! ## Boxes -/

/-- One slice of a box copy (R275 to R277): its descriptor, origins, filter offsets and pad tile. -/
structure Slice where
  t   : Tde
  o   : List Int
  fr  : Nat
  s   : Nat
  lay : Layout
  deriving DecidableEq, Repr

/-- The slice of an arrival, from its groups; none: the layout word is invalid. -/
def sliceOf (d : BitVec 512) (sa sb : List Word) : Option Slice :=
  (layoutOf sb).map fun lay =>
    { t := tdeOf d, o := (List.range 5).map fun k => (sa.getD (k + 1) 0).toInt
      fr := bitsN (sa.getD 0 0).toNat 19 16, s := bitsN (sa.getD 0 0).toNat 23 20, lay := lay }

/-- Bytes of a row of the box, and of the box (R277). -/
def Slice.run (z : Slice) : Nat := ceilDiv (z.t.bxN 0 * z.t.width) 8
def Slice.rows (z : Slice) : Nat := z.t.bxN 1 * z.t.bxN 2 * z.t.bxN 3
def Slice.size (z : Slice) : Nat := z.run * z.rows

/-- Bytes of a unit (R235): words for elements of 32 bits or more, else bytes. -/
def Slice.unit (z : Slice) : Nat := if 32 ≤ z.t.width then 4 else 1

/-- Units of a slice. -/
def Slice.units (z : Slice) : Nat := z.size / z.unit

/-- The byte offset in its row, and the box indices b1, b2, b3, of unit `u`. -/
def Slice.place (z : Slice) (u : Nat) : Nat × Nat × Nat × Nat :=
  let q := u * z.unit / z.run
  (u * z.unit % z.run, q % z.t.bxN 1, q / z.t.bxN 1 % z.t.bxN 2, q / (z.t.bxN 1 * z.t.bxN 2))

/-- Tensor indices of a box row (R276): the first element's i0, and i1 to i4. -/
def Slice.index (z : Slice) (b1 b2 b3 : Nat) : Int × List Int :=
  let o := fun k => z.o.getD k 0
  if z.t.conv then (o 0, [o 1 + b1 - z.t.pw + z.s, o 2 + b2 - z.t.ph + z.fr, o 3 + b3, 0])
  else (o 0, [o 1 + b1, o 2 + b2, o 3 + b3, o 4])

/-- The bits of a row's byte `x` that belong to the box, and those whose element lies in the tensor (R276). -/
def Slice.boxMask (z : Slice) (x : Nat) : Byte :=
  BitVec.ofNat 8 ((List.range 8).foldl (fun m i => if (8 * x + i) / z.t.width < z.t.bxN 0 then m + 2 ^ i else m) 0)
def Slice.inMask (z : Slice) (x : Nat) (ix : Int × List Int) : Byte :=
  if !z.t.rowIn ix.2 then 0
  else BitVec.ofNat 8 ((List.range 8).foldl (fun m i =>
    let e : Nat := (8 * x + i) / z.t.width
    if e < z.t.bxN 0 && 0 ≤ ix.1 + (e : Int) && ix.1 + (e : Int) < z.t.exN 0 then m + 2 ^ i else m) 0)

/-- The VA of a row's byte `x`. -/
def Slice.va (z : Slice) (x : Nat) (ix : Int × List Int) : Nat :=
  (z.t.byteVa (ix.1 * z.t.width / 8 + x) ix.2).toNat

/-- The causes BOX_RANGE of R276 and R277. -/
def Slice.boxBad (z : Slice) : Bool :=
  z.t.bxN 4 != 1 || (z.o.getD 0 0 * z.t.width) % 8 != 0 || (z.t.conv && (z.t.fr < z.fr || z.t.fs < z.s))

/-- Put the bits of a mask into a byte. -/
def mergeByte (old new mask : Byte) : Byte := (old &&& ~~~mask) ||| (new &&& mask)

/-! ## What a copy moves -/

/-- The slices of a box copy (R274). -/
def EngOp.slices (o : EngOp) : List Slice :=
  ((o.arr.zip o.descs).filterMap fun e => sliceOf e.2 e.1.word.sa e.1.word.sb)

/-- One slice of CPM (R283): the two tiles and the extents. -/
structure TileMove where
  src : Layout
  dst : Layout
  e0  : Nat
  e1  : Nat
  e2  : Nat
  e3  : Nat
  deriving DecidableEq, Repr

/-- The slice of a CPM word; none: a layout word is invalid. -/
def tileMoveOf (w : EngWord) : Option TileMove :=
  match layoutOf w.sa, layoutOf w.sb with
  | some src, some dst =>
    let x := (w.sa.getD 3 0).toNat
    some ⟨src, dst, bitsN x 11 0 + 1, bitsN x 19 12 + 1, bitsN x 27 20 + 1, bitsN x 31 28 + 1⟩
  | _, _ => none

def TileMove.size (m : TileMove) : Nat := m.e0 * m.e1 * m.e2 * m.e3

/-- The byte and the indices of unit `u` of a tile move. -/
def TileMove.place (m : TileMove) (u : Nat) : Nat × Nat × Nat × Nat :=
  (u % m.e0, u / m.e0 % m.e1, u / (m.e0 * m.e1) % m.e2, u / (m.e0 * m.e1 * m.e2))

/-- The moves of a CPM. -/
def EngOp.moves (o : EngOp) : List TileMove := o.arr.filterMap fun a => tileMoveOf a.word

/-- The number of units of each slice. -/
def EngOp.unitCounts (o : EngOp) : List Nat :=
  if o.kind == .cpm then o.moves.map TileMove.size else o.slices.map Slice.units

/-- Find a cell among slices: the slice and the unit in it. -/
def locate : List Nat → Nat → Option (Nat × Nat)
  | [], _ => none
  | c :: cs, n => if n < c then some (0, n) else (locate cs (n - c)).map fun e => (e.1 + 1, e.2)

/-- Units of data, and cells in all: data units, scale bytes, exception entries. -/
def EngOp.dataUnits (o : EngOp) : Nat := o.unitCounts.foldl (· + ·) 0
def EngOp.cells (o : EngOp) : Nat := o.dataUnits + o.scales.length

/-- Every unit has been moved and every exception listed. -/
def EngOp.landed (o : EngOp) : Bool := o.moved.length == o.cells && o.excs.isEmpty

/-- The destination size in bytes (R277, R283). -/
def EngOp.bytes (o : EngOp) : Nat :=
  if o.kind == .cpm then (o.moves.map TileMove.size).foldl (· + ·) 0 else (o.slices.map Slice.size).foldl (· + ·) 0

end Sys2Proof.Machine
end

