-- ==== Sys2Proof/Machine/Report.lean ====
section
/-!
DEFINITION. What the device reports: event records (R380), counters (R382), completion records and the status block (R369,
R372), and how a launch fails (R346) and a block is killed (R341).
-/
namespace Sys2Proof.Machine

/-- Read a run of at most 64 bytes at a VA of a partition, where it translates. -/
def State.readVa (s : State) (fe va len : Nat) : Option (List Byte) :=
  match lookup (s.tlb fe) (s.fe fe) .engRead va len with
  | .page p => some (s.readPage (s.fe fe) p len)
  | _ => none

/-- Write a run of at most 64 bytes at a VA of a partition, where it translates. -/
def State.writeVa (s : State) (fe va : Nat) (bs : List Byte) (w : Author) : Option State :=
  match lookup (s.tlb fe) (s.fe fe) .engWrite va bs.length with
  | .page p => some (s.writePage (s.fe fe) p bs w)
  | _ => none

/-- Count work of a partition (R382). -/
def State.count (s : State) (fe i n : Nat) : State :=
  s.modFe fe fun f => if f.counting then { f with counters := f.counters.set i (f.counters.get i + BitVec.ofNat 64 n) } else f

/-- Count the bytes that an access sends over links and fabric ports (R382, log 31). -/
def State.traffic (s : State) (fe : Nat) (p : Page) : State :=
  let s := s.count fe 8 (Config.linkBytes s.fresh p.pa)
  if p.attr == .hostwin then s.count fe 9 (Config.fabricBytes s.fresh p.pa) else s

/-- Count bytes that are read (5) or written (6) behind a page, where it is one of device memory (R382). -/
def State.countMem (s : State) (fe i n : Nat) (p : Page) : State := if p.attr == .hostwin then s else s.count fe i n

/-- Count the cycles of a cluster's cores since the last tick for its partition (R382 counter 0). -/
def State.countCycles (s : State) (cl : Nat) : State :=
  let c := s.clusters.getD cl {}
  let now := c.cycles s.ns
  let s := { s with clusters := s.clusters.mod cl fun c => { c with counted := now } }
  match s.fes.find? fun e => e.2.en && !e.2.swapped && e.2.cbase ≤ cl && cl ≤ e.2.clim with
  | some (fe, _) => s.count fe 0 (18 * (now - c.counted))
  | none => s

/-- Count the cycles of every cluster, so that each counts for the partition that owned it (R334). -/
def State.credit (s : State) : State := (s.clusters.map Prod.fst).foldl State.countCycles s

/-- Who writes an event record (R380). -/
inductive Src where
  | core | shuttle | array | sampler | dispatcher | frontEnd | management | baseDie
  deriving DecidableEq, Repr

def Src.code : Src → Nat
  | .core => 0 | .shuttle => 1 | .array => 2 | .sampler => 3 | .dispatcher => 4 | .frontEnd => 5 | .management => 6
  | .baseDie => 7

/-- A 32-byte event record (R380) from its second word and its payload. -/
def eventBytes (ns part lid sub : Nat) (code : Cause) (src : Src) (unit : Nat) (pay : List Byte) : List Byte :=
  bytesOf 8 ns ++ bytesOf 8 (unit % 1024 + src.code * 2 ^ 12 + code.toNat * 2 ^ 16 + sub % 256 * 2 ^ 24
    + lid % 2048 * 2 ^ 32 + part * 2 ^ 43) ++ (pay ++ List.replicate 16 0).take 16

/-- The author of an increment of WIDX at `va` (R380): a release at system scope after the record just written and those before it. -/
def State.publish (s : State) (fe va : Nat) : Author :=
  match lookup (s.tlb fe) (s.fe fe) .engRead va 8 with
  | .page p =>
    let (pl, a) := (s.fe fe).place p
    let before : View := ((s.readNewest pl a 8).from_.flatMap Past.heads).foldl (fun (v : View) h => v.join h.view) {}
    { heads := [⟨5, Party.frontEnd, before.wrote s⟩] }
  | _ => {}

/-- Append a record to a buffer of the partition (R380): `len` is 32 for events and 16 for samples. A full buffer counts the
drop. -/
def State.append (s : State) (fe base : Nat) (rec : List Byte) : State :=
  if base == 0 then s
  else match s.readVa fe base 32 with
    | none => s
    | some h =>
      let widx := numOf (h.take 8)
      let ridx := numOf ((h.drop 8).take 8)
      let ovf := numOf ((h.drop 16).take 8)
      let cap := numOf ((h.drop 24).take 8)
      if widx + 1 - ridx > cap then
        (((if rec.length = 32 then s.count fe 15 1 else s)).writeVa fe (base + 16) (bytesOf 8 (ovf + 1)) {}).getD s
      else
        match s.writeVa fe (base + 32 + rec.length * (widx % cap)) rec {} with
        | some s' => (s'.writeVa fe base (bytesOf 8 (widx + 1)) (s'.publish fe base)).getD s'
        | none => s

/-- Write one event record of a partition (R380). -/
def State.emit (s : State) (fe lid : Nat) (code : Cause) (src : Src) (unit : Nat) (pay : List Byte) (sub : Nat := 0) : State :=
  s.append fe (s.fe fe).eventBase (eventBytes s.ns fe lid sub code src unit pay)

/-- Write one event record to every enabled partition: a device-wide event. -/
def State.emitAll (s : State) (code : Cause) (src : Src) (unit : Nat) (pay : List Byte) : State :=
  (s.fes.map Prod.fst).foldl (fun s f => if (s.fe f).en then s.emit f 0 code src unit pay else s) s

/-- Write the status block (R372). DESIGN CHOICE (log 28): byte 1, to which R372 gives no content, is written 0 with STATE, and bytes 7 to
63 are not written. -/
def State.writeStatus (s : State) (fe : Nat) : State :=
  let f := s.fe fe
  let st := match f.st with | .idle => 0 | .running => 1 | .suspended => 2 | .stopped => 3
  if f.statusAddr == 0 then s
  else s.write .host f.statusAddr (bytesOf 2 st ++ bytesOf 2 f.seqStart ++ bytesOf 2 f.seqDone ++ bytesOf 1 f.lastCause.toNat) s.release

/-- Complete the command number `i` (R369, R372): the record at CADDR, the status block, the token. DESIGN CHOICE (log 28): where CADDR does not
translate the record is dropped, and nothing reports it. -/
def State.completeCmd (s : State) (fe i : Nat) (c : Cmd) (cause : Cause) : State :=
  let rec16 := bytesOf 2 c.seq ++ bytesOf 1 c.typ ++ [cause] ++ bytesOf 4 0 ++ bytesOf 8 s.ns
  let s := if c.caddr == 0 then s else (s.writeVa fe c.caddr rec16 s.release).getD s
  let s := s.modFe fe fun f =>
    let st := match f.st with
      | .running => if f.cmds.any (fun e => e.1 != i) then .running else .idle
      | st => st
    { f with
      st := st
      seqDone := c.seq
      lastCause := if cause == 0 then f.lastCause else cause
      tokens := if c.done == 0 then f.tokens else f.tokens.put c.done (some cause) }
  s.writeStatus fe

/-- Strands whose block is `b` leave the machine. -/
def State.dropStrands (s : State) (b : Nat) : State := { s with strands := s.strands.filter fun e => e.1.blk != b }

/-- Pending accesses of a killed block (R341): loads are dropped, and so is what its own core pad would receive; writes that
were issued are still performed. -/
def Access.survives (a : Access) (b : Nat) : Bool :=
  a.strand.blk != b || (a.space != .core && a.held != .held && match a.kind with | .load _ => false | _ => true)

/-- What a block that leaves a core gives back: its array (R164) and its records, whose generations rise (R268). -/
def Core.freeBlock (c : Core) (b : Nat) : Core :=
  { c with
    array := c.array.bind fun a => if a.owner == b then none else some a
    recs := c.recs.map fun e => if e.2.busy && e.2.blk == b then (e.1, { gen := e.2.gen + 1 }) else e }

/-- What a unit of a copy to device memory writes: the address, the bytes and the bits; none where it writes nothing there. -/
def State.unitOut (s : State) (o : EngOp) (cell : Nat) : Option (Nat × List Byte × List Byte) :=
  if o.kind != .cps && o.kind != .cpq then none
  else match locate o.unitCounts cell with
    | none => (o.scales[cell - o.dataUnits]?).map fun e => (e.1, [e.2], [0xFF])
    | some (i, u) => (o.slices[i]?).bind fun z =>
      let (x, b1, b2, b3) := z.place u
      let ix := z.index b1 b2 b3
      let inn := (List.range z.unit).map fun i => z.inMask (x + i) ix
      if inn.all (· == 0) then none
      else some (z.va x ix, if o.kind == .cpq then [o.staged.getD cell 0]
        else (s.padOf o.blk o.launch o.core z.lay.space).bytes (z.lay.at x b1 b2 b3) z.unit, inn)

/-- A unit of a copy lands as its block is killed. -/
def State.landUnit (s : State) (o : EngOp) (w : Nat × List Byte × List Byte) : State :=
  match lookup (s.tlb o.fe) (s.fe o.fe) .engWrite w.1 w.2.1.length with
  | .page p =>
    let old := s.readPage (s.fe o.fe) p w.2.1.length
    let new := (List.range w.2.1.length).map fun i => mergeByte (old.getD i 0) (w.2.1.getD i 0) (w.2.2.getD i 0)
    ((s.writePage (s.fe o.fe) p new { before := o.view } fun i => w.2.2.getD i 0 != 0).countMem o.fe 6 new.length p).traffic o.fe p
  | _ => s

/-- A copy that is killed stops at a 64-byte boundary of its destination (R341): each line of 64 bytes that it has begun is finished. -/
def State.endLines (s : State) (o : EngOp) : State :=
  if o.stage != .running || o.moved.isEmpty then s
  else
    let outs := (List.range o.cells).filterMap fun c => (s.unitOut o c).map fun w => (o.moved.contains c, w)
    let begun := (outs.filter Prod.fst).map fun e => e.2.1 / 64
    (outs.filter fun e => !e.1 && begun.contains (e.2.1 / 64)).foldl (fun s e => s.landUnit o e.2) s

/-- Kill a block (R341 step 2): its strands, pad, buffer, pending loads and engine operations are
gone; a CPR that has started completes. Each destination byte of a copy holds its old or its new value. -/
def State.killBlock (s : State) (b : Nat) : State :=
  let core := ((s.block? b).map Block.core).getD 0
  let s := (s.ops.filter fun e => e.2.blk == b).foldl (fun s e => s.endLines e.2) s
  let s := s.dropStrands b
  let s : State := { s with
    blocks := s.blocks.drop b
    accs := (s.accs.filter fun e => e.2.survives b).map fun e => if e.2.strand.blk == b then (e.1, { e.2 with orphan := true }) else e
    quorums := (s.quorums.filter fun e => e.2.strand.blk != b || (e.2.store.isSome && e.2.held != .held)).map fun e =>
      if e.2.strand.blk == b then (e.1, { e.2 with orphan := true }) else e
    ops := (s.ops.filter fun e => e.2.blk != b || (e.2.kind == .cpr && (e.2.stage == .running || e.2.stage == .queued))).map fun e =>
      if e.2.blk == b then (e.1, { e.2 with record := none }) else e
    samples := s.samples.filter fun e => e.2.strand.blk != b
    services := s.services.filter fun e => e.2.strand.blk != b
    cores := s.cores.map fun e => (e.1, e.2.freeBlock b)
    focus := s.focus.bind fun r => if r.blk == b then none else some r }
  s.noteStalls core

/-- A shadow is abandoned (R357): it is killed, and its primary runs on alone. -/
def State.abandonShadow (s : State) (blk : Nat) : State :=
  match s.block? blk with
  | none => s
  | some b =>
    let fe := ((s.launch? b.launch).map Launch.fe).getD 0
    let lid := ((s.launch? b.launch).map Launch.lid).getD 0
    let s := match b.partner with
      | some p => s.modBlock p fun x => { x with partner := none }
      | none => s
    (s.killBlock blk).emit fe lid Cause.screenAbandoned .core b.core []

/-- The blocks of a launch. -/
def State.blocksOf (s : State) (l : Nat) : List Nat := (s.blocks.filter fun e => e.2.launch == l).map Prod.fst

/-- A launch fails with a cause (R346): no further block is dispatched, every block is killed, one event is written. The
command completes when the writes that were issued have been performed (R370). -/
def State.failLaunch (s : State) (l : Nat) (c : Cause) (sub : Nat := 0) (pay : List Byte := []) : State :=
  match s.launch? l with
  | none => s
  | some la =>
    if la.failed.isSome then s
    else
      let s := s.setLaunch l { la with failed := some c, again := [] }
      let s := (s.blocksOf l).foldl State.killBlock s
      s.emit la.fe la.lid c .frontEnd la.fe pay sub

end Sys2Proof.Machine
end

