-- ==== Sys2Proof/Machine/Fetch.lean ====
section
/-!
DEFINITION. Fetching an instruction word (R57, R209, R219, R359, R383): alignment, translation, and the instruction cache.
-/
namespace Sys2Proof.Machine

/-- How a fetch ends. -/
inductive Fetched where
  | word (w : Dword)
  /-- the line is not in the instruction cache -/
  | miss
  | absent
  | fault (c : Cause)
  deriving DecidableEq, Repr

/-- The line of a PC: 128 bytes (R209). -/
def lineOf (pc : Nat) : Nat := pc / 128 * 128

/-- The word at a PC for a core of a partition. -/
def State.fetchAt (s : State) (fe core : Nat) (pc : Dword) : Fetched :=
  let a := pc.toNat
  if a % 8 != 0 then .fault Cause.misaligned
  else match lookup (s.tlb fe) (s.fe fe) .fetch a 8 with
    | .absent => .absent
    | .fault c => .fault c
    | .page _ =>
      match (s.core core).icache.get? (fe, lineOf a) with
      | some line => .word (BitVec.ofNat 64 (numOf ((line.drop (a % 128)).take 8)))
      | none => .miss

/-- The PC that a strand fetches from: its own, or with a CPL.fo at hand that of the word after it (R282). -/
def State.fetchPc (s : State) (fe core : Nat) (k : Strand) : Dword :=
  match s.fetchAt fe core k.pc with
  | .word w => match decode w with
    | .ok (.cplFo _) => k.pc + 8
    | _ => k.pc
  | _ => k.pc

end Sys2Proof.Machine
end

