-- ==== Sys2Proof/Machine/Registers.lean ====
section
/-!
DEFINITION. The registers of a strand (R32): reads and writes of V, S, M and H registers and of components; M0 is the current
group's mask (R24), and each mask write stores its parity.
-/
namespace Sys2Proof.Machine

/-- The cycle by which every fixed-latency result of a strand is written (R76). -/
def Strand.settled (k : Strand) : Nat := k.late.foldl (fun m l => max m l.ready) 0

/-- The cycle before which a strand starts no word (R28): its stall count, and after a block-ending word its results (R76). -/
def Strand.soonest (k : Strand) : Nat := if k.drain then max k.ready k.settled else k.ready

/-- The key of a word of a V register: component `k`, 0 for the value and c + 1 for component c. -/
def vKey (r t k : Nat) : Nat := (r * 32 + t) * 16 + k

def Strand.vGet (k : Strand) (r t : Nat) : Word := k.v.get (vKey r t 0)
def Strand.compGet (k : Strand) (r t c : Nat) : Word := k.v.get (vKey r t (c + 1))
def Strand.sGet (k : Strand) (r : Nat) : Word := k.s.get r
/-- The pair S[r:r+1], low word first (R53). -/
def Strand.sPair (k : Strand) (r : Nat) : Dword := k.sGet (r + 1) ++ k.sGet r
/-- The pair V[r:r+1] in a thread. -/
def Strand.vPair (k : Strand) (r t : Nat) : Dword := k.vGet (r + 1) t ++ k.vGet r t
/-- A mask; M0 is the current group's (R24). -/
def Strand.mGet (k : Strand) (r : Nat) : Word := if r = 0 then k.mask else k.m.get r
/-- A handle register: none is unused (R268). -/
def Strand.hGet (k : Strand) (r : Nat) : Option Word := (k.h.get? r).join

/-- The parity of a word. -/
def parity (w : Word) : Bool := (List.range 32).foldl (fun p i => p != w.getLsbD i) false

def Strand.setV (k : Strand) (r t : Nat) (w : Word) : Strand := { k with v := k.v.set (vKey r t 0) w }
def Strand.setComp (k : Strand) (r t c : Nat) (w : Word) : Strand := { k with v := k.v.set (vKey r t (c + 1)) w }
def Strand.setS (k : Strand) (r : Nat) (w : Word) : Strand := { k with s := k.s.set r w }
def Strand.setSPair (k : Strand) (r : Nat) (w : Dword) : Strand :=
  (k.setS r (w.extractLsb' 0 32)).setS (r + 1) (w.extractLsb' 32 32)
/-- Write a mask M1 to M7 with its parity. -/
def Strand.setM (k : Strand) (r : Nat) (w : Word) : Strand :=
  let b : BitVec 8 := 1#8 <<< r
  { k with m := k.m.set r w, mpar := if parity w then k.mpar ||| b else k.mpar &&& ~~~b }
def Strand.setH (k : Strand) (r : Nat) (t : Option Word) : Strand := { k with h := k.h.put r t }

/-- A mask register read with a parity error (R32, R354). -/
def Strand.badParity (k : Strand) (r : Nat) : Bool := if r = 0 then k.m0bad else parity (k.m.get r) != k.mpar.getLsbD r

/-- Replace the bits of `sel` in `old` by those of `new`. -/
def mergeMask (old new sel : Word) : Word := (old &&& ~~~sel) ||| (new &&& sel)

/-- The mask of one thread. -/
def bit (t : Nat) : Word := 1#32 <<< t

/-- The mask of the threads for which `p` holds. -/
def maskOf (p : Nat → Bool) : Word := (List.range 32).foldl (fun m t => if p t then m ||| bit t else m) 0

/-- Number of set bits. -/
def countOf (m : Word) : Nat := (threadsOf m).length

/-- Write a value and components 0 to `cs.length - 1` in one thread. -/
def Strand.setJet (k : Strand) (r t : Nat) (w : Word) (cs : List Word) : Strand :=
  (cs.zipIdx).foldl (fun k e => k.setComp r t e.2 e.1) (k.setV r t w)

/-- The words of a register with their keys, for one register of `d` components: what a late read may still see (R75). -/
def Strand.words (k : Strand) (d : Nat) : Loc → List (Nat × Word)
  | .v r => (List.range 32).flatMap fun t => (List.range (d + 1)).map fun c => (vKey r t c, k.v.get (vKey r t c))
  | .s r => [(r, k.s.get r)]
  | .m r => [(r, k.m.get r)]
  | .h _ => []

/-- Put words back. -/
def Strand.putWords (k : Strand) : Loc → List (Nat × Word) → Strand
  | .v _, ws => { k with v := k.v.setAll ws }
  | .s _, ws => { k with s := k.s.setAll ws }
  | .m _, ws => { k with m := k.m.setAll ws }
  | .h _, _ => k

end Sys2Proof.Machine
end

