-- ==== Sys2Proof/Machine/Lanes.lean ====
section
/-!
DEFINITION. The choice of a lane among its strands (R315 to R319): which strands are ready and eligible in a cycle, the keys that
order them, and the counts P and H.
-/
namespace Sys2Proof.Machine

/-- The lane of a strand, as a key. -/
def laneKey (b : Block) (k : Strand) : Nat := b.core * 16 + k.lane

/-- The U bit of a word: bit 51, or half 0's in a P word (R58, R68). -/
def uniformWord (w : Dword) : Bool := if w.getLsbD 63 then w.getLsbD 53 else w.getLsbD 51

/-- A block whose strands may start words: not halting, saved or being restored (R337, R340), its strands selectable (R308). -/
def State.runs (s : State) (b : Block) : Bool := (b.life == .running || b.life == .draining) && b.selectable ≤ s.ns

/-- The wait of a word is over, or there is none. -/
def Wait.over : Wait → Bool
  | .none | .released | .started _ => true
  | _ => false

/-- A strand that may go on with a word: it has a current group and is neither ended, stopped, asleep nor held at a fetch. -/
def Strand.able (k : Strand) : Bool := !k.ended && !k.stopped && k.mask != 0 && k.asleep == 0 && k.fetchHeld != .held

/-- A strand that waited for nothing but its lane and its fetch when its word was last tried. -/
def Strand.idle (k : Strand) : Bool := k.why == .issued || k.why == .laneBusy || k.why == .yielded || k.why == .fetch

/-- What a lane knows of one of its strands: the cycles from which its next word could start, apart from the lane's choice (R315): with the
lane's FMA slots as they are (eligible), and were they free (ready); none where something holds the word. -/
structure LaneStrand where
  r      : StrandRef
  p      : Nat
  h      : Nat
  prio   : Nat
  slot   : Nat
  weight : Nat
  start  : Option Nat
  ready  : Option Nat
  deriving DecidableEq, Repr

/-- The strand is ready, and eligible, in a cycle (R315). -/
def LaneStrand.readyAt (x : LaneStrand) (t : Nat) : Bool := x.ready.any (· ≤ t)
def LaneStrand.eligibleAt (x : LaneStrand) (t : Nat) : Bool := x.start.any (· ≤ t)

/-- The stage of a strand: the one whose range holds its sid (R319). -/
def Launch.stageOf (la : Launch) (sid : Nat) : Option Nat :=
  (List.range la.stages.length).find? fun i => match la.stages.getD i none with
    | some (a, b) => a ≤ sid && sid ≤ b
    | none => false

/-- A queue as it stood at the start of a cycle (R319). -/
def Queue.wasAt (q : Queue) (t : Nat) : QueueWas :=
  if q.changed == t then q.before else ⟨q.depth, q.pstg, q.cstg, q.stg, q.entries.length⟩

/-- Whether a stage yields in a cycle (R319). -/
def Block.yields (b : Block) (stage t : Nat) : Bool :=
  b.queues.any fun e =>
    let q := e.2.wasAt t
    q.stg && ((q.pstg == stage && q.depth ≤ q.held) || (q.cstg == stage && q.held == 0))

/-- R319: 0 for a strand of a yielding stage, else 1. -/
def weightOf (b : Block) (la : Launch) (sid t : Nat) : Nat :=
  match la.stageOf sid with | some i => if b.yields i t then 0 else 1 | none => 1

/-- A strand is due (R317 key 3). -/
def LaneStrand.due (x : LaneStrand) (others : List LaneStrand) : Bool :=
  2 ≤ x.p || (x.p == 1 && others.any fun y => y.r != x.r && y.prio == x.prio && 1 ≤ y.p)

/-- The keys of R317, the smaller first; the entry at place 3 is the weight. -/
def LaneStrand.keys (x : LaneStrand) (others : List LaneStrand) (last : Nat) : List Nat :=
  [if 256 ≤ x.h then 0 else 1, 7 - x.prio, if x.due others then 1000 - x.p else 1000, 1 - x.weight, (x.slot + 2 - last) % 3]

/-- The first place where two lists of keys differ. -/
def decidedAt : List Nat → List Nat → Nat
  | x :: xs, y :: ys => if x = y then 1 + decidedAt xs ys else 0
  | _, _ => 0

/-- The lexicographic order of keys. -/
def keysBefore : List Nat → List Nat → Bool
  | x :: xs, y :: ys => x < y || (x == y && keysBefore xs ys)
  | _, _ => false

/-- The strand of the lane that comes first among those that are eligible (R317). -/
def chosen (es : List LaneStrand) (last : Nat) : Option LaneStrand :=
  match es with
  | [] => none
  | x :: xs => some (xs.foldl (fun b y => if keysBefore (y.keys es last) (b.keys es last) then y else b) x)

/-- A strand of the lane after the start of another, `x`, in cycle `t` (R316, R318): passed over, ready and not eligible, or not ready.
`es` are the eligible strands. -/
def Strand.passed (k : Strand) (x y : LaneStrand) (es : List LaneStrand) (t last : Nat) : Strand :=
  if !(y.readyAt t) then { k with passP := 0, passH := 0 }
  else if !(y.eligibleAt t) then { k with why := .laneBusy }
  else
    let why := if decidedAt (x.keys es last) (y.keys es last) = 3 then Stall.yielded else .laneBusy
    if y.prio < x.prio then { k with passH := k.passH + 1, why := why }
    else if y.prio = x.prio || 256 ≤ x.h then { k with passP := k.passP + 1, why := why }
    else { k with why := why }

/-- The strands of a lane after the start of `x` in cycle `t`: `view` is the lane as it chose. -/
def State.passOver (s : State) (view : List LaneStrand) (x : StrandRef) (t last : Nat) : State :=
  let es := view.filter (·.eligibleAt t)
  match view.find? fun y => y.r == x with
  | none => s
  | some x => view.foldl (fun s y => if y.r == x.r then s else s.modStrand y.r fun k => k.passed x y es t last) s

end Sys2Proof.Machine
end

