-- ==== Sys2Proof/Machine/Recovery.lean ====
section
/-!
DEFINITION. Asynchronous faults (R353, R384): detecting and holding them; and the rollback and relaunch of a block
(R358).
-/
namespace Sys2Proof.Machine

/-- Insert in ascending order, once. -/
def insertNat (n : Nat) : List Nat → List Nat
  | [] => [n]
  | x :: xs => if n < x then n :: x :: xs else if n = x then x :: xs else x :: insertNat n xs

/-- Place a block again from its start (R314, R336, R358): it is killed, and its index waits before the undispatched ones. A store of it that has left
the core may still fault (R384). -/
def State.requeue (s : State) (blk : Nat) : State :=
  match s.block? blk with
  | none => s
  | some b => (s.killBlock blk).modLaunch b.launch fun l => { l with again := insertNat b.index l.again, gone := blk :: l.gone }

/-- A relaunched block's shadow is abandoned (R358). -/
def State.abandonPair (s : State) (blk : Nat) : State :=
  match (s.block? blk).bind Block.partner with
  | some p => s.abandonShadow p
  | none => s

/-- Relaunch a block (R358): at most twice, on another cluster than the one it ran on. -/
def State.relaunch (s : State) (blk : Nat) : State :=
  match s.block? blk with
  | none => s
  | some b =>
    match s.launch? b.launch with
    | none => s
    | some la =>
      let n := la.relaunched.getD b.index 0
      if n ≥ 2 then s.failLaunch b.launch Cause.relaunchLimit
      else
        let s := s.abandonPair blk
        let s := s.modLaunch b.launch fun l =>
          { l with relaunched := l.relaunched.put b.index (n + 1), avoid := l.avoid.put b.index b.core }
        (s.requeue blk).emit la.fe la.lid Cause.rollback .core b.core []

/-- Whether a block may be relaunched (R358): contained and not committed, or idempotent and fit for a flush (R335). -/
def Block.relaunchable (b : Block) (la : Launch) : Bool :=
  (la.contained && !b.committed) || (la.idem && !b.committed && !b.cprIssued && !b.cpxElsewhere)

/-- The causes whose consumption rolls a block back (R358). -/
def rollsBack (c : Cause) : Bool :=
  c == Cause.eccReg || c == Cause.eccPad || c == Cause.memPoison || c == Cause.eccStorebuf

/-- What R358 does with a consumed error of a block; none where the error is delivered instead. -/
def State.consume (s : State) (blk : Nat) (cause : Cause) : Option State :=
  match s.block? blk, s.launchOf blk with
  | some b, some la =>
    if !rollsBack cause then none
    else if b.shadow then some (s.abandonShadow blk)
    else if b.relaunchable la then some (s.relaunch blk)
    else if la.contained then some (s.failLaunch b.launch Cause.rollbackCommitted)
    else none
  | _, _ => none

/-- The lowest thread of a mask. -/
def firstThread (m : Word) : Nat := (threadsOf m).headD 32

/-- Hold a fault with those detected before it (R353): the threads of one word that meet one cause share a report. -/
def addFault (fs : List HeldFault) (f : HeldFault) : List HeldFault :=
  let same := fun (g : HeldFault) => g.cause == f.cause && g.pc == f.pc && g.region == f.region && g.eng == f.eng && g.orig == f.orig
  if fs.any same then
    fs.map fun g => if same g then
      { g with mask := g.mask ||| f.mask, va := if firstThread f.mask < firstThread g.mask then f.va else g.va } else g
  else fs ++ [f]

/-- A cause that no handler of a block receives: it fails the launch (R346), but only ends a shadow (R357). -/
def State.blockFails (s : State) (blk : Nat) (b : Block) (c : Cause) (sub : Nat := 0) : State :=
  if b.shadow then s.abandonShadow blk else s.failLaunch b.launch c sub

/-- A fault for which no strand of its block is left fails the launch (R384); COMMIT_FAULT names the cause that the store met. -/
def State.unheard (s : State) (blk : Nat) (b : Block) (f : HeldFault) : State :=
  s.blockFails blk b f.cause (sub := if f.cause == Cause.commitFault then f.orig.toNat else 0)

/-- An asynchronous fault is detected (R353, R358, R384). -/
def State.asyncFault (s : State) (r : StrandRef) (f : HeldFault) : State :=
  match s.consume r.blk f.cause with
  | some s' => s'
  | none =>
    match s.strand? r, s.block? r.blk with
    | some k, some b =>
      if k.ended then s.unheard r.blk b f
      else s.setStrand r { k with faults := addFault k.faults f }
    | none, some b => s.unheard r.blk b f
    | _, none =>
      match s.launches.find? fun e => e.2.gone.contains r.blk with
      | some (l, _) => s.failLaunch l f.cause
      | none => s

end Sys2Proof.Machine
end

