-- ==== Sys2Proof/Machine/Selvage.lean ====
section
/-!
DEFINITION. The signature register (R51, R52): the fold of a word, and what a block entry and a check do.
-/
namespace Sys2Proof.Machine

/-- One step of the reflected CRC-32C division. -/
def crcStep (x : Word) : Word := if x.getLsbD 0 then (x >>> 1) ^^^ 0x82F63B78 else x >>> 1

/-- Table entry T[i] of R51. -/
def crcTable (i : Word) : Word := crcStep (crcStep (crcStep (crcStep (crcStep (crcStep (crcStep (crcStep i)))))))

/-- Fold one byte. -/
def foldByte (s : Word) (x : Byte) : Word := (s >>> 8) ^^^ crcTable ((s ^^^ x.setWidth 32) &&& 0xFF)

/-- Fold a word, lowest byte first (R51). -/
def foldWord (s : Word) (w : Dword) : Word := (bytesOfWord w).foldl foldByte s

def sigReset : Word := 0xFFFFFFFF
def sigMarker : Dword := 0xA5A5A5A5A5A5A5A5

/-- The word that an instruction folds: CTL.SIGCHK folds with its constant field zero (R52, R63). -/
def foldOf : Instr → Dword
  | .ctlSigchk x => (encode (.ctlSigchk { x with d := 0, a := 0, b := 0, c := 0, mod := x.mod &&& 0xFF0 })).getD 0
  | i => (encode i).getD 0

/-- Fold an issued instruction into a strand's signature. -/
def Strand.fold (k : Strand) (i : Instr) : Strand := { k with sig := foldWord k.sig (foldOf i) }

/-- A pending check that fails (R52). -/
def Strand.sigBad (k : Strand) : Bool := match k.sigPend with | some c => c != k.sig | none => false

/-- Steps 2 and 3 of a block entry (R52), the pending check having been made. -/
def Strand.enterBlock (k : Strand) : Strand :=
  { k with sig := foldWord sigReset sigMarker, sigPend := none, entry := false }

/-- The pair of sig and the pending constant as a handler entry saves it (R348). -/
def Strand.sigSave (k : Strand) : Dword := (k.sigPend.getD 0) ++ k.sig

/-- Restore sig and the pending check from a saved pair (R52). -/
def Strand.sigRestore (k : Strand) (sv : Dword) (pv : Bool) : Strand :=
  { k with sig := sv.extractLsb' 0 32, sigPend := if pv then some (sv.extractLsb' 32 32) else none }

end Sys2Proof.Machine
end

