-- ==== Sys2Proof/Machine/Ops.lean ====
section
/-!
DEFINITION. The operations that every instruction word shares: the strand's frontier groups (R289 to R291), taking an exception
and entering a handler (R300, R346, R347), and `word`, which carries one word out: the checks in the order of R56, the
interlocks of R74 and R75, the effect, and what completing a word changes (R28, R52, R73).
-/
namespace Sys2Proof.Machine

/-! ## Frontier groups -/

/-- Threads that have not exited (R24). -/
def Strand.live (k : Strand) : Word := ~~~k.exited

/-- Add a group: groups of one PC are one group (R289), a held one staying held (R297). -/
def addGroup (gs : List Group) (g : Group) : List Group :=
  if gs.any (fun x => x.pc == g.pc) then
    gs.map fun x => if x.pc == g.pc then { x with mask := x.mask ||| g.mask, excl := x.excl || g.excl } else x
  else gs ++ [g]

/-- Release a held group: it waits at the next word as an ordinary group (R297). -/
def Strand.release (k : Strand) (ok : Group → Bool) : Strand :=
  let gone := fun (g : Group) => g.hold.isSome && ok g
  let freed := (k.groups.filter gone).map (fun g => Group.mk g.mask (g.pc + 8) none false)
  { k with groups := freed.foldl addGroup (k.groups.filter (fun g => !(gone g))) }

/-- Release the held group that now holds every thread that has not exited (R297). -/
def Strand.releaseFull (k : Strand) : Strand := k.release fun g => g.mask == k.live

/-- The bound of a held group has passed (R297): cycle s + n has ended. -/
def Group.expired (g : Group) (now : Nat) : Bool := match g.hold with | some t => t < now | none => false

/-- The groups at the current group's PC are one group with it (R289). DESIGN CHOICE (log 19): while a word of the current group is in progress
there (R321), a group that comes to its PC stays apart until the word has ended. -/
def Strand.absorb (k : Strand) : Strand :=
  let here := fun (g : Group) => g.pc == k.pc && g.hold.isNone
  if k.mask = 0 || k.wait != .none || !k.groups.any here then k
  else { k with
    mask := (k.groups.filter here).foldl (fun m g => m ||| g.mask) k.mask, m0bad := false
    groups := k.groups.filter (fun g => !(here g)), entry := true, drain := true }

/-- Form a waiting group of the threads `m` at `pc`, if there are any. -/
def Strand.form (k : Strand) (m : Word) (pc : Dword) (excl : Bool := false) : Strand :=
  if m = 0 then k
  else Strand.releaseFull { k with groups := addGroup k.groups (Group.mk m pc none excl) }

/-- The group of lowest PC among those that `ok` admits. -/
def lowest (ok : Group → Bool) : List Group → Option Group
  | [] => none
  | g :: gs =>
    match lowest ok gs with
    | none => if ok g then some g else none
    | some x => if ok g && g.pc < x.pc then some g else some x

/-- Select the current group among the waiting groups (R290): an excluded group only when no other can be selected (R298). -/
def Strand.pick (k : Strand) : Strand :=
  let free := fun (g : Group) => g.hold.isNone
  let g? := match lowest (fun g => free g && !g.excl) k.groups with | some g => some g | none => lowest free k.groups
  let k : Strand := { k with groups := k.groups.map fun g => { g with excl := false } }
  match g? with
  | none => { k with mask := 0, m0bad := false }
  | some g => { k with mask := g.mask, m0bad := false, pc := g.pc, groups := k.groups.filter fun x => x.pc != g.pc, drain := true }

/-- Put the current group back among the waiting ones, at its PC, and select (R290). -/
def Strand.reselect (k : Strand) : Strand :=
  let m := k.mask
  (Strand.form { k with mask := 0 } m k.pc).pick

/-- The merge of R289 and R291: the waiting groups at the current group's PC join it, and it joins a group that is held there (R297).
True when the groups changed. -/
def Strand.merge (k : Strand) : Strand × Bool :=
  match k.groups.find? fun g => g.pc == k.pc with
  | none => (k, false)
  | some g => if g.hold.isSome then (k.reselect, true) else (k.absorb, true)

/-! ## Exceptions -/

/-- What a handler is told (R347, R349). -/
structure Report where
  cause  : Cause
  mask   : Word
  resume : Dword
  fpc    : Dword
  va     : Dword := 0
  detail : Nat := 0
  orig   : Cause := 0
  region : Half
  async  : Bool := false
  eng    : Bool := false
  deriving DecidableEq, Repr

/-- The pcause word (R349). -/
def Report.pcause (p : Report) : Word :=
  BitVec.ofNat 32 (p.cause.toNat + p.detail % 256 * 2 ^ 8 + p.orig.toNat * 2 ^ 16 + (if p.async then 2 ^ 24 else 0)
    + (if p.eng then 2 ^ 25 else 0))

/-- The registers that entry to the privileged handler writes (R347), the group moving to pvec. `now` is the cycle. -/
def Strand.trapped (k : Strand) (now : Nat) (p : Report) : Strand :=
  { k with
    pcause := p.pcause, pmask := p.mask, pva := p.va, pfpc := p.fpc, pregion := p.region, pepc := p.resume
    psave := (List.range 8).foldl (fun c i => c.set i (k.sGet (56 + i))) k.psave
    psigsv := k.sigSave, psigpv := k.sigPend.isSome
    sig := sigReset, sigPend := none
    ph := true, trapAt := max now k.ready
    pc := k.pvec, entry := true, wait := .none, why := .issued, stepDue := none, passP := 0, passH := 0
    late := [], drain := false, ready := max (max now k.ready) k.settled + 12 }

/-- While stop-block mode is on, every other strand of a block with a strand in its privileged handler stops at its next boundary (R304,
R350). -/
def State.stopOthers (s : State) (r : StrandRef) (on : Bool) : State :=
  { s with strands := s.strands.map fun (e : StrandRef × Strand) =>
      if e.1.blk != r.blk || e.1 == r || e.2.stopped then e else (e.1, { e.2 with stopDue := on && !e.2.ended }) }

/-- Entry to the privileged handler (R347): a second trap fails the launch with DOUBLE_TRAP, and so does a cause without a
handler with the cause itself (R346). A trap abandons a shadow (R357). -/
def State.enterPriv (s : State) (r : StrandRef) (p : Report) : State :=
  match s.strand? r, s.block? r.blk with
  | some k, some b =>
    if b.shadow then s.abandonShadow r.blk
    else if k.ph then s.failLaunch b.launch Cause.doubleTrap
    else
      let fe := ((s.launch? b.launch).map Launch.fe).getD 0
      let s := s.count fe (if p.async then 14 else 13) 1
      let s := s.setStrand r (k.trapped (s.clock b.core) p)
      let s := if b.sb then s.stopOthers r true else s
      if k.pvec = 0 then s.failLaunch b.launch p.cause else s
  | _, _ => s

/-- Entry to the user handler by TIMER or TRAPU (R300), or to the privileged level as USER_NESTED (R345); in the privileged handler
it is a second trap (R350). `fpc` is the word that caused it. DESIGN CHOICE (log 19): where uvec is no multiple of 8, TIMER enters all the same, and the
fetch at uvec traps MISALIGNED with UH set; R57 speaks of instructions alone. -/
def State.enterUser (s : State) (r : StrandRef) (cause : Cause) (code : Nat) (resume fpc : Dword) : State :=
  match s.strand? r with
  | none => s
  | some k =>
    if ((s.block? r.blk).map Block.shadow).getD false then s.abandonShadow r.blk
    else if k.uvec = 0 || k.uh || k.ph then
      s.enterPriv r { cause := Cause.userNested, mask := k.mask, resume := resume, fpc := fpc, detail := code, orig := cause, region := k.region }
    else
      let s := s.count (((s.launchOf r.blk).map Launch.fe).getD 0) 13 1
      s.setStrand r { k with
        uepc := resume, ucause := BitVec.ofNat 32 (cause.toNat + code % 256 * 256)
        usigsv := k.sigSave, usigpv := k.sigPend.isSome
        sig := sigReset, sigPend := none, entry := true
        pc := k.uvec, uh := true, drain := true, wait := .none, why := .issued, passP := 0, passH := 0 }

/-! ## One word -/

/-- Threads of M0 that pass a header's guard (R25). -/
def Strand.active (k : Strand) (g : BitVec 3) (gn : Bool) : Word :=
  if g = 0 then k.mask else k.mask &&& (if gn then ~~~(k.mGet g.toNat) else k.mGet g.toNat)

/-- Threads active for a P half or for either of two (R72). -/
def Strand.activeFor (k : Strand) (halves : Option (BitVec 3 × BitVec 3)) (g : BitVec 3) (gn : Bool) : Word :=
  match halves with
  | some (a, b) => k.active a false ||| k.active b false
  | none => k.active g gn

/-- The situation in which a word starts. -/
structure Ctx where
  /-- the device, at the word's start -/
  s     : State
  r     : StrandRef
  /-- the strand as it is stored, and as this word reads it (R75); after a read that comes too early, as each thread reads it -/
  k     : Strand
  rd    : Strand
  rdT   : List Strand
  b     : Block
  la    : Launch
  /-- threads active for the word (R25) -/
  act   : Word
  /-- the cycle at which the word starts -/
  start : Nat
  deriving DecidableEq, Repr

/-- The number of tangents, the registers and the jets of the launch (R37). -/
def Ctx.d (c : Ctx) : Nat := c.la.d

/-- The context of the strand that has the focus. -/
def State.ctx? (s : State) : Option Ctx :=
  match s.focus with
  | none => none
  | some r =>
    match s.strand? r, s.block? r.blk with
    | some k, some b =>
      match s.launch? b.launch with
      | some la => some ⟨s, r, k, k, [], b, la, k.mask, 0⟩
      | none => none
    | _, _ => none

/-- The fixed latency of one of a word's results, and the threads that it writes. -/
structure OneLate where
  loc    : Loc
  mask   : Word
  cycles : Nat
  deriving DecidableEq, Repr

/-- What the wrapper must know of a word. -/
structure Spec where
  stall  : Nat := 0
  u      : Bool := false
  g      : BitVec 3 := 0
  gn     : Bool := false
  /-- causes by rank (R56): the first that applies is reported with every active thread -/
  checks : List (Bool × Cause) := []
  reads  : List Loc := []
  writes : List Loc := []
  /-- slots per thread (R27); none: the cycles of `stream` -/
  slots  : Option Nat := none
  stream : Nat := 1
  /-- fixed latency (R73); none: interlocked results -/
  lat    : Option Nat := none
  /-- waits for every fixed-latency result (R76) -/
  drain  : Bool := false
  /-- the effect moves the groups itself -/
  moves  : Bool := false
  /-- a block-ending word (R52) -/
  ends   : Bool := false
  /-- the effect folds the word itself, or its arrival did -/
  folded : Bool := false
  /-- least distance to the next word's start beside stream and STALL -/
  gap    : Nat := 0
  /-- a word that abandons a shadow (R357) -/
  noShadow : Bool := false
  /-- the guards of a P word's halves (R72): a thread active for either is active -/
  halves : Option (BitVec 3 × BitVec 3) := none
  /-- fixed latencies of single results (R73) -/
  lates  : List OneLate := []
  deriving DecidableEq, Repr

/-- The guard registers that a word reads. -/
def Spec.guards (sp : Spec) : List Loc :=
  let l := match sp.halves with | some (a, b) => [a, b] | none => [sp.g]
  (l.filter (· != 0)).map fun g => .m g.toNat

/-- A word's Spec with its guards among the reads. -/
def Spec.full (sp : Spec) : Spec := { sp with reads := sp.guards ++ sp.reads }

/-- A word's header in its Spec. -/
def Spec.ofHdr (h : Hdr) : Spec := { stall := h.stall.toNat, u := h.u, g := h.g, gn := h.gn }

/-- What follows a word that has completed: a trap that resumes at the next word (R352), or a user cause (R300). -/
inductive After where
  | trap (c : Cause) (mask : Word)
  | user (c : Cause) (code : Nat)
  deriving DecidableEq, Repr

/-- How a word's effect ends. -/
inductive Verdict where
  /-- a synchronous trap without effect (R352) -/
  | trap (c : Cause) (mask : Word) (va : Dword) (detail : Nat)
  /-- the word waits: nothing but what waiting records -/
  | wait (why : Stall) (s : State)
  /-- the effect, done -/
  | done (s : State)
  /-- the effect, done, and what follows it -/
  | doneThen (s : State) (a : After)
  /-- a synchronous trap at a state that the word has changed only in its signature or its arrival (R52) -/
  | trapIn (s : State) (c : Cause) (mask : Word) (va : Dword)
  /-- the word has ended its strand's or its block's course in `s` -/
  | over (s : State)
  deriving DecidableEq, Repr

/-- A cause that is per strand: every active thread (R56). -/
def Ctx.trapAll (c : Ctx) (cause : Cause) (va : Dword := 0) : Verdict := .trap cause c.act va 0

/-- An address that no control transfer may take (R57). -/
def crooked (pc : Dword) : Bool := pc.extractLsb' 0 3 != 0

/-- A transfer to an address that is no multiple of 8 (R57): pva holds the address (R349). -/
def Ctx.misaligned (c : Ctx) (tgt : Dword) : Verdict := .trap Cause.misaligned c.act tgt 0

/-- Whether a destination covers a register. -/
def Dst.covers (d : Dst) (words : Nat) : Loc → Bool
  | .v r => !d.uni && d.reg ≤ r && r < d.reg + words
  | .s r => d.uni && d.reg ≤ r && r < d.reg + words
  | _ => false

/-- Words that an access writes to registers. -/
def Access.words (a : Access) : Nat := match a.kind with | .fxrd _ => 1 | _ => ceilDiv a.size 4

/-- A sample whose result a register waits for (R74, R162). -/
def SampleOp.covers (o : SampleOp) (r : StrandRef) (l : Loc) : Bool :=
  o.strand == r && Dst.covers ⟨false, o.d, o.t, none⟩ 4 l

/-- A register with a pending variable-latency write (R74). -/
def State.pending (s : State) (r : StrandRef) (l : Loc) : Bool :=
  (s.accs.any fun e => e.2.strand == r && match e.2.dst with | some d => d.covers e.2.words l | none => false)
    || (s.quorums.any fun e => e.2.strand == r && match e.2.dst with | some d => d.covers 4 l | none => false)
    || s.samples.any fun e => e.2.covers r l

/-- Threads of a strand whose pending requests are held on a page that is not present (R219). -/
def State.heldThreads (s : State) (r : StrandRef) : Word :=
  (s.samples.filter fun e => e.2.strand == r && e.2.held == .held).foldl (fun m e => m ||| bit e.2.t)
    ((s.accs.filter fun e => e.2.strand == r && e.2.held == .held).foldl (fun m e => m ||| e.2.threads)
      ((s.quorums.filter fun e => e.2.strand == r && e.2.held == .held).foldl (fun m e => m ||| e.2.threads) 0))

/-- Whether one of the requests that a register waits for is held (R219). -/
def State.pendingHeld (s : State) (r : StrandRef) (l : Loc) : Bool :=
  (s.accs.any fun e => e.2.strand == r && e.2.held == .held && match e.2.dst with | some d => d.covers e.2.words l | none => false)
    || (s.quorums.any fun e => e.2.strand == r && e.2.held == .held && match e.2.dst with | some d => d.covers 4 l | none => false)
    || s.samples.any fun e => e.2.held == .held && e.2.covers r l

/-- The reason for which a strand waits for registers (R381): parked, the memory scoreboard, or another one. -/
def State.pendingWhy (s : State) (r : StrandRef) (ls : List Loc) : Stall :=
  if ls.any (s.pendingHeld r) then .parked
  else if ls.any fun l => s.samples.any fun e => e.2.covers r l then .other else .memory

/-- Set a strand's stall reason (R381). A strand that needs a held request has its threads with held requests parked (R219). -/
def State.stall (s : State) (r : StrandRef) (why : Stall) : State :=
  let p := if why == .parked then s.heldThreads r else 0
  s.modStrand r fun k => { k with why := why, parked := p }

/-- A fixed-latency result that a word starting at `start` reads too early (R75). DESIGN CHOICE (log 7): the test is of the register
alone, whichever threads the result was written in and whichever are active for the reader. -/
def Strand.lateFor (k : Strand) (start : Nat) (reads : List Loc) : List Late :=
  k.late.filter fun l => start < l.timely && reads.contains l.loc

/-- The words of one late register that thread `t` reads old (R75); `t` is 32 for a read of the strand as a whole. Each word is read by each
thread for itself. -/
def Late.oldWords (l : Late) (fresh t : Nat) : List (Nat × Word) :=
  (l.old.zipIdx).filterMap fun e => if Config.shortReadOld (fresh + 512 * t + e.2) then some e.1 else none

/-- A strand with words of a register as they were before a result: of a mask, the bits that the result wrote. -/
def Strand.revert (k : Strand) (l : Late) (ws : List (Nat × Word)) : Strand :=
  match l.loc with
  | .m _ => { k with m := ws.foldl (fun m e => m.set e.1 (mergeMask (m.get e.1) e.2 l.mask)) k.m }
  | loc => k.putWords loc ws

/-- Free values that one late register takes. -/
def lateDraws : Nat := 512 * 33

/-- The strand as thread `t` of an early reader sees it (R75): newest result first. -/
def Strand.early (k : Strand) (fresh t : Nat) (ls : List Late) : Strand :=
  (ls.zipIdx).foldr (fun l k => k.revert l.1 (l.1.oldWords (fresh + lateDraws * l.2) t)) k

/-- The strand as thread `t` reads it. -/
def Ctx.forThread (c : Ctx) (t : Nat) : Strand := (c.rdT[t]?).getD c.rd

/-- The context as thread `t` reads it. -/
def Ctx.at (c : Ctx) (t : Nat) : Ctx := { c with rd := c.forThread t }

/-- A mask of which each thread forms its own bit from what it reads. -/
def Ctx.maskBy (c : Ctx) (f : Strand → Word) : Word :=
  if c.rdT.isEmpty then f c.rd else maskOf fun t => (f (c.forThread t)).getLsbD t

/-- Stream time (R27) of `a` threads at `slots` each; uniform and unstreamed words take one cycle. -/
def streamOf (sp : Spec) (a : Nat) : Nat :=
  match sp.slots with | some n => if sp.u then 1 else max 1 (ceilDiv (a * n) 8) | none => if a = 0 then 1 else sp.stream

/-- The cycle at which a strand's word starts (R28, R315): not before its own time, the lane's next start and free slots, and the
results it must await. -/
def State.startOf (s : State) (b : Block) (k : Strand) (sp : Spec) : Nat :=
  let lane := s.lanes.getD (laneKey b k) {}
  let t := max (max (s.clock b.core) lane.next) k.soonest
  let t := if sp.u then t else max t lane.busy
  if sp.drain then max t k.settled else t

/-- The threads in which a result of a word decides its register: one word is written whole. -/
def OneLate.covers (n : OneLate) : Word := match n.loc with | .s _ => if n.mask = 0 then 0 else 0xFFFFFFFF | _ => n.mask

/-- The words that a register held before a result, in the threads of a mask. -/
def oldIn (mask : Word) (l : Loc) (ws : List (Nat × Word)) : List (Nat × Word) :=
  ws.filter fun e => match l with | .v _ => mask.getLsbD (e.1 / 16 % 32) | _ => mask != 0

/-- A result that is written by the cycle `ready`: what an early reader may still see. -/
def OneLate.late (n : OneLate) (old : Strand) (d ready : Nat) : List Late :=
  let ws := oldIn n.covers n.loc (old.words d n.loc)
  if ws.isEmpty then [] else [⟨n.loc, ready, ready, n.covers, ws⟩]

/-- A result behind a later one of the same register (R74), which is due by the cycle `due`: from then on the later one decides in the threads
it covers. -/
def Late.behind (e : Late) (n : OneLate) (due : Nat) : List Late :=
  let both := e.mask &&& n.covers
  if e.loc != n.loc || both = 0 then [e]
  else
    let rest := e.mask &&& ~~~n.covers
    { e with timely := min e.timely due, mask := both, old := oldIn both e.loc e.old }
      :: if rest = 0 then [] else [{ e with mask := rest, old := oldIn rest e.loc e.old }]

/-- The results of a word with the cycles until each is due (R73, R74): none for an interlocked one, which no reader meets before it is there. A
mask result under U = 1 goes to the threads of M0 (R130). -/
def Spec.results (sp : Spec) (act m0 : Word) : List OneLate :=
  let due := fun n => if sp.u then 2 else n
  let one := fun n (l : Loc) => (⟨l, match l with | .m _ => if sp.u then m0 else act | _ => act, n⟩ : OneLate)
  match sp.lat with
  | some n => sp.writes.map (one (due n))
  | none =>
    sp.lates.map (fun e => { e with cycles := if e.cycles = 0 then 0 else due e.cycles })
      ++ (sp.writes.filter fun l => !sp.lates.any (·.loc == l)).map (one 0)

/-- The current group where its word has left it: it is one with the group that waits or is held there (R289, R291). -/
def Strand.regroup (k : Strand) : Strand := if k.mask = 0 then k else k.merge.1

/-- A strand after its word has completed (R28, R52, R73): `old` is the strand before the word. DESIGN CHOICE (log 20): SKN.SYNC, whose place of folding
R52 leaves open, is folded here, when its wait is over. -/
def Strand.complete (k old : Strand) (i : Instr) (sp : Spec) (act : Word) (start st d : Nat) : Strand :=
  let k := if sp.folded then k else k.fold i
  let rs := sp.results act old.mask
  { k with
    pc := if sp.moves then k.pc else k.pc + 8
    entry := sp.ends || (sp.moves && k.entry)
    drain := sp.moves && k.drain
    late := (old.late.filter fun l => start < l.ready).flatMap
        (fun (e : Late) => rs.foldl (fun es n => es.flatMap fun x => x.behind n (start + n.cycles)) [e])
      ++ (rs.filter (·.cycles != 0)).flatMap fun n => n.late old d (start + n.cycles)
    ready := start + max (max st sp.stall) sp.gap
    why := if k.asleep = 0 then .issued else .asleep, passP := 0, passH := 0, wait := .none, parked := 0
    -- a word that is written holds no error
    bad := k.bad.filter fun e => !(sp.writes.contains e.1 && match e.1 with | .v _ => act.getLsbD e.2 | _ => true)
    -- in the privileged handler a STEP that is held stays held (R350, R351)
    stepDue := if old.ph then old.stepDue else if old.ss then some old.pc else none }

/-- Complete a word (R28): the strand, the lane, device time and the partition's counters. `s` holds the effect. -/
def Ctx.finish (c : Ctx) (i : Instr) (sp : Spec) (s : State) : State :=
  let st := streamOf sp (countOf c.act)
  let key := laneKey c.b c.k
  let lane := c.s.lanes.getD key {}
  let s := s.modStrand c.r fun k => k.complete c.k i sp c.act c.start st c.d
  let s := { s with
    lanes := s.lanes.put key { busy := if sp.u then lane.busy else c.start + st, next := c.start + 1, last := c.k.slot } }
  let s := s.reachCycle c.b.core c.start
  let s := s.count c.la.fe 1 1
  if sp.u then s.count c.la.fe 3 1
  else match sp.slots with | some n => s.count c.la.fe 2 (countOf c.act * n) | none => s

/-- A synchronous trap of the word (R352): it resumes at the same word, and the word is not folded (R52). -/
def Ctx.trap (c : Ctx) (cause : Cause) (mask : Word) (va : Dword) (detail : Nat) : State :=
  c.s.enterPriv c.r { cause := cause, mask := mask, resume := c.k.pc, fpc := c.k.pc, va := va, detail := detail, region := c.k.region }

/-- The context of a word that starts at `start`: reads that come too early see the old or the new words (R75). -/
def Ctx.begin (c : Ctx) (sp : Spec) (start : Nat) : Ctx :=
  let ls := c.k.lateFor start sp.reads
  let c : Ctx :=
    if ls.isEmpty then { c with start := start }
    else { c with
      s := { c.s with fresh := c.s.fresh + lateDraws * ls.length }
      rd := c.k.early c.s.fresh 32 ls, rdT := (List.range 32).map fun t => c.k.early c.s.fresh t ls, start := start }
  { c with act := c.maskBy fun k => k.activeFor sp.halves sp.g sp.gn }

/-- The register words with an uncorrectable error that a word reads in the threads that are active for it (R355 ECC_REG); a word that waits has
read its registers. In the privileged handler the fault is held, or the block rolls back, all the same (R350, R358). -/
def Ctx.badReads (c : Ctx) (reads : List Loc) : List (Loc × Nat) :=
  if c.k.wait != .none then []
  else c.k.bad.filter fun e => reads.contains e.1 && match e.1 with | .v _ => c.act.getLsbD e.2 | _ => true

/-- An error is consumed (R353, R355, R358): the fault is held, or the block is placed again; the word itself waits for its delivery. -/
def Ctx.eccReg (c : Ctx) (es : List (Loc × Nat)) : State :=
  let mask := es.foldl (fun m e => match e.1 with | .v _ => m ||| bit e.2 | _ => c.act) 0
  (c.s.setStrand c.r { c.k with bad := c.k.bad.filter fun e => !es.contains e }).asyncFault c.r
    ⟨Cause.eccReg, mask, 0, c.k.pc, c.k.region, false, 0⟩

/-- Guard and mask registers among the reads of a word whose stored parity is wrong (R354). -/
def Strand.badMask (k : Strand) (reads : List Loc) : Option Nat :=
  (reads.filterMap fun l => match l with | .m r => some r | _ => none).find? k.badParity

/-- What follows a completed word, at the PC where its group now stands (R300, R352). -/
def Ctx.follow (c : Ctx) (s : State) (a : After) : State :=
  let resume := ((s.strand? c.r).map Strand.pc).getD 0
  match a with
  | .trap cause mask =>
    s.enterPriv c.r { cause := cause, mask := mask, resume := resume, fpc := c.k.pc, region := c.k.region }
  | .user cause code => s.enterUser c.r cause code resume c.k.pc

/-- The threads of an untimely read that traps (R75): a guard that is itself read too early leaves the whole group active. -/
def Ctx.shortMask (c : Ctx) (sp : Spec) (start : Nat) : Word :=
  if (c.k.lateFor start sp.guards).isEmpty then c.act else c.k.mask

/-- A word reads a fixed-latency result too early under chk = 1 (R75). -/
def Ctx.short (c : Ctx) (sp : Spec) (start : Nat) : Bool := c.k.chk && !(c.k.lateFor start sp.reads).isEmpty && c.shortMask sp start != 0

/-- The first cause of a word's own fields that applies (R56); none for a word for which no thread is active, which has no effect (R25). -/
def Ctx.cause? (c : Ctx) (sp : Spec) : Option Cause := if c.act = 0 then none else (sp.checks.find? Prod.fst).map Prod.snd

/-- Carry one word out for the strand that has the focus. -/
def word (i : Instr) (s : State) (spec : Ctx → Spec) (eff : Ctx → Verdict) : Outcome :=
  match s.ctx? with
  | none => .fault .noStrand
  | some c0 =>
    let sp := (spec c0).full
    let c0 := { c0 with act := c0.k.activeFor sp.halves sp.g sp.gn }
    let start := s.startOf c0.b c0.k sp
    let c := if c0.short sp start then c0 else c0.begin sp start
    match c.cause? sp with
    | some cause => .next (c.trap cause c.act 0 0)
    | none =>
      if sp.noShadow && c.b.shadow && (c.act != 0#32) then .next (s.abandonShadow c.r.blk)
      else if (sp.reads ++ sp.writes).any (s.pending c.r) then
        .next (s.stall c.r (s.pendingWhy c.r (sp.reads ++ sp.writes)))
      else if !(c.badReads sp.reads).isEmpty then .next (c.eccReg (c.badReads sp.reads))
      else
        match c.k.badMask sp.reads with
        | some m =>
          .next ((c.trap Cause.sigMismatch c.act (c.k.sig ++ c.k.sigPend.getD 0) (0x80 + m)).emit c.la.fe c.la.lid Cause.maskParity .core c.b.core [])
        | none =>
          if c0.short sp start then .next (c0.trap Cause.stallShort (c0.shortMask sp start) 0 0)
          else
            match eff c with
            | .trap cause mask va detail => .next (c.trap cause mask va detail)
            | .wait why s' => .next (s'.stall c.r why)
            | .done s' => .next (c.finish i sp s')
            | .doneThen s' a => .next (c.follow (c.finish i sp s') a)
            | .over s' => .next s'
            | .trapIn s' cause mask va => .next (({ c with s := s' } : Ctx).trap cause mask va 0)

end Sys2Proof.Machine
end

