-- ==== Sys2Proof/Machine/Flags.lean ====
section
/-!
DEFINITION. The sticky flags of a strand (R85 to R88): raising them and the FP_INVALID trap of R87.
-/
namespace Sys2Proof.Machine
open Sys2Proof.Fp (Flags)

/-- Raise flags in fpflags (R85): a set flag stays set. -/
def Strand.raise (k : Strand) (f : Flags) : Strand := { k with fpflags := k.fpflags ||| f }

/-- Whether flags hold IV. -/
def hasIV (f : Flags) : Bool := f.getLsbD 4

end Sys2Proof.Machine
end

