-- ==== Sys2Proof/Machine/Operands.lean ====
section
/-!
DEFINITION. The operand forms (R60 to R67, R120): what a register field names under U = 0 and U = 1, immediates, modifiers, jets;
the range checks of each; and `alu`, the shape of every instruction that computes thread by thread from registers to
registers.
-/
namespace Sys2Proof
open Sys2Proof.Fp

/-- The rounding mode of MOD bits 1 to 0 (R62), and of bits 5 to 4 (R142 to R144). -/
def F.rm (x : F) : Rm := .ofNat2 (x.modN 1 0)
def F.rmHi (x : F) : Rm := .ofNat2 (x.modN 5 4)

/-- The B source of a word: none when it is an immediate. -/
def F.srcB (x : F) : List (BitVec 7) := if x.bi then [] else [x.b]

end Sys2Proof

namespace Sys2Proof.Machine
open Sys2Proof.Fp

/-- A vector operand's register: V, or S under U = 1 (R60). -/
def locOf (u : Bool) (r : Nat) : Loc := if u then .s r else .v r

/-- The value of a vector operand in thread `t` (R120). -/
def Ctx.val (c : Ctx) (u : Bool) (r : BitVec 7) (t : Nat) : Word := if u then c.rd.sGet r.toNat else c.rd.vGet r.toNat t

/-- A pair operand, low word first (R53). -/
def Ctx.pair (c : Ctx) (u : Bool) (r : Nat) (t : Nat) : Dword := if u then c.rd.sPair r else c.rd.vPair r t

/-- A floating-point operand with its components: +0 from anything but a jet register (R103). -/
def Ctx.jet (c : Ctx) (u : Bool) (r : BitVec 7) (t : Nat) : Jet :=
  if u then .plain c.d (c.rd.sGet r.toNat)
  else ⟨c.rd.vGet r.toNat t, (List.range c.d).map fun i => if r.toNat < c.la.jregs then c.rd.compGet r.toNat t i else 0⟩

/-- The second operand of an integer F word: the B immediate or the register (R120). -/
def Ctx.opB (c : Ctx) (x : F) (t : Nat) : Word := if x.bi then x.b.setWidth 32 else c.val x.h.u x.b t

/-- The exact FP32 value of a BI immediate (R62). -/
def immFp (b : BitVec 7) : Word := toWord (rne32 (.ofInt b.toNat))

/-- Floating-point operands after their modifiers (R62). -/
def Ctx.fpA (c : Ctx) (x : F) (t : Nat) : Jet := (c.jet x.h.u x.a t).modify x.aa x.na
def Ctx.fpB (c : Ctx) (x : F) (t : Nat) : Jet :=
  (if x.bi then Jet.plain c.d (immFp x.b) else c.jet x.h.u x.b t).modify x.ab x.nb
def Ctx.fpC (c : Ctx) (x : F) (t : Nat) : Jet := (c.jet x.h.u x.c t).modify x.ac x.nc

/-- Whether the destination of a floating-point instruction is a jet register (R104). -/
def Ctx.isJet (c : Ctx) (x : F) : Bool := !x.h.u && x.d.toNat < c.la.jregs && c.d != 0

/-- The registers that a word names, by the checks they need (R60, R65, R101). -/
structure Regs where
  /-- vector operand fields -/
  vec  : List (BitVec 7) := []
  /-- the registers beyond a field's own that the word uses: the tops of pairs and groups -/
  span : List Nat := []
  /-- fields that must be even -/
  even : List (BitVec 7) := []
  /-- fields that always name S registers -/
  sreg : List (BitVec 7) := []
  /-- fields that must name a jet register -/
  jets : List (BitVec 7) := []
  /-- a group of registers that runs past its end, or another range failure -/
  range : Bool := false
  /-- a component index out of range -/
  noComp : Bool := false
  /-- U = 1 is not allowed -/
  noU  : Bool := false
  /-- the word writes the mask M0 -/
  m0   : Bool := false
  deriving DecidableEq, Repr

/-- The checks of R56, ranks 5 to 8. -/
def Regs.checks (g : Regs) (c : Ctx) (u : Bool) : List (Bool × Cause) :=
  [(u && (g.noU || g.vec.any fun r => 64 ≤ r.toNat), Cause.uniformOperand),
   ((!u && (g.vec.any (fun r => c.la.nregs ≤ r.toNat) || g.span.any (c.la.nregs ≤ ·)))
      || (u && g.span.any (64 ≤ ·)) || g.even.any (fun r => r.getLsbD 0) || g.sreg.any (fun r => 64 ≤ r.toNat)
      || g.range,
    Cause.regRange),
   (g.noComp || g.jets.any (fun r => c.la.jregs ≤ r.toNat), Cause.jetRange),
   (g.m0, Cause.maskWriteM0)]

/-- What one thread of a word delivers, or the strand under U = 1. -/
structure Out where
  /-- register writes with their components; missing components are +0 (R103) -/
  regs : List (Nat × Jet) := []
  /-- the mask bit, for a word that writes a mask -/
  bit  : Option (Nat × Bool) := none
  fl   : Flags := 0
  deriving DecidableEq, Repr

/-- One value into one register, components +0. -/
def Out.word (d : BitVec 7) (w : Word) : Out := { regs := [(d.toNat, .flat w)] }
/-- A pair into d and d + 1. -/
def Out.pair (d : BitVec 7) (w : Dword) : Out :=
  { regs := [(d.toNat, .flat (w.extractLsb' 0 32)), (d.toNat + 1, .flat (w.extractLsb' 32 32))] }
/-- A jet result with its flags. -/
def Out.jet (d : BitVec 7) (j : JOut) : Out := { regs := [(d.toNat, ⟨j.v, j.k⟩)], fl := j.fl }
/-- A flat result with its flags. -/
def Out.res (d : BitVec 7) (r : Res) : Out := { regs := [(d.toNat, .flat (toWord r))], fl := r.fl }

/-- Write a register in thread `t` (R103, R104): a jet register receives all its components. -/
def Strand.put (k : Strand) (la : Launch) (u : Bool) (t : Nat) (e : Nat × Jet) : Strand :=
  if u then k.setS e.1 e.2.v
  else if e.1 < la.jregs then k.setJet e.1 t e.2.v ((List.range la.d).map e.2.comp)
  else k.setV e.1 t e.2.v

/-- Write what thread `t` delivers. A mask result under U = 1 goes to every thread of M0 (R130). -/
def Strand.deliver (k : Strand) (la : Launch) (u : Bool) (act : Word) (e : Nat × Out) : Strand :=
  let k := e.2.regs.foldl (fun k w => k.put la u e.1 w) k
  let k := match e.2.bit with
    | some (m, b) => k.setM m (mergeMask (k.mGet m) (if b then 0xFFFFFFFF else 0) (if u then act else bit e.1))
    | none => k
  k.raise e.2.fl

/-- The threads that compute: each active thread, or once under U = 1 (R25, R26). -/
def Ctx.lanes (c : Ctx) (u : Bool) : List Nat := if u then (if c.act = 0 then [] else [0]) else threadsOf c.act

/-- What every computing thread delivers. -/
def Ctx.outs (c : Ctx) (u : Bool) (f : Nat → Out) : List (Nat × Out) := (c.lanes u).map fun t => (t, f t)

/-- The threads that raise IV (R87). -/
def ivMask (u : Bool) (act : Word) (os : List (Nat × Out)) : Word :=
  if u then (if os.any fun e => hasIV e.2.fl then act else 0)
  else os.foldl (fun m e => if hasIV e.2.fl then m ||| bit e.1 else m) 0

/-- Deliver the results of all threads, or trap FP_INVALID with no effect (R87). -/
def Ctx.deliver (c : Ctx) (u : Bool) (os : List (Nat × Out)) : Verdict :=
  let iv := ivMask u c.act os
  if c.k.ivt && iv != 0 then .trap Cause.fpInvalid iv 0 0
  else .done (c.s.setStrand c.r (os.foldl (fun k e => k.deliver c.la u (if u then c.k.mask else c.act) e) c.k))

/-- The shape of a computing word: its registers, latency class (R73), slots per thread (R27), its reads and writes beside
the vector fields, and its own causes. -/
structure Shape where
  regs  : Regs := {}
  src   : List (BitVec 7) := []
  dst   : List Nat := []
  reads : List Loc := []
  writes : List Loc := []
  lat   : Option Nat := some 4
  slots : Nat := 1
  own   : List (Bool × Cause) := []
  deriving DecidableEq, Repr

/-- The Spec of a computing word. -/
def Shape.spec (g : Shape) (h : Hdr) (c : Ctx) : Spec :=
  { Spec.ofHdr h with
    checks := g.regs.checks c h.u ++ g.own
    reads := g.src.map (fun r => locOf h.u r.toNat) ++ g.reads
    writes := g.dst.map (locOf h.u) ++ g.writes
    slots := some g.slots, lat := g.lat }

/-- A word that computes thread by thread (R53, R104). -/
def alu (i : Instr) (s : State) (h : Hdr) (g : Ctx → Shape) (f : Ctx → Nat → Out) : Outcome :=
  word i s (fun c => (g c).spec h c) fun c => c.deliver h.u (c.outs h.u (f c))

/-- A word that acts once for the strand when a thread is active for it (R123): `f` changes the strand. -/
def perStrand (i : Instr) (s : State) (h : Hdr) (g : Ctx → Shape) (f : Ctx → Strand → Strand) : Outcome :=
  word i s (fun c => { (g c).spec h c with slots := none }) fun c =>
    .done (if c.act = 0 then c.s else c.s.setStrand c.r (f c c.k))

/-- The shape of one destination `d` and the given vector sources. -/
def shapeOf (d : BitVec 7) (src : List (BitVec 7)) (lat : Option Nat) (slots : Nat) : Shape :=
  { regs := { vec := d :: src }, src := src, dst := [d.toNat], lat := lat, slots := slots }

end Sys2Proof.Machine
end

