-- ==== Sys2Proof/Machine/Access.lean ====
section
/-!
DEFINITION. Storage accesses once they are issued: what each kind does to its unit (R221, R248, R256 to R258), when it may be
performed (R246, R255, R339), translation with held requests (R216, R219, R220), the store buffer of a contained block
and its commits (R230 to R234).
-/
namespace Sys2Proof.Machine
open Sys2Proof.Fp

/-! ## What an access does -/

/-- The words of a run of bytes, lowest first. -/
def wordsOf (bs : List Byte) : List Word :=
  (List.range (ceilDiv bs.length 4)).map fun i => BitVec.ofNat 32 (numOf ((bs.drop (4 * i)).take 4))

/-- ATOM's function on a unit of `w` bits (R257). -/
def atomFn (fn w old b : Nat) : Nat :=
  let o := sext w old
  let x := sext w b
  match fn with
  | 0 => (old + b) % 2 ^ w
  | 1 => if x < o then b else old
  | 2 => if o < x then b else old
  | 3 => min old b
  | 4 => max old b
  | 5 => old &&& b
  | 6 => old ||| b
  | 7 => old ^^^ b
  | _ => b

/-- An FXADD addend's value (R258). -/
def addend (fmt : Nat) (x : Word) : Fv :=
  match fmt with
  | 0 => v32 x
  | 1 => Fp.decode fp16 (x.toNat % 65536)
  | _ => Fp.decode bf16 (x.toNat % 65536)

/-- What an access makes of its unit: new bytes where it writes, the words of its result, flags. -/
structure Deed where
  write : Option (List Byte) := none
  res   : List Word := []
  fl    : Flags := 0
  deriving DecidableEq, Repr

/-- The deed of an access on the unit's old bytes. -/
def AccKind.deed (k : AccKind) (old : List Byte) : Deed :=
  let n := old.length
  let v := numOf old
  match k with
  | .load sx => { res := if sx && n < 4 then [BitVec.ofInt 32 (sext (8 * n) v)] else wordsOf old }
  | .store d => { write := some d }
  | .atom fn b => { write := some (bytesOf n (atomFn fn (8 * n) v b)), res := wordsOf old }
  | .cas c x => { write := if v == c then some (bytesOf n x) else none, res := wordsOf old }
  | .fxadd fmt x => { write := some (bytesOf 16 (fxAdd (BitVec.ofNat 128 v) (addend fmt x)).toNat) }
  | .fxrd clr =>
    let r := fxRead (BitVec.ofNat 128 v)
    { write := if clr then some (List.replicate 16 0) else none, res := [toWord r], fl := r.fl }

/-- The kind of an access for R214. -/
def AccKind.reach (k : AccKind) (size : Nat) : Reach :=
  match k with
  | .load _ => .ld
  | .store _ => if size == 16 then .stQuad else .st
  | .atom _ _ | .cas _ _ => .atom
  | .fxadd _ _ => .fxadd
  | .fxrd clr => if clr then .fxclr else .fxrd

/-- Whether an access reads its unit. -/
def AccKind.reads : AccKind → Bool
  | .store _ => false
  | _ => true

/-- A read-only access (R238). -/
def AccKind.isLoad : AccKind → Bool
  | .load _ | .fxrd false => true
  | _ => false

/-- The kind byte of a not-present report (R355): load, store, RMW. -/
def AccKind.reportKind : AccKind → Nat
  | .load _ => 0
  | .store _ => 1
  | _ => 2

/-- Write the words of a result (R112, R255). -/
def Strand.writeDst (k : Strand) (la : Launch) (d : Dst) (ws : List Word) : Strand :=
  match d.part with
  | some p => { k with v := k.v.set (vKey d.reg d.t p) (ws.headD 0) }
  | none => (ws.zipIdx).foldl (fun k e => k.put la d.uni d.t (d.reg + e.2, Jet.flat e.1)) k

/-- Write a result into the strand that asked for it, if it is still there. -/
def State.writeResult (s : State) (r : StrandRef) (d : Option Dst) (ws : List Word) (fl : Flags) : State :=
  match d, s.launchOf r.blk with
  | some d, some la => s.modStrand r fun k => (k.writeDst la d ws).raise fl
  | _, _ => s

/-! ## Requests held on absent pages -/

/-- Whether a core holds a request of a partition in a 64 KiB range (R220): of a strand, a sampler or table service, an engine, a fetch or a commit. -/
def State.holdsRange (s : State) (fe core range : Nat) : Bool :=
  let here := fun (a : Nat) => a / 65536 = range
  (s.accs.any fun e => e.2.fe == fe && e.2.core == core && e.2.held == .held && here e.2.addr)
    || (s.quorums.any fun e => e.2.fe == fe && e.2.core == core && e.2.held == .held && here e.2.va)
    || (s.samples.any fun e => e.2.fe == fe && e.2.core == core && e.2.held == .held && here e.2.heldVa)
    || (s.services.any fun e => e.2.fe == fe && e.2.core == core && e.2.held == .held && here e.2.heldVa)
    || (s.ops.any fun e => e.2.fe == fe && e.2.core == core && e.2.held == .held && here e.2.heldVa)
    || s.blocks.any fun e => e.2.core == core && e.2.life != .saved && ((s.launch? e.2.launch).map Launch.fe) == some fe &&
      ((e.2.committing.any fun c => c.left.any fun x => match x with | .store va _ => here va | .add va _ _ => here va)
        || (s.strandsOf e.1).any fun k => (k.2.fetchHeld == .held && here k.2.pc.toNat)
          || k.2.sleepers.any fun z => z.2.waita.any fun w => w.held == .held && here w.addr)

/-- Report a range that is not present to the host, with a doorbell (R220, R380), once for a core while it holds a request on it. -/
def State.reportAbsent (s : State) (fe lid core va kind sid : Nat) : State :=
  let range := va / 65536
  if (s.core core).reported.contains (fe, range) && s.holdsRange fe core range then s
  else
    let s := s.setCore core { s.core core with reported := (fe, range) :: (s.core core).reported.filter (· != (fe, range)) }
    ((s.count fe 12 1).emit fe lid Cause.xlateNotPresent .core core
      (bytesOf 8 (range * 65536) ++ [Cause.notPresentKind kind] ++ bytesOf 1 sid)).modFe fe fun f => { f with doorbells := f.doorbells + 1 }

/-- The launch id of a launch, 0 for none. -/
def State.lidOf (s : State) (l : Nat) : Nat := ((s.launch? l).map Launch.lid).getD 0

/-- A request meets an absent page: it is reported, and once more where it was held before (R220). -/
def State.refault (s : State) (h : Hold) (fe launch core va kind sid : Nat) : State :=
  let s := s.reportAbsent fe (s.lidOf launch) core va kind sid
  if h == .replay then s.emit fe (s.lidOf launch) Cause.replayRefault .core core [] else s

/-- An access meets an entry with V = 0: it is held and reported (R219, R220). A killed block keeps no such request (R341). -/
def State.holdAccess (s : State) (n : Nat) (a : Access) : State :=
  if a.orphan then { s with accs := s.accs.drop n }
  else
    let s := s.refault a.held a.fe a.launch a.core a.addr a.kind.reportKind a.strand.sid
    { s with accs := s.accs.put n { a with held := .held } }

/-- The fault that an access delivers (R216). -/
def Access.faultOf (a : Access) (c : Cause) : HeldFault :=
  ⟨c, a.threads, BitVec.ofNat 64 a.addr, a.pc, a.region, false, 0⟩

/-! ## Where accesses meet -/

/-- Two runs share a byte. -/
def overlaps (a n b m : Nat) : Bool := a < b + m && b < a + n

/-- The place where an access lands, once its page is present. -/
def State.placeOf (s : State) (a : Access) : Option (Place × Nat) :=
  match walk (s.tlb a.fe) (s.fe a.fe) a.addr with
  | .page p => some ((s.fe a.fe).place p)
  | _ => none

/-- Two accesses of a strand share a byte: by address, or through two pages of one place. -/
def State.meets (s : State) (a b : Access) : Bool :=
  a.space == b.space && (overlaps a.addr a.size b.addr b.size
    || (a.space == .device && match s.placeOf a, s.placeOf b with
        | some x, some y => x.1 = y.1 && overlaps x.2 a.size y.2 b.size
        | _, _ => false))

/-! ## Performing -/

/-- A contained block's own buffered bytes over memory (R231). -/
def overlay (buf : List Buffered) (va : Nat) (bs : List Byte) : List Byte :=
  (bs.zipIdx).map fun e => buf.foldl (fun x b => match b with
    | .store a d => if a ≤ va + e.2 && va + e.2 < a + d.length then d.getD (va + e.2 - a) x else x
    | .add _ _ _ => x) e.1

/-- Everything a block has buffered, oldest first: what a held commit has still to write, and the buffer. -/
def Block.pendingStores (b : Block) : List Buffered := ((b.committing.map Commit.left).getD []) ++ b.buf

/-- The buffered stores that a read of a block sees. -/
def State.buffered (s : State) (blk : Nat) : List Buffered := ((s.block? blk).map Block.pendingStores).getD []

/-- A read of a block meets a line of its store buffer with an uncorrectable error (R355 ECC_STOREBUF). -/
def State.bufPoisoned (s : State) (blk va n : Nat) : Bool :=
  ((s.block? blk).map Block.bufBad).getD [] |>.any fun l => l < va + n && va < l + 64

/-- The events of an FXADD that sets RANGE or NANINF (R355). -/
def State.cellEvents (s : State) (a : Access) (pa : Nat) (old new : List Byte) : State :=
  let setNow := fun (i : Nat) => (numOf new).testBit i && !(numOf old).testBit i
  let s := if setNow 127 then s.emit a.fe (s.lidOf a.launch) Cause.fxcellRange .baseDie (pa / 2 ^ 36) [] else s
  if setNow 125 then s.emit a.fe (s.lidOf a.launch) Cause.fxcellNaninf .baseDie (pa / 2 ^ 36) [] else s

/-- The party that makes an access, and the threads in whose program order it stands (R239). -/
def Access.party (a : Access) : Party := .ofStrand a.strand a.core
def Access.mask (a : Access) : Word := if a.uni then 0xFFFFFFFF else a.threads

/-- What an access reads of its unit (R221, R235, R248): a load, one of the writes that it may read from; an RMW, the newest. -/
def State.unitFor (s : State) (a : Access) (pl : Place) (x : Nat) (cell : Bool) : Got :=
  let v := ((s.strand? a.strand).getD {}).viewOf a.mask
  match a.kind with
  | .load _ =>
    if !cell then s.readUnit pl v x a.size s.fresh
    else if a.size = 8 then
      let lo := s.readCell pl v x 4 s.fresh
      let hi := s.readCell pl v (x + 4) 4 s.fresh
      ⟨lo.bytes ++ hi.bytes, lo.from_ ++ hi.from_⟩
    else s.readCell pl v x a.size s.fresh
  | _ => s.readNewest pl x a.size

/-- The release sequences that the write of an access belongs to (R242): those that its threads head, and for an RMW those of what it read. -/
def State.headsFor (s : State) (a : Access) (scope : Nat) (ws : List Past) : List Head :=
  let k := (s.strand? a.strand).getD {}
  let own := (threadsOf a.mask).foldl (fun hs t => addHeads hs ((k.behind t).headsOf a.party a.rel scope a.view)) []
  if a.kind.reads then ws.foldl (fun hs e => addHeads hs e.heads) own else own

/-- Threads of the same word whose pending accesses share a byte with one: they take their places after it (R255). -/
def State.fellows (s : State) (a : Access) : Word :=
  (s.accs.filter fun e => e.2.strand == a.strand && e.2.po == a.po && s.meets e.2 a).foldl (fun m e => m ||| e.2.mask) 0

/-- What the threads of an access have behind them after it (R242, R244, R246). -/
def State.learned (s : State) (a : Access) (scope : Nat) (pl : Place) (x : Nat) (ws : List Past) (wrote : Bool) : State :=
  let v := fun (v : View) => if wrote then v.wrote s else v
  if ws.isEmpty && !wrote then s
  else s.modStrand a.strand fun k =>
    let k := k.learn a.mask fun z =>
      let z := if a.kind.reads then z.read a.party a.acq scope pl x a.size ws else z
      { z with view := v z.view }
    k.learn (s.fellows a &&& ~~~a.mask) fun z => { z with view := v (z.view.reads pl x a.size ws) }

/-- The samples that a thread has issued after an access have it before their fork (R159, R246). -/
def State.beforeSamples (s : State) (a : Access) (pl : Place) (x : Nat) (ws : List Past) (wrote : Bool) : State :=
  { s with samples := s.samples.map fun (e : Nat × SampleOp) =>
      if e.2.strand == a.strand && a.po < e.2.po && a.mask.getLsbD e.2.t then
        let v := e.2.view.reads pl x a.size ws
        (e.1, { e.2 with view := if wrote then v.wrote s else v })
      else e }

/-- Carry out an access on a unit of a place, at its one instant (R246, R248); `old` is what it reads, `got` the writes read from. -/
def State.carryOut (s : State) (a : Access) (scope : Nat) (pl : Place) (x : Nat) (d : Deed) (got : Got) : State :=
  let s' := match d.write with
    | some bs => s.write pl x bs { src := some (a.strand.blk, a.strand.sid, a.po), heads := s.headsFor a scope got.from_ }
    | none => s
  let ws := if a.kind.reads then got.from_ else []
  ((s'.learned a scope pl x ws d.write.isSome).beforeSamples a pl x ws d.write.isSome).writeResult a.strand a.dst d.res d.fl

/-- Perform an access at its translated address. -/
def State.performPage (s : State) (a : Access) (p : Page) : State :=
  if a.kind.reads && s.poisoned p a.size then s.asyncFault a.strand (a.faultOf Cause.memPoison)
  else if a.kind.reads && s.bufPoisoned a.strand.blk a.addr a.size then s.asyncFault a.strand (a.faultOf Cause.eccStorebuf)
  else
    let (pl, x) := (s.fe a.fe).place p
    let got := s.unitFor a pl x (p.attr == .fxcell)
    let old := match a.kind with | .load _ => overlay (s.buffered a.strand.blk) a.addr got.bytes | _ => got.bytes
    let d := a.kind.deed old
    let s := if d.write.isSome then { s with mem := setDirty s.mem p } else s
    let s := s.carryOut a (if p.attr == .hostwin then 5 else a.scope) pl x d got
    let s := if a.kind.reads then s.countMem a.fe 5 a.size p else s
    let s := if d.write.isSome then s.countMem a.fe 6 a.size p else s
    let s := match a.kind, d.write with
      | .fxadd _ _, some bs => s.cellEvents a p.pa old bs
      | _, _ => s
    s.traffic a.fe p

/-- Perform an access to a pad (R208). -/
def State.performPad (s : State) (a : Access) : State :=
  let pl := padPlace a.strand.blk a.launch a.core a.space
  if a.kind.reads && s.padPoisoned pl a.addr a.size then s.asyncFault a.strand (a.faultOf Cause.eccPad)
  else
    let got := s.unitFor a pl a.addr false
    s.carryOut a a.scope pl a.addr (a.kind.deed got.bytes) got

/-- One pair of a quad access (R235). -/
def Access.pairOf (a : Access) (hi : Bool) : Access :=
  let o := if hi then 8 else 0
  { a with
    addr := a.addr + o, size := 8
    kind := match a.kind with | .store d => .store ((d.drop o).take 8) | k => k
    dst := a.dst.map fun d => { d with reg := d.reg + o / 4 } }

/-- A quad access outside an FXCELL page is two units (R235). -/
def Access.splits (a : Access) (p : Page) : Bool :=
  a.size == 16 && p.attr != .fxcell && match a.kind with | .load _ | .store _ => true | _ => false

/-- Take an access out of the pending ones. -/
def State.dropAcc (s : State) (n : Nat) : State := { s with accs := s.accs.drop n }

/-- Perform the access number `n` (R211 to R216): in a quad, one pair, the other staying behind. -/
def State.perform (s : State) (n : Nat) (a : Access) : State :=
  match a.space with
  | .device =>
    match lookup (s.tlb a.fe) (s.fe a.fe) (a.kind.reach a.size) a.addr a.size with
    | .absent => s.holdAccess n a
    | .fault c => (s.dropAcc n).asyncFault a.strand (a.faultOf c)
    | .page p =>
      if a.splits p then
        let (i, s) := s.draw
        let up := Config.upperPairFirst i
        let s := { s with accs := s.accs.put n (a.pairOf (!up)) }
        let h := a.pairOf up
        s.performPage h { p with pa := p.pa + (h.addr - a.addr) }
      else (s.dropAcc n).performPage a p
  | _ => (s.dropAcc n).performPad a

/-- A block whose accesses are performed: not one that is saved or being restored (R337, R340). -/
def State.live (s : State) (blk : Nat) : Bool :=
  match s.block? blk with
  | some b => b.life == .running || b.life == .draining || b.life == .halting
  | none => true

/-- The Ethernet-remote window that an access goes to, with the device time by which it is acknowledged or fails (R365, R367). -/
def State.remoteOf (s : State) (a : Access) : Option (Nat × Nat) :=
  if a.space != .device then none
  else match walk (s.tlb a.fe) (s.fe a.fe) a.addr with
    | .page p =>
      if p.attr != .hostwin then none
      else ((s.fe a.fe).windows.get? p.win).bind fun w => if w.kind == .hostMemory then none else some (p.win, a.since + w.timeout)
    | _ => none

/-- An access waits for its window (R367): an earlier one of the same Ethernet-remote window is on its way, or its far side does not answer and the
timeout has not passed. -/
def State.windowWaits (s : State) (n : Nat) (a : Access) : Bool :=
  match s.remoteOf a with
  | none => false
  | some (w, till) => ((s.fe a.fe).silent.contains w && s.ns < till)
    || s.accs.any fun e => e.1 < n && e.2.fe == a.fe && e.2.held != .held && s.live e.2.strand.blk && (s.remoteOf e.2).map Prod.fst == some w

/-- Whether an access may be performed now: not held, its block running, no earlier access of its strand to the same bytes pending (R246 Coherence,
R255, R339), and its window ready for it. -/
def State.mayPerform (s : State) (n : Nat) (a : Access) : Bool :=
  a.held != .held && s.live a.strand.blk
    && !(s.accs.any fun e => e.1 < n && e.2.strand == a.strand && s.meets e.2 a)
    && !(s.windowWaits n a)

/-! ## Commits -/

/-- The unit a buffered entry writes: address, size and kind. -/
def Buffered.unit : Buffered → Nat × Nat × AccKind
  | .store va d => (va, d.length, .store d)
  | .add va fmt x => (va, 16, .fxadd fmt x)

/-- A commit under way: the device, what is held, the lowest address that met each cause, and what has been written. -/
structure Committing where
  s     : State
  left  : List Buffered := []
  bad   : List (Cause × Nat) := []
  spans : List Span := []
  deriving DecidableEq, Repr

/-- Note a cause with the lowest address that met it. -/
def noteBad (bad : List (Cause × Nat)) (c : Cause) (va : Nat) : List (Cause × Nat) :=
  if bad.any (fun e => e.1 == c) then bad.map fun e => if e.1 == c then (c, min e.2 va) else e else bad ++ [(c, va)]

/-- Write one buffered entry (R233). An entry that meets an absent page is held; each range is reported once, and once more where the commit was held
before (`again`, R220). -/
def commitEntry (blk : Nat) (b : Block) (la : Launch) (w : Author) (again : Hold) (c : Committing) (e : Buffered) : Committing :=
  let (va, size, kind) := e.unit
  match lookup (c.s.tlb la.fe) (c.s.fe la.fe) (kind.reach size) va size with
  | .absent =>
    let s := if c.left.any fun x => x.unit.1 / 65536 == va / 65536 then c.s else c.s.refault again la.fe b.launch b.core va 7 0
    { c with s := s, left := c.left ++ [e] }
  | .fault x => { c with bad := noteBad c.bad x va }
  | .page p =>
    if kind.reads && c.s.poisoned p size then { c with bad := noteBad c.bad Cause.memPoison va }
    else
    let (pl, x) := (c.s.fe la.fe).place p
    let got := c.s.readNewest pl x size
    match (kind.deed got.bytes).write with
    | none => c
    | some bs =>
      let a : Access := ⟨⟨blk, 0⟩, la.fe, b.launch, b.core, 0, 0, 0, 0, .device, va, size, kind, none, false, false, 4, .no, false, {}, false, c.s.ns⟩
      let heads := if kind.reads then got.from_.foldl (fun hs e => addHeads hs e.heads) w.heads else w.heads
      let s := c.s.writePage (c.s.fe la.fe) p bs { w with heads := heads }
      let spans := s.lastSpan ++ c.spans
      let s := (s.countMem la.fe 6 size p).traffic la.fe p
      { c with s := match kind with | .fxadd _ _ => s.cellEvents a p.pa got.bytes bs | _ => s, spans := spans }

/-- The author of a commit (R233, R249): a release in the block's program order at the event that caused it; at the block's end, one at device
scope after everything that its strands have behind them. -/
def State.commitAuthor (s : State) (blk : Nat) (who : Option CommitBy) (b : Block) : Author :=
  match who with
  | none =>
    let v := (s.strandsOf blk).foldl (fun (v : View) e => v.join (e.2.viewOf 0xFFFFFFFF)) {}
    { heads := [⟨4, .ofEngine blk b.core, v⟩], before := v }
  | some w =>
    match s.strand? w.strand with
    | none => {}
    | some k =>
      { src := some (w.strand.blk, w.strand.sid, k.po)
        heads := [⟨w.scope, .ofStrand w.strand b.core, k.viewOf w.mask⟩] }

/-- What a commit has written is behind every thread, sample and operation of the block, which have seen it (R231, R233); the word that caused it
stands after it as after a release. -/
def State.afterCommit (s : State) (blk : Nat) (spans : List Span) (who : Option CommitBy) (b : Block) : State :=
  let more := fun (v : View) => spans.foldl View.add v
  if spans.isEmpty then s
  else
    let s : State := { s with
      strands := s.strands.map fun (e : StrandRef × Strand) =>
        if e.1.blk == blk then (e.1, e.2.learn 0xFFFFFFFF fun z => { z with view := more z.view }) else e
      ops := s.ops.map fun (e : Nat × EngOp) => if e.2.blk == blk then (e.1, { e.2 with view := more e.2.view }) else e
      samples := s.samples.map fun (e : Nat × SampleOp) => if e.2.strand.blk == blk then (e.1, { e.2 with view := more e.2.view }) else e }
    match who with
    | none => s
    | some w => s.modStrand w.strand fun k => k.learn w.mask fun z => z.fence (.ofStrand w.strand b.core) false true w.scope

/-- Write a list of entries in the order of issue, and report the causes met (R234, R355, R384); `again` for a commit that was held. -/
def State.commitList (s : State) (blk : Nat) (es : List Buffered) (who : Option CommitBy) (again : Hold := .no) : State :=
  match s.block? blk, s.launchOf blk with
  | some b, some la =>
    let c := es.foldl (commitEntry blk b la (s.commitAuthor blk who b) again) { s := s }
    let s := c.s.modBlock blk fun b => { b with
      committed := true
      committing := if c.left.isEmpty then none else some ⟨who, c.left⟩ }
    let s := s.afterCommit blk c.spans who b
    -- a fault may have placed the block again or failed its launch, and the later ones go with it
    c.bad.foldl (fun s e => if (s.block? blk).isNone then s else match who with
      | some w => s.asyncFault w.strand ⟨Cause.commitFault, w.mask, BitVec.ofNat 64 e.2, w.pc, w.region, false, e.1⟩
      | none => s.failLaunch b.launch Cause.commitFault (sub := e.1.toNat)) s
  | _, _ => s

/-- Commit a block's buffer (R233): the buffer is empty afterwards. While a commit is held, nothing more is committed (R234). A line with an
uncorrectable error is consumed before anything is written (R355 ECC_STOREBUF). -/
def State.commit (s : State) (blk : Nat) (who : Option CommitBy) : State :=
  match s.block? blk with
  | none => s
  | some b =>
    if b.committing.isSome then s
    else if !b.bufBad.isEmpty then
      let s := s.setBlock blk { b with bufBad := [] }
      match who with
      | some w => s.asyncFault w.strand ⟨Cause.eccStorebuf, w.mask, BitVec.ofNat 64 (b.bufBad.headD 0), w.pc, w.region, false, 0⟩
      | none => (s.consume blk Cause.eccStorebuf).getD (s.failLaunch b.launch Cause.eccStorebuf)
    else (s.setBlock blk { b with buf := [] }).commitList blk b.buf who

/-- Go on with a held commit after a MAP (R220, R234). -/
def State.recommit (s : State) (blk : Nat) : State :=
  match (s.block? blk).bind Block.committing with
  | none => s
  | some c => s.commitList blk c.left c.who .replay

/-- The 64-byte lines that buffered entries hold (R230). -/
def linesOf (buf : List Buffered) : List Nat := (buf.map fun e => e.unit.1 / 64).eraseDups

/-- Lines held by all blocks of a core. -/
def State.coreLines (s : State) (core : Nat) : Nat :=
  (s.blocks.filter fun e => e.2.core == core && e.2.life != .saved).foldl (fun n e => n + (linesOf e.2.pendingStores).length) 0

/-- A store finds the block's share full (R230): it holds 512 lines, or needs one and the core has none free. -/
def State.shareFull (s : State) (b : Block) (e : Buffered) : Bool :=
  let lines := linesOf b.pendingStores
  512 ≤ lines.length || (!lines.contains (e.unit.1 / 64) && 2048 ≤ s.coreLines b.core)

/-- Buffer one store or FXADD (R231). -/
def State.bufferEntry (s : State) (blk : Nat) (e : Buffered) : State := s.modBlock blk fun b => { b with buf := b.buf ++ [e] }

/-- The forced commit (R232), before the store that found the share full. -/
def State.forceCommit (s : State) (w : CommitBy) (b : Block) : State :=
  let s := s.commit w.strand.blk (some w)
  s.emit (((s.launch? b.launch).map Launch.fe).getD 0) (s.lidOf b.launch) Cause.commitForced .core b.core []

/-- Buffer a word's entries in order (R230 to R234); `n` counts those that stand in the buffer. The number at which the word must wait for a forced
commit, or for the strand's earlier accesses, which stand before that commit. -/
def State.bufferFrom (s : State) (w : CommitBy) (busy : Bool) : List Buffered → Nat → State × Option Nat
  | [], _ => (s, none)
  | e :: es, n =>
    match s.block? w.strand.blk with
    | none => (s, none)
    | some b =>
      if !s.shareFull b e then (s.bufferEntry w.strand.blk e).bufferFrom w busy es (n + 1)
      else if busy then (s, some n)
      else
        let s := s.forceCommit w b
        match s.block? w.strand.blk with
        | none => (s, none)
        | some b =>
          if b.committing.isSome then (s, some n)
          else
            let s' := s.bufferEntry w.strand.blk e
            -- no line is free even now: the entry does not stay
            (if s.shareFull b e then s'.commit w.strand.blk (some w) else s').bufferFrom w busy es (n + 1)

end Sys2Proof.Machine
end

