-- ==== Sys2Proof/Machine/Memory.lean ====
section
/-!
DEFINITION. LD, ST, ATOM, CAS, FXADD and FXRD (R253 to R258): addresses, the checks of R210 and R255, what a word waits for before its
accesses leave the core (R219, R242, R339), the store buffer (R231, R232), and the accesses they issue.
-/
namespace Sys2Proof.Machine

/-- The space of an SP field (R207). -/
def spaceOf : Nat → Space
  | 0 => .device | 1 => .core | 2 => .cluster | _ => .die

/-- What a word accesses: the size of the alignment check, the bytes from the address that it touches, and its order. -/
structure Storage where
  uni   : Bool
  space : Space
  size  : Nat
  bytes : Nat
  acq   : Bool := false
  rel   : Bool := false
  scope : Nat := 0
  /-- a store or an RMW -/
  writes : Bool := false
  deriving DecidableEq, Repr

/-- One single-copy-atomic unit of a thread (R235). -/
structure Piece where
  t    : Nat
  addr : Nat
  size : Nat
  kind : AccKind
  dst  : Option Dst := none
  deriving DecidableEq, Repr

/-- The mask of the threads in a list of threads and addresses; every active thread of a uniform word. -/
def Ctx.maskOf (c : Ctx) (uni : Bool) (ts : List (Nat × Int)) : Word :=
  if ts.isEmpty then 0 else if uni then c.act else ts.foldl (fun m e => m ||| bit e.1) 0

/-- The threads in whose program order an event of a word stands (R239): every one of the strand for a uniform word. -/
def eventMask (uni : Bool) (t : Nat) : Word := if uni then 0xFFFFFFFF else bit t

/-- An access as a word issues it. -/
def Ctx.access (c : Ctx) (m : Storage) (p : Piece) : Access :=
  ⟨c.r, c.la.fe, c.b.launch, c.b.core, c.k.po, if m.uni then c.act else bit p.t, c.k.pc, c.k.region, m.space, p.addr, p.size,
    p.kind, p.dst, m.acq, m.rel, m.scope, .no, false, if m.rel then c.k.viewOf (eventMask m.uni p.t) else {}, m.uni, c.s.ns⟩

/-- Whether the strand has an access or quorum operation that is not performed (R219, R260, R353). -/
def State.unperformed (s : State) (r : StrandRef) : Bool :=
  s.accs.any (fun e => e.2.strand == r) || s.quorums.any fun e => e.2.strand == r

/-- The wait for every access of the strand (a release, an arrival, a fence): stall reason 14 when one is held (R219), that of a SAMPLE
among them (R158). -/
def State.orderWait (s : State) (r : StrandRef) : Option Stall :=
  if s.heldThreads r != 0 then some .parked else if s.unperformed r then some .memory else none

/-- A request held in the 64 KiB range of a run (R219). -/
def inRanges (as : List Nat) (n a : Nat) : Bool := as.any fun x => x / 65536 ≤ a / 65536 && a / 65536 ≤ (x + n - 1) / 65536

/-- The wait behind an acquire of the strand that has not returned (R238): stall reason 14 when it is held (R219). -/
def State.acquireWait (s : State) (r : StrandRef) : Option Stall :=
  let accs := s.accs.filter fun e => e.2.strand == r && e.2.acq
  let qs := s.quorums.filter fun e => e.2.strand == r && e.2.acq
  if accs.isEmpty && qs.isEmpty then none
  else if accs.any (fun e => e.2.held == .held) || qs.any fun e => e.2.held == .held then some .parked
  else some .memory

/-- A request of the strand is held in a 64 KiB range that a word accesses (R219). -/
def State.heldInRange (s : State) (r : StrandRef) (range : Nat → Bool) : Bool :=
  (s.accs.any fun e => e.2.strand == r && e.2.held == .held && e.2.space == .device && range e.2.addr)
    || (s.quorums.any fun e => e.2.strand == r && e.2.held == .held && range e.2.va)
    || s.samples.any fun e => e.2.strand == r && e.2.held == .held && range e.2.heldVa

/-- A pending access of the strand shares a byte with one that a word is about to issue. -/
def Ctx.crosses (c : Ctx) (m : Storage) (as : List Nat) (ok : Access → Bool) : Bool :=
  c.s.accs.any fun e => e.2.strand == c.r && ok e.2 && as.any fun a => c.s.meets e.2 (c.access m ⟨0, a, m.bytes, .load false, none⟩)

/-- What keeps a word's accesses in the core (R219, R234, R238, R246, R259, R339). A store of a contained block, which its buffer takes at
once, stays behind every pending access to its bytes. -/
def Ctx.gate (c : Ctx) (m : Storage) (as : List Nat) : Option Stall :=
  let qs := c.s.quorums.filter fun e => e.2.strand == c.r
  let range := inRanges as m.bytes
  if c.b.committing.isSome then some .parked
  else if m.space == .device && c.s.heldInRange c.r range then some .parked
  else match c.s.acquireWait c.r with
    | some why => some why
    | none =>
      if m.space == .device && qs.any (fun e => e.2.store.isSome && range e.2.va) then some .memory
      else if m.rel then c.s.orderWait c.r
      else if m.writes && (c.crosses m as (fun a => a.kind.isLoad || (c.la.contained && m.space == .device))
          || (m.space == .device && qs.any fun e => as.any fun a => overlaps a m.bytes e.2.va 16)) then some .memory
      else none

/-- The addresses of the threads of a word, checked (R210, R255): MISALIGNED, then PAD_BOUNDS, then what the word waits for. -/
def Ctx.storage (c : Ctx) (m : Storage) (addr : Nat → Int) (go : List (Nat × Nat) → Verdict) : Verdict :=
  let ts := (c.lanes m.uni).map fun t => (t, addr t)
  let va := fun (l : List (Nat × Int)) => BitVec.ofInt 64 ((l.head?.map Prod.snd).getD 0)
  let crooked := ts.filter fun e => e.2 % (m.size : Int) != 0
  let outside := ts.filter fun e => m.space != .device && (e.2 < 0 || (c.la.padSize m.space : Int) < e.2 + (m.bytes : Int))
  if ts.isEmpty then .done c.s
  else if !crooked.isEmpty then .trap Cause.misaligned (c.maskOf m.uni crooked) (va crooked) 0
  else if !outside.isEmpty then .trap (padCause m.space) (c.maskOf m.uni outside) (va outside) 0
  else
    match c.gate m (ts.map fun e => e.2.toNat) with
    | some why => .wait why c.s
    | none => go (ts.map fun e => (e.1, e.2.toNat))

/-- The word as the cause of a commit, at the scope of its access (R233). -/
def Ctx.commitBy (c : Ctx) (scope : Nat := 4) : CommitBy := ⟨c.r, c.k.pc, c.act, c.k.region, scope⟩

/-- Commit a contained block's buffer before the word goes on (R232). The commit is a release (R233, R242): the strand's earlier accesses
are performed first. The word waits while the commit is held (R234). -/
def Ctx.committed (c : Ctx) (go : State → Verdict) (scope : Nat := 4) (wait : Option Stall := c.s.orderWait c.r) : Verdict :=
  if !c.la.contained then go c.s
  else match wait with
    | some why => .wait why c.s
    | none =>
      let s := c.s.commit c.r.blk (some (c.commitBy scope))
      match s.block? c.r.blk with
      | none => .over s
      | some b =>
        if b.committing.isSome then .wait .parked s
        else if b.buf.isEmpty then go s else .wait .memory s

/-- The next number of the strand's program order. -/
def State.nextPo (s : State) (r : StrandRef) : State := s.modStrand r fun k => { k with po := k.po + 1 }

/-- Issue pieces in ascending order (R255). -/
def Ctx.issue (c : Ctx) (m : Storage) (ps : List Piece) (s : State) : State :=
  (ps.foldl (fun s p =>
    let (n, s) := s.name
    { s with accs := s.accs.put n (c.access m p) }) s).nextPo c.r

/-- The contribution of a store to the store-stream hash (R357): its address with the level, width code and data. -/
def foldStore (h : Word) (sp : Space) (addr w : Nat) (data : List Byte) : Word :=
  let lvl := match sp with | .device => 0 | .core => 1 | .cluster => 2 | .die => 3
  (bytesOf 8 (addr % 2 ^ 62 + (if lvl = 0 then addr / 2 ^ 62 % 4 else lvl) * 2 ^ 62) ++ bytesOf 1 w ++ data).foldl foldByte h

/-- Fold the stores of a word, for a block of a screened pair (R357). -/
def Ctx.screened (c : Ctx) (sp : Space) (w : Nat) (stores : List (Nat × List Byte)) (s : State) : State :=
  if sp == .core || (c.b.partner.isNone && !c.b.shadow) then s
  else s.modStrand c.r fun k => { k with shash := stores.foldl (fun h e => foldStore h sp e.1 w e.2) k.shash }

/-- A unit in a HOSTWIN page, whose accesses are performed at system scope (R215). -/
def State.inWindow (s : State) (fe va : Nat) : Bool :=
  match walk (s.tlb fe) (s.fe fe) va with | .page p => p.attr == .hostwin | _ => false

/-- A unit as the store buffer takes it (R231). -/
def Piece.entry (p : Piece) : Option Buffered :=
  match p.kind with
  | .store d => some (.store p.addr d)
  | .fxadd f x => some (.add p.addr f x)
  | _ => none

/-- Put units into a contained block's store buffer (R231), from where a forced commit held the word up. -/
def Ctx.bufferPieces (c : Ctx) (scope : Nat) (ps : List Piece) (n : Nat) (s : State) (go : State → Verdict) : Verdict :=
  match s.bufferFrom (c.commitBy scope) (c.s.orderWait c.r).isSome ((ps.filterMap Piece.entry).drop n) n with
  | (s, none) => if (s.block? c.r.blk).isSome then go s else .over s
  | (s, some n) =>
    .wait (if ((s.block? c.r.blk).bind Block.committing).isSome then .parked else (c.s.orderWait c.r).getD .memory)
      (s.modStrand c.r fun k => { k with wait := .buffered n })

/-- The scope of the commit that a word's pieces cause (R233): theirs, which for a HOSTWIN page is system (R215). -/
def Ctx.commitScope (c : Ctx) (m : Storage) (ps : List Piece) : Nat :=
  if m.space == .device && ps.any (fun p => c.s.inWindow c.la.fe p.addr) then 5 else m.scope

/-- Issue a word's stores by R231, R232 and R357: directly, into the store buffer, or only into a shadow's hash. `stores`: each
thread's address and whole data; `ps`: the units. A release wider than block, which every release to a HOSTWIN page is (R215), commits the
buffer first and is performed directly. -/
def Ctx.store (c : Ctx) (m : Storage) (w : Nat) (stores : List (Nat × List Byte)) (ps : List Piece) : Verdict :=
  let fold := c.screened m.space w stores
  let wide := fun (p : Piece) => m.rel && (1 < m.scope || (m.space == .device && c.s.inWindow c.la.fe p.addr))
  let direct := ps.filter wide
  let rest := ps.filter fun p => !(wide p)
  let scope := c.commitScope m direct
  if c.b.shadow && m.space != .core then .done (fold c.s)
  else if !c.la.contained then .done (fold (c.issue m ps c.s))
  else if m.space == .core then
    if direct.isEmpty then .done (fold (c.issue m ps c.s)) else c.committed (fun s => .done (fold (c.issue m ps s))) scope
  else if m.space != .device then c.committed (fun s => .done (fold (c.issue m ps s))) scope
  else match c.k.wait with
    | .buffered n => c.bufferPieces m.scope rest n c.s fun s => .done (fold s)
    | _ =>
      if direct.isEmpty then c.bufferPieces m.scope rest 0 c.s fun s => .done (fold s)
      else c.committed (fun s => c.bufferPieces m.scope rest 0 (c.issue m direct s) fun s => .done (fold s)) scope

/-! ## M words -/

/-- Bytes of a width code (R65). -/
def widthBytes : Nat → Nat
  | 0 => 1 | 1 => 2 | 2 => 4 | 3 => 8 | 4 => 16 | _ => 4

/-- Registers of a width code. -/
def widthRegs : Nat → Nat
  | 3 => 2 | 4 => 4 | _ => 1

/-- The address of a thread (R253). -/
def Ctx.mAddr (c : Ctx) (x : M) (t : Nat) : Int :=
  let off := x.off.toInt
  let v : Int := if x.a.toNat = 0x7F then 0 else (c.rd.vGet x.a.toNat t).toNat
  if x.sp = 0 then
    let base : Int := if x.aw then (c.rd.vPair x.a.toNat t).toNat else ((c.forThread t).sPair x.sb.toNat).toNat + v
    (base + off) % 2 ^ 64
  else (if x.sb = 0 then 0 else (((c.forThread t).sGet x.sb.toNat).toNat : Int)) + v + off

/-- The shape of an M word (R65): its checks and the registers it reads or writes. -/
def mShape (x : M) (store : Bool) (slots : Nat) : Shape :=
  let w := x.w.toNat
  let noA := x.a.toNat = 0x7F
  let u := x.h.u
  let regs := (List.range (widthRegs w)).map fun i => x.d.toNat + i
  let base := if x.aw then [] else if x.sp = 0 then [.s x.sb.toNat, .s (x.sb.toNat + 1)] else if x.sb = 0 then [] else [.s x.sb.toNat]
  { regs :=
      { vec := x.d :: (if noA then [] else [x.a])
        span := (x.d.toNat + widthRegs w - 1) :: (if x.aw then [x.a.toNat + 1] else [])
        even := (if 3 ≤ w then [x.d] else []) ++ (if x.aw then [x.a] else [])
        range := x.sb.getLsbD 0 || (x.aw && noA)
        jets := if w = 5 then [x.d] else []
        noU := !noA || x.aw || w == 5 }
    src := (if noA then [] else [x.a])
    reads := base ++ (if x.aw then [locOf u (x.a.toNat + 1)] else []) ++ (if store then regs.map (locOf u) else [])
    dst := if store then [] else regs
    lat := none, slots := slots }

/-- The Storage of an M word, strengthened by revision 1 (R251). -/
def mStorage (c : Ctx) (x : M) (store : Bool) : Storage :=
  let w := x.w.toNat
  let rev1 := c.la.mmr == 1
  { uni := x.h.u, space := spaceOf x.sp.toNat, size := widthBytes w
    bytes := if w = 5 then 4 * (c.d + 1) else widthBytes w
    acq := !store && (x.ord.getLsbD 0 || rev1)
    rel := store && (x.ord.getLsbD 1 || rev1)
    scope := if rev1 then max 1 x.scope.toNat else x.scope.toNat
    writes := store }

/-- The units of one thread (R235): a jet's words, a pad quad's pairs, else the whole access. `kind` and `dst` take the byte
offset and the length. -/
def unitsOf (c : Ctx) (x : M) (t addr : Nat) (kind : Nat → Nat → AccKind) (dst : Nat → Option Dst) : List Piece :=
  let w := x.w.toNat
  if w = 5 then (List.range (c.d + 1)).map fun i => ⟨t, addr + 4 * i, 4, kind (4 * i) 4, dst i⟩
  else if w = 4 && x.sp != 0 then [⟨t, addr, 8, kind 0 8, dst 0⟩, ⟨t, addr + 8, 8, kind 8 8, dst 2⟩]
  else [⟨t, addr, widthBytes w, kind 0 (widthBytes w), dst 0⟩]

/-- LD (R256). -/
def execLd (x : M) (s : State) : Outcome :=
  word (.ld x) s (fun c => (mShape x false (if x.w = 5 then 1 + c.d else 1)).spec x.h c) fun c =>
    let m := mStorage c x false
    c.storage m (c.mAddr x) fun ts =>
      .done (c.issue m (ts.flatMap fun e =>
        unitsOf c x e.1 e.2 (fun _ _ => .load x.sx) fun i =>
          some (if x.w = 5 then ⟨false, x.d.toNat, e.1, some i⟩ else ⟨x.h.u, x.d.toNat + i, e.1, none⟩)) c.s)

/-- The data bytes a thread stores (R256). -/
def Ctx.storeData (c : Ctx) (x : M) (t : Nat) : List Byte :=
  let u := x.h.u
  let reg := fun i => if u then c.rd.sGet (x.d.toNat + i) else c.rd.vGet (x.d.toNat + i) t
  let ws := if x.w = 5 then c.rd.vGet x.d.toNat t :: (List.range c.d).map (c.rd.compGet x.d.toNat t)
    else (List.range (widthRegs x.w.toNat)).map reg
  (ws.flatMap fun w => bytesOf 4 w.toNat).take (if x.w.toNat < 2 then widthBytes x.w.toNat else 4 * ws.length)

/-- ST (R256). A screened pair's hash takes the value of a jet, not its components (R119). -/
def execSt (x : M) (s : State) : Outcome :=
  word (.st x) s (fun c =>
      let g := mShape x true (if x.w = 5 then 1 + c.d else 1)
      g.spec x.h c) fun c =>
    let m := mStorage c x true
    c.storage m (c.mAddr x) fun ts =>
      let stores := ts.map fun e => (e.2, (c.storeData x e.1).take (widthBytes x.w.toNat))
      c.store m x.w.toNat stores (ts.flatMap fun e =>
        let d := c.storeData x e.1
        unitsOf c x e.1 e.2 (fun o n => .store ((d.drop o).take n)) fun _ => none)

/-! ## F words -/

/-- The space, order and scope fields of R254. -/
def F.sp (x : F) : Nat := x.modN 6 5
def F.ord (x : F) : Nat := x.modN 4 3

/-- The address of a thread (R254). -/
def Ctx.fAddr (c : Ctx) (x : F) (t : Nat) : Int :=
  if F.sp x = 0 then ((c.pair x.h.u x.a.toNat t).toNat : Int) else ((c.val x.h.u x.a t).toNat : Int)

/-- The shape of an F word that accesses storage: `regs` are its other vector registers with their number, `dst` those it
writes. -/
def fShape (x : F) (src : List (BitVec 7 × Nat)) (dst : List (BitVec 7 × Nat)) (own : List (Bool × Cause)) : Shape :=
  let dev := F.sp x = 0
  let a : List (BitVec 7 × Nat) := [(x.a, if dev then 2 else 1)]
  let all := a ++ src ++ dst
  let locs := fun (l : List (BitVec 7 × Nat)) => l.flatMap fun e => (List.range e.2).map fun i => e.1.toNat + i
  { regs := { vec := all.map Prod.fst, span := all.map fun e => e.1.toNat + e.2 - 1
              even := (all.filter fun e => e.2 == 2).map Prod.fst }
    reads := (locs (a ++ src)).map (locOf x.h.u)
    dst := locs dst, lat := none, own := own }

/-- The Storage of an F word. -/
def fStorage (x : F) (size : Nat) (writes : Bool) : Storage :=
  { uni := x.h.u, space := spaceOf (F.sp x), size := size, bytes := size, acq := (F.ord x).testBit 0
    rel := writes && (F.ord x).testBit 1, scope := x.modN 2 0, writes := writes }

/-- A word or pair operand as a number (R257): the immediate is zero-extended. -/
def Ctx.unit (c : Ctx) (x : F) (pair : Bool) (r : BitVec 7) (t : Nat) : Nat :=
  if pair then (c.pair x.h.u r.toNat t).toNat else (c.val x.h.u r t).toNat

/-- An RMW word (R257): one event for each thread, after the commit that R232 asks for. -/
def rmwWord (i : Instr) (x : F) (src : List (BitVec 7)) (kind : Ctx → Nat → AccKind) (s : State) : Outcome :=
  let n := if x.mod.getLsbD 7 then 2 else 1
  word i s (fun c =>
      let g := fShape x (src.map fun r => (r, n)) [(x.d, n)] []
      { g.spec x.h c with noShadow := true }) fun c =>
    let m := fStorage x (4 * n) true
    c.storage m (c.fAddr x) fun ts =>
      let ps := ts.map fun e => (⟨e.1, e.2, 4 * n, kind c e.1, some ⟨x.h.u, x.d.toNat, e.1, none⟩⟩ : Piece)
      let wide := m.rel && 1 < m.scope
      if m.space == .core && !wide then .done (c.issue m ps c.s)
      else c.committed (fun s => .done (c.issue m ps s)) (c.commitScope m ps)

/-- ATOM (R257). -/
def execAtom (fn : Fin 9) (x : F) (s : State) : Outcome :=
  rmwWord (.atom fn x) x x.srcB
    (fun c t => .atom fn.val (if x.bi then x.b.toNat else c.unit x (x.mod.getLsbD 7) x.b t)) s

/-- CAS (R257). -/
def execCas (x : F) (s : State) : Outcome :=
  rmwWord (.cas x) x [x.b, x.c]
    (fun c t => .cas (c.unit x (x.mod.getLsbD 7) x.b t) (c.unit x (x.mod.getLsbD 7) x.c t)) s

/-- The own cause of the cell words: SP must be device memory (R258); pva holds the pad offset of the first active thread (R349). -/
def Ctx.cell (c : Ctx) (x : F) (go : Verdict) : Verdict :=
  match c.lanes x.h.u with
  | [] => .done c.s
  | t :: _ => if F.sp x != 0 then .trap Cause.atomSpace c.act (BitVec.ofInt 64 (c.fAddr x t)) 0 else go

/-- FXADD (R258). -/
def execFxadd (x : F) (s : State) : Outcome :=
  word (.fxadd x) s (fun c =>
      { (fShape x [(x.b, 1)] [] []).spec x.h c with noShadow := true }) fun c =>
    let m := fStorage x 16 true
    c.cell x <| c.storage m (c.fAddr x) fun ts =>
      c.store m 0 [] (ts.map fun e => ⟨e.1, e.2, 16, .fxadd (x.modN 9 8) (c.val x.h.u x.b e.1), none⟩)

/-- FXRD (R258). -/
def fxrdWord (i : Instr) (x : F) (clr : Bool) (s : State) : Outcome :=
  word i s (fun c => { (fShape x [] [(x.d, 1)] []).spec x.h c with noShadow := true }) fun c =>
    let m := fStorage x 16 clr
    c.cell x <| c.storage m (c.fAddr x) fun ts =>
      c.committed (scope := m.scope) fun s =>
        .done (c.issue m (ts.map fun e => ⟨e.1, e.2, 16, .fxrd clr, some ⟨x.h.u, x.d.toNat, e.1, none⟩⟩) s)

def execFxrdRead (x : F) (s : State) : Outcome := fxrdWord (.fxrdRead x) x false s
def execFxrdClr (x : F) (s : State) : Outcome := fxrdWord (.fxrdClr x) x true s

/-- ACCESS_PERFORMED (R246, R255): a pending access is performed at its point of coherence. Nothing happens while it may
not be (log 1). -/
def execAccessPerformed (n : Nat) (s : State) : Outcome :=
  match s.accs.get? n with
  | some a => .next (if s.mayPerform n a then s.perform n a else s)
  | none => .next s

end Sys2Proof.Machine
end

