-- ==== Sys2Proof/Machine/Control.lean ====
section
/-!
DEFINITION. Control flow (R289 to R305): branches, calls and indirect jumps, reconvergence, the timer, user traps, breakpoints,
regions and signatures. CTL.EXIT and CTL.SLEEP stand with the strand's end and with memory.
-/
namespace Sys2Proof.Machine

/-- The Spec of a block-ending word that moves the groups (R52, R76). -/
def Spec.branch (sp : Spec) (gap : Nat) : Spec := { sp with drain := true, moves := true, ends := true, gap := gap }

/-- NOP: one cycle, nothing else (R59, R79). -/
def execNop (s : State) : Outcome := word .nop s (fun _ => {}) fun c => .done c.s

/-- ILL, the word of all ones, traps ILLEGAL_WORD (R57, R79). -/
def execIll (s : State) : Outcome := word .ill s (fun _ => { checks := [(true, Cause.illegalWord)] }) fun c => .done c.s

/-- Split the current group: the threads of `m` at `tgt`, the rest at the next word, and select (R290). -/
def Strand.split (k : Strand) (m : Word) (tgt : Dword) : Strand :=
  let rest := k.mask &&& ~~~m
  (((Strand.form { k with mask := 0 } (k.mask &&& m) tgt).form rest (k.pc + 8))).pick

/-- A J word's target (R66). -/
def jTarget (pc : Dword) (off : Word) : Dword := pc + 8 * off.signExtend 64

/-- BRA (R294). -/
def execBra (x : J) (s : State) : Outcome :=
  word (.bra x) s
    (fun _ => Spec.branch { stall := x.stall.toNat, reads := if x.ms = 0 then [] else [.m x.ms.toNat] } 2) fun c =>
      let m := if x.ms = 0 then c.k.mask else c.maskBy fun k => k.mGet x.ms.toNat ^^^ (if x.mn then 0xFFFFFFFF else 0)
      .done (c.s.setStrand c.r (c.k.split m (jTarget c.k.pc x.off)))

/-- CALL (R296): the whole current group, the link in S[x:x+1]. -/
def execCall (x : J) (s : State) : Outcome :=
  word (.call x) s
    (fun _ => Spec.branch { stall := x.stall.toNat, checks := [(x.x.getLsbD 0 || 64 ≤ x.x.toNat, Cause.regRange)]
                            writes := [.s x.x.toNat, .s (x.x.toNat + 1)] } 2) fun c =>
      let k := c.k.setSPair x.x.toNat (c.k.pc + 8)
      .done (c.s.setStrand c.r { k with pc := jTarget c.k.pc x.off }.reselect)

/-- JMPI (R295): every active thread must hold the same target. -/
def execJmpi (x : F) (s : State) : Outcome :=
  let link := x.d != 0
  word (.jmpi x) s
    (fun c => Spec.branch
      (({ regs := { vec := [x.a], span := [x.a.toNat + 1], even := [x.a, x.d], sreg := [x.d] }
          reads := [locOf x.h.u x.a.toNat, locOf x.h.u (x.a.toNat + 1)]
          writes := if link then [.s x.d.toNat, .s (x.d.toNat + 1)] else [] } : Shape).spec x.h c) 0) fun c =>
      match threadsOf c.act with
      | [] => .done (c.s.setStrand c.r { c.k with pc := c.k.pc + 8 }.reselect)
      | t :: _ =>
        let tgt := c.pair x.h.u x.a.toNat t
        let bad := maskOf fun t => c.act.getLsbD t && c.pair x.h.u x.a.toNat t != tgt
        if bad != 0 then .trap Cause.indirectNonuniform bad 0 0
        else if crooked tgt then c.misaligned tgt
        else
          let k := if link then c.k.setSPair x.d.toNat (c.k.pc + 8) else c.k
          .done (c.s.setStrand c.r (k.split c.act tgt))

/-- A CTL word: once for the strand (R305). -/
def ctl (i : Instr) (s : State) (h : Hdr) (g : Shape) (tune : Spec → Spec) (eff : Ctx → Verdict) : Outcome :=
  word i s (fun c => tune { g.spec h c with slots := none, lat := none }) eff

/-- CTL.RET (R296, R305). -/
def execCtlRet (x : F) (s : State) : Outcome :=
  ctl (.ctlRet x) s x.h { regs := { sreg := [x.a], even := [x.a] }, reads := [.s x.a.toNat, .s (x.a.toNat + 1)] }
    (Spec.branch · 0) fun c =>
      let tgt := c.rd.sPair x.a.toNat
      if crooked tgt then c.misaligned tgt
      else .done (c.s.setStrand c.r { c.k with pc := tgt }.reselect)

/-- A CTL form's argument: S[b] or the immediate (R305). -/
def Ctx.arg (c : Ctx) (x : F) : Word := if x.bi then x.b.setWidth 32 else c.rd.sGet x.b.toNat

/-- The shape of a form with an S[b] or immediate argument. -/
def argShape (x : F) : Shape := if x.bi then {} else { regs := { sreg := [x.b] }, reads := [.s x.b.toNat] }

/-- Hold the current group at its PC until cycle `till` (R297) and select another. -/
def Strand.holdHere (k : Strand) (till : Nat) : Strand :=
  (Strand.releaseFull { k with mask := 0, groups := k.groups ++ [⟨k.mask, k.pc, some till, false⟩] }).pick

/-- CTL.RCV (R297). A hold made in the privileged handler counts from the return: none of the handler's cycles is counted. -/
def execCtlRcv (x : F) (s : State) : Outcome :=
  ctl (.ctlRcv x) s x.h (argShape x) (Spec.branch · 0) fun c =>
    .done (c.s.setStrand c.r (c.k.holdHere ((if c.k.ph then c.k.trapAt else c.start) + (c.arg x).toNat)))

/-- CTL.YIELD (R298). -/
def execCtlYield (x : F) (s : State) : Outcome :=
  ctl (.ctlYield x) s x.h {} (Spec.branch · 2) fun c =>
    .done (c.s.setStrand c.r (Strand.form { c.k with mask := 0 } c.k.mask (c.k.pc + 8) true).pick)


/-- CTL.REGION (R305, R353): waits for the accesses of the region that ends, samples among them (R158). -/
def execCtlRegion (x : F) (s : State) : Outcome :=
  ctl (.ctlRegion x) s x.h {} (fun sp => { sp with drain := true, ends := true }) fun c =>
    if c.s.unperformed c.r || c.s.samples.any (fun e => e.2.strand == c.r) then .wait .memory c.s
    else .done (c.s.setStrand c.r { c.k with region := c.k.region + 1, regionpc := c.k.pc + 8, rv := true })

/-- The constant of CTL.SIGCHK (R63). -/
def sigConst (x : F) : Word := x.d ++ x.a ++ x.b ++ x.c ++ x.mod.extractLsb' 0 4

/-- CTL.SIGCHK (R52): its constant becomes pending. -/
def execCtlSigchk (x : F) (s : State) : Outcome :=
  ctl (.ctlSigchk x) s x.h {} id fun c => .done (c.s.setStrand c.r { c.k with sigPend := some (sigConst x) })

/-- CTL.SIGRST (R52): its own word is not folded into the value it sets (log 20). -/
def execCtlSigrst (x : F) (s : State) : Outcome :=
  ctl (.ctlSigrst x) s x.h {} (fun sp => { sp with folded := true }) fun c =>
    .done (c.s.setStrand c.r { c.k with sig := sigReset, sigPend := none })

/-- CTL.TMRSET (R301). -/
def execCtlTmrset (x : F) (s : State) : Outcome :=
  ctl (.ctlTmrset x) s x.h { regs := { sreg := [x.a], even := [x.a] }, reads := [.s x.a.toNat, .s (x.a.toNat + 1)] } id
    fun c => .done (c.s.setStrand c.r { c.k with tmrcmp := c.rd.sPair x.a.toNat, tmrArmed := true })

/-- CTL.TMRCLR (R301). -/
def execCtlTmrclr (x : F) (s : State) : Outcome :=
  ctl (.ctlTmrclr x) s x.h {} id fun c => .done (c.s.setStrand c.r { c.k with tmrArmed := false })

/-- CTL.TRAPU (R300, R305): a user handler that is not aligned is MISALIGNED (R57). -/
def execCtlTrapu (x : F) (s : State) : Outcome :=
  ctl (.ctlTrapu x) s x.h {} (fun sp => { sp with drain := true }) fun c =>
    if crooked c.k.uvec && !c.k.uh && !c.k.ph then c.misaligned c.k.uvec
    else .doneThen c.s (.user Cause.trapu (x.modN 7 0))

/-- A word that checks the pending constant after its own fold (R52): the folded strand, or the trap. -/
def Ctx.sigChecked (c : Ctx) (i : Instr) (ok : Strand → Verdict) : Verdict :=
  let f := c.k.fold i
  if f.sigBad then
    .trapIn (c.s.setStrand c.r { c.k with sigPend := none }) Cause.sigMismatch c.act (f.sig ++ f.sigPend.getD 0)
  else ok { f with sigPend := none }

/-- CTL.URET (R52, R57, R305): a return word, no selection point. -/
def execCtlUret (x : F) (s : State) : Outcome :=
  word (.ctlUret x) s
    (fun c => { Spec.ofHdr x.h with
      checks := [(!c.k.uh, Cause.reservedField)], drain := true, moves := true, folded := true }) fun c =>
    if crooked c.k.uepc then c.misaligned c.k.uepc
    else c.sigChecked (.ctlUret x) fun k =>
      let k := k.sigRestore k.usigsv k.usigpv
      .done (c.s.setStrand c.r { k with uh := false, pc := k.uepc, entry := false, drain := true })

/-- CTL.BRK (R302). -/
def execCtlBrk (x : F) (s : State) : Outcome :=
  ctl (.ctlBrk x) s x.h {} (fun sp => { sp with drain := true }) fun c =>
    if c.act = 0 then .done c.s else .doneThen c.s (.trap Cause.brk c.act)

/-- CTL.EVMARK (R305, R380). -/
def execCtlEvmark (x : F) (s : State) : Outcome :=
  ctl (.ctlEvmark x) s x.h (argShape x) (fun sp => { sp with noShadow := true }) fun c =>
    .done (c.s.emit c.la.fe c.la.lid Cause.programMark .core c.b.core
      (bytesOf 8 c.k.pc.toNat ++ bytesOf 4 (c.arg x).toNat ++ bytesOf 4 c.r.sid))

end Sys2Proof.Machine
end

