-- ==== Sys2Proof/Machine/Quorum.lean ====
section
/-!
DEFINITION. Quorum cells (R223 to R229, R259): QLD and QST, the answers of the copies, lost copies and the scrubber.
-/
namespace Sys2Proof.Machine

/-- The slot of copy `c` of a cell whose copy 0 lies at `pa` (R223). -/
def copyPa (pa c : Nat) : Nat := (pa / 2 ^ 36 + c) % 12 * 2 ^ 36 + pa % 2 ^ 36

/-- The copies of a cell in a page of this attribute. -/
def Attr.copies : Attr → Nat
  | .quorum3 => 3 | .quorum5 => 5 | _ => 0

/-- The tag and payload that a slot holds (R223). -/
def slotTag (m : Memory) (pa : Nat) : Dword := BitVec.ofNat 64 (m.num (pa + 16) 8)
def slotPayload (m : Memory) (pa : Nat) : BitVec 128 := BitVec.ofNat 128 (m.num pa 16)

/-- A copy's answer to a tag and payload (R225): it writes its slot when the tag is greater. -/
def acceptSlot (m : Memory) (pa : Nat) (tag : Dword) (pay : BitVec 128) : Memory :=
  if slotTag m pa < tag then m.put pa (bytesOf 16 pay.toNat ++ bytesOf 8 tag.toNat ++ bytesOf 8 0) else m

/-- A tag and payload reach a copy for a partition: the bytes of a slot that is written count (R225, R382, log 31). -/
def State.sendSlot (s : State) (fe pa : Nat) (tag : Dword) (pay : BitVec 128) : State :=
  let s := if slotTag s.mem pa < tag then s.count fe 6 32 else s
  { s with mem := acceptSlot s.mem pa tag pay }

/-- The tag of a QST (R224). -/
def quorumTag (beat seq core : Nat) : Dword := BitVec.ofNat 64 (beat % 2 ^ 52 * 4096 + seq * 1024 + core)

/-- The Storage of QLD and QST (R259). -/
def qStorage (x : M) (store : Bool) : Storage :=
  { uni := x.h.u, space := .device, size := 16, bytes := 16, acq := !store && x.ord.getLsbD 0
    rel := store && x.ord.getLsbD 1, scope := x.scope.toNat, writes := store }

/-- The Spec of QLD and QST: device memory only (R214). -/
def qSpec (x : M) (store : Bool) (c : Ctx) : Spec :=
  { (mShape x store 4).spec x.h c with noShadow := true }

/-- A cell lies in device memory (R214, R259): ATOM_SPACE, with the pad offset of the first active thread (R349). -/
def Ctx.quorumCell (c : Ctx) (x : M) (go : Verdict) : Verdict :=
  match c.lanes x.h.u with
  | [] => .done c.s
  | t :: _ => if x.sp != 0 then .trap Cause.atomSpace c.act (BitVec.ofInt 64 (c.mAddr x t)) 0 else go

/-- The operation on one cell. -/
def Ctx.quorumOp (c : Ctx) (m : Storage) (threads : Word) (va : Nat) (st : Option (Dword × BitVec 128)) (dst : Option Dst) :
    QuorumOp :=
  ⟨c.r, c.la.fe, c.b.launch, c.b.core, c.k.po, threads, c.k.pc, c.k.region, va, st, dst, m.acq, m.rel, m.scope,
    c.k.viewOf (if m.uni then 0xFFFFFFFF else threads), c.s.ns, m.uni, none, [], none, 0, [], .no, false⟩

/-- Issue operations. -/
def State.addQuorums (s : State) (qs : List QuorumOp) : State :=
  qs.foldl (fun s q => let (n, s) := s.name; { s with quorums := s.quorums.put n q }) s

/-- QLD (R259): one operation for each thread. -/
def execQld (x : M) (s : State) : Outcome :=
  word (.qld x) s (qSpec x false) fun c =>
    let m := qStorage x false
    c.quorumCell x <| c.storage m (c.mAddr x) fun ts => c.committed (scope := m.scope) fun s =>
      .done ((s.addQuorums (ts.map fun e =>
        c.quorumOp m (if x.h.u then c.act else bit e.1) e.2 none (some ⟨x.h.u, x.d.toNat, e.1, none⟩))).nextPo c.r)

/-- The payload of a thread: words 0 to 3 (R259). -/
def Ctx.payload (c : Ctx) (x : M) (t : Nat) : BitVec 128 := BitVec.ofNat 128 (numOf (c.storeData x t))

/-- One store for each cell: the highest thread's payload, for all the threads that address it (R224). -/
def cellStores (c : Ctx) (x : M) (ts : List (Nat × Nat)) : List (Nat × Word × BitVec 128) :=
  ((ts.map Prod.snd).eraseDups).map fun va =>
    let mine := ts.filter fun e => e.2 == va
    (va, if x.h.u then c.act else mine.foldl (fun m e => m ||| bit e.1) 0, c.payload x ((mine.getLast?.map Prod.fst).getD 0))

/-- QST (R224, R259): at most four words of a core in one heartbeat tick. -/
def execQst (x : M) (s : State) : Outcome :=
  word (.qst x) s (qSpec x true) fun c =>
    let m := qStorage x true
    c.quorumCell x <| c.storage m (c.mAddr x) fun ts => c.committed (scope := m.scope) fun s =>
      let core := s.core c.b.core
      let seq := if core.qst.1 == s.beat then core.qst.2 else 0
      if 4 ≤ seq then
        .wait .memory (if c.k.why == .memory then s else s.emit c.la.fe c.la.lid Cause.qstDeferred .core c.b.core [])
      else
        let tag := quorumTag s.beat seq c.b.core
        let s := s.setCore c.b.core { core with qst := (s.beat, seq + 1) }
        .done ((s.addQuorums ((cellStores c x ts).map fun e =>
          c.quorumOp m e.2.1 e.1 (some (tag, e.2.2)) none)).nextPo c.r)

/-! ## Answers -/

/-- A majority of the copies (R225). -/
def QuorumOp.majority (q : QuorumOp) : Nat := q.copies.length / 2 + 1

/-- The fault that an operation delivers. -/
def QuorumOp.faultOf (q : QuorumOp) (c : Cause) : HeldFault :=
  ⟨c, q.threads, BitVec.ofNat 64 q.va, q.pc, q.region, false, 0⟩

def State.setQuorum (s : State) (n : Nat) (q : QuorumOp) : State := { s with quorums := s.quorums.put n q }
def State.dropQuorum (s : State) (n : Nat) : State := { s with quorums := s.quorums.drop n }

/-- The threads in whose program order an operation stands (R239). -/
def QuorumOp.mask (q : QuorumOp) : Word := if q.uni then 0xFFFFFFFF else q.threads

/-- The strand and the place in program order of an operation. -/
def QuorumOp.src (q : QuorumOp) : Nat × Nat × Nat := (q.strand.blk, q.strand.sid, q.po)

/-- A QST has completed: the release sequence that its tag heads (R242, R248), and its way to the copies that have not answered (R225). -/
def State.endQst (s : State) (n : Nat) (q : QuorumOp) (tag : Dword) (pa : Nat) : State :=
  let k := (s.strand? q.strand).getD {}
  let heads := (threadsOf q.mask).foldl (fun hs t => addHeads hs ((k.behind t).headsOf (.ofStrand q.strand q.core) q.rel q.scope q.view)) []
  { s with
    tags := ⟨pa, tag, q.src, heads⟩ :: s.tags
    echoes := if q.copies.contains .none then s.echoes.put n q else s.echoes }

/-- A QLD has obtained a tag: it reads from the QST that left it (R244, R248), and an acquire takes in what happens before the releases that the
tag heads (R242). -/
def State.endQld (s : State) (q : QuorumOp) (tag : Dword) (pa : Nat) : State :=
  (s.tags.filter fun e => e.pa = pa && e.tag = tag).foldl (fun s e =>
    s.modStrand q.strand fun k => k.learn q.mask fun z =>
      { z.acquire (.ofStrand q.strand q.core) q.acq q.scope e.heads with src := (e.src :: z.src).eraseDups }) s

/-- The write of step 2 of a QLD is on its way to the copies that answered with a lower tag and have not taken it (R226). -/
def State.endStep2 (s : State) (n : Nat) (q : QuorumOp) (tag : Dword) (pay : BitVec 128) : State :=
  let copies := (List.range q.copies.length).map fun i => match q.copies.getD i .lost with
    | .answered t _ => if t < tag && !q.confirmed.contains i then CopyAnswer.none else .lost
    | _ => .lost
  if copies.contains .none then { s with echoes := s.echoes.put n { q with store := some (tag, pay), dst := none, copies := copies } } else s

/-- Translate an operation (R213, R214): every copy must lie in the partition's channels. -/
def State.translateQuorum (s : State) (n : Nat) (q : QuorumOp) : State × Option QuorumOp :=
  match lookup (s.tlb q.fe) (s.fe q.fe) (if q.store.isSome then .qst else .qld) q.va 16 with
  | .absent =>
    if q.orphan then (s.dropQuorum n, none)
    else
      ((s.refault q.held q.fe q.launch q.core q.va 2 q.strand.sid).setQuorum n { q with held := .held }, none)
  | .fault c => ((s.dropQuorum n).asyncFault q.strand (q.faultOf c), none)
  | .page p =>
    let k := p.attr.copies
    if (List.range k).all fun i => (s.fe q.fe).owns (copyPa p.pa i) 32 then
      let s := if q.store.isSome then { s with mem := setDirty s.mem p } else s
      let q := { q with slot := some (p.pa, k), copies := List.replicate k .none, issued := s.ns, held := .no }
      (s.setQuorum n q, some q)
    else ((s.dropQuorum n).asyncFault q.strand (q.faultOf Cause.xlatePerm), none)

/-- Copies that have answered, and copies not lost. -/
def QuorumOp.answered (q : QuorumOp) : Nat := (q.copies.filter fun a => match a with | .answered _ _ => true | _ => false).length
def QuorumOp.alive (q : QuorumOp) : Nat := (q.copies.filter fun a => a != .lost).length

/-- The greatest tag among the answers, with its payload (R226). -/
def QuorumOp.best (q : QuorumOp) : Option (Dword × BitVec 128) :=
  q.copies.foldl (fun b a => match a, b with
    | .answered t p, some (u, o) => if u < t then some (t, p) else some (u, o)
    | .answered t p, none => some (t, p)
    | _, b => b) none

/-- Whether copy `i` reports a tag at or above `tag`. -/
def QuorumOp.atLeast (q : QuorumOp) (tag : Dword) (i : Nat) : Bool :=
  q.confirmed.contains i || match q.copies.getD i .none with | .answered t _ => tag ≤ t | _ => false

/-- Settle an operation after an answer, a loss or a heartbeat tick (R225, R226, R228). -/
def State.settleQuorum (s : State) (n : Nat) (q : QuorumOp) : State :=
  let done := fun (s : State) =>
    let s := s.dropQuorum n
    if q.copies.contains .lost then s.emit q.fe (s.lidOf q.launch) Cause.quorumDegraded .baseDie ((q.slot.map Prod.fst).getD 0 / 2 ^ 36) [] else s
  if q.slot.isNone then s.setQuorum n q
  else if q.alive < q.majority then (s.dropQuorum n).asyncFault q.strand (q.faultOf Cause.quorumLost)
  else match q.store with
    | some (tag, _) =>
      if q.majority ≤ q.answered && tag.toNat / 4096 < s.beat then (done s).endQst n q tag ((q.slot.map Prod.fst).getD 0) else s.setQuorum n q
    | none =>
      let q := if q.chosen.isNone && q.majority ≤ q.answered then { q with chosen := q.best, again := s.ns } else q
      match q.chosen with
      | none => s.setQuorum n q
      | some (tag, pay) =>
        if q.majority ≤ ((List.range q.copies.length).filter (q.atLeast tag)).length then
          (((done s).endStep2 n q tag pay).endQld q tag ((q.slot.map Prod.fst).getD 0)).writeResult q.strand q.dst (wordsOf (bytesOf 16 pay.toNat)) 0
        else s.setQuorum n q

/-- A copy is lost (R228): its channel is retired, or its read returns an uncorrectable error. -/
def State.copyLost (s : State) (pa : Nat) : Bool :=
  s.retiredChannels.getLsbD (channelOf pa) || s.poison.any fun l => l < pa + 32 && pa < l + 64

/-- Step 2 of a QLD goes to a copy that answered with the tag `t` and has not taken it (R226). -/
def QuorumOp.writesBack (q : QuorumOp) (tag t : Dword) (i : Nat) : Bool := t < tag && !q.confirmed.contains i

/-- A copy has been asked and has not answered for 20,000 ns, in the first or the second step (R226, R228). -/
def QuorumOp.overdue (q : QuorumOp) (i ns : Nat) : Bool :=
  match q.copies.getD i .lost with
  | .none => q.issued + 20000 ≤ ns
  | .answered t _ => match q.chosen with | some (tag, _) => q.writesBack tag t i && q.again + 20000 ≤ ns | none => false
  | .lost => false

/-- One copy answers (R225, R226). -/
def State.answerCopy (s : State) (n : Nat) (q : QuorumOp) (i : Nat) : State :=
  match q.slot with
  | none => s
  | some (pa0, k) =>
    if k ≤ i then s
    else
      let pa := copyPa pa0 i
      let lost := s.copyLost pa
      match q.copies.getD i .lost with
      | .lost => s
      | .none =>
        if lost then s.settleQuorum n { q with copies := q.copies.set i .lost }
        else
          let a := CopyAnswer.answered (slotTag s.mem pa) (slotPayload s.mem pa)
          let s := match q.store with
            | some (tag, pay) => s.sendSlot q.fe pa tag pay
            | none => s.count q.fe 5 32
          s.settleQuorum n { q with copies := q.copies.set i a }
      | .answered t _ =>
        match q.chosen with
        | some (tag, pay) =>
          if q.writesBack tag t i then
            if lost then s.settleQuorum n { q with copies := q.copies.set i .lost }
            else (s.sendSlot q.fe pa tag pay).settleQuorum n { q with confirmed := q.confirmed ++ [i] }
          else s
        | none => s

/-- A QST that has completed, or step 2 of a QLD, reaches a copy that had not answered (R225, R226): the copy's answer is ignored. -/
def State.echo (s : State) (n : Nat) (q : QuorumOp) (i : Nat) : State :=
  match q.slot, q.store with
  | some (pa0, _), some (tag, pay) =>
    if q.copies.getD i .lost != .none then s
    else
      let pa := copyPa pa0 i
      let q := { q with copies := q.copies.set i .lost }
      let s := if s.copyLost pa then s else s.sendSlot q.fe pa tag pay
      { s with echoes := if q.copies.contains .none then s.echoes.put n q else s.echoes.drop n }
  | _, _ => s

/-- Two addresses name one cell, through one page or two (R224). -/
def State.sameCell (s : State) (fe a b : Nat) : Bool :=
  overlaps a 16 b 16 || match walk (s.tlb fe) (s.fe fe) a, walk (s.tlb fe) (s.fe fe) b with
    | .page x, .page y => x.pa == y.pa
    | _, _ => false

/-- An earlier operation of the strand on the same cell (R248): a later one takes a later instant. -/
def State.cellBusy (s : State) (n : Nat) (q : QuorumOp) : Bool :=
  s.quorums.any fun e => e.1 < n && e.2.strand == q.strand && s.sameCell q.fe e.2.va q.va

/-- The stores of one QST word to one cell are one store (R224): it takes the payload of the highest thread, and the threads of all. -/
def State.oneStore (s : State) (n : Nat) (q : QuorumOp) : State × QuorumOp :=
  let mine := fun (e : Nat × QuorumOp) => e.1 != n && e.2.strand == q.strand && e.2.po == q.po && e.2.store.isSome && s.sameCell q.fe e.2.va q.va
  let q := (s.quorums.filter mine).foldl (fun (q : QuorumOp) e =>
    { q with threads := q.threads ||| e.2.threads, view := q.view.join e.2.view, store := if Nat.log2 q.threads.toNat < Nat.log2 e.2.threads.toNat then e.2.store else q.store }) q
  ({ s with quorums := s.quorums.filter fun e => !(mine e) }, q)

/-- QUORUM_ANSWER (R225, R226): copy `i` of an operation answers; a QLD's second answer of a copy takes the write of step 2. -/
def execQuorumAnswer (n i : Nat) (s : State) : Outcome :=
  match s.quorums.get? n with
  | none => .next (match s.echoes.get? n with | some q => s.echo n q i | none => s)
  | some q =>
    if q.held == .held || !s.live q.strand.blk || (q.slot.isNone && s.cellBusy n q) then .next s
    else if q.slot.isNone then
      let (s, q) := if q.store.isSome then s.oneStore n q else (s, q)
      match s.translateQuorum n q with
      | (s, some q) => .next (s.answerCopy n q i)
      | (s, none) => .next s
    else .next (s.answerCopy n q i)

/-- QUORUM_COPY_TIMEOUT (R228): a copy that has not answered within 20,000 ns is lost. DEDUCED (log 17): step 2 of R226 has 20,000 ns of its own. -/
def execQuorumCopyTimeout (n i : Nat) (s : State) : Outcome :=
  match s.quorums.get? n with
  | none => .next s
  | some q =>
    if q.slot.isSome && q.overdue i s.ns then
      .next (s.settleQuorum n { q with copies := q.copies.set i .lost })
    else .next s

/-- QUORUM_SCRUB (R227): the scrubber repairs the lagging copies of one cell by the write rule of R225. -/
def execQuorumScrub (fe va : Nat) (s : State) : Outcome :=
  match lookup (s.tlb fe) (s.fe fe) .qld (va / 16 * 16) 16 with
  | .page p =>
    let pas := (List.range p.attr.copies).map (copyPa p.pa)
    let good := pas.filter fun pa => (s.fe fe).owns pa 32 && !s.copyLost pa
    let best := good.foldl (fun (b : Option Nat) pa => match b with
      | some x => if slotTag s.mem x < slotTag s.mem pa then some pa else some x
      | none => some pa) none
    match best with
    | none => .next s
    | some b =>
      let lag := good.filter fun pa => slotTag s.mem pa < slotTag s.mem b
      if lag.isEmpty then .next s
      else
        let m := lag.foldl (fun m pa => acceptSlot m pa (slotTag s.mem b) (slotPayload s.mem b)) s.mem
        .next ({ s with mem := m }.emit fe 0 Cause.quorumRepair .baseDie (b / 2 ^ 36) [])
  | _ => .next s

end Sys2Proof.Machine
end

