-- ==== Sys2Proof/Machine/Waits.lean ====
section
/-!
DEFINITION. FENCE (R244, R260), WAITA (R261) and CTL.SLEEP (R299), with the events that wake sleeping threads, and the
heartbeat tick (R7).
-/
namespace Sys2Proof.Machine

/-- The Spec of a fence: once for the strand, 1 slot (R260). -/
def fenceSpec (x : F) (_ : Ctx) : Spec := { Spec.ofHdr x.h with slots := some 1, lat := none }

/-- What an acquire fence of the strand waits for (R259, R260): reads that have not returned, and QSTs that have not completed. -/
def State.readsPending (s : State) (r : StrandRef) : Bool :=
  s.accs.any (fun e => e.2.strand == r && e.2.kind.reads) || s.quorums.any fun e => e.2.strand == r

/-- A fence stands in the program order of the threads that are active for it (R242, R260). -/
def Ctx.fenced (c : Ctx) (ord scope : Nat) (s : State) : State :=
  s.modStrand c.r fun k => k.learn c.act fun z => z.fence (.ofStrand c.r c.b.core) (ord != 1) (ord != 0) scope

/-- FENCE (R260): an acquire waits for the reads, a release for every access and for a contained block's buffer. -/
def execFence (ord : Fin 3) (scope : Fin 6) (x : F) (s : State) : Outcome :=
  word (.fence ord scope x) s (fenceSpec x) fun c =>
    if c.act = 0 then .done c.s
    else
      let held := c.s.heldThreads c.r != 0
      let wait := if ord.val = 0 then c.s.readsPending c.r else c.s.unperformed c.r
      if wait || held then .wait (if held then .parked else .memory) c.s
      else if ord.val != 0 && 1 < scope.val then c.committed (fun s => .done (c.fenced ord.val scope.val s)) scope.val
      else .done (c.fenced ord.val scope.val c.s)

/-- FENCE.sc (R244): every earlier access is performed and the buffer committed; then the heartbeat count is exceeded, and what stands before
the observed writes has been performed. -/
def execFenceSc (x : F) (s : State) : Outcome :=
  word (.fenceSc x) s (fenceSpec x) fun c =>
    if c.act = 0 then .done c.s
    else match c.k.wait with
      | .fence beat => if beat < c.s.beat && c.s.observedDone c.k c.act then .done (c.s.fenceSc c.r c.act) else .wait .memory c.s
      | _ =>
        match c.s.orderWait c.r with
        | some why => .wait why c.s
        | none => c.committed fun s => .wait .memory (s.modStrand c.r fun k => { k with wait := .fence s.beat })

/-! ## WAITA -/

/-- WAITA's condition on the word `w` and the comparand `b` (R261). -/
def waitaCond (cond : Nat) (w b : Word) : Bool :=
  match cond with
  | 0 => w == b
  | 1 => w != b
  | 2 => b.ule w
  | 3 => b.ult w
  | 4 => b.sle w
  | _ => b.slt w

/-- Device time at which a word starts. -/
def Ctx.now (c : Ctx) : Nat := max c.s.ns ((c.s.cluster c.b.core).nsAt c.start)

/-- Put threads to sleep. -/
def Strand.sleep (k : Strand) (t : Nat) (z : Sleeper) : Strand :=
  { k with sleepers := k.sleepers.put t z, asleep := k.asleep ||| z.threads }

/-- WAITA (R261): each active thread sleeps until its word is read and satisfies the condition. -/
def execWaita (x : F) (s : State) : Outcome :=
  let te := x.mod.getLsbD 7
  word (.waita x) s (fun c =>
      let src := (x.srcB ++ if te then [x.c] else []).map fun r => (r, 1)
      { (fShape x src [(x.d, 1)] []).spec x.h c with noShadow := true }) fun c =>
    let m := fStorage x 4 false
    let va := ((c.lanes x.h.u).head?.map fun t => BitVec.ofInt 64 (c.fAddr x t)).getD 0
    if c.act != 0 && F.sp x == 3 then .trap Cause.waitaSpace c.act va 0
    else c.storage m (c.fAddr x) fun ts => c.committed (scope := m.scope) fun s =>
      .done ((s.modStrand c.r fun k => ts.foldl (fun k e =>
        k.sleep e.1
          { threads := if x.h.u then c.act else bit e.1
            till := if te then some (c.now + (c.val x.h.u x.c e.1).toNat) else none
            waita := some
              { space := m.space, addr := e.2, cond := x.modN 10 8, b := c.opB x e.1, acq := m.acq, scope := m.scope
                dst := ⟨x.h.u, x.d.toNat, e.1, none⟩, pc := c.k.pc, region := c.k.region } }) k).nextPo c.r)

/-- A sleeper wakes. -/
def Strand.wake (k : Strand) (t : Nat) (z : Sleeper) : Strand :=
  let asleep := k.asleep &&& ~~~z.threads
  { k with sleepers := k.sleepers.drop t, asleep := asleep, why := if asleep = 0 then .issued else k.why }

/-- The read of a WAITA as an access: for ordering against what its strand has pending. -/
def Sleeper.access (z : Sleeper) (w : Waita) (r : StrandRef) (b : Block) (fe : Nat) : Access :=
  ⟨r, fe, b.launch, b.core, 0, z.threads, w.pc, w.region, w.space, w.addr, 4, .load false, some w.dst, w.acq, false, w.scope, w.held, false, {},
    w.dst.uni, 0⟩

/-- A word read by WAITA at `x` of a place: the thread wakes when it satisfies the condition. The read with which it wakes carries its order; an
earlier one is relaxed. -/
def State.waitaValue (s : State) (t : Nat) (z : Sleeper) (w : Waita) (a : Access) (pl : Place) (x : Nat) (buf : List Buffered) : State :=
  let got := s.unitFor a pl x false
  let v : Word := BitVec.ofNat 32 (numOf (overlay buf a.addr got.bytes))
  let ok := waitaCond w.cond v w.b
  let s := s.learned { a with acq := a.acq && ok } a.scope pl x got.from_ false
  if ok then (s.writeResult a.strand (some w.dst) [v] 0).modStrand a.strand fun k => k.wake t z
  else s.modStrand a.strand fun k => { k with sleepers := k.sleepers.put t { z with waita := some { w with last := some v, held := .no, heads := got.from_.flatMap Past.heads } } }

/-- A sleeping thread reads its word (R261). A fault wakes it (R353). -/
def State.waitaRead (s : State) (r : StrandRef) (t : Nat) : State :=
  match s.strand? r, s.block? r.blk with
  | some k, some b =>
    match k.sleepers.get? t with
    | some z =>
      match z.waita with
      | none => s
      | some w =>
        let fe := ((s.launch? b.launch).map Launch.fe).getD 0
        let a := z.access w r b fe
        let fail := fun (s : State) (c : Cause) => (s.modStrand r fun k => k.wake t z).asyncFault r (a.faultOf c)
        if w.held == .held || !s.live r.blk || s.accs.any (fun e => e.2.strand == r && s.meets e.2 a) then s
        else match w.space with
          | .device =>
            match lookup (s.tlb fe) (s.fe fe) .waita w.addr 4 with
            | .absent =>
              (s.refault w.held fe b.launch b.core w.addr 0 r.sid).modStrand r fun k =>
                { k with sleepers := k.sleepers.put t { z with waita := some { w with held := .held } } }
            | .fault c => fail s c
            | .page p =>
              if s.poisoned p 4 then fail s Cause.memPoison
              else
                let (pl, x) := (s.fe fe).place p
                ((s.countMem fe 5 4 p).traffic fe p).waitaValue t z w a pl x (s.buffered r.blk)
          | sp =>
            let pl := padPlace r.blk b.launch b.core sp
            if s.padPoisoned pl w.addr 4 then fail s Cause.eccPad else s.waitaValue t z w a pl w.addr []
    | none => s
  | _, _ => s

/-- WAITA_WAKE_ON_WRITE and WAITA_PERIODIC_READ (R261): the word is read again after a write to its line, and at least every
1,024 ns; a further read is never wrong. -/
def execWaitaWakeOnWrite (r : StrandRef) (t : Nat) (s : State) : Outcome := .next (s.waitaRead r t)
def execWaitaPeriodicRead (r : StrandRef) (t : Nat) (s : State) : Outcome := .next (s.waitaRead r t)

/-- The thread's bound has passed. -/
def Sleeper.due (z : Sleeper) (ns : Nat) : Bool := match z.till with | some t => t ≤ ns | none => false

/-- WAITA_BOUND_EXPIRY (R261): the thread reads once more, so that it misses no write to its line, and wakes with the value last read, whose read
carries the word's order. -/
def execWaitaBoundExpiry (r : StrandRef) (t : Nat) (s : State) : Outcome :=
  let get := fun (s : State) => (s.strand? r).bind fun k => k.sleepers.get? t
  match get s with
  | none => .next s
  | some z =>
    if !z.due s.ns || z.waita.isNone || !s.live r.blk then .next s
    else
      let s := s.waitaRead r t
      match get s with
      | none => .next s
      | some z =>
        match z.waita with
        | none => .next s
        | some w =>
          match w.last with
          | none => .next s
          | some v =>
            let core := ((s.block? r.blk).map Block.core).getD 0
            .next ((s.writeResult r (some w.dst) [v] 0).modStrand r fun k =>
              (k.wake t z).learn (if w.dst.uni then 0xFFFFFFFF else z.threads) fun y => y.join (.ofStrand r core) w.acq w.scope w.heads)

/-! ## CTL.SLEEP -/

/-- CTL.SLEEP (R299): a duration of 0 has no effect. -/
def execCtlSleep (x : F) (s : State) : Outcome :=
  word (.ctlSleep x) s (fun c =>
      { (if x.bi then ({} : Shape) else { regs := { sreg := [x.b] }, reads := [.s x.b.toNat] }).spec x.h c with
        slots := none, lat := none }) fun c =>
    let n := if x.bi then x.b.toNat else (c.rd.sGet x.b.toNat).toNat
    if n = 0 || c.act = 0 then .done c.s
    else if c.b.committing.isSome then .wait .parked c.s
    else c.committed fun s =>
      .done (s.modStrand c.r fun k => k.sleep (firstThread c.act) { threads := c.act, till := some (c.now + n), waita := none })

/-- Threads whose CTL.SLEEP has ended wake (R299). -/
def State.wakeSlept (s : State) (r : StrandRef) : State :=
  s.modStrand r fun k =>
    (k.sleepers.filter fun e => e.2.waita.isNone && e.2.due s.ns).foldl (fun k e => k.wake e.1 e.2) k

/-- SLEEP_EXPIRY (R299). -/
def execSleepExpiry (r : StrandRef) (s : State) : Outcome := .next (s.wakeSlept r)

/-! ## The heartbeat -/

/-- HEARTBEAT_TICK (R7): a multiple of 256 ns that device time has passed, or else the next one, which it reaches; QSTs whose tick has
passed may complete (R225). -/
def execHeartbeatTick (s : State) : Outcome :=
  let t := if s.beatNs + 256 ≤ s.ns then s.ns / 256 * 256 else s.beatNs + 256
  let s := { s with ns := max s.ns t, beatNs := t }
  let s := s.credit
  .next (s.quorums.foldl (fun s e => match s.quorums.get? e.1 with
    | some q => if q.store.isSome then s.settleQuorum e.1 q else s
    | none => s) s)

end Sys2Proof.Machine
end

