-- ==== Sys2Proof/Machine/Barriers.lean ====
section
/-!
DEFINITION. Barriers (R262 to R264): the events that change the counts, the completion of a phase, the overflow, erratum B-15, and
the BAR words.
-/
namespace Sys2Proof.Machine

/-- The range of PEND (R262). -/
def pendMax : Int := 2 ^ 40 - 1

/-- The completion condition (R263). -/
def Barrier.full (b : Barrier) : Bool := b.init && b.acnt == b.aexp && b.pend == 0 && b.src.all fun e => e.pend == 0

/-- A barrier after an event: OVF is set when a count leaves its range (R263). -/
def Barrier.ranged (b : Barrier) : Barrier :=
  { b with ovf := b.ovf || pendMax < b.pend || b.pend < -pendMax || b.src.any fun e => e.pend < 0 }

/-- A posting counts (R263). An engine's arrival that would pass AEXP sets OVF and is not counted. -/
def Barrier.post (b : Barrier) : Post → Barrier
  | .owe _ n => Barrier.ranged { b with pend := b.pend + n }
  | .bytes core n =>
    if b.perSource && b.src.any (fun e => e.core == core) then
      Barrier.ranged { b with src := b.src.map fun e => if e.core == core then { e with pend := e.pend - n } else e }
    else Barrier.ranged { b with pend := b.pend - n }
  | .arrive => if b.acnt + 1 ≤ b.aexp then { b with acnt := b.acnt + 1 } else { b with ovf := true }

/-- Whether the completion condition is tested after a posting: an arrival that is not counted is no event. -/
def Barrier.counts (b : Barrier) : Post → Bool
  | .arrive => b.acnt + 1 ≤ b.aexp
  | _ => true

/-- An expectation from a core that SRC names is ignored (R263). -/
def Barrier.ignores (b : Barrier) (core : Nat) : Bool := b.perSource && b.src.any fun e => e.core == core

/-- The barrier as the next phase begins (R263): under revision 1 the `ended` exited strands have arrived (erratum B-15), with what is behind
them. -/
def Barrier.nextPhase (b : Barrier) (ended : List Strand) : Barrier :=
  { b with phases := b.phases + 1, acnt := min b.aexp ended.length, pend := 0, arrived := []
           src := b.src.map fun e => { e with pend := e.share }
           done := b.view :: b.done, view := ended.foldl (fun v k => v.join (k.viewOf 0xFFFFFFFF)) {} }

/-- What happens before the arrivals of the last phase of number `p` modulo 2^16 that has completed (R242). -/
def Barrier.phaseView (b : Barrier) (p : Nat) : View := b.done.getD ((b.phases + 65535 - p) % 65536) {}

/-- PHASE (R262). -/
def Barrier.phase (b : Barrier) : Nat := b.phases % 2 ^ 16

def Block.bar (b : Block) (n : Nat) : Barrier := b.bars.getD n {}
def State.bar (s : State) (blk n : Nat) : Barrier := ((s.block? blk).map fun b => b.bar n).getD {}
def State.setBar (s : State) (blk n : Nat) (x : Barrier) : State := s.modBlock blk fun b => { b with bars := b.bars.put n x }

/-- The synchronous trap of a strand at the word where it waits (R352). -/
def State.trapWaiting (s : State) (r : StrandRef) (cause : Cause) (act : Word) : State :=
  match s.strand? r with
  | some k => s.enterPriv r { cause := cause, mask := act, resume := k.pc, fpc := k.pc, region := k.region }
  | none => s

/-- Every strand that waits on a barrier traps (R263, R264). -/
def State.trapWaiters (s : State) (blk n : Nat) (cause : Cause) : State :=
  (s.strandsOf blk).foldl (fun s e => match (s.strand? e.1).map Strand.wait with
    | some (.barrier m act _) => if m == n then s.trapWaiting e.1 cause act else s
    | _ => s) s

/-- A strand that waits for a phase leaves its wait when the phase has completed (R264), behind the phase's arrivals (R242). -/
def Strand.freeWaiter (k : Strand) (n phase : Nat) (v : View) : Strand :=
  match k.wait with
  | .barrier m act tok => if m == n && tok != some phase then { k.sync act v with wait := .released } else k
  | _ => k

/-- A block's strands that have ended. -/
def State.endedOf (s : State) (blk : Nat) : List Strand := ((s.strandsOf blk).filter fun e => e.2.ended).map Prod.snd

/-- The phase completes (R263). -/
def State.completePhase (s : State) (blk n : Nat) : State :=
  match s.block? blk, s.launchOf blk with
  | some b, some la =>
    let x := (b.bar n).nextPhase (if la.mmr == 1 then s.endedOf blk else [])
    let s := s.setBar blk n x
    let s := { s with strands := s.strands.map fun (e : StrandRef × Strand) => if e.1.blk == blk then (e.1, e.2.freeWaiter n x.phase (b.bar n).view) else e }
    s.emit la.fe la.lid Cause.barPhase .core b.core []
  | _, _ => s

/-- A barrier after an event: the completion condition is tested, and an overflow traps the waiters (R263). -/
def State.barEvent (s : State) (blk n : Nat) (x : Barrier) (test : Bool) : State :=
  let s := s.setBar blk n x
  let s := if test && x.full then s.completePhase blk n else s
  if x.ovf then s.trapWaiters blk n Cause.barOverflow else s

/-- A posting to a barrier (R263), with what happens before it (R243); one to a barrier that is not set is lost. -/
def State.postBar (s : State) (blk n : Nat) (p : Post) (v : View := {}) : State :=
  let x := s.bar blk n
  let y := { x.post p with view := x.view.join v }
  match p with
  | .owe core _ => if !x.init || x.ignores core then s else s.barEvent blk n y true
  | _ => if !x.init then s else s.barEvent blk n y (x.counts p)

/-- The end of a strand is an arrival at every barrier of its block in which it has not arrived, under revision 1 (R263, B-15): one that never
takes ACNT above AEXP, and an event that tests the condition. -/
def State.endArrivals (s : State) (r : StrandRef) : State :=
  match s.strand? r, s.block? r.blk, s.launchOf r.blk with
  | some k, some b, some la =>
    if la.mmr != 1 then s
    else b.bars.foldl (fun s e =>
      let x := s.bar r.blk e.1
      if x.init && !x.arrived.contains r.sid then
        s.barEvent r.blk e.1
          { x with acnt := if x.acnt < x.aexp then x.acnt + 1 else x.acnt, arrived := r.sid :: x.arrived
                   view := x.view.join (k.viewOf 0xFFFFFFFF) } true
      else s) s
  | _, _, _ => s

/-- Apply the CPX postings that a block holds for a barrier (R286): the operations' postings are now in its new setting. -/
def State.applyHeld (s : State) (blk n : Nat) : State :=
  match s.block? blk with
  | none => s
  | some b =>
    let held := b.heldPosts.filter fun e => e.bar == n
    let s := s.setBlock blk { b with heldPosts := b.heldPosts.filter fun e => e.bar != n }
    let s := { s with ops := s.ops.map fun (e : Nat × EngOp) =>
      if e.2.launch == b.launch then
        (e.1, { e.2 with posts := e.2.posts.map fun p =>
          if p.index == b.index && p.bar == n && p.held then { p with held := false, epoch := (b.bar n).epoch } else p })
      else e }
    held.foldl (fun s e => s.postBar blk n e.post e.view) s

/-! ## BAR words -/

/-- The shape of a BAR word: S operands, and an S result for STAT. -/
def barShape (src : List (BitVec 7)) (dst : List (BitVec 7)) : Shape :=
  { regs := { sreg := src ++ dst }, reads := src.map fun r => .s r.toNat, writes := dst.map fun r => .s r.toNat }

/-- A BAR word: once for the strand when a thread is active (R264). -/
def barWord (i : Instr) (x : F) (g : Shape) (eff : Ctx → Nat → Barrier → Verdict) (s : State) : Outcome :=
  word i s (fun c => { g.spec x.h c with slots := none, lat := none }) fun c =>
    if c.act = 0 then .done c.s else eff c x.a.toNat (c.b.bar x.a.toNat)

/-- The operand of a form that takes a register or an immediate. -/
def Ctx.barArg (c : Ctx) (x : F) : Nat := if x.bi then x.b.toNat else (c.rd.sGet x.b.toNat).toNat

/-- The causes of every form but SET and STAT (R264). -/
def Ctx.barOk (c : Ctx) (b : Barrier) (go : Verdict) : Verdict :=
  if !b.init then c.trapAll Cause.barUninit else if b.ovf then c.trapAll Cause.barOverflow else go

/-- BAR.SET (R264): the waiters on the old state trap; held CPX postings are applied (R286). -/
def execBarSet (x : F) (s : State) : Outcome :=
  barWord (.barSet x) x (barShape x.srcB []) (fun c n b =>
    let v := c.barArg x
    let s := c.s.setBar c.r.blk n
      { init := true, perSource := v.testBit 12, aexp := bitsN v 11 0, epoch := b.epoch + 1 }
    let s := s.trapWaiters c.r.blk n Cause.barUninit
    .done (s.applyHeld c.r.blk n)) s

/-- An arrival of `k` by the strand (R263): one that passes AEXP sets OVF, is not counted and traps its own word. -/
def Ctx.arrive (c : Ctx) (n : Nat) (b : Barrier) (k : Nat) (go : State → Verdict) : Verdict :=
  match c.s.orderWait c.r with
  | some why => .wait why c.s
  | none =>
    if b.aexp < b.acnt + k then
      .trapIn ((c.s.setBar c.r.blk n { b with ovf := true }).trapWaiters c.r.blk n Cause.barOverflow) Cause.barOverflow c.act 0
    else go (c.s.barEvent c.r.blk n
      { b with acnt := b.acnt + k, arrived := c.r.sid :: b.arrived, view := b.view.join (c.k.viewOf c.act) } true)

/-- BAR.MARK (R264). -/
def execBarMark (x : F) (s : State) : Outcome :=
  barWord (.barMark x) x (barShape x.srcB []) (fun c n b =>
    c.barOk b (if c.barArg x = 0 then .done c.s else c.arrive n b (c.barArg x) .done)) s

/-- Wait at a barrier until a phase completes. -/
def Ctx.waitBar (c : Ctx) (n : Nat) (tok : Option Nat) (s : State) : State :=
  s.modStrand c.r fun k => { k with wait := .barrier n c.act tok }

/-- BAR.WAIT (R264): one arrival, then the wait for its phase; at once when the arrival completed it. -/
def execBarWait (x : F) (s : State) : Outcome :=
  barWord (.barWait x) x (barShape [] []) (fun c n b =>
    match c.k.wait with
    | .released => .done c.s
    | .barrier _ _ _ => .wait .barrier c.s
    | _ => c.barOk b (c.arrive n b 1 fun s =>
        let x := s.bar c.r.blk n
        if x.phases = b.phases then .wait .barrier (c.waitBar n none s)
        else .done (s.modStrand c.r fun k => k.sync c.act (x.phaseView b.phase)))) s

/-- BAR.WAIT with a phase (R264): no arrival; waits until PHASE differs. -/
def execBarWaitPhase (x : F) (s : State) : Outcome :=
  barWord (.barWaitPhase x) x (barShape [x.b] []) (fun c n b =>
    let tok := (c.rd.sGet x.b.toNat).toNat % 2 ^ 16
    match c.k.wait with
    | .released => .done c.s
    | .barrier _ _ _ => .wait .barrier c.s
    | _ => c.barOk b (if b.phase = tok then .wait .barrier (c.waitBar n (some tok) c.s)
        else .done (c.s.modStrand c.r fun k => k.sync c.act (b.phaseView tok)))) s

/-- BAR.OWE (R264): a byte expectation of the strand's core; one from a core that SRC names is ignored (R263). -/
def execBarOwe (x : F) (s : State) : Outcome :=
  barWord (.barOwe x) x (barShape x.srcB []) (fun c n b =>
    c.barOk b (.done (c.s.postBar c.r.blk n (.owe c.b.core (c.barArg x))))) s

/-- The status word of BAR.STAT (R264); an uninitialised barrier reads as zero. -/
def Barrier.status (b : Barrier) : Word :=
  if b.init then
    BitVec.ofNat 32 ((if b.ovf then 2 ^ 31 else 0) + 2 ^ 30 + (if b.perSource then 2 ^ 29 else 0) + b.acnt % 2 ^ 12 * 2 ^ 16 + b.phase)
  else 0

/-- BAR.STAT (R264). -/
def execBarStat (x : F) (s : State) : Outcome :=
  barWord (.barStat x) x (barShape [] [x.d]) (fun c _ b =>
    .done (c.s.setStrand c.r (c.k.setS x.d.toNat b.status))) s

/-- BAR.SHARE (R264): adds or replaces a core's entry; a 19th entry is refused. -/
def execBarShare (x : F) (s : State) : Outcome :=
  barWord (.barShare x) x (barShape [x.b, x.c] []) (fun c n b =>
    let core := (c.rd.sGet x.b.toNat).toNat % 1024
    let share : Int := ((c.rd.sGet x.c.toNat).toNat : Int)
    if !b.init || !b.perSource then c.trapAll Cause.barUninit
    else if b.ovf then c.trapAll Cause.barOverflow
    else if b.src.any fun e => e.core == core then
      .done (c.s.setBar c.r.blk n { b with src := b.src.map fun e => if e.core == core then ⟨core, share, share⟩ else e })
    else if 18 ≤ b.src.length then c.trapAll Cause.barOverflow
    else .done (c.s.setBar c.r.blk n { b with src := b.src ++ [⟨core, share, share⟩] })) s

end Sys2Proof.Machine
end

