-- ==== Sys2Proof/Machine/Handles.lean ====
section
/-!
DEFINITION. Operation records and handles (R268 to R270): tokens, taking and freeing a record, the handle forms of MOV (R123), and
HND.WAIT, HND.TEST and HND.MOVE.
-/
namespace Sys2Proof.Machine

/-- The token of a record (R268). -/
def token (gen : Half) (slot n : Nat) : Word := gen ++ (BitVec.ofNat 16 (slot % 16 * 2 ^ 12 + n % 512))

/-- A token's record, slot and generation. -/
def tokRec (t : Word) : Nat := t.toNat % 512
def tokSlot (t : Word) : Nat := bitsN t.toNat 15 12
def tokGen (t : Word) : Half := t.extractLsb' 16 16

def Core.record (c : Core) (n : Nat) : HandleRec := c.recs.getD n {}
def State.setRec (s : State) (core n : Nat) (x : HandleRec) : State :=
  s.setCore core { s.core core with recs := (s.core core).recs.put n x }

/-- The record that a token names for a block (R268); none: stale. -/
def State.liveRec (s : State) (b : Block) (blk : Nat) (t : Word) : Option (Nat × HandleRec) :=
  let n := tokRec t
  let x := (s.core b.core).record n
  if bitsN t.toNat 11 9 = 0 && tokSlot t = b.slot && x.busy && x.blk = blk && x.gen = tokGen t then some (n, x) else none

/-- Whether a handle register of the block names a record (R268). -/
def State.named (s : State) (b : Block) (blk n : Nat) (x : HandleRec) : Bool :=
  (s.strandsOf blk).any fun e => !e.2.ended && (List.range 8).any fun h => e.2.hGet h == some (token x.gen b.slot n)

/-- Free a record: its generation rises (R268). -/
def HandleRec.freed (x : HandleRec) : HandleRec := { gen := x.gen + 1 }

/-- Free the records of a block whose operations have completed and that no handle register names (R268). -/
def State.sweep (s : State) (blk : Nat) : State :=
  match s.block? blk with
  | none => s
  | some b =>
    s.setCore b.core { s.core b.core with
      recs := (s.core b.core).recs.map fun e =>
        if e.2.busy && e.2.blk == blk && e.2.status.isSome && !(s.named b blk e.1 e.2) then (e.1, e.2.freed) else e }

/-- The lowest-numbered free record of a core (R268). -/
def Core.freeRec (c : Core) : Option Nat := (List.range 512).find? fun n => !(c.record n).busy

/-- Write a handle register: the name it held is dropped (R268). -/
def State.writeH (s : State) (r : StrandRef) (h : Nat) (t : Option Word) : State :=
  (s.modStrand r fun k => k.setH h t).sweep r.blk

/-- Read a handle (R268): unused, stale, or a live record. -/
def Ctx.handle (c : Ctx) (a : Nat) (go : Nat → HandleRec → Verdict) : Verdict :=
  match c.rd.hGet a with
  | none => c.trapAll Cause.handleUnused
  | some t =>
    match c.s.liveRec c.b c.r.blk t with
    | none => c.trapAll Cause.handleStale
    | some (n, x) => go n x

/-- A word over handles: once for the strand when a thread is active. -/
def handleWord (i : Instr) (h : Hdr) (g : Shape) (slots : Option Nat) (eff : Ctx → Verdict) (s : State) : Outcome :=
  word i s (fun c => { g.spec h c with slots := slots, lat := none }) fun c => if c.act = 0 then .done c.s else eff c

/-- MOV V←H (R123): waits for the operation and reads its status word. -/
def execMovHandleStatus (x : F) (s : State) : Outcome :=
  handleWord (.movHandleStatus x) x.h { regs := { vec := [x.d] }, dst := [x.d.toNat] } (some 1) (fun c =>
    c.handle x.a.toNat fun _ e => match e.status with
      | none => .wait .handle c.s
      | some w => .done (c.s.setStrand c.r
          ((c.lanes x.h.u).foldl (fun k t => k.put c.la x.h.u t (x.d.toNat, Fp.Jet.flat w)) (c.k.sync c.act e.view)))) s

/-- MOV S←H (R123): the token. -/
def execMovHandleToken (x : F) (s : State) : Outcome :=
  handleWord (.movHandleToken x) x.h { regs := { sreg := [x.d] }, writes := [.s x.d.toNat] } none (fun c =>
    c.handle x.a.toNat fun n e => .done (c.s.setStrand c.r (c.k.setS x.d.toNat (token e.gen c.b.slot n)))) s

/-- MOV H←S (R123): any token, unchecked. -/
def execMovTokenHandle (x : F) (s : State) : Outcome :=
  handleWord (.movTokenHandle x) x.h { regs := { sreg := [x.a] }, reads := [.s x.a.toNat], writes := [.h x.d.toNat] } none (fun c =>
    .done (c.s.writeH c.r x.d.toNat (some (c.rd.sGet x.a.toNat)))) s

/-- HND.WAIT (R270). -/
def execHndWait (x : F) (s : State) : Outcome :=
  handleWord (.hndWait x) x.h {} none (fun c =>
    c.handle x.a.toNat fun _ e =>
      if e.status.isSome then .done (c.s.modStrand c.r fun k => k.sync c.act e.view) else .wait .handle c.s) s

/-- HND.TEST (R270). -/
def execHndTest (x : F) (s : State) : Outcome :=
  handleWord (.hndTest x) x.h { regs := { sreg := [x.d] }, writes := [.s x.d.toNat] } none (fun c =>
    c.handle x.a.toNat fun _ e => .done (c.s.setStrand c.r
      ((if e.status.isSome then c.k.sync c.act e.view else c.k).setS x.d.toNat (e.status.getD 0xFFFFFFFF)))) s

/-- HND.MOVE (R270): the name moves; with d = a it has no effect. -/
def execHndMove (x : F) (s : State) : Outcome :=
  handleWord (.hndMove x) x.h {} none (fun c =>
    c.handle x.a.toNat fun _ _ =>
      if x.d = x.a then .done c.s
      else .done ((c.s.modStrand c.r fun k => (k.setH x.d.toNat (k.hGet x.a.toNat)).setH x.a.toNat none).sweep c.r.blk)) s

end Sys2Proof.Machine
end

