-- ==== Sys2Proof/Machine/Queues.lean ====
section
/-!
DEFINITION. Queues (R266, R267): the queue forms of MOV (R123), QCFG, and the detection of a block stalled on its queues (R320).
-/
namespace Sys2Proof.Machine

/-- The strand waits at a queue. -/
def Ctx.waitQueue (c : Ctx) (n : Nat) (push : Bool) : Verdict :=
  let s := c.s.modStrand c.r fun k => { k with wait := .queue n push c.act }
  .wait (if push then .queueFull else .queueEmpty) (s.noteStalls c.b.core)

/-- Replace a queue of the block, after a push, a pop or QCFG in cycle `t`. -/
def State.setQueue (s : State) (blk n : Nat) (q : Queue) (t : Nat) : State :=
  s.modBlock blk fun b => { b with queues := b.queues.put n { q with changed := t, before := (b.queue n).wasAt t } }

/-- The entry that a push appends (R266). -/
def Ctx.entry (c : Ctx) (a : BitVec 7) : List Word :=
  (List.range 32).map fun t => if c.act.getLsbD t then c.rd.vGet a.toNat t else 0

/-- MOV V←Q (R123, R266): pops the oldest entry. -/
def execMovQueuePop (x : F) (s : State) : Outcome :=
  word (.movQueuePop x) s
    (fun c => { ({ regs := { vec := [x.d], noU := true }, dst := [x.d.toNat] } : Shape).spec x.h c with lat := none }) fun c =>
      let n := x.a.toNat
      let q := c.b.queue n
      if c.act = 0 then .done c.s
      else if q.depth = 0 then c.trapAll Cause.queueUnconfigured
      else match q.entries with
        | [] => c.waitQueue n false
        | e :: es =>
          let k := (c.k.sync c.act (q.views.headD {}))
          let k := (threadsOf c.act).foldl (fun k t => k.put c.la false t (x.d.toNat, Fp.Jet.flat (e.getD t 0))) k
          let s := (c.s.setStrand c.r { k with wait := .none }).setQueue c.r.blk n { q with entries := es, views := q.views.tail } c.start
          .done (s.noteStalls c.b.core (some c.r.blk))

/-- MOV Q←V (R123, R266): pushes one entry, a release at block scope. -/
def execMovQueuePush (x : F) (s : State) : Outcome :=
  word (.movQueuePush x) s
    (fun c => { ({ regs := { vec := [x.a], noU := true }, src := [x.a] } : Shape).spec x.h c with lat := none }) fun c =>
      let n := x.d.toNat
      let q := c.b.queue n
      if c.act = 0 then .done c.s
      else if q.depth = 0 then c.trapAll Cause.queueUnconfigured
      else if c.s.pushBlocked c.b n then c.waitQueue n true
      else match c.s.orderWait c.r with
        | some why => .wait why (c.s.setStrand c.r { c.k with wait := .none })
        | none =>
          let q := { q with entries := q.entries ++ [c.entry x.a], views := q.views ++ [c.k.viewOf c.act] }
          let s := (c.s.setStrand c.r { c.k with wait := .none }).setQueue c.r.blk n q c.start
          .done (s.noteStalls c.b.core (some c.r.blk))

/-- The configuration of QCFG's word (R267). -/
def queueOf (w : Word) : Queue :=
  { depth := min 64 (bitsN w.toNat 6 0), pstg := bitsN w.toNat 9 8, cstg := bitsN w.toNat 11 10, stg := w.getLsbD 12, entries := [] }

/-- QCFG (R267): with depth 0 every strand that waits on the queue traps. -/
def execQcfg (x : F) (s : State) : Outcome :=
  word (.qcfg x) s
    (fun c => { ({ regs := { sreg := [x.a] }, reads := [.s x.a.toNat] } : Shape).spec x.h c with slots := none, lat := none }) fun c =>
      if c.act = 0 then .done c.s
      else
        let n := x.d.toNat
        let q := queueOf (c.rd.sGet x.a.toNat)
        let s := c.s.setQueue c.r.blk n q c.start
        let s := if q.depth != 0 then s
          else (s.strandsOf c.r.blk).foldl (fun s e => match e.2.wait with
            | .queue m _ act => if m = n then s.trapWaiting e.1 Cause.queueUnconfigured act else s
            | _ => s) s
        .done (s.noteStalls c.b.core (some c.r.blk))

/-- The queues on which strands of a block wait, as a mask (R320). -/
def State.queueMask (s : State) (blk : Nat) : Nat :=
  (List.range 8).foldl (fun m n => if (s.strandsOf blk).any fun e => match e.2.wait with | .queue q _ _ => q = n | _ => false
    then m + 2 ^ n else m) 0

/-- Cycles for which a block has been queue-stalled. -/
def State.stallCount (s : State) (b : Block) : Nat := match b.qstall with | some c => s.clock b.core - c | none => 0

/-- QUEUE_STALLED (R320): one event when the count has reached 2^16. -/
def execQueueStalled (blk : Nat) (s : State) : Outcome :=
  match s.block? blk, s.launchOf blk with
  | some b, some la =>
    if s.queueStalled blk b && 2 ^ 16 ≤ s.stallCount b && !b.qreported then
      .next ((s.setBlock blk { b with qreported := true }).emit la.fe la.lid Cause.queueStalled .core b.core
        (bytesOf 4 b.index ++ bytesOf 1 b.slot ++ bytesOf 1 (s.queueMask blk)))
    else .next s
  | _, _ => .next s

/-- QUEUE_DEADLOCK (R320): every waiting strand traps at its push or pop when the count has reached 2^20. -/
def execQueueDeadlock (blk : Nat) (s : State) : Outcome :=
  match s.block? blk with
  | some b =>
    if s.queueStalled blk b && 2 ^ 20 ≤ s.stallCount b then
      let s := (s.strandsOf blk).foldl (fun s e => match e.2.wait with
        | .queue _ _ act => s.trapWaiting e.1 Cause.queueDeadlock act
        | _ => s) s
      .next (s.noteStalls b.core (some blk))
    else .next s
  | none => .next s

end Sys2Proof.Machine
end

