-- ==== Sys2Proof/Machine/Engines.lean ====
section
/-!
DEFINITION. What every engine operation shares: its members and operands (R181, R182, R192, R272), its accesses and faults (R278),
its postings to barriers (R273, R286), and its completion (R193, R269).
-/
namespace Sys2Proof.Machine

/-- Whether an operation is a Shuttle copy or an array operation. -/
def EngKind.copy : EngKind → Bool
  | .cpl | .cps | .cpm | .cpq | .cpx | .cpr => true
  | _ => false

/-- The sizes of the two operand groups (R195 to R203, R281 to R287). -/
def EngKind.groups : EngKind → Nat × Nat
  | .cpl | .cps | .cpq => (6, 3)
  | .cpm => (4, 3)
  | .cpx => (7, 3)
  | .cpr => (6, 0)
  | .mxb => (4, 0)
  | .mxsq => (3, 1)
  | .mma | .mxd => (3, 2)
  | .guide => (3, 3)
  | .clear | .pair => (0, 1)
  | .mxsw | .unpair => (0, 0)

/-- The S registers that a word reads. -/
def engRegs (k : EngKind) (w : E) : List Nat :=
  (List.range k.groups.1).map (w.sa.toNat + ·) ++ (List.range k.groups.2).map (w.sb.toNat + ·)
    ++ if w.fe then (List.range 3).map (w.sc.toNat + ·) else []

/-- REG_RANGE of a word: a group that runs past S63, an odd flag group, an odd group of CPR (R192, R272, R287). -/
def engRange (k : EngKind) (w : E) : Bool :=
  (engRegs k w).any (64 ≤ ·) || (w.fe && w.sc.getLsbD 0) || (k == .cpr && w.sa.getLsbD 0)

/-- The operands of a word, read from a strand. -/
def Strand.engWord (k : Strand) (kind : EngKind) (w : E) (fn : Nat) : EngWord :=
  let group := fun (r n : Nat) => (List.range n).map fun i => k.sGet (r + i)
  { w := w, fn := fn, sa := group w.sa.toNat kind.groups.1, sb := group w.sb.toNat kind.groups.2
    flag := if w.fe then group w.sc.toNat 3 else [] }

def State.op? (s : State) (n : Nat) : Option EngOp := s.ops.get? n
def State.setOp (s : State) (n : Nat) (o : EngOp) : State := { s with ops := s.ops.put n o }
def State.modOp (s : State) (n : Nat) (f : EngOp → EngOp) : State := { s with ops := s.ops.mod n f }
def State.dropOp (s : State) (n : Nat) : State := { s with ops := s.ops.drop n }

/-- The arrival with the lowest sid (R182). -/
def lowestSid : List Arrival → Option Arrival
  | [] => none
  | a :: l => match lowestSid l with
    | none => some a
    | some b => some (if b.sid < a.sid then b else a)

/-- A word of zeros, for an operation without arrivals. -/
def EngWord.zero : EngWord := ⟨⟨0, 0, false, 0, 0, 0, 0, false, false, 0⟩, 0, [], [], []⟩

/-- The member whose completion operands are used (R182, R274). DESIGN CHOICE (log 24): those of MXD and MXD.guide, which R182 does not list, come from the
member with the lowest sid too. -/
def EngOp.lead (o : EngOp) : EngWord := ((lowestSid o.arr).map Arrival.word).getD EngWord.zero

/-- Current members of an operation's group (R181, R274). -/
def State.members (s : State) (o : EngOp) : List Nat :=
  let live := (s.strandsOf o.blk).filter fun e => !e.2.ended
  if o.bk then live.map fun e => e.1.sid
  else match o.skein with
    | some k => (live.filter fun e => e.2.skein == some k).map fun e => e.1.sid
    | none => o.arr.map Arrival.sid

/-- Every current member has arrived. -/
def State.gathered (s : State) (o : EngOp) : Bool :=
  !o.arr.isEmpty && (s.members o).all fun i => o.arr.any fun a => a.sid == i

/-- The words of an operation in which the members that have arrived wait. -/
def State.setWaits (s : State) (n : Nat) (o : EngOp) (f : Strand → Strand) : State :=
  o.arr.foldl (fun s a => s.modStrand ⟨o.blk, a.sid⟩ fun k => if k.wait == .op n then f k else k) s

/-- The members pass the word (R194, R274). -/
def State.passMembers (s : State) (n : Nat) (o : EngOp) : State := s.setWaits n o fun k => { k with wait := .started n }

/-- The status word (R269). -/
def EngOp.status (o : EngOp) : Word :=
  BitVec.ofNat 32 (o.cause.toNat * 2 ^ 24 + (if o.discard then 4 else 0) + (if o.fallback then 2 else 0) + (if o.cancelled then 1 else 0))

/-- Complete a record: its status stands, with what happens before it (R243), and the record is freed when no handle names it (R268, R269). -/
def State.closeRec (s : State) (o : EngOp) : State :=
  match o.record with
  | none => s
  | some n => (s.setRec o.core n { (s.core o.core).record n with status := some o.status, view := o.view }).sweep o.blk

/-- Every arrived member traps at its own word, whose fold is withdrawn (R52), and the operation has no effect (R181, R194, R274). A member
that has moved on, as behind a CPL.fo, is told as of an engine fault, and the record that such an operation holds completes with the
cause (log 15). -/
def State.trapMembers (s : State) (n : Nat) (o : EngOp) (c : Cause) (va : Dword := 0) : State :=
  let s := (s.dropOp n).closeRec { o with cause := c }
  o.arr.foldl (fun s a =>
    let r : StrandRef := ⟨o.blk, a.sid⟩
    match s.strand? r with
    | none => s
    | some k =>
      if k.wait == .op n then
        (s.setStrand r { k with sig := a.sig }).enterPriv r { cause := c, mask := a.mask, resume := k.pc, fpc := k.pc, va := va, region := k.region }
      else s.asyncFault r ⟨c, a.mask, va, a.pc, a.region, true, 0⟩) s

/-! ## Accesses -/

/-- How an engine's access ends. -/
inductive Reached (α : Type) where
  | absent
  | fault (c : Cause)
  | ok (x : α)
  deriving DecidableEq, Repr

/-- What is behind an operation, changed (R243). -/
def State.opView (s : State) (n : Nat) (v : View) : State := s.modOp n fun o => { o with view := v }

/-- Read bytes of device memory for an engine of a block that has `v` behind it, in units of `g` bytes, through a contained block's buffer (R231,
R235, R278). -/
def State.engRead (s : State) (fe blk : Nat) (v : View) (g va len : Nat) : Reached Ran :=
  match lookup (s.tlb fe) (s.fe fe) .engRead va len with
  | .absent => .absent
  | .fault c => .fault c
  | .page p =>
    if s.poisoned p len then .fault Cause.memPoison
    else if s.bufPoisoned blk va len then .fault Cause.eccStorebuf
    else
      let (pl, a) := (s.fe fe).place p
      let r := s.readRunAs pl v g a len s.fresh
      .ok { r with bytes := overlay (s.buffered blk) va r.bytes }

/-- Read for an operation. -/
def State.opRead (s : State) (o : EngOp) (g va len : Nat) : Reached Ran := s.engRead o.fe o.blk o.view g va len

/-- The newest bytes of a run, as an atomic update of an operation reads them (R248), with the writes they come from. -/
def State.opNewest (s : State) (o : EngOp) (va len : Nat) : Reached Got :=
  match lookup (s.tlb o.fe) (s.fe o.fe) .engWrite va len with
  | .absent => .absent
  | .fault c => .fault c
  | .page p =>
    if s.poisoned p len then .fault Cause.memPoison
    else let (pl, a) := (s.fe o.fe).place p; .ok (s.readNewest pl a len)

/-- Count what has been read of device memory at a VA (R382). -/
def State.countAt (s : State) (fe va len : Nat) : State :=
  match walk (s.tlb fe) (s.fe fe) va with
  | .page p => (s.countMem fe 5 len p).traffic fe p
  | _ => s

/-- Count what an operation has read of device memory. -/
def State.countRead (s : State) (o : EngOp) (va len : Nat) : State := s.countAt o.fe va len

/-- Write the bits of a mask in bytes of device memory, in units of `g` bytes (R235, R276, R278): one indivisible read-modify-write. -/
def State.engWrite (s : State) (n : Nat) (o : EngOp) (g va : Nat) (bs masks : List Byte) (heads : List Head := []) : Reached State :=
  match lookup (s.tlb o.fe) (s.fe o.fe) .engWrite va bs.length with
  | .absent => .absent
  | .fault c => .fault c
  | .page p =>
    let old := s.readPage (s.fe o.fe) p bs.length
    let new := (List.range bs.length).map fun i => mergeByte (old.getD i 0) (bs.getD i 0) (masks.getD i 0)
    -- an access to a HOSTWIN page is performed at system scope (R215)
    let heads := if p.attr == .hostwin then heads.map fun h => { h with scope := 5 } else heads
    let s := s.writePage (s.fe o.fe) p new { heads := heads, grain := g, before := o.view } fun i => masks.getD i 0 != 0
    .ok (((s.modOp n fun o => { o with view := o.view.wrote s }).countMem o.fe 6 bs.length p).traffic o.fe p)

/-- Read bytes of a pad for an operation (R208, R235). -/
def State.opPadRead (s : State) (o : EngOp) (sp : Space) (g a len : Nat) : Reached Ran :=
  let pl := padPlace o.blk o.launch o.core sp
  if s.padPoisoned pl a len then .fault Cause.eccPad else .ok (s.readRunAs pl o.view g a len s.fresh)

/-- A tile as an operation has read it: the pad with the tile's bytes, the operation's view after it, and the first byte of the tile with an
uncorrectable error. -/
structure Tile where
  pad  : Memory
  view : View
  bad  : Option Nat
  deriving DecidableEq, Repr

/-- The first byte of a tile with an uncorrectable error, and the pad as the tile reads: such bytes read zero (R278). -/
def State.tileOf (s : State) (pl : Place) (offs : List Nat) (m : Memory) (v : View) : Tile :=
  let bad := if s.padBad.isEmpty then [] else offs.filter fun a => s.padPoisoned pl a 1
  ⟨bad.foldl (fun m a => m.put a [0]) m, v, bad.head?⟩

/-- Read the tile of an operation whose bytes lie at the pad offsets `offs`, in units of `g` bytes (R208, R235). -/
def State.opTile (s : State) (o : EngOp) (sp : Space) (g : Nat) (offs : List Nat) : Tile :=
  let pl := padPlace o.blk o.launch o.core sp
  let (m, v) := s.memAs pl o.view g s.fresh fun u => offs.any fun a => u ≤ a && a < u + g
  s.tileOf pl offs m v

/-- Write the bits of a mask in bytes of a pad. -/
def State.opPadWrite (s : State) (n : Nat) (pl : Place) (g a : Nat) (bs masks : List Byte) (heads : List Head := []) : State :=
  let m := s.memAt pl
  let new := (List.range bs.length).map fun i => mergeByte (m.get (a + i)) (bs.getD i 0) (masks.getD i 0)
  let before := ((s.op? n).map EngOp.view).getD {}
  let s := s.write pl a new { heads := heads, grain := g, before := before } fun i => masks.getD i 0 != 0
  s.modOp n fun o => { o with view := o.view.wrote s }

/-- A cause that an operation meets (R278): the first stands in its status, and each is delivered once, to the first arrived
member. -/
def State.opFault (s : State) (n : Nat) (c : Cause) (va : Nat) : State :=
  match s.op? n with
  | none => s
  | some o =>
    if o.causes.contains c then s
    else
      let s := s.setOp n { o with causes := c :: o.causes, cause := if o.cause = 0 then c else o.cause }
      match o.arr with
      | [] => s
      | a :: _ => s.asyncFault ⟨o.blk, a.sid⟩ ⟨c, a.mask, BitVec.ofNat 64 va, a.pc, a.region, true, 0⟩

/-- An uncorrectable error abandons an array operation, which is executed again from its start (R170): it is delivered, and stands in no
status. -/
def State.opError (s : State) (o : EngOp) (c : Cause) (va : Nat) : State :=
  match o.arr with
  | [] => s
  | a :: _ => s.asyncFault ⟨o.blk, a.sid⟩ ⟨c, a.mask, BitVec.ofNat 64 va, a.pc, a.region, true, 0⟩

/-- An operation meets a page that is not present: it is held and reported (R219, R220, R278). -/
def State.holdOp (s : State) (n : Nat) (va : Nat) (write : Bool) : State :=
  match s.op? n with
  | none => s
  | some o =>
    let h := if o.heldVa / 65536 = va / 65536 then o.held else .no
    let s := s.refault h o.fe o.launch o.core va (if write then 5 else 4) ((o.arr.head?.map Arrival.sid).getD 0)
    s.modOp n fun o => { o with held := .held, heldVa := va }

/-- An operation may act: it is not held and its block runs. -/
def State.opLive (s : State) (o : EngOp) : Bool := o.held != .held && s.live o.blk

/-! ## Postings -/

/-- The block of a launch with an index, on the same side of a screened pair. -/
def State.blockAt (s : State) (launch index : Nat) (shadow : Bool) : Option (Nat × Block) :=
  s.blocks.find? fun e => e.2.launch == launch && e.2.index == index && e.2.shadow == shadow

def EngOp.shadow (o : EngOp) (s : State) : Bool := ((s.block? o.blk).map Block.shadow).getD false

/-- Post to the barrier of a receiving block (R273, R286): held while the barrier is not set or the block not dispatched, and
lost once the block has retired. True when it is held. -/
def State.postTo (s : State) (n : Nat) (o : EngOp) (index bar : Nat) (p : Post) : State × Bool :=
  match s.blockAt o.launch index (o.shadow s) with
  | some (blk, b) =>
    if (b.bar bar).init then (s.postBar blk bar p o.view, false)
    else (s.setBlock blk { b with heldPosts := b.heldPosts ++ [⟨bar, n, p, o.view⟩] }, true)
  | none =>
    match (s.launch? o.launch).bind fun l => l.staging.get? index with
    | some _ => (s.modLaunch o.launch fun l => { l with staging := l.staging.mod index fun z => { z with posts := z.posts ++ [⟨bar, n, p, o.view⟩] } }, true)
    | none => (s, false)

/-- The current setting of a receiving block's barrier. -/
def State.epochAt (s : State) (o : EngOp) (index bar : Nat) : Nat :=
  ((s.blockAt o.launch index (o.shadow s)).map fun e => (e.2.bar bar).epoch).getD 0

/-- Post a byte expectation (R273 step 1). -/
def State.postOwe (s : State) (n index bar bytes : Nat) : State :=
  match s.op? n with
  | none => s
  | some o =>
    let (s, held) := s.postTo n o index bar (.owe o.core bytes)
    s.modOp n fun o => { o with posts := o.posts ++ [⟨index, bar, s.epochAt o index bar, held, bytes, 0⟩] }

/-- Post bytes as received at every receiver named in `is`, or at every one (R273 step 2). -/
def State.postBytes (s : State) (n bytes : Nat) (ok : OpPost → Bool := fun _ => true) : State :=
  match s.op? n with
  | none => s
  | some o => (o.posts.filter ok).foldl (fun s p =>
      let s := (s.postTo n o p.index p.bar (.bytes o.core bytes)).1
      s.modOp n fun o => { o with posts := o.posts.map fun q =>
        if q.index == p.index && q.bar == p.bar then { q with got := q.got + bytes } else q }) s

/-- Take an operation's outstanding postings back from a barrier: `owed` leaves PEND and `got` returns to it (R270, R280); a barrier
set again since is left alone. -/
def State.unpost (s : State) (n : Nat) (o : EngOp) (p : OpPost) (owed got : Nat) : State :=
  match s.blockAt o.launch p.index (o.shadow s) with
  | none => s.modLaunch o.launch fun l => { l with staging := l.staging.mod p.index fun z =>
      { z with posts := z.posts.filter fun h => !(h.op == n && h.bar == p.bar) } }
  | some (blk, b) =>
    if p.held then s.setBlock blk { b with heldPosts := b.heldPosts.filter fun h => !(h.op == n && h.bar == p.bar) }
    else
      let x := b.bar p.bar
      if x.epoch != p.epoch || !x.init then s
      else if x.ignores o.core then
        s.setBar blk p.bar { x with src := x.src.map fun e => if e.core == o.core then { e with pend := e.pend + got } else e }
      else s.setBar blk p.bar { x with pend := x.pend - owed + got }

/-! ## Completion -/

/-- Post an operation's completion to its handle and barriers (R193, R273), and drop it. -/
def State.postDone (s : State) (n : Nat) : State :=
  match s.op? n with
  | none => s
  | some o =>
    let s := (s.dropOp n).closeRec o
    if o.posts.isEmpty then
      (if o.lead.w.be && !o.kind.copy then s.postBar o.blk o.lead.w.bn.toNat .arrive o.view else s)
    else o.posts.foldl (fun s p => (s.postTo n o p.index p.bar .arrive).1) s

/-- The flag word's space and address (R193). -/
def EngWord.flagSpace (w : EngWord) : Space := spaceOf w.w.fsp
def EngWord.flagAddr (w : EngWord) : Nat :=
  if w.w.fsp = 0 then (w.flag.getD 1 0 ++ w.flag.getD 0 0 : Dword).toNat else (w.flag.getD 0 0).toNat

/-- The first arrived member as the cause of a commit. -/
def EngOp.commitBy (o : EngOp) : Option CommitBy :=
  o.arr.head?.map fun a => ⟨⟨o.blk, a.sid⟩, a.pc, a.mask, a.region, 4⟩

/-- Commit a contained block's buffer before an engine acts (R232); it does not act while the commit is held. -/
def State.engCommit (s : State) (o : EngOp) : State × Bool :=
  match s.launch? o.launch with
  | none => (s, true)
  | some la =>
    if !la.contained then (s, true)
    else
      let s := s.commit o.blk o.commitBy
      (s, ((s.block? o.blk).map fun b => b.committing.isNone && b.buf.isEmpty).getD false)

/-- The release that a flag store is (R193): its scope follows its space. -/
def EngOp.flagHead (o : EngOp) : List Head :=
  [⟨match o.lead.flagSpace with | .device => 4 | .core => 1 | .cluster => 2 | .die => 3, .ofEngine o.blk o.core, o.view⟩]

/-- The flag word of an operation whose effects are done (R193), and whether it is behind the operation: not while its store or the commit
before it is held. The operation then stays and only its completion is to be made. -/
def State.postFlag (s : State) (n : Nat) : State × Bool :=
  let s := s.modOp n fun o => { o with posting := true, stage := .running }
  match s.op? n with
  | none => (s, false)
  | some o =>
    let w := o.lead
    let ff := List.replicate 4 (0xFF : Byte)
    let data := bytesOf 4 (w.flag.getD 2 0).toNat
    let pad := fun (s : State) => s.opPadWrite n (padPlace o.blk o.launch o.core w.flagSpace) 0 w.flagAddr data ff o.flagHead
    if !w.w.fe || o.cancelled then (s, true)
    else if w.flagSpace == .core then (pad s, true)
    else
      let (s, ok) := s.engCommit o
      if !ok then (s, false)
      else if w.flagSpace == .device then
        match s.engWrite n o 0 w.flagAddr data ff o.flagHead with
        | .absent => (s.holdOp n w.flagAddr true, false)
        | .fault c => (s.opFault n c w.flagAddr, true)
        | .ok s => (s, true)
      else (pad s, true)

/-- Complete an operation whose effects are done (R193, R273): the flag word, then the other postings. -/
def State.complete (s : State) (n : Nat) : State :=
  let (s, ok) := s.postFlag n
  if ok then s.postDone n else s

/-- Go on with the completion of an operation that was held in it (R220). -/
def State.repost (s : State) (n : Nat) : State :=
  match s.op? n with
  | some o => if o.posting && s.opLive o then s.complete n else s
  | none => s

/-! ## Records -/

/-- Members that ask for a handle (R268). -/
def EngOp.handles (o : EngOp) : List (Nat × Nat) := (o.arr.filter fun a => a.word.w.hw).map fun a => (a.sid, a.word.w.hd.toNat)

/-- Give an operation the record `i`, and every member with HW = 1 its handle (R268). -/
def State.takeRec (s : State) (n : Nat) (i : Nat) (hs : List (Nat × Nat)) : State :=
  match s.op? n, (s.op? n).bind fun o => s.block? o.blk with
  | some o, some b =>
    let x := (s.core o.core).record i
    let s := s.setRec o.core i { x with busy := true, blk := o.blk, op := n, status := none }
    let s := hs.foldl (fun s h => s.modStrand ⟨o.blk, h.1⟩ fun k => k.setH h.2 (some (token x.gen b.slot i))) s
    (s.setOp n { o with record := some i }).sweep o.blk
  | _, _ => s

/-- An event record of an operation. -/
def State.opEvent (s : State) (o : EngOp) (c : Cause) : State :=
  if o.kind.copy then s.emit o.fe (s.lidOf o.launch) c .shuttle (clusterOf o.core) []
  else s.emit o.fe (s.lidOf o.launch) c .array o.core []

end Sys2Proof.Machine
end

