-- ==== Sys2Proof/Machine/Copies.lean ====
section
/-!
DEFINITION. Shuttle copies once they are issued (R271 to R288): the checks at start, the ports, the units that CPL, CPS, CPM, CPQ and CPX
move, the quantiser's staging, and the completion of a copy.
-/
namespace Sys2Proof.Machine
open Sys2Proof.Fp

/-! ## Cohorts -/

/-- The cohort of a block (R285): the index of its first member. -/
def cohortBase (la : Launch) (index : Nat) : Nat := index / max 1 la.cohort * max 1 la.cohort

/-- The blocks that the rank mask of slice `a` names, by index (R286). -/
def rankBlocks (la : Launch) (index : Nat) (a : Arrival) : List Nat :=
  ((List.range 18).filter fun r => (a.word.sa.getD 6 0).getLsbD r).map (cohortBase la index + ·)

/-! ## Checks at start -/

/-- The first cause of a list of checks, with the address reported. -/
def firstCause (cs : List (Bool × Cause × Nat)) : Option (Cause × Nat) := (cs.find? Prod.fst).map Prod.snd

/-- The checks of a pad tile at start (R210, R277). -/
def tileChecks (la : Launch) (l : Layout) (run size n1 n2 n3 : Nat) : List (Bool × Cause × Nat) :=
  [(!l.straight size n1 n2 n3, Cause.misaligned, l.poff), (!l.inside la run n1 n2 n3, padCause l.space, l.poff)]

/-- The bytes of a CPQ source element (R284). -/
def cpqBytes (w : EngWord) : Nat := if w.w.modN 1 0 = 0 then 4 else 2

/-- MCAST_OUTSIDE of CPX (R286). -/
def State.mcastBad (s : State) (la : Launch) (o : EngOp) (index : Nat) (a : Arrival) : Bool :=
  (a.word.sa.getD 6 0).toNat / 2 ^ 18 != 0 || (rankBlocks la index a).any fun i =>
    max 1 la.cohort ≤ i - cohortBase la index || ceilDiv la.n la.bdim ≤ i || la.again.contains i
      || match s.blockAt o.launch i (o.shadow s) with
        | some (_, b) => clusterOf b.core != clusterOf o.core
        | none => false

/-- The checks at start of one slice (R275 to R287), in table order. -/
def State.startChecks (s : State) (la : Launch) (o : EngOp) (index : Nat) (a : Arrival) (d : BitVec 512) : List (Bool × Cause × Nat) :=
  match o.kind with
  | .cpm => []
  | .cpr =>
    let va := fun (i : Nat) => (a.word.sa.getD (i + 1) 0 ++ a.word.sa.getD i 0 : Dword).toNat
    let n := (a.word.sa.getD 4 0).toNat
    let g := (a.word.sa.getD 5 0).toNat % 256
    [(va 0 % 16 != 0, Cause.misaligned, va 0), (va 2 % 16 != 0, Cause.misaligned, va 2),
     (n = 0 || 2 ^ 24 < n, Cause.boxRange, 0), (((s.fe o.fe).groups.get? g).isNone, Cause.tidInvalid, 0)]
  | k =>
    match sliceOf d a.word.sa a.word.sb with
    | none => [(true, Cause.layoutInvalid, 0)]
    | some z =>
      let t := z.t
      let es := ceilDiv t.width 8
      let b := cpqBytes a.word
      [(k == .cpx && s.mcastBad la o index a, Cause.mcastOutside, 0),
       (!t.valid || (t.conv && (k == .cps || k == .cpq)), Cause.tidInvalid, 0),
       (k == .cpq && !(3 ≤ t.fmt && t.fmt ≤ 8), Cause.formatPair, 0),
       (z.boxBad || (k == .cpq && ((t.sbase != 0 && z.o.getD 0 0 % 32 != 0) || 65536 < t.bxN 0 * b * z.rows)), Cause.boxRange, 0)]
      ++ (if k == .cpq then tileChecks la z.lay (t.bxN 0 * b) b (t.bxN 1) (t.bxN 2) (t.bxN 3)
          else tileChecks la z.lay z.run es (t.bxN 1) (t.bxN 2) (t.bxN 3))

/-- The descriptors of an operation's arrivals, as the table holds them now (R275). -/
def State.readDescs (s : State) (o : EngOp) : List (BitVec 512) :=
  o.arr.map fun a => (s.fe o.fe).tde ((a.word.sa.getD 0 0).toNat % 4096)

/-- The cause with which a copy fails at start (R274). -/
def State.startCause (s : State) (la : Launch) (o : EngOp) (index : Nat) : Option (Cause × Nat) :=
  if o.kind == .cpr then
    match lowestSid o.arr with | some a => firstCause (s.startChecks la o index a 0) | none => none
  else (o.arr.zip o.descs).findSome? fun e => firstCause (s.startChecks la o index e.1 e.2)

/-! ## The quantiser (R284) -/

/-- A source element of CPQ as the tile holds it. -/
def cpqSource (pad : Memory) (z : Slice) (b e b1 b2 b3 : Nat) : Nat := pad.num (z.lay.at (e * b) b1 b2 b3) b

/-- The value of a source element, by MOD bits 1 to 0. -/
def cpqValue (m x : Nat) : Fv := srcValue m x

/-- One block of at most 32 elements of a row: element codes, the scale byte with its VA, exceptions with the list's VA and the
element's index. -/
structure QOut where
  codes  : List Nat
  scales : List (Nat × Byte) := []
  excs   : List (Nat × Nat × BitVec 128) := []
  deriving DecidableEq, Repr

/-- An exception-list entry (R96). -/
def excEntry (m x : Nat) (v : Fv) (index : Nat) : BitVec 128 :=
  let neg := x.testBit (if m = 0 then 31 else 15)
  BitVec.ofNat 128 (index % 2 ^ 64 + x * 2 ^ 64 + (if v.isNan then 1 else 2) * 2 ^ 96
    + ((if neg then 1 else 0) + if v.isSig then 2 else 0) * 2 ^ 104)

/-- Quantise one block: elements `e0` to `e0 + n - 1` of a row (R94 to R96, R284). -/
def quantRow (pad : Memory) (z : Slice) (m b e0 n b1 b2 b3 : Nat) : QOut :=
  let ix := z.index b1 b2 b3
  let isIn := fun (e : Nat) => z.t.rowIn ix.2 && 0 ≤ ix.1 + (e : Int) && ix.1 + (e : Int) < z.t.exN 0
  let es := (List.range n).map (e0 + ·)
  let src := fun e => cpqSource pad z b e b1 b2 b3
  let vals := es.map fun e => if isIn e then cpqValue m (src e) else .zero
  let q := if z.t.sbase = 0 then ⟨0, vals.map fun v => (convValue z.t.fmt .rn false v).code⟩ else quantise z.t.fmt vals
  let lists := z.t.xlist != 0 && 5 ≤ z.t.fmt && z.t.fmt ≤ 8
  { codes := q.codes
    scales := if z.t.sbase != 0 && isIn e0 then [((z.t.scaleVa ((ix.1 + e0) / 32) ix.2).toNat, BitVec.ofNat 8 q.scale)] else []
    excs := if lists then es.filterMap (fun e =>
        let v := cpqValue m (src e)
        let i := (z.t.linear (ix.1 + e) ix.2).toNat
        if isIn e && (v.isNan || v.isInf) then some (z.t.xlist, i, excEntry m (src e) v i) else none) else [] }

/-- Pack codes of `w` bits into bytes (R91). -/
def packCodes (w : Nat) (cs : List Nat) : List Byte :=
  bytesOf (ceilDiv (cs.length * w) 8) (cs.foldr (fun c n => n * 2 ^ w + c % 2 ^ w) 0)

/-- Insert an exception by its index (R96). -/
def insertExc (e : Nat × Nat × BitVec 128) : List (Nat × Nat × BitVec 128) → List (Nat × Nat × BitVec 128)
  | [] => [e]
  | x :: xs => if e.2.1 < x.2.1 then e :: x :: xs else x :: insertExc e xs

/-- Quantise the rows of a slice. -/
def quantSlice (pad : Memory) (w : EngWord) (z : Slice) : List QOut × List Byte :=
  let m := w.w.modN 1 0
  let b := cpqBytes w
  let n0 := z.t.bxN 0
  let rows := (List.range z.rows).map fun r =>
    (List.range (ceilDiv n0 32)).map fun k =>
      quantRow pad z m b (32 * k) (min 32 (n0 - 32 * k)) (r % z.t.bxN 1) (r / z.t.bxN 1 % z.t.bxN 2) (r / (z.t.bxN 1 * z.t.bxN 2))
  (rows.flatten, rows.flatMap fun qs => packCodes z.t.width (qs.flatMap QOut.codes))

/-- The pad offsets of a tile of `run` bytes and the given extents. -/
def Layout.offsets (l : Layout) (run n1 n2 n3 : Nat) : List Nat :=
  (List.range n3).flatMap fun k => (List.range n2).flatMap fun j => (List.range n1).flatMap fun i => (List.range run).map fun x => l.at x i j k

/-- The source tile of one slice of a CPQ, read at one time, its units each by themselves (R235, R284). -/
def State.cpqTile (s : State) (o : EngOp) (a : Arrival) (z : Slice) : Tile :=
  let b := cpqBytes a.word
  s.opTile o z.lay.space (if b = 4 then 4 else 1) (z.lay.offsets (z.t.bxN 0 * b) (z.t.bxN 1) (z.t.bxN 2) (z.t.bxN 3))

/-- Stage a CPQ: the whole source, quantised. -/
def State.stageCpq (s : State) (n : Nat) (o : EngOp) : State :=
  let tiles := (o.arr.zip o.slices).map fun e => (e, s.cpqTile o e.1 e.2)
  let outs := tiles.map fun e => quantSlice e.2.pad e.1.1.word e.1.2
  let qs := outs.flatMap Prod.fst
  let s := s.setOp n { o with
    staged := outs.flatMap Prod.snd, scales := qs.flatMap QOut.scales
    excs := ((qs.flatMap QOut.excs).foldr insertExc []).map fun e => (e.1, e.2.2)
    view := tiles.foldl (fun v e => v.join e.2.view) o.view }
  match tiles.findSome? fun e => e.2.bad with
  | some a => s.opFault n Cause.eccPad a
  | none => s

/-! ## Start and ports -/

/-- A copy that writes device memory, the cluster pad or the die pad: it commits a contained block's buffer first (R232, R278). -/
def EngOp.commits (o : EngOp) : Bool :=
  match o.kind with
  | .cps | .cpq | .cpr => true
  | .cpm => o.moves.any fun m => m.dst.space != .core
  | .cpl => o.slices.any fun z => z.lay.space != .core
  | _ => false

/-- Started operations of a core that have not completed (R271). -/
def State.portUse (s : State) (core : Nat) : Nat := (s.ops.filter fun e => e.2.core == core && e.2.kind.copy && e.2.stage == .running).length

/-- The size in bytes of a CPR's elements. -/
def cprBytes (w : EngWord) : Nat := if w.w.modN 3 0 = 0 || w.w.modN 3 0 = 0xD then 4 else 2

/-- Post the byte expectations of an accepted copy (R273, R286, R287). -/
def State.postExpect (s : State) (n : Nat) (o : EngOp) : State :=
  match s.block? o.blk, s.launch? o.launch with
  | some b, some la =>
    if !o.lead.w.be then s
    else
      let bar := o.lead.w.bn.toNat
      if o.kind == .cpx then
        let ranks := (o.arr.flatMap (rankBlocks la b.index)).eraseDups
        ranks.foldl (fun s i =>
          let size := ((o.arr.zip o.slices).filter fun e => (rankBlocks la b.index e.1).contains i).foldl (fun n e => n + e.2.size) 0
          s.postOwe n i bar size) s
      else
        let size := if o.kind == .cpr then cprBytes o.lead * (o.lead.sa.getD 4 0).toNat else o.bytes
        s.postOwe n b.index bar size
  | _, _ => s

/-- A CPR that has started and not completed. -/
def EngOp.cprUp (o : EngOp) : Bool := o.kind == .cpr && (o.stage == .running || o.stage == .queued)

/-- Reduction contexts that a partition's CPRs hold (R333): each from its start until it completes. -/
def State.contextsOf (s : State) (fe : Nat) : Nat := (s.ops.filter fun e => e.2.fe == fe && e.2.cprUp && !e.2.fallback).length

/-- Reduction contexts that a partition holds as its own (R333, R366): those its groups reserve, and at least MINFC, while it is admitted. -/
def FrontEnd.reserved (f : FrontEnd) : Nat :=
  if f.en && !f.bef then f.groups.foldl (fun n g => max n g.2.contexts) f.minfc else 0

/-- A CPR finds no context (R288, R333): its partition's own are in use, and no unreserved one of the grant is free. -/
def State.noContext (s : State) (fe : Nat) : Bool :=
  let sum := fun (f : Nat → FrontEnd → Nat) => s.fes.foldl (fun n e => n + f e.1 e.2) 0
  let own := (s.fe fe).reserved
  s.grant ≤ sum (fun i _ => s.contextsOf i)
    || (own ≤ s.contextsOf fe && s.grant - sum (fun _ f => f.reserved) ≤ sum fun i f => s.contextsOf i - f.reserved)

/-- A CPR starts (R287, R288, R333, R366): its group as defined now, its context or the endpoint path, its place on the block. -/
def State.startCpr (s : State) (o : EngOp) : EngOp × State :=
  if o.kind != .cpr then (o, s)
  else
    ({ o with group := (s.fe o.fe).groups.get? ((o.lead.sa.getD 5 0).toNat % 256), fallback := s.noContext o.fe, started := s.ns }
    , s.modBlock o.blk fun b => { b with cprIssued := true })

/-- The number of a CPR on its group, in the order of their starts (R287). -/
def State.numberCpr (s : State) (o : EngOp) : EngOp × State :=
  if o.kind != .cpr then (o, s)
  else
    let g := (o.lead.sa.getD 5 0).toNat % 256
    let i := (s.fe o.fe).cprNum.get g
    ({ o with num := i.toNat }, s.modFe o.fe fun f => { f with cprNum := f.cprNum.set g (i + 1) })

/-- No operation of the port that became ready earlier has still to start (R271). -/
def State.portFirst (s : State) (o : EngOp) : Bool :=
  !s.ops.any fun e => e.2.core == o.core && e.2.kind.copy && (e.2.stage == .ready || e.2.stage == .queued) && s.opLive e.2 && e.2.ready < o.ready

/-- A port with room takes the operation that became ready first (R271): its expectation is posted, and its last member goes on. -/
def State.acceptCopy (s : State) (n : Nat) : State :=
  match s.op? n with
  | none => s
  | some o =>
    if o.stage != .queued || !s.opLive o || 16 ≤ s.portUse o.core || !s.portFirst o then s
    else
      let o := { o with stage := .running }
      let s := (s.setOp n o).postExpect n o
      let s := s.passMembers n o
      if o.kind != .cpr then s.opEvent o Cause.copyStart
      else
        let s := s.opEvent o Cause.cprStart
        if o.fallback then s.opEvent o Cause.cprFallback else s

/-- COPY_ACCEPT (R271). -/
def execCopyAccept (n : Nat) (s : State) : Outcome := .next (s.acceptCopy n)

/-- The follow-on MMA of a CPL as an operation (R282), before which stands all that stands before the CPL (R243). DESIGN CHOICE (log 15): the MMA of a CPL
with BK = 1 is one operation of the whole block, and stands outside the pair sequence of any skein. -/
def EngOp.followOn (o : EngOp) (n : Nat) : EngOp :=
  { kind := .mma, blk := o.blk, launch := o.launch, core := o.core, fe := o.fe, skein := o.skein, bk := o.bk
    arr := o.arr.filterMap fun a => a.fo.map fun w => { a with pc := a.pc + 8, word := w, fo := none }
    stage := .ready, ready := o.ready, follow := some n, isFollow := true, view := o.view }

/-- The skein of an operation is one of the block's pair. -/
def State.pairedOp (s : State) (o : EngOp) : Option (Pair × Bool) :=
  match (s.core o.core).array with
  | some a =>
    if a.owner = o.blk && !o.bk then
      match a.pair, o.skein with
      | some p, some k => if p.cond = k then some (p, true) else if p.unc = k then some (p, false) else none
      | _, _ => none
    else none
  | none => none

/-- The start checks of a copy (R274), at its last arrival, which reads the descriptors. -/
def State.checkCopy (s : State) (n : Nat) : State :=
  match s.op? n, (s.op? n).bind fun o => s.block? o.blk, (s.op? n).bind fun o => s.launch? o.launch with
  | some o, some b, some la =>
    let o := { o with descs := s.readDescs o }
    match s.startCause la o b.index with
    | some (c, va) => s.trapMembers n o c (BitVec.ofNat 64 va)
    | none => s.setOp n o
  | _, _, _ => s

/-- Start a copy whose members have all arrived (R268, R271, R274), in the order of its port, once there are records, and the commit before it has
ended. -/
def State.startCopy (s : State) (n : Nat) : State :=
  match s.op? n with
  | some o =>
    if !s.portFirst o then s.setWaits n o fun k => { k with why := .other }
    else
      let core := s.core o.core
      let fo := if o.kind == .cpl && o.lead.w.fo then some (o.followOn n) else none
      let need := fun (hs : List (Nat × Nat)) (c : Core) => if hs.isEmpty then some (none, c) else
        (c.freeRec).map fun i => (some i, { c with recs := c.recs.put i { c.record i with busy := true } })
      match need o.handles core with
      | none => s.setWaits n o fun k => { k with why := .handle }
      | some (r1, core1) =>
        match need ((fo.map EngOp.handles).getD []) core1 with
        | none => s.setWaits n o fun k => { k with why := .handle }
        | some (r2, _) =>
          let (s, ok) := if o.commits then s.engCommit o else (s, true)
          if !ok then s.setWaits n o fun k => { k with why := .parked }
          else
            let o := { o with stage := .queued }
            let (o, s) := s.numberCpr o
            let (o, s) := s.startCpr o
            let s := s.setOp n o
            let s := match r1 with | some i => s.takeRec n i o.handles | none => s
            let s := match fo with
              | none => s
              | some f =>
                let (m, s) := s.name
                let f := if (s.pairedOp f).isSome then { f with num := m + 1 } else f
                let s := (s.setOp m f).modOp n fun o => { o with follow := some m }
                match r2 with | some i => s.takeRec m i f.handles | none => s
            -- every member but the last passes; the last waits for the port
            let early := { o with arr := o.arr.dropLast }
            let s := s.passMembers n early
            (s.setWaits n o fun k => { k with why := .other }).acceptCopy n
  | none => s

/-! ## Units -/

/-- Write a tile's bytes from `a` up under a mask. -/
def putMasked (m : Memory) (a : Nat) (bs masks : List Byte) : Memory :=
  m.put a ((List.range bs.length).map fun i => mergeByte (m.get (a + i)) (bs.getD i 0) (masks.getD i 0))

/-- Write bytes of a tile into the pad of one receiver (R286): the block's, or a staged image; false where they are discarded. -/
def State.deliverTo (s : State) (n : Nat) (o : EngOp) (index a : Nat) (bs masks : List Byte) : State × Bool :=
  match s.blockAt o.launch index (o.shadow s) with
  | some (blk, _) => (s.opPadWrite n (.core blk) 0 a bs masks, true)
  | none =>
    match (s.launch? o.launch).bind fun l => l.staging.get? index with
    | some _ => (s.modLaunch o.launch fun l => { l with staging := l.staging.mod index fun z => { z with image := putMasked z.image a bs masks } }, true)
    | none => (s, false)

/-- Mark a unit as moved and post its bytes (R273 step 2). -/
def State.passUnit (s : State) (n cell bytes : Nat) (ok : OpPost → Bool := fun _ => true) : State :=
  let s := s.modOp n fun o => { o with moved := cell :: o.moved }
  match s.op? n with
  | some o => (s.count o.fe 7 bytes).postBytes n bytes ok
  | none => s

/-- What an operation has read for a unit: its bytes, zero after a fault (R278), which is delivered; or it is held. -/
def State.gotUnit (s : State) (n va len : Nat) (r : Reached Ran) (go : State → List Byte → State) : State :=
  match r with
  | .absent => s.holdOp n va false
  | .ok x => go (s.opView n x.view) x.bytes
  | .fault c =>
    let s := s.opFault n c va
    -- the fault may have placed its block again (R358)
    if (s.op? n).isSome then go s (List.replicate len 0) else s

/-- Write a unit of an operation to device memory and go on; a unit that meets a fault stays as it is (R278). -/
def State.putUnit (s : State) (n g va : Nat) (bs masks : List Byte) (go : State → State) (heads : List Head := []) : State :=
  match s.op? n with
  | none => s
  | some o =>
    match s.engWrite n o g va bs masks heads with
    | .absent => s.holdOp n va true
    | .fault c => go (s.opFault n c va)
    | .ok s => go s

/-- Move one unit of a box copy (R276, R281, R284, R286). -/
def State.moveBox (s : State) (n cell : Nat) (o : EngOp) (a : Arrival) (z : Slice) (u : Nat) : State :=
  let (x, b1, b2, b3) := z.place u
  let ix := z.index b1 b2 b3
  let len := z.unit
  let box := (List.range len).map fun i => z.boxMask (x + i)
  let inn := (List.range len).map fun i => z.inMask (x + i) ix
  let none_ := inn.all (· == 0)
  let va := z.va x ix
  let padA := z.lay.at x b1 b2 b3
  match o.kind with
  | .cps | .cpq =>
    if none_ then s.passUnit n cell len
    else if o.kind == .cpq then s.putUnit n 0 va [o.staged.getD cell 0] inn fun s => s.passUnit n cell len
    else s.gotUnit n padA len (s.opPadRead o z.lay.space len padA len) fun s data =>
      s.putUnit n 0 va data inn fun s => s.passUnit n cell len
  | _ =>
    let put := fun (s : State) (data : List Byte) =>
      let data := (List.range len).map fun i => data.getD i 0 &&& inn.getD i 0
      if o.kind == .cpx then
        match s.block? o.blk, s.launch? o.launch with
        | some b, some la =>
          let ranks := rankBlocks la b.index a
          let (s, took) := ranks.foldl (fun (e : State × List Nat) i =>
            let (s, ok) := e.1.deliverTo n o i padA data box
            (s, if ok then i :: e.2 else e.2)) (s, [])
          let s := if ranks.all took.contains then s else s.modOp n fun o => { o with discard := true }
          let s := if took.all (· == b.index) then s else s.modBlock o.blk fun b => { b with cpxElsewhere := true }
          s.passUnit n cell len fun p => ranks.contains p.index
        | _, _ => s
      else (s.opPadWrite n (padPlace o.blk o.launch o.core z.lay.space) 0 padA data box).passUnit n cell len
    if none_ then put s (List.replicate len 0)
    else s.gotUnit n va len (s.opRead o len va len) fun s data => put (s.countRead o va len) data

/-- Move one byte of a CPM (R283). -/
def State.moveTile (s : State) (n cell : Nat) (o : EngOp) (m : TileMove) (u : Nat) : State :=
  let (x, i, j, k) := m.place u
  let at_ := m.src.at x i j k
  s.gotUnit n at_ 1 (s.opPadRead o m.src.space 1 at_ 1) fun s b =>
    (s.opPadWrite n (padPlace o.blk o.launch o.core m.dst.space) 0 (m.dst.at x i j k) b [0xFF]).passUnit n cell 1

/-- Write one scale byte of a CPQ (R186, R284). -/
def State.moveScale (s : State) (n cell va : Nat) (x : Byte) : State :=
  s.putUnit n 0 va [x] [0xFF] fun s => s.modOp n fun o => { o with moved := cell :: o.moved }

/-- List one exception (R96): the count rises by an atomic update, and the entry is written where the list has room. -/
def State.listExc (s : State) (n : Nat) (o : EngOp) (list : Nat) (e : BitVec 128) : State :=
  let ff := fun k => List.replicate k (0xFF : Byte)
  let next := fun (s : State) => s.modOp n fun o => { o with excs := o.excs.tail }
  match s.opRead o 4 (list + 8) 8, s.opNewest o list 8 with
  | .absent, _ => s.holdOp n list false
  | _, .absent => s.holdOp n list true
  | .fault c, _ => next (s.opFault n c list)
  | _, .fault c => next (s.opFault n c list)
  | .ok x, .ok y =>
    let s := s.opView n x.view
    let c := numOf y.bytes
    let cap := numOf x.bytes
    let rise := fun (s : State) => s.putUnit n 4 list (bytesOf 8 (c + 1)) (ff 8) (fun s => next (if c < cap then s else s.opEvent o Cause.xlistOverflow))
      (y.from_.foldl (fun hs (e : Past) => addHeads hs e.heads) [])
    if c < cap then s.putUnit n 4 (list + 16 + 16 * c) (bytesOf 16 e.toNat) (ff 16) rise else rise s

/-- Carry out one unit of a copy: a data unit, a scale byte, or after them the next exception. -/
def State.moveUnit (s : State) (n cell : Nat) (o : EngOp) : State :=
  if cell < o.dataUnits then
    match locate o.unitCounts cell with
    | none => s
    | some (i, u) =>
      if o.kind == .cpm then
        match o.moves[i]? with | some m => s.moveTile n cell o m u | none => s
      else match o.arr[i]?, o.slices[i]? with
        | some a, some z => s.moveBox n cell o a z u
        | _, _ => s
  else match o.scales[cell - o.dataUnits]? with
    | some (va, x) => s.moveScale n cell va x
    | none =>
      match o.excs with
      | (list, e) :: _ => s.listExc n o list e
      | [] => s

end Sys2Proof.Machine
end

