-- ==== Sys2Proof/Machine/Arrays.lean ====
section
/-!
DEFINITION. The matrix array (R164 to R183, R192 to R203): how an operation enters array order, guidance pairs, the exact arithmetic of the
semirings, and the completion of each operation.
-/
namespace Sys2Proof.Machine
open Sys2Proof.Fp

/-! ## Operand fields -/

/-- Rows minus 1 in bits 4 to 0 and row0 in bits 12 to 8; K − 1 in bits 7 to 0 and N − 1 in bits 24 to 16 (R195, R198, R201). -/
def rowsOf (w : Word) : Nat := bitsN w.toNat 4 0 + 1
def row0Of (w : Word) : Nat := bitsN w.toNat 12 8
def kOf (w : Word) : Nat := bitsN w.toNat 7 0 + 1
def nOf (w : Word) : Nat := bitsN w.toNat 24 16 + 1

/-- The A and B codes and the A-scaled bit of an MMA word (R198). -/
def EngWord.aFmt (w : EngWord) : Nat := w.w.modN 7 4
def EngWord.bFmt (w : EngWord) : Nat := w.w.modN 3 0
def EngWord.aScaled (w : EngWord) : Bool := w.w.mod.getLsbD 8

/-- A skein's part in an operation: its word, and its role in a pair (true: conditional). -/
structure Side where
  w    : EngWord
  role : Option Bool
  deriving DecidableEq, Repr

/-- The word of the rows operand: S[SB]. -/
def Side.rowWord (z : Side) : Word := z.w.sb.getD 0 0
/-- The first accumulator row, and whether the rows lie in the skein's range (R177, R198). -/
def Side.base (z : Side) : Nat := row0Of z.rowWord + (if z.role = some false then 16 else 0)
def Side.rowsBad (z : Side) : Bool := (if z.role.isSome then 16 else 32) < row0Of z.rowWord + rowsOf z.rowWord

/-- The format pairs of R167. -/
def pairOk (sr a b : Nat) : Bool :=
  match sr with
  | 0 => (a == 2 && b == 2) || (3 ≤ b && b ≤ 0xB && 3 ≤ a && a ≤ 0xB)
  | 1 | 2 => a == 9 && b == 9
  | 3 => (a == 3 || a == 4) && (b == 3 || b == 4)
  | _ => a == 0xF && b == 0xF

/-- FORMAT_PAIR of an MMA against a live bank (R167, R198). -/
def EngWord.formatBad (w : EngWord) (live : BankMeta) : Bool :=
  let a := w.aFmt
  let b := w.bFmt
  let canScale := fun (x : Nat) => w.fn == 0 && 3 ≤ x && x ≤ 8
  !pairOk w.fn a b || b != live.fmt || (w.aScaled && !canScale a) || (live.scaled && !canScale b) || (a == 8 && !w.aScaled)

/-- Scale bytes that a side of a scaled MMA claims (R169), whose K, formats and scaling are those of the word `w` (R200). -/
def claimBy (w : EngWord) (z : Side) : Nat := if w.aScaled then rowsOf z.rowWord * ceilDiv (kOf (w.sb.getD 1 0)) 32 else 0

/-- Scale bytes that an MMA claims; the first side is the conditional one. -/
def claimOf (zs : List Side) : Nat := zs.foldl (fun n z => n + claimBy ((zs.head?.map Side.w).getD z.w) z) 0

/-- The checks of an MMA in array order, in table order (R199); the first side is the conditional one, whose K, N, FN and MOD are used
(R200). -/
def mmaCause (a : MatrixArray) (zs : List Side) : Option Cause :=
  match zs with
  | [] => none
  | z :: rest =>
    let live := a.liveMeta
    let kn := fun (y : Side) => kOf (y.w.sb.getD 1 0) == kOf (z.w.sb.getD 1 0) && nOf (y.w.sb.getD 1 0) == nOf (z.w.sb.getD 1 0)
    ([(!live.loaded, Cause.bNotLoaded),
      (zs.any Side.rowsBad || (live.fmt == 2 && 256 < nOf (z.w.sb.getD 1 0)), Cause.boxRange),
      (z.w.formatBad live, Cause.formatPair),
      (a.count < claimOf zs, Cause.scaleQueueEmpty),
      (rest.any fun y => !(kn y && y.w.fn == z.w.fn && y.w.w.modN 8 0 == z.w.w.modN 8 0), Cause.pairShape)].find? Prod.fst).map Prod.snd

/-- The checks of MXB in array order, in table order (R56, R195). DEDUCED (log 15): a TID above 4,095 is one with a bit of S[SA] above bit 11
set. -/
def mxbCause (w : EngWord) (d : BitVec 512) : Option Cause :=
  let t := tdeOf d
  ([(t.fmt == 2 && 256 < nOf (w.sa.getD 3 0), Cause.boxRange),
    (4096 ≤ (w.sa.getD 0 0).toNat || !t.valid || t.geo != 2, Cause.tidInvalid),
    (t.fmt == 0 || t.fmt == 1 || t.fmt == 0xC || t.fmt == 0xD || t.fmt == 0xE, Cause.formatPair)].find? Prod.fst).map Prod.snd

/-- Rows and bytes per row of MXSQ (R197). -/
def sqRows (w : EngWord) : Nat := bitsN (w.sb.getD 0 0).toNat 12 8 + 1
def sqBytes (w : EngWord) : Nat := bitsN (w.sb.getD 0 0).toNat 7 0 + 1

/-- The checks in array order of one operation that is not matched (R194 to R202). -/
def entryCause (a : MatrixArray) (k : EngKind) (z : Side) (d : BitVec 512) : Option Cause :=
  match k with
  | .mma => mmaCause a [z]
  | .mxb => mxbCause z.w d
  | .mxsq => if 1024 < a.count + sqRows z.w * sqBytes z.w then some Cause.boxRange else none
  | .mxd | .clear => if z.rowsBad then some Cause.boxRange else none
  | .guide => if z.rowsBad then some Cause.boxRange else some Cause.pairBroken
  | _ => none

/-! ## Array order -/

/-- The bank state that MXB sets (R195). -/
def metaOf (w : EngWord) (t : Tde) : BankMeta :=
  { loaded := true, fmt := t.fmt, scaled := t.sbase != 0, k := kOf (w.sa.getD 3 0), n := nOf (w.sa.getD 3 0) }

/-- The state that an operation leaves for the checks of later ones (R194), with the operation in order. -/
def MatrixArray.enter (a : MatrixArray) (n : Nat) (k : EngKind) (zs : List Side) (d : BitVec 512) : MatrixArray :=
  let a := { a with order := a.order ++ [n] }
  let w := (zs.head?.map Side.w).getD EngWord.zero
  match k with
  | .mxb => { a with shadowMeta := metaOf w (tdeOf d) }
  | .mxsw => { a with liveMeta := a.shadowMeta, shadowMeta := a.liveMeta }
  | .mxsq => { a with count := a.count + sqRows w * sqBytes w }
  | .mma => { a with count := a.count - claimOf zs }
  | _ => a

def State.modArray (s : State) (core : Nat) (f : MatrixArray → MatrixArray) : State :=
  s.setCore core { s.core core with array := (s.core core).array.map f }

/-- The words that keep an operation from completing before an earlier one (R164). -/
def EngKind.clash (later earlier : EngKind) : Bool :=
  match later with
  | .mxb => earlier == .mxsw || earlier == .mxb
  | .mxsw => earlier == .mma || earlier == .mxb || earlier == .mxsw
  | .mxsq => earlier == .mxsq || earlier == .mxd || earlier == .guide
  | .mma => earlier == .mxsw || earlier == .mma || earlier == .mxsq || earlier == .clear || earlier == .mxd || earlier == .guide
  | .mxd | .guide => earlier == .mma || earlier == .clear || earlier == .mxd || earlier == .guide || earlier == .mxsq
  | .clear => earlier == .mma || earlier == .mxd || earlier == .guide || earlier == .clear
  | _ => false

/-- Whether an operation may complete now: it runs, it is of the kind, and no earlier one that matters is under way (R164). -/
def State.arrayDue (s : State) (n : Nat) (k : EngKind) : Option (EngOp × MatrixArray) :=
  match s.op? n with
  | none => none
  | some o =>
    match (s.core o.core).array with
    | some a =>
      let before := a.order.takeWhile (· != n)
      let blocked := before.any fun m => match s.op? m with | some e => k.clash e.kind | none => false
      if o.kind == k && o.stage == .running && a.owner == o.blk && a.order.contains n && s.opLive o && !blocked then some (o, a) else none
    | none => none

/-- An operation is done: it leaves the order, and its postings are made, with those of the matched one (R193). -/
def State.arrayDone (s : State) (n : Nat) (o : EngOp) : State :=
  let s := s.modArray o.core fun a => { a with order := a.order.filter (· != n) }
  let s := s.complete n
  match o.partner with
  | some m => s.complete m
  | none => s

/-- Members wait for a reason (R194). -/
def State.waitFor (s : State) (n : Nat) (o : EngOp) (why : Stall) : State := s.setWaits n o fun k => { k with why := why }

/-- Records for operations that ask for handles, the lowest first (R268); none: there are not enough. -/
def Core.takeRecs (c : Core) : List (Nat × EngOp) → Option (List (Nat × Nat))
  | [] => some []
  | (n, o) :: os =>
    if o.handles.isEmpty || o.record.isSome then c.takeRecs os
    else match c.freeRec with
      | none => none
      | some i => (({ c with recs := c.recs.put i { c.record i with busy := true } } : Core).takeRecs os).map fun l => (n, i) :: l

/-- Give operations their records. -/
def State.giveRecs (s : State) (rs : List (Nat × Nat)) : State :=
  rs.foldl (fun s e => match s.op? e.1 with | some o => s.takeRec e.1 e.2 o.handles | none => s) s

/-- Enter array order (R164, R194) with the operations of `os`, the first being the one that runs. -/
def State.enterOps (s : State) (os : List (Nat × EngOp)) (zs : List Side) (d : BitVec 512) : State :=
  match os with
  | [] => s
  | (n, o) :: rest =>
    match (s.core o.core).takeRecs os with
    | none => os.foldl (fun s e => s.waitFor e.1 e.2 .handle) s
    | some rs =>
      let partner := rest.head?.map Prod.fst
      let s := s.giveRecs rs
      let s := s.modOp n fun o => { o with stage := .running, descs := [d], partner := partner, role := (zs.head?.bind Side.role) }
      let s := rest.foldl (fun s e => s.modOp e.1 fun o => { o with stage := .running, partner := some n }) s
      let s := s.modArray o.core fun a => a.enter n o.kind zs d
      let s := os.foldl (fun s e => s.passMembers e.1 e.2) s
      if o.kind == .mma then s.opEvent o Cause.mmaEnter else s

/-- A pad tile outside the core pad that a contained block writes is written after a commit (R232). -/
def EngOp.padCommit (o : EngOp) : Bool :=
  (o.kind == .mxd || o.kind == .guide) && match layoutOf o.lead.sa with | some l => l.space != .core | none => false

/-- Enter with what one skein's operation, or a matched pair, has been checked for. -/
def State.enterChecked (s : State) (os : List (Nat × EngOp)) (zs : List Side) (d : BitVec 512) (cause : Option Cause) : State :=
  match os, cause with
  | [], _ => s
  | os, some c => os.foldl (fun s e => s.trapMembers e.1 e.2 c) s
  | (n, o) :: rest, none =>
    let (s, ok) := if o.padCommit then s.engCommit o else (s, true)
    if ok then s.enterOps ((n, o) :: rest) zs d else s.waitFor n o .parked

/-! ## Pairs (R177 to R180, R200, R203) -/

/-- All members have arrived, and a follow-on's CPL has landed. -/
def EngOp.isReady (o : EngOp) : Bool := o.stage == .ready && o.follow.isNone

/-- The head of a paired skein's sequence (R200). -/
def State.headOf (s : State) (blk skein : Nat) : Option (Nat × EngOp) :=
  (s.ops.filter fun e => e.2.blk == blk && e.2.skein == some skein && !e.2.bk && (e.2.kind == .mma || e.2.kind == .guide)
      && (e.2.stage == .gathering || e.2.stage == .ready) && e.2.num != 0).foldl
    (fun h e => match h with | none => some e | some x => if e.2.num < x.2.num then some e else some x) none

/-- Match the heads of a pair's two sequences (R178, R200). -/
def State.matchPair (s : State) (a : MatrixArray) (p : Pair) : State :=
  match s.headOf a.owner p.cond, s.headOf a.owner p.unc with
  | some (n, c), some (m, u) =>
    if !c.isReady || !u.isReady then s
    else
      let zc : Side := ⟨c.lead, some true⟩
      let zu : Side := ⟨u.lead, some false⟩
      let os := [(n, c), (m, u)]
      if c.kind != u.kind then s.enterChecked os [zc, zu] 0 (some Cause.pairShape)
      else if c.kind == .mma then s.enterChecked os [zc, zu] 0 (mmaCause a [zc, zu])
      else
        let cause := if zc.rowsBad || zu.rowsBad then some Cause.boxRange
          else if rowsOf zc.rowWord != rowsOf zu.rowWord then some Cause.pairShape else none
        s.enterChecked os [zc, zu] 0 cause
  | _, _ => s

/-- A pair dissolves (R180): a skein that waits for its partner traps; its operations to come run unpaired. DESIGN CHOICE (log 24): two skeins that have
both arrived and wait only for a handle record trap as well. -/
def State.dissolve (s : State) (core : Nat) : State :=
  match (s.core core).array with
  | none => s
  | some a =>
    match a.pair with
    | none => s
    | some p =>
      let s := s.modArray core fun a => { a with pair := none }
      let mine := s.ops.filter fun e => e.2.blk == a.owner && (e.2.skein == some p.cond || e.2.skein == some p.unc) && !e.2.bk
        && (e.2.kind == .mma || e.2.kind == .guide) && (e.2.stage == .gathering || e.2.stage == .ready)
      let s := mine.foldl (fun s e =>
        if e.2.isReady then s.trapMembers e.1 e.2 Cause.pairBroken else s.modOp e.1 fun o => { o with num := 0 }) s
      match s.launchOf a.owner with
      | some la => s.emit la.fe la.lid Cause.pairDissolve .array core []
      | none => s

/-- The fields of MXC.PAIR: the partner's skein id, and whether the role is conditional (R202). -/
def pairPartner (w : EngWord) : Nat := bitsN (w.sb.getD 0 0).toNat 3 0
def pairCond (w : EngWord) : Bool := !(w.sb.getD 0 0).getLsbD 4

/-- Another skein of the block that waits in MXC.PAIR with skein id `k`. -/
def State.pairWaiter (s : State) (n : Nat) (o : EngOp) (k : Nat) : Option (Nat × EngOp) :=
  s.ops.find? fun e => e.1 != n && e.2.blk == o.blk && e.2.kind == .pair && e.2.skein == some k && e.2.stage == .ready

/-- The members of an operation learn that what is in a view happens before their next instruction (R203). -/
def State.syncMembers (s : State) (o : EngOp) (v : View) : State :=
  o.arr.foldl (fun s a => s.modStrand ⟨o.blk, a.sid⟩ fun k => k.sync a.mask v) s

/-- MXC.PAIR of a skein whose members have arrived (R177, R203): an arrival that names a waiting skein which it does not match, by its role or
by naming a third skein, traps; it forms the pair where the two match; else it waits, with `num` 1 once it has arrived. Every arrival
of either skein happens before what follows in both. -/
def State.formPair (s : State) (n : Nat) (o : EngOp) : State :=
  match o.skein with
  | none => s.trapMembers n o Cause.pairShape
  | some k =>
    let await := (s.waitFor n o .pair).modOp n fun o => { o with num := 1 }
    match s.pairWaiter n o (pairPartner o.lead) with
    | none => await
    | some (m, q) =>
      if pairPartner q.lead != k || pairCond q.lead == pairCond o.lead then
        (if o.num = 0 then s.trapMembers n o Cause.pairShape else await)
      else
        match (s.core o.core).takeRecs [(n, o), (m, q)] with
        | none => (s.waitFor n o .handle).waitFor m q .handle
        | some rs =>
          let pk := pairPartner o.lead
          let s := s.giveRecs rs
          let s := s.modArray o.core fun a => { a with pair := some (if pairCond o.lead then ⟨k, pk⟩ else ⟨pk, k⟩) }
          let s := (s.passMembers n o).passMembers m q
          let v := o.view.join q.view
          let s := (s.syncMembers o v).syncMembers q v
          let s := s.opEvent o Cause.pairForm
          (s.complete m).complete n

/-- Complete an operation that has its whole effect at entry. -/
def State.enterDone (s : State) (n : Nat) (o : EngOp) : State :=
  match (s.core o.core).takeRecs [(n, o)] with
  | none => s.waitFor n o .handle
  | some rs => ((s.giveRecs rs).passMembers n o).complete n

/-- Enter array order when it may (R164, R177, R194), for an operation of the block that owns the array. -/
def State.enterOwned (s : State) (n : Nat) (o : EngOp) (a : MatrixArray) : State :=
  let d := (s.fe o.fe).tde ((o.lead.sa.getD 0 0).toNat % 4096)
  match s.pairedOp o with
  | none =>
    if a.pair.isSome then s.waitFor n o .pair
    else match o.kind with
      | .pair => s.formPair n o
      | .unpair => s.enterDone n o
      | k => s.enterChecked [(n, o)] [⟨o.lead, none⟩] d (entryCause a k ⟨o.lead, none⟩ d)
  | some (p, role) =>
    match o.kind with
    | .pair => s.trapMembers n o Cause.pairShape
    | .unpair => if o.handles.isEmpty || (s.core o.core).freeRec.isSome then (s.dissolve o.core).enterDone n o else s.waitFor n o .handle
    | .mma | .guide =>
      let s := if o.num = 0 then s.modOp n fun o => { o with num := n + 1 } else s
      (s.waitFor n o .pair).matchPair a p
    | k => s.enterChecked [(n, o)] [⟨o.lead, some role⟩] d (entryCause a k ⟨o.lead, some role⟩ d)

/-- Claim a free array for a block (R164). -/
def State.claimArray (s : State) (core blk : Nat) : State :=
  match (s.core core).array with
  | some _ => s
  | none => s.setCore core { s.core core with array := some { owner := blk } }

/-- Try to bring an array operation into array order. -/
def State.tryEnter (s : State) (n : Nat) : State :=
  match s.op? n with
  | none => s
  | some o =>
    if !o.isReady then s
    else
      let s := s.claimArray o.core o.blk
      match (s.core o.core).array with
      | some a => if a.owner != o.blk then s.waitFor n o .arrayBusy else s.enterOwned n o a
      | none => s

/-- CPL_FOLLOW_ON_ISSUE (R282): the MMA whose CPL has landed enters array order, where it had to wait at that time. -/
def execCplFollowOnIssue (n : Nat) (s : State) : Outcome :=
  match s.op? n with
  | some o => .next (if o.isFollow && s.opLive o then s.tryEnter n else s)
  | none => .next s

/-- The last destination byte of a CPL has landed (R164, R282): its MMA is issued, after what the CPL has written (R243), and enters array order, unless
the CPL has met a cause. -/
def State.freeFollow (s : State) (n : Nat) : State :=
  match s.op? n with
  | none => s
  | some o =>
    match o.follow with
    | none => s
    | some m =>
      if o.kind != .cpl || !o.landed || o.cause != 0 then s
      else match s.op? m with
        | none => s
        | some f => if f.follow == some n then (s.setOp m { f with follow := none, view := f.view.join o.view }).tryEnter m else s

/-- The sides of an operation, conditional first. One that has been withdrawn has none (R282). -/
def State.sidesOf (s : State) (o : EngOp) : List Side :=
  match o.partner.bind s.op? with
  | some u => (if o.cancelled then [] else [⟨o.lead, some true⟩]) ++ if u.cancelled then [] else [⟨u.lead, some false⟩]
  | none => if o.cancelled then [] else [⟨o.lead, o.role⟩]

/-- The operation that stands in array order for an MMA: itself, or the one it is matched with. -/
def State.mainOf (s : State) (n : Nat) (o : EngOp) : Nat :=
  if (s.core o.core).array.any fun a => a.order.contains n then n else o.partner.getD n

/-- An MMA leaves array order without an effect, with the one it is matched with (R280): the claim is given back, and both are to enter again. -/
def State.leaveOrder (s : State) (n : Nat) (o : EngOp) : State :=
  let main := s.mainOf n o
  match s.op? main with
  | none => s
  | some mo =>
    let again := fun (e : EngOp) => { e with stage := OpStage.ready, partner := none, role := none }
    let s' := s.modArray o.core fun a => { a with order := a.order.filter (· != main), count := a.count + claimOf (s.sidesOf mo) }
    let s' := s'.modOp main again
    match mo.partner with
    | some m => s'.modOp m again
    | none => s'

/-- Withdraw a follow-on MMA (R282): it has no effect, posts one arrival, writes no flag, and its handles show CANCELLED. One that stands in array
order gives its claim back and stays there without rows. -/
def State.withdraw (s : State) (m : Nat) : State :=
  match s.op? m with
  | none => s
  | some f =>
    if f.posting then s
    else if f.stage != .running then (s.setOp m { f with cancelled := true }).postDone m
    else
      let w := ((s.op? (s.mainOf m f)).map EngOp.lead).getD f.lead
      (s.setOp m { f with cancelled := true }).modArray f.core fun a => { a with count := a.count + claimBy w ⟨f.lead, none⟩ }

/-! ## Arithmetic -/

/-- The bytes, by number in their row, that hold element `k` of `w` bits; and the element's code from them (R91). -/
def elemBytes (w k : Nat) : List Nat := (List.range ((k * w + w - 1) / 8 + 1 - k * w / 8)).map (k * w / 8 + ·)
def codeIn (w k : Nat) (bs : List Byte) : Nat := numOf bs / 2 ^ (k * w % 8) % 2 ^ w

/-- The pad offsets of A element (i, k) of `w` bits (R198). -/
def aBytes (l : Layout) (w i k : Nat) : List Nat := (elemBytes w k).map fun x => l.at x i 0 0

/-- The code of element (i, k) as a pad holds it. -/
def aCode (pad : Memory) (l : Layout) (w i k : Nat) : Nat := codeIn w k ((aBytes l w i k).map (Cells.get pad))

/-- The A tile of an operation: the pad, and the codes that elements have read which a racing write meets (R168). -/
structure ATile where
  t     : Tile
  elems : List ((Nat × Nat) × Nat) := []
  deriving DecidableEq, Repr

/-- The code of element (i, k) as the operation reads it. -/
def ATile.code (x : ATile) (l : Layout) (w i k : Nat) : Nat := ((x.elems.find? fun e => e.1 == (i, k)).map Prod.snd).getD (aCode x.t.pad l w i k)

/-- The code of B element (k, n) of a bank (R165, R166). -/
def Bank.code (b : Bank) (k n : Nat) : Nat :=
  let cell := fun (c : Nat) => (b.cells.get (k * 512 + c)).toNat
  if b.k ≤ k || b.n ≤ n then 0 else if b.fmt = 2 then cell (2 * n) + 256 * cell (2 * n + 1) else cell n

/-- An element's exact value, with its block's scale byte (R172). -/
def elemValue (fmt code : Nat) (scale : Option Nat) : Fv :=
  match scale with
  | some e => blockValue fmt e code
  | none => srcValue fmt code

def Bank.value (b : Bank) (k n : Nat) : Fv :=
  if b.k ≤ k || b.n ≤ n then .zero
  else elemValue b.fmt (b.code k n) (if b.scaled then some (b.scales.get (k / 32 * 512 + n)).toNat else none)

/-- A value as an AX slot, rounded RNE (R97, R172). -/
def axOf (v : Fv) : Dword := BitVec.ofNat 64 (axSlot (toFloat 0xE ax .rn v)).code

/-- One slot of a PT row pass (R172, R173): `av` gives the A values of the row. -/
def ptSlot (b : Bank) (av : Nat → Fv) (kk n : Nat) (acc : Dword) : Dword :=
  (List.range (ceilDiv kk 32)).foldl (fun acc kb =>
    let s := sumTerms ((List.range (min 32 (kk - 32 * kb))).map fun i => (av (32 * kb + i)).mul (b.value (32 * kb + i) n))
    axOf ((axValue acc.toNat).add .rn s)) acc

/-- One slot of the other semirings (R174): `ac` gives the A codes of the row. -/
def tropSlot (sr fmt : Nat) (b : Bank) (ac : Nat → Nat) (kk n : Nat) (acc : Dword) : Dword :=
  let ks := List.range kk
  match sr with
  | 1 | 2 =>
    let f := fun (x : Int) k => let y := sext 8 (ac k) + sext 8 (b.code k n); if sr = 1 then min x y else max x y
    BitVec.ofNat 64 (intBits 32 (ks.foldl f (sext 32 acc.toNat)))
  | 3 =>
    let f := fun (x : Fv) k =>
      let p := (elemValue fmt (ac k) none).mul (elemValue b.fmt (b.code k n) none)
      if x.isNan || p.isNan then .nan false else if x.lt p then p else x
    axOf (ks.foldl f (axValue acc.toNat))
  | _ => BitVec.ofNat 64 (ks.foldl (fun x k => x ||| (ac k &&& b.code k n)) (acc.toNat % 2) % 2)

/-- One row of an MMA into the accumulators; `ac` gives the A codes of the row. -/
def mmaRow (b : Bank) (ac : Nat → Nat) (w : EngWord) (row : Nat) (scales : List Byte) (axs : Cells 64) : Cells 64 :=
  let kk := kOf (w.sb.getD 1 0)
  let av := fun k => elemValue w.aFmt (ac k) (if w.aScaled then some (scales.getD (k / 32) 0).toNat else none)
  axs.setAll ((List.range (nOf (w.sb.getD 1 0))).map fun n =>
    let key := row * 512 + n
    (key, if w.fn = 0 then ptSlot b av kk n (axs.get key) else tropSlot w.fn w.aFmt b ac kk n (axs.get key)))

/-- The rows of one side; the scale bytes of its rows stand in order. -/
def mmaSide (b : Bank) (x : ATile) (w : EngWord) (z : Side) (scales : List Byte) (axs : Cells 64) : Cells 64 :=
  match layoutOf z.w.sa with
  | none => axs
  | some l =>
    let nb := ceilDiv (kOf (w.sb.getD 1 0)) 32
    -- K, N, FN and MOD are the conditional side's (R200)
    let w := { w with sa := z.w.sa }
    (List.range (rowsOf z.rowWord)).foldl (fun axs i => mmaRow b (x.code l (fmtWidth w.aFmt) i) w (z.base + i) ((scales.drop (nb * i)).take nb) axs) axs

/-- Row passes of an MMA (R170). -/
def passesOf (zs : List Side) : Nat := zs.foldl (fun n z => n + rowsOf z.rowWord) 0

/-- The operation whose members' A tile a side is (R200): the unconditional skein's is that of the operation matched with `o`. -/
def State.sideOp (s : State) (n : Nat) (o : EngOp) (z : Side) : Nat × EngOp :=
  match z.role, o.partner.bind fun m => (s.op? m).map fun u => (m, u) with
  | some false, some e => e
  | _, _ => (n, o)

/-- The A tile of a side of an MMA of the word `w`, as the side's own operation reads it: each element is old or new (R168, R243). -/
def State.aTile (s : State) (o : EngOp) (w : EngWord) (z : Side) : ATile :=
  match layoutOf z.w.sa with
  | none => ⟨⟨[], o.view, none⟩, []⟩
  | some l =>
    let pl := padPlace o.blk o.launch o.core l.space
    let width := fmtWidth w.aFmt
    let kk := kOf (w.sb.getD 1 0)
    let rows := rowsOf z.rowWord
    let x : ATile := ⟨s.tileOf pl (l.offsets (ceilDiv (kk * width) 8) rows 1 1) (s.memAt pl) o.view, []⟩
    let new := s.past.filter fun e => e.place = pl && o.view.base < e.seq
    if new.isEmpty then x
    else ((List.range rows).flatMap fun i => (List.range kk).map fun k => (i, k)).foldl (fun x e =>
      let as := (aBytes l width e.1 e.2).map fun a => (pl, a)
      if !(new.any (·.meets as)) then x
      else
        let r := s.readElem o.view as s.fresh (((as.head?.map Prod.snd).getD 0 * 8 + e.2 * width % 8 + 2 ^ 64) * 2 + if z.role = some false then 1 else 0)
        { t := { x.t with view := x.t.view.join r.2 }, elems := (e, codeIn width e.2 r.1) :: x.elems }) x

/-- A cell of the macros, or an AX slot, that an MMA reads has an uncorrectable error (R170). -/
def MatrixArray.badRead (a : MatrixArray) (w : EngWord) (zs : List Side) : Bool :=
  let kk := kOf (w.sb.getD 1 0)
  let nn := nOf (w.sb.getD 1 0)
  let cols := if a.live.fmt = 2 then 2 * nn else nn
  (a.live.bad.any fun c => c / 512 < kk && c % 512 < cols)
    || a.bad.any fun c => c % 512 < nn && zs.any fun z => z.base ≤ c / 512 && c / 512 < z.base + rowsOf z.rowWord

/-- An uncorrectable error abandons an MMA (R170): the error is delivered, and the MMA is executed again from its first row. The error of a
cell or slot is consumed (log 21). -/
def State.abandonMma (s : State) (o : EngOp) (c : Cause) (va : Nat) : State :=
  let s := if c == Cause.eccReg then s.modArray o.core fun a => { a with bad := [], live := { a.live with bad := [] } } else s
  (s.opEvent o Cause.mmaAbandon).opError o c va

/-- MMA_COMMIT (R171): the rows replace the committed ones in one step. -/
def execMmaCommit (n : Nat) (s : State) : Outcome :=
  match s.arrayDue n .mma with
  | none => .next (s.repost n)
  | some (o, a) =>
    let zs := s.sidesOf o
    let w := o.lead
    let tiles := zs.map fun z => (z, s.aTile (s.sideOp n o z).2 w z)
    if a.badRead w zs then .next (s.abandonMma o Cause.eccReg 0)
    else match tiles.findSome? fun e => e.2.t.bad with
      | some va => .next (s.abandonMma o Cause.eccPad va)
      | none =>
        let run := fun (e : Cells 64 × List Byte) (z : Side × ATile) => (mmaSide a.live z.2 w z.1 e.2 e.1, e.2.drop (claimBy w z.1))
        let (axs, queue) := tiles.foldl run (a.ax, a.queue)
        let s := s.modArray o.core fun a => { a with ax := axs, queue := queue }
        let s := tiles.foldl (fun s e => s.opView (s.sideOp n o e.1).1 e.2.t.view) s
        .next (((s.count o.fe 4 (passesOf zs)).opEvent o Cause.mmaCommit).arrayDone n o)

/-! ## The other operations -/

/-- MXSW_EXCHANGE (R166). -/
def execMxswExchange (n : Nat) (s : State) : Outcome :=
  match s.arrayDue n .mxsw with
  | none => .next (s.repost n)
  | some (o, _) => .next ((s.modArray o.core fun a => { a with live := a.shadow, shadow := a.live }).arrayDone n o)

/-- MXSQ_COMPLETE (R197): the bytes are appended; those that meet an error read zero (R278). -/
def execMxsqComplete (n : Nat) (s : State) : Outcome :=
  match s.arrayDue n .mxsq with
  | none => .next (s.repost n)
  | some (o, _) =>
    match layoutOf o.lead.sa with
    | none => .next (s.arrayDone n o)
    | some l =>
      let offs := l.offsets (sqBytes o.lead) (sqRows o.lead) 1 1
      let t := s.opTile o l.space 1 offs
      let s := match t.bad with | some va => s.opFault n Cause.eccPad va | none => s
      if (s.op? n).isNone then .next s
      else .next (((s.modArray o.core fun a => { a with queue := a.queue ++ offs.map (Cells.get t.pad) }).opView n t.view).arrayDone n o)

/-- The identity of a semiring (R175). -/
def identityOf : Nat → Dword
  | 1 => 0x000000007FFFFFFF | 2 => 0x0000000080000000 | 3 => 0xFFF0000000000000 | _ => 0

/-- MXC_CLEAR_COMPLETE (R202). -/
def execMxcClearComplete (n : Nat) (s : State) : Outcome :=
  match s.arrayDue n .clear with
  | none => .next (s.repost n)
  | some (o, _) =>
    let z := (s.sidesOf o).headD ⟨o.lead, none⟩
    let v := identityOf (o.lead.w.modN 2 0)
    let es := (List.range (rowsOf z.rowWord)).flatMap fun i => (List.range 512).map fun c => ((z.base + i) * 512 + c, v)
    .next ((s.modArray o.core fun a => { a with ax := a.ax.setAll es, bad := a.bad.filter fun c => !(es.map Prod.fst).contains c }).arrayDone n o)

/-- The bytes of an element of a drain's target (R201). -/
def drainBytes : Nat → Nat
  | 0x0 | 0xD => 4 | 0x1 | 0x2 => 2 | 0xE => 8 | _ => 1

/-- A slot converted once into a target (R176). -/
def drainCode (fmt : Nat) (rm : Rm) (slot : Dword) : Nat :=
  if fmt = 0xD then slot.toNat % 2 ^ 32 else if fmt = 0xE then slot.toNat
  else (convValue fmt rm false (axValue slot.toNat)).code

/-- The guided value of two slots (R179): the exact real u + s × (c − u), rounded once. -/
def guideCode (fmt : Nat) (rm : Rm) (s : Word) (c u : Dword) : Nat :=
  let cv := axValue c.toNat
  let uv := axValue u.toNat
  (convValue fmt rm false (uv.add rm ((v32 s).mul (cv.add rm uv.neg)))).code

/-- The runs of consecutive pad bytes that make up the row `i` of a tile of `run` bytes (R188): the first byte of each and its length. -/
def Layout.runs (l : Layout) (run : Nat) : List (Nat × Nat) :=
  if l.perm = 0 then [(0, run)] else (List.range (ceilDiv run 16)).map fun q => (16 * q, min 16 (run - 16 * q))

/-- Write the elements of a drain, of `b` bytes each, into its tile. -/
def State.drainTile (s : State) (n : Nat) (o : EngOp) (l : Layout) (b rows cols : Nat) (code : Nat → Nat → Nat) : State :=
  let pl := padPlace o.blk o.launch o.core l.space
  (List.range rows).foldl (fun s i =>
    let bytes := (List.range cols).flatMap fun c => bytesOf b (code i c)
    (l.runs (b * cols)).foldl (fun s e =>
      s.opPadWrite n pl (if 4 ≤ b then 4 else 1) (l.at e.1 i 0 0) ((bytes.drop e.1).take e.2) (List.replicate e.2 0xFF)) s) s

/-- An AX slot that a drain reads has an uncorrectable error. -/
def MatrixArray.badDrain (a : MatrixArray) (w : EngWord) (bases : List Nat) : Bool :=
  a.bad.any fun c => c % 512 < nOf (w.sb.getD 1 0) && bases.any fun b => b ≤ c / 512 && c / 512 < b + rowsOf (w.sb.getD 0 0)

/-- Carry out a drain of rows that start at `bases`. -/
def State.drain (s : State) (n : Nat) (o : EngOp) (a : MatrixArray) (bases : List Nat) (code : Nat → Nat → Nat) : State :=
  let w := o.lead
  if a.badDrain w bases then (s.modArray o.core fun a => { a with bad := [] }).opError o Cause.eccReg 0
  else
    let b := drainBytes (w.w.modN 3 0)
    let s := match layoutOf w.sa with
      | none => s
      | some l => (s.drainTile n o l b (rowsOf (w.sb.getD 0 0)) (nOf (w.sb.getD 1 0)) code).count o.fe 7 (b * rowsOf (w.sb.getD 0 0) * nOf (w.sb.getD 1 0))
    (s.opEvent o Cause.mxdDone).arrayDone n o

/-- MXD_COMPLETE (R201): a plain or a guided drain. -/
def execMxdComplete (n : Nat) (s : State) : Outcome :=
  match s.arrayDue n .mxd, s.arrayDue n .guide with
  | some (o, a), _ =>
    let z := (s.sidesOf o).headD ⟨o.lead, none⟩
    let w := o.lead.w
    .next (s.drain n o a [z.base] fun i c => drainCode (w.modN 3 0) (.ofNat2 (w.modN 5 4)) (a.ax.get ((z.base + i) * 512 + c)))
  | _, some (o, a) =>
    match s.sidesOf o with
    | [zc, zu] =>
      let w := o.lead.w
      .next (s.drain n o a [zc.base, zu.base] fun i c => guideCode (w.modN 3 0) (.ofNat2 (w.modN 5 4)) (o.lead.sb.getD 2 0)
        (a.ax.get ((zc.base + i) * 512 + c)) (a.ax.get ((zu.base + i) * 512 + c)))
    | _ => .next s
  | _, _ => .next (s.repost n)

/-! ## Loading B (R195) -/

/-- What an engine has fetched of a list of bytes: the 64-byte lines by address, the first absent address, the causes with their
addresses. -/
structure Lines where
  lines  : Table Nat (List Byte) := []
  absent : Option Nat := none
  bad    : List (Cause × Nat) := []
  view   : View := {}
  /-- codes of elements, by row and column, that a racing write meets (R195) -/
  elems  : List ((Nat × Nat) × Nat) := []
  deriving DecidableEq, Repr

/-- Fetch the 64-byte lines of a list of addresses for an engine of a block that has `v` behind it, each once, in units of `g` bytes. -/
def State.engLines (s : State) (fe blk : Nat) (v : View) (g : Nat) (vas : List Nat) : Lines :=
  (vas.map (· / 64 * 64)).eraseDups.foldl (fun r a =>
    match s.engRead fe blk v g a 64 with
    | .absent => { r with absent := match r.absent with | some x => some x | none => some a }
    | .fault c => { r with bad := noteBad r.bad c a }
    | .ok x => { r with lines := r.lines.put a x.bytes, view := r.view.join x.view }) { view := v }

/-- A fetched byte; a byte that met a fault reads zero. -/
def Lines.has (r : Lines) (va : Nat) : Bool := (r.lines.get? (va / 64 * 64)).isSome
def Lines.byte (r : Lines) (va : Nat) : Byte := ((r.lines.get? (va / 64 * 64)).getD []).getD (va % 64) 0

/-- The tile that MXB loads. -/
structure BLoad where
  t  : Tde
  o0 : Nat
  o1 : Nat
  k  : Nat
  n  : Nat
  deriving DecidableEq, Repr

def bLoadOf (w : EngWord) (d : BitVec 512) : BLoad :=
  ⟨tdeOf d, (w.sa.getD 1 0).toNat, (w.sa.getD 2 0).toNat, kOf (w.sa.getD 3 0), nOf (w.sa.getD 3 0)⟩

/-- Whether element (k, n) of the tile lies in the tensor. -/
def BLoad.isIn (z : BLoad) (k n : Nat) : Bool := z.o0 + k < z.t.exN 0 && z.o1 + n < z.t.exN 1

/-- The bytes of element (k, n) (R91). -/
def BLoad.elemVas (z : BLoad) (k n : Nat) : List Nat := (elemBytes z.t.width (z.o0 + k)).map (z.t.base + (z.o1 + n) * z.t.sdN 1 + ·)

/-- The scale byte of block kb of column n, and whether its block lies in the tensor (R186, R195). -/
def BLoad.scaleIn (z : BLoad) (kb n : Nat) : Bool := z.isIn (32 * kb) n
def BLoad.scaleVa (z : BLoad) (kb n : Nat) : Nat := (z.t.scaleVa ((z.o0 / 32 + kb : Nat) : Int) [((z.o1 + n : Nat) : Int), 0, 0, 0]).toNat

/-- The elements of the tile that lie in the tensor, by column and row. -/
def BLoad.inside (z : BLoad) : List (Nat × Nat) :=
  ((List.range z.n).flatMap fun n => (List.range z.k).map fun k => (k, n)).filter fun e => z.isIn e.1 e.2

/-- The bytes of the elements and the scale bytes that MXB reads. -/
def BLoad.vas (z : BLoad) : List Nat := z.inside.flatMap fun e => z.elemVas e.1 e.2
def BLoad.scaleVas (z : BLoad) : List Nat :=
  if z.t.sbase = 0 then [] else
    (List.range z.n).flatMap fun n => (List.range 8).flatMap fun kb => if z.scaleIn kb n then [z.scaleVa kb n] else []

/-- The code of element (k, n): one that a fault has touched reads as zero (R195). -/
def BLoad.code (z : BLoad) (r : Lines) (k n : Nat) : Nat :=
  let vas := z.elemVas k n
  if !vas.all r.has then 0
  else ((r.elems.find? fun e => e.1 == (k, n)).map Prod.snd).getD (codeIn z.t.width (z.o0 + k) (vas.map r.byte))

/-- Where a byte of a partition's memory lies. -/
def State.locateVa (s : State) (fe va : Nat) : Option (Place × Nat) :=
  match walk (s.tlb fe) (s.fe fe) va with
  | .page p => some ((s.fe fe).place p)
  | _ => none

/-- The elements as MXB reads them (R195): memory as it is, and each element that a racing write meets is old or new. DESIGN CHOICE (log 24): R168 and R195 have
it element by element where R235's table would have each byte of a narrow element by itself. -/
def State.bElems (s : State) (o : EngOp) (z : BLoad) : Lines :=
  let r := { s.engLines o.fe o.blk s.allSeen 1 z.vas with view := o.view }
  let new := s.past.filter fun e => o.view.base < e.seq
  if new.isEmpty then r
  else z.inside.foldl (fun r e =>
    let vas := z.elemVas e.1 e.2
    let as := vas.filterMap (s.locateVa o.fe)
    if as.length != vas.length || !(new.any (·.meets as)) then r
    else
      let x := s.readElem o.view as s.fresh (((as.head?.map Prod.snd).getD 0 * 8 + (z.o0 + e.1) * z.t.width % 8 + 2 ^ 64) * 2)
      let bs := (vas.zip x.1).flatMap fun y => overlay (s.buffered o.blk) y.1 [y.2]
      { r with view := r.view.join x.2, elems := (e, codeIn z.t.width (z.o0 + e.1) bs) :: r.elems }) r

/-- The shadow bank as MXB leaves it (R165, R195), from the elements and the scale bytes read. -/
def BLoad.bank (z : BLoad) (r q : Lines) (old : Bank) : Bank :=
  let cells : List (Nat × Byte) := (List.range z.n).flatMap fun n => (List.range z.k).flatMap fun k =>
    let c := if z.isIn k n then z.code r k n else 0
    if z.t.fmt = 2 then [(k * 512 + 2 * n, BitVec.ofNat 8 c), (k * 512 + 2 * n + 1, BitVec.ofNat 8 (c / 256))]
    else [(k * 512 + n, BitVec.ofNat 8 c)]
  let scales : List (Nat × Byte) := (List.range z.n).flatMap fun n => (List.range 8).map fun kb =>
    (kb * 512 + n, if z.scaleIn kb n then q.byte (z.scaleVa kb n) else if z.t.fmt = 8 then 0x1F else 0x7F)
  { cells := Cells.setAll [] cells
    scales := if z.t.sbase = 0 then old.scales else old.scales.setAll scales
    loaded := true, fmt := z.t.fmt, scaled := z.t.sbase != 0, k := z.k, n := z.n }

/-- MXB_COMPLETE (R195): held on a page that is not present; what met another cause reads zero (R278). -/
def execMxbComplete (n : Nat) (s : State) : Outcome :=
  match s.arrayDue n .mxb with
  | none => .next (s.repost n)
  | some (o, _) =>
    let z := bLoadOf o.lead (o.descs.headD 0)
    let r := s.bElems o z
    let q := s.engLines o.fe o.blk o.view 1 z.scaleVas
    match r.absent.or q.absent with
    | some va => .next (s.holdOp n va false)
    | none =>
      let s := (r.bad ++ q.bad).foldl (fun s e => s.opFault n e.1 e.2) s
      match s.op? n with
      | none => .next s
      | some o =>
        let s := (s.modArray o.core fun a => { a with shadow := z.bank r q a.shadow }).opView n (r.view.join q.view)
        .next (((s.countRead o z.t.base (z.vas.length + z.scaleVas.length)).opEvent o Cause.mxbDone).arrayDone n o)

end Sys2Proof.Machine
end

