-- ==== Sys2Proof/Machine/Collective.lean ====
section
/-!
DEFINITION. Collective issue (R31, R181, R182, R194, R274): the members' arrivals, the checks that each makes, the start of an operation when
every current member has arrived, and what a change of membership does; skeins (R265).
-/
namespace Sys2Proof.Machine

/-! ## Starting -/

/-- An operation whose current members have all arrived becomes ready (R181, R271, R274): from then on a change of membership has no effect on
it (R268). A copy makes its start checks. -/
def State.ripen (s : State) (n : Nat) (o : EngOp) : State :=
  if o.stage != .gathering || !s.gathered o then s
  else
    let (t, s) := s.name
    let s := s.setOp n { o with stage := .ready, ready := t }
    if o.kind.copy then s.checkCopy n else s

/-- End a copy that has moved everything (R273 step 3): the flag word, one arrival, the handle. A CPL that has met a cause withdraws its MMA (R282). -/
def State.endCopy (s : State) (n : Nat) : State :=
  match s.postFlag n with
  | (s, false) => s
  | (s, true) =>
    match s.op? n with
    | none => s
    | some o =>
      let s := (s.postDone n).opEvent o Cause.copyDone
      let s := if o.discard then s.opEvent o Cause.cpxDiscard else s
      match o.follow with
      | some m => if o.cause != 0 then s.withdraw m else s
      | none => s

/-- Try to start an operation (R181, R274): nothing happens while members are missing. One that is held in its completion goes on with it. -/
def State.tryStart (s : State) (n : Nat) : State :=
  match s.op? n with
  | none => s
  | some o =>
    if !s.opLive o then s
    else if o.posting then (if o.kind.copy then s.endCopy n else s.complete n)
    else
      let s := s.ripen n o
      if !o.kind.copy then s.tryEnter n
      else match (s.op? n).map EngOp.stage with
        | some .ready => s.startCopy n
        | some .queued => s.acceptCopy n
        | _ => s

/-- RECORD_FREED_START (R268): an operation that waited for a record, or for another cause to end, tries again. -/
def execRecordFreedStart (n : Nat) (s : State) : Outcome := .next (s.tryStart n)

/-! ## Membership -/

/-- Members of a skein. -/
def State.skeinOf (s : State) (blk k : Nat) : List (StrandRef × Strand) :=
  (s.strandsOf blk).filter fun e => !e.2.ended && e.2.skein == some k

/-- SKN.SYNC is over when every current member has arrived (R265): every arrival happens before what follows in each (R242). -/
def State.syncDone (s : State) (blk k : Nat) : State :=
  let ms := s.skeinOf blk k
  let v := ms.foldl (fun (v : View) e => v.join (e.2.viewOf e.2.live)) {}
  if ms.all fun e => e.2.wait == .sync then ms.foldl (fun s e => s.modStrand e.1 fun x => { x.sync x.live v with wait := .released }) s else s

/-- Skeins that wait in MXC.PAIR trap when their membership changed or their partner is gone (R203). -/
def State.breakPairs (s : State) (blk : Nat) (ks : List Nat) : State :=
  s.ops.foldl (fun s e =>
    match s.op? e.1 with
    | none => s
    | some o =>
      if o.blk != blk || o.kind != .pair || o.stage != .ready then s
      else match o.skein with
        | none => s
        | some k =>
          -- a skein waits in MXC.PAIR when all who were its members before the change had arrived
          let waiting := o.num = 1
          let gone := ks.contains (pairPartner o.lead) && (s.skeinOf blk (pairPartner o.lead)).isEmpty
          if waiting && (ks.contains k || gone) then s.trapMembers e.1 o Cause.pairBroken else s) s

/-- The membership of skeins has changed (R180, R181, R203, R265). -/
def State.membership (s : State) (blk : Nat) (ks : List Nat) : State :=
  let s := match s.block? blk with
    | some b => match (s.core b.core).array with
      | some a => match a.pair with
        | some p => if a.owner == blk && (ks.contains p.cond || ks.contains p.unc) then s.dissolve b.core else s
        | none => s
      | none => s
    | none => s
  let s := s.breakPairs blk ks
  let s := ks.foldl (fun s k => s.syncDone blk k) s
  (s.ops.filter fun e => e.2.blk == blk && e.2.stage == .gathering).foldl (fun s e => s.tryStart e.1) s

/-! ## Arrival -/

/-- The function code of a word as R181 compares it. -/
structure CollWord where
  kind : EngKind
  w    : E
  fn   : Nat
  deriving DecidableEq, Repr

/-- Whether a word is collective over the block. -/
def CollWord.bk (x : CollWord) : Bool := x.kind.copy && x.kind != .cpr && x.w.bk

/-- The operations that wait for a strand's arrival (R181): its skein's and its block's. -/
def State.awaiting (s : State) (blk : Nat) (skein : Option Nat) : List (Nat × EngOp) :=
  s.ops.filter fun e => e.2.blk == blk && e.2.stage == .gathering && (e.2.bk || (e.2.skein.isSome && e.2.skein == skein))

/-- Whether SKN.SYNC of a skein waits. -/
def State.syncWaits (s : State) (blk : Nat) (skein : Option Nat) : Bool :=
  match skein with
  | some k => (s.skeinOf blk k).any fun e => e.2.wait == .sync
  | none => false

/-- The checks of the flag address (R193). -/
def flagChecks (la : Launch) (w : EngWord) : List (Bool × Cause × Nat) :=
  if !w.w.fe then []
  else
    let sp := w.flagSpace
    [(w.flagAddr % 4 != 0, Cause.misaligned, w.flagAddr), (sp != .device && la.padSize sp < w.flagAddr + 4, padCause sp, w.flagAddr)]

/-- A tile of `run` bytes by `rows` rows lies outside its level. -/
def tileOut (la : Launch) (l : Layout) (run rows : Nat) : Bool × Cause × Nat := (!l.inside la run rows 1 1, padCause l.space, l.poff)

/-- The checks of an entry at arrival (R195 to R202, R281 to R287): those that stand before SKEIN_DIVERGE in its table, and those after. -/
def arrivalChecks (la : Launch) (skein : Option Nat) (k : EngKind) (w : EngWord) : List (Bool × Cause × Nat) × List (Bool × Cause × Nat) :=
  match k with
  | .mxb => ([((w.sa.getD 1 0).toNat % 32 != 0, Cause.boxRange, 0)], [])
  | .mxsq =>
    match layoutOf w.sa with
    | none => ([(true, Cause.layoutInvalid, 0)], [])
    | some l => ([tileOut la l (sqBytes w) (sqRows w)], [])
  | .mma =>
    match layoutOf w.sa with
    | none => ([(true, Cause.layoutInvalid, 0)], [])
    | some l => ([tileOut la l (ceilDiv (kOf (w.sb.getD 1 0) * Fp.fmtWidth w.aFmt) 8) (rowsOf (w.sb.getD 0 0))], [])
  | .mxd | .guide =>
    match layoutOf w.sa with
    | none => ([(true, Cause.layoutInvalid, 0)], [])
    | some l =>
      let f := w.w.modN 3 0
      let b := drainBytes f
      ([(!(f ≤ 4 || f == 0xD || f == 0xE) || (k == .guide && (f == 0xD || f == 0xE)), Cause.formatPair, 0),
        (l.poff % b != 0 || l.sd1 % b != 0, Cause.misaligned, l.poff),
        tileOut la l (nOf (w.sb.getD 1 0) * b) (rowsOf (w.sb.getD 0 0))], [])
  | .pair => ([(skein.isNone || skein == some (pairPartner w), Cause.pairShape, 0)], [])
  | .cpm =>
    match tileMoveOf w with
    | none => ([(true, Cause.layoutInvalid, 0)], [])
    | some m => ([], [(!m.src.inside la m.e0 m.e1 m.e2 m.e3, padCause m.src.space, m.src.poff),
                      (!m.dst.inside la m.e0 m.e1 m.e2 m.e3, padCause m.dst.space, m.dst.poff)])
  | .cpl | .cps | .cpq | .cpx =>
    match layoutOf w.sb with
    | none => ([(true, Cause.layoutInvalid, 0)], [])
    | some l => ([(k == .cpx && l.space != .core, Cause.layoutInvalid, 0)], [])
  | _ => ([], [])

/-- A word that only a shadow's abandonment answers (R357): it would write what another block can see. -/
def CollWord.reveals (x : CollWord) (k : Strand) : Bool :=
  let w := k.engWord x.kind x.w x.fn
  let outside := fun (ws : List Word) => match layoutOf ws with | some l => l.space != .core | none => false
  (x.w.fe && x.w.fsp != 1) || match x.kind with
    | .cps | .cpq | .cpx | .cpr => true
    | .cpm | .cpl => outside w.sb
    | .mxd | .guide => outside w.sa
    | _ => false

/-- Why a collective word waits before it arrives (R164, R177, R377): reduced service, an array of another block, a pair of
other skeins. -/
def Ctx.holdOff (c : Ctx) (k : EngKind) : Option Stall :=
  if c.s.service == .reduced then some (if k.copy then .other else .arrayBusy)
  else if k.copy then none
  else match (c.s.core c.b.core).array with
    | none => none
    | some a =>
      if a.owner != c.r.blk then some .arrayBusy
      else match a.pair with
        | some p => if c.k.skein == some p.cond || c.k.skein == some p.unc then none else some .pair
        | none => none

/-- What a strand waits for in its operation (R194, R274). -/
def EngOp.stall (o : EngOp) : Stall :=
  if o.kind.copy then (if o.stage == .queued then .other else .barrier) else .arrayBusy

/-- How a strand stands after its operation was tried. -/
def State.arrived (s : State) (r : StrandRef) (n : Nat) : Verdict :=
  match s.strand? r with
  | none => .over s
  | some k =>
    if k.wait == .started n then .done s
    else if k.wait == .op n then
      .wait (if k.why == .pair || k.why == .handle || k.why == .arrayBusy || k.why == .parked || k.why == .other || k.why == .barrier then k.why else .other) s
    else .over s

/-- Record an arrival (R181, R274), at which the words `is` are folded (R52), and try to start the operation. The arrival is a release (R182,
R243). -/
def Ctx.join (c : Ctx) (x : CollWord) (w : EngWord) (fo : Option EngWord) (is : List Instr) : Verdict :=
  let a : Arrival := ⟨c.r.sid, c.k.pc, c.act, c.k.region, w, fo, c.k.sig⟩
  let s := if x.kind.copy then c.s else c.s.claimArray c.b.core c.r.blk
  let here := (s.awaiting c.r.blk c.k.skein).filter fun e => e.2.bk == x.bk
  let (n, s) := match here with
    | (n, o) :: _ => (n, s.setOp n { o with arr := o.arr ++ [a] })
    | [] =>
      let (n, s) := s.name
      let o : EngOp := { kind := x.kind, blk := c.r.blk, launch := c.b.launch, core := c.b.core, fe := c.la.fe
                         skein := if x.bk then none else c.k.skein, bk := x.bk, arr := [a], ready := n }
      (n, s.setOp n { o with num := if (s.pairedOp o).isSome && (x.kind == EngKind.mma || x.kind == EngKind.guide) then n + 1 else 0 })
  let s := match s.op? n with
    | some o =>
      (s.setOp n { o with view := o.view.join (c.k.viewOf c.act) }).modStrand c.r fun k =>
        { is.foldl Strand.fold k with wait := .op n, why := o.stall }
    | none => s
  (s.tryStart n).arrived c.r n

/-- Arrive at a collective word (R181, R194, R274): its checks in the order of its table, then what it waits for, then the arrival. -/
def Ctx.collect (c : Ctx) (x : CollWord) (more : List (Bool × Cause × Nat)) (fo : Option EngWord) (is : List Instr) : Verdict :=
  match c.k.wait with
  | .started _ => .done c.s
  | .op n => (c.s.tryStart n).arrived c.r n
  | _ =>
    let w := c.rd.engWord x.kind x.w x.fn
    let (pre, post) := arrivalChecks c.la c.k.skein x.kind w
    let fail := fun (e : Cause × Nat) (go : Verdict) => if e.1 = 0 then go else .trap e.1 c.act (BitVec.ofNat 64 e.2) 0
    let first := fun (l : List (Bool × Cause × Nat)) => (firstCause l).getD (0, 0)
    fail (first pre) <|
      let missing := c.k.live &&& ~~~c.k.mask
      if missing != 0 then .trap Cause.skeinDiverge missing 0 0
      else if (c.s.awaiting c.r.blk c.k.skein).any (fun e => e.2.kind != x.kind || e.2.lead.fn != x.fn || e.2.bk != x.bk)
          || c.s.syncWaits c.r.blk c.k.skein then c.trapAll Cause.skeinDiverge
      else if x.w.be && !(c.b.bar x.w.bn.toNat).init then c.trapAll Cause.barUninit
      else
        let own := if x.kind == .pair && (c.s.pairedOp { kind := .pair, blk := c.r.blk, launch := c.b.launch, core := c.b.core, fe := c.la.fe, skein := c.k.skein, bk := false }).isSome
          then [(true, Cause.pairShape, 0)] else []
        fail (first (post ++ flagChecks c.la w ++ own ++ more)) <|
          match c.holdOff x.kind with
          | some why => .wait why c.s
          | none =>
            match c.s.orderWait c.r with
            | some why => .wait why c.s
            | none => c.join x w fo is

/-- A collective word (R67, R192, R272). -/
def collWord (i : Instr) (x : CollWord) (s : State) : Outcome :=
  word i s
    (fun c => { stall := x.w.stall.toNat, checks := [(engRange x.kind x.w, Cause.regRange)]
                reads := (engRegs x.kind x.w).map .s, writes := if x.w.hw then [.h x.w.hd.toNat] else []
                folded := true, noShadow := x.reveals c.k })
    fun c => c.collect x [] none [i]

/-! ## Skeins -/

/-- A strand joins or leaves (R265). -/
def State.reskein (s : State) (r : StrandRef) (dest : Option Nat) : State :=
  match s.strand? r with
  | none => s
  | some k =>
    if k.skein == dest then s
    else (s.setStrand r { k with skein := dest }).membership r.blk (k.skein.toList ++ dest.toList)

/-- A SKN word: once for the strand. -/
def sknWord (i : Instr) (x : F) (g : Shape) (eff : Ctx → Verdict) (s : State) : Outcome :=
  word i s (fun c => { g.spec x.h c with slots := none, lat := none }) eff

/-- SKN.JOIN (R265): it needs an active thread. -/
def execSknJoin (x : F) (s : State) : Outcome :=
  sknWord (.sknJoin x) x (if x.bi then {} else { regs := { sreg := [x.b] }, reads := [.s x.b.toNat] }) (fun c =>
    let id := if x.bi then x.b.toNat else (c.rd.sGet x.b.toNat).toNat % 16
    .done (if c.act = 0 then c.s else c.s.reskein c.r (some id))) s

/-- SKN.LEAVE (R265). -/
def execSknLeave (x : F) (s : State) : Outcome :=
  sknWord (.sknLeave x) x {} (fun c => .done (c.s.reskein c.r none)) s

/-- SKN.SYNC (R265): needs every non-exited thread, and waits for every current member. -/
def execSknSync (x : F) (s : State) : Outcome :=
  sknWord (.sknSync x) x {} (fun c =>
    match c.k.wait with
    | .released => .done c.s
    | .sync => .wait .barrier c.s
    | _ =>
      let missing := c.k.live &&& ~~~c.k.mask
      if missing != 0 then .trap Cause.skeinDiverge missing 0 0
      else match c.k.skein with
        | none => .done c.s
        | some k =>
          if (c.s.awaiting c.r.blk (some k)).any fun e => !e.2.bk then c.trapAll Cause.skeinDiverge
          else match c.s.orderWait c.r with
            | some why => .wait why c.s
            | none =>
              let s := (c.s.modStrand c.r fun x => { x with wait := .sync }).syncDone c.r.blk k
              if ((s.strand? c.r).map Strand.wait) == some .released then .done s else .wait .barrier s) s

end Sys2Proof.Machine
end

