-- ==== Sys2Proof/Machine/EngineWords.lean ====
section
/-!
DEFINITION. The words that issue engine operations (R195 to R203, R281 to R287), CPL.fo with the MMA word that follows it (R282), the completion
of a CPR (R288), and HND.CANCEL (R270).
-/
namespace Sys2Proof.Machine
open Sys2Proof.Fp

/-! ## Array words -/

/-- MXB (R195). -/
def execMxb (x : E) (s : State) : Outcome := collWord (.mxb x) ⟨.mxb, x, 0⟩ s
/-- MXSW (R196). -/
def execMxsw (x : E) (s : State) : Outcome := collWord (.mxsw x) ⟨.mxsw, x, 0⟩ s
/-- MXSQ (R197). -/
def execMxsq (x : E) (s : State) : Outcome := collWord (.mxsq x) ⟨.mxsq, x, 0⟩ s
/-- MMA (R198). -/
def execMma (sr : Fin 5) (x : E) (s : State) : Outcome := collWord (.mma sr x) ⟨.mma, x, sr.val⟩ s
/-- MXD (R201). -/
def execMxd (x : E) (s : State) : Outcome := collWord (.mxd x) ⟨.mxd, x, 0⟩ s
/-- MXD.guide (R201). -/
def execMxdGuide (x : E) (s : State) : Outcome := collWord (.mxdGuide x) ⟨.guide, x, 1⟩ s
/-- MXC.CLEAR (R202). -/
def execMxcClear (x : E) (s : State) : Outcome := collWord (.mxcClear x) ⟨.clear, x, 0⟩ s
/-- MXC.PAIR (R203). -/
def execMxcPair (x : E) (s : State) : Outcome := collWord (.mxcPair x) ⟨.pair, x, 1⟩ s
/-- MXC.UNPAIR (R202). -/
def execMxcUnpair (x : E) (s : State) : Outcome := collWord (.mxcUnpair x) ⟨.unpair, x, 2⟩ s

/-! ## Copy words -/

/-- CPL (R281). -/
def execCpl (x : E) (s : State) : Outcome := collWord (.cpl x) ⟨.cpl, x, 0⟩ s
/-- CPS (R281). -/
def execCps (x : E) (s : State) : Outcome := collWord (.cps x) ⟨.cps, x, 0⟩ s
/-- CPM (R283). -/
def execCpm (x : E) (s : State) : Outcome := collWord (.cpm x) ⟨.cpm, x, 0⟩ s
/-- CPQ (R284). -/
def execCpq (x : E) (s : State) : Outcome := collWord (.cpq x) ⟨.cpq, x, 0⟩ s
/-- CPX (R286). -/
def execCpx (x : E) (s : State) : Outcome := collWord (.cpx x) ⟨.cpx, x, 0⟩ s
/-- CPR (R287). -/
def execCpr (x : E) (s : State) : Outcome := collWord (.cpr x) ⟨.cpr, x, 0⟩ s

/-! ## CPL.fo -/

/-- What stands at PC + 8 of a CPL.fo (R282). -/
inductive Next where
  | mma (sr : Fin 5) (x : E)
  /-- the cause, and the fetch PC where the fetch has met it -/
  | bad (c : Cause) (va : Dword)
  | miss
  | absent
  deriving DecidableEq, Repr

/-- Read the word after a CPL.fo: one that is no MMA word is RESERVED_FIELD, and an MMA word's own decode causes are its checks. -/
def Ctx.nextWord (c : Ctx) : Next :=
  match c.s.fetchAt c.la.fe c.b.core (c.k.pc + 8) with
  | .miss => .miss
  | .absent => .absent
  | .fault e => .bad e (c.k.pc + 8)
  | .word w =>
    if w.extractLsb' 56 8 != 0x73#8 then .bad Cause.reservedField 0
    else match decode w with
      | .ok (.mma sr x) => .mma sr x
      | .error .illegalOpcode => .bad Cause.illegalOpcode 0
      | _ => .bad Cause.reservedField 0

/-- The checks that the MMA of a CPL.fo makes at the CPL's arrival (R282). -/
def Ctx.followChecks (c : Ctx) (w : EngWord) : List (Bool × Cause × Nat) :=
  (engRange .mma w.w, Cause.regRange, 0) :: (arrivalChecks c.la c.k.skein .mma w).1
    ++ (w.w.be && !(c.b.bar w.w.bn.toNat).init, Cause.barUninit, 0) :: flagChecks c.la w

/-- CPL.fo (R282): one arrival for the two words; the strand goes on at PC + 16, and both words are folded (R52). -/
def execCplFo (x : E) (s : State) : Outcome :=
  let cw : CollWord := ⟨.cpl, x, 0⟩
  word (.cplFo x) s
    (fun c =>
      let next := c.nextWord
      let regs := match next with | .mma _ y => engRegs .mma y | _ => []
      { stall := x.stall.toNat
        checks := [(next == .bad Cause.reservedField 0, Cause.reservedField), (engRange .cpl x, Cause.regRange)]
        reads := (engRegs .cpl x ++ regs).map .s
        writes := (if x.hw then [.h x.hd.toNat] else []) ++ match next with | .mma _ y => (if y.hw then [.h y.hd.toNat] else []) | _ => []
        moves := true, folded := true, noShadow := cw.reveals c.k })
    fun c =>
      match c.nextWord with
      | .miss => .wait .fetch c.s
      | .absent =>
        let s := c.s.refault c.k.fetchHeld c.la.fe c.b.launch c.b.core (c.k.pc + 8).toNat 3 c.r.sid
        .wait .parked (s.modStrand c.r fun k => { k with fetchHeld := .held })
      | .bad e va => c.trapAll e va
      | .mma sr y =>
        let w := c.rd.engWord .mma y sr.val
        match c.collect cw (c.followChecks w) (some w) [.cplFo x, .mma sr y] with
        | .done s => .done (s.modStrand c.r fun k => { k with pc := k.pc + 16, entry := false, drain := false })
        | v => v

/-! ## Units and completion of a copy -/

/-- COPY_UNIT_WRITTEN (R273): one unit of a copy, in any order; after the data and scale units, the next exception. A CPQ is staged before its
first unit (R284), and with the last byte of a CPL its MMA is issued (R282). -/
def execCopyUnitWritten (n cell : Nat) (s : State) : Outcome :=
  match s.op? n with
  | none => .next s
  | some o =>
    if o.stage != .running || o.kind == .cpr || !o.kind.copy || !s.opLive o || o.moved.contains cell then .next s
    else
      let s := if o.kind == .cpq && o.staged.isEmpty then s.stageCpq n o else s
      match s.op? n with
      | none => .next s
      | some o => .next ((s.moveUnit n cell o).freeFollow n)

/-- COPY_COMPLETE (R273 step 3). -/
def execCopyComplete (n : Nat) (s : State) : Outcome :=
  match s.op? n with
  | none => .next s
  | some o =>
    if o.stage != .running || o.kind == .cpr || !o.kind.copy || !s.opLive o || !o.landed then .next s
    else .next (s.endCopy n)

/-! ## CPR (R287, R288) -/

/-- The element format of a CPR: FP32, FP16 or BF16. -/
def cprFmt (w : EngWord) : Format := match w.w.modN 3 0 with | 0 => fp32 | 1 => fp16 | _ => bf16

/-- Two elements reduced (R288): `b07` is FMINMAX's erratum. -/
def cprStep (b07 : Bool) (w : EngWord) (x y : Nat) : Nat :=
  let op := w.w.modN 5 4
  if w.w.modN 3 0 = 0xD then
    match op with
    | 0 => (x + y) % 2 ^ 32
    | 1 => if sext 32 y < sext 32 x then y else x
    | _ => if sext 32 x < sext 32 y then y else x
  else
    let f := cprFmt w
    if op = 0 then (addF f .rn (Fp.decode f x) (Fp.decode f y)).code
    else
      let up := fun n => toWord (round fp32 .rn (Fp.decode f n))
      (round f .rn (v32 (toWord (minmaxF b07 (op - 1) (up x) (up y)).1))).code

/-- Take the members in an order drawn from a number (R288). -/
def drawOrder : Nat → List Nat → Nat → List Nat
  | 0, l, _ => l
  | n + 1, l, seed =>
    match l with
    | [] => []
    | l => let i := seed % l.length
           l.getD i 0 :: drawOrder n (l.eraseIdx i) (seed / l.length)

/-- The reduction of one element over the members (R288): a floating-point sum in some order, one order for each element. -/
def cprElement (b07 : Bool) (w : EngWord) (fresh : Nat) (vs : List Nat) : Nat :=
  match drawOrder vs.length vs (Config.reductionOrder fresh) with
  | [] => 0
  | [v] => if w.w.modN 3 0 = 0xD then v else (addF (cprFmt w) .rn (Fp.decode (cprFmt w) v) (.fin true 0 0)).code
  | v :: vs => vs.foldl (cprStep b07 w) v

/-- The source VA, destination VA and count of a CPR. -/
def cprSrc (w : EngWord) : Nat := (w.sa.getD 1 0 ++ w.sa.getD 0 0 : Dword).toNat
def cprDst (w : EngWord) : Nat := (w.sa.getD 3 0 ++ w.sa.getD 2 0 : Dword).toNat
def cprCount (w : EngWord) : Nat := (w.sa.getD 4 0).toNat

/-- The unit of an element's accesses (R235): the word, or each byte of a narrower element. -/
def cprUnit (size : Nat) : Nat := if size = 4 then 4 else 1

/-- Write the elements of a reduction (R278). -/
def State.cprWrite (s : State) (n dst size : Nat) (vs : List Nat) : State :=
  (vs.zipIdx).foldl (fun s e => s.putUnit n (cprUnit size) (dst + size * e.2) (bytesOf size e.1) (List.replicate size 0xFF) id) s

/-- The first page of a run of bytes to be written that is not present. -/
def State.absentIn (s : State) (fe dst len : Nat) : Option Nat :=
  (List.range (ceilDiv (dst % 64 + len) 64)).findSome? fun i =>
    let a := if i = 0 then dst else dst / 64 * 64 + 64 * i
    match lookup (s.tlb fe) (s.fe fe) .engWrite a 1 with | .absent => some a | _ => none

/-- A CPR whose every destination element has been written completes (R273, R287). -/
def State.cprDone (s : State) (n : Nat) (o : EngOp) : State := (s.postBytes n (cprBytes o.lead * cprCount o.lead)).endCopy n

/-- CPR_COMPLETE (R288): the reduction over this device's elements and the peers' that the fabric brought. Peers that disagree
bring lists of another length. -/
def execCprComplete (n : Nat) (peers : PeerData) (s : State) : Outcome :=
  match s.op? n with
  | none => .next s
  | some o =>
    let w := o.lead
    let size := cprBytes w
    let count := cprCount w
    if o.kind != .cpr || o.stage != .running || !s.opLive o || peers.length != ((o.group.map RedGroup.members).getD []).length then .next s
    else if o.moved != [] then .next (s.endCopy n)
    else if peers.any fun p => p.length != count then
      .next ((s.modOp n fun o => { o with cause := Cause.formatPair, moved := [0] }).cprDone n { o with cause := Cause.formatPair })
    else
      let r := s.engLines o.fe o.blk o.view (cprUnit size) ((List.range (size * count)).map (cprSrc w + ·))
      match r.absent, s.absentIn o.fe (cprDst w) (size * count) with
      | some va, _ => .next (s.holdOp n va false)
      | none, some va => .next (s.holdOp n va true)
      | none, none =>
        let b07 := ((s.launch? o.launch).map Launch.mmr).getD 2 == 1
        let own := fun j => numOf ((List.range size).map fun i => r.byte (cprSrc w + size * j + i))
        let vs := (List.range count).map fun j =>
          cprElement b07 w (s.fresh + j) (own j :: peers.map fun p => (p.getD j 0).toNat % 2 ^ (8 * size))
        let s := { s with fresh := s.fresh + count }
        let s := (r.bad.foldl (fun s e => s.opFault n e.1 e.2) (s.opView n r.view)).countRead o (cprSrc w) (size * count)
        let s := (s.cprWrite n (cprDst w) size vs).modOp n fun o => { o with moved := [0] }
        .next (s.cprDone n o)

/-- Destination elements of a reduction that ended early: each byte holds its old or its new value (R270), or each element does where it may
not be torn (R288). -/
def State.cprScatter (s : State) (n : Nat) (o : EngOp) (whole : Bool) : State :=
  let w := o.lead
  let size := cprBytes w
  let count := cprCount w
  let s' := (List.range count).foldl (fun s j =>
    let new := bytesOf size (Config.cprPartial (s.fresh + 8 * j)).toNat
    let masks := (List.range size).map fun i => if Config.byteLanded (s.fresh + 8 * j + if whole then 0 else i) then (0xFF : Byte) else 0
    match s.engWrite n o (cprUnit size) (cprDst w + size * j) new masks with
    | .ok s => s
    | .fault c => s.opFault n c (cprDst w + size * j)
    | .absent => s) s
  { s' with fresh := s'.fresh + 8 * count }

/-- CPR_TIMEOUT (R288): a member device has not joined in time. -/
def execCprTimeout (n : Nat) (s : State) : Outcome :=
  match s.op? n with
  | none => .next s
  | some o =>
    let limit := ((o.group.map RedGroup.timeout).getD 0)
    if o.kind != .cpr || o.stage != .running || !s.opLive o || s.ns < o.started + limit || o.moved != [] then .next s
    else
      let s := (s.opFault n Cause.fabricTimeout (cprDst o.lead)).cprScatter n o true
      .next ((s.modOp n fun o => { o with moved := [0] }).cprDone n o)

/-! ## HND.CANCEL -/

/-- Remove what an operation has not delivered from its barriers, post one arrival to each, and end it as cancelled (R270). -/
def State.cancelOp (s : State) (n : Nat) : State :=
  match s.op? n with
  | none => s
  | some o =>
    let s := s.passMembers n o
    let s := o.posts.foldl (fun s p => s.unpost n o p (p.owed - p.got) 0) s
    let bar := o.lead.w
    let o' := { o with cancelled := true }
    let s := (s.setOp n o').postDone n
    let s := if o.posts.isEmpty && o.kind.copy && bar.be then s.postBar o.blk bar.bn.toNat .arrive o.view else s
    let s := s.opEvent o Cause.copyCancel
    match o.follow with
    | some m => if o.isFollow then s.modOp m fun c => { c with follow := none } else s.withdraw m
    | none => s

/-- HND.CANCEL (R270). -/
def execHndCancel (x : F) (s : State) : Outcome :=
  handleWord (.hndCancel x) x.h {} none (fun c =>
    c.handle x.a.toNat fun _ e =>
      if e.status.isSome then .done c.s
      else match c.s.op? e.op with
        | none => .done c.s
        | some o =>
          if !o.kind.copy && o.stage == .running then .wait .handle c.s
          else
            let s := if o.kind == .cpr && o.stage == .running && o.moved == [] then c.s.cprScatter e.op o false else c.s
            .done (s.cancelOp e.op)) s

end Sys2Proof.Machine
end

