-- ==== Sys2Proof/Machine/Strands.lean ====
section
/-!
DEFINITION. The end of threads and strands (R30, R219, R305): CTL.EXIT, and what a strand's end does to skeins, handles and barriers.
-/
namespace Sys2Proof.Machine

/-- A pending access after the threads of `m` have exited (R305): a load into an exited thread's registers is discarded, one into
the strand's S registers only when no thread is left (`all`); an RMW is performed
without its result. DESIGN CHOICE (log 20): the flags of a discarded FXRD are not raised. -/
def Access.exited (a : Access) (r : StrandRef) (m : Word) (all : Bool) : Option Access :=
  if a.strand != r || a.threads &&& ~~~m != 0 || (!all && a.dst.any Dst.uni) then some a
  else match a.kind with
    | .load _ => none
    | _ => some { a with dst := none }

/-- Discard what pending accesses would bring to exited threads. -/
def State.dropLoads (s : State) (r : StrandRef) (m : Word) (all : Bool) : State :=
  { s with
    accs := s.accs.filterMap fun e => (e.2.exited r m all).map fun a => (e.1, a)
    quorums := s.quorums.filter fun e =>
      !(e.2.strand == r && e.2.store.isNone && e.2.threads &&& ~~~m == 0 && (all || !(e.2.dst.any Dst.uni)))
    samples := s.samples.filter fun e => !(e.2.strand == r && m.getLsbD e.2.t) }

/-- A strand whose threads have all exited ends (R30, R31): it leaves its skein, its handles are gone, and revision 1 counts it at
every barrier (R263). A fault that its privileged handler has kept is not left silent (R353, R384). -/
def State.endStrand (s : State) (r : StrandRef) : State :=
  match s.strand? r, s.block? r.blk with
  | some k, some b =>
    let s := s.setStrand r { k with ended := true, mask := 0, groups := [], skein := none, h := [], wait := .none, sigPend := none }
    let s := s.sweep r.blk
    let s := s.membership r.blk k.skein.toList
    let s := (s.endArrivals r).noteStalls b.core
    match k.faults with
    | f :: _ => s.unheard r.blk b f
    | [] => s
  | _, _ => s

/-- The active threads exit (R30, R305), and the next group is selected (R290). -/
def Strand.exit (k : Strand) (m : Word) : Strand :=
  let rest := k.mask &&& ~~~m
  let k : Strand := { k with exited := k.exited ||| m, mask := 0, m0bad := false }
  (((k.form rest (k.pc + 8)).releaseFull)).pick

/-- CTL.EXIT (R52, R219, R305). -/
def execCtlExit (x : F) (s : State) : Outcome :=
  word (.ctlExit x) s
    (fun _ => { Spec.ofHdr x.h with drain := true, moves := true, ends := true, folded := true }) fun c =>
      if c.act = 0 then .done (c.s.setStrand c.r { c.k.fold (.ctlExit x) with pc := c.k.pc + 8 }.reselect)
      else if c.s.heldThreads c.r != 0 || c.b.committing.isSome then .wait .parked c.s
      else if c.s.quorums.any (fun e => e.2.strand == c.r && e.2.store.isSome) then .wait .memory c.s
      else c.sigChecked (.ctlExit x) fun k =>
        let k := k.exit c.act
        let s := (c.s.setStrand c.r k).dropLoads c.r k.exited (k.live = 0)
        .done (if k.live = 0 then s.endStrand c.r else s)

end Sys2Proof.Machine
end

