-- ==== Sys2Proof/Machine/Boundary.lean ====
section
/-!
DEFINITION. Instruction boundaries (R291, R351): what a strand does before its next word: stop-block mode (R350), the block entry
(R52), STEP (R303), the merge of R291, asynchronous faults (R353), HOST_BREAK and TIMER (R301, R321); and the events that
bring a strand to them.
-/
namespace Sys2Proof.Machine

/-- A strand stands at an instruction boundary: it waits in no word (R321), and the wait for a blocking handle or a pair is a wait
too. -/
def Strand.boundary (k : Strand) : Bool := k.able && k.wait == .none && k.why != .handle && k.why != .pair

/-- The block entry of a strand (R52): the trap SIG_MISMATCH, or the strand with the marker folded. `none`: no trap. -/
def Strand.blockEntry (k : Strand) : Strand × Option Dword :=
  if !k.entry then (k, none)
  else (k.enterBlock, if k.sigBad then some (k.sig ++ k.sigPend.getD 0) else none)

/-- A synchronous cause of the current group at its PC, no word having issued. -/
def Strand.report (k : Strand) (cause : Cause) (fpc va : Dword) : Report :=
  { cause := cause, mask := k.mask, resume := k.pc, fpc := fpc, va := va, region := k.region }

/-- What a strand is as it reaches its next word: its signature at a block entry, and the groups merged (R52, R291). -/
structure Arrived where
  k   : Strand
  /-- SIG_MISMATCH: the constant and sig (R349) -/
  bad : Option Dword
  deriving DecidableEq, Repr

/-- Block entry, merge, and the entry of a merged group. -/
def Strand.arrive (k : Strand) : Arrived :=
  match k.blockEntry with
  | (k, some v) => ⟨k, some v⟩
  | (k, none) =>
    if k.stepDue.isSome then ⟨k, none⟩
    else
      let (k, merged) := k.merge
      if merged && k.mask != 0 && k.entry then let (k, bad) := k.blockEntry; ⟨k, bad⟩ else ⟨k, none⟩

/-- The word of a held fault has no request left that may still fault: those held on an absent page do not count. -/
def State.faultWhole (s : State) (r : StrandRef) (f : HeldFault) : Bool :=
  !(s.accs.any fun e => e.2.strand == r && e.2.pc == f.pc && e.2.held != .held)
    && !(s.quorums.any fun e => e.2.strand == r && e.2.pc == f.pc && e.2.held != .held)
    && !(s.samples.any fun e => e.2.strand == r && e.2.pc == f.pc && e.2.held != .held)

/-- Deliver the oldest held fault at an instruction boundary (R353), once its word's requests have been performed or delivered, so
that the report names every thread of the word with the cause (R354); until then the strand waits. A strand without a region
reports REGION_NONE. -/
def State.deliverFault (s : State) (r : StrandRef) : State :=
  match s.strand? r with
  | none => s
  | some k =>
    match k.faults with
    | [] => s
    | f :: rest =>
      if !s.faultWhole r f then s.stall r .memory
      else
      let wrap := !k.rv && f.cause != Cause.commitFault
      (s.setStrand r { k with faults := rest }).enterPriv r
        { cause := if wrap then Cause.regionNone else f.cause
          orig := if wrap then f.cause else f.orig
          mask := f.mask, resume := k.pc, fpc := f.pc, va := f.va, region := f.region, async := true, eng := f.eng }

/-- An armed timer that is due (R301). -/
def State.timerDue (s : State) (b : Block) (k : Strand) : Bool := k.tmrArmed && k.tmrcmp.toNat ≤ s.clock b.core && !k.uh && !k.ph

/-- The cause that a strand takes at this boundary (R350, R351); none: it goes on with its next word. `s` holds the strand as it
has arrived. -/
def State.boundaryCause (s : State) (r : StrandRef) (k : Strand) (b : Block) (bad : Option Dword) : Option State :=
  match bad with
  | some v => some ((s.enterPriv r (k.report Cause.sigMismatch k.pc v)).modStrand r fun x => { x with stepDue := k.stepDue })
  | none =>
    if k.ph then none
    else match k.stepDue with
      | some fpc => some (s.enterPriv r (k.report Cause.step fpc 0))
      | none =>
        if !k.faults.isEmpty then some (s.deliverFault r)
        else if k.hostBreak then
          some ((s.modStrand r fun k => { k with hostBreak := false }).enterPriv r (k.report Cause.hostBreak k.pc 0))
        else if s.timerDue b k then
          some ((s.modStrand r fun k => { k with tmrArmed := false }).enterUser r Cause.timer 0 k.pc k.pc)
        else none

/-- A strand comes to its boundary: the state in which a cause has been taken, or the state in which its next word may issue. -/
def State.comeToBoundary (s : State) (r : StrandRef) (k : Strand) (b : Block) : State × Bool :=
  if k.stopDue && !k.ph then (s.modStrand r fun k => { k with stopDue := false, stopped := true, trapAt := s.clock b.core }, false)
  else
    let a := k.arrive
    let s := s.setStrand r a.k
    match s.boundaryCause r a.k b a.bad with
    | some s => (s, false)
    | none => (s, a.k.mask != 0)

/-- Let a strand take what falls due at its boundary, if it stands at one and `ok` holds. -/
def State.visit (s : State) (r : StrandRef) (ok : Strand → Block → Bool) : State :=
  match s.strand? r, s.block? r.blk with
  | some k, some b => if s.runs b && k.boundary && ok k b then (s.comeToBoundary r k b).1 else s
  | _, _ => s

/-- ASYNC_FAULT_DELIVERY (R353): a held fault, at the next boundary. -/
def execAsyncFaultDelivery (r : StrandRef) (s : State) : Outcome :=
  .next (s.visit r fun k _ => !k.ph && !k.faults.isEmpty)

/-- HOST_BREAK (R351, R355): the host's debug stop reaches a strand; it is held until the strand's next boundary. -/
def execHostBreak (r : StrandRef) (s : State) : Outcome :=
  match s.strand? r with
  | some k =>
    if k.ended then .next s
    else .next ((s.setStrand r { k with hostBreak := true }).visit r fun k _ => !k.ph)
  | none => .next s

/-- STOP_BLOCK_HALT (R350). -/
def execStopBlockHalt (r : StrandRef) (s : State) : Outcome := .next (s.visit r fun k _ => k.stopDue && !k.ph)

/-- TIMER_FIRE (R301, R321). Its turn comes as the strand's start on its lane (eventTurn). -/
def execTimerFire (r : StrandRef) (s : State) : Outcome := .next (s.visit r fun k b => s.timerDue b k)

/-- Release the held groups of a strand that `ok` admits and whose bound has passed (R297). Where they come to wait at the current group's PC they are
one group with it, and one that fills the hold it comes to releases it (R289). A count is frozen while its strand is
stopped in a privileged handler or by stop-block mode (R304). -/
def State.expire (s : State) (r : StrandRef) (ok : Group → Bool) : State :=
  match s.strand? r, s.block? r.blk with
  | some k, some b =>
    let due := fun (g : Group) => ok g && g.expired (s.clock b.core)
    if s.runs b && !k.ph && !k.stopped && k.groups.any due then
      let fe := ((s.launch? b.launch).map Launch.fe).getD 0
      let k1 := (k.release due).releaseFull
      let s := s.setStrand r (if k.mask = 0 then k1.pick else k1.regroup)
      (k.groups.filter due).foldl (fun s _ => s.emit fe (s.lidOf b.launch) Cause.rcvExpired .core b.core []) s
    else s
  | _, _ => s

/-- RCV_EXPIRED (R297): the group held at `pc` waits at the next word as an ordinary group. -/
def execRcvExpired (r : StrandRef) (pc : Dword) (s : State) : Outcome := .next (s.expire r fun g => g.pc == pc)

end Sys2Proof.Machine
end

