-- ==== Sys2Proof/Machine/Placement.lean ====
section
/-!
DEFINITION. The dispatcher (R308 to R314): the fit test and the lane assignment, the order of placements, cohorts and their staging
(R285), screened blocks (R356, R357), and the retirement of blocks (R30, R313).
-/
namespace Sys2Proof.Machine

/-! ## Fit -/

/-- The register granules of a strand (R34). -/
def Launch.granules (l : Launch) : Nat := ceilDiv ((l.jregs * (1 + l.d) + (l.nregs - l.jregs)) * 128) 1024

/-- The number of blocks of a launch (R21), and the strands of one (R22). -/
def Launch.nblocks (l : Launch) : Nat := ceilDiv l.n l.bdim
def Launch.strandsIn (l : Launch) (index : Nat) : Nat := ceilDiv (min l.bdim (l.n - index * l.bdim)) 32

/-- What a lane's strands take: their slots and granules. -/
structure LaneRoom where
  slots    : List Nat := []
  granules : Nat := 0
  deriving DecidableEq, Repr

/-- Blocks that hold a place on a core: all but the saved ones. -/
def State.residents (s : State) (core : Nat) : List (Nat × Block) := s.blocks.filter fun e => e.2.core == core && e.2.life != .saved

/-- The 16 lanes of a core as its resident blocks leave them; a strand holds its granules until its block retires (R29). -/
def State.rooms (s : State) (core : Nat) : List LaneRoom :=
  let ks := s.strands.filterMap fun e => match s.block? e.1.blk with
    | some b => if b.core == core && b.life != .saved then some (e.2, ((s.launch? b.launch).map Launch.granules).getD 0) else none
    | none => none
  (List.range 16).map fun l => (ks.filter fun e => e.1.lane == l).foldl (fun r e => ⟨r.slots ++ [e.1.slot], r.granules + e.2⟩) {}

/-- The lane for a strand of `g` granules (R310): most free slots, then more free granules, then the lower number. -/
def bestLane (rooms : List LaneRoom) (g : Nat) : Option Nat :=
  (rooms.zipIdx).foldl (fun (b : Option (LaneRoom × Nat)) e =>
    if 3 ≤ e.1.slots.length || 24 < e.1.granules + g then b
    else match b with
      | none => some e
      | some x =>
        if e.1.slots.length < x.1.slots.length || (e.1.slots.length == x.1.slots.length && e.1.granules < x.1.granules) then some e
        else b) none |>.map Prod.snd

/-- The lowest number that a list does not hold. -/
def lowestFree (bound : Nat) (used : List Nat) : Option Nat := (List.range bound).find? fun i => !used.contains i

/-- Lane and slot of `n` strands in ascending sid (R310). -/
def assignLanes (g : Nat) : Nat → List LaneRoom → Option (List (Nat × Nat))
  | 0, _ => some []
  | n + 1, rooms =>
    match bestLane rooms g with
    | none => none
    | some l =>
      let r := rooms.getD l {}
      match lowestFree 3 r.slots with
      | none => none
      | some i => (assignLanes g n (rooms.set l ⟨r.slots ++ [i], r.granules + g⟩)).map fun x => (l, i) :: x

/-- A place for a block: a core, the resident slot and each strand's lane and slot; `free` counts the core's free strand slots. -/
structure Seat where
  core  : Nat
  slot  : Nat
  lanes : List (Nat × Nat)
  free  : Nat
  deriving DecidableEq, Repr

/-- Queue entries that a launch's blocks reserve (R266). -/
def Launch.queueSum (l : Launch) : Nat := l.queues.foldl (fun n q => n + ((q.map QueueDecl.depth).getD 0)) 0

/-- The fit test (R310) of `n` strands and `reserve` queue entries on a core. -/
def State.seat (s : State) (la : Launch) (n reserve core : Nat) : Option Seat :=
  let bs := s.residents core
  let pads := bs.foldl (fun x e => x + ((s.launch? e.2.launch).map Launch.corePad).getD 0) 0
  let rooms := s.rooms core
  match lowestFree 16 (bs.map fun e => e.2.slot) with
  | none => none
  | some slot =>
    if 56 * 4096 < pads + la.corePad || s.storeFree core < reserve then none
    else (assignLanes la.granules n rooms).map fun ls => ⟨core, slot, ls, 48 - rooms.foldl (fun x r => x + r.slots.length) 0⟩

/-! ## Eligible cores -/

/-- The clusters of a partition's range that are in service (R309). -/
def State.range (s : State) (f : FrontEnd) : List Nat :=
  (List.range 32).filter fun c => f.cbase ≤ c && c ≤ f.clim && !(s.retiredClusters.getLsbD c)

/-- The clusters of a partition's range. -/
def FrontEnd.clusters (f : FrontEnd) : List Nat := (List.range 32).filter fun c => f.cbase ≤ c && c ≤ f.clim

/-- The dies of a partition's range. -/
def FrontEnd.dies (f : FrontEnd) : List Nat := (List.range 4).filter fun d => f.cbase / 8 ≤ d && d ≤ f.clim / 8

/-- The bytes of a partition's colours on a die (R326). -/
def FrontEnd.dieBytes (f : FrontEnd) (d : Nat) : Nat :=
  ((List.range 16).filter fun i => f.colour.getLsbD (16 * d + i)).length * 3 * 2 ^ 20

/-- The members of a cohort with a block not dispatched (R285). -/
def Launch.cohortOpen (l : Launch) (q : Nat) : Bool := l.next < min ((q + 1) * l.cohort) l.nblocks

/-- Whether a cluster may take a block of a launch, as its cohort has it (R285, R309). -/
def cohortAllows (la : Launch) (index cl : Nat) : Bool :=
  la.cohort ≤ 1 || match la.cohortAt.get? (index / la.cohort) with
    | some c => c == cl
    | none => la.cohortAt.all fun e => e.2 != cl || !la.cohortOpen e.1

/-- The launch's pads exist on a cluster and its die (R207, R309): where they were allocated, or where there is nothing to allocate. -/
def Launch.padsOn (la : Launch) (cl : Nat) : Bool :=
  (la.clusterPad == 0 && la.diePad == 0 && la.cohort ≤ 1) || la.padsAt.contains cl

/-- The seats of a block on the eligible cores (R309); `more` is what a core must provide beside. -/
def State.seats (s : State) (la : Launch) (index n reserve : Nat) (more : Nat → Bool) : List Seat :=
  let range := s.range (s.fe la.fe)
  (range.filter fun cl => cohortAllows la index cl && la.padsOn cl).flatMap fun cl =>
    ((List.range 18).map (18 * cl + ·)).filterMap fun c => if more c then s.seat la n reserve c else none

/-- The core with the most free strand slots, the lowest of several (R311). -/
def bestSeat : List Seat → Option Seat
  | [] => none
  | x :: xs => some (xs.foldl (fun b y => if b.free < y.free then y else b) x)

/-- Prefer seats in the order of the tests: the best of the first test that any passes. -/
def preferSeat (seats : List Seat) : List (Seat → Bool) → Option Seat
  | [] => none
  | p :: ps => match bestSeat (seats.filter p) with | some x => some x | none => preferSeat seats ps

/-- A seat for a block of index `index`: a relaunched block avoids the cluster, then the core, that it ran on (R358). -/
def Launch.choose (la : Launch) (index : Nat) (seats : List Seat) : Option Seat :=
  match la.avoid.get? index with
  | none => bestSeat seats
  | some c => preferSeat seats [fun x => clusterOf x.core != clusterOf c, fun x => x.core != c, fun _ => true]

/-! ## Order of placements -/

/-- What the dispatcher places next of a launch (R312, R314). -/
inductive Choice where
  | fresh (launch index : Nat)
  | restore (blk : Nat)
  deriving DecidableEq, Repr

/-- The launch's next block: those to be placed again first, in ascending index. -/
def State.nextOf (s : State) (l : Nat) (la : Launch) : Option Choice :=
  if la.failed.isSome then none
  else
    let saved := (s.blocks.filter fun e => e.2.launch == l && e.2.life == .saved).foldl
      (fun (b : Option (Nat × Block)) e => match b with | some x => if e.2.index < x.2.index then some e else b | none => some e) none
    match saved, la.again with
    | none, i :: _ => some (.fresh l i)
    | some e, [] => some (.restore e.1)
    | some e, i :: _ => some (if e.2.index < i then .restore e.1 else .fresh l i)
    | none, [] => if la.next < la.nblocks then some (.fresh l la.next) else none

/-- A launch into an order by priority, highest first, the earlier first (R312). -/
def insertPrio (e : Nat × Launch) : List (Nat × Launch) → List (Nat × Launch)
  | [] => [e]
  | x :: xs => if x.2.prio < e.2.prio then e :: x :: xs else x :: insertPrio e xs

/-- The launches of a partition in the dispatcher's order. -/
def State.launchOrder (s : State) (fe : Nat) : List (Nat × Launch) :=
  (s.launches.filter fun e => e.2.fe == fe).foldl (fun l e => insertPrio e l) []

/-- A partition whose dispatcher places blocks (R312, R324, R341, R344, R371). -/
def FrontEnd.dispatches (f : FrontEnd) : Bool :=
  f.en && f.st != .suspended && f.st != .stopped && !f.swapping && !f.swapped && f.nextRec.isNone && f.stopping.isNone

/-! ## Fresh blocks -/

/-- Whether a block is screened (R356): drawn from the device's random source, once for each block of a launch. -/
def Launch.screened (la : Launch) (l index : Nat) : Bool :=
  la.screen != 0 && (Config.randomDraw (l * 2 ^ 27 + index)).toNat % la.screen == 0

/-- The registers with which a strand starts (R32, R22, R345). -/
def startStrand (la : Launch) (pvec : Dword) (index sid : Nat) (lane : Nat × Nat) : Strand :=
  let born := maskOf fun t => la.n ≤ index * la.bdim + 32 * sid + t
  let k : Strand := { exited := born, mask := ~~~born, pc := la.entry, pvec := pvec, lane := lane.1, slot := lane.2
                      since := la.since }
  k.setSPair 0 la.consts

/-- The queues with which a block starts (R266). -/
def Launch.startQueues (la : Launch) : Table Nat Queue :=
  (la.queues.zipIdx).filterMap fun e => e.1.map fun q => (e.2, { depth := q.depth, pstg := q.prod, cstg := q.cons, stg := true })

/-- A block placed from its start, and its number (R308). -/
def State.putBlock (s : State) (l : Nat) (la : Launch) (index : Nat) (seat : Seat) (shadow : Bool) : Nat × State :=
  let (b, s) := s.name
  let staged := la.staging.get? index
  let x : Block := {
    launch := l, index := index, shadow := shadow, core := seat.core, slot := seat.slot
    selectable := s.ns + 32, placed := s.ns, strands := la.strandsIn index
    pad := (staged.map Staged.image).getD [], heldPosts := (staged.map Staged.posts).getD []
    queues := la.startQueues, qreserve := la.queueSum }
  let ks := (seat.lanes.zipIdx).map fun e => ((⟨b, e.2⟩ : StrandRef), startStrand la (s.fe la.fe).pvec index e.2 e.1)
  let s := { s with blocks := s.blocks.put b x, strands := s.strands ++ ks }
  (b, (s.count la.fe 10 1).emit la.fe la.lid Cause.blockPlace .dispatcher seat.core [])

/-- The seats of a fresh block and, when it is screened, of its shadow (R356): another cluster, or another core where the partition
has one cluster; with none, the placement waits. -/
def State.freshSeats (s : State) (l : Nat) (la : Launch) (index : Nat) : Option (Seat × Option Seat) :=
  let find := fun (s : State) => s.seats la index (la.strandsIn index) la.queueSum fun _ => true
  match la.choose index (find s) with
  | none => none
  | some p =>
    if la.screened l index && index == la.next then
      let s' := (s.putBlock l la index p false).2
      (preferSeat (find s') [fun x => clusterOf x.core != clusterOf p.core, fun x => x.core != p.core]).map fun q => (p, some q)
    else some (p, none)

/-- Make the staging of a cohort whose first block is dispatched on a cluster (R285), for its other members. -/
def Launch.openCohort (la : Launch) (index cl : Nat) : Launch :=
  let q := index / la.cohort
  if la.cohort ≤ 1 || (la.cohortAt.get? q).isSome then la
  else
    let others := (List.range la.cohort).map (q * la.cohort + ·) |>.filter fun i => i != index && i < la.nblocks
    { la with cohortAt := la.cohortAt.put q cl, staging := la.staging ++ others.map fun i => (i, { cluster := cl }) }

/-- Place a fresh block (R308, R312, R356). -/
def State.placeFresh (s : State) (l : Nat) (la : Launch) (index : Nat) : Option State :=
  (s.freshSeats l la index).map fun e =>
    let (p, q?) := e
    let (b, s) := s.putBlock l la index p false
    let s := match q? with
      | none => s
      | some q =>
        let (w, s) := s.putBlock l la index q true
        (s.modBlock b fun x => { x with partner := some w }).modBlock w fun x => { x with partner := some b }
    s.modLaunch l fun la =>
      let la := la.openCohort index (clusterOf p.core)
      { la with
        staging := la.staging.drop index
        again := la.again.filter (· != index), avoid := la.avoid.drop index
        next := if index == la.next then index + 1 else la.next }

/-! ## Blocks that are restored -/

/-- Records that a saved block's handles and operations name (R314). -/
def Block.recordsKept (b : Block) : Nat := b.savedRecs.length

/-- What a core must provide for a saved block beside R310 (R314). -/
def State.restoreRoom (s : State) (b : Block) (core : Nat) : Bool :=
  (b.savedArray.isNone || (s.core core).array.isNone)
    && s.coreLines core + (linesOf b.pendingStores).length ≤ 2048
    && b.recordsKept ≤ 512 - ((s.core core).recs.filter fun e => e.2.busy).length
    && b.storeUse ≤ s.storeFree core

/-- The seat of a saved block (R314). -/
def State.restoreSeat (s : State) (b : Block) : Option Seat :=
  match s.launch? b.launch with
  | none => none
  | some la => bestSeat (s.seats la b.index b.strands b.qreserve (s.restoreRoom b))

/-- The next placement of a partition (R312): the first launch in order whose next block has an eligible core. -/
def State.decide (s : State) (fe : Nat) : Option Choice :=
  (s.launchOrder fe).findSome? fun e =>
    match s.nextOf e.1 e.2 with
    | none => none
    | some (.fresh l i) => if (s.freshSeats l e.2 i).isSome then some (.fresh l i) else none
    | some (.restore b) => if ((s.block? b).bind s.restoreSeat).isSome then some (.restore b) else none

/-- Everything of a block has ended (R30) but for the commit of its buffer. -/
def State.ended (s : State) (blk : Nat) (b : Block) : Bool :=
  (b.life == .running || b.life == .draining)
    && (s.strandsOf blk).all (fun e => e.2.ended)
    && !(s.ops.any fun e => e.2.blk == blk) && !(s.quorums.any fun e => e.2.strand.blk == blk)
    && !(s.services.any fun e => e.2.strand.blk == blk)

/-- A block whose retirement is due in this ns: its course is over and no commit of it is held (R313). -/
def State.retiring (s : State) (blk : Nat) (b : Block) : Bool := s.ended blk b && b.committing.isNone

/-- The dispatcher may place a block now: one placement in 4 ns (R308), after every retirement that is due (R313). -/
def State.mayPlace (s : State) (fe : Nat) : Bool :=
  (s.fe fe).dispatches && (s.fe fe).placeAt ≤ s.ns && !(s.blocks.any fun e => s.retiring e.1 e.2)

/-- A placement has been made. -/
def State.placedOne (s : State) (fe : Nat) : State := s.modFe fe fun f => { f with placeAt := s.ns + 4 }

/-- BLOCK_PLACE (R308 to R312): the partition's next block, when it is one to be placed from its start. -/
def execBlockPlace (fe : Nat) (s : State) : Outcome :=
  if s.mayPlace fe then
    match s.decide fe with
    | some (.fresh l i) =>
      match (s.launch? l).bind fun la => s.placeFresh l la i with
      | some s => .next (s.placedOne fe)
      | none => .next s
    | _ => .next s
  else .next s

/-- STRAND_SELECTABLE (R308): device time reaches the instant at which a placed block's strands may be selected. -/
def execStrandSelectable (blk : Nat) (s : State) : Outcome :=
  match s.block? blk with
  | some b => .next { s with ns := max s.ns b.selectable }
  | none => .next s

/-! ## Retirement -/

/-- The hashes and final sigs of a block's strands, by sid (R357). -/
def State.screenOf (s : State) (blk : Nat) : List (Word × Word) := (s.strandsOf blk).map fun e => (e.2.shash, e.2.sig)

/-- The verdict on a screened block whose partner has ended before it (R357). -/
def State.verdict (s : State) (blk : Nat) : State :=
  match s.block? blk with
  | none => s
  | some b =>
    match b.screenWith with
    | none => s
    | some w =>
      let lid := s.lidOf b.launch
      let fe := ((s.launch? b.launch).map Launch.fe).getD 0
      let s := s.setBlock blk { b with screenWith := none, partner := none }
      if w == s.screenOf blk then s.emit fe lid Cause.screenPass .core b.core []
      else (s.modLaunch b.launch fun l => { l with status := Cause.screenMismatch }).emit fe lid Cause.screenMismatch .core b.core []

/-- SCREEN_VERDICT (R357): both instances have ended. -/
def execScreenVerdict (blk : Nat) (s : State) : Outcome :=
  match s.block? blk with
  | some b => .next (if s.ended blk b then s.verdict blk else s)
  | none => .next s

/-- A block whose course is over leaves its core (R30, R313). -/
def State.retire (s : State) (blk : Nat) (b : Block) : State :=
  let s := s.verdict blk
  let res := s.screenOf blk
  let s := match ((s.block? blk).bind Block.partner) with
    | some p => s.modBlock p fun x => { x with screenWith := some res }
    | none => s
  let s := s.modLaunch b.launch fun l =>
    { l with
      retired := if b.shadow then l.retired else l.retired + 1
      residSum := if b.shadow then l.residSum else l.residSum + b.resided + (s.ns - b.placed)
      gone := blk :: l.gone }
  let fe := ((s.launch? b.launch).map Launch.fe).getD 0
  let s := (s.dropStrands blk).setCore b.core ((s.core b.core).freeBlock blk)
  let s := ({ s with blocks := s.blocks.drop blk } : State).noteStalls b.core
  s.emit fe (s.lidOf b.launch) Cause.blockRetire .dispatcher b.core []

end Sys2Proof.Machine
end

