-- ==== Sys2Proof/Machine/Bench.lean ====
section
/-!
DEFINITION. A device with one strand about to issue a given word: what the host's load, launch and dispatch would have set (log 1). The partition
is 0 with channel 0 and cluster 0; the page table maps the first GiB of the address space onto the first GiB of stack 0.
-/
namespace Sys2Proof.Machine

/-- The code address, and the physical addresses of the two tables. -/
def benchPc : Nat := 0x10000
def benchRoot : Nat := 0x1000
def benchTable : Nat := 0x2000

/-- The partition. -/
def benchFe (f : FrontEnd) : FrontEnd :=
  { f with chan := f.chan ||| 1, root := benchRoot, en := true, st := .running }

/-- The launch: 128 registers, 8 of them jets of 8 tangents, one block of one strand, pads of one granule. -/
def benchLaunch : Launch :=
  { fe := 0, entry := BitVec.ofNat 64 benchPc, n := 32, bdim := 32, nregs := 128, jregs := 8, tangents := [0, 1, 2, 3, 4, 5, 6, 7]
    corePad := 4096, clusterPad := 65536, diePad := 65536, stages := [], queues := [], consts := 0, raster := 0, time := 0, mmr := 2
    padsAt := [0], contained := false, idem := false, screen := 0, cohort := 1, prio := 0, next := 1 }

/-- The page table: the entry of level 3, and the leaf of 1 GiB with X = 1 (R211, R212). -/
def benchTables (m : Memory) : Memory := (m.put benchRoot (bytesOf 8 (benchTable + 1))).put benchTable (bytesOf 8 0x43)

/-- The device with the word `w` at the PC of the one strand of a new block, in memory and in the instruction cache. -/
def State.benchWord (s : State) (w : Dword) : State :=
  let line := bytesOf 8 w.toNat ++ List.replicate 120 0
  let n := s.uid
  let r : StrandRef := ⟨n, 0⟩
  { s with
    service := .full
    fes := s.fes.put 0 (benchFe (s.fe 0))
    mem := (benchTables s.mem).put benchPc line
    cores := s.cores.put 0 { s.core 0 with icache := (s.core 0).icache.put (0, benchPc) line }
    launches := s.launches.put n benchLaunch
    blocks := s.blocks.put n { launch := n, index := 0, strands := 1, selectable := s.ns, placed := s.ns }
    strands := s.strands.put r (startStrand benchLaunch (s.fe 0).pvec 0 0 (0, 0))
    turns := .issue r :: s.turns
    uid := n + 1 }

end Sys2Proof.Machine
end

