-- ==== Sys2Proof/Machine/Admission.lean ====
section
/-!
DEFINITION. Admission of partitions (R324, R329, R330): what is in service, the checks on a record, and the re-admission.
-/
namespace Sys2Proof.Machine

/-- Clusters of a range, and channels of a set, that are in service (R329). -/
def State.clustersIn (s : State) (lo hi : Nat) : Nat :=
  ((List.range 32).filter fun c => lo ≤ c && c ≤ hi && !(s.retiredClusters.getLsbD c)).length
def bitCount {w : Nat} (x : BitVec w) : Nat := ((List.range w).filter fun i => x.getLsbD i).length
def State.channelsIn (s : State) (chan : BitVec 384) : Nat := bitCount (chan &&& ~~~s.retiredChannels)

/-- The fields of a record within their widths (R323). -/
def PartRec.norm (r : Sys2Proof.PartRec) : PartRec :=
  { r with
    root := r.root % 2 ^ 40, rank := r.rank % 32, clim := r.clim % 32, cbase := r.cbase % 32, mincl := r.mincl % 64
    minch := r.minch % 512, share := r.share % 512, minfc := r.minfc % 64, drain := r.drain % 1024 }

/-- Whether a partition's own range and channels hold its minima (R330). -/
def State.holdsMinima (s : State) (f : FrontEnd) : Bool :=
  f.mincl ≤ s.clustersIn f.cbase f.clim && f.minch ≤ s.channelsIn f.chan

/-- The sums of the minima of partitions (R329). -/
structure Sums where
  cl : Nat := 0
  ch : Nat := 0
  sh : Nat := 0
  fc : Nat := 0
  deriving DecidableEq, Repr

def sumsOf (fs : List FrontEnd) : Sums :=
  fs.foldl (fun x f => ⟨x.cl + f.mincl, x.ch + f.minch, x.sh + f.share, x.fc + f.minfc⟩) {}

/-- Sums that what is in service can meet (R329). -/
def State.affords (s : State) (fs : List FrontEnd) : Bool :=
  let x := sumsOf fs
  x.cl ≤ s.clustersIn 0 31 && x.ch ≤ s.channelsIn (BitVec.allOnes 384) && x.sh ≤ 256 && x.fc ≤ s.grant

/-- A front end as a record would leave it (R323). -/
def FrontEnd.setRecord (f : FrontEnd) (r : PartRec) : FrontEnd :=
  { f with
    chan := r.chan, colour := r.colour, root := r.root, en := r.en, rank := r.rank, clim := r.clim, cbase := r.cbase
    mincl := r.mincl, minch := r.minch, share := r.share, minfc := r.minfc, drain := r.drain, nextRec := none }

/-- The partitions that hold clusters: enabled and not swapped out (R344). -/
def State.partitions (s : State) : List (Nat × FrontEnd) := s.fes.filter fun e => e.2.en && !e.2.swapped

/-- The enabled partitions, swapped out or not. -/
def State.enabled (s : State) : List (Nat × FrontEnd) := s.fes.filter fun e => e.2.en

/-- A front end as the record that waits for its blocks will leave it (R324). -/
def FrontEnd.coming (f : FrontEnd) : FrontEnd := match f.nextRec with | some r => f.setRecord r | none => f

/-- Records that share a resource (R324): a cluster, unless the one that has it is swapped out, a channel, a colour or a rank. -/
def FrontEnd.collides (o : FrontEnd) (r : PartRec) : Bool :=
  (!o.swapped && o.cbase ≤ r.clim && r.cbase ≤ o.clim) || o.chan &&& r.chan != 0 || o.colour &&& r.colour != 0 || o.rank == r.rank

/-- A write of a record that R324 refuses, beside another partition's record as it stands and as it waits to be; in reduced service only partition 0 exists, on cluster 0 and the channels of
stack 0 (R377). -/
def State.recordBad (s : State) (fe : Nat) (r : PartRec) : Bool :=
  let f := (s.fe fe).setRecord r
  let others := (s.enabled.filter fun e => e.1 != fe).map Prod.snd
  32 ≤ fe || r.clim < r.cbase
    || (others.any fun o => o.collides r || o.coming.collides r)
    || !s.holdsMinima f || !s.affords (f :: (others.filter fun o => !o.bef).map FrontEnd.coming)
    || match s.service with
      | .full => false
      | .reduced => fe != 0 || r.clim != 0 || r.chan >>> 32 != 0
      | _ => true

/-- Insert by rank, the highest (0) first. -/
def insertRank (e : Nat × FrontEnd) : List (Nat × FrontEnd) → List (Nat × FrontEnd)
  | [] => [e]
  | x :: xs => if e.2.rank < x.2.rank then e :: x :: xs else x :: insertRank e xs

/-- Step 2 of R330: the lowest rank goes while a sum exceeds what is in service; the list is by rank. -/
def State.shed (s : State) : Nat → List (Nat × FrontEnd) → List (Nat × FrontEnd)
  | 0, l => l
  | n + 1, l => if s.affords (l.map Prod.snd) then l else s.shed n l.dropLast

/-- The admitted partitions (R330). -/
def State.admitted (s : State) : List Nat :=
  let all := s.enabled.foldl (fun l e => insertRank e l) []
  let fit := all.filter fun e => s.holdsMinima e.2
  let kept := s.shed 32 fit
  (fit.foldl (fun l e => if l.any (fun x => x.1 == e.1) || !s.affords ((e :: l).map Prod.snd) then l else l ++ [e]) kept).map Prod.fst

/-- Re-admit the partitions (R330): each change of BEF writes MINIMA_REVOKED with what it became. -/
def State.readmit (s : State) : State :=
  let ok := s.admitted
  s.enabled.foldl (fun s e =>
    let bef := !ok.contains e.1
    if bef == e.2.bef then s
    else (s.modFe e.1 fun f => { f with bef := bef }).emit e.1 0 Cause.minimaRevoked .management 0 [if bef then 1 else 0]) s

end Sys2Proof.Machine
end

