-- ==== Sys2Proof/Machine/Preempt.lean ====
section
/-!
DEFINITION. Pre-emption (R335 to R344): the choice of drain, flush or save, the save and the restore of a block with its replay packets, context
swaps, and what waits for a partition's blocks to be saved: a suspend (R370), a record (R324).
-/
namespace Sys2Proof.Machine

/-! ## The decision (R335) -/

/-- The actions of R335. -/
inductive Action where
  | drain | flush | save
  deriving DecidableEq, Repr

/-- A block's residency so far, in ns; time spent saved is not counted. -/
def Block.residency (b : Block) (ns : Nat) : Nat := b.resided + (ns - b.placed)

/-- The action for a running block, the first row that applies; the mean residency T is residSum / retired. -/
def preemptAction (la : Launch) (b : Block) (drain ns : Nat) : Action :=
  let e := b.residency ns
  if la.retired != 0 && la.residSum < (e + drain * 1000) * la.retired then .drain
  else if la.idem && !b.committed && !b.cprIssued && !b.cpxElsewhere && (la.retired == 0 || 4 * e * la.retired < la.residSum) then .flush
  else .save

/-- An event of a block's pre-emption. -/
def State.preemptEvent (s : State) (b : Block) (c : Cause) : State :=
  s.emit (((s.launch? b.launch).map Launch.fe).getD 0) (s.lidOf b.launch) c .dispatcher b.core []

/-- A block begins to halt (R336). -/
def State.haltBlock (s : State) (blk : Nat) : State := s.modBlock blk fun b => { b with life := .halting }

/-- Flush a block (R336): it is killed, and placed again from its start; a shadow is abandoned, its own or itself. -/
def State.flush (s : State) (blk : Nat) (b : Block) : State :=
  if b.shadow then s.abandonShadow blk
  else
    let s := ((s.abandonPair blk).requeue blk).preemptEvent b Cause.preemptFlush
    s.count (((s.launch? b.launch).map Launch.fe).getD 0) 11 1

/-- Pre-empt a block (R335, R336): no further effect on one that drains, halts or is saved. -/
def State.preempt (s : State) (blk : Nat) : State :=
  match s.block? blk, s.launchOf blk with
  | some b, some la =>
    if b.life != .running then s
    else
      let d := (s.fe la.fe).drain
      match preemptAction la b d s.ns with
      | .drain => (s.setBlock blk { b with life := .draining, drainBy := s.ns + d * 1000 }).preemptEvent b Cause.preemptDrain
      | .flush => s.flush blk b
      | .save => s.haltBlock blk
  | _, _ => s

/-- The blocks of a partition. -/
def State.blocksIn (s : State) (fe : Nat) : List (Nat × Block) :=
  s.blocks.filter fun e => ((s.launch? e.2.launch).map Launch.fe) == some fe

/-- Pre-empt every block of a partition. -/
def State.preemptAll (s : State) (fe : Nat) : State := (s.blocksIn fe).foldl (fun s e => s.preempt e.1) s

/-- Save every running block of a partition (R324); a block that drains goes on to drain (R336). -/
def State.saveAll (s : State) (fe : Nat) : State :=
  (s.blocksIn fe).foldl (fun s e => if e.2.life == .running then s.haltBlock e.1 else s) s

/-- Every block of a partition is saved or gone. -/
def State.quiet (s : State) (fe : Nat) : Bool := (s.blocksIn fe).all fun e => e.2.life == .saved

/-- DRAIN_EXPIRY (R336). -/
def execDrainExpiry (blk : Nat) (s : State) : Outcome :=
  match s.block? blk with
  | some b => .next (if b.life == .draining && b.drainBy ≤ s.ns then s.haltBlock blk else s)
  | none => .next s

/-! ## Saving (R337 to R339) -/

/-- A plain load: what a save turns into a replay packet (R337, R338); an FXRD is performed first. -/
def AccKind.plainLoad : AccKind → Bool
  | .load _ => true
  | _ => false

/-- What a halt still waits for (R337 step 3, R76, R280): writes, RMWs and FXRDs that may be performed, quorum operations that are not held, CPRs
that have started, and fixed-latency results. -/
def State.haltWaits (s : State) (blk : Nat) : Bool :=
  (s.accs.any fun e => e.2.strand.blk == blk && !e.2.kind.plainLoad && s.mayPerform e.1 e.2)
    || (s.quorums.any fun e => e.2.strand.blk == blk && e.2.held != .held)
    || (s.ops.any fun e => e.2.blk == blk && e.2.kind == .cpr && (e.2.stage == .running || e.2.stage == .queued))
    || (s.strandsOf blk).any fun e => match s.block? blk with | some b => s.clock b.core < e.2.settled | none => false

/-- A strand as a save stores it: its results are written, and its times are counted from now (R297, R301), and the threads
`held` with requests on absent pages are parked (R338). -/
def Strand.saved (k : Strand) (now : Nat) (held : Word) : Strand :=
  let from_ := if k.ph || k.stopped then k.trapAt else now
  { k with
    parked := k.parked ||| held
    late := [], ready := 0, trapAt := 0, passP := 0, passH := 0
    tmrcmp := k.tmrcmp - BitVec.ofNat 64 now
    groups := k.groups.map fun g => { g with hold := g.hold.map (· - from_) } }

/-- A strand as a restore brings it back on a lane of a core whose clock reads `now`. -/
def Strand.restored (k : Strand) (now : Nat) (lane : Nat × Nat) : Strand :=
  { k with
    lane := lane.1, slot := lane.2, trapAt := if k.ph || k.stopped then now else 0
    tmrcmp := k.tmrcmp + BitVec.ofNat 64 now
    groups := k.groups.map fun g => { g with hold := g.hold.map (· + now) } }

/-- Change every strand of a block. -/
def State.eachStrand (s : State) (blk : Nat) (f : StrandRef → Strand → Strand) : State :=
  { s with strands := s.strands.map fun e => if e.1.blk == blk then (e.1, f e.1 e.2) else e }

/-- An operation that a save abandons (R170, R183, R280): a copy gives back what it posted, and is to be issued again from the start, together with
its follow-on MMA. DESIGN CHOICE (log 23): it keeps the causes and the DISCARD that it has met. -/
def State.saveOp (s : State) (n : Nat) (o : EngOp) : State :=
  if o.stage != .running then s
  else if o.kind.copy then
    let s := o.posts.foldl (fun s p => s.unpost n o p p.owed p.got) s
    let s := (s.setOp n { o with
      stage := .queued, posts := [], moved := [], scales := [], excs := [], staged := [], held := .no, heldVa := 0, posting := false }).opEvent o Cause.copyAbandon
    match o.follow with
    | none => s
    | some m => match s.op? m with
      | none => s
      | some f =>
        if f.posting then s
        else (if f.stage == .running then s.leaveOrder m f else s).modOp m fun f => { f with follow := some n }
  else if o.kind == .mma && !o.posting then s.opEvent o Cause.mmaAbandon
  else s

/-- A core reports a partition's absent ranges again (R220, R340). -/
def Core.forget (c : Core) (fe : Nat) : Core := { c with reported := c.reported.filter fun x => x.1 != fe }

/-- A halted block is stored (R337). -/
def State.saveBlock (s : State) (blk : Nat) (b : Block) : State :=
  let now := s.clock b.core
  let s := s.eachStrand blk fun r k => k.saved now (s.heldThreads r)
  let s := (s.ops.filter fun e => e.2.blk == blk).foldl (fun s e => s.saveOp e.1 e.2) s
  let core := s.core b.core
  let s := s.modBlock blk fun b => { b with
    life := .saved, gen := b.gen + 1, resided := b.residency s.ns, qstall := none, qreported := false
    savedRecs := core.recs.filter fun e => e.2.busy && e.2.blk == blk
    savedArray := core.array.bind fun a => if a.owner == blk then some a else none }
  let fe := ((s.launch? b.launch).map Launch.fe).getD 0
  let s := (s.setCore b.core ((core.freeBlock blk).forget fe)).noteStalls b.core
  (s.preemptEvent b Cause.preemptSave).count (((s.launch? b.launch).map Launch.fe).getD 0) 11 1

/-! ## What waits for the saves -/

/-- A STOP of mode suspend that has started and not completed. -/
def FrontEnd.suspending (f : FrontEnd) : Option (Nat × Cmd) :=
  f.cmds.find? fun e => e.2.typ == 6 && e.2.body.getD 0 0 == 0

/-- Complete a command and take it off the list of those in progress (R369). -/
def State.endCmd (s : State) (fe n : Nat) (c : Cmd) (cause : Cause) : State :=
  (s.modFe fe fun f => { f with cmds := f.cmds.drop n }).completeCmd fe n c cause

/-- The launches of a partition whose range or colours have changed have their pads on the new range's clusters whose die has room for them
(R207, R309). -/
def State.respread (s : State) (fe : Nat) : State :=
  let f := s.fe fe
  let ls := (s.launches.filter fun e => e.2.fe == fe && !e.2.padsAt.isEmpty).map Prod.snd
  let room := f.clusters.filter fun c => ls.foldl (fun n x => n + x.diePad) 0 ≤ f.dieBytes (c / 8)
  { s with launches := s.launches.map fun (e : Nat × Launch) =>
      if e.2.fe == fe && !e.2.padsAt.isEmpty then (e.1, { e.2 with padsAt := room }) else e }

/-- A partition comes into being (R359, R369, R382): its tokens are signalled with 0x00, its counters are zero, its key is new. -/
def FrontEnd.create (f : FrontEnd) (r : PartRec) : FrontEnd :=
  { f.setRecord r with
    bef := false, tokens := [], queue := [], cmds := [], st := .idle, counters := [], codes := [], hashed := [], failed := []
    binds := [], boundAt := [], tdes := [], cprNum := [], created := f.created + 1 }

/-- A record creates a partition (R323, R330). -/
def State.createPartition (s : State) (fe : Nat) (r : PartRec) : State :=
  (((s.credit.setFe fe ((s.fe fe).create r)).flushTlb fe).emit fe 0 Cause.partitionCreated .management fe []).readmit

/-- A record takes effect on an enabled partition (R324, R330). -/
def State.putRecord (s : State) (fe : Nat) (r : PartRec) : State :=
  ((s.credit.modFe fe fun f => f.setRecord r).respread fe).readmit

/-- Once every block of a partition is saved or gone: a suspend completes with SUSPENDED (R370), a record takes effect (R324), a
swap out is done (R344). -/
def State.settle (s : State) (fe : Nat) : State :=
  if !s.quiet fe || (s.fe fe).stopping.isSome then s
  else
    let f := s.fe fe
    let s := match f.suspending with
      | some (n, c) => (s.emit fe 0 Cause.suspended .frontEnd fe []).endCmd fe n c 0
      | none => s
    let s := match f.nextRec with
      | some r => s.putRecord fe r
      | none => s
    if f.swapping then
      (s.credit.emit fe 0 Cause.swapOut .frontEnd fe []).modFe fe fun f => { f with swapping := false, swapped := true }
    else s

/-- BLOCK_SAVED (R336, R337): once nothing is left to wait for. -/
def execBlockSaved (blk : Nat) (s : State) : Outcome :=
  match s.block? blk with
  | none => .next s
  | some b =>
    if b.life != .halting || s.haltWaits blk then .next s
    else .next ((s.saveBlock blk b).settle (((s.launch? b.launch).map Launch.fe).getD 0))

/-- BLOCK_RETIRE (R30): a contained block's buffer commits first, and the block stays while that commit is held. -/
def execBlockRetire (blk : Nat) (s : State) : Outcome :=
  match s.block? blk with
  | none => .next s
  | some b =>
    if !s.ended blk b then .next s
    else
      let s := if b.buf.isEmpty then s else s.commit blk none
      match s.block? blk with
      | none => .next s
      | some b =>
        .next (if b.committing.isSome then s else (s.retire blk b).settle (((s.launch? b.launch).map Launch.fe).getD 0))

/-! ## Restoring (R314, R340) -/

/-- A held request is to be translated again (R220). -/
def Hold.again : Hold → Hold
  | .held => .replay
  | h => h

/-- A strand whose held requests are translated again: its sleeping reads and its fetch; a parked strand tries again. -/
def Strand.replayed (k : Strand) : Strand :=
  { k with
    sleepers := k.sleepers.map fun e => (e.1, { e.2 with waita := e.2.waita.map fun w => { w with held := w.held.again } })
    fetchHeld := k.fetchHeld.again, parked := 0, why := if k.why == .parked then .issued else k.why }

/-- Translate again every held request of which `mine` holds, by partition and block (R220); the commits that are held go on. -/
def State.replayHeld (s : State) (mine : Nat → Nat → Bool) : State :=
  let feOf := fun (blk : Nat) => ((s.launchOf blk).map Launch.fe).getD 0
  let s := { s with
    accs := s.accs.map fun (e : Nat × Access) => if mine e.2.fe e.2.strand.blk then (e.1, { e.2 with held := e.2.held.again }) else e
    quorums := s.quorums.map fun (e : Nat × QuorumOp) => if mine e.2.fe e.2.strand.blk then (e.1, { e.2 with held := e.2.held.again }) else e
    ops := s.ops.map fun (e : Nat × EngOp) => if mine e.2.fe e.2.blk then (e.1, { e.2 with held := e.2.held.again }) else e
    samples := s.samples.map fun (e : Nat × SampleOp) => if mine e.2.fe e.2.strand.blk then (e.1, { e.2 with held := e.2.held.again }) else e
    services := s.services.map fun (e : Nat × ServiceOp) => if mine e.2.fe e.2.strand.blk then (e.1, { e.2 with held := e.2.held.again }) else e
    strands := s.strands.map fun (e : StrandRef × Strand) => if mine (feOf e.1.blk) e.1.blk then (e.1, e.2.replayed) else e }
  s.blocks.foldl (fun s e => if mine (feOf e.1) e.1 && e.2.committing.isSome && e.2.life != .saved then s.recommit e.1 else s) s

/-- A WAITA reads its word again after a restore (R340). -/
def Strand.rereads (k : Strand) : Strand :=
  { k with sleepers := k.sleepers.map fun e => (e.1, { e.2 with waita := e.2.waita.map fun w => { w with last := none } }) }

/-- Give a saved block's records new places on its core, the lowest free ones (R268, R314): old number, new number, generations. -/
def Core.placeRecs (c : Core) : Table Nat HandleRec → Core × List (Nat × Half × Nat × Half)
  | [] => (c, [])
  | (n, x) :: rs =>
    match c.freeRec with
    | none => (c, [])
    | some i =>
      let g := (c.record i).gen
      let (c, l) := ({ c with recs := c.recs.put i { x with gen := g } } : Core).placeRecs rs
      (c, (n, x.gen, i, g) :: l)

/-- A handle register after a restore: a token of the block's old slot and record names the new ones. -/
def renameToken (moves : List (Nat × Half × Nat × Half)) (old new : Nat) (t : Word) : Word :=
  match moves.find? fun m => token m.2.1 old m.1 == t with
  | some m => token m.2.2.2 new m.2.2.1
  | none => t

/-- An operation on the new core: its record renamed (R280). -/
def State.restoreOp (s : State) (core : Nat) (moves : List (Nat × Half × Nat × Half)) (n : Nat) (o : EngOp) : State :=
  s.setOp n { o with core := core, record := o.record.bind fun i => (moves.find? fun m => m.1 == i).map fun m => m.2.2.1 }

/-- Restore a saved block at a seat (R340). -/
def State.restoreBlock (s : State) (blk : Nat) (b : Block) (seat : Seat) : State :=
  let (core, moves) := (s.core seat.core).placeRecs b.savedRecs
  let s := s.setCore seat.core { core.forget (((s.launch? b.launch).map Launch.fe).getD 0) with array := if b.savedArray.isSome then b.savedArray else core.array }
  let now := s.clock seat.core
  let s := s.modBlock blk fun b => { b with
    life := .running, core := seat.core, slot := seat.slot, placed := s.ns, selectable := s.ns + 32, savedRecs := [], savedArray := none }
  let s := s.eachStrand blk fun r k =>
    let k := (k.restored now (seat.lanes.getD r.sid (0, 0))).rereads
    { k with h := k.h.map fun e => (e.1, e.2.map (renameToken moves b.slot seat.slot)) }
  let s := (s.ops.filter fun e => e.2.blk == blk).foldl (fun s e => s.restoreOp seat.core moves e.1 e.2) s
  let s := { s with
    accs := s.accs.map fun (e : Nat × Access) => if e.2.strand.blk == blk then (e.1, { e.2 with core := seat.core }) else e
    quorums := s.quorums.map fun (e : Nat × QuorumOp) => if e.2.strand.blk == blk then (e.1, { e.2 with core := seat.core }) else e
    samples := s.samples.map fun (e : Nat × SampleOp) => if e.2.strand.blk == blk then (e.1, { e.2 with core := seat.core, held := .replay }) else e
    services := s.services.map fun (e : Nat × ServiceOp) => if e.2.strand.blk == blk then (e.1, { e.2 with core := seat.core }) else e }
  ((s.replayHeld fun _ b => b == blk).noteStalls seat.core).preemptEvent { b with core := seat.core } Cause.preemptRestore

/-- BLOCK_RESTORE (R314, R340): a saved block that is the partition's next placement. -/
def execBlockRestore (blk : Nat) (s : State) : Outcome :=
  match s.block? blk, s.launchOf blk with
  | some b, some la =>
    if s.mayPlace la.fe && s.decide la.fe == some (.restore blk) then
      match s.restoreSeat b with
      -- saved state that cannot be read (R355 ECC_CONTEXT)
      | some x => .next (if b.ctxBad then s.failLaunch b.launch Cause.eccContext else (s.restoreBlock blk b x).placedOne la.fe)
      | none => .next s
    else .next s
  | _, _ => .next s

/-! ## Context swaps (R344) -/

/-- CONTEXT_SWAP_OUT (R344): every block is pre-empted; once they are saved or gone the partition's state is stored, and its
clusters are free. -/
def execContextSwapOut (fe : Nat) (s : State) : Outcome :=
  let f := s.fe fe
  if !f.en || f.swapped then .next s
  else if f.swapping then .next (s.settle fe)
  else .next (((s.setFe fe { f with swapping := true }).preemptAll fe).settle fe)

/-- A number moved with a range from `old` to `new`. -/
def shifted (old new n : Nat) : Nat := n + new - old

/-- A launch's allocations after its partition has moved from cluster `old` to cluster `new` (R344). -/
def Launch.moved (la : Launch) (old new : Nat) : Launch :=
  let cl := shifted old new
  let die := shifted (old / 8) (new / 8)
  { la with
    padsAt := la.padsAt.map cl
    clusterPads := la.clusterPads.map fun e => (cl e.1, e.2)
    diePads := la.diePads.map fun e => (die e.1, e.2)
    cohortAt := la.cohortAt.map fun e => (e.1, cl e.2)
    staging := la.staging.map fun e => (e.1, { e.2 with cluster := cl e.2.cluster }) }

/-- Another enabled partition that holds its clusters has one of a range (R324). -/
def State.rangeTaken (s : State) (fe lo hi : Nat) : Bool :=
  s.fes.any fun e => e.1 != fe && e.2.en && ((!e.2.swapped && e.2.cbase ≤ hi && lo ≤ e.2.clim)
    || e.2.nextRec.any fun r => r.cbase ≤ hi && lo ≤ r.clim)

/-- CONTEXT_SWAP_IN (R344): the state comes back on a range of the same number of clusters; its blocks are then restored. -/
def execContextSwapIn (fe cbase : Nat) (s : State) : Outcome :=
  let f := s.fe fe
  let hi := cbase + (f.clim - f.cbase)
  if !f.swapped then .next s
  else if 32 ≤ hi || s.rangeTaken fe cbase hi then .next { s with mgmt := Cause.recordRefused }
  else
    let s := { s with launches := s.launches.map fun (e : Nat × Launch) => if e.2.fe == fe then (e.1, e.2.moved f.cbase cbase) else e }
    .next (((((s.credit.setFe fe { f with cbase := cbase, clim := hi, swapped := false }).flushTlb fe).respread fe).emit fe 0 Cause.swapIn .frontEnd fe []).readmit)

end Sys2Proof.Machine
end

