-- ==== Sys2Proof/Machine/FrontEnds.lean ====
section
/-!
DEFINITION. The command front ends (R328, R368 to R372): packets, the start of commands, LAUNCH with its refusals (R37, R50, R370), COPY, WAIT,
SIGNAL, MAP and STOP, the end of a partition's work and its dirty-page report (R341, R342).
-/
namespace Sys2Proof.Machine

/-! ## Packets (R368) -/

/-- Bytes `i` to `i + n - 1` of a list as a number. -/
def field (bs : List Byte) (i n : Nat) : Nat := numOf ((bs.drop i).take n)

/-- A packet's header and body as a command. A misaligned CADDR names no record. -/
def cmdOf (bs : List Byte) : Cmd :=
  let ca := field bs 8 8
  { typ := field bs 0 1, seq := field bs 2 2, done := field bs 4 2, caddr := if ca % 16 = 0 then ca else 0, body := bs.drop 16 }

/-- A field of a command's body; `i` counts from the start of the packet (R370). -/
def Cmd.at (c : Cmd) (i n : Nat) : Nat := field c.body (i - 16) n

/-- The token that a packet waits for. -/
def waitTok (bs : List Byte) : Nat := field bs 6 2

/-- The mode of a STOP (R370). -/
def Cmd.mode (c : Cmd) : Nat := c.at 16 1

/-- A malformed packet (R369): its TYPE, a reserved field, CADDR, or a value that its body's table does not have. -/
def malformed (bs : List Byte) : Bool :=
  let c := cmdOf bs
  !(1 ≤ c.typ && c.typ ≤ 6) || field bs 1 1 != 0 || field bs 8 8 % 16 != 0
    || (c.typ == 1 && (c.at 56 8 != 0 || 32 ≤ c.at 31 1))
    || (c.typ == 2 && (c.at 32 8 = 0 || 2 ^ 40 < c.at 32 8))
    || (c.typ == 6 && 2 < c.mode)

/-- PACKET_RECEIVE (R328, R368): a packet of another virtual function is refused. -/
def execPacketReceive (vf fe : Nat) (bytes : List Byte) (s : State) : Outcome :=
  if bytes.length != 64 then .next s
  else if vf != fe then .next (s.modFe vf fun f => { f with refused := Cause.packetForeign })
  else if !(s.fe fe).en then .next s
  else .next (s.modFe fe fun f => { f with queue := f.queue ++ [bytes] })

/-! ## Starting a command (R369, R371) -/

/-- Whether a token lets a command start. -/
def FrontEnd.tokenReady (f : FrontEnd) (t : Nat) : Bool := t == 0 || ((f.tokens.get? t).getD (some 0)).isSome

/-- The cause that a token holds. -/
def FrontEnd.tokenCause (f : FrontEnd) (t : Nat) : Cause := if t == 0 then 0 else (((f.tokens.get? t).join).getD 0)

/-- The place in the queue of the packet that may start now (R371): the first STOP under a suspension, else the first packet, once
its token is signalled. -/
def FrontEnd.startable (f : FrontEnd) : Option (Nat × List Byte) :=
  if !f.en || f.swapping || f.swapped || f.stopping.isSome || f.fitWait.isSome then none
  else if f.st == .suspended then
    ((f.queue.zipIdx).find? fun e => (cmdOf e.1).typ == 6).map fun e => (e.2, e.1)
  else match f.queue with
    | [] => none
    | p :: _ => if f.st == .stopped || f.tokenReady (waitTok p) then some (0, p) else none

/-- A command has started: it leaves the queue, its SEQ is the last started, its DONETOK is pending. -/
def State.beginCmd (s : State) (fe i : Nat) (c : Cmd) : State :=
  (s.modFe fe fun f => { f with
    queue := f.queue.eraseIdx i
    seqStart := c.seq
    st := if f.st == .idle then .running else f.st
    tokens := if c.done == 0 then f.tokens else f.tokens.put c.done none }).writeStatus fe

/-- The cause with which a command completes at its start without effect (R369, R371). -/
def FrontEnd.startCause (f : FrontEnd) (bs : List Byte) : Option Cause :=
  let c := cmdOf bs
  let resume := c.typ == 6 && c.mode == 2
  if f.st == .stopped && (malformed bs || !resume) then some Cause.partitionStop
  else if malformed bs then some Cause.packetInvalid
  else if f.st != .suspended && f.st != .stopped && f.tokenCause (waitTok bs) != 0 then some Cause.launchToken
  else none

/-- Start the next command of a front end, if it is one that `want` names or is one that completes without effect; `go` carries it
out as the command of that number. -/
def State.startNext (s : State) (fe : Nat) (want : Cmd → Bool) (go : State → Nat → Cmd → State) : Outcome :=
  match (s.fe fe).startable with
  | none => .next s
  | some (i, bs) =>
    let c := cmdOf bs
    match (s.fe fe).startCause bs with
    | some cause => .next ((s.beginCmd fe i c).completeCmd fe s.uid c cause)
    | none =>
      if !want c then .next s
      else
        let (n, s) := (s.beginCmd fe i c).name
        -- what is performed by now happens before what the command does (R373, log 9)
        let c := { c with since := s.seq }
        .next (go (s.modFe fe fun f => { f with cmds := f.cmds.put n c }) n c)

/-! ## LAUNCH (R37, R50, R370, R374) -/

/-- The kernel record of an entry point (R374), of 64 bytes. -/
def FrontEnd.kernelAt (f : FrontEnd) (entry : Nat) : Option (List Byte) :=
  f.codes.findSome? fun o => o.kernels.find? fun k => o.va + field k 0 8 == entry

/-- A launch from a LAUNCH body and its kernel record. A pad field below the record's value takes that value. -/
def launchOfCmd (fe n : Nat) (c : Cmd) (k : List Byte) : Launch :=
  let pad := fun (i unit rec : Nat) => max (c.at i 2 * unit) (ceilDiv (field k rec 4) unit * unit)
  let fl := c.at 31 1
  { fe := fe, cmd := n, lid := c.seq % 2048, since := c.since
    entry := BitVec.ofNat 64 (c.at 16 8), n := c.at 24 4, bdim := c.at 28 2
    nregs := if c.at 30 1 = 0 then field k 12 1 else c.at 30 1
    jregs := field k 13 1
    tangents := ((k.drop 16).take (field k 14 1)).map BitVec.toNat
    corePad := pad 32 4096 24, clusterPad := pad 34 65536 28, diePad := pad 36 65536 32
    stages := (List.range 4).map fun i => if i < field k 37 1 then some (field k (38 + 2 * i) 1, field k (39 + 2 * i) 1) else none
    queues := (List.range 8).map fun i =>
      let x := field k (47 + 2 * i) 1
      if x.testBit 7 then some ⟨field k (46 + 2 * i) 1, bitsN x 1 0, bitsN x 3 2⟩ else none
    consts := BitVec.ofNat 64 (c.at 40 8), raster := c.at 48 4, time := BitVec.ofNat 32 (c.at 52 4)
    mmr := field k 15 1, contained := fl.testBit 0, idem := fl.testBit 1
    screen := if c.at 38 1 = 0 then 0 else 2 ^ c.at 38 1
    cohort := c.at 39 1, prio := bitsN fl 4 2 }

/-- A parameter outside the range of R37. -/
def Launch.paramBad (l : Launch) (scr : Nat) : Bool :=
  l.n = 0 || l.bdim < 32 || 1024 < l.bdim || l.bdim % 32 != 0 || l.nregs < 8 || 128 < l.nregs || l.nregs % 8 != 0 || l.nregs < l.jregs
    || 56 * 4096 < l.corePad || 96 * 65536 < l.clusterPad || 768 * 65536 < l.diePad
    || !(scr = 0 || (4 ≤ scr && scr ≤ 16)) || l.cohort = 0 || 18 < l.cohort || l.consts.toNat % 256 != 0 || 2 ^ 52 ≤ l.consts.toNat
    || 65536 < l.raster

/-- Whether a block of a launch fits on an empty core (R37, R310). -/
def Launch.fitsEmpty (l : Launch) : Bool :=
  l.corePad ≤ 56 * 4096 && l.queueSum ≤ 512 && (assignLanes l.granules (l.strandsIn 0) (List.replicate 16 {})).isSome

/-- The refusal of a launch, the first in the order of R370. -/
def FrontEnd.launchCause (f : FrontEnd) (c : Cmd) (k : List Byte) (l : Launch) : Option Cause :=
  ([(l.entry.toNat % 8 != 0, Cause.launchEntry),
    (l.paramBad (c.at 38 1), Cause.launchParam),
    (l.nregs < field k 12 1 || (l.idem && !(field k 36 1).testBit 0), Cause.launchOverride),
    (192 < l.jregs * (1 + l.d) + (l.nregs - l.jregs), Cause.launchFootprint),
    (f.dies.any fun d => f.dieBytes d < l.diePad, Cause.launchDiepad),
    (!l.fitsEmpty, Cause.launchFit)].find? Prod.fst).map Prod.snd

/-- The cluster-pad bytes that a launch takes on each cluster, its cohort staging among them (R285). -/
def Launch.clusterUse (l : Launch) : Nat := l.clusterPad + (l.cohort - 1) * l.corePad

/-- Whether a launch's pads fit beside those of the partition's running launches (R207). -/
def State.padsFit (s : State) (l : Launch) : Bool :=
  let ls := (s.launches.filter fun e => e.2.fe == l.fe).map Prod.snd
  ls.foldl (fun n x => n + x.clusterUse) l.clusterUse ≤ 6 * 2 ^ 20
    && (s.fe l.fe).dies.all fun d => ls.foldl (fun n x => n + x.diePad) l.diePad ≤ (s.fe l.fe).dieBytes d

/-- A launch begins: its pads are allocated on the clusters of the range (R207), and its blocks may be dispatched. -/
def State.beginLaunch (s : State) (n : Nat) (l : Launch) : State :=
  let (id, s) := s.name
  (s.setLaunch id { l with padsAt := (s.fe l.fe).clusters }).modFe l.fe fun f => { f with fitWait := none, cmds := f.cmds.mod n fun c => { c with pos := id } }

/-- CMD_LAUNCH (R370): a refusal, a launch, or the wait until its pads fit. -/
def execCmdLaunch (fe : Nat) (s : State) : Outcome :=
  s.startNext fe (·.typ == 1) fun s n c =>
    let f := s.fe fe
    match f.kernelAt (c.at 16 8) with
    | none => s.endCmd fe n c Cause.launchEntry
    | some k =>
      let l := launchOfCmd fe n c k
      match f.launchCause c k l with
      | some cause => s.endCmd fe n c cause
      | none => if s.padsFit l then s.beginLaunch n l else s.modFe fe fun f => { f with fitWait := some (n, l) }

/-- LAUNCH_FIT_START (R207). -/
def execLaunchFitStart (fe : Nat) (s : State) : Outcome :=
  match (s.fe fe).fitWait with
  | some (n, l) => .next (if s.padsFit l && (s.fe fe).stopping.isNone then s.beginLaunch n l else s)
  | none => .next s

/-- Every block of a launch has retired or the launch has failed, and every write of it has been performed (R370). -/
def State.launchOver (s : State) (l : Nat) (la : Launch) : Bool :=
  (la.failed.isSome || (la.nblocks ≤ la.next && la.again.isEmpty)) && (s.blocksOf l).isEmpty
    && !(s.accs.any fun e => e.2.launch == l) && !(s.quorums.any fun e => e.2.launch == l) && !(s.echoes.any fun e => e.2.launch == l)
    && !(s.ops.any fun e => e.2.launch == l)

/-- A launch ends with its command (R370). -/
def State.endLaunch (s : State) (l : Nat) (la : Launch) : State :=
  let s := { s with launches := s.launches.drop l }
  match (s.fe la.fe).cmds.get? la.cmd with
  | some c => s.endCmd la.fe la.cmd c (la.failed.getD la.status)
  | none => s

/-- LAUNCH_COMPLETE (R346, R370). -/
def execLaunchComplete (l : Nat) (s : State) : Outcome :=
  match s.launch? l with
  | some la => .next (if s.launchOver l la && (s.fe la.fe).stopping.isNone then s.endLaunch l la else s)
  | none => .next s

/-! ## COPY, WAIT, SIGNAL -/

/-- The partition of a command in progress. -/
def State.cmdFe (s : State) (n : Nat) : Option (Nat × Cmd) :=
  s.fes.findSome? fun e => if e.2.stopping.isSome then none else (e.2.cmds.get? n).map fun c => (e.1, c)

/-- CMD_COPY (R370). -/
def execCmdCopy (fe : Nat) (s : State) : Outcome := s.startNext fe (·.typ == 2) fun s _ _ => s

/-- Report a page that a command needs and that is not present (R220): the request waits. -/
def State.cmdAbsent (s : State) (fe va : Nat) (write : Bool) : State :=
  s.reportAbsent fe 0 (18 * (s.fe fe).cbase) va (if write then 5 else 4) 0

/-- COPY_CMD_COMPLETE (R370): the copy moves its next bytes, up to a 64-byte boundary of source and destination; with the last one, or at
a fault, it completes. -/
def execCopyCmdComplete (n : Nat) (s : State) : Outcome :=
  match s.cmdFe n with
  | none => .next s
  | some (fe, c) =>
    if c.typ != 2 || s.service == .reduced then .next s
    else
      let len := c.at 32 8
      let src := c.at 16 8 + c.pos
      let dst := c.at 24 8 + c.pos
      let k := min (len - c.pos) (min (64 - src % 64) (64 - dst % 64))
      if len ≤ c.pos then .next (s.endCmd fe n c 0)
      else match lookup (s.tlb fe) (s.fe fe) .engRead src k, lookup (s.tlb fe) (s.fe fe) .engWrite dst k with
        | .fault x, _ => .next (s.endCmd fe n c x)
        | .absent, _ => .next (s.cmdAbsent fe src false)
        | _, .fault x => .next (s.endCmd fe n c x)
        | _, .absent => .next (s.cmdAbsent fe dst true)
        | .page p, .page q =>
          if s.poisoned p k then .next (s.endCmd fe n c Cause.memPoison)
          else
            let (pl, a) := (s.fe fe).place p
            let s := (s.writePage (s.fe fe) q (s.readRunAs pl { base := c.since } 1 a k s.fresh).bytes { grain := 1, before := { base := c.since } }).traffic fe q
            let s := (s.countMem fe 5 k p).countMem fe 6 k q
            let c' := { c with pos := c.pos + k }
            let s := s.modFe fe fun f => { f with cmds := f.cmds.put n c' }
            .next (if len ≤ c'.pos then s.endCmd fe n c' 0 else s)

/-- CMD_WAIT (R370). -/
def execCmdWait (fe : Nat) (s : State) : Outcome := s.startNext fe (·.typ == 3) fun s n c => s.endCmd fe n c 0

/-- CMD_SIGNAL (R370). -/
def execCmdSignal (fe : Nat) (s : State) : Outcome := s.startNext fe (·.typ == 4) fun s _ _ => s

/-- SIGNAL_STORE (R370): once every earlier command has completed. -/
def execSignalStore (n : Nat) (s : State) : Outcome :=
  match s.cmdFe n with
  | none => .next s
  | some (fe, c) =>
    if c.typ != 4 || (s.fe fe).cmds.any (fun e => e.1 < n) then .next s
    else
      let va := c.at 16 8
      if va = 0 then .next (s.endCmd fe n c 0)
      else match lookup (s.tlb fe) (s.fe fe) .engWrite va 8 with
        | .absent => .next (s.cmdAbsent fe va true)
        | .fault x => .next (s.endCmd fe n c x)
        | .page p => .next ((((s.writePage (s.fe fe) p (bytesOf 8 (c.at 24 8)) s.release).countMem fe 6 8 p).traffic fe p).endCmd fe n c 0)

/-! ## MAP -/

/-- CMD_MAP (R370). -/
def execCmdMap (fe : Nat) (s : State) : Outcome :=
  s.startNext fe (·.typ == 5) fun s n c =>
    if c.at 16 8 % 65536 != 0 || c.at 24 8 % 65536 != 0 || c.at 24 8 = 0 then s.endCmd fe n c Cause.mapInvalid else s

/-- MAP_COMPLETE (R217, R220, R361, R370): held requests are translated again, and the marks of code pages in the range are cleared. -/
def execMapComplete (n : Nat) (s : State) : Outcome :=
  match s.cmdFe n with
  | none => .next s
  | some (fe, c) =>
    if c.typ != 5 then .next s
    else
      let lo := c.at 16 8
      let out := fun (p : Nat) => p < lo || lo + c.at 24 8 ≤ p
      let s := s.modFe fe fun f => { f with hashed := f.hashed.filter out, failed := f.failed.filter out }
      let s := { s with cores := s.cores.map fun (e : Nat × Core) => (e.1, { e.2 with reported := e.2.reported.filter fun r => r.1 != fe }) }
      let s := s.replayHeld fun f b => f == fe && ((s.block? b).map Block.life) != some BlockLife.saved
      let s := if (c.at 32 1).testBit 0 then (s.flushTlb fe).emit fe 0 Cause.xlateFlushed .frontEnd fe [] else s
      .next (s.endCmd fe n c 0)

/-! ## STOP -/

/-- End a suspension whose command has not completed. -/
def State.endSuspend (s : State) (fe : Nat) : State :=
  match (s.fe fe).suspending with
  | some (n, c) => s.endCmd fe n c 0
  | none => s

/-- A STOP of mode suspend. -/
def Cmd.suspends (c : Cmd) : Bool := c.typ == 6 && c.mode == 0

/-- CMD_STOP_SUSPEND (R370, R371): every block is pre-empted, and the command completes once they are saved or gone; a further one completes at once. -/
def execCmdStopSuspend (fe : Nat) (s : State) : Outcome :=
  let f := s.fe fe
  if f.suspending.isSome && !(f.startable.any fun e => (cmdOf e.2).suspends) then .next (s.settle fe)
  else s.startNext fe Cmd.suspends fun s n c =>
    if (s.fe fe).st == .suspended then s.endCmd fe n c 0
    else ((s.modFe fe fun f => { f with st := .suspended }).preemptAll fe).settle fe

/-- CMD_STOP_RESUME (R370, R371): the dispatcher may restore the saved blocks, or a stopped front end is idle again. -/
def execCmdStopResume (fe : Nat) (s : State) : Outcome :=
  s.startNext fe (fun c => c.typ == 6 && c.mode == 2) fun s n c =>
    let s := if (s.fe fe).st == .suspended then s.endSuspend fe else s
    (s.modFe fe fun f => { f with st := if f.st == .suspended || f.st == .stopped then .running else f.st }).endCmd fe n c 0

/-- The dirty leaf entries below a table (R342): page VA with the size code. -/
def dirtyLeaves (m : Tlb) (f : FrontEnd) : Nat → Nat → Nat → List Nat
  | lvl, tab, va =>
    let n := match lvl with | 0 => 32 | _ => 512
    let size := match lvl with | 0 => 2 ^ 16 | 1 => 2 ^ 21 | _ => 2 ^ 30
    (List.range n).flatMap fun i =>
      let va := va + i * size
      match readPte m f (tab + 8 * i) with
      | none => []
      | some e =>
        if !e.testBit 0 then []
        else if e.testBit 1 then (if e.testBit 7 then [va + lvl] else [])
        else match lvl with
          | 0 => []
          | l + 1 => dirtyLeaves m f l (pteAddr e) va

/-- Every dirty leaf entry of a partition's page table (R342). -/
def dirtyPages (m : Tlb) (f : FrontEnd) : List Nat :=
  if f.root == 0 then []
  else (List.range 8192).flatMap fun i =>
    match readPte m f (f.root + 8 * i) with
    | none => []
    | some e => if e.testBit 0 && !e.testBit 1 then dirtyLeaves m f 2 (pteAddr e) (i * 2 ^ 39) else []

/-- Write the dirty-page report (R342). -/
def State.dirtyReport (s : State) (fe va : Nat) : State :=
  match s.readVa fe va 16 with
  | none => s
  | some h =>
    let cap := field h 8 8
    let ps := dirtyPages { mem := s.mem } (s.fe fe)
    let s := ((ps.take cap).zipIdx).foldl (fun s e => (s.writeVa fe (va + 16 + 8 * e.2) (bytesOf 8 e.1) {}).getD s) s
    let s := (s.writeVa fe va (bytesOf 8 ps.length) s.release).getD s
    if cap < ps.length then s.emit fe 0 Cause.reportOverflow .frontEnd fe [] else s

/-- Begin to end a partition's work (R341 steps 1 and 2). A record that waited for its blocks to be saved takes effect once they are gone (R324). -/
def State.beginStop (s : State) (fe : Nat) (x : Stopping) : State :=
  let s := s.endSuspend fe
  let next := (s.fe fe).nextRec
  let s := s.modFe fe fun f => { f with stopping := some x, fitWait := none, nextRec := none, swapping := false }
  let s := { s with launches := s.launches.map fun (e : Nat × Launch) => if e.2.fe == fe then (e.1, { e.2 with failed := some x.cause, again := [] }) else e }
  let s := (s.blocksIn fe).foldl (fun s e => s.killBlock e.1) s
  let s := { s with accs := s.accs.filter fun e => e.2.fe != fe || (e.2.held != .held && !e.2.kind.isLoad) }
  match next with
  | some r => s.putRecord fe r
  | none => s

/-- Writes of a partition that have been issued and not performed, and its CPRs (R341). -/
def State.stopWaits (s : State) (fe : Nat) : Bool :=
  (s.accs.any fun e => e.2.fe == fe && e.2.held != .held) || (s.quorums.any fun e => e.2.fe == fe && e.2.held != .held)
    || (s.echoes.any fun e => e.2.fe == fe) || s.ops.any fun e => e.2.fe == fe

/-- A front end with nothing of its partition left (R376). -/
def FrontEnd.destroyed (f : FrontEnd) : FrontEnd := { refused := f.refused, created := f.created }

/-- End a partition's work once its writes have been performed (R341 steps 3 to 5): every command in progress completes with the
cause, the report is written, the front end is stopped, and a STOP completes. -/
def State.settleStop (s : State) (fe : Nat) : State :=
  match (s.fe fe).stopping with
  | none => s
  | some x =>
    if s.stopWaits fe then s
    else
      let s := { s with
        accs := s.accs.filter fun e => e.2.fe != fe
        quorums := s.quorums.filter fun e => e.2.fe != fe
        launches := s.launches.filter fun e => e.2.fe != fe }
      let s := ((s.fe fe).cmds.filter fun e => some e.1 != x.cmd).foldl (fun s e => s.endCmd fe e.1 e.2 x.cause) s
      let s := match x.report with | some va => s.dirtyReport fe va | none => s
      let s := s.modFe fe fun f => { f with st := .stopped, stopping := none }
      let s := match x.cmd.bind fun n => ((s.fe fe).cmds.get? n).map fun c => (n, c) with
        | some (n, c) => s.endCmd fe n c 0
        | none => s.writeStatus fe
      if !x.gone then s
      else
        let next := (s.fe fe).nextRec
        let s := ((s.credit.emit fe 0 Cause.partitionDestroyed .management fe []).setFe fe (s.fe fe).destroyed).readmit
        -- a record written since is of a new partition
        match next with
        | some r => s.createPartition fe r
        | none => s

/-- CMD_STOP_TERMINATE (R341, R371). -/
def execCmdStopTerminate (fe : Nat) (s : State) : Outcome :=
  if (s.fe fe).stopping.isSome then .next (s.settleStop fe)
  else s.startNext fe (fun c => c.typ == 6 && c.mode == 1) fun s n c =>
    (s.beginStop fe ⟨some n, Cause.partitionStop, some (c.at 24 8), false⟩).settleStop fe

end Sys2Proof.Machine
end

