-- ==== Sys2Proof/Machine/Code.lean ====
section
/-!
DEFINITION. Signed code (R359 to R361, R374, R375): the loader's checks, the tags of code lines, instruction-cache fills, and demand-loaded pages.
-/
namespace Sys2Proof.Machine

/-! ## Fills -/

/-- The partition that owns a core (R325). -/
def State.ownerOf (s : State) (core : Nat) : Option Nat :=
  (s.fes.find? fun e => e.2.en && !e.2.swapped && e.2.cbase ≤ clusterOf core && clusterOf core ≤ e.2.clim).map Prod.fst

/-- The object whose range holds an address. -/
def FrontEnd.codeAt (f : FrontEnd) (va : Nat) : Option CodeObject := f.codes.find? fun o => o.va ≤ va && va < o.va + o.size

/-- Where the tag of a line lies: 8 bytes for each line, in order (log 8). -/
def CodeObject.tagPa (o : CodeObject) (line : Nat) : Nat := o.tags + 8 * ((line - lineOf o.va) / 128)

/-- The tag of a line with given bytes (R359). -/
def lineTag (fe created line : Nat) (bs : List Byte) : Dword := Config.codeTag fe created (bytesOf 8 line ++ bs)

/-- Strands of a partition that wait for a fetch in a range, on one core or on all. -/
def State.fetching (s : State) (fe : Nat) (core : Option Nat) (lo len : Nat) : List StrandRef :=
  (s.strands.filter fun e => e.2.why == .fetch && (s.block? e.1.blk).any fun b =>
    let a := (s.fetchPc fe b.core e.2).toNat
    lo ≤ a && a < lo + len && (core.isNone || core == some b.core) && ((s.launch? b.launch).map Launch.fe) == some fe).map Prod.fst

/-- Strands trap at their fetch (R359, R383); pva is the address of the line, or else the fetch PC. With the second word of a CPL.fo the trap is that
of the whole word, at the CPL's PC (log 15). -/
def State.fetchTrap (s : State) (rs : List StrandRef) (cause : Cause) (line : Option Nat) : State :=
  rs.foldl (fun s r => match s.strand? r, s.block? r.blk with
    | some k, some b =>
      let at_ := s.fetchPc (((s.launch? b.launch).map Launch.fe).getD 0) b.core k
      s.enterPriv r (k.report cause k.pc (line.elim at_ (BitVec.ofNat 64)))
    | _, _ => s) s

/-- The launches of strands fail with CODE_HASH (R361). -/
def State.hashFail (s : State) (rs : List StrandRef) : State :=
  rs.foldl (fun s r => match s.block? r.blk with | some b => s.blockFails r.blk b Cause.codeHash | none => s) s

/-- A demand-loaded page: its hash (R361). -/
def FrontEnd.demandHash (f : FrontEnd) (page : Nat) : Option (BitVec 256) :=
  f.codes.findSome? fun o => (o.demand.find? fun d => d.1 == page).map Prod.snd

/-- Put a line into a core's instruction cache of 512 lines (R13): a full one first gives up a line, which a later fetch fills and authenticates
again (log 9). -/
def Core.fillLine (c : Core) (seed : Nat) (key : Nat × Nat) (bs : List Byte) : Core :=
  let kept := if 512 ≤ c.icache.length then c.icache.eraseIdx (Config.evictLine seed % c.icache.length) else c.icache
  { c with icache := Table.put kept key bs }

/-- ICACHE_FILL (R359, R361): a line that misses is read and its tag checked. -/
def execIcacheFill (core va : Nat) (s : State) : Outcome :=
  match s.ownerOf core with
  | none => .next s
  | some fe =>
    let f := s.fe fe
    let line := lineOf va
    let page := va / 65536 * 65536
    let rs := s.fetching fe (some core) line 128
    if ((s.core core).icache.get? (fe, line)).isSome then .next s
    else match lookup (s.tlb fe) f .fetch line 128 with
      | .page p =>
        if f.failed.contains page then .next (s.hashFail rs)
        else if (f.demandHash page).isSome && !f.hashed.contains page then .next s
        else if s.poisoned p 128 then .next (s.fetchTrap rs Cause.memPoison none)
        else
          let bs := s.readPage f p 128
          let ok := match f.codeAt line with
            | some o => f.owns (o.tagPa line) 8 && s.mem.num (o.tagPa line) 8 == (lineTag fe o.count line bs).toNat
            | none => false
          if ok then .next (s.setCore core ((s.core core).fillLine s.fresh (fe, line) bs))
          else .next (s.fetchTrap rs Cause.codeMac (some line))
      | _ => .next s

/-! ## Tags -/

/-- Write the tag of one line of an object into its table (R359), as the partition's memory holds the line now. -/
def State.tagLine (s : State) (fe : Nat) (o : CodeObject) (line : Nat) : State :=
  match lookup (s.tlb fe) (s.fe fe) .engRead line 128 with
  | .page p =>
    if (s.fe fe).owns (o.tagPa line) 8 then
      s.write .device (o.tagPa line) (bytesOf 8 (lineTag fe o.count line (s.readPage (s.fe fe) p 128)).toNat) {}
    else s
  | _ => s

/-- The lines of a run. -/
def linesIn (va len : Nat) : List Nat := (List.range (ceilDiv (va % 128 + len) 128)).map fun i => lineOf va + 128 * i

/-- DEMAND_PAGE_HASH (R361): at the first fetch from it the whole page is hashed, once; a match tags its lines, a mismatch marks it failed, and so does a page that lies in
part in a channel of another partition (R327). -/
def execDemandPageHash (fe va : Nat) (s : State) : Outcome :=
  let f := s.fe fe
  let page := va / 65536 * 65536
  match f.demandHash page, f.codeAt page, lookup (s.tlb fe) f .fetch page 128 with
  | some h, some o, .page p =>
    if f.hashed.contains page || f.failed.contains page || (s.fetching fe none page 65536).isEmpty then .next s
    else if f.owns p.pa 65536 && Config.sha256 (s.readPage f p 65536) == h then
      let s := (linesIn page 65536).foldl (fun s l => s.tagLine fe o l) s
      .next (s.modFe fe fun f => { f with hashed := page :: f.hashed })
    else .next ((s.modFe fe fun f => { f with failed := page :: f.failed }).hashFail (s.fetching fe none page 65536))
  | _, _, _ => .next s

/-! ## The loader (R374, R375) -/

/-- The bytes of a run of a partition's memory from a 64-byte boundary; none where some of it does not translate. -/
def State.readRun (s : State) (fe va : Nat) : Nat → Option (List Byte)
  | 0 => some []
  | n + 1 => (s.readVa fe va 64).bind fun bs => (s.readRun fe (va + 64) n).map (bs ++ ·)

/-- A section: kind, offset, length. -/
structure Section_ where
  kind : Nat
  off  : Nat
  len  : Nat
  deriving DecidableEq, Repr

/-- An object's header and tables (R374). -/
structure Iluop where
  bytes : List Byte
  size  : Nat
  sects : List Section_
  kerns : List (List Byte)
  errata : Nat
  hashes : List (Nat × BitVec 256)
  sig   : Nat
  deriving DecidableEq, Repr

/-- A run of `n` bytes at `off`. -/
def slice (bs : List Byte) (off n : Nat) : List Byte := (bs.drop off).take n

def iluopOf (bs : List Byte) : Iluop :=
  { bytes := bs, size := field bs 8 8
    sects := (List.range (field bs 24 4)).map fun i =>
      let e := slice bs (field bs 16 8 + 16 * i) 16
      ⟨field e 0 4, field e 4 4, field e 8 8⟩
    kerns := (List.range (field bs 28 4)).map fun i => slice bs (field bs 32 8 + 64 * i) 64
    errata := field bs 40 4
    hashes := (List.range (field bs 44 4)).map fun i =>
      let e := slice bs (field bs 48 8 + 40 * i) 40
      (field e 0 8, BitVec.ofNat 256 ((e.drop 8).foldl (fun n b => n * 256 + b.toNat) 0))
    sig := field bs 56 8 }

/-- Two runs of bytes meet. -/
def Section_.meets (x y : Section_) : Bool := x.off < y.off + y.len && y.off < x.off + x.len

/-- Some two of a list are related. -/
def anyPair {α : Type} (r : α → α → Bool) : List α → Bool
  | [] => false
  | x :: xs => xs.any (r x) || anyPair r xs

/-- A malformed header (LOAD_REFUSED 0); reserved bits are ignored (R9). -/
def Iluop.headerBad (o : Iluop) : Bool :=
  field o.bytes 0 4 != 0x4F554C49 || field o.bytes 4 2 != 1 || o.size < o.sig + 72
    || o.sig < field o.bytes 16 8 + 16 * field o.bytes 24 4 || o.sig < field o.bytes 32 8 + 64 * field o.bytes 28 4
    || o.sects.any fun x => 2 < x.kind || o.size < x.off + x.len

/-- A kernel record out of range (LOAD_REFUSED 1): R34, R37, R49; reserved bits are ignored (R9). -/
def kernelBad (k : List Byte) : Bool :=
  let n := field k 12 1
  let j := field k 13 1
  let d := field k 14 1
  let tan := (k.drop 16).take 8
  let stage := fun (i : Nat) => (field k (38 + 2 * i) 1, field k (39 + 2 * i) 1)
  let stages := (List.range (field k 37 1)).map stage
  n < 8 || 128 < n || n % 8 != 0 || n < j || j % 8 != 0 || 8 < d || 192 < j * (1 + d) + (n - j)
    || (tan.take d).any (fun b => 18 < b.toNat) || !(tan.take d).Nodup || (tan.drop d).any (· != 0xFF)
    || 56 * 4096 < field k 24 4 || 96 * 65536 < field k 28 4 || 768 * 65536 < field k 32 4
    || 4 < field k 37 1
    || stages.any (fun e => e.2 < e.1 || 31 < e.2) || anyPair (fun a b => a.1 ≤ b.2 && b.1 ≤ a.2) stages
    || (List.range 8).any (fun i =>
      let x := field k (47 + 2 * i) 1
      x.testBit 7 && (field k (46 + 2 * i) 1 = 0 || 64 < field k (46 + 2 * i) 1 || field k 37 1 ≤ bitsN x 1 0 || field k 37 1 ≤ bitsN x 3 2))

/-- The bytes in text sections. -/
def Iluop.text (o : Iluop) : List Section_ := o.sects.filter fun x => x.kind == 0
def Iluop.inText (o : Iluop) (off : Nat) : Bool := o.text.any fun x => x.off ≤ off && off + 8 ≤ x.off + x.len

/-- The errata of R375 that refuse an object: B-12 always, B-07 and B-15 with a kernel of revision 2. -/
def Iluop.erratumBad (o : Iluop) : Bool :=
  o.errata.testBit 1 || ((o.errata.testBit 0 || o.errata.testBit 2) && o.kerns.any fun k => field k 15 1 == 2)

/-- The first failure of R375; none: the object may be installed. -/
def Iluop.cause (o : Iluop) : Option Cause :=
  let key : Dword := BitVec.ofNat 64 (field o.bytes (o.sig + 64) 8)
  ([(o.headerBad, Cause.loadRefused 0),
    (o.kerns.any kernelBad, Cause.loadRefused 1),
    (anyPair Section_.meets o.sects, Cause.loadRefused 2),
    (o.kerns.any fun k => !o.inText (field k 0 8) || field k 0 8 % 8 != 0, Cause.loadRefused 3),
    (o.sig < field o.bytes 48 8 + 40 * field o.bytes 44 4 || o.hashes.any fun h => !o.inText h.1, Cause.loadRefused 4),
    (o.kerns.isEmpty || o.kerns.any fun k => o.size ≤ field k 8 4, Cause.loadRefused 5),
    (o.kerns.any fun k => field k 15 1 != 1 && field k 15 1 != 2, Cause.loadRefused 6),
    (8 ≤ o.errata, Cause.loadRefused 7),
    (!Config.keyKnown key, Cause.codeKey),
    (!Config.ecdsaVerifies key (o.bytes.take o.sig) (slice o.bytes o.sig 64), Cause.codeSig),
    (o.erratumBad, Cause.erratumRefused)].find? Prod.fst).map Prod.snd

/-- The lines of an object's text that are not in demand-loaded pages. -/
def CodeObject.plainLines (c : CodeObject) : List Nat :=
  ((c.text.flatMap fun t => linesIn t.1 t.2).eraseDups).filter fun l => !c.demand.any fun d => d.1 ≤ l && l < d.1 + 65536

/-- OBJECT_LOAD (R375): the object at a VA of the partition, with a tag table at a physical address. -/
def execObjectLoad (fe va tagTable : Nat) (s : State) : Outcome :=
  let refuse := fun (c : Cause) => Host.Outcome.next (s.modFe fe fun f => { f with loadStatus := c })
  match s.readVa fe va 64 with
  | none => refuse (Cause.loadRefused 0)
  | some h =>
    match s.readRun fe va (ceilDiv (field h 8 8) 64) with
    | none => refuse (Cause.loadRefused 0)
    | some bs =>
      let o := iluopOf (bs.take (field h 8 8))
      match (if va % 128 = 0 then o.cause else some (Cause.loadRefused 0)) with
      | some c => refuse c
      | none =>
        let f := s.fe fe
        let c : CodeObject := {
          va := va, size := o.size, text := o.text.map fun x => (va + x.off, x.len), kernels := o.kerns
          demand := o.hashes.map fun h => (va + h.1, h.2), count := f.created, tags := tagTable }
        let codes := f.codes.filter fun x => x.va != va
        if 64 ≤ codes.length || !(c.plainLines.all fun l => f.owns (c.tagPa l) 8) then refuse (Cause.loadRefused 0)
        else
          let s := s.modFe fe fun f => { f with codes := codes ++ [c], loadStatus := 0 }
          .next (c.plainLines.foldl (fun s l => s.tagLine fe c l) s)

end Sys2Proof.Machine
end

