-- ==== Sys2Proof/Machine/Manage.lean ====
section
/-!
DEFINITION. The host's and the fabric manager's side (R323 to R330, R364 to R367, R373, R376 to R382): records, windows, groups, telemetry, retirement, bring-up,
power caps, ageing, ports, samples, and the host's own reads and writes of device memory.
-/
namespace Sys2Proof.Machine

/-- A management operation ends with a cause (R376). -/
def State.managed (s : State) (c : Cause) : State := { s with mgmt := c }

/-! ## Partition records (R323, R324) -/

/-- A change of record that the blocks must be saved for (R324). -/
def FrontEnd.moves (f : FrontEnd) (r : PartRec) : Bool :=
  f.chan != r.chan || f.colour != r.colour || f.root != r.root || f.cbase != r.cbase || f.clim != r.clim

/-- Disable a partition (R376): a terminate first, or the one that is under way. -/
def State.disable (s : State) (fe : Nat) : State :=
  if (s.fe fe).stopping.isSome then
    (s.modFe fe fun f => { f with stopping := f.stopping.map fun x => { x with gone := true }, nextRec := none }).settleStop fe
  else if (s.fe fe).en then ((s.beginStop fe ⟨none, Cause.partitionStop, none, true⟩).settleStop fe)
  else s

/-- MGMT_PARTITION_WRITE (R323, R324, R330). -/
def execMgmtPartitionWrite (fe : Nat) (rec : PartRec) (s : State) : Outcome :=
  let r := PartRec.norm rec
  let f := s.fe fe
  if !r.en then .next ((s.disable fe).managed 0)
  else if f.nextRec == some r then .next (s.settle fe)
  else if s.recordBad fe r then .next (s.managed Cause.recordRefused)
  else if f.stopping.any Stopping.gone then .next ((s.setFe fe { f with nextRec := some r }).managed 0)
  else if !f.en then .next ((s.createPartition fe r).managed 0)
  else if f.moves r && !s.quiet fe then
    .next ((((s.setFe fe { f with nextRec := some r }).saveAll fe).settle fe).managed 0)
  else .next ((s.putRecord fe r).managed 0)

/-- MGMT_PARTITION_DISABLE (R376). -/
def execMgmtPartitionDisable (fe : Nat) (s : State) : Outcome := .next ((s.disable fe).managed 0)

/-- MGMT_PRIVILEGED_VECTOR (R345, R376). -/
def execMgmtPrivilegedVector (fe : Nat) (va : Dword) (s : State) : Outcome :=
  .next ((s.modFe fe fun f => { f with pvec := va }).managed 0)

/-- The timeout of an Ethernet-remote window lies outside 100 µs to 1 s (R367). -/
def Window.bad (w : Window) : Bool := w.kind != .hostMemory && (w.timeout < 100000 || 1000000000 < w.timeout)

/-- MGMT_WINDOWS (R365, R367): set or unset WIN 0 to 63. -/
def execMgmtWindows (fe win : Nat) (w : Option Window) (s : State) : Outcome :=
  if 64 ≤ win || w.any Window.bad then .next (s.managed Cause.recordRefused)
  else .next ((s.modFe fe fun f => { f with
    windows := match w with | some w => f.windows.put win w | none => f.windows.drop win }).managed 0)

/-- MGMT_REDUCTION_GROUPS (R366). -/
def execMgmtReductionGroups (fe group : Nat) (g : Option RedGroup) (s : State) : Outcome :=
  let bad := match g with
    | some g => g.contexts < (s.fe fe).minfc || g.timeout < 1000000 || 10000000000 < g.timeout
    | none => false
  if 256 ≤ group || bad then .next (s.managed Cause.recordRefused)
  else .next ((s.modFe fe fun f => { f with
    groups := match g with | some g => f.groups.put group g | none => f.groups.drop group }).managed 0)

/-- MGMT_REDUCTION_GRANT (R329, R330). -/
def execMgmtReductionGrant (n : Nat) (s : State) : Outcome :=
  if 63 < n then .next (s.managed Cause.recordRefused) else .next (({ s with grant := n }.readmit).managed 0)

/-- MGMT_TELEMETRY (R376, R380, R381). -/
def execMgmtTelemetry (fe : Nat) (cfg : TelemetryCfg) (s : State) : Outcome :=
  if !(cfg.sampleK = 0 || (10 ≤ cfg.sampleK && cfg.sampleK ≤ 20)) then .next (s.managed Cause.recordRefused)
  else
    let s := s.modFe fe fun f => { f with
      eventBase := cfg.eventBase, sampleBase := cfg.sampleBase, sampleK := cfg.sampleK, counting := cfg.counters }
    let f := s.fe fe
    let s := if cfg.sampleK = 0 then s else
      f.cores.foldl (fun s c => s.setCore c { s.core c with samples := 0, sampleAt := s.clock c }) s
    .next (s.managed 0)

/-- MGMT_STATUS_BLOCK (R372, R376). -/
def execMgmtStatusBlock (fe addr : Nat) (s : State) : Outcome :=
  .next ((s.modFe fe fun f => { f with statusAddr := addr }).managed 0)

/-! ## Retirement, power, ageing -/

/-- The clock of a cluster in full service, in eighths of a GHz (R378, R379). -/
def Cluster.fullRate (c : Cluster) : Nat := 14 - max c.step c.ageStep

/-- Change a cluster and, in full service, its clock with it. -/
def State.tuneCluster (s : State) (n : Nat) (f : Cluster → Cluster) : State :=
  let c := f (s.clusters.getD n {})
  { s with clusters := s.clusters.put n (if s.service == .full then c.setRate s.ns c.fullRate else c) }

/-- Retire a cluster (R330, R376, R379): its blocks are saved by R336, and the partitions are re-admitted. -/
def State.retireCluster (s : State) (n : Nat) : State :=
  if 32 ≤ n || s.retiredClusters.getLsbD n then s
  else
    let s := { s with retiredClusters := s.retiredClusters ||| (1#32 <<< n) }
    let s := s.emitAll Cause.clusterRetire .management n []
    let s := s.blocks.foldl (fun s e => if clusterOf e.2.core == n && e.2.life == .running then s.haltBlock e.1 else s) s
    s.readmit

/-- MGMT_RETIRE (R330, R376). -/
def execMgmtRetire (u : RetireUnit) (n : Nat) (s : State) : Outcome :=
  match u with
  | .cluster => if 32 ≤ n then .next (s.managed Cause.recordRefused) else .next ((s.retireCluster n).managed 0)
  | .channel =>
    if 384 ≤ n then .next (s.managed Cause.recordRefused)
    else
      let s := { s with retiredChannels := s.retiredChannels ||| (1#384 <<< n) }
      .next (((s.emitAll Cause.channelRetire .management (n / 32) []).readmit).managed 0)

/-- MGMT_POWER_LIMIT (R376, R378). -/
def execMgmtPowerLimit (watts : Nat) (s : State) : Outcome :=
  if watts < 600 || 2400 < watts then .next (s.managed Cause.recordRefused) else .next ({ s with powerLimit := watts }.managed 0)

/-- One reading of the monitors of a cluster (R379). -/
def State.ageCluster (s : State) (r : AgeReading) : State :=
  if 32 ≤ r.cluster then s
  else if !r.inRange then s.emitAll Cause.monitorFail .management r.cluster []
  else if r.canHold < 8 then s.retireCluster r.cluster
  else (s.tuneCluster r.cluster fun c => { c with ageStep := 14 - r.canHold }).emitAll Cause.ageingMargin .management r.cluster []

/-- MGMT_AGEING_MEASURE (R376, R379). -/
def execMgmtAgeingMeasure (r : AgeReading) (s : State) : Outcome := .next ((s.ageCluster r).managed 0)

/-- 1,000 hours in ns (R379). -/
def ageingPeriod : Nat := 3600000000000000

/-- AGEING_PERIODIC_READ (R379): after 1,000 hours of powered time. -/
def execAgeingPeriodicRead (rs : List AgeReading) (s : State) : Outcome :=
  if s.ns < s.agedAt + ageingPeriod then .next s
  else .next (rs.foldl State.ageCluster { s with agedAt := s.ns })

/-- The class in which a cluster's step is raised (R378): unowned and best effort first, then from the lowest rank. -/
def State.capClass (s : State) (cl : Nat) : Nat :=
  match s.partitions.find? fun e => e.2.cbase ≤ cl && cl ≤ e.2.clim with
  | none => 0
  | some e => if e.2.bef then 0 else 32 - e.2.rank

/-- POWER_CAP_ADJUST (R378): a step is raised only when every cluster of an earlier class stands at step 6. -/
def execPowerCapAdjust (cluster step : Nat) (s : State) : Outcome :=
  let old := (s.clusters.getD cluster {}).step
  let first := (List.range 32).all fun c =>
    s.capClass cluster ≤ s.capClass c || s.retiredClusters.getLsbD c || (s.clusters.getD c {}).step = 6
  if 32 ≤ cluster || 6 < step || step = old || (old < step && !first) then .next s
  else
    let s := s.tuneCluster cluster fun c => { c with step := step }
    .next (s.emitAll (if old < step then Cause.powerCap else Cause.powerRelease) .management cluster [])

/-! ## Bring-up (R377) and the fabric (R364, R367) -/

/-- POWER_ON (R377): bring-up begins with the checks of the signatures. -/
def execPowerOn (s : State) : Outcome :=
  if s.service != .off then .next s
  else
    let s := { s with service := .powerOn }
    let s := if Config.firmwareSigOk then s else s.emitAll Cause.firmwareSig .management 0 []
    .next (if Config.configSigOk then s else s.emitAll Cause.configSig .management 0 [])

/-- Set the clock of every cluster. -/
def State.setRates (s : State) (rate : Cluster → Nat) : State :=
  { s with clusters := (List.range 32).map fun n =>
      let c := s.clusters.getD n {}
      (n, c.setRate s.ns (rate c)) }

/-- ENTER_REDUCED_SERVICE (R377): the signatures check and a port of die 0 is trained; 875 MHz. -/
def execEnterReducedService (s : State) : Outcome :=
  if s.service == .powerOn && Config.firmwareSigOk && Config.configSigOk && s.ports.extractLsb' 0 5 != 0 then
    .next ((({ s with service := .reduced }.setRates fun _ => 7)).emitAll Cause.serviceReduced .management 0 [])
  else .next s

/-- ENTER_FULL_SERVICE (R377): every die-to-die link and stack is trained; 1.75 GHz but for caps and ageing. -/
def execEnterFullService (s : State) : Outcome :=
  if s.service == .reduced && s.dieLinks == BitVec.allOnes 4 && s.hbmStacks == BitVec.allOnes 12 then
    let s := { s with service := .full }.setRates Cluster.fullRate
    .next ((s.emitAll Cause.clockChange .management 0 []).emitAll Cause.serviceFull .management 0 [])
  else .next s

/-- PORT_TRAIN (R364, R377). -/
def execPortTrain (u : TrainUnit) (n : Nat) (ok : Bool) (s : State) : Outcome :=
  if !ok then .next (s.emitAll Cause.linkTrainFail .management n [])
  else match u with
    | .port => .next (if n < 18 then { s with ports := s.ports ||| (1#18 <<< n) } else s)
    | .dieLink => .next (if n < 4 then { s with dieLinks := s.dieLinks ||| (1#4 <<< n) } else s)
    | .stack => .next (if n < 12 then { s with hbmStacks := s.hbmStacks ||| (1#12 <<< n) } else s)

/-- PORT_DOWN (R364): the other ports carry its traffic. -/
def execPortDown (n : Nat) (s : State) : Outcome :=
  if 18 ≤ n || !s.ports.getLsbD n then .next s
  else .next ({ s with ports := s.ports &&& ~~~(1#18 <<< n) }.emitAll Cause.portDown .management n [])

/-- PORT_UP (R364). -/
def execPortUp (n : Nat) (s : State) : Outcome :=
  if 18 ≤ n || s.ports.getLsbD n then .next s
  else .next ({ s with ports := s.ports ||| (1#18 <<< n) }.emitAll Cause.portUp .management n [])

/-- FLIT_CRC_REPLAY (R364): the link sends the flit again; packets keep their order, and nothing of the state changes. -/
def execFlitCrcReplay (_port : Nat) (s : State) : Outcome := .next s

/-- ETH_LINK (R367). -/
def execEthLink (port : Nat) (up : Bool) (s : State) : Outcome :=
  if 16 ≤ port || s.ethLinks.getLsbD port == up then .next s
  else
    let b : BitVec 16 := 1#16 <<< port
    let s := { s with ethLinks := if up then s.ethLinks ||| b else s.ethLinks &&& ~~~b }
    .next (s.emitAll Cause.ethLink .management port [BitVec.ofNat 8 port, if up then 1 else 0])

/-- WEFT_RETRANSMIT (R367): the frame is sent again, and the accesses of the window keep their order. -/
def execWeftRetransmit (_port : Nat) (s : State) : Outcome := .next s

/-- WEFT_ACCESS_TIMEOUT (R215, R367): an access that is not acknowledged within its window's timeout fails with HOSTWIN_ERROR, without effect, and so does
one to host memory whose failure the fabric or the host reports. The accesses of engines, samplers, services and commits fail while their window is
silent (log 18). -/
def execWeftAccessTimeout (n : Nat) (s : State) : Outcome :=
  match s.accs.get? n with
  | none => .next s
  | some a =>
    let late := match s.remoteOf a with | some x => x.2 ≤ s.ns | none => true
    if a.space == .device && (s.placeOf a).any (fun x => x.1 != .device) && late && s.mayPerform n a then
      .next ((s.dropAcc n).asyncFault a.strand (a.faultOf Cause.hostwinError))
    else .next s

/-- DEVICE_FATAL (R355): every partition is stopped as by R341. -/
def execDeviceFatal (s : State) : Outcome :=
  let s := { s with fatal := true }.emitAll Cause.deviceFatal .management 0 []
  .next ((s.fes.filter fun e => e.2.en).foldl (fun s e =>
    if (s.fe e.1).stopping.isSome then s.settleStop e.1
    else (s.beginStop e.1 ⟨none, Cause.deviceFatal, none, false⟩).settleStop e.1) s)

/-! ## Samples (R381) -/

/-- The code of a stall reason (R381). -/
def Stall.code : Stall → Nat
  | .issued => 0 | .stallCount => 1 | .memory => 2 | .other => 3 | .laneBusy => 4 | .barrier => 5 | .handle => 6 | .queueEmpty => 7
  | .queueFull => 8 | .asleep => 9 | .reconverge => 10 | .fetch => 11 | .arrayBusy => 12 | .pair => 13 | .parked => 14 | .yielded => 15

/-- The stall reason that a strand shows (R381): without a current group it waits to reconverge. -/
def Strand.whyAt (k : Strand) : Nat :=
  if k.mask = 0 then Stall.reconverge.code
  else k.why.code

/-- PC_SAMPLE (R381): sample j of a core looks at lane j mod 16 and slot (j div 16) mod 3. -/
def execPcSample (core : Nat) (s : State) : Outcome :=
  match s.ownerOf core with
  | none => .next s
  | some fe =>
    let k := (s.fe fe).sampleK
    let c := s.core core
    let now := s.clock core
    if k = 0 || now / 2 ^ k ≤ c.sampleAt / 2 ^ k then .next s
    else
      let j := c.samples
      let s := s.setCore core { c with samples := j + 1, sampleAt := now }
      let hit := s.strands.find? fun e => e.2.lane == j % 16 && e.2.slot == j / 16 % 3 && !e.2.ended
        && (s.block? e.1.blk).any fun b => b.core == core && b.life != .saved
      match hit with
      | none => .next s
      | some (r, x) =>
        let slot := ((s.block? r.blk).map Block.slot).getD 0
        let w := s.ns % 2 ^ 32 + fe * 2 ^ 32 + x.whyAt * 2 ^ 37 + x.lane * 2 ^ 41 + slot * 2 ^ 45 + r.sid * 2 ^ 49 + core * 2 ^ 54
        .next (s.append fe (s.fe fe).sampleBase (bytesOf 8 w ++ bytesOf 8 x.pc.toNat))

/-! ## The host's own accesses (R250, R373) -/

/-- Every byte of a run lies in channels of a partition. -/
def FrontEnd.ownsAll (f : FrontEnd) (pa len : Nat) : Bool := f.en && (List.range len).all fun i => f.owns (pa + i) 1

/-- HOST_MEMORY_WRITE (R250, R328, R373): a write of virtual function `fe` into its partition's device memory, each byte for itself (log 9), behind its
earlier ones. -/
def execHostMemoryWrite (fe pa : Nat) (bytes : List Byte) (s : State) : Outcome :=
  let f := s.fe fe
  if !f.ownsAll pa bytes.length then .next s
  else
    let s := s.write .device pa bytes { grain := 1, before := f.hostView }
    .next (s.modFe fe fun f => { f with hostView := f.hostView.wrote s })

/-- HOST_MEMORY_READ (R250, R328): what the host obtains stands in `hostRead`; it obtains the newest bytes (log 9). -/
def execHostMemoryRead (fe pa len : Nat) (s : State) : Outcome :=
  .next (if (s.fe fe).ownsAll pa len then { s with hostRead := s.mem.bytes pa len } else s)

end Sys2Proof.Machine
end

