-- ==== Sys2Proof/Machine/Ecc.lean ====
section
/-!
DEFINITION. Errors of the hardware (R17, R32, R170, R208, R354, R355), as they come about: what an uncorrectable error leaves for the access that
meets it, and what a corrected one reports; windows that fall silent (R215, R367); and the inputs of the outside world that have no row of the opcode table
(R367, R382). What consumes an error stands with the access.
-/
namespace Sys2Proof.Machine

/-- Mark an address in a list, once. -/
def markBad {α : Type} [DecidableEq α] (x : α) (l : List α) : List α := if l.contains x then l else x :: l

/-- A register word loses its value (log 21): a free value stands there, and its reader meets the error. -/
def State.upsetReg (s : State) (r : StrandRef) (l : Loc) (t : Nat) : State :=
  match l with
  | .v i => s.modStrand r fun k => if i < 128 && t < 32 then { k.setV i t (Config.upsetWord s.fresh) with bad := markBad (l, t) k.bad } else k
  | .s i => s.modStrand r fun k => if i < 64 then { k.setS i (Config.upsetWord s.fresh) with bad := markBad (l, 0) k.bad } else k
  | _ => s

/-- A bit of a mask turns over (R32): its stored parity no longer agrees. -/
def State.upsetMask (s : State) (r : StrandRef) (m t : Nat) : State :=
  s.modStrand r fun k =>
    if m = 0 then { k with m0bad := true } else if m < 8 then { k with m := k.m.set m (k.m.get m ^^^ bit (t % 32)) } else k

/-- A cell of a macro: below 131,072 the live bank's, from there the shadow bank's (R165). -/
def MatrixArray.upsetCell (a : MatrixArray) (cell : Nat) : MatrixArray :=
  if cell < 131072 then { a with live := { a.live with bad := markBad cell a.live.bad } }
  else { a with shadow := { a.shadow with bad := markBad (cell % 131072) a.shadow.bad } }

/-- The partition that owns a core is told of an event there. -/
def State.tellCore (s : State) (core : Nat) (c : Cause) : State :=
  match s.ownerOf core with
  | some fe => s.emit fe 0 c .core core []
  | none => s

/-- A corrected error (R355 CORRECTED): it has no effect but its record. HBM's is told to the partitions that own the channel. -/
def State.corrected (s : State) (kind unit : Nat) : State :=
  let c : Cause := BitVec.ofNat 8 (0x88 + kind % 8)
  if kind % 8 = 5 then
    (s.fes.filter fun e => e.2.en && e.2.chan.getLsbD unit).foldl (fun s e => s.emit e.1 0 c .baseDie (unit / 32) []) s
  else s.tellCore unit c

/-- One bit of a port's setting. -/
def setBit16 (x : BitVec 16) (i : Nat) (on : Bool) : BitVec 16 := if on then x ||| 1#16 <<< i else x &&& ~~~(1#16 <<< i)

/-- A virtual function reads a counter (R382): one access of 8 bytes, which stands in `hostRead`; indices 16 to 63 read 0. -/
def State.readCounter (s : State) (fe i : Nat) : State :=
  let s := s.credit
  if 64 ≤ i then s else { s with hostRead := bytesOf 8 ((s.fe fe).counters.get i).toNat }

/-- What comes about without a row of the opcode table. -/
def State.upset (s : State) : Upset → State
  | .line pa => if paOk pa then { s with poison := markBad (pa / 64 * 64) s.poison } else s
  | .pad pl a => { s with padBad := markBad (pl, a / 4 * 4) s.padBad }
  | .reg r l t => s.upsetReg r l t
  | .mask r m t => s.upsetMask r m t
  | .macro_ core cell => s.modArray core fun a => a.upsetCell (cell % 262144)
  | .ax core slot => s.modArray core fun a => { a with bad := markBad slot a.bad }
  | .storeLine blk line => s.modBlock blk fun b =>
      if (linesOf b.pendingStores).contains (line / 64) then { b with bufBad := markBad (line / 64 * 64) b.bufBad } else b
  | .icache core fe line =>
      if ((s.core core).icache.get? (fe, lineOf line)).isSome then
        (s.setCore core { s.core core with icache := (s.core core).icache.drop (fe, lineOf line) }).emit fe 0 Cause.icacheRefetch .core core []
      else s
  | .xlate core => s.tellCore core Cause.xlateRewalk
  | .context blk => s.modBlock blk fun b => if b.life == .saved then { b with ctxBad := true } else b
  | .corrected kind unit => s.corrected kind unit
  | .window fe win silent => s.modFe fe fun f =>
      { f with silent := if silent then markBad win f.silent else f.silent.filter (· != win) }
  | .udpPort n => { s with udpPort := BitVec.ofNat 16 n }
  | .etherPort port fc ecn =>
    if 16 ≤ port then s else { s with flowControl := setBit16 s.flowControl port fc, ecnMarking := setBit16 s.ecnMarking port ecn }
  | .counterRead fe i => s.readCounter fe i

end Sys2Proof.Machine
end

