-- ==== Sys2Proof/Machine/Float.lean ====
section
/-!
DEFINITION. Floating-point arithmetic (R133 to R137), jets (R138 to R140) and conversions (R141 to R144).
-/
namespace Sys2Proof.Machine
open Sys2Proof.Fp

/-- A floating-point word of one, two or three modified sources: `srcs` are the register fields it reads. -/
def fpWord (i : Instr) (x : F) (srcs : List (BitVec 7)) (lat : Option Nat) (slots : Nat → Nat) (f : Ctx → Nat → JOut)
    (s : State) : Outcome :=
  alu i s x.h (fun c => shapeOf x.d srcs lat (slots c.d)) fun c t => .jet x.d (f c t)

/-- FADD (R133). -/
def execFadd (x : F) (s : State) : Outcome :=
  fpWord (.fadd x) x (x.a :: x.srcB) (some 6) (1 + ·) (fun c t => jAdd c.d (c.isJet x) x.rm (c.fpA x t) (c.fpB x t)) s

/-- FMUL (R133). -/
def execFmul (x : F) (s : State) : Outcome :=
  fpWord (.fmul x) x (x.a :: x.srcB) (some 6) (1 + 2 * ·) (fun c t => jMul c.d (c.isJet x) x.rm (c.fpA x t) (c.fpB x t)) s

/-- FFMA (R133). -/
def execFfma (x : F) (s : State) : Outcome :=
  fpWord (.ffma x) x (x.a :: x.c :: x.srcB) (some 6) (1 + 2 * ·)
    (fun c t => jFma c.d (c.isJet x) x.rm (c.fpA x t) (c.fpB x t) (c.fpC x t)) s

/-- An immediate floating-point word (R133): RN, no modifiers. -/
def fpImm (i : Instr) (x : I) (slots : Nat → Nat) (f : Nat → Bool → Rm → Jet → Jet → JOut) (s : State) : Outcome :=
  alu i s x.h (fun c => shapeOf x.d [x.a] (some 6) (slots c.d)) fun c t =>
    .jet x.d (f c.d (!x.h.u && x.d.toNat < c.la.jregs && c.d != 0) .rn (c.jet x.h.u x.a t) (.flat x.imm))

/-- FADDI (R133). -/
def execFaddi (x : I) (s : State) : Outcome := fpImm (.faddi x) x (1 + ·) jAdd s
/-- FMULI (R133). -/
def execFmuli (x : I) (s : State) : Outcome := fpImm (.fmuli x) x (1 + 2 * ·) jMul s

/-- FSCALE's integer scale after NB and AB as integer operations (R133). DESIGN CHOICE (log 4): they are exact, so the magnitude
and the negation of −2^31 are +2^31. -/
def scaleOf (x : F) (b : Word) : Int :=
  let n := if x.bi then (b.toNat : Int) else b.toInt
  let n := if x.ab then (n.natAbs : Int) else n
  if x.nb then -n else n

/-- FSCALE (R133). -/
def execFscale (x : F) (s : State) : Outcome :=
  fpWord (.fscale x) x (x.a :: x.srcB) (some 6) (1 + ·)
    (fun c t => jScale c.d (c.isJet x) x.rm (c.fpA x t) (scaleOf x (c.opB x t))) s

/-- FMINMAX (R134): erratum B-07 is kept in revision 1. -/
def execFminmax (fn : Fin 4) (x : F) (s : State) : Outcome :=
  fpWord (.fminmax fn x) x (x.a :: x.srcB) (some 6) (1 + ·)
    (fun c t => jMinMax c.d (c.isJet x) (c.la.mmr == 1) fn.val (c.fpA x t) (c.fpB x t)) s

/-- FRND (R134). -/
def execFrnd (x : F) (s : State) : Outcome :=
  fpWord (.frnd x) x [x.a] (some 6) (1 + ·) (fun c t => jRnd c.d (c.isJet x) x.rm (c.fpA x t)) s

/-- FDIV (R135): interlocked. -/
def execFdiv (x : F) (s : State) : Outcome :=
  fpWord (.fdiv x) x (x.a :: x.srcB) none (4 + 2 * ·) (fun c t => jDiv c.d (c.isJet x) x.rm (c.fpA x t) (c.fpB x t)) s

/-- FSQRT (R135). -/
def execFsqrt (x : F) (s : State) : Outcome :=
  fpWord (.fsqrt x) x [x.a] none (4 + ·) (fun c t => jSqrt c.d (c.isJet x) x.rm (c.fpA x t)) s

/-- FRCP (R135). -/
def execFrcp (x : F) (s : State) : Outcome :=
  fpWord (.frcp x) x [x.a] none (2 + ·) (fun c t => jRcp c.d (c.isJet x) x.rm (c.fpA x t)) s

/-- FRSQ (R135): faithfully rounded. -/
def execFrsq (x : F) (s : State) : Outcome :=
  fpWord (.frsq x) x [x.a] none (2 + ·) (fun c t => jRsq c.d (c.isJet x) (c.fpA x t)) s

/-- FTR (R135): faithfully rounded. -/
def execFtr (fn : Fin 5) (x : F) (s : State) : Outcome :=
  fpWord (.ftr fn x) x [x.a] none (4 + ·) (fun c t => jFtr c.d (c.isJet x) fn.val (c.fpA x t)) s

/-- TWOSUM and TWOPROD (R136): the rounded result with its derivative, and the error with +0 components (R105). DEDUCED (log 4): the
error's components are +0 even where the error is NaN; R104's NaN step is read of the result. -/
def twoWord (i : Instr) (x : F) (prod : Bool) (s : State) : Outcome :=
  alu i s x.h
    (fun c => { shapeOf x.d (x.a :: x.srcB) (some 8) (if prod then 1 + 2 * c.d else 1 + c.d) with
      regs := { vec := x.d :: x.a :: x.srcB, span := [x.d.toNat + 1] }, dst := [x.d.toNat, x.d.toNat + 1] })
    fun c t =>
      let (j, e) := jTwo c.d (c.isJet x) prod (c.fpA x t) (c.fpB x t)
      { regs := [(x.d.toNat, ⟨j.v, j.k⟩), (x.d.toNat + 1, .flat e)], fl := j.fl }

/-- TWOSUM (R136). -/
def execTwosum (x : F) (s : State) : Outcome := twoWord (.twosum x) x false s
/-- TWOPROD (R136). -/
def execTwoprod (x : F) (s : State) : Outcome := twoWord (.twoprod x) x true s

/-- Half `h` of a packed word (R137). -/
def halfOf (w : Word) (h : Nat) : Nat := w.toNat / 2 ^ (16 * h) % 65536

/-- A packed operand's half after its modifiers, as a value (R137). -/
def pkHalf (f : Format) (abs neg : Bool) (w : Word) (h : Nat) : Fv :=
  let n := halfOf w h
  let n := if abs then n % 32768 else n
  Fp.decode f (if neg then (n + 32768) % 65536 else n)

/-- Combine the two halves' results; flags are ORed (R137). -/
def pkJoin (r : Nat → Res) : Res := ⟨(r 0).code + (r 1).code * 65536, (r 0).fl ||| (r 1).fl⟩

/-- The PK format (R137). -/
def pkFormat (bf : Bool) : Format := if bf then bf16 else fp16

/-- A BI immediate in both halves (R137). -/
def pkImm (f : Format) (b : BitVec 7) : Word :=
  let n := (round f .rn (.ofInt b.toNat)).code
  BitVec.ofNat 32 (n + n * 65536)

/-- The packed second operand. -/
def Ctx.pkB (c : Ctx) (f : Format) (x : F) (t : Nat) : Word := if x.bi then pkImm f x.b else c.val x.h.u x.b t

/-- PKADD (R137). -/
def execPkadd (bf : Bool) (x : F) (s : State) : Outcome :=
  alu (.pkadd bf x) s x.h (fun _ => shapeOf x.d (x.a :: x.srcB) (some 6) 1) fun c t =>
    let f := pkFormat bf
    .res x.d (pkJoin fun h => addF f x.rm (pkHalf f x.aa x.na (c.val x.h.u x.a t) h) (pkHalf f x.ab x.nb (c.pkB f x t) h))

/-- PKMUL (R137). -/
def execPkmul (bf : Bool) (x : F) (s : State) : Outcome :=
  alu (.pkmul bf x) s x.h (fun _ => shapeOf x.d (x.a :: x.srcB) (some 6) 1) fun c t =>
    let f := pkFormat bf
    .res x.d (pkJoin fun h => mulF f x.rm (pkHalf f x.aa x.na (c.val x.h.u x.a t) h) (pkHalf f x.ab x.nb (c.pkB f x t) h))

/-- PKFMA (R137). -/
def execPkfma (bf : Bool) (x : F) (s : State) : Outcome :=
  alu (.pkfma bf x) s x.h (fun _ => shapeOf x.d (x.a :: x.c :: x.srcB) (some 6) 1) fun c t =>
    let f := pkFormat bf
    .res x.d (pkJoin fun h => fmaF f x.rm (pkHalf f x.aa x.na (c.val x.h.u x.a t) h)
      (pkHalf f x.ab x.nb (c.pkB f x t) h) (pkHalf f x.ac x.nc (c.val x.h.u x.c t) h))

/-! ## Jets -/

/-- JSEED (R138): the value from S[a], component k +1, the others +0. -/
def execJseed (x : F) (s : State) : Outcome :=
  alu (.jseed x) s x.h
    (fun c => { regs := { vec := [x.d], sreg := [x.a], jets := [x.d], noComp := c.d ≤ x.modN 2 0, noU := true }
                dst := [x.d.toNat], reads := [.s x.a.toNat], lat := some 6, slots := 1 + c.d })
    fun c t => { regs := [(x.d.toNat, ⟨(c.forThread t).sGet x.a.toNat,
      (List.range c.d).map fun i => if i = x.modN 2 0 then 0x3F800000 else 0⟩)] }

/-- TGET (R138): one component into the value of d. -/
def execTget (x : F) (s : State) : Outcome :=
  alu (.tget x) s x.h
    (fun c => { shapeOf x.d [x.a] (some 6) (1 + c.d) with
      regs := { vec := [x.d, x.a], jets := [x.a], noComp := c.d ≤ x.modN 2 0, noU := true } })
    fun c t => .word x.d (c.rd.compGet x.a.toNat t (x.modN 2 0))

/-- TSET (R138): one component of d; the value and the others are kept. -/
def execTset (x : F) (s : State) : Outcome :=
  alu (.tset x) s x.h
    (fun c => { shapeOf x.d [x.a] (some 6) (1 + c.d) with
      regs := { vec := [x.d, x.a], jets := [x.d], noComp := c.d ≤ x.modN 2 0, noU := true }, reads := [.v x.d.toNat] })
    fun c t => { regs := [(x.d.toNat, ⟨c.rd.vGet x.d.toNat t,
      (List.range c.d).map fun i => if i = x.modN 2 0 then c.rd.vGet x.a.toNat t else c.rd.compGet x.d.toNat t i⟩)] }

/-- JZERO (R138): every component +0, the value kept. -/
def execJzero (x : F) (s : State) : Outcome :=
  alu (.jzero x) s x.h
    (fun c => { regs := { vec := [x.d], jets := [x.d], noU := true }, dst := [x.d.toNat], reads := [.v x.d.toNat]
                lat := some 6, slots := 1 + c.d })
    fun c t => .word x.d (c.rd.vGet x.d.toNat t)

/-- JEVAL (R139, R118): the offsets stand in S[b] to S[b + D − 1]. -/
def execJeval (x : F) (s : State) : Outcome :=
  alu (.jeval x) s x.h
    (fun c => { shapeOf x.d [x.a] (some 8) (1 + c.d) with
      regs := { vec := [x.d, x.a], sreg := [x.b], jets := [x.a], range := c.d != 0 && 64 < x.b.toNat + c.d, noU := true }
      reads := (List.range c.d).map fun i => .s (x.b.toNat + i) })
    fun c t => .jet x.d (jEval c.d (c.isJet x) (c.jet false x.a t) ((List.range c.d).map fun i => (c.forThread t).sGet (x.b.toNat + i)))

/-- The component of the tangent with a code, +0 where it is not declared (R116). -/
def Ctx.tangent (c : Ctx) (r : BitVec 7) (t code : Nat) : Word :=
  ((c.la.tangents.zipIdx).foldl (fun w e => if e.1 == code then c.rd.compGet r.toNat t e.2 else w) 0)

/-- FPRINT (R140, R116): the two axes and the LOD; no flag. -/
def execFprint (x : F) (s : State) : Outcome :=
  alu (.fprint x) s x.h
    (fun _ => { regs := { vec := [x.d, x.a, x.b], span := [x.d.toNat + 1, x.d.toNat + 2], jets := [x.a, x.b], noU := true }
                src := [x.a, x.b], dst := [x.d.toNat, x.d.toNat + 1, x.d.toNat + 2], lat := some 8, slots := 4 })
    fun c t =>
      let (mj, mn, lod) := fprintF (c.tangent x.a t 0) (c.tangent x.a t 1) (c.tangent x.b t 0) (c.tangent x.b t 1)
      { regs := [(x.d.toNat, .flat mj), (x.d.toNat + 1, .flat mn), (x.d.toNat + 2, .flat lod)] }

/-! ## Conversions -/

/-- CVT (R142): AX occupies an even pair (R141). -/
def execCvt (dst : BitVec 4) (x : F) (s : State) : Outcome :=
  let src := x.modN 3 0
  let dw := dst == 0xE
  let sw := src == 0xE
  alu (.cvt dst x) s x.h
    (fun _ => { regs := { vec := [x.d, x.a]
                          span := (if dw then [x.d.toNat + 1] else []) ++ (if sw then [x.a.toNat + 1] else [])
                          even := (if dw then [x.d] else []) ++ (if sw then [x.a] else []) }
                src := [x.a], reads := if sw then [locOf x.h.u (x.a.toNat + 1)] else []
                dst := if dw then [x.d.toNat, x.d.toNat + 1] else [x.d.toNat], lat := some 8
                own := [(dst == 8 || src == 8, Cause.formatPair)] })
    fun c t =>
      let n := if sw then (c.pair x.h.u x.a.toNat t).toNat else (c.val x.h.u x.a t).toNat
      let r := cvtF dst.toNat src x.rmHi n
      if dw then { Out.pair x.d (BitVec.ofNat 64 r.code) with fl := r.fl } else .res x.d r

/-- QNT (R143): `z` gives +0 components, else they are kept. -/
def qntWord (i : Instr) (x : F) (z : Bool) (s : State) : Outcome :=
  let g := x.modN 3 0
  alu i s x.h
    (fun c => { shapeOf x.d [x.a] (some 8) (1 + c.d) with
      own := [(g == 0 || g == 8 || g == 0xE || g == 0xF, Cause.formatPair)] })
    fun c t => .jet x.d (jQnt c.d (c.isJet x) z g x.rmHi (c.jet x.h.u x.a t))

/-- QNT.st (R143). -/
def execQntSt (x : F) (s : State) : Outcome := qntWord (.qntSt x) x false s
/-- QNT.z (R143). -/
def execQntZ (x : F) (s : State) : Outcome := qntWord (.qntZ x) x true s

/-- The element index of PACK and UNPACK (R144). -/
def Ctx.elemIndex (c : Ctx) (x : F) (t : Nat) : Nat := (c.opB x t).toNat % packCount (x.modN 3 0)

/-- PACK (R144): the other elements of d are kept; a word of FP6 elements has bits 31–30 zero (R141). -/
def execPack (x : F) (s : State) : Outcome :=
  let fmt := x.modN 3 0
  alu (.pack x) s x.h
    (fun _ => { shapeOf x.d (x.a :: x.srcB) (some 8) 1 with
      reads := [locOf x.h.u x.d.toNat], own := [(!packable fmt, Cause.formatPair)] })
    fun c t =>
      let r := packF fmt x.rmHi (c.val x.h.u x.a t)
      let w := setElem (fmtWidth fmt) (c.elemIndex x t) (c.val x.h.u x.d t) r.code
      { Out.word x.d (if fmtWidth fmt = 6 then w &&& 0x3FFFFFFF else w) with fl := r.fl }

/-- UNPACK (R144). -/
def execUnpack (x : F) (s : State) : Outcome :=
  let fmt := x.modN 3 0
  alu (.unpack x) s x.h
    (fun _ => { shapeOf x.d (x.a :: x.srcB) (some 8) 1 with own := [(!packable fmt, Cause.formatPair)] })
    fun c t => .res x.d (unpackF fmt (getElem (fmtWidth fmt) (c.elemIndex x t) (c.val x.h.u x.a t)))

end Sys2Proof.Machine
end

