-- ==== Sys2Proof/Machine/Integer.lean ====
section
/-!
DEFINITION. Integer arithmetic, logic, bit fields and compares (R125 to R128, R130), and MSK (R306).
-/
namespace Sys2Proof.Machine
open Sys2Proof.Fp

/-- Saturate an exact integer to a range, as a word. -/
def satWord (lo hi : Int) (i : Int) : Word := BitVec.ofInt 32 (max lo (min hi i))

/-- IADD and ISUB by function (R125): wrapped, signed saturation, unsigned saturation. -/
def addSub (fn : Nat) (sub : Bool) (a b : Word) : Word :=
  match fn with
  | 0 => if sub then a - b else a + b
  | 1 => satWord (-2147483648) 2147483647 (if sub then a.toInt - b.toInt else a.toInt + b.toInt)
  | _ => satWord 0 4294967295 (if sub then (a.toNat : Int) - b.toNat else a.toNat + b.toNat)

/-- A two-source integer word. -/
def int2 (i : Instr) (x : F) (lat : Nat) (f : Word → Word → Word) (s : State) : Outcome :=
  alu i s x.h (fun _ => shapeOf x.d (x.a :: x.srcB) (some lat) 1) fun c t =>
    .word x.d (f (c.val x.h.u x.a t) (c.opB x t))

/-- A one-source integer word. -/
def int1 (i : Instr) (x : F) (f : Word → Word) (s : State) : Outcome :=
  alu i s x.h (fun _ => shapeOf x.d [x.a] (some 4) 1) fun c t => .word x.d (f (c.val x.h.u x.a t))

/-- IADD (R125). -/
def execIadd (fn : Fin 3) (x : F) (s : State) : Outcome := int2 (.iadd fn x) x 4 (addSub fn.val false) s
/-- ISUB (R125). -/
def execIsub (fn : Fin 3) (x : F) (s : State) : Outcome := int2 (.isub fn x) x 4 (addSub fn.val true) s

/-- IMUL by function (R125): low word, high word signed, high word unsigned. -/
def mulWord (fn : Nat) (a b : Word) : Word :=
  match fn with
  | 0 => a * b
  | 1 => BitVec.ofInt 32 (a.toInt * b.toInt / 2 ^ 32)
  | _ => BitVec.ofNat 32 (a.toNat * b.toNat / 2 ^ 32)

/-- IMUL (R125). -/
def execImul (fn : Fin 3) (x : F) (s : State) : Outcome := int2 (.imul fn x) x 6 (mulWord fn.val) s

/-- IMAD (R125). -/
def execImad (x : F) (s : State) : Outcome :=
  alu (.imad x) s x.h (fun _ => shapeOf x.d (x.a :: x.c :: x.srcB) (some 6) 1) fun c t =>
    .word x.d (c.val x.h.u x.a t * c.opB x t + c.val x.h.u x.c t)

/-- IMINMAX by function (R125). -/
def minMax (fn : Nat) (a b : Word) : Word :=
  match fn with
  | 0 => if a.toInt ≤ b.toInt then a else b
  | 1 => if a.toInt ≥ b.toInt then a else b
  | 2 => if a.toNat ≤ b.toNat then a else b
  | _ => if a.toNat ≥ b.toNat then a else b

/-- IMINMAX (R125). -/
def execIminmax (fn : Fin 4) (x : F) (s : State) : Outcome := int2 (.iminmax fn x) x 4 (minMax fn.val) s

/-- IABS (R125). -/
def execIabs (x : F) (s : State) : Outcome := int1 (.iabs x) x (fun a => if a.msb then 0 - a else a) s

/-- IADDW (R125): 64-bit addition of pairs. -/
def execIaddw (x : F) (s : State) : Outcome :=
  alu (.iaddw x) s x.h
    (fun _ =>
      let rs := x.a :: x.srcB
      { regs := { vec := x.d :: rs, span := (x.d :: rs).map (fun r => r.toNat + 1), even := x.d :: rs }
        dst := [x.d.toNat, x.d.toNat + 1]
        reads := rs.flatMap fun r => [locOf x.h.u r.toNat, locOf x.h.u (r.toNat + 1)] })
    fun c t => .pair x.d (c.pair x.h.u x.a.toNat t + if x.bi then x.b.setWidth 64 else c.pair x.h.u x.b.toNat t)

/-- LEA (R125): a + (b << s). -/
def execLea (x : F) (s : State) : Outcome := int2 (.lea x) x 4 (fun a b => a + (b <<< x.modN 4 0)) s

/-- TWILL's bitwise function of three words (R126). -/
def twillWord (f : Nat) (a b c : Word) : Word :=
  maskOf fun i => f.testBit ((a.getLsbD i).toNat + 2 * (b.getLsbD i).toNat + 4 * (c.getLsbD i).toNat)

/-- TWILL (R126). -/
def execTwill (x : F) (s : State) : Outcome :=
  alu (.twill x) s x.h (fun _ => shapeOf x.d (x.a :: x.c :: x.srcB) (some 4) 1) fun c t =>
    .word x.d (twillWord (x.modN 7 0) (c.val x.h.u x.a t) (c.opB x t) (c.val x.h.u x.c t))

/-- SHF by function (R127). -/
def shiftWord (fn : Nat) (a b : Word) : Word :=
  match fn with
  | 0 => if b.toNat ≥ 32 then 0 else a <<< b.toNat
  | 1 => if b.toNat ≥ 32 then 0 else a >>> b.toNat
  | 2 => a.sshiftRight (min b.toNat 32)
  | 3 => a.rotateLeft (b.toNat % 32)
  | _ => a.rotateRight (b.toNat % 32)

/-- SHF (R127). -/
def execShf (fn : Fin 5) (x : F) (s : State) : Outcome := int2 (.shf fn x) x 4 (shiftWord fn.val) s

/-- BFX's field (R128): position p, length l, sign-extended under SX. -/
def extractField (p l : Nat) (sx : Bool) (a : Word) : Word :=
  let f := bitsN a.toNat (p + l - 1) p
  if sx then BitVec.ofInt 32 (sext l f) else BitVec.ofNat 32 f

/-- BFI's word (R128). -/
def insertField (p l : Nat) (a b : Word) : Word :=
  maskOf fun i => if p ≤ i && i < p + l then a.getLsbD (i - p) else b.getLsbD i

/-- BFX (R128). -/
def execBfx (x : F) (s : State) : Outcome :=
  int1 (.bfx x) x (extractField (x.modN 9 5) (x.modN 4 0 + 1) (x.mod.getLsbD 10)) s

/-- BFI (R128). -/
def execBfi (x : F) (s : State) : Outcome :=
  alu (.bfi x) s x.h (fun _ => shapeOf x.d [x.a, x.b] (some 4) 1) fun c t =>
    .word x.d (insertField (x.modN 9 5) (x.modN 4 0 + 1) (c.val x.h.u x.a t) (c.val x.h.u x.b t))

/-- POPC (R128). -/
def execPopc (x : F) (s : State) : Outcome := int1 (.popc x) x (fun a => BitVec.ofNat 32 (countOf a)) s
/-- CLZ (R128). -/
def execClz (x : F) (s : State) : Outcome :=
  int1 (.clz x) x (fun a => BitVec.ofNat 32 (if a = 0 then 32 else 31 - a.toNat.log2)) s
/-- BREV (R128). -/
def execBrev (x : F) (s : State) : Outcome := int1 (.brev x) x (fun a => maskOf fun i => a.getLsbD (31 - i)) s

/-- ICMP's conditions (R77, R130). -/
def icmpHolds (fn : Nat) (a b : Word) : Bool :=
  match fn with
  | 0 => a == b | 1 => a != b
  | 2 => a.toInt < b.toInt | 3 => a.toInt ≤ b.toInt | 4 => a.toInt > b.toInt | 5 => a.toInt ≥ b.toInt
  | 6 => a.toNat < b.toNat | 7 => a.toNat ≤ b.toNat | 8 => a.toNat > b.toNat | _ => a.toNat ≥ b.toNat

/-- The shape of a compare into a mask (R61, R130). -/
def cmpShape (x : F) (src : List (BitVec 7)) (lat : Nat) : Shape :=
  { regs := { vec := src, m0 := x.d == 0 }, src := src, writes := [.m x.d.toNat], lat := some lat }

/-- ICMP (R130). -/
def execIcmp (fn : Fin 10) (x : F) (s : State) : Outcome :=
  alu (.icmp fn x) s x.h (fun _ => cmpShape x (x.a :: x.srcB) 4) fun c t =>
    { bit := some (x.d.toNat, icmpHolds fn.val (c.val x.h.u x.a t) (c.opB x t)) }

/-- FCMP (R130). -/
def execFcmp (fn : Fin 8) (x : F) (s : State) : Outcome :=
  alu (.fcmp fn x) s x.h (fun _ => cmpShape x (x.a :: x.srcB) 6) fun c t =>
    let r := cmpF fn.val (c.fpA x t).val (c.fpB x t).val
    { bit := some (x.d.toNat, r.1), fl := r.2 }

/-- FCLASS (R130): no flag. -/
def execFclass (x : F) (s : State) : Outcome :=
  alu (.fclass x) s x.h (fun _ => cmpShape x [x.a] 6) fun c t =>
    { bit := some (x.d.toNat, x.mod.getLsbD (classBit (c.val x.h.u x.a t))) }

/-- MSK's result word (R306). -/
def mskWord (fn : Nat) (a b : Word) : Word :=
  match fn with
  | 0 => a &&& b | 1 => a ||| b | 2 => a ^^^ b | 3 => ~~~a | 4 => a &&& ~~~b
  | 5 => BitVec.ofNat 32 (2 ^ countOf a - 1)
  | 6 => a &&& (0 - a)
  | _ => a

/-- The MSK forms of two sources (R306). -/
def mskTwo (fn : Nat) : Bool := fn < 3 || fn == 4

/-- MSK (R306): the bits of active threads, or all 32 under U = 1. -/
def execMsk (fn : Fin 8) (x : F) (s : State) : Outcome :=
  word (.msk fn x) s
    (fun c =>
      let sp := ({ regs := { m0 := x.d == 0 }, reads := .m x.a.toNat :: if mskTwo fn.val then [.m x.b.toNat] else []
                   writes := [.m x.d.toNat] } : Shape).spec x.h c
      -- under U = 1 all 32 bits are written
      if x.h.u then { sp with lat := none, lates := [⟨.m x.d.toNat, if c.k.activeFor none x.h.g x.h.gn = 0 then 0 else 0xFFFFFFFF, 4⟩] } else sp)
    fun c =>
      let of := fun (k : Strand) => mskWord fn.val (k.mGet x.a.toNat) (k.mGet x.b.toNat)
      let r := if x.h.u then of c.rd else c.maskBy of
      let sel : Word := if x.h.u then (if c.act = 0 then 0 else 0xFFFFFFFF) else c.act
      .done (c.s.setStrand c.r (c.k.setM x.d.toNat (mergeMask (c.k.mGet x.d.toNat) r sel)))

end Sys2Proof.Machine
end

