-- ==== Sys2Proof/Machine/Moves.lean ====
section
/-!
DEFINITION. MOV between V, S and M registers (R123), immediates (R124), SEL (R129), READ (R35, R36, R131) and PEEK (R132). The queue
and handle forms of MOV stand with the queues and handles.
-/
namespace Sys2Proof.Machine
open Sys2Proof.Fp

/-- MOV V←V (R123): the value and every component, bit for bit. DEDUCED (log 4): of a NaN value too, R105 and R123 going before the NaN
step of R104; so also SEL and the MOV half. -/
def execMovVV (x : F) (s : State) : Outcome :=
  alu (.movVV x) s x.h (fun c => shapeOf x.d [x.a] (some 4) (1 + c.d)) fun c t =>
    { regs := [(x.d.toNat, c.jet x.h.u x.a t)] }

/-- MOV V←S (R123): S[a] into every active thread. -/
def execMovVS (x : F) (s : State) : Outcome :=
  alu (.movVS x) s x.h
    (fun _ => { regs := { vec := [x.d], sreg := [x.a] }, dst := [x.d.toNat], reads := [.s x.a.toNat] })
    fun c t => .word x.d ((c.forThread t).sGet x.a.toNat)

/-- MOV S←V (R123): the register of thread L, active or not. -/
def execMovSV (x : F) (s : State) : Outcome :=
  perStrand (.movSV x) s x.h
    (fun _ => { regs := { vec := [x.a], sreg := [x.d], noU := true }, src := [x.a], writes := [.s x.d.toNat] })
    fun c k => k.setS x.d.toNat (c.rd.vGet x.a.toNat (x.modN 4 0))

/-- MOV S←S (R123), per strand with either U. -/
def execMovSS (x : F) (s : State) : Outcome :=
  perStrand (.movSS x) s x.h
    (fun _ => { regs := { sreg := [x.d, x.a] }, reads := [.s x.a.toNat], writes := [.s x.d.toNat] })
    fun c k => k.setS x.d.toNat (c.rd.sGet x.a.toNat)

/-- MOV V←M (R123): the mask's word in every active thread. -/
def execMovVM (x : F) (s : State) : Outcome :=
  alu (.movVM x) s x.h (fun _ => { regs := { vec := [x.d] }, dst := [x.d.toNat], reads := [.m x.a.toNat] })
    fun c t => .word x.d ((c.forThread t).mGet x.a.toNat)

/-- MOV M←V (R123): bit 0 of each active thread. -/
def execMovMV (x : F) (s : State) : Outcome :=
  alu (.movMV x) s x.h
    (fun _ => { regs := { vec := [x.a], noU := true, m0 := x.d == 0 }, src := [x.a], writes := [.m x.d.toNat] })
    fun c t => { bit := some (x.d.toNat, (c.val false x.a t).getLsbD 0) }

/-- An immediate form (R124): `f` of the source and the immediate. -/
def immWord (i : Instr) (x : I) (src : List (BitVec 7)) (f : Word → Word → Word) (s : State) : Outcome :=
  alu i s x.h (fun _ => shapeOf x.d src (some 4) 1) fun c t => .word x.d (f (c.val x.h.u x.a t) x.imm)

/-- MOVI (R124). -/
def execMovi (x : I) (s : State) : Outcome := immWord (.movi x) x [] (fun _ i => i) s
/-- IADDI (R124). -/
def execIaddi (x : I) (s : State) : Outcome := immWord (.iaddi x) x [x.a] (· + ·) s
/-- ANDI (R124). -/
def execAndi (x : I) (s : State) : Outcome := immWord (.andi x) x [x.a] (· &&& ·) s
/-- ORI (R124). -/
def execOri (x : I) (s : State) : Outcome := immWord (.ori x) x [x.a] (· ||| ·) s
/-- XORI (R124). -/
def execXori (x : I) (s : State) : Outcome := immWord (.xori x) x [x.a] (· ^^^ ·) s

/-- SEL (R129): components bit for bit, a NaN's too (log 4). -/
def execSel (x : F) (s : State) : Outcome :=
  alu (.sel x) s x.h
    (fun c => { shapeOf x.d (x.a :: x.srcB) (some 4) (1 + c.d) with
      regs := { vec := x.d :: x.a :: x.srcB, noU := true }, reads := [.m (x.modN 2 0)] })
    fun c t =>
      let m := ((c.forThread t).mGet (x.modN 2 0)).getLsbD t
      { regs := [(x.d.toNat, if m != x.mod.getLsbD 3 then c.jet false x.a t
          else if x.bi then .flat (x.b.setWidth 32) else c.jet false x.b t)] }

/-- The selectors that READ takes per thread (R35). -/
def readPerThread (fn : Nat) : Bool := fn == 0x00 || fn == 0x01 || fn == 0x03 || fn == 0x0E || fn == 0x0F

/-- A tangent's code if a selector seeds one (R36, R374): sx 0, sy 1, t 2. -/
def seedCode (fn : Nat) : Option Nat := match fn with | 0x0E => some 0 | 0x0F => some 1 | 0x10 => some 2 | _ => none

/-- Thread `t`'s index in the pool (R21). -/
def Ctx.tid (c : Ctx) (t : Nat) : Nat := c.b.index * c.la.bdim + c.r.sid * 32 + t

/-- The 64-bit value of a READ selector in thread `t` (R35, R36). -/
def Ctx.special (c : Ctx) (fn t : Nat) : Nat :=
  match fn with
  | 0x00 => c.tid t
  | 0x01 => c.r.sid * 32 + t
  | 0x02 => c.r.sid
  | 0x03 => t
  | 0x04 => c.b.index
  | 0x05 => c.la.n
  | 0x06 => ceilDiv c.la.n c.la.bdim
  | 0x07 => c.la.bdim
  | 0x08 => c.b.core
  | 0x09 => clusterOf c.b.core
  | 0x0A => dieOf c.b.core
  | 0x0B => c.la.fe
  | 0x0C => c.start
  | 0x0D => max c.s.ns ((c.s.cluster c.b.core).nsAt c.start)
  | 0x0E => if c.la.raster = 0 then 0 else (rne32 (.ofInt (c.tid t % c.la.raster))).code
  | 0x0F => if c.la.raster = 0 then 0 else (rne32 (.ofInt (c.tid t / c.la.raster))).code
  | _ => c.la.time.toNat

/-- The components that READ seeds: +1 for the selector's own tangent where it is declared (R36). -/
def Ctx.seed (c : Ctx) (fn : Nat) : List Word :=
  c.la.tangents.map fun code => if seedCode fn == some code then 0x3F800000 else 0

/-- READ (R131). -/
def execRead (fn : Fin 17) (x : F) (s : State) : Outcome :=
  let wide := fn.val == 0x0C || fn.val == 0x0D
  alu (.read fn x) s x.h
    (fun _ => { regs := { vec := [x.d], span := if wide then [x.d.toNat + 1] else [], even := if wide then [x.d] else [],
                          noU := readPerThread fn.val }
                dst := if wide then [x.d.toNat, x.d.toNat + 1] else [x.d.toNat] })
    fun c t =>
      let v := c.special fn.val t
      if wide then .pair x.d (BitVec.ofNat 64 v) else { regs := [(x.d.toNat, ⟨BitVec.ofNat 32 v, c.seed fn.val⟩)] }

/-- The thread that PEEK reads for thread `t`, in segments of `g` threads (R132); none where it falls outside. -/
def peekSource (fn g t : Nat) (b : Word) : Option Nat :=
  let base := t - t % g
  let r := t % g
  match fn with
  | 0 => some (base + b.toNat % g)
  | 1 => some (base + ((r + b.toInt) % g).toNat)
  | 2 =>
    let j := (t : Int) + b.toInt
    if (base : Int) ≤ j && j < base + g then some j.toNat else none
  | _ => some (base + (r ^^^ b.toNat % g))

/-- PEEK (R132). -/
def execPeek (fn : Fin 4) (x : F) (s : State) : Outcome :=
  alu (.peek fn x) s x.h
    (fun _ => { shapeOf x.d (x.a :: x.srcB) (some 8) 1 with regs := { vec := x.d :: x.a :: x.srcB, noU := true } })
    fun c t =>
      let b := c.opB x t
      let b := if x.mod.getLsbD 3 then 0 - b else b
      let from_ := match peekSource fn.val (32 / 2 ^ x.modN 2 0) t b with
        | some j => if c.act.getLsbD j then j else t
        | none => t
      .word x.d ((c.at t).val false x.a from_)

end Sys2Proof.Machine
end

