-- ==== Sys2Proof/Machine/Pairs.lean ====
section
/-!
DEFINITION. P words (R68 to R72): the pairing rules, what a half reads and writes, and the two halves carried out as one word.
-/
namespace Sys2Proof

/-- A half that computes with floating-point numbers, and one that accesses a pad (R71). -/
def Hop.floating : Hop → Bool
  | .fadd | .fmul | .fmin | .fmax | .fneg | .fabs | .pkadd | .pkmul => true
  | _ => false
def Hop.pad : Hop → Bool
  | .ldp | .stp => true
  | _ => false
/-- A half over mask registers. -/
def Hop.mask : Hop → Bool
  | .mand | .mor => true
  | _ => false

/-- The half reads its B register (R70). -/
def Hop.readsB : Hop → Bool
  | .hnop | .shl | .shr | .sar | .iaddi6 | .movi6 => false
  | _ => true

/-- The half reads its D register (R71). -/
def Hop.readsD : Hop → Bool
  | .hnop | .mov | .movi6 | .fneg | .fabs | .ldp => false
  | _ => true

/-- Slots per thread under `d` tangents (R69). -/
def Hop.slots (d : Nat) : Hop → Nat
  | .hnop => 0
  | .mov | .fadd | .fmin | .fmax | .fneg | .fabs => 1 + d
  | .fmul => 1 + 2 * d
  | _ => 1

/-- The word of an immediate, sign-extended (R69). -/
def PHalf.imm (p : PHalf) : Word := p.h6.signExtend 32

end Sys2Proof

namespace Sys2Proof.Machine
open Sys2Proof.Fp

/-- The register that a field of a half names (R60, R70). -/
def PHalf.loc (p : PHalf) (r : BitVec 7) : Loc := if p.hop.mask then .m r.toNat else locOf p.u r.toNat

/-- Registers that a half reads and writes. -/
def PHalf.reads (p : PHalf) : List Loc :=
  (if p.hop.readsB then [PHalf.loc p p.b] else []) ++ if p.hop.readsD then [PHalf.loc p p.d] else []
def PHalf.writes (p : PHalf) : List Loc := if p.hop == .hnop || p.hop == .stp then [] else [PHalf.loc p p.d]

/-- The vector register fields of a half. -/
def PHalf.vec (p : PHalf) : List (BitVec 7) :=
  if p.hop == .hnop || p.hop.mask then [] else p.d :: if p.hop.readsB then [p.b] else []

/-- The pairing rules of R71. -/
def PWord.paired (x : PWord) : Bool :=
  let h := x.h0
  let l := x.h1
  let one := h.hop == .hnop || l.hop == .hnop
  let banks := fun (p : PHalf) => if p.u then [] else (PHalf.vec p).map fun r => r.toNat % 4
  (one || (h.d != l.d && !(PHalf.writes h).any (PHalf.reads l).contains && !(banks h).any (banks l).contains))
    && h.u == l.u && !(h.hop.floating && l.hop.floating) && !(h.hop.pad && l.hop.pad)

/-- The Spec of a P word. -/
def pSpec (x : PWord) (c : Ctx) : Spec :=
  let hs := [x.h0, x.h1]
  let g : Regs := { vec := hs.flatMap PHalf.vec, m0 := hs.any fun p => p.hop.mask && p.d == 0 }
  { stall := x.stall.toNat, u := x.h0.u, halves := some (x.h0.g, x.h1.g)
    checks := (!(PWord.paired x), Cause.pairRule) :: g.checks c x.h0.u
    reads := hs.flatMap PHalf.reads, writes := hs.flatMap PHalf.writes
    slots := some (x.h0.hop.slots c.d + x.h1.hop.slots c.d)
    lates := hs.flatMap fun p =>
      (PHalf.writes p).map fun l =>
        ⟨l, if p.u && p.hop.mask then c.k.mask else c.k.active p.g false, if p.hop.pad then 0 else if p.hop.floating then 6 else 4⟩ }

/-- What a half delivers in a thread (R69). -/
def PHalf.out (p : PHalf) (c : Ctx) (t : Nat) : Out :=
  let a := c.val p.u p.d t
  let b := c.val p.u p.b t
  let ja := c.jet p.u p.d t
  let jb := c.jet p.u p.b t
  let jet := !p.u && p.d.toNat < c.la.jregs && c.d != 0
  let w := Out.word p.d
  let n := p.h6.toNat
  match p.hop with
  | .hnop | .ldp | .stp => {}
  | .mov => { regs := [(p.d.toNat, jb)] }
  | .iadd => w (a + b)
  | .isub => w (a - b)
  | .and => w (a &&& b)
  | .or => w (a ||| b)
  | .xor => w (a ^^^ b)
  | .shl => w (a <<< n)
  | .shr => w (a >>> n)
  | .sar => w (a.sshiftRight n)
  | .imin => w (minMax 0 a b)
  | .imax => w (minMax 1 a b)
  | .iaddi6 => w (a + p.imm)
  | .movi6 => w p.imm
  | .fadd => .jet p.d (jAdd c.d jet .rn ja jb)
  | .fmul => .jet p.d (jMul c.d jet .rn ja jb)
  | .fmin => .jet p.d (jMinMax c.d jet (c.la.mmr == 1) 0 ja jb)
  | .fmax => .jet p.d (jMinMax c.d jet (c.la.mmr == 1) 1 ja jb)
  | .fneg => .jet p.d (deliver c.d jet [jb] ⟨jb.negate.v.toNat, 0⟩ fun i => rne32 (jb.tan i).neg)
  | .fabs => .jet p.d (deliver c.d jet [jb] ⟨jb.abs.v.toNat, 0⟩ fun i => rne32 (jb.abs.tan i))
  | .mand => { bit := some (p.d.toNat, ((c.forThread t).mGet p.d.toNat).getLsbD t && ((c.forThread t).mGet p.b.toNat).getLsbD t) }
  | .mor => { bit := some (p.d.toNat, ((c.forThread t).mGet p.d.toNat).getLsbD t || ((c.forThread t).mGet p.b.toNat).getLsbD t) }
  | .pkadd => .res p.d (pkJoin fun h => addF fp16 .rn (pkHalf fp16 false false a h) (pkHalf fp16 false false b h))
  | .pkmul => .res p.d (pkJoin fun h => mulF fp16 .rn (pkHalf fp16 false false a h) (pkHalf fp16 false false b h))

/-- The situation of one half: its own active threads (R72). -/
def PHalf.ctx (p : PHalf) (c : Ctx) : Ctx := { c with act := c.maskBy fun k => k.active p.g false }

/-- What the computing threads of a half deliver. A mask half acts thread by thread (R69). -/
def PHalf.outs (p : PHalf) (c : Ctx) : List (Nat × Out) :=
  Ctx.outs (PHalf.ctx p c) (p.u && !p.hop.mask) (PHalf.out p c)

/-- LDP.w and STP.w as LD.w and ST.w on the core pad, relaxed, at strand scope (R69). -/
def PHalf.mWord (p : PHalf) : M := ⟨⟨0, p.u, 0, false⟩, p.d, 0, 0, false, 2, 0, 0, 1, false, 0⟩

/-- A half's address in a thread (R69). -/
def PHalf.addr (p : PHalf) (c : Ctx) (t : Nat) : Int := ((c.val p.u p.b t).toNat : Int) + 4 * p.h6.toNat

/-- The storage accesses of a pad half, issued (R69, R255). -/
def PHalf.access (p : PHalf) (c : Ctx) : Verdict :=
  let c := PHalf.ctx p c
  let m := mStorage c (PHalf.mWord p) (p.hop == .stp)
  if !p.hop.pad then .done c.s
  else c.storage m (PHalf.addr p c) fun ts =>
    if p.hop == .stp then
      let stores := ts.map fun e => (e.2, bytesOf 4 (c.val p.u p.d e.1).toNat)
      c.store m 2 stores (ts.map fun e => ⟨e.1, e.2, 4, .store (bytesOf 4 (c.val p.u p.d e.1).toNat), none⟩)
    else .done (c.issue m (ts.map fun e => ⟨e.1, e.2, 4, .load false, some ⟨p.u, p.d.toNat, e.1, none⟩⟩) c.s)

/-- A half without its effect: the trap that it raises, or the reason for which it waits (R56, R87, R219). -/
def PHalf.verdict (p : PHalf) (c : Ctx) : Verdict :=
  let iv := ivMask p.u (PHalf.ctx p c).act (PHalf.outs p c)
  if c.k.ivt && iv != 0 then .trap Cause.fpInvalid iv 0 0 else PHalf.access p c

/-- The registers that a half writes (R72 step 1: its sources are those of the word's start). -/
def Strand.deliverHalf (k : Strand) (p : PHalf) (c : Ctx) : Strand :=
  (PHalf.outs p c).foldl (fun k e => k.deliver c.la (p.u && !p.hop.mask) c.k.mask e) k

/-- A P word (R72): a trap or a wait of either half comes before any effect. -/
def execPWord (x : PWord) (s : State) : Outcome :=
  word (.pWord x) s (pSpec x) fun c =>
    match PHalf.verdict x.h0 c, PHalf.verdict x.h1 c with
    | .trap cause m va n, _ => .trap cause m va n
    | _, .trap cause m va n => .trap cause m va n
    | .wait why s, _ => .wait why s
    | _, .wait why s => .wait why s
    | _, _ =>
      let s := c.s.setStrand c.r ((c.k.deliverHalf x.h0 c).deliverHalf x.h1 c)
      match PHalf.access x.h0 { c with s := s } with
      | .done s => PHalf.access x.h1 { c with s := s }
      | v => v

end Sys2Proof.Machine
end

