-- ==== Sys2Proof/Machine/Sampler.lean ====
section
/-!
DEFINITION. The sampler (R145 to R163): texture records, the sampling computation in exact arithmetic, latent textures, and the words SAMPLE
and TEXB with the events that finish them.
-/
namespace Sys2Proof.Machine
open Sys2Proof.Fp

/-! ## Texture records -/

/-- A texture record (R145). -/
structure Texture where
  base  : Nat
  wtab  : Nat
  w0    : Nat
  h0    : Nat
  levels : Nat
  kind  : Nat
  amu   : Nat
  amv   : Nat
  mip   : Nat
  aniso : Nat
  dqs   : Nat
  deriving DecidableEq, Repr

def textureOf (r : BitVec 512) : Texture :=
  let f := fun hi lo => bitsN r.toNat hi lo
  { base := f 63 0, wtab := f 127 64, w0 := f 143 128 + 1, h0 := f 159 144 + 1, levels := f 164 160, kind := f 169 168
    amu := f 171 170, amv := f 173 172, mip := f 175 174, aniso := f 180 176, dqs := f 207 192 }

/-- A valid record (R146). -/
def Texture.valid (x : Texture) : Bool :=
  x.kind != 3 && x.mip != 3 && x.aniso ≤ 4 && x.levels != 0 && x.levels ≤ 1 + (max x.w0 x.h0).log2
    && x.base < 2 ^ 52 && x.wtab < 2 ^ 52 && x.base % 256 == 0 && x.wtab % 64 == 0 && ((x.kind == 2) == (x.wtab != 0))

/-- The extents of level `l` (R147). -/
def Texture.wl (x : Texture) (l : Nat) : Nat := max 1 (x.w0 / 2 ^ l)
def Texture.hl (x : Texture) (l : Nat) : Nat := max 1 (x.h0 / 2 ^ l)

/-- Bytes of level `l`, and the address at which it starts (R147). -/
def Texture.levelBytes (x : Texture) (l : Nat) : Nat :=
  if x.kind = 2 then 8 * (ceilDiv (x.wl l) 4 * ceilDiv (x.hl l) 4) else 8 * (x.wl l * x.hl l)
def Texture.levelAt (x : Texture) (l : Nat) : Nat :=
  (List.range l).foldl (fun a i => roundUp (a + x.levelBytes i) 256) x.base

/-- An index through an address mode (R148); none: the border. -/
def address (mode ext : Nat) (i : Int) : Option Nat :=
  match mode with
  | 0 => some (min (max i 0) (ext - 1)).toNat
  | 1 => some (i % ext).toNat
  | 2 => let m := (i % (2 * ext)).toNat; some (if m < ext then m else 2 * ext - 1 - m)
  | _ => if 0 ≤ i && i < ext then some i.toNat else none

/-- The texel that a sample reads at (i, j) of level `l`; none: four channels of +0. -/
def Texture.texel (x : Texture) (l : Nat) (i j : Int) : Option (Nat × Nat) :=
  match address x.amu (x.wl l) i, address x.amv (x.hl l) j with
  | some a, some b => some (a, b)
  | _, _ => none

/-- The VA of the 8 bytes that hold a texel: the texel, or its latent block. -/
def Texture.texelVa (x : Texture) (l : Nat) (p : Nat × Nat) : Nat :=
  x.levelAt l + 8 * (if x.kind = 2 then p.2 / 4 * ceilDiv (x.wl l) 4 + p.1 / 4 else p.2 * x.wl l + p.1)

/-! ## The footprint -/

/-- The levels and probes of a sample (R149): `phi` over 2^b is the blend of level l1; `eu` and `ev` are the axis in units of the
texture, of which probe i takes (2i + 1 − P) ÷ 2P. -/
structure Footprint where
  l0  : Nat
  l1  : Nat
  phi : Nat
  b   : Nat
  p   : Nat
  eu  : Fv
  ev  : Fv
  deriving DecidableEq, Repr

/-- The ceiling of a ratio of two positive finite values. -/
def ceilRatio : Fv → Fv → Nat
  | .fin _ m e, .fin _ n g => ceilDiv (shiftBy m (e - g)) (shiftBy n (g - e))
  | _, _ => 1

/-- λ and P of R149. DESIGN CHOICE (log 25): where every component of g is finite and the major axis rounds to +inf, so that R149's quotient is inf over inf,
P is 1 and λ is the last level. -/
def lodOf (x : Texture) (o : SampleOp) (g : List Fv) : Fv × Nat :=
  let a := 2 ^ x.aniso
  match o.lod with
  | some w => (if (v32 w).isNan then .zero else v32 w, 1)
  | none =>
    if g.any fun v => v.isNan || v.isInf then (.ofInt (x.levels - 1), 1)
    else
      let ax := axesFv (g.getD 0 .zero) (g.getD 1 .zero) (g.getD 2 .zero) (g.getD 3 .zero)
      let r32 := fun (v : Fv) => Fp.decode fp32 (rne32 v).code
      let major := r32 ax.major
      let minor := r32 ax.minor
      if major.isZero then (.zero, 1)
      else
        let q := r32 (major.scale (-(x.aniso : Int)))
        let m := if minor.lt q then q else minor
        match m with
        | .fin _ k e => if k = 0 then (.inf true, 1) else (r32 (log2Fv k e), min a (max 1 (ceilRatio major m)))
        | _ => (.ofInt (x.levels - 1), 1)

/-- A level number from a value, clamped to the levels: the floor and the fraction over 2^b. -/
def levelOf (x : Texture) (v : Fv) : Nat × Nat × Nat :=
  let top := x.levels - 1
  match v with
  | .fin false m e =>
    if m != 0 && (m.log2 : Int) + e ≥ 6 then (top, 0, 0)
    else
      let b := (-e).toNat
      let n := shiftBy m e
      if top * 2 ^ b ≤ n then (top, 0, 0) else (n / 2 ^ b, n % 2 ^ b, b)
  | .inf false => (top, 0, 0)
  | _ => (0, 0, 0)

/-- The footprint of a sample (R149). -/
def footprint (x : Texture) (o : SampleOp) : Footprint :=
  let w := Fv.ofInt x.w0
  let h := Fv.ofInt x.h0
  let ux := v32 o.uScreen.1
  let uy := v32 o.uScreen.2
  let vx := v32 o.vScreen.1
  let vy := v32 o.vScreen.2
  let g := [w.mul ux, w.mul uy, h.mul vx, h.mul vy]
  let (lam, p) := lodOf x o g
  let sq := fun (a b : Fv) => (a.mul a).add .rn (b.mul b)
  let xAxis := !(sq (g.getD 0 .zero) (g.getD 2 .zero)).lt (sq (g.getD 1 .zero) (g.getD 3 .zero))
  let (eu, ev) := if p = 1 then (Fv.zero, Fv.zero) else if xAxis then (ux, vx) else (uy, vy)
  match x.mip with
  | 0 =>
    let (l, f, b) := levelOf x lam
    ⟨l, min (l + 1) (x.levels - 1), f, b, p, eu, ev⟩
  | 1 =>
    let l := (levelOf x (lam.add .rn (.fin false 1 (-1)))).1
    ⟨l, l, 0, 0, p, eu, ev⟩
  | _ => ⟨0, 0, 0, 0, p, eu, ev⟩

/-- The coordinate of a probe along one axis, as a numerator over `2 × P × 2^s` (R149): the value and its axis as integers over
2^−s. -/
structure Line where
  v : Int
  e : Int
  s : Nat
  deriving DecidableEq, Repr

def lineOf2 (v e : Fv) : Line :=
  let ex := fun (x : Fv) => match x with | .fin _ m k => if m = 0 then (0 : Int) else k | _ => 0
  let lo := min 0 (min (ex v) (ex e))
  let int := fun (x : Fv) => match x with | .fin n m k => if m = 0 then (0 : Int) else sInt n (shiftBy m (k - lo)) | _ => 0
  ⟨int v, int e, (-lo).toNat⟩

/-- The denominator of a fraction along one axis: 4 × P × 2^s. -/
def Line.den (z : Line) (p : Nat) : Nat := 4 * p * 2 ^ z.s

/-- Texel index and fraction over `den` of probe `i` in a level of extent `ext` (R150). -/
def Line.cell (z : Line) (p i ext : Nat) : Int × Nat :=
  let num : Int := 2 * (2 * p * z.v + (2 * (i : Int) + 1 - p) * z.e) * ext - 2 * p * 2 ^ z.s
  (num / z.den p, (num % z.den p).toNat)

/-- One bilinear lookup of a sample: the weight of its level over P × 2^b, the level, the texel and the fractions. -/
structure Lookup where
  w  : Nat
  l  : Nat
  i  : Int
  j  : Int
  fx : Nat
  fy : Nat
  deriving DecidableEq, Repr

/-- The lookups of a sample, with the denominators of fx and fy. -/
def lookups (x : Texture) (f : Footprint) (u v : Fv) : List Lookup × Nat × Nat :=
  let zu := lineOf2 u f.eu
  let zv := lineOf2 v f.ev
  let at_ := fun (i l w : Nat) =>
    let (a, fx) := zu.cell f.p i (x.wl l)
    let (b, fy) := zv.cell f.p i (x.hl l)
    (⟨w, l, a, b, fx, fy⟩ : Lookup)
  ((List.range f.p).flatMap (fun i => [at_ i f.l0 (2 ^ f.b - f.phi), at_ i f.l1 f.phi]), zu.den f.p, zv.den f.p)

/-- The four texels of a lookup with their bilinear weights over dx × dy (R150). -/
def Lookup.corners (z : Lookup) (dx dy : Nat) : List (Nat × Int × Int) :=
  [((dx - z.fx) * (dy - z.fy), z.i, z.j), (z.fx * (dy - z.fy), z.i + 1, z.j),
   ((dx - z.fx) * z.fy, z.i, z.j + 1), (z.fx * z.fy, z.i + 1, z.j + 1)]

/-! ## Texels -/

/-- A half-precision value of a list of FP16 words. -/
def v16 (n : Nat) : Fv := Fp.decode fp16 (n % 65536)

/-- The latent decoder (R153, R154) for local position (a, b): `wt` is the weight table, `code` the block. -/
def latent (wt : Nat → Nat) (dqs : Nat) (code : Nat) (a b : Nat) : List Fv :=
  let r16 := fun (v : Fv) => Fp.decode fp16 (round fp16 .rn v).code
  let r32 := fun (v : Fv) => Fp.decode fp32 (rne32 v).code
  let pos := fun (k : Nat) => Fv.fin false (1 + 2 * k) (-3)
  let inv := fun (k : Nat) => Fv.fin false (7 - 2 * k) (-3)
  let xs := (List.range 8).map (fun n => r16 ((Fv.ofInt (sext 8 (code / 256 ^ n))).mul (v16 dqs))) ++ [pos a, pos b, inv a, inv b]
  let dot := fun (b0 : Fv) (ws : Nat → Fv) (ys : List Fv) =>
    (ys.zipIdx).foldl (fun acc e => r32 (acc.add .rn ((ws e.2).mul e.1))) b0
  let hs := (List.range 16).map fun m =>
    let y := r16 (dot (v16 (wt (192 + m))) (fun n => v16 (wt (12 * m + n))) xs)
    match y with
    | .nan _ => .nan false
    | y => if Fv.zero.lt y then y else .zero
  (List.range 4).map fun c => r16 (dot (v16 (wt (272 + c))) (fun m => v16 (wt (208 + 16 * c + m))) hs)

/-- The four channels of a texel from the fetched lines (R147, R154). -/
def Texture.channels (x : Texture) (r : Lines) (l : Nat) (i j : Int) : List Fv :=
  match x.texel l i j with
  | none => List.replicate 4 .zero
  | some p =>
    let va := x.texelVa l p
    let n := numOf ((List.range 8).map fun k => r.byte (va + k))
    if x.kind = 2 then
      latent (fun e => (r.byte (x.wtab + 2 * e)).toNat + 256 * (r.byte (x.wtab + 2 * e + 1)).toNat) x.dqs n (p.1 % 4) (p.2 % 4)
    else (List.range 4).map fun c => Fp.decode (if x.kind = 0 then fp16 else bf16) (n / 2 ^ (16 * c) % 65536)

/-- Every byte that a sample reads: the texels that count, and the weight table. -/
def sampleVas (x : Texture) (zs : List Lookup) (dx dy : Nat) (jets : Bool) : List Nat :=
  let texels := (zs.filter fun z => z.w != 0).flatMap fun z => (z.corners dx dy).filterMap fun e =>
    if e.1 = 0 && !jets then none else (x.texel z.l e.2.1 e.2.2).map fun p => x.texelVa z.l p
  texels ++ if x.kind = 2 && !texels.isEmpty then (List.range 9).map fun k => x.wtab + 64 * k else []

/-! ## Results -/

/-- A weighted term: a zero weight annihilates (R150). -/
def weigh (w : Nat) (t : Fv) : Fv := if w = 0 then .zero else (Fv.ofInt w).mul t

/-- An exact value over a denominator, rounded RNE to FP32. -/
def overRne (v : Fv) (den : Nat) : Word :=
  match v with
  | .nan _ => qnan32
  | .fin n m e => if m = 0 then toWord (rne32 v) else toWord (roundMag fp32 .rn n m den e)
  | v => toWord (rne32 v)

/-- One channel with its `d` components (R150 to R152): `tx` gives the channel's texels. -/
def sampleChannel (f : Footprint) (x : Texture) (zs : List Lookup) (dx dy : Nat) (tx : Nat → Int → Int → Fv) (us vs : List Word)
    (d : Nat) : Jet :=
  let den := f.p * 2 ^ f.b * dx * dy
  let val := sumTerms (zs.flatMap fun z =>
    if z.w = 0 then [.zero] else (z.corners dx dy).map fun e => weigh (z.w * e.1) (tx z.l e.2.1 e.2.2))
  let w := overRne val den
  let diff := fun (z : Lookup) (a b : Int × Int) => (tx z.l a.1 a.2).add .rn (tx z.l b.1 b.2).neg
  let du := sumTerms (zs.flatMap fun z => if z.w = 0 then [.zero] else
    [weigh (z.w * x.wl z.l * (dy - z.fy) * dx) (diff z (z.i + 1, z.j) (z.i, z.j)),
     weigh (z.w * x.wl z.l * z.fy * dx) (diff z (z.i + 1, z.j + 1) (z.i, z.j + 1))])
  let dv := sumTerms (zs.flatMap fun z => if z.w = 0 then [.zero] else
    [weigh (z.w * x.hl z.l * (dx - z.fx) * dy) (diff z (z.i, z.j + 1) (z.i, z.j)),
     weigh (z.w * x.hl z.l * z.fx * dy) (diff z (z.i + 1, z.j + 1) (z.i + 1, z.j))])
  let comp := fun (k : Nat) => overRne ((annih du (v32 (us.getD k 0))).add .rn (annih dv (v32 (vs.getD k 0)))) den
  ⟨w, (List.range d).map fun k => if val.isNan then qnan32 else comp k⟩

/-- The four channels of a sample (R149 to R152) from the lines that each of its texels uses. -/
def sampleJets (x : Texture) (o : SampleOp) (f : Footprint) (r : Nat → Int → Int → Lines) (d : Nat) : List Jet :=
  let u := v32 o.u
  let v := v32 o.v
  if u.isNan || u.isInf || v.isNan || v.isInf then List.replicate 4 ⟨qnan32, List.replicate d qnan32⟩
  else
    let (zs, dx, dy) := lookups x f u v
    (List.range 4).map fun c => sampleChannel f x zs dx dy (fun l i j => (x.channels (r l i j) l i j).getD c .zero) o.us o.vs d

/-! ## SAMPLE -/

def State.dropSample (s : State) (n : Nat) : State := { s with samples := s.samples.drop n }

/-- An asynchronous fault of a sample (R158), which is an engine operation (R159, R353). -/
def State.sampleFault (s : State) (o : SampleOp) (c : Cause) (va : Nat) : State :=
  s.asyncFault o.strand ⟨c, bit o.t, BitVec.ofNat 64 va, o.pc, o.region, true, 0⟩

/-- The causes that a sample meets, each once (R158), while its block is there. -/
def State.sampleFaults (s : State) (o : SampleOp) (bad : List (Cause × Nat)) : State :=
  bad.foldl (fun s e => if (s.block? o.strand.blk).isSome then s.sampleFault o e.1 e.2 else s) s

/-- What one decode, that of the texel (l, i, j), uses of a run of a latent texture (R157): one of the contents that it has had since its bind point
was bound, with the block's own buffered stores (R159). -/
def State.texCached (s : State) (o : SampleOp) (l : Nat) (i j : Int) (va len : Nat) : List Byte :=
  match walk (s.tlb o.fe) (s.fe o.fe) va with
  | .page p =>
    let (pl, a) := (s.fe o.fe).place p
    let es := s.past.filter fun e => ((s.fe o.fe).boundAt.get o.point).toNat < e.seq && e.touches pl a len
    let cs := contents a es ((s.memAt pl).bytes a len)
    overlay (s.buffered o.strand.blk) va (cs.getD (Config.cachedTexture s.fresh l i j va % cs.length) [])
  | _ => []

/-- Replace fetched bytes. -/
def Lines.putRun (r : Lines) (va : Nat) (bs : List Byte) : Lines :=
  let a := va / 64 * 64
  let old := (r.lines.get? a).getD []
  { r with lines := r.lines.put a (old.take (va - a) ++ bs ++ old.drop (va - a + bs.length)) }

/-- What a sample uses of what it has fetched for one texel (R157, R159): memory as it was read, or, of a latent texture, what the texel's decode
uses of each code and table line. -/
def State.texelLines (s : State) (o : SampleOp) (x : Texture) (vas : List Nat) (r : Lines) (l : Nat) (i j : Int) : Lines :=
  if x.kind != 2 then r
  else vas.eraseDups.foldl (fun r va => r.putRun va (s.texCached o l i j va (if x.wtab ≤ va && va < x.wtab + 576 then 64 else 8))) r

/-- Every byte that a sample of a texture reads; none where a coordinate is not finite. -/
def SampleOp.vas (o : SampleOp) (x : Texture) (la : Launch) : List Nat :=
  let u := v32 o.u
  let v := v32 o.v
  if u.isNan || u.isInf || v.isNan || v.isInf then []
  else
    let (zs, dx, dy) := lookups x (footprint x o) u v
    sampleVas x zs dx dy (o.d < la.jregs && la.d != 0)

/-- A sample meets a page that is not present (R158, R219, R220). -/
def State.holdSample (s : State) (n : Nat) (o : SampleOp) (va : Nat) : State :=
  let h := if o.heldVa / 65536 = va / 65536 then o.held else .no
  let s := s.refault h o.fe o.launch o.core va 6 o.strand.sid
  { s with samples := s.samples.put n { o with held := .held, heldVa := va } }

/-- A write of the strand before a sample is not yet performed (R159, R245): the sample would miss it. -/
def State.sampleEarly (s : State) (o : SampleOp) : Bool :=
  s.accs.any fun e => e.2.strand == o.strand && e.2.po < o.po && !e.2.kind.isLoad

/-- SAMPLE_RESULT (R158, R159): the result of one thread; a replayed sample uses the binding that is current. -/
def execSampleResult (n : Nat) (s : State) : Outcome :=
  match s.samples.get? n with
  | none => .next s
  | some o =>
    if o.held == .held || !s.live o.strand.blk || s.sampleEarly o then .next s
    else
      let rec? := if o.held == .replay then (s.fe o.fe).binds.get? o.point else some o.record
      match rec?, s.launch? o.launch with
      | some record, some la =>
        let x := textureOf record
        let vas := o.vas x la
        let r := s.engLines o.fe o.strand.blk o.view 4 vas
        match r.absent, r.bad with
        | some va, _ => .next (s.holdSample n o va)
        | none, bad@(_ :: _) => .next ((s.dropSample n).sampleFaults o bad)
        | none, [] =>
          let s := vas.foldl (fun s va => s.countAt o.fe va 8) s
          .next ((s.dropSample n).modStrand o.strand fun k =>
            ((sampleJets x o (footprint x o) (s.texelLines o x vas r) la.d).zipIdx).foldl (fun k e => k.put la false o.t (o.d + e.2, e.1)) (k.sync (bit o.t) r.view))
      | none, some _ => .next ((s.dropSample n).sampleFault o Cause.texUnbound 0)
      | _, none => .next (s.dropSample n)

/-- A sample as a thread issues it: its sources read at issue. -/
def Ctx.sampleOp (c : Ctx) (x : F) (lod : Bool) (record : BitVec 512) (t : Nat) : SampleOp :=
  let comps := fun (r : BitVec 7) => if r.toNat < c.la.jregs then (List.range c.d).map (c.rd.compGet r.toNat t ·) else []
  let screen := fun (r : BitVec 7) => if r.toNat < c.la.jregs then (c.tangent r t 0, c.tangent r t 1) else (0, 0)
  { strand := c.r, fe := c.la.fe, launch := c.b.launch, core := c.b.core, t := t, pc := c.k.pc, region := c.k.region
    d := x.d.toNat, point := x.modN 3 0, record := record, u := c.rd.vGet x.a.toNat t, v := c.rd.vGet x.b.toNat t
    us := comps x.a, vs := comps x.b, uScreen := screen x.a, vScreen := screen x.b
    lod := if lod then some (c.rd.vGet x.c.toNat t) else none, view := c.k.viewOf (bit t), po := c.k.po }

/-- SAMPLE and SAMPLE.lod (R162): one request for each active thread. It waits behind a request of the strand that is held in a 64 KiB range that
it reads (R219). -/
def sampleWord (i : Instr) (x : F) (lod : Bool) (s : State) : Outcome :=
  let point := x.modN 3 0
  word i s (fun c =>
      let srcs := [x.a, x.b] ++ if lod then [x.c] else []
      { ({ regs := { vec := x.d :: srcs, span := [x.d.toNat + 3], noU := true }
           src := srcs, dst := (List.range 4).map (x.d.toNat + ·), lat := none } : Shape).spec x.h c with slots := none }) fun c =>
    if c.act = 0 then .done c.s
    else if c.s.service == .reduced then .wait .other c.s
    else if c.b.committing.isSome then .wait .parked c.s
    else match c.s.acquireWait c.r, (c.s.fe c.la.fe).binds.get? point with
      | some why, _ => .wait why c.s
      | none, none => c.trapAll Cause.texUnbound
      | none, some record =>
        let os := (threadsOf c.act).map (c.sampleOp x lod record)
        if c.s.heldThreads c.r != 0 && os.any fun o => c.s.heldInRange c.r (inRanges (o.vas (textureOf record) c.la) 64) then .wait .parked c.s
        else
          .done ((os.foldl (fun s o =>
            let (n, s) := s.name
            { s with samples := s.samples.put n o }) c.s).nextPo c.r)

def execSample (x : F) (s : State) : Outcome := sampleWord (.sample x) x false s
def execSampleLod (x : F) (s : State) : Outcome := sampleWord (.sampleLod x) x true s

/-! ## Services -/

/-- A word that asks for a service and waits for it with stall reason 3 (R163, R204), behind its strand's earlier accesses (`wait`). `release`: it
first acts as a release at device scope (R160, R205), as a release fence does. -/
def Ctx.serve (c : Ctx) (release : Bool) (what : Request) (wait : Option Stall := c.s.orderWait c.r) : Verdict :=
  match c.k.wait with
  | .started _ => .done c.s
  | .op n => .wait (if ((c.s.services.get? n).map ServiceOp.held) == some .held then .parked else .other) c.s
  | _ =>
    match wait with
    | some why => .wait why c.s
    | none =>
      let go := fun (s : State) =>
        let s := if release then s.modStrand c.r fun k => k.learn c.act fun z => z.fence (.ofStrand c.r c.b.core) false true 4 else s
        let (n, s) := s.name
        let s := { s with services := s.services.put n ⟨c.r, c.la.fe, c.b.launch, c.b.core, c.k.pc, c.act, c.k.region, what, .no, 0⟩ }
        Verdict.wait .other (s.modStrand c.r fun k => { k with wait := .op n })
      if release then c.committed go (wait := wait) else go c.s

def State.dropService (s : State) (n : Nat) : State := { s with services := s.services.drop n }

/-- A service is done: its strand goes on. -/
def State.served (s : State) (n : Nat) (o : ServiceOp) : State :=
  (s.dropService n).modStrand o.strand fun k => if k.wait == .op n then { k with wait := .started n, why := .issued, parked := 0 } else k

/-- A service that traps its word (R163). -/
def State.serviceTrap (s : State) (n : Nat) (o : ServiceOp) (c : Cause) : State := (s.dropService n).trapWaiting o.strand c o.mask

/-- A service meets a page that is not present: it parks the strand (R158, R205). -/
def State.holdService (s : State) (n : Nat) (o : ServiceOp) (va kind : Nat) : State :=
  let h := if o.heldVa / 65536 = va / 65536 then o.held else .no
  let s := s.refault h o.fe o.launch o.core va kind o.strand.sid
  ({ s with services := s.services.put n { o with held := .held, heldVa := va } } : State).modStrand o.strand fun k =>
    { k with why := .parked, parked := o.mask }

/-- What a service has behind it: what its strand has (R160, R205). -/
def State.serviceView (s : State) (o : ServiceOp) : View := ((s.strand? o.strand).getD {}).viewOf 0xFFFFFFFF

/-- A strand has read for a service: relaxed reads, which it has behind it (R205, R242). -/
def State.serviceRan (s : State) (o : ServiceOp) (r : Ran) : State :=
  s.modStrand o.strand fun k => k.learn o.mask fun z =>
    { z with view := z.view.join r.view, heads := r.from_.foldl (fun hs (e : Past) => addHeads hs e.heads) z.heads }

/-- A cause that a service meets ends it with an asynchronous fault (R158, R205). -/
def State.serviceFault (s : State) (n : Nat) (o : ServiceOp) (c : Cause) (va : Nat) : State :=
  (s.asyncFault o.strand ⟨c, o.mask, BitVec.ofNat 64 va, o.pc, o.region, false, 0⟩).served n o

/-- Read the bytes of a service from device memory; `kind` is that of a not-present report (R355). -/
def State.serviceRead (s : State) (n : Nat) (o : ServiceOp) (kind va len : Nat) (go : State → List Byte → State) : State :=
  match s.engRead o.fe o.strand.blk (s.serviceView o) 4 va len with
  | .absent => s.holdService n o va kind
  | .fault c => s.serviceFault n o c va
  | .ok r => go ((s.serviceRan o r).countAt o.fe va len) r.bytes

/-- Samples of a partition at a bind point that are neither parked nor abandoned by a save (R160, R161). -/
def State.samplesAt (s : State) (fe point : Nat) : Bool :=
  s.samples.any fun e => e.2.fe == fe && e.2.point == point && e.2.held != .held && s.live e.2.strand.blk

/-- Change what is bound at a point (R156): the caches forget what they hold of it (R157). -/
def State.bindAt (s : State) (fe point : Nat) (f : Table Nat (BitVec 512) → Table Nat (BitVec 512)) : State :=
  s.modFe fe fun x => { x with binds := f x.binds, boundAt := x.boundAt.set point (BitVec.ofNat 64 s.seq) }

/-- TEXB_COMPLETE (R156, R160, R163). -/
def execTexbComplete (n : Nat) (s : State) : Outcome :=
  match s.services.get? n with
  | none => .next s
  | some o =>
    if o.held == .held || !s.live o.strand.blk then .next s
    else match o.what with
      | .bind point va =>
        if s.samplesAt o.fe point then .next s
        else .next (s.serviceRead n o 6 va 64 fun s bs =>
          let record : BitVec 512 := BitVec.ofNat 512 (numOf bs)
          if !(textureOf record).valid then s.serviceTrap n o Cause.layoutInvalid
          else
            let s := s.bindAt o.fe point fun bs => bs.put point record
            (s.emit o.fe (s.lidOf o.launch) Cause.bindDone .sampler o.core []).served n o)
      | .inval point =>
        if s.samplesAt o.fe point then .next s
        else
          let s := s.bindAt o.fe point fun bs => bs.drop point
          .next ((s.emit o.fe (s.lidOf o.launch) Cause.bindDone .sampler o.core []).served n o)
      | _ => .next s

/-- What TEXB waits for as a release: not for a sample of the strand that is parked (R160). -/
def Ctx.texbWait (c : Ctx) : Option Stall :=
  ({ c.s with samples := c.s.samples.filter fun e => e.2.strand != c.r } : State).orderWait c.r

/-- A TEXB word (R163): `bad` is the address of a record that is not aligned (R349). -/
def texbWord (i : Instr) (x : F) (g : Shape) (bad : Ctx → Option Nat) (what : Ctx → Request) (s : State) : Outcome :=
  word i s (fun c => { g.spec x.h c with slots := none, lat := none, noShadow := true }) fun c =>
    if c.act = 0 then .done c.s
    else match bad c with
      | some va => .trap Cause.misaligned c.act (BitVec.ofNat 64 va) 0
      | none => if c.s.service == .reduced then .wait .other c.s else c.serve true (what c) c.texbWait

/-- TEXB.bind (R163). -/
def execTexbBind (x : F) (s : State) : Outcome :=
  texbWord (.texbBind x) x
    { regs := { sreg := [x.a], even := [x.a] }, reads := [.s x.a.toNat, .s (x.a.toNat + 1)] }
    (fun c => let va := (c.rd.sPair x.a.toNat).toNat; if va % 64 != 0 then some va else none)
    (fun c => .bind (x.modN 3 0) (c.rd.sPair x.a.toNat).toNat) s

/-- TEXB.inval (R163). -/
def execTexbInval (x : F) (s : State) : Outcome :=
  texbWord (.texbInval x) x {} (fun _ => none) (fun _ => .inval (x.modN 3 0)) s

end Sys2Proof.Machine
end

