-- ==== Sys2Proof/Machine/System.lean ====
section
/-!
DEFINITION. The SYS words (R348, R354, R362, R363): traps and returns, control registers, halts, the selectors of XREAD and XWRITE,
RESUME and ICINV.
-/
namespace Sys2Proof.Machine

/-- A SYS word: once for the strand when a thread is active (R362). `user`: a form that the user level may execute (R78). -/
def sysWord (i : Instr) (h : Hdr) (g : Shape) (user : Bool) (tune : Spec → Spec) (eff : Ctx → Verdict) (s : State) : Outcome :=
  word i s (fun c =>
    let sp := g.spec h c
    tune { sp with checks := (!user && !c.k.ph, Cause.privileged) :: sp.checks, slots := none, lat := none }) eff

/-- SYS.TRAP (R362): folded, then the privileged handler with pepc the next word. -/
def execSysTrap (x : F) (s : State) : Outcome :=
  sysWord (.sysTrap x) x.h {} true (fun sp => { sp with drain := true }) (fun c =>
    if c.act = 0 then .done c.s else .doneThen c.s (.trap (Cause.syscall (x.modN 3 0)) c.act)) s

/-- The counts of held groups go on after a stop (R297, R304). -/
def Strand.unfreeze (k : Strand) (now : Nat) : Strand :=
  { k with trapAt := 0, groups := k.groups.map fun g => { g with hold := g.hold.map (· + (now - k.trapAt)) } }

/-- A strand as SYS.TRET leaves the handler, sig apart (R297, R348): S56 to S63 are restored, the counts of held groups go on. -/
def Strand.tret (k : Strand) (now : Nat) : Strand :=
  let k := (List.range 8).foldl (fun k i => k.setS (56 + i) (k.psave.get i)) k
  { k.unfreeze now with ph := false, drain := true, pc := k.pepc }

/-- A return word that leaves the privileged handler (R52, R350); a pepc that is not aligned is MISALIGNED (R57). -/
def tretWord (i : Instr) (x : F) (eff : Ctx → Strand → Verdict) (s : State) : Outcome :=
  word i s (fun c =>
    { Spec.ofHdr x.h with
      checks := [(!c.k.ph, Cause.privileged), (!c.k.ph, Cause.tretState)], drain := true, moves := true, folded := true, gap := 12 }) fun c =>
    if c.act = 0 then .done (c.s.setStrand c.r { c.k.fold i with pc := c.k.pc + 8 })
    else if crooked c.k.pepc then c.misaligned c.k.pepc
    else c.sigChecked i fun k => eff c (k.tret c.start)

/-- SYS.TRET (R362): sig and the pending check come back, and the resumed word is no block entry. -/
def execSysTret (x : F) (s : State) : Outcome :=
  tretWord (.sysTret x) x (fun c k =>
    .done (c.s.setStrand c.r { k.sigRestore k.psigsv k.psigpv with entry := false })) s

/-- SYS.TRET.rr (R354): every thread in one group at pepc, the held requests dropped, the region's held faults discarded. -/
def execSysTretRr (x : F) (s : State) : Outcome :=
  tretWord (.sysTretRr x) x (fun c k =>
    let k : Strand := { k with
      mask := k.live, m0bad := false, groups := [], sleepers := [], asleep := 0, parked := 0, fetchHeld := .no, sigPend := none, entry := true
      faults := k.faults.filter fun f => f.region != k.pregion }
    let s := c.s.setStrand c.r k
    let mine := fun (r : StrandRef) (h : Hold) => r == c.r && h == .held
    let s := { s with
      accs := s.accs.filter fun e => !(mine e.2.strand e.2.held)
      quorums := s.quorums.filter fun e => !(mine e.2.strand e.2.held)
      samples := s.samples.filter fun e => !(mine e.2.strand e.2.held) }
    .done (s.emit c.la.fe c.la.lid Cause.regionRestart .core c.b.core [])) s

/-! ## Control registers -/

/-- The width of a control register: some true for 64 bits; none where the index is not listed (R348). -/
def crWide (i : Nat) : Option Bool :=
  if i < 0x0C then some (i == 0x02 || i == 0x03 || i == 0x09 || i == 0x0A)
  else if 0x10 ≤ i && i < 0x28 then some (i == 0x13 || i == 0x14 || i == 0x1B || i == 0x1E)
  else none

/-- Registers that are read-only as a whole (R348). -/
def crReadonly (i : Nat) : Bool :=
  i == 0x10 || i == 0x12 || (0x15 ≤ i && i ≤ 0x1B) || i == 0x1D

/-- The screen register (R348, R356). -/
def screenWord (b : Block) (la : Launch) : Nat := (if b.shadow then 1 else 0) + (if la.screen = 0 then 0 else Nat.log2 la.screen) * 2 ^ 16

/-- A control register's value (R348, R349). -/
def Strand.crRead (k : Strand) (b : Block) (la : Launch) (i : Nat) : Dword :=
  let w := fun (x : Word) => x.setWidth 64
  let n := fun (x : Nat) => BitVec.ofNat 64 x
  let f := fun (x : Bool) => n (if x then 1 else 0)
  match i with
  | 0x00 => k.fpflags.setWidth 64
  | 0x01 => f k.ivt
  | 0x02 => k.uvec
  | 0x03 => k.uepc
  | 0x04 => w k.ucause
  | 0x05 => w (k.tmrcmp.extractLsb' 0 32)
  | 0x06 => w (k.tmrcmp.extractLsb' 32 32)
  | 0x07 => w k.sig
  | 0x08 => k.region.setWidth 64
  | 0x09 => k.regionpc
  | 0x0A => k.usigsv
  | 0x0B => f k.usigpv
  | 0x10 => f (la.mmr == 1)
  | 0x11 => f k.chk
  | 0x12 => b.gen.setWidth 64
  | 0x13 => k.pvec
  | 0x14 => k.pepc
  | 0x15 => w k.pcause
  | 0x16 => w k.pmask
  | 0x17 => w (k.pva.extractLsb' 0 32)
  | 0x18 => w (k.pva.extractLsb' 32 32)
  | 0x19 => n la.fe
  | 0x1A => n (screenWord b la)
  | 0x1B => k.pfpc
  | 0x1C => n ((if k.rv then 16 else 0) + (if k.ph then 8 else 0) + (if k.uh then 4 else 0) + (if b.sb then 2 else 0) + if k.ss then 1 else 0)
  | 0x1D => k.pregion.setWidth 64
  | 0x1E => k.psigsv
  | 0x1F => f k.psigpv
  | i => w (k.psave.get (i - 0x20))

/-- A strand after a write of a control register that is not read-only as a whole: read-only fields are unchanged (R348). -/
def Strand.crWrite (k : Strand) (i : Nat) (v : Dword) : Strand :=
  let lo : Word := v.extractLsb' 0 32
  match i with
  | 0x00 => { k with fpflags := v.setWidth 6 }
  | 0x01 => { k with ivt := v.getLsbD 0 }
  | 0x02 => { k with uvec := v }
  | 0x03 => { k with uepc := v }
  | 0x04 => { k with ucause := lo &&& 0xFFFF }
  | 0x05 => { k with tmrcmp := k.tmrcmp.extractLsb' 32 32 ++ lo }
  | 0x06 => { k with tmrcmp := lo ++ k.tmrcmp.extractLsb' 0 32 }
  | 0x07 => { k with sig := lo }
  | 0x08 => { k with region := v.setWidth 16 }
  | 0x09 => { k with regionpc := v }
  | 0x0A => { k with usigsv := v }
  | 0x0B => { k with usigpv := v.getLsbD 0 }
  | 0x11 => { k with chk := v.getLsbD 0 }
  | 0x13 => { k with pvec := v }
  | 0x14 => { k with pepc := v }
  | 0x1C => { k with ss := v.getLsbD 0 }
  | 0x1E => { k with psigsv := v }
  | 0x1F => { k with psigpv := v.getLsbD 0 }
  | i => if 0x20 ≤ i && i < 0x28 then { k with psave := k.psave.set (i - 0x20) lo } else k

/-- A write of SB (R349, R350): with 1, every other strand of the block stops at its next boundary. -/
def State.setSb (s : State) (r : StrandRef) (on : Bool) : State :=
  (s.modBlock r.blk fun b => { b with sb := on }).stopOthers r on

/-- Write a control register of strand `t` for strand `r`; in an ended strand the stored value alone changes (R363). -/
def State.crWrite (s : State) (r t : StrandRef) (i : Nat) (v : Dword) : State :=
  let ended := ((s.strand? t).map Strand.ended).getD false
  let s := s.modStrand t fun k => k.crWrite i v
  if i = 0x1C then
    if ended then s.modBlock r.blk fun b => { b with sb := v.getLsbD 1 } else s.setSb r (v.getLsbD 1)
  else s

/-- A strand's flags that are still to come: those of its reads of cells (R88). -/
def State.flagsPending (s : State) (r : StrandRef) : Bool :=
  s.accs.any fun e => e.2.strand == r && match e.2.kind with | .fxrd _ => true | _ => false

/-- The control register index of a word. -/
def crIndex (x : F) : Nat := x.modN 5 0

/-- The shape of RDCR and WRCR over the S field `r`. -/
def crShape (x : F) (r : BitVec 7) : Shape :=
  let wide := crWide (crIndex x) == some true
  { regs := { sreg := [r], even := if wide then [r] else [] }, own := [((crWide (crIndex x)).isNone, Cause.crIndex)] }

/-- The S registers of a control register move. -/
def crLocs (x : F) (r : BitVec 7) : List Loc :=
  if crWide (crIndex x) == some true then [.s r.toNat, .s (r.toNat + 1)] else [.s r.toNat]

/-- SYS.RDCR (R88, R348, R362). -/
def execSysRdcr (x : F) (s : State) : Outcome :=
  sysWord (.sysRdcr x) x.h { crShape x x.d with writes := crLocs x x.d } (crIndex x < 0x0C) id (fun c =>
    let v := c.k.crRead c.b c.la (crIndex x)
    if c.act = 0 then .done c.s
    else if crIndex x = 0 && c.s.flagsPending c.r then .wait .other c.s
    else .done (c.s.setStrand c.r
      (if crWide (crIndex x) == some true then c.k.setSPair x.d.toNat v else c.k.setS x.d.toNat (v.extractLsb' 0 32)))) s

/-- SYS.WRCR (R88, R348, R362). DESIGN CHOICE (log 20): a write of sig comes before the word's own fold, which R52 makes of every issued
word. -/
def execSysWrcr (x : F) (s : State) : Outcome :=
  sysWord (.sysWrcr x) x.h
    { crShape x x.a with
      reads := crLocs x x.a, own := (crShape x x.a).own ++ [(crReadonly (crIndex x), Cause.crReadonly)] } (crIndex x < 0x0C) id (fun c =>
    if c.act = 0 then .done c.s
    else if crIndex x = 0 && c.s.flagsPending c.r then .wait .other c.s
    else .done (c.s.crWrite c.r c.r (crIndex x)
      (if crWide (crIndex x) == some true then c.rd.sPair x.a.toNat else (c.rd.sGet x.a.toNat).setWidth 64))) s

/-! ## Halts -/

/-- SYS.HALT (R362): the launch fails with SYS_HALT. -/
def execSysHalt (x : F) (s : State) : Outcome :=
  sysWord (.sysHalt x) x.h (argShape x) false id (fun c =>
    if c.act = 0 then .done c.s else .over (c.s.failLaunch c.b.launch Cause.sysHalt (pay := bytesOf 4 (c.arg x).toNat))) s

/-- SYS.HALT.relaunch (R358, R362). -/
def execSysHaltRelaunch (x : F) (s : State) : Outcome :=
  sysWord (.sysHaltRelaunch x) x.h (argShape x) false id (fun c =>
    if c.act = 0 then .done c.s
    else if c.b.relaunchable c.la then .over (c.s.relaunch c.r.blk)
    else .over (c.s.failLaunch c.b.launch Cause.rollbackCommitted)) s

/-! ## XREAD and XWRITE -/

/-- A selector (R363). -/
structure Selector where
  sid    : Nat
  kind   : Nat
  reg    : Nat
  thread : Nat
  elem   : Nat
  high   : Nat
  deriving DecidableEq, Repr

def selectorOf (w : Word) : Selector :=
  let n := w.toNat
  ⟨bitsN n 4 0, bitsN n 7 5, bitsN n 14 8, bitsN n 19 15, bitsN n 23 20, bitsN n 31 24⟩

/-- Threads that are asleep or parked (R24): they are in no group (R289), and rejoin the group that they left, at its PC. -/
def Strand.away (k : Strand) : Word := k.asleep ||| k.parked

/-- M0: the threads of the current group that are neither asleep nor parked (R24, R289). -/
def Strand.current (k : Strand) : Word := k.mask &&& ~~~k.away

/-- Insert a group by its PC. -/
def insertGroup (e : Option Nat × Group) : List (Option Nat × Group) → List (Option Nat × Group)
  | [] => [e]
  | x :: xs => if e.2.pc < x.2.pc then e :: x :: xs else x :: insertGroup e xs

/-- The groups of a strand in ascending PC (R363): the current one as `none`, a waiting or held one by its place. -/
def Strand.groupList (k : Strand) : List (Option Nat × Group) :=
  let others := (k.groups.zipIdx).filterMap fun e =>
    if e.1.mask &&& ~~~k.away = 0 then none else some (some e.2, { e.1 with mask := e.1.mask &&& ~~~k.away })
  let all := if k.current = 0 then others else (none, ⟨k.current, k.pc, none, false⟩) :: others
  all.foldr insertGroup []

/-- Half of a 64-bit value. -/
def halfWord (v : Dword) (hi : Bool) : Word := v.extractLsb' (if hi then 32 else 0) 32
def setHalf (v : Dword) (hi : Bool) (w : Word) : Dword := if hi then w ++ v.extractLsb' 0 32 else v.extractLsb' 32 32 ++ w

/-- The element that a selector names in a strand (R363); none: XSEL_RANGE. -/
def Selector.read (x : Selector) (k : Strand) (b : Block) (la : Launch) : Option Word :=
  match x.kind with
  | 0 =>
    if la.nregs ≤ x.reg then none
    else if x.elem = 0 then some (k.vGet x.reg x.thread)
    else if x.elem ≤ la.d && x.reg < la.jregs then some (k.compGet x.reg x.thread (x.elem - 1)) else none
  | 1 => if x.reg < 64 && x.elem = 0 then some (k.sGet x.reg) else none
  | 2 => if x.reg < 8 && x.elem = 0 then some (if x.reg = 0 then k.current else k.mGet x.reg) else none
  | 3 =>
    match crWide x.reg with
    | some wide => if x.elem = 0 || (wide && x.elem = 1) then some (halfWord (k.crRead b la x.reg) (x.elem = 1)) else none
    | none => none
  | 4 =>
    match k.groupList[x.reg]? with
    | none => none
    | some (i, g) =>
      match x.elem with
      | 0 => some g.mask
      | 1 => some (halfWord g.pc false)
      | 2 => some (halfWord g.pc true)
      | 3 => some (if i.isNone then 1 else if g.hold.isSome then 2 else 0)
      | _ => none
  | 5 => if x.reg < 8 && x.elem = 0 then k.hGet x.reg else none
  | _ => none

/-- Replace a group: `none` is the current one; a mask of zero dissolves it, and groups at one PC merge (R289, R363). -/
def Strand.putGroup (k : Strand) (i : Option Nat) (g : Group) : Strand :=
  let k : Strand := match i with
    | none => { k with mask := g.mask ||| (k.mask &&& k.away), m0bad := false, pc := g.pc }
    | some i =>
      let left := ((k.groups[i]?).map Group.mask).getD 0 &&& k.away
      { k with groups := (((k.groups.set i { g with mask := g.mask ||| left }).filter fun g => g.mask != 0).foldl addGroup []) }
  let k := k.releaseFull
  if k.mask = 0 then k else k.merge.1

/-- Whether a mask may be given to group `i`: it names no thread that is exited, asleep or parked, and overlaps no other group (R363). -/
def Strand.freeMask (k : Strand) (i : Option Nat) (m : Word) : Bool :=
  m &&& (k.exited ||| k.away) == 0 && k.groupList.all fun e => e.1 == i || e.2.mask &&& m == 0

/-- Write a group's element. -/
def Strand.writeGroup (k : Strand) (i : Option Nat) (g : Group) (elem : Nat) (w : Word) : Option Strand :=
  match elem with
  | 0 => if k.freeMask i w then some (k.putGroup i { g with mask := w }) else none
  | 1 => some (k.putGroup i { g with pc := setHalf g.pc false w })
  | 2 => some (k.putGroup i { g with pc := setHalf g.pc true w })
  | _ => none

/-- The strand with the element that a selector names written (R363); none: XSEL_RANGE. Control registers and handles are written
by `Selector.write`. -/
def Selector.put (x : Selector) (k : Strand) (la : Launch) (w : Word) : Option Strand :=
  match x.kind with
  | 0 =>
    if la.nregs ≤ x.reg then none
    else if x.elem = 0 then some (k.setV x.reg x.thread w)
    else if x.elem ≤ la.d && x.reg < la.jregs then some (k.setComp x.reg x.thread (x.elem - 1) w) else none
  | 1 => if x.reg < 64 && x.elem = 0 then some (k.setS x.reg w) else none
  | 2 =>
    if 8 ≤ x.reg || x.elem != 0 then none
    else if x.reg != 0 then some (k.setM x.reg w)
    else if k.current = 0 then none
    else k.writeGroup none ⟨k.current, k.pc, none, false⟩ 0 w
  | 4 => match k.groupList[x.reg]? with | some (i, g) => k.writeGroup i g x.elem w | none => none
  | _ => none

/-- Write the element for strand `r` (R363). -/
def Selector.write (x : Selector) (s : State) (r t : StrandRef) (k : Strand) (b : Block) (la : Launch) (w : Word) : Option State :=
  match x.kind with
  | 3 =>
    match crWide x.reg with
    | some wide =>
      if crReadonly x.reg || !(x.elem = 0 || (wide && x.elem = 1)) then none
      else some (s.crWrite r t x.reg (setHalf (k.crRead b la x.reg) (x.elem = 1) w))
    | none => none
  | 5 => if x.reg < 8 && x.elem = 0 then some (s.writeH t x.reg (some w)) else none
  | _ => (x.put k la w).map fun k => s.setStrand t k

/-- The registers of the issuing strand that a selector names: they are interlocked as a word's own (R74). DESIGN CHOICE (log 20): control
registers are not, so XREAD and XWRITE of fpflags do not wait for flags still to come, which R88 asks of RDCR and WRCR. -/
def Selector.locs (x : Selector) : List Loc :=
  match x.kind with | 0 => [.v x.reg] | 1 => [.s x.reg] | 2 => [.m x.reg] | _ => []

/-- A strand whose state another may read or write (R363). -/
def Strand.open (k : Strand) : Bool := k.ended || k.stopped || k.ph

/-- The target of a selector (R363): causes in the order of the entry's table. `ok` says whether the selector names an element. -/
def Ctx.target (c : Ctx) (x : Selector) (ok : Strand → Bool) (go : StrandRef → Strand → Verdict) : Verdict :=
  let t : StrandRef := ⟨c.r.blk, x.sid⟩
  if x.high != 0 || 6 ≤ x.kind then c.trapAll Cause.xselRange
  else match c.s.strand? t with
    | none => c.trapAll Cause.xselRange
    | some k =>
      let k := if t == c.r then c.rd else k
      if !ok k then c.trapAll Cause.xselRange
      else if t != c.r && !k.open then c.trapAll Cause.strandState
      else if t != c.r && x.locs.any (c.s.pending t) then .wait (c.s.pendingWhy t x.locs) c.s
      else go t k

/-- The registers that XREAD or XWRITE names in its own strand, as the selector stands at its start. -/
def ownLocs (c : Ctx) (x : F) : List Loc :=
  let sel := selectorOf (c.k.sGet x.a.toNat)
  if sel.sid = c.r.sid then sel.locs else []

/-- SYS.XREAD (R362, R363). -/
def execSysXread (x : F) (s : State) : Outcome :=
  word (.sysXread x) s (fun c =>
    let sp := (({ regs := { sreg := [x.d, x.a] }, reads := .s x.a.toNat :: ownLocs c x, writes := [.s x.d.toNat] } : Shape).spec x.h c)
    { sp with checks := (!c.k.ph, Cause.privileged) :: sp.checks, slots := none, lat := none }) fun c =>
    if c.act = 0 then .done c.s
    else
      let sel := selectorOf (c.rd.sGet x.a.toNat)
      c.target sel (fun k => (sel.read k c.b c.la).isSome) fun _ k =>
        .done (c.s.setStrand c.r (c.k.setS x.d.toNat ((sel.read k c.b c.la).getD 0)))

/-- Whether the element is the PC of the issuing strand's current group. -/
def Selector.ownPc (x : Selector) (k : Strand) : Bool :=
  x.kind == 4 && (x.elem == 1 || x.elem == 2) && (match k.groupList[x.reg]? with | some (none, _) => true | _ => false)

/-- SYS.XWRITE (R362, R363). A strand that writes its own current group's PC goes on there (MISALIGNED where it is not aligned, R57);
where the current group of a strand is dissolved, another is selected (R290). -/
def execSysXwrite (x : F) (s : State) : Outcome :=
  word (.sysXwrite x) s (fun c =>
    let sp := (({ regs := { sreg := [x.a, x.b] }, reads := [.s x.a.toNat, .s x.b.toNat], writes := ownLocs c x } : Shape).spec x.h c)
    { sp with checks := (!c.k.ph, Cause.privileged) :: sp.checks, slots := none, lat := none, moves := true }) fun c =>
    if c.act = 0 then .done (c.s.setStrand c.r { c.k with pc := c.k.pc + 8, entry := false, drain := false })
    else
      let sel := selectorOf (c.rd.sGet x.a.toNat)
      let w := c.rd.sGet x.b.toNat
      c.target sel (fun k => (sel.write c.s c.r ⟨c.r.blk, sel.sid⟩ k c.b c.la w).isSome) fun t k =>
        let k := if t == c.r then c.k else k
        let next := fun (k1 : Strand) =>
          let k1 : Strand := { k1 with entry := k1.entry && k1.mask != c.k.mask, drain := k1.drain && k1.mask != c.k.mask }
          if k1.mask = 0 then k1.pick else if t == c.r && sel.ownPc k then k1 else { k1 with pc := k1.pc + 8 }
        match sel.write c.s c.r t k c.b c.la w with
        | some s =>
          let pc := ((s.strand? t).map Strand.pc).getD 0
          if t == c.r && sel.ownPc k && crooked pc then c.misaligned pc
          else
            let s := if t == c.r then s else s.modStrand t fun k => if k.mask = 0 && !k.ended then k.pick else k
            .done (s.modStrand c.r next)
        | none => c.trapAll Cause.xselRange

/-! ## RESUME and ICINV -/

/-- SYS.RESUME (R362, R363). -/
def execSysResume (x : F) (s : State) : Outcome :=
  sysWord (.sysResume x) x.h { regs := { sreg := [x.a] }, reads := [.s x.a.toNat] } false id (fun c =>
    let w := c.rd.sGet x.a.toNat
    let t : StrandRef := ⟨c.r.blk, bitsN w.toNat 4 0⟩
    let run := fun (k : Strand) => ({ k.unfreeze c.start with stopped := false, why := .issued } : Strand)
    if c.act = 0 then .done c.s
    else if w.getLsbD 5 then
      .done { c.s with strands := c.s.strands.map fun (e : StrandRef × Strand) =>
        if e.1.blk == c.r.blk && e.2.stopped then (e.1, run e.2) else e }
    else match c.s.strand? t with
      | some k => if k.stopped then .done (c.s.modStrand t run) else c.trapAll Cause.strandState
      | none => c.trapAll Cause.strandState) s

/-- Drop the instruction-cache lines of a partition that hold a byte of a range, on every core (R209, R362). -/
def State.dropLines (s : State) (fe a n : Nat) : State :=
  { s with cores := s.cores.map fun (e : Nat × Core) =>
      (e.1, { e.2 with icache := e.2.icache.filter fun l => !(l.1.1 == fe && a < l.1.2 + 128 && l.1.2 < a + n) }) }

/-- SYS.ICINV (R362). -/
def execSysIcinv (x : F) (s : State) : Outcome :=
  sysWord (.sysIcinv x) x.h
    { regs := { sreg := [x.a, x.b], even := [x.a] }, reads := [.s x.a.toNat, .s (x.a.toNat + 1), .s x.b.toNat] } false id (fun c =>
    let n := (c.rd.sGet x.b.toNat).toNat
    if c.act = 0 then .done c.s
    else if n = 0 || 2 ^ 20 < n then c.trapAll Cause.icinvRange
    else .done (c.s.dropLines c.la.fe (c.rd.sPair x.a.toNat).toNat n)) s

end Sys2Proof.Machine
end

