-- ==== Sys2Proof/Machine/Tables.lean ====
section
/-!
DEFINITION. The tensor descriptor table's words (R204, R205) and the Heddle words (R189 to R191, R206).
-/
namespace Sys2Proof.Machine

/-! ## TDE -/

/-- The place that a TDE word names: device memory by the pair in S[b], or a pad by its offset (R204). -/
def Ctx.tdeAddr (c : Ctx) (x : F) : Nat :=
  if x.modN 1 0 = 0 then (c.rd.sPair x.b.toNat).toNat else (c.rd.sGet x.b.toNat).toNat

/-- The shape of TDE.write and TDE.read. -/
def tdeShape (x : F) : Shape :=
  { regs := { sreg := [x.a, x.b], even := [x.b] }
    reads := [.s x.a.toNat, .s x.b.toNat] ++ if x.modN 1 0 = 0 then [.s (x.b.toNat + 1)] else [] }

/-- The checks of a TDE word, in table order (R204). -/
def Ctx.tdeOk (c : Ctx) (x : F) (inval : Bool) (go : Verdict) : Verdict :=
  let sp := spaceOf (x.modN 1 0)
  let a := c.tdeAddr x
  if (c.rd.sGet x.a.toNat).toNat / 4096 != 0 then c.trapAll Cause.tidInvalid
  else if inval then go
  else if a % 64 != 0 then .trap Cause.misaligned c.act (BitVec.ofNat 64 a) 0
  else if sp != .device && c.la.padSize sp < a + 64 then .trap (padCause sp) c.act (BitVec.ofNat 64 a) 0
  else go

/-- A TDE word. -/
def tdeWord (i : Instr) (x : F) (g : Shape) (inval noShadow release : Bool) (what : Ctx → Request) (s : State) : Outcome :=
  word i s (fun c => { g.spec x.h c with slots := none, lat := none, noShadow := noShadow }) fun c =>
    if c.act = 0 then .done c.s else c.tdeOk x inval (c.serve release (what c))

/-- The entry that a TDE word names. -/
def Ctx.tdeTid (c : Ctx) (x : F) : Nat := (c.rd.sGet x.a.toNat).toNat % 4096

/-- TDE.write (R204). -/
def execTdeWrite (x : F) (s : State) : Outcome :=
  tdeWord (.tdeWrite x) x (tdeShape x) false true true (fun c => .tdeWrite (c.tdeTid x) (spaceOf (x.modN 1 0)) (c.tdeAddr x)) s

/-- TDE.read (R204): a contained block's commits first where it stores to a cluster pad or a die pad (R232). -/
def execTdeRead (x : F) (s : State) : Outcome :=
  tdeWord (.tdeRead x) x (tdeShape x) false (x.modN 1 0 != 1) (2 ≤ x.modN 1 0) (fun c => .tdeRead (c.tdeTid x) (spaceOf (x.modN 1 0)) (c.tdeAddr x)) s

/-- TDE.inval (R204). -/
def execTdeInval (x : F) (s : State) : Outcome :=
  tdeWord (.tdeInval x) x { regs := { sreg := [x.a] }, reads := [.s x.a.toNat] } true true true (fun c => .tdeInval (c.tdeTid x)) s

/-- Write an entry of the table, bits 511 to 504 as zero (R204). -/
def State.setTde (s : State) (fe tid : Nat) (e : BitVec 512) : State :=
  s.modFe fe fun f => { f with tdes := f.tdes.put tid (e &&& (BitVec.allOnes 512 >>> 8)) }

/-- A service's store has been written: the strand has it behind it. -/
def State.serviceWrote (s : State) (n : Nat) (o : ServiceOp) : State :=
  let s' := s.modStrand o.strand fun k => k.learn o.mask fun z => { z with view := z.view.wrote s }
  s'.served n o

/-- The author of a service's store: relaxed, at strand scope (R205). -/
def State.serviceAuthor (s : State) (o : ServiceOp) : Author :=
  { src := some (o.strand.blk, o.strand.sid, ((s.strand? o.strand).map Strand.po).getD 0), grain := 4 }

/-- The store of TDE.read to device memory: buffered in a contained launch (R205). It waits while a commit is held. -/
def State.serviceWrite (s : State) (n : Nat) (o : ServiceOp) (va : Nat) (bs : List Byte) : State :=
  let contained := ((s.launch? o.launch).map Launch.contained).getD false
  if contained then
    if ((s.block? o.strand.blk).bind Block.committing).isSome then s
    else match s.bufferFrom ⟨o.strand, o.pc, o.mask, o.region, 4⟩ false [.store va bs] 0 with
      | (s, none) => s.served n o
      | (s, some _) => s
  else match lookup (s.tlb o.fe) (s.fe o.fe) .st va bs.length with
    | .absent => s.holdService n o va 1
    | .fault c => s.serviceFault n o c va
    | .page p => (((s.writePage (s.fe o.fe) p bs (s.serviceAuthor o)).countMem o.fe 6 bs.length p).traffic o.fe p).serviceWrote n o

/-- TDE_COMPLETE (R204, R205). -/
def execTdeComplete (n : Nat) (s : State) : Outcome :=
  match s.services.get? n with
  | none => .next s
  | some o =>
    if o.held == .held || !s.live o.strand.blk then .next s
    else
      let place := fun (sp : Space) => padPlace o.strand.blk o.launch o.core sp
      match o.what with
      | .tdeWrite tid sp a =>
        let put := fun (s : State) (bs : List Byte) => ((s.setTde o.fe tid (BitVec.ofNat 512 (numOf bs))).emit o.fe (s.lidOf o.launch) Cause.bindDone .core o.core []).served n o
        if sp == .device then .next (s.serviceRead n o 0 a 64 put)
        else if s.padPoisoned (place sp) a 64 then .next (s.serviceFault n o Cause.eccPad a)
        else
          let r := s.readRunAs (place sp) (s.serviceView o) 4 a 64 s.fresh
          .next (put (s.serviceRan o r) r.bytes)
      | .tdeRead tid sp a =>
        let bs := bytesOf 64 ((s.fe o.fe).tde tid).toNat
        if sp == .device then .next (s.serviceWrite n o a bs)
        else .next ((s.write (place sp) a bs (s.serviceAuthor o)).serviceWrote n o)
      | .tdeInval tid => .next ((s.modFe o.fe fun f => { f with tdes := f.tdes.drop tid }).served n o)
      | _ => .next s

/-! ## HDL -/

/-- What HDL.LOAD waits for: an acquire of its strand, a held one with its threads parked (R219, R238), and the strand's own stores to the bytes that
it reads (R246). -/
def Ctx.draftWait (c : Ctx) (sp : Space) (a : Nat) : Option Stall :=
  match c.s.acquireWait c.r with
  | some .parked => some .parked
  | some _ => some .other
  | none =>
    if c.crosses { uni := true, space := sp, size := 16, bytes := 128 } [a] fun x => !x.kind.isLoad then some .other else none

/-- HDL.LOAD (R189, R206): the slot's 128 bytes in one step. A slot that was loaded is marked by a byte after its draft. -/
def execHdlLoad (x : F) (s : State) : Outcome :=
  let n := x.modN 2 0
  let sp := spaceOf (x.modN 5 4)
  word (.hdlLoad x) s (fun c =>
      { ({ regs := { sreg := [x.a] }, reads := [.s x.a.toNat] } : Shape).spec x.h c with slots := none, lat := none }) fun c =>
    let a := (c.rd.sGet x.a.toNat).toNat
    if c.act = 0 then .done c.s
    else if a % 16 != 0 then .trap Cause.misaligned c.act (BitVec.ofNat 64 a) 0
    else if c.la.padSize sp < a + 128 then .trap (padCause sp) c.act (BitVec.ofNat 64 a) 0
    else match c.draftWait sp a with
      | some why => .wait why c.s
      | none =>
        let pl := padPlace c.r.blk c.b.launch c.b.core sp
        let r := c.s.readRunAs pl (c.k.viewOf c.act) 1 a 128 c.s.fresh
        let bs := r.bytes
        let s := c.s.modStrand c.r fun k => k.learn c.act fun z => z.read (.ofStrand c.r c.b.core) false 1 pl a 128 r.from_
        if c.s.padPoisoned pl a 128 then .done (c.s.asyncFault c.r ⟨Cause.eccPad, c.act, BitVec.ofNat 64 a, c.k.pc, c.k.region, false, 0⟩)
        else if bs.any fun b => 0x80 ≤ b.toNat && b.toNat ≤ 0xFE then c.trapAll Cause.draftInvalid
        else .done (s.modBlock c.r.blk fun b => { b with drafts := (b.drafts.put (256 * n) bs).put (256 * n + 128) [1] })

/-- A slot that has been loaded (R189). -/
def Block.draftReady (b : Block) (n : Nat) : Bool := Cells.get b.drafts (256 * n + 128) != 0

/-- HDL.PERM (R190, R206): all sources are read before any destination is written. -/
def execHdlPerm (x : F) (s : State) : Outcome :=
  let n := x.modN 2 0
  let src := (List.range 4).map (x.a.toNat + ·)
  let dst := (List.range 4).map (x.d.toNat + ·)
  word (.hdlPerm x) s (fun c =>
      { ({ regs := { vec := [x.d, x.a], span := [x.d.toNat + 3, x.a.toNat + 3], noU := true }
           reads := src.map .v, writes := dst.map .v } : Shape).spec x.h c with slots := none, stream := 16, lat := none }) fun c =>
    if c.act = 0 then .done c.s
    else if !c.b.draftReady n then c.trapAll Cause.draftInvalid
    else
      let jet := fun (u r t : Nat) => (c.at u).jet false (BitVec.ofNat 7 r) t
      let k := (List.range 128).foldl (fun k e =>
        let t := e % 32
        if !c.act.getLsbD t then k
        else
          let i := (Cells.get c.b.drafts (256 * n + e)).toNat
          let v := if i = 0xFF then Fp.Jet.flat 0 else jet t (x.a.toNat + i / 32) (i % 32)
          k.put c.la false t (x.d.toNat + e / 32, v)) c.k
      .done (c.s.setStrand c.r k)

end Sys2Proof.Machine
end

