-- ==== Sys2Proof/Machine/Dispatch.lean ====
section
/-!
DEFINITION. Which meaning each row of the opcode table has: one arm per constructor of Instr.
-/
namespace Sys2Proof.Machine

def exec (i : Instr) (s : State) : Host.Outcome State Fault Refusal :=
  match i with
  | .nop => Sys2Proof.Machine.execNop s
  | .ill => Sys2Proof.Machine.execIll s
  | .movVV x => Sys2Proof.Machine.execMovVV x s
  | .movVS x => Sys2Proof.Machine.execMovVS x s
  | .movSV x => Sys2Proof.Machine.execMovSV x s
  | .movSS x => Sys2Proof.Machine.execMovSS x s
  | .movQueuePop x => Sys2Proof.Machine.execMovQueuePop x s
  | .movQueuePush x => Sys2Proof.Machine.execMovQueuePush x s
  | .movVM x => Sys2Proof.Machine.execMovVM x s
  | .movMV x => Sys2Proof.Machine.execMovMV x s
  | .movHandleStatus x => Sys2Proof.Machine.execMovHandleStatus x s
  | .movHandleToken x => Sys2Proof.Machine.execMovHandleToken x s
  | .movTokenHandle x => Sys2Proof.Machine.execMovTokenHandle x s
  | .movi x => Sys2Proof.Machine.execMovi x s
  | .iaddi x => Sys2Proof.Machine.execIaddi x s
  | .andi x => Sys2Proof.Machine.execAndi x s
  | .ori x => Sys2Proof.Machine.execOri x s
  | .xori x => Sys2Proof.Machine.execXori x s
  | .iadd fn x => Sys2Proof.Machine.execIadd fn x s
  | .isub fn x => Sys2Proof.Machine.execIsub fn x s
  | .imul fn x => Sys2Proof.Machine.execImul fn x s
  | .imad x => Sys2Proof.Machine.execImad x s
  | .iminmax fn x => Sys2Proof.Machine.execIminmax fn x s
  | .iabs x => Sys2Proof.Machine.execIabs x s
  | .iaddw x => Sys2Proof.Machine.execIaddw x s
  | .lea x => Sys2Proof.Machine.execLea x s
  | .twill x => Sys2Proof.Machine.execTwill x s
  | .shf fn x => Sys2Proof.Machine.execShf fn x s
  | .bfx x => Sys2Proof.Machine.execBfx x s
  | .bfi x => Sys2Proof.Machine.execBfi x s
  | .popc x => Sys2Proof.Machine.execPopc x s
  | .clz x => Sys2Proof.Machine.execClz x s
  | .brev x => Sys2Proof.Machine.execBrev x s
  | .sel x => Sys2Proof.Machine.execSel x s
  | .icmp fn x => Sys2Proof.Machine.execIcmp fn x s
  | .fcmp fn x => Sys2Proof.Machine.execFcmp fn x s
  | .fclass x => Sys2Proof.Machine.execFclass x s
  | .read fn x => Sys2Proof.Machine.execRead fn x s
  | .peek fn x => Sys2Proof.Machine.execPeek fn x s
  | .fadd x => Sys2Proof.Machine.execFadd x s
  | .fmul x => Sys2Proof.Machine.execFmul x s
  | .ffma x => Sys2Proof.Machine.execFfma x s
  | .faddi x => Sys2Proof.Machine.execFaddi x s
  | .fmuli x => Sys2Proof.Machine.execFmuli x s
  | .fscale x => Sys2Proof.Machine.execFscale x s
  | .fminmax fn x => Sys2Proof.Machine.execFminmax fn x s
  | .frnd x => Sys2Proof.Machine.execFrnd x s
  | .fdiv x => Sys2Proof.Machine.execFdiv x s
  | .fsqrt x => Sys2Proof.Machine.execFsqrt x s
  | .frcp x => Sys2Proof.Machine.execFrcp x s
  | .frsq x => Sys2Proof.Machine.execFrsq x s
  | .ftr fn x => Sys2Proof.Machine.execFtr fn x s
  | .twosum x => Sys2Proof.Machine.execTwosum x s
  | .twoprod x => Sys2Proof.Machine.execTwoprod x s
  | .pkadd bf x => Sys2Proof.Machine.execPkadd bf x s
  | .pkmul bf x => Sys2Proof.Machine.execPkmul bf x s
  | .pkfma bf x => Sys2Proof.Machine.execPkfma bf x s
  | .jseed x => Sys2Proof.Machine.execJseed x s
  | .tget x => Sys2Proof.Machine.execTget x s
  | .tset x => Sys2Proof.Machine.execTset x s
  | .jzero x => Sys2Proof.Machine.execJzero x s
  | .jeval x => Sys2Proof.Machine.execJeval x s
  | .fprint x => Sys2Proof.Machine.execFprint x s
  | .cvt dst x => Sys2Proof.Machine.execCvt dst x s
  | .qntSt x => Sys2Proof.Machine.execQntSt x s
  | .qntZ x => Sys2Proof.Machine.execQntZ x s
  | .pack x => Sys2Proof.Machine.execPack x s
  | .unpack x => Sys2Proof.Machine.execUnpack x s
  | .ld x => Sys2Proof.Machine.execLd x s
  | .st x => Sys2Proof.Machine.execSt x s
  | .atom fn x => Sys2Proof.Machine.execAtom fn x s
  | .cas x => Sys2Proof.Machine.execCas x s
  | .fxadd x => Sys2Proof.Machine.execFxadd x s
  | .fxrdRead x => Sys2Proof.Machine.execFxrdRead x s
  | .fxrdClr x => Sys2Proof.Machine.execFxrdClr x s
  | .qld x => Sys2Proof.Machine.execQld x s
  | .qst x => Sys2Proof.Machine.execQst x s
  | .fence ord scope x => Sys2Proof.Machine.execFence ord scope x s
  | .fenceSc x => Sys2Proof.Machine.execFenceSc x s
  | .waita x => Sys2Proof.Machine.execWaita x s
  | .barSet x => Sys2Proof.Machine.execBarSet x s
  | .barMark x => Sys2Proof.Machine.execBarMark x s
  | .barWait x => Sys2Proof.Machine.execBarWait x s
  | .barWaitPhase x => Sys2Proof.Machine.execBarWaitPhase x s
  | .barOwe x => Sys2Proof.Machine.execBarOwe x s
  | .barStat x => Sys2Proof.Machine.execBarStat x s
  | .barShare x => Sys2Proof.Machine.execBarShare x s
  | .sknJoin x => Sys2Proof.Machine.execSknJoin x s
  | .sknLeave x => Sys2Proof.Machine.execSknLeave x s
  | .sknSync x => Sys2Proof.Machine.execSknSync x s
  | .qcfg x => Sys2Proof.Machine.execQcfg x s
  | .hndWait x => Sys2Proof.Machine.execHndWait x s
  | .hndTest x => Sys2Proof.Machine.execHndTest x s
  | .hndCancel x => Sys2Proof.Machine.execHndCancel x s
  | .hndMove x => Sys2Proof.Machine.execHndMove x s
  | .cpl x => Sys2Proof.Machine.execCpl x s
  | .cplFo x => Sys2Proof.Machine.execCplFo x s
  | .cps x => Sys2Proof.Machine.execCps x s
  | .cpm x => Sys2Proof.Machine.execCpm x s
  | .cpq x => Sys2Proof.Machine.execCpq x s
  | .cpx x => Sys2Proof.Machine.execCpx x s
  | .cpr x => Sys2Proof.Machine.execCpr x s
  | .sample x => Sys2Proof.Machine.execSample x s
  | .sampleLod x => Sys2Proof.Machine.execSampleLod x s
  | .texbBind x => Sys2Proof.Machine.execTexbBind x s
  | .texbInval x => Sys2Proof.Machine.execTexbInval x s
  | .mxb x => Sys2Proof.Machine.execMxb x s
  | .mxsw x => Sys2Proof.Machine.execMxsw x s
  | .mxsq x => Sys2Proof.Machine.execMxsq x s
  | .mma sr x => Sys2Proof.Machine.execMma sr x s
  | .mxd x => Sys2Proof.Machine.execMxd x s
  | .mxdGuide x => Sys2Proof.Machine.execMxdGuide x s
  | .mxcClear x => Sys2Proof.Machine.execMxcClear x s
  | .mxcPair x => Sys2Proof.Machine.execMxcPair x s
  | .mxcUnpair x => Sys2Proof.Machine.execMxcUnpair x s
  | .tdeWrite x => Sys2Proof.Machine.execTdeWrite x s
  | .tdeRead x => Sys2Proof.Machine.execTdeRead x s
  | .tdeInval x => Sys2Proof.Machine.execTdeInval x s
  | .hdlLoad x => Sys2Proof.Machine.execHdlLoad x s
  | .hdlPerm x => Sys2Proof.Machine.execHdlPerm x s
  | .bra x => Sys2Proof.Machine.execBra x s
  | .jmpi x => Sys2Proof.Machine.execJmpi x s
  | .call x => Sys2Proof.Machine.execCall x s
  | .ctlRet x => Sys2Proof.Machine.execCtlRet x s
  | .ctlExit x => Sys2Proof.Machine.execCtlExit x s
  | .ctlRcv x => Sys2Proof.Machine.execCtlRcv x s
  | .ctlRegion x => Sys2Proof.Machine.execCtlRegion x s
  | .ctlSigchk x => Sys2Proof.Machine.execCtlSigchk x s
  | .ctlSigrst x => Sys2Proof.Machine.execCtlSigrst x s
  | .ctlSleep x => Sys2Proof.Machine.execCtlSleep x s
  | .ctlYield x => Sys2Proof.Machine.execCtlYield x s
  | .ctlTmrset x => Sys2Proof.Machine.execCtlTmrset x s
  | .ctlTmrclr x => Sys2Proof.Machine.execCtlTmrclr x s
  | .ctlTrapu x => Sys2Proof.Machine.execCtlTrapu x s
  | .ctlUret x => Sys2Proof.Machine.execCtlUret x s
  | .ctlBrk x => Sys2Proof.Machine.execCtlBrk x s
  | .ctlEvmark x => Sys2Proof.Machine.execCtlEvmark x s
  | .msk fn x => Sys2Proof.Machine.execMsk fn x s
  | .sysTrap x => Sys2Proof.Machine.execSysTrap x s
  | .sysTret x => Sys2Proof.Machine.execSysTret x s
  | .sysTretRr x => Sys2Proof.Machine.execSysTretRr x s
  | .sysRdcr x => Sys2Proof.Machine.execSysRdcr x s
  | .sysWrcr x => Sys2Proof.Machine.execSysWrcr x s
  | .sysHalt x => Sys2Proof.Machine.execSysHalt x s
  | .sysHaltRelaunch x => Sys2Proof.Machine.execSysHaltRelaunch x s
  | .sysXread x => Sys2Proof.Machine.execSysXread x s
  | .sysXwrite x => Sys2Proof.Machine.execSysXwrite x s
  | .sysResume x => Sys2Proof.Machine.execSysResume x s
  | .sysIcinv x => Sys2Proof.Machine.execSysIcinv x s
  | .pWord x => Sys2Proof.Machine.execPWord x s
  | .accessPerformed acc => Sys2Proof.Machine.execAccessPerformed acc s
  | .asyncFaultDelivery r => Sys2Proof.Machine.execAsyncFaultDelivery r s
  | .hostBreak r => Sys2Proof.Machine.execHostBreak r s
  | .stopBlockHalt r => Sys2Proof.Machine.execStopBlockHalt r s
  | .timerFire r => Sys2Proof.Machine.execTimerFire r s
  | .rcvExpired r pc => Sys2Proof.Machine.execRcvExpired r pc s
  | .waitaWakeOnWrite r t => Sys2Proof.Machine.execWaitaWakeOnWrite r t s
  | .waitaPeriodicRead r t => Sys2Proof.Machine.execWaitaPeriodicRead r t s
  | .waitaBoundExpiry r t => Sys2Proof.Machine.execWaitaBoundExpiry r t s
  | .sleepExpiry r => Sys2Proof.Machine.execSleepExpiry r s
  | .heartbeatTick => Sys2Proof.Machine.execHeartbeatTick s
  | .queueStalled blk => Sys2Proof.Machine.execQueueStalled blk s
  | .queueDeadlock blk => Sys2Proof.Machine.execQueueDeadlock blk s
  | .quorumAnswer op copy => Sys2Proof.Machine.execQuorumAnswer op copy s
  | .quorumCopyTimeout op copy => Sys2Proof.Machine.execQuorumCopyTimeout op copy s
  | .quorumScrub fe va => Sys2Proof.Machine.execQuorumScrub fe va s
  | .mxswExchange op => Sys2Proof.Machine.execMxswExchange op s
  | .mxbComplete op => Sys2Proof.Machine.execMxbComplete op s
  | .mmaCommit op => Sys2Proof.Machine.execMmaCommit op s
  | .mxdComplete op => Sys2Proof.Machine.execMxdComplete op s
  | .cplFollowOnIssue op => Sys2Proof.Machine.execCplFollowOnIssue op s
  | .recordFreedStart op => Sys2Proof.Machine.execRecordFreedStart op s
  | .copyAccept op => Sys2Proof.Machine.execCopyAccept op s
  | .copyUnitWritten op cell => Sys2Proof.Machine.execCopyUnitWritten op cell s
  | .copyComplete op => Sys2Proof.Machine.execCopyComplete op s
  | .cprComplete op peers => Sys2Proof.Machine.execCprComplete op peers s
  | .cprTimeout op => Sys2Proof.Machine.execCprTimeout op s
  | .sampleResult op => Sys2Proof.Machine.execSampleResult op s
  | .texbComplete op => Sys2Proof.Machine.execTexbComplete op s
  | .tdeComplete op => Sys2Proof.Machine.execTdeComplete op s
  | .packetReceive vf fe bytes => Sys2Proof.Machine.execPacketReceive vf fe bytes s
  | .cmdLaunch fe => Sys2Proof.Machine.execCmdLaunch fe s
  | .launchFitStart fe => Sys2Proof.Machine.execLaunchFitStart fe s
  | .launchComplete launch => Sys2Proof.Machine.execLaunchComplete launch s
  | .cmdCopy fe => Sys2Proof.Machine.execCmdCopy fe s
  | .copyCmdComplete cmd => Sys2Proof.Machine.execCopyCmdComplete cmd s
  | .cmdWait fe => Sys2Proof.Machine.execCmdWait fe s
  | .cmdSignal fe => Sys2Proof.Machine.execCmdSignal fe s
  | .signalStore cmd => Sys2Proof.Machine.execSignalStore cmd s
  | .cmdMap fe => Sys2Proof.Machine.execCmdMap fe s
  | .mapComplete cmd => Sys2Proof.Machine.execMapComplete cmd s
  | .cmdStopSuspend fe => Sys2Proof.Machine.execCmdStopSuspend fe s
  | .cmdStopTerminate fe => Sys2Proof.Machine.execCmdStopTerminate fe s
  | .cmdStopResume fe => Sys2Proof.Machine.execCmdStopResume fe s
  | .drainExpiry blk => Sys2Proof.Machine.execDrainExpiry blk s
  | .blockSaved blk => Sys2Proof.Machine.execBlockSaved blk s
  | .blockRestore blk => Sys2Proof.Machine.execBlockRestore blk s
  | .contextSwapOut fe => Sys2Proof.Machine.execContextSwapOut fe s
  | .contextSwapIn fe cbase => Sys2Proof.Machine.execContextSwapIn fe cbase s
  | .blockPlace fe => Sys2Proof.Machine.execBlockPlace fe s
  | .strandSelectable blk => Sys2Proof.Machine.execStrandSelectable blk s
  | .blockRetire blk => Sys2Proof.Machine.execBlockRetire blk s
  | .screenVerdict blk => Sys2Proof.Machine.execScreenVerdict blk s
  | .icacheFill core va => Sys2Proof.Machine.execIcacheFill core va s
  | .demandPageHash fe va => Sys2Proof.Machine.execDemandPageHash fe va s
  | .objectLoad fe va tagTable => Sys2Proof.Machine.execObjectLoad fe va tagTable s
  | .hostMemoryWrite fe pa bytes => Sys2Proof.Machine.execHostMemoryWrite fe pa bytes s
  | .hostMemoryRead fe pa len => Sys2Proof.Machine.execHostMemoryRead fe pa len s
  | .mgmtPartitionWrite fe rec => Sys2Proof.Machine.execMgmtPartitionWrite fe rec s
  | .mgmtPartitionDisable fe => Sys2Proof.Machine.execMgmtPartitionDisable fe s
  | .mgmtPrivilegedVector fe va => Sys2Proof.Machine.execMgmtPrivilegedVector fe va s
  | .mgmtWindows fe win w => Sys2Proof.Machine.execMgmtWindows fe win w s
  | .mgmtReductionGroups fe group g => Sys2Proof.Machine.execMgmtReductionGroups fe group g s
  | .mgmtReductionGrant n => Sys2Proof.Machine.execMgmtReductionGrant n s
  | .mgmtTelemetry fe cfg => Sys2Proof.Machine.execMgmtTelemetry fe cfg s
  | .mgmtStatusBlock fe addr => Sys2Proof.Machine.execMgmtStatusBlock fe addr s
  | .mgmtPowerLimit watts => Sys2Proof.Machine.execMgmtPowerLimit watts s
  | .mgmtAgeingMeasure r => Sys2Proof.Machine.execMgmtAgeingMeasure r s
  | .mgmtRetire u n => Sys2Proof.Machine.execMgmtRetire u n s
  | .ageingPeriodicRead rs => Sys2Proof.Machine.execAgeingPeriodicRead rs s
  | .powerCapAdjust cluster step => Sys2Proof.Machine.execPowerCapAdjust cluster step s
  | .powerOn => Sys2Proof.Machine.execPowerOn s
  | .enterReducedService => Sys2Proof.Machine.execEnterReducedService s
  | .enterFullService => Sys2Proof.Machine.execEnterFullService s
  | .portTrain u n ok => Sys2Proof.Machine.execPortTrain u n ok s
  | .portDown n => Sys2Proof.Machine.execPortDown n s
  | .portUp n => Sys2Proof.Machine.execPortUp n s
  | .flitCrcReplay port => Sys2Proof.Machine.execFlitCrcReplay port s
  | .ethLink port up => Sys2Proof.Machine.execEthLink port up s
  | .weftRetransmit port => Sys2Proof.Machine.execWeftRetransmit port s
  | .weftAccessTimeout acc => Sys2Proof.Machine.execWeftAccessTimeout acc s
  | .pcSample core => Sys2Proof.Machine.execPcSample core s
  | .mxsqComplete op => Sys2Proof.Machine.execMxsqComplete op s
  | .mxcClearComplete op => Sys2Proof.Machine.execMxcClearComplete op s
  | .deviceFatal => Sys2Proof.Machine.execDeviceFatal s

end Sys2Proof.Machine
end

