-- ==== Sys2Proof/Machine/Issue.lean ====
section
/-!
DEFINITION. Issuing (R23, R57, R219, R291, R315 to R318, R383): how a strand fetches, decodes and starts its next word, what else may happen by
itself in the device, and the order in which the model lets it happen when its schedule is empty (log 1).
-/
namespace Sys2Proof.Machine

/-! ## One word of one strand -/

/-- The cause with which a word that is no instruction traps (R79). -/
def causeOf : DecodeError → Cause
  | .illegalOpcode => Cause.illegalOpcode
  | .reservedField => Cause.reservedField

/-- A fetch meets a page that is not present (R219, R220): the strand is held at its PC. -/
def State.holdFetch (s : State) (r : StrandRef) (k : Strand) (b : Block) (la : Launch) : State :=
  let s := s.refault k.fetchHeld la.fe b.launch b.core k.pc.toNat 3 r.sid
  s.setStrand r { k with fetchHeld := .held, why := .parked, parked := k.mask }

/-- Run an instruction for a strand; where its group then stands, groups of one PC are one (R289). -/
def runWord (s : State) (r : StrandRef) (i : Instr) : Outcome :=
  match exec i { s with focus := some r } with
  | .next s => .next (({ s with focus := none } : State).modStrand r Strand.regroup)
  | o => o

/-- The threads active for a word by its guard fields alone, which every full word has at one place (R25, R58, R72). -/
def Strand.activeIn (k : Strand) (w : Dword) : Word :=
  if w.getLsbD 63 then k.activeFor (some (w.extractLsb' 50 3, w.extractLsb' 20 3)) 0 false
  else k.active (Hdr.ofWord w).g (Hdr.ofWord w).gn

/-- Decode a fetched word and run it; a word that is no instruction traps with every active thread (R56, R79).
DESIGN CHOICE (log 19): it traps where its guard leaves no thread active, too. -/
def decodeRun (s : State) (r : StrandRef) (k : Strand) (w : Dword) : Outcome :=
  match decode w with
  | .ok i => runWord s r i
  | .error e => .next (s.enterPriv r { k.report (causeOf e) k.pc 0 with mask := k.activeIn w })

/-- Fetch at a strand's PC, and what follows (R219, R359, R383). -/
def fetchRun (s : State) (r : StrandRef) (k : Strand) (b : Block) (la : Launch) : Outcome :=
  match s.fetchAt la.fe b.core k.pc with
  | .word w => decodeRun (s.modStrand r fun k => { k with fetchHeld := .no, parked := 0 }) r k w
  | .miss => .next ((s.modStrand r fun k => { k with fetchHeld := .no }).stall r .fetch)
  | .absent => .next (s.holdFetch r k b la)
  | .fault c => .next (s.enterPriv r (k.report c k.pc k.pc))

/-- The waits of a strand that the clock has ended: held groups and sleeping threads (R297, R299). -/
def State.lapse (s : State) (r : StrandRef) : State := (s.expire r fun _ => true).wakeSlept r

/-- The attempt of a strand's next word: holds whose bound has passed are released (R297); at an instruction boundary, what falls due there
comes first (R351); a word that waits is tried again. -/
def issueOne (s : State) (r : StrandRef) : Outcome :=
  let s := s.lapse r
  match s.strand? r, s.block? r.blk with
  | some k, some b =>
    match s.launch? b.launch with
    | none => .next s
    | some la =>
      if !(s.runs b && k.able) then .next s
      else if k.boundary then
        match s.comeToBoundary r k b with
        | (s, false) => .next s
        | (s, true) => match s.strand? r with | some k => fetchRun s r k b la | none => .next s
      else fetchRun s r k b la
  | _, _ => .next s

/-- The state that an outcome answers; the old one where it answers none. -/
def stateAfter (s : State) : Outcome → State
  | .next s' => s'
  | _ => s

/-! ## When a strand acts next -/

/-- The first cycle of a cluster that is not before an instant of device time. -/
def Cluster.cycleAt (c : Cluster) (ns : Nat) : Nat := c.cycBase + ceilDiv ((ns - c.nsBase) * c.rate) 8

/-- The cycle of a strand's next attempt (R28, R308): not before its own time, its lane's and its block's, nor, with every group held or its
threads asleep, before the bound has passed (R297, R299). -/
def State.attemptAt (s : State) (b : Block) (k : Strand) : Nat :=
  let t := max (max (s.clock b.core) (s.lanes.getD (laneKey b k) {}).next) k.soonest
  let t := if s.ns < b.selectable then max t ((s.cluster b.core).cycleAt b.selectable) else t
  let t := match (k.groups.filterMap Group.hold).min? with
    | some h => if k.mask = 0 then max t (h + 1) else t
    | none => t
  match (k.sleepers.filterMap fun e => if e.2.waita.isNone then e.2.till else none).min? with
  | some u => max t ((s.cluster b.core).cycleAt u)
  | none => t

/-- What a strand does next: it starts a word or enters a handler (`starts`), which takes its lane, or it acts without a start, as an arrival
does; the cycle on its core. -/
structure Act where
  r      : StrandRef
  core   : Nat
  lane   : Nat
  starts : Bool
  cyc    : Nat
  /-- a start: the lane as it chose -/
  view   : List LaneStrand := []
  /-- no act of a strand but a sample that its core takes (R381) -/
  sample : Bool := false
  deriving DecidableEq, Repr

/-- The state but for what a stalled attempt records of the strand (R381). -/
def State.unstalled (s : State) (r : StrandRef) : State :=
  ({ s with fresh := 0 } : State).modStrand r fun k => { k with why := .issued, parked := 0 }

/-- A strand takes a cause at its boundary before its next word (R351). -/
def State.dueAtBoundary (s : State) (r : StrandRef) : Bool :=
  match s.strand? r, s.block? r.blk with
  | some k, some b => k.boundary && !(s.comeToBoundary r k b).2
  | _, _ => false

/-- The word that a strand comes to at its PC; none where a cause at the boundary comes first, or the word is not there. -/
def State.nextWord? (s : State) (r : StrandRef) : Option Dword :=
  match s.strand? r, s.block? r.blk with
  | some k, some b =>
    let (s, ok) := if k.boundary then s.comeToBoundary r k b else (s, true)
    if !ok then none
    else (s.strand? r).bind fun k => match s.fetchAt (((s.launch? b.launch).map Launch.fe).getD 0) b.core k.pc with
      | .word w => some w
      | _ => none
  | _, _ => none

/-- The cycle at which a strand enters a handler whose attempt is due in cycle `t`: the entry for a cause that falls due at the boundary waits for every
fixed-latency result (R76, R321), and a word with U = 0 that traps for the lane's FMA slots (R315). -/
def State.entryCycle (s : State) (r : StrandRef) (k : Strand) (lane : Lane) (t : Nat) : Nat :=
  if s.dueAtBoundary r then max t k.settled
  else if (s.nextWord? r).any fun w => !uniformWord w then max t lane.busy else t

/-- What the attempt of a strand's next word does; none where it waits. The entry to a handler is a start, and a word that traps has started. -/
def State.act? (s : State) (r : StrandRef) : Option Act :=
  match s.strand? r, s.block? r.blk with
  | some k, some b =>
    let t := s.attemptAt b k
    let s0 := s.reachCycle b.core t
    let s1 := stateAfter s0 (issueOne s0 r)
    let lane := s0.lanes.getD (laneKey b k) {}
    let next := (s1.lanes.getD (laneKey b k) {}).next
    if next != lane.next then some ⟨r, b.core, k.lane, true, next - 1, [], false⟩
    else if (s1.strand? r).all fun k1 => (k1.ph && !k.ph) || (k1.uh && !k.uh) then 
      some ⟨r, b.core, k.lane, true, (s0.lapse r).entryCycle r k lane t, [], false⟩
    else if s1.unstalled r = s0.unstalled r then none
    else some ⟨r, b.core, k.lane, false, t, [], false⟩
  | _, _ => none

/-- The cycle of a strand's start among what the strands do next, apart from its lane's choice. -/
def startIn (xs : List Act) (r : StrandRef) : Option Nat := (xs.find? fun x => x.r == r && x.starts).map Act.cyc

/-- The cycle at which a strand's word could start, were its lane's FMA slots free. -/
def State.freeStart (s : State) (r : StrandRef) (core lane : Nat) : Option Nat :=
  let key := core * 16 + lane
  startIn (({ s with lanes := s.lanes.put key { s.lanes.getD key {} with busy := 0 } } : State).act? r).toList r

/-- The strands that reside on a lane. -/
def State.onLane (s : State) (core lane : Nat) : List (StrandRef × Strand) :=
  s.strands.filter fun e => e.2.lane == lane && !e.2.ended && (s.block? e.1.blk).any fun b => b.core == core && b.life != .saved

/-- A lane as it chooses (R315): weights are those of its next start. -/
def State.laneView (s : State) (xs : List Act) (core lane : Nat) : List LaneStrand :=
  let es := (s.onLane core lane).map fun e => (e, startIn xs e.1)
  let t := ((es.filterMap Prod.snd).min?).getD 0
  es.filterMap fun x =>
    match s.block? x.1.1.blk with
    | none => none
    | some b => (s.launch? b.launch).map fun la =>
      { r := x.1.1, p := x.1.2.passP, h := x.1.2.passH, prio := la.prio, slot := x.1.2.slot, weight := weightOf b la x.1.1.sid t
        start := x.2, ready := match x.2 with | some u => if u ≤ t then x.2 else s.freeStart x.1.1 core lane | none => none }

/-- A lane's next start (R315, R317): the first cycle in which one of its strands is eligible, and the strand that it then chooses. -/
def State.laneAct (s : State) (xs : List Act) (core lane : Nat) : Option Act :=
  let view := s.laneView xs core lane
  match (view.filterMap LaneStrand.start).min? with
  | none => none
  | some t => (chosen (view.filter (·.eligibleAt t)) (s.lanes.getD (core * 16 + lane) {}).last).map fun x => ⟨x.r, core, lane, true, t, view, false⟩

/-- The lanes on which strands reside. -/
def State.lanesUsed (s : State) : List (Nat × Nat) :=
  (s.strands.filterMap fun e => (s.block? e.1.blk).bind fun b => if b.life == .saved || e.2.ended then none else some (b.core, e.2.lane)).eraseDups

/-- The samples that cores take next (R381): each at the next cycle that is a multiple of the period, after what starts in that cycle. -/
def State.sampleActs (s : State) : List Act :=
  s.fes.flatMap fun e => if e.2.sampleK = 0 then [] else
    (e.2.cores.filter fun c => s.ownerOf c == some e.1).map fun c =>
      { r := ⟨0, 32⟩, core := c, lane := 0, starts := false, sample := true
        cyc := max (s.clock c) (((s.core c).sampleAt / 2 ^ e.2.sampleK + 1) * 2 ^ e.2.sampleK) }

/-- Everything that happens next by the cycles of the cores: each lane's start, what strands do without one, and samples. -/
def State.acts (s : State) : List Act :=
  let xs := s.strands.filterMap fun e => s.act? e.1
  s.lanesUsed.filterMap (fun x => s.laneAct xs x.1 x.2) ++ xs.filter (fun x => !x.starts) ++ s.sampleActs

/-- The instant of an act, in ns. -/
def State.actNs (s : State) (x : Act) : Nat := max s.ns ((s.cluster x.core).nsAt x.cyc)

/-- `x` comes before `y`: by device time, by the cycles of a clock domain that they share, and in one cycle of a block by sid (R266). -/
def State.before (s : State) (x y : Act) : Bool :=
  s.actNs x < s.actNs y
    || (s.actNs x == s.actNs y && clusterOf x.core == clusterOf y.core
      && (x.cyc < y.cyc || (x.cyc == y.cyc && x.r.blk == y.r.blk && x.r.sid < y.r.sid)))

/-- The act that comes first; among those that nothing orders, the first of the list. -/
def State.firstAct (s : State) : List Act → Option Act
  | [] => none
  | x :: xs => some (xs.foldl (fun b y => if s.before y b then y else b) x)

/-- What the device's strands do next; `r` is preferred among acts that nothing orders. -/
def State.nextAct (s : State) (r : Option StrandRef) : Option Act :=
  let xs := s.acts
  s.firstAct (xs.filter (fun x => some x.r == r) ++ xs.filter fun x => some x.r != r)

/-- A lane after the start of an act (R316): the word itself has taken it, or else the handler's entry takes its cycle; the lane's other strands
count. `old` is the lane before. -/
def State.tookLane (s : State) (x : Act) (old : Lane) : State :=
  let key := x.core * 16 + x.lane
  let lane := s.lanes.getD key {}
  let slot := ((x.view.find? fun y => y.r == x.r).map LaneStrand.slot).getD old.last
  let s := if lane.next ≤ x.cyc then { s with lanes := s.lanes.put key { lane with next := x.cyc + 1, last := slot } } else s
  s.passOver x.view x.r x.cyc old.last

/-- The reason for which a strand starts no word in this cycle (R381). -/
def State.reason (s : State) (r : StrandRef) (k : Strand) : Stall :=
  match s.block? r.blk with
  | none => k.why
  | some b =>
    let lane := s.lanes.getD (laneKey b k) {}
    let now := s.clock b.core
    if lane.next = now + 1 && lane.last = k.slot then .issued
    else if now < k.soonest || (b.life == .halting && now < k.settled) then .stallCount
    else match s.freeStart r b.core k.lane with
      | some t => if max now lane.next < t then .stallCount else if k.why == .yielded && lane.next = now + 1 then .yielded else .laneBusy
      | none => ((stateAfter s (issueOne s r)).strand? r).elim k.why Strand.why

/-- What a sample would show of the strands (R381): each has its reason in this cycle. -/
def State.observe (s : State) : State :=
  s.strands.foldl (fun s e => s.modStrand e.1 fun k => { k with why := s.reason e.1 e.2 }) s

/-- Carry out what comes next, at its instant. -/
def State.doAct (s : State) (x : Act) : Outcome :=
  if x.sample then execPcSample x.core (s.reachCycle x.core x.cyc).observe
  else match issueOne (s.reachCycle x.core x.cyc) x.r with
  | .next s' => .next (if x.starts then s'.tookLane x (s.lanes.getD (x.core * 16 + x.lane) {}) else s')
  | o => o

/-! ## Turns -/

/-- The turn of a strand: what comes first in the device happens, and the turn stays listed until it is the strand's own; a strand that waits
tries its word. -/
def issueTurn (s : State) (r : StrandRef) (rest : List Turn) : Outcome :=
  match s.nextAct (some r) with
  | none => issueOne { s with turns := rest } r
  | some x =>
    if x.r == r && !x.sample then ({ s with turns := rest } : State).doAct x
    else if (s.act? r).isNone then issueOne { s with turns := rest } r
    else s.doAct x

/-- The device time to which an event lets time pass: what strands do before it comes first. A placement comes after the whole ns in which it is made
(R313). -/
def State.passesTo (s : State) : Instr → Option Nat
  | .heartbeatTick => some s.nextBeat
  | .blockPlace _ | .blockRestore _ => some (s.ns + 1)
  | .strandSelectable blk => (s.block? blk).map Block.selectable
  | _ => none

/-- An event that samples the strands. -/
def samples : Instr → Bool
  | .pcSample _ => true
  | _ => false

/-- The strand's next act is to take its TIMER (R301, R321). -/
def State.firesTimer (s : State) (r : StrandRef) : Bool :=
  match s.act? r, s.block? r.blk with
  | some x, some b =>
    let s := (s.reachCycle x.core x.cyc).lapse r
    s.dueAtBoundary r && (s.strand? r).any (s.timerDue b)
  | _, _ => false

/-- The turn of an event: time does not pass what strands do before (R315). TIMER_FIRE comes as its strand's start, which its lane chooses (R321). A word of
the instruction set is no event. -/
def eventTurn (s : State) (e : Instr) (rest : List Turn) : Outcome :=
  if e.form.isSome then .next { s with turns := rest }
  else match e with
  | .timerFire r => if s.firesTimer r then issueTurn s r rest else .next { s with turns := rest }
  | _ => match (s.passesTo e).bind fun t => (s.nextAct none).bind fun x => if s.actNs x < t then some x else none with
    | some x => s.doAct x
    | none => exec e (if samples e then ({ s with turns := rest } : State).observe else { s with turns := rest })

/-! ## When the schedule is empty -/

/-- The first unit of a copy that has not been moved. -/
def EngOp.nextCell (o : EngOp) : Nat := ((List.range (o.cells + 1)).find? fun i => !o.moved.contains i).getD 0

/-- What may happen by itself in the memory system and the engines. -/
def State.engineEvents (s : State) : List Instr :=
  s.accs.map (fun e => .accessPerformed e.1)
    ++ (s.quorums ++ s.echoes).flatMap (fun e => (List.range 5).map fun i => .quorumAnswer e.1 i)
    ++ s.samples.map (fun e => .sampleResult e.1)
    ++ s.services.flatMap (fun e => [.texbComplete e.1, .tdeComplete e.1])
    ++ s.ops.flatMap fun e =>
      [.recordFreedStart e.1, .copyAccept e.1, .copyUnitWritten e.1 e.2.nextCell, .copyComplete e.1, .cplFollowOnIssue e.1
      , .mxswExchange e.1, .mxbComplete e.1, .mmaCommit e.1, .mxdComplete e.1, .mxsqComplete e.1, .mxcClearComplete e.1]

/-- What may happen by itself to strands and blocks. -/
def State.blockEvents (s : State) : List Instr :=
  s.strands.flatMap (fun e =>
      .sleepExpiry e.1 :: e.2.sleepers.map (fun z => .waitaBoundExpiry e.1 z.1)
        ++ (e.2.groups.filter fun g => g.hold.isSome).map fun g => .rcvExpired e.1 g.pc)
    ++ s.blocks.flatMap (fun e => [.queueStalled e.1, .queueDeadlock e.1, .drainExpiry e.1, .blockSaved e.1, .blockRetire e.1, .blockRestore e.1])
    ++ (s.strands.filter fun e => e.2.able).flatMap (fun e => match s.block? e.1.blk with
      | some b =>
        let fe := ((s.launch? b.launch).map Launch.fe).getD 0
        let at_ := s.fetchPc fe b.core e.2
        if s.fetchAt fe b.core at_ = .miss then [.demandPageHash fe at_.toNat, .icacheFill b.core at_.toNat] else []
      | none => [])

/-- What may happen by itself in the front ends. -/
def State.frontEvents (s : State) : List Instr :=
  s.launches.map (fun e => .launchComplete e.1)
    ++ s.fes.flatMap (fun e =>
      [.cmdLaunch e.1, .cmdCopy e.1, .cmdWait e.1, .cmdSignal e.1, .cmdMap e.1, .cmdStopSuspend e.1, .cmdStopTerminate e.1, .cmdStopResume e.1
      , .launchFitStart e.1, .blockPlace e.1]
      ++ e.2.cmds.flatMap fun c => [.copyCmdComplete c.1, .signalStore c.1, .mapComplete c.1])

/-- The first event of a list that changes the state. -/
def firstEvent (s : State) : List Instr → Option State
  | [] => none
  | e :: es =>
    let s' := stateAfter s (eventTurn s e [])
    if s' = s then firstEvent s es else some s'

/-- Sleeping threads read their words again (R261). -/
def State.rereadAll (s : State) : State :=
  s.strands.foldl (fun s e => e.2.sleepers.foldl (fun s z => s.waitaRead e.1 z.1) s) s

/-- A heartbeat tick, with the readings that fall due by then. -/
def State.tick (s : State) : State := (stateAfter s (execHeartbeatTick s)).rereadAll

/-- With nothing else to do, sleeping threads read again; where none wakes, device time passes to the next heartbeat tick. -/
def State.idle (s : State) : State :=
  let s' := s.rereadAll
  if s'.strands ≠ s.strands then s' else s.tick

/-- The turn that the model takes when its schedule is empty (log 1): what memory, engines, blocks and front ends have to do, then
what the strands do next, then the passing of time. -/
def defaultTurn (s : State) : State :=
  if s.beatNs + 256 ≤ s.ns then s.tick
  else match firstEvent s (s.engineEvents ++ s.blockEvents ++ s.frontEvents) with
    | some s' => s'
    | none =>
      match s.nextAct none with
      | some x => if s.actNs x < s.nextBeat then stateAfter s (s.doAct x) else s.idle
      | none => s.idle

end Sys2Proof.Machine
end

