-- ==== Sys2Proof/Machine/Step.lean ====
section
/-!
DEFINITION. One step of the device (log 1): the next turn of the schedule, or the model's default turn. And the state in which
the next step runs a given word.
-/
namespace Sys2Proof.Machine

/-- A step begins: the free values of each step are drawn for themselves (log 3). -/
def State.tock (s : State) : State := { s with fresh := s.fresh + 1 }

/-- One step. -/
def step (s : State) : Host.Outcome State Fault Refusal :=
  match s.turns with
  | .issue r :: rest => issueTurn s.tock r rest
  | .event e :: rest => eventTurn s.tock e rest
  | .upset u :: rest => .next (({ s.tock with turns := rest } : State).upset u)
  | [] => .next (defaultTurn s.tock)

/-- The state with one strand of 32 threads whose next word is the given one, and which the next step issues. -/
def State.withFetchWord (s : State) (nbits w : Nat) : State := s.benchWord (BitVec.ofNat 64 (w % 2 ^ min nbits 64))

end Sys2Proof.Machine
end

