-- ==== Sys2Proof/Safety.lean ====
section
/-!
DEFINITION. The terms in which claims are made: when a word may go on, what registers a word delivers, what it leaves as it was, and the
form that every state of a safe run has.
-/
namespace Sys2Proof.Machine
open Sys2Proof.Fp (Jet)

/-! ## When a word may go on -/

/-- The strand of `c` has the focus; no request is pending on a register that its word names (R74), the masks that the word reads have good
parity (R354), no register that it reads holds an uncorrectable error (R355), and what it reads is written by the strand's next start (R73,
R75). A launch declares at most 8 tangents (R37). -/
structure Ready (s : State) (c : Ctx) (reads writes : List Loc) : Prop where
  focus  : s.ctx? = some c
  free   : ∀ l ∈ reads ++ writes, s.pending c.r l = false
  parity : ∀ m, Loc.m m ∈ reads → c.k.badParity m = false
  clean  : ∀ e ∈ c.k.bad, e.1 ∉ reads
  timely : ∀ l ∈ c.k.late, l.loc ∈ reads → l.timely ≤ c.k.ready
  names  : c.la.d ≤ 8

/-- The guard register of a header (R25). -/
def Hdr.guard (h : Hdr) : List Loc := if h.g = 0 then [] else [.m h.g.toNat]

/-- The registers of vector operands: V, or S under U = 1 (R60). -/
def vecLocs (u : Bool) (rs : List Nat) : List Loc := rs.map (locOf u)

/-- Register numbers that the launch has (R60): below N, or S registers under U = 1. -/
def InRange (c : Ctx) (u : Bool) (rs : List Nat) : Prop := ∀ r ∈ rs, if u then r < 64 else r < c.la.nregs

/-- The context as the word sees it: its active threads and its start. -/
def Ctx.seen (c : Ctx) (act : Word) (start : Nat) : Ctx := { c with act := act, start := start }

/-! ## What a word leaves as it was -/

/-- A strand without its registers, its flags, its signature and what issuing a word changes (R28, R52, R73, R316). -/
def Strand.fixed (k : Strand) : Strand :=
  { k with v := [], s := [], m := [], mpar := 0, bad := [], fpflags := 0, pc := 0, sig := 0, late := [], ready := 0, why := .issued, passP := 0,
           passH := 0, wait := .none, parked := 0, stepDue := none, entry := false,
           drain := false }

/-- A strand without the counts that other strands' starts change (R316, R381). -/
def Strand.unpassed (k : Strand) : Strand := { k with why := .issued, passP := 0, passH := 0 }

/-- A device without its strands, front ends, cores and lanes, and without its time. -/
def State.fixed (s : State) : State := { s with strands := [], fes := [], cores := [], lanes := [], ns := 0 }

/-- Nothing has changed but the strand `r`, the counters of R382, device time and the lanes' bookkeeping: every other strand, every front
end, core, block (with its pad, barriers and queues), launch, pending request and engine operation is as before, and every byte of every
memory reads as before. -/
structure Alone (s t : State) (r : StrandRef) : Prop where
  strands : ∀ q, q ≠ r → (t.strand? q).map Strand.unpassed = (s.strand? q).map Strand.unpassed
  fes     : ∀ f, { t.fe f with counters := [] } = { s.fe f with counters := [] }
  cores   : ∀ n, { t.core n with reached := 0 } = { s.core n with reached := 0 }
  rest    : t.fixed = s.fixed
  bytes   : ∀ a, Cells.get t.mem a = Cells.get s.mem a
  time    : s.ns ≤ t.ns

/-- A completed word that does not move the groups: the strand goes on at the next word, its signature has folded the word (R52), the
launch's other strands and the device are as before, and the strand keeps its special registers and its handles. -/
structure Completed (i : Instr) (s : State) (c : Ctx) (t : State) (k : Strand) : Prop where
  next   : exec i s = .next t
  strand : t.strand? c.r = some k
  pc     : k.pc = c.k.pc + 8
  sig    : k.sig = foldWord c.k.sig (foldOf i)
  alone  : Alone s t c.r
  fixed  : k.fixed = c.k.fixed

/-! ## What registers a word delivers -/

/-- What a register receives from a thread's deliveries, if the thread is active. -/
def received (act : Word) (out : Nat → List (Nat × Jet)) (r t : Nat) : Option Jet :=
  if act.getLsbD t then (out t).lookup r else none

/-- The V and S registers after a word whose thread `t` delivers `out t`. With U = 0 each active thread's registers hold the delivered
values, and jet registers the delivered components (R103, R104); with U = 1 the S registers hold what is delivered once (R26); every other
register is as before. -/
structure Delivered (c : Ctx) (u : Bool) (act : Word) (k : Strand) (out : Nat → List (Nat × Jet)) : Prop where
  vec : u = false → ∀ r t, t < 32 → match received act out r t with
    | some j => k.vGet r t = j.v ∧ (r < c.la.jregs → ∀ i < c.d, k.compGet r t i = j.comp i)
    | none => k.vGet r t = c.k.vGet r t ∧ ∀ i < 15, k.compGet r t i = c.k.compGet r t i
  vecU : u = true → k.v = c.k.v
  scal : u = true → ∀ r, k.sGet r = match (if act = 0 then none else (out 0).lookup r) with
    | some j => j.v
    | none => c.k.sGet r
  scalV : u = false → k.s = c.k.s

/-- The threads that raise IV. -/
def raisesIV (u : Bool) (act : Word) (fl : Nat → Fp.Flags) : Prop :=
  if u then act ≠ 0 ∧ hasIV (fl 0) else ∃ t < 32, act.getLsbD t ∧ hasIV (fl t)

/-- The flags after a word whose thread `t` raises `fl t` (R85): a flag is set when it was set or a computing thread raises it. -/
def Raised (u : Bool) (act : Word) (old new : Fp.Flags) (fl : Nat → Fp.Flags) : Prop :=
  ∀ i < 6, new.getLsbD i = true ↔ (old.getLsbD i = true ∨ if u then act ≠ 0 ∧ (fl 0).getLsbD i else ∃ t < 32, act.getLsbD t ∧ (fl t).getLsbD i)

/-- A word that computes thread by thread completes: for every strand that is ready for it, with every register that it names in range,
each computing thread delivers `out` and raises `fl`, and the masks are as before. Where the trap on IV is enabled (R87), no thread raises
IV. `c'` is the word's context. -/
def Computes (i : Instr) (h : Hdr) (reads writes : List Loc) (ok : Ctx → Prop) (out : Ctx → Nat → List (Nat × Jet))
    (fl : Ctx → Nat → Fp.Flags) : Prop :=
  ∀ s c, Ready s c (Hdr.guard h ++ reads) writes → ok c →
    ∃ start, c.k.ready ≤ start ∧ s.clock c.b.core ≤ start ∧
      let act := c.k.active h.g h.gn
      let c' := c.seen act start
      (c.k.ivt = true → ¬ raisesIV h.u act (fl c')) →
      ∃ t k, Completed i s c t k ∧ Delivered c h.u act k (out c') ∧ Raised h.u act c.k.fpflags k.fpflags (fl c')
        ∧ k.m = c.k.m ∧ k.mpar = c.k.mpar

/-- A word whose threads deliver one value each in register `d`, without a flag: its components are +0 (R103). -/
def ComputesWord (i : Instr) (h : Hdr) (d : BitVec 7) (reads : List Loc) (ok : Ctx → Prop) (val : Ctx → Nat → Word) : Prop :=
  Computes i h reads [locOf h.u d.toNat] ok (fun c t => [(d.toNat, .flat (val c t))]) fun _ _ => 0

/-- A word that writes the mask `d` completes: the bit of each active thread is what the thread delivers, under U = 1 the strand's one
result in every thread of M0 (R130); other bits and registers are as before. -/
def ComputesMask (i : Instr) (h : Hdr) (d : BitVec 7) (reads : List Loc) (ok : Ctx → Prop) (val : Ctx → Nat → Bool)
    (fl : Ctx → Nat → Fp.Flags) : Prop :=
  ∀ s c, Ready s c (Hdr.guard h ++ reads) [.m d.toNat] → d ≠ 0 → ok c →
    let act := c.k.active h.g h.gn
    let c' := c.seen act 0
    (c.k.ivt = true → ¬ raisesIV h.u act (fl c')) →
    ∃ t k, Completed i s c t k ∧ Raised h.u act c.k.fpflags k.fpflags (fl c') ∧ k.v = c.k.v ∧ k.s = c.k.s
      ∧ (∀ m, m ≠ d.toNat → k.mGet m = c.k.mGet m)
      ∧ ∀ th < 32, (k.mGet d.toNat).getLsbD th = if h.u then (if act ≠ 0 ∧ c.k.mask.getLsbD th then val c' 0 else (c.k.mGet d.toNat).getLsbD th)
          else if act.getLsbD th then val c' th else (c.k.mGet d.toNat).getLsbD th

/-! ## What a word does beside its registers -/

/-- A word that has had its effect `e` on the device and is completed in `t` (R28, R52): beyond the effect, the strand goes on at the next
word (unless the word moves the groups: then where the effect left it) and has folded the word (unless the effect did), and nothing else
changes but the counters, device time and the lanes. -/
def Finishes (i : Instr) (c : Ctx) (e t : State) (moves folded : Bool) : Prop :=
  ∃ k0 k, e.strand? c.r = some k0 ∧ t.strand? c.r = some k ∧ Alone e t c.r ∧ k.fixed = k0.fixed
    ∧ k.v = k0.v ∧ k.s = k0.s ∧ k.m = k0.m ∧ k.mpar = k0.mpar ∧ k.fpflags = k0.fpflags
    ∧ k.pc = (if moves then k0.pc else k0.pc + 8) ∧ k.sig = if folded then k0.sig else foldWord k0.sig (foldOf i)

/-- A word completes with the effect `e`: some start is not before the strand's and the core's time, and the next state is the effect in the
context at that start, completed. -/
def Effects (i : Instr) (s : State) (c : Ctx) (act : Word) (e : Ctx → State) (moves folded : Bool := false) : Prop :=
  ∃ start t, c.k.ready ≤ start ∧ s.clock c.b.core ≤ start ∧ exec i s = .next t ∧ Finishes i c (e (c.seen act start)) t moves folded

/-- A word that completes with the effect `e` and is followed by a trap at the word where the strand goes on (R352). -/
def EffectsThenTraps (i : Instr) (s : State) (c : Ctx) (act : Word) (e : Ctx → State) (cause : Cause) : Prop :=
  ∃ start u, c.k.ready ≤ start ∧ s.clock c.b.core ≤ start ∧ Finishes i c (e (c.seen act start)) u false false
    ∧ exec i s = .next (u.enterPriv c.r { cause, mask := act, resume := c.k.pc + 8, fpc := c.k.pc, region := c.k.region })

/-- A word traps with a cause and without any effect (R352): the strand enters its privileged handler with the threads of `mask`. -/
def Traps (i : Instr) (s : State) (c : Ctx) (cause : Cause) (mask : Word) (va : Dword := 0) (detail : Nat := 0) : Prop :=
  exec i s = .next (s.enterPriv c.r { cause, mask, resume := c.k.pc, fpc := c.k.pc, va, detail, region := c.k.region })

/-- The strand's context changed in its strand alone. -/
def Ctx.with (c : Ctx) (k : Strand) : State := c.s.setStrand c.r k

/-! ## Safe runs -/

/-- The form that every state of a run has: device, host and remote memory stand in their canonical form; a device in service has had both
signatures checked, and one in full service has every die-to-die link and every stack trained (R377). -/
structure State.Inv (s : State) : Prop where
  mem     : Memory.wf s.mem = true
  host    : Memory.wf s.host = true
  remote  : Memory.wf s.remote = true
  signed  : s.service = .reduced ∨ s.service = .full → Config.firmwareSigOk = true ∧ Config.configSigOk = true
  trained : s.service = .full → s.dieLinks = BitVec.allOnes 4 ∧ s.hbmStacks = BitVec.allOnes 12

/-- S registers that fields name (R60): bit 6 is 0. -/
def sNamed (rs : List (BitVec 7)) : Prop := ∀ r ∈ rs, r.toNat < 64

/-- Even fields: the low registers of pairs (R53). -/
def evens (rs : List (BitVec 7)) : Prop := ∀ r ∈ rs, r.toNat % 2 = 0

end Sys2Proof.Machine
end

