-- ==== Sys2Proof/Certificates/Slice0/Obligations.lean ====
section
/-!
DEFINITION. The statements about the machine, each a proposition for the provers, and the terms in which they say what the rules give.
-/
namespace Sys2Proof.Claims
open Sys2Proof Sys2Proof.Machine Sys2Proof.Fp

/-! ## Terms -/

/-- Register numbers of operand fields. -/
def nums (rs : List (BitVec 7)) : List Nat := rs.map BitVec.toNat

/-- The vector operands `rs` of an F or I word are in range (R60). -/
def inRange (h : Hdr) (rs : List (BitVec 7)) (c : Ctx) : Prop := InRange c h.u (nums rs)

/-- The registers that vector operands name. -/
def regs (h : Hdr) (rs : List (BitVec 7)) : List Loc := vecLocs h.u (nums rs)

/-- The A and B sources and the destination of an F word are in range; its A and B registers. -/
def okAB (x : F) : Ctx → Prop := inRange x.h (x.d :: x.a :: x.srcB)
def readsAB (x : F) : List Loc := regs x.h (x.a :: x.srcB)
def okA (x : F) : Ctx → Prop := inRange x.h [x.d, x.a]
def readsA (x : F) : List Loc := regs x.h [x.a]
def okABC (x : F) : Ctx → Prop := inRange x.h (x.d :: x.a :: x.c :: x.srcB)
def readsABC (x : F) : List Loc := regs x.h (x.a :: x.c :: x.srcB)

/-- Even pairs under R53 and R60: each register is even and the one above it is in range too. -/
def okPairs (h : Hdr) (rs : List (BitVec 7)) (c : Ctx) : Prop :=
  InRange c h.u (nums rs) ∧ InRange c h.u ((nums rs).map (· + 1)) ∧ ∀ r ∈ rs, r.toNat % 2 = 0

/-- An exact integer brought into the range from `lo` to `hi`. -/
def clamp (lo hi i : Int) : Int := if i < lo then lo else if hi < i then hi else i

/-- The word of an exact integer, modulo 2^32. -/
def wrap (i : Int) : Word := BitVec.ofInt 32 i

/-- An F word of one, two (A and B) or three sources that gives one word from the words of its sources. -/
def UnaryWord (i : Instr) (x : F) (f : Word → Word) : Prop :=
  ComputesWord i x.h x.d (readsA x) (okA x) fun c t => f (c.val x.h.u x.a t)
def BinaryWord (i : Instr) (x : F) (f : Word → Word → Word) : Prop :=
  ComputesWord i x.h x.d (readsAB x) (okAB x) fun c t => f (c.val x.h.u x.a t) (c.opB x t)
def TernaryWord (i : Instr) (x : F) (f : Word → Word → Word → Word) : Prop :=
  ComputesWord i x.h x.d (readsABC x) (okABC x) fun c t => f (c.val x.h.u x.a t) (c.opB x t) (c.val x.h.u x.c t)

/-- An I word that gives one word from its source. -/
def ImmediateWord (i : Instr) (x : I) (f : Word → Word) : Prop :=
  ComputesWord i x.h x.d (regs x.h [x.a]) (inRange x.h [x.d, x.a]) fun c t => f (c.val x.h.u x.a t)

end Sys2Proof.Claims

open Sys2Proof Sys2Proof.Machine Sys2Proof.Fp Sys2Proof.Claims

/-! ## Moves, integers, bits -/

/-- MOV into V registers (R123, R124): V←V copies the value and its components, V←S and MOVI one word into every active thread, V←M a mask. -/
def Sys2Proof.Claims.VectorMoves : Prop :=
  (∀ x : F, Computes (.movVV x) x.h (readsA x) [locOf x.h.u x.d.toNat] (okA x) (fun c t => [(x.d.toNat, c.jet x.h.u x.a t)]) fun _ _ => 0)
  ∧ (∀ x : F, ComputesWord (.movVS x) x.h x.d [.s x.a.toNat] (fun c => inRange x.h [x.d] c ∧ x.a.toNat < 64) fun c _ => c.k.sGet x.a.toNat)
  ∧ (∀ x : F, ComputesWord (.movVM x) x.h x.d [.m x.a.toNat] (inRange x.h [x.d]) fun c _ => c.k.mGet x.a.toNat)
  ∧ ∀ x : I, ComputesWord (.movi x) x.h x.d [] (inRange x.h [x.d]) fun _ _ => x.imm

/-- The immediate forms of R124. -/
def Sys2Proof.Claims.ImmediateForms : Prop := ∀ x : I,
  ImmediateWord (.iaddi x) x (fun a => wrap (a.toNat + x.imm.toNat)) ∧ ImmediateWord (.andi x) x (· &&& x.imm)
    ∧ ImmediateWord (.ori x) x (· ||| x.imm) ∧ ImmediateWord (.xori x) x (· ^^^ x.imm)

/-- IADD and ISUB (R125): wrapped, or saturated to s32 or to u32. -/
def Sys2Proof.Claims.AddAndSubtract : Prop := ∀ x : F,
  BinaryWord (.iadd 0 x) x (fun a b => wrap (a.toNat + b.toNat)) ∧ BinaryWord (.isub 0 x) x (fun a b => wrap (a.toNat - b.toNat))
    ∧ BinaryWord (.iadd 1 x) x (fun a b => wrap (clamp (-2 ^ 31) (2 ^ 31 - 1) (a.toInt + b.toInt)))
    ∧ BinaryWord (.isub 1 x) x (fun a b => wrap (clamp (-2 ^ 31) (2 ^ 31 - 1) (a.toInt - b.toInt)))
    ∧ BinaryWord (.iadd 2 x) x (fun a b => wrap (clamp 0 (2 ^ 32 - 1) (a.toNat + b.toNat)))
    ∧ BinaryWord (.isub 2 x) x (fun a b => wrap (clamp 0 (2 ^ 32 - 1) (a.toNat - b.toNat)))

/-- IMUL and IMAD (R125): the low word, the high word of the signed or unsigned product, and a × b + c. -/
def Sys2Proof.Claims.Products : Prop := ∀ x : F,
  BinaryWord (.imul 0 x) x (fun a b => wrap (a.toInt * b.toInt))
    ∧ BinaryWord (.imul 1 x) x (fun a b => ((a.signExtend 64 * b.signExtend 64).extractLsb' 32 32))
    ∧ BinaryWord (.imul 2 x) x (fun a b => ((a.setWidth 64 * b.setWidth 64).extractLsb' 32 32))
    ∧ TernaryWord (.imad x) x fun a b d => wrap (a.toInt * b.toInt + d.toInt)

/-- IMINMAX and IABS (R125): the lesser or the greater operand in signed or unsigned order; the absolute value, with −2^31 staying. -/
def Sys2Proof.Claims.MinMaxAbs : Prop := ∀ x : F,
  BinaryWord (.iminmax 0 x) x (fun a b => wrap (min a.toInt b.toInt)) ∧ BinaryWord (.iminmax 1 x) x (fun a b => wrap (max a.toInt b.toInt))
    ∧ BinaryWord (.iminmax 2 x) x (fun a b => wrap (min a.toNat b.toNat)) ∧ BinaryWord (.iminmax 3 x) x (fun a b => wrap (max a.toNat b.toNat))
    ∧ UnaryWord (.iabs x) x fun a => wrap a.toInt.natAbs

/-- IADDW and LEA (R125): the 64-bit sum of pairs, the low word in d; a + (b << s). -/
def Sys2Proof.Claims.WideSums : Prop := ∀ x : F,
  (let rs := x.a :: x.srcB
   let sum := fun (c : Ctx) (t : Nat) => (c.pair x.h.u x.a.toNat t).toNat + if x.bi then x.b.toNat else (c.pair x.h.u x.b.toNat t).toNat
   Computes (.iaddw x) x.h (vecLocs x.h.u (nums rs ++ (nums rs).map (· + 1))) (vecLocs x.h.u [x.d.toNat, x.d.toNat + 1])
     (okPairs x.h (x.d :: rs))
     (fun c t => [(x.d.toNat, .flat (wrap (sum c t))), (x.d.toNat + 1, .flat (wrap (sum c t / 2 ^ 32 : Nat)))]) fun _ _ => 0)
  ∧ BinaryWord (.lea x) x fun a b => wrap (a.toNat + b.toNat * 2 ^ x.modN 4 0)

/-- The integer arithmetic words (R125). -/
def Obligations.IntegerArithmetic : Prop := AddAndSubtract ∧ Products ∧ MinMaxAbs ∧ WideSums

/-- SHF (R127): a shift by 32 or more gives 0, or the sign in every bit; a rotation takes the amount modulo 32. -/
def Sys2Proof.Claims.Shifts : Prop := ∀ x : F,
  BinaryWord (.shf 0 x) x (fun a b => if b.toNat < 32 then wrap (a.toNat * 2 ^ b.toNat) else 0)
    ∧ BinaryWord (.shf 1 x) x (fun a b => if b.toNat < 32 then wrap (a.toNat / 2 ^ b.toNat) else 0)
    ∧ BinaryWord (.shf 2 x) x (fun a b => wrap (a.toInt / 2 ^ min b.toNat 31))
    ∧ BinaryWord (.shf 3 x) x (fun a b => a <<< (b.toNat % 32) ||| a >>> (32 - b.toNat % 32))
    ∧ BinaryWord (.shf 4 x) x fun a b => a >>> (b.toNat % 32) ||| a <<< (32 - b.toNat % 32)

/-- TWILL, BFX, BFI, POPC, CLZ and BREV (R126, R128), bit by bit. -/
def Sys2Proof.Claims.BitWords : Prop := ∀ x : F,
  let p := x.modN 9 5
  let l := x.modN 4 0 + 1
  TernaryWord (.twill x) x (fun a b d => maskOf fun i => (x.modN 7 0).testBit
      ((if a.getLsbD i then 1 else 0) + (if b.getLsbD i then 2 else 0) + if d.getLsbD i then 4 else 0))
    ∧ (p + l ≤ 32 → UnaryWord (.bfx x) x fun a => maskOf fun i =>
        if i < l then a.getLsbD (p + i) else x.mod.getLsbD 10 && a.getLsbD (p + l - 1))
    ∧ ComputesWord (.bfi x) x.h x.d (regs x.h [x.a, x.b]) (inRange x.h [x.d, x.a, x.b]) (fun c t => maskOf fun i =>
        if p ≤ i ∧ i < p + l then (c.val x.h.u x.a t).getLsbD (i - p) else (c.val x.h.u x.b t).getLsbD i)
    ∧ UnaryWord (.popc x) x (fun a => wrap ((List.range 32).countP fun i => a.getLsbD i))
    ∧ UnaryWord (.clz x) x (fun a => wrap (((List.range 32).find? fun n => a.getLsbD (31 - n)).getD 32))
    ∧ UnaryWord (.brev x) x fun a => maskOf fun i => a.getLsbD (31 - i)

/-- The shift and bit words (R126 to R128). -/
def Obligations.ShiftsAndBits : Prop := Shifts ∧ BitWords

/-! ## Selection, compares, masks, special values -/

namespace Sys2Proof.Claims

/-- The thread's first source where the bit of the mask `m` is `b`, else its second (R129). -/
def chosenJet (c : Ctx) (x : F) (t : Nat) : Jet :=
  if (c.k.mGet (x.modN 2 0)).getLsbD t = (!x.mod.getLsbD 3) then c.jet false x.a t
  else if x.bi then .flat (x.b.setWidth 32) else c.jet false x.b t

/-- The conditions of ICMP (R130). -/
def intHolds (fn : Fin 10) (a b : Word) : Bool :=
  match fn with
  | 0 => a = b | 1 => a ≠ b | 2 => a.slt b | 3 => a.sle b | 4 => b.slt a | 5 => b.sle a | 6 => a.ult b | 7 => a.ule b | 8 => b.ult a | 9 => b.ule a

/-- The conditions of FCMP (R130): lt, le, gt, ge, eq and ord are false with a NaN. -/
def floatHolds (fn : Fin 8) (a b : Fv) : Bool :=
  let ord := !a.isNan && !b.isNan
  match fn with
  | 0 => a.feq b | 1 => !a.feq b | 2 => a.lt b | 3 => ord && !b.lt a | 4 => b.lt a | 5 => ord && !a.lt b | 6 => ord | 7 => !ord

/-- The flags of FCMP (R130): IV for a signalling NaN, and for any NaN in lt, le, gt and ge. -/
def compareFlags (fn : Fin 8) (a b : Fv) : Flags :=
  if a.isSig || b.isSig || ((a.isNan || b.isNan) && (fn = 2 || fn = 3 || fn = 4 || fn = 5)) then IV else 0

/-- The mask word of an MSK form (R306). -/
def maskForm (fn : Fin 8) (a b : Word) (i : Nat) : Bool :=
  match fn with
  | 0 => a.getLsbD i && b.getLsbD i | 1 => a.getLsbD i || b.getLsbD i | 2 => a.getLsbD i != b.getLsbD i | 3 => !a.getLsbD i
  | 4 => a.getLsbD i && !b.getLsbD i | 5 => i < (List.range 32).countP fun j => a.getLsbD j
  | 6 => a.getLsbD i && (List.range i).all fun j => !a.getLsbD j
  | 7 => a.getLsbD i

/-- The value of a READ selector in a thread (R21, R35, R36). -/
def selectorValue (c : Ctx) (fn t : Nat) : Nat :=
  let tid := c.b.index * c.la.bdim + c.r.sid * 32 + t
  match fn with
  | 0x00 => tid | 0x01 => c.r.sid * 32 + t | 0x02 => c.r.sid | 0x03 => t | 0x04 => c.b.index | 0x05 => c.la.n
  | 0x06 => (c.la.n + c.la.bdim - 1) / c.la.bdim | 0x07 => c.la.bdim | 0x08 => c.b.core | 0x09 => c.b.core / 18 | 0x0A => c.b.core / 144
  | 0x0B => c.la.fe | 0x0C => c.start | 0x0D => max c.s.ns ((c.s.cluster c.b.core).nsAt c.start)
  | 0x0E => if c.la.raster = 0 then 0 else (rne32 (.ofInt (tid % c.la.raster))).code
  | 0x0F => if c.la.raster = 0 then 0 else (rne32 (.ofInt (tid / c.la.raster))).code
  | _ => c.la.time.toNat

/-- The components that READ seeds: +1 in the component of the tangent that the selector reads, where the launch declares it (R36). -/
def seeds (c : Ctx) (fn : Nat) : List Word :=
  c.la.tangents.map fun code => if (fn = 0x0E ∧ code = 0) ∨ (fn = 0x0F ∧ code = 1) ∨ (fn = 0x10 ∧ code = 2) then 0x3F800000 else 0

/-- The thread that PEEK reads (R132): in the thread's own segment of 32 ÷ 2^W threads, its own where the source falls outside the segment
or is not active. -/
def peeked (c : Ctx) (fn : Fin 4) (x : F) (t : Nat) : Nat :=
  let g := 32 / 2 ^ x.modN 2 0
  let base := t / g * g
  let b := if x.mod.getLsbD 3 then -(c.opB x t) else c.opB x t
  let j : Int := match fn with
    | 0 => (base + b.toNat % g : Nat)
    | 1 => base + ((t % g : Nat) + b.toInt) % g
    | 2 => t + b.toInt
    | 3 => (base + (t % g ^^^ b.toNat % g) : Nat)
  if (base : Int) ≤ j ∧ j < base + g ∧ c.act.getLsbD j.toNat then j.toNat else t

end Sys2Proof.Claims

/-- SEL (R129): the first or the second source, components with it. -/
def Sys2Proof.Claims.SelectResult : Prop := ∀ x : F,
  Computes (.sel x) x.h (.m (x.modN 2 0) :: readsAB x) [locOf x.h.u x.d.toNat] (fun c => okAB x c ∧ x.h.u = false)
    (fun c t => [(x.d.toNat, chosenJet c x t)]) fun _ _ => 0

/-- ICMP, FCMP, FCLASS and MOV M←V write the mask bits of the threads (R123, R130). -/
def Sys2Proof.Claims.MaskResults : Prop := ∀ x : F,
  (∀ fn, ComputesMask (.icmp fn x) x.h x.d (readsAB x) (inRange x.h (x.a :: x.srcB))
      (fun c t => intHolds fn (c.val x.h.u x.a t) (c.opB x t)) fun _ _ => 0)
  ∧ (∀ fn, ComputesMask (.fcmp fn x) x.h x.d (readsAB x) (inRange x.h (x.a :: x.srcB))
      (fun c t => floatHolds fn (c.fpA x t).val (c.fpB x t).val) fun c t => compareFlags fn (c.fpA x t).val (c.fpB x t).val)
  ∧ ComputesMask (.fclass x) x.h x.d (readsA x) (inRange x.h [x.a]) (fun c t => x.mod.getLsbD (classBit (c.val x.h.u x.a t))) (fun _ _ => 0)
  ∧ ComputesMask (.movMV x) x.h x.d (readsA x) (fun c => inRange x.h [x.a] c ∧ x.h.u = false) (fun c t => (c.k.vGet x.a.toNat t).getLsbD 0) fun _ _ => 0

/-- MSK (R306): the active threads' bits of the mask d, or all 32 of them under U = 1 when a thread is active; nothing else changes. NOT, POP, FFS
and MOV read one mask. -/
def Sys2Proof.Claims.MaskLogic : Prop := ∀ (fn : Fin 8) (x : F) (s : State) (c : Ctx),
  Ready s c (Hdr.guard x.h ++ .m x.a.toNat :: if fn ∈ [(0 : Fin 8), 1, 2, 4] then [.m x.b.toNat] else []) [.m x.d.toNat] → x.d ≠ 0 →
  let act := c.k.active x.h.g x.h.gn
  ∃ t k, Completed (.msk fn x) s c t k ∧ k.v = c.k.v ∧ k.s = c.k.s ∧ k.fpflags = c.k.fpflags ∧ (∀ m, m ≠ x.d.toNat → k.mGet m = c.k.mGet m)
    ∧ ∀ i < 32, (k.mGet x.d.toNat).getLsbD i =
        if (if x.h.u then act ≠ 0 else act.getLsbD i) then maskForm fn (c.k.mGet x.a.toNat) (c.k.mGet x.b.toNat) i
        else (c.k.mGet x.d.toNat).getLsbD i

/-- READ (R131): the selector's value, a pair for clock and tick, with the components it seeds; every selector but the per-thread ones may
stand under U = 1. -/
def Sys2Proof.Claims.ReadSelectors : Prop := ∀ (fn : Fin 17) (x : F),
  let perThread := fn = 0 ∨ fn = 1 ∨ fn = 3 ∨ fn = 14 ∨ fn = 15
  let wide := fn = 12 ∨ fn = 13
  (¬ wide → Computes (.read fn x) x.h [] [locOf x.h.u x.d.toNat] (fun c => inRange x.h [x.d] c ∧ (x.h.u = true → ¬ perThread))
      (fun c t => [(x.d.toNat, ⟨BitVec.ofNat 32 (selectorValue c fn t), seeds c fn⟩)]) fun _ _ => 0)
  ∧ (wide → Computes (.read fn x) x.h [] (vecLocs x.h.u [x.d.toNat, x.d.toNat + 1]) (okPairs x.h [x.d])
      (fun c t => [(x.d.toNat, .flat (BitVec.ofNat 32 (selectorValue c fn t))),
                   (x.d.toNat + 1, .flat (BitVec.ofNat 32 (selectorValue c fn t / 2 ^ 32)))]) fun _ _ => 0)

/-- PEEK (R132): another thread's word. -/
def Sys2Proof.Claims.PeekResults : Prop := ∀ (fn : Fin 4) (x : F), x.modN 2 0 ≤ 4 →
  ComputesWord (.peek fn x) x.h x.d (readsAB x) (fun c => okAB x c ∧ x.h.u = false) fun c t => c.k.vGet x.a.toNat (peeked c fn x t)

/-- The words that write masks (R123, R130, R306), and SEL, READ and PEEK (R129, R131, R132). -/
def Obligations.MasksAndSelections : Prop := MaskResults ∧ MaskLogic ∧ SelectResult ∧ ReadSelectors ∧ PeekResults

/-! ## Floating point and jets -/

namespace Sys2Proof.Claims

/-- A word whose threads deliver a value with components and flags. -/
def JetWord (i : Instr) (x : F) (srcs : List (BitVec 7)) (f : Ctx → Nat → JOut) : Prop :=
  Computes i x.h (regs x.h srcs) [locOf x.h.u x.d.toNat] (inRange x.h (x.d :: srcs)) (fun c t => [(x.d.toNat, ⟨(f c t).v, (f c t).k⟩)])
    fun c t => (f c t).fl

/-- A word whose threads deliver a rounded result without components. -/
def FlatWord (i : Instr) (x : F) (srcs : List (BitVec 7)) (f : Ctx → Nat → Res) : Prop :=
  Computes i x.h (regs x.h srcs) [locOf x.h.u x.d.toNat] (inRange x.h (x.d :: srcs)) (fun c t => [(x.d.toNat, .flat (toWord (f c t)))])
    fun c t => (f c t).fl

end Sys2Proof.Claims

/-- FADD, FMUL, FFMA, FSCALE and the immediate forms (R133): the rounded exact value of the modified operands, with the derivative's
components in a jet destination (R104, R105). -/
def Obligations.FloatArithmetic : Prop :=
  (∀ x : F, JetWord (.fadd x) x (x.a :: x.srcB) (fun c t => jAdd c.d (c.isJet x) x.rm (c.fpA x t) (c.fpB x t))
    ∧ JetWord (.fmul x) x (x.a :: x.srcB) (fun c t => jMul c.d (c.isJet x) x.rm (c.fpA x t) (c.fpB x t))
    ∧ JetWord (.ffma x) x (x.a :: x.c :: x.srcB) (fun c t => jFma c.d (c.isJet x) x.rm (c.fpA x t) (c.fpB x t) (c.fpC x t))
    ∧ JetWord (.fscale x) x (x.a :: x.srcB) fun c t => jScale c.d (c.isJet x) x.rm (c.fpA x t) (scaleOf x (c.opB x t)))
  ∧ ∀ x : I, let jet := fun (c : Ctx) => !x.h.u && x.d.toNat < c.la.jregs && c.d != 0
    let meets := fun (i : Instr) (f : Ctx → Nat → JOut) => Computes i x.h (regs x.h [x.a]) [locOf x.h.u x.d.toNat] (inRange x.h [x.d, x.a])
      (fun c t => [(x.d.toNat, ⟨(f c t).v, (f c t).k⟩)]) fun c t => (f c t).fl
    meets (.faddi x) (fun c t => jAdd c.d (jet c) .rn (c.jet x.h.u x.a t) (.flat x.imm))
      ∧ meets (.fmuli x) fun c t => jMul c.d (jet c) .rn (c.jet x.h.u x.a t) (.flat x.imm)

/-- FMINMAX and FRND (R134); under memory-model revision 1 FMINMAX keeps erratum B-07. -/
def Sys2Proof.Claims.FloatMinMaxAndRound : Prop := ∀ x : F,
  (∀ fn, JetWord (.fminmax fn x) x (x.a :: x.srcB) fun c t => jMinMax c.d (c.isJet x) (c.la.mmr == 1) fn.val (c.fpA x t) (c.fpB x t))
  ∧ JetWord (.frnd x) x [x.a] fun c t => jRnd c.d (c.isJet x) x.rm (c.fpA x t)

/-- FDIV, FSQRT, FRCP, FRSQ and FTR (R135). Where R105 gives a component of FDIV no value, it is the free value of log 5, and the choice
between two neighbours of FRSQ and FTR is that of log 4. -/
def Sys2Proof.Claims.FloatFunctions : Prop := ∀ x : F,
  JetWord (.fdiv x) x (x.a :: x.srcB) (fun c t => jDiv c.d (c.isJet x) x.rm (c.fpA x t) (c.fpB x t))
    ∧ JetWord (.fsqrt x) x [x.a] (fun c t => jSqrt c.d (c.isJet x) x.rm (c.fpA x t))
    ∧ JetWord (.frcp x) x [x.a] (fun c t => jRcp c.d (c.isJet x) x.rm (c.fpA x t))
    ∧ JetWord (.frsq x) x [x.a] (fun c t => jRsq c.d (c.isJet x) (c.fpA x t))
    ∧ ∀ fn, JetWord (.ftr fn x) x [x.a] fun c t => jFtr c.d (c.isJet x) fn.val (c.fpA x t)

/-- FMINMAX, FRND, division, square roots and the elementary functions (R134, R135). -/
def Obligations.FloatResults : Prop := FloatMinMaxAndRound ∧ FloatFunctions

/-- TWOSUM and TWOPROD (R136): the rounded result with its components in d, and its error in d + 1 with +0 components. -/
def Sys2Proof.Claims.ErrorFreePairs : Prop := ∀ x : F,
  let meets := fun (i : Instr) (prod : Bool) =>
    Computes i x.h (readsAB x) (vecLocs x.h.u [x.d.toNat, x.d.toNat + 1]) (fun c => okAB x c ∧ InRange c x.h.u [x.d.toNat + 1])
      (fun c t => let r := jTwo c.d (c.isJet x) prod (c.fpA x t) (c.fpB x t)
        [(x.d.toNat, ⟨r.1.v, r.1.k⟩), (x.d.toNat + 1, .flat r.2)]) fun c t => (jTwo c.d (c.isJet x) prod (c.fpA x t) (c.fpB x t)).1.fl
  meets (.twosum x) false ∧ meets (.twoprod x) true

/-- PK (R137): the two halves of a register as FP16 or BF16 values, each rounded once. -/
def Sys2Proof.Claims.PackedArithmetic : Prop := ∀ (bf : Bool) (x : F),
  let f := if bf then bf16 else fp16
  let a := fun (c : Ctx) (t h : Nat) => pkHalf f x.aa x.na (c.val x.h.u x.a t) h
  let b := fun (c : Ctx) (t h : Nat) => pkHalf f x.ab x.nb (if x.bi then pkImm f x.b else c.val x.h.u x.b t) h
  let d := fun (c : Ctx) (t h : Nat) => pkHalf f x.ac x.nc (c.val x.h.u x.c t) h
  let both := fun (r : Nat → Res) => (⟨(r 0).code + 65536 * (r 1).code, (r 0).fl ||| (r 1).fl⟩ : Res)
  FlatWord (.pkadd bf x) x (x.a :: x.srcB) (fun c t => both fun h => addF f x.rm (a c t h) (b c t h))
    ∧ FlatWord (.pkmul bf x) x (x.a :: x.srcB) (fun c t => both fun h => mulF f x.rm (a c t h) (b c t h))
    ∧ FlatWord (.pkfma bf x) x (x.a :: x.c :: x.srcB) fun c t => both fun h => fmaF f x.rm (a c t h) (b c t h) (d c t h)

/-- TWOSUM, TWOPROD and the PK words (R136, R137). -/
def Obligations.PairedResults : Prop := ErrorFreePairs ∧ PackedArithmetic

/-- JSEED, TGET, TSET, JZERO, JEVAL and FPRINT (R138 to R140): a jet register from a scalar with component k at +1; one component read or
written; every component +0; the value at an offset; the axes and the level of a footprint. -/
def Obligations.JetWords : Prop := ∀ x : F,
  let k := x.modN 2 0
  let jet := fun (rs : List (BitVec 7)) (c : Ctx) => ∀ r ∈ rs, r.toNat < c.la.jregs
  let one := fun (c : Ctx) (g : Nat → Word) (h : Nat → Word) => (List.range c.d).map fun i => if i = k then g i else h i
  Computes (.jseed x) x.h [.s x.a.toNat] [.v x.d.toNat]
      (fun c => inRange x.h [x.d] c ∧ x.a.toNat < 64 ∧ jet [x.d] c ∧ k < c.d ∧ x.h.u = false)
      (fun c _ => [(x.d.toNat, ⟨c.k.sGet x.a.toNat, one c (fun _ => 0x3F800000) fun _ => 0⟩)]) (fun _ _ => 0)
    ∧ ComputesWord (.tget x) x.h x.d (readsA x) (fun c => okA x c ∧ jet [x.a] c ∧ k < c.d ∧ x.h.u = false) (fun c t => c.k.compGet x.a.toNat t k)
    ∧ Computes (.tset x) x.h (.v x.d.toNat :: readsA x) [.v x.d.toNat] (fun c => okA x c ∧ jet [x.d] c ∧ k < c.d ∧ x.h.u = false)
      (fun c t => [(x.d.toNat, ⟨c.k.vGet x.d.toNat t, one c (fun _ => c.k.vGet x.a.toNat t) fun i => c.k.compGet x.d.toNat t i⟩)]) (fun _ _ => 0)
    ∧ ComputesWord (.jzero x) x.h x.d [.v x.d.toNat] (fun c => inRange x.h [x.d] c ∧ jet [x.d] c ∧ x.h.u = false) (fun c t => c.k.vGet x.d.toNat t)
    ∧ (∀ n ≤ 8, let offsets := fun (c : Ctx) => (List.range c.d).map fun i => c.k.sGet (x.b.toNat + i)
        Computes (.jeval x) x.h (readsA x ++ (List.range n).map fun i => .s (x.b.toNat + i)) [locOf x.h.u x.d.toNat]
          (fun c => okA x c ∧ jet [x.a] c ∧ x.h.u = false ∧ c.d = n ∧ x.b.toNat < 64 ∧ x.b.toNat + c.d ≤ 64)
          (fun c t => let r := jEval c.d (c.isJet x) (c.jet false x.a t) (offsets c); [(x.d.toNat, ⟨r.v, r.k⟩)])
          fun c t => (jEval c.d (c.isJet x) (c.jet false x.a t) (offsets c)).fl)
    ∧ Computes (.fprint x) x.h (regs x.h [x.a, x.b]) (vecLocs false [x.d.toNat, x.d.toNat + 1, x.d.toNat + 2])
      (fun c => inRange x.h [x.d, x.a, x.b] c ∧ InRange c x.h.u [x.d.toNat + 1, x.d.toNat + 2] ∧ jet [x.a, x.b] c ∧ x.h.u = false)
      (fun c t => let r := fprintF (c.tangent x.a t 0) (c.tangent x.a t 1) (c.tangent x.b t 0) (c.tangent x.b t 1)
        [(x.d.toNat, .flat r.1), (x.d.toNat + 1, .flat r.2.1), (x.d.toNat + 2, .flat r.2.2)]) fun _ _ => 0

/-- CVT, QNT, PACK and UNPACK (R141 to R144). -/
def Obligations.Conversions : Prop := ∀ x : F,
  let code := x.modN 3 0
  let flat := fun (i : Instr) (reads : List Loc) (ok : Ctx → Prop) (f : Ctx → Nat → Res) =>
    Computes i x.h reads [locOf x.h.u x.d.toNat] ok (fun c t => [(x.d.toNat, .flat (toWord (f c t)))]) fun c t => (f c t).fl
  (∀ dst : BitVec 4, dst ≠ 8 → dst ≠ 0xE → code ≠ 8 → code ≠ 0xE →
      flat (.cvt dst x) (readsA x) (okA x) fun c t => cvtF dst.toNat code x.rmHi (c.val x.h.u x.a t).toNat)
  ∧ (∀ dst : BitVec 4, dst ≠ 8 → dst ≠ 0xE → code = 0xE →
      flat (.cvt dst x) (vecLocs x.h.u [x.a.toNat, x.a.toNat + 1]) (fun c => inRange x.h [x.d] c ∧ okPairs x.h [x.a] c) fun c t =>
        cvtF dst.toNat code x.rmHi (c.pair x.h.u x.a.toNat t).toNat)
  ∧ (code ≠ 8 → code ≠ 0xE → Computes (.cvt 0xE x) x.h (readsA x) (vecLocs x.h.u [x.d.toNat, x.d.toNat + 1])
      (fun c => inRange x.h [x.a] c ∧ okPairs x.h [x.d] c)
      (fun c t => let n := (cvtF 0xE code x.rmHi (c.val x.h.u x.a t).toNat).code
        [(x.d.toNat, .flat (BitVec.ofNat 32 n)), (x.d.toNat + 1, .flat (BitVec.ofNat 32 (n / 2 ^ 32)))])
      fun c t => (cvtF 0xE code x.rmHi (c.val x.h.u x.a t).toNat).fl)
  ∧ (code = 0xE → Computes (.cvt 0xE x) x.h (vecLocs x.h.u [x.a.toNat, x.a.toNat + 1]) (vecLocs x.h.u [x.d.toNat, x.d.toNat + 1])
      (okPairs x.h [x.d, x.a])
      (fun c t => let n := (cvtF 0xE code x.rmHi (c.pair x.h.u x.a.toNat t).toNat).code
        [(x.d.toNat, .flat (BitVec.ofNat 32 n)), (x.d.toNat + 1, .flat (BitVec.ofNat 32 (n / 2 ^ 32)))])
      fun c t => (cvtF 0xE code x.rmHi (c.pair x.h.u x.a.toNat t).toNat).fl)
  ∧ (code ≠ 0 → code ≠ 8 → code ≠ 0xE → code ≠ 0xF →
      JetWord (.qntSt x) x [x.a] (fun c t => jQnt c.d (c.isJet x) false code x.rmHi (c.jet x.h.u x.a t))
        ∧ JetWord (.qntZ x) x [x.a] fun c t => jQnt c.d (c.isJet x) true code x.rmHi (c.jet x.h.u x.a t))
  ∧ (packCount code ≠ 0 →
      let spot := fun (c : Ctx) (t : Nat) => (c.opB x t).toNat % packCount code
      Computes (.pack x) x.h (locOf x.h.u x.d.toNat :: readsAB x) [locOf x.h.u x.d.toNat] (okAB x)
        (fun c t => let w := setElem (fmtWidth code) (spot c t) (c.val x.h.u x.d t) (packF code x.rmHi (c.val x.h.u x.a t)).code
          [(x.d.toNat, .flat (if fmtWidth code = 6 then w &&& 0x3FFFFFFF else w))]) (fun c t => (packF code x.rmHi (c.val x.h.u x.a t)).fl)
      ∧ flat (.unpack x) (readsAB x) (okAB x) fun c t => unpackF code (getElem (fmtWidth code) (spot c t) (c.val x.h.u x.a t)))

/-! ## Moves to S registers, checks and traps -/

namespace Sys2Proof.Claims

/-- The threads for which an F word is active (R25). -/
def actF (x : F) (c : Ctx) : Word := c.k.active x.h.g x.h.gn

/-- An F word that is ready, with the given registers read and written beside its guard. -/
def ReadyF (x : F) (s : State) (c : Ctx) (reads writes : List Loc) : Prop := Ready s c (Hdr.guard x.h ++ reads) writes

/-- An F word completes with the effect `e` wherever it is ready and `ok` holds. -/
def Does (i : Instr) (x : F) (reads writes : List Loc) (ok : Ctx → Prop) (e : Ctx → State) (moves folded : Bool := false) : Prop :=
  ∀ s c, ReadyF x s c reads writes → ok c → Effects i s c (actF x c) e moves folded

/-- A word that acts once for the strand if a thread is active (R123, R305, R362): it changes the strand by `f`, or nothing. -/
def DoesOnce (i : Instr) (x : F) (reads writes : List Loc) (ok : Ctx → Prop) (f : Ctx → Strand) : Prop :=
  Does i x reads writes ok fun c => if c.act = 0 then c.s else c.with (f c)

/-- The argument of a form with S[b] or an immediate (R305), and its register. -/
def argOf (c : Ctx) (x : F) : Word := if x.bi then x.b.setWidth 32 else c.k.sGet x.b.toNat
def argLocs (x : F) : List Loc := if x.bi then [] else [.s x.b.toNat]
def argOk (x : F) : Prop := x.bi = true ∨ x.b.toNat < 64

/-- An S pair's registers, and its field in range and even. -/
def pairLocs (r : BitVec 7) : List Loc := [.s r.toNat, .s (r.toNat + 1)]
def pairOk (r : BitVec 7) : Prop := r.toNat < 64 ∧ r.toNat % 2 = 0

end Sys2Proof.Claims

/-- MOV S←V and S←S (R123): the register of thread L, active or not, or the S register; under U = 0 for S←V. -/
def Sys2Proof.Claims.ScalarMoves : Prop := ∀ x : F,
  DoesOnce (.movSV x) x [.v x.a.toNat] [.s x.d.toNat] (fun c => x.h.u = false ∧ x.a.toNat < c.la.nregs ∧ x.d.toNat < 64)
      (fun c => c.k.setS x.d.toNat (c.k.vGet x.a.toNat (x.modN 4 0)))
    ∧ DoesOnce (.movSS x) x [.s x.a.toNat] [.s x.d.toNat] (fun _ => x.d.toNat < 64 ∧ x.a.toNat < 64) fun c => c.k.setS x.d.toNat (c.k.sGet x.a.toNat)

/-- MOV, MOVI and the immediate forms (R123, R124). -/
def Obligations.Moves : Prop := VectorMoves ∧ ImmediateForms ∧ ScalarMoves

/-- FP_INVALID (R87), of FADD, FMUL, FDIV and FSQRT: where IVT is 1 and active threads raise IV, the word traps with those threads (all the
active ones under U = 1) and has no effect. -/
def Sys2Proof.Claims.InvalidTraps : Prop := ∀ x : F,
  let meets := fun (i : Instr) (srcs : List (BitVec 7)) (f : Ctx → Nat → JOut) => ∀ s c,
    ReadyF x s c (regs x.h srcs) [locOf x.h.u x.d.toNat] → inRange x.h (x.d :: srcs) c → c.k.ivt = true →
    raisesIV x.h.u (actF x c) (fun t => (f (c.seen (actF x c) 0) t).fl) →
    Traps i s c Cause.fpInvalid (if x.h.u then actF x c else maskOf fun t => (actF x c).getLsbD t && hasIV (f (c.seen (actF x c) 0) t).fl)
  meets (.fadd x) (x.a :: x.srcB) (fun c t => jAdd c.d (c.isJet x) x.rm (c.fpA x t) (c.fpB x t))
    ∧ meets (.fmul x) (x.a :: x.srcB) (fun c t => jMul c.d (c.isJet x) x.rm (c.fpA x t) (c.fpB x t))
    ∧ meets (.fdiv x) (x.a :: x.srcB) (fun c t => jDiv c.d (c.isJet x) x.rm (c.fpA x t) (c.fpB x t))
    ∧ meets (.fsqrt x) [x.a] fun c t => jSqrt c.d (c.isJet x) x.rm (c.fpA x t)

namespace Sys2Proof.Claims

/-- The F words that compute thread by thread, by the vector fields that they name (R60, R123 to R144). -/
def fieldsOf (x : F) (n3 : Fin 3) (n4 : Fin 4) (n5 : Fin 5) (n8 : Fin 8) (n10 : Fin 10) (bf : Bool) (dst : BitVec 4) : List (List (BitVec 7) × List Instr) :=
  let ab := x.a :: x.srcB
  [(x.d :: ab, [.iadd n3 x, .isub n3 x, .imul n3 x, .iminmax n4 x, .iaddw x, .lea x, .shf n5 x, .fadd x, .fmul x, .fscale x, .fdiv x, .fminmax n4 x
      , .twosum x, .twoprod x, .pkadd bf x, .pkmul bf x, .pack x, .unpack x])
  , (x.d :: x.a :: x.c :: x.srcB, [.imad x, .twill x, .ffma x, .pkfma bf x])
  , ([x.d, x.a], [.movVV x, .iabs x, .bfx x, .popc x, .clz x, .brev x, .frnd x, .fsqrt x, .frcp x, .frsq x, .ftr n5 x, .cvt dst x, .qntSt x, .qntZ x])
  , ([x.d, x.a, x.b], [.bfi x]), (ab, [.icmp n10 x, .fcmp n8 x]), ([x.a], [.fclass x]), ([x.d], [.movVS x, .movVM x])]

/-- The strand of `c` has the focus, and its fixed-latency results are written by its next start (R73). -/
def Timely (s : State) (c : Ctx) : Prop := s.ctx? = some c ∧ ∀ l ∈ c.k.late, l.timely ≤ c.k.ready

/-- The F words that U = 1 does not allow (R129, R131, R132, R138 to R140, R123). -/
def perThreadOnly (x : F) (n4 : Fin 4) : List Instr :=
  [.sel x, .peek n4 x, .movSV x, .movMV x, .read 0 x, .read 1 x, .read 3 x, .read 14 x, .read 15 x, .jseed x, .tget x, .tset x, .jzero x, .jeval x, .fprint x]

end Sys2Proof.Claims

/-- Register ranges (R56, R60, R130, R138): a vector field that the launch does not have traps REG_RANGE, one of 64 or more under U = 1
UNIFORM_OPERAND, a form that U = 1 does not allow UNIFORM_OPERAND, a field that must name a jet register and does not JET_RANGE, and a write of M0
MASK_WRITE_M0; each with every active thread, where a thread is active, and whatever the registers hold. -/
def Sys2Proof.Claims.RangeTraps : Prop := ∀ (x : F) (s : State) (c : Ctx), Timely s c → actF x c ≠ 0 →
  (∀ n3 n4 n5 n8 n10 bf dst, ∀ e ∈ fieldsOf x n3 n4 n5 n8 n10 bf dst, ∀ r ∈ e.1, ∀ i ∈ e.2,
    (x.h.u = true → 64 ≤ r.toNat → Traps i s c Cause.uniformOperand (actF x c))
    ∧ (x.h.u = false → c.la.nregs ≤ r.toNat → Traps i s c Cause.regRange (actF x c)))
  ∧ (x.h.u = true → ∀ n4, ∀ i ∈ perThreadOnly x n4, Traps i s c Cause.uniformOperand (actF x c))
  ∧ (x.h.u = false → (∀ r ∈ x.d :: x.a :: x.srcB, c.la.nregs ≤ r.toNat → ∀ n4, Traps (.sel x) s c Cause.regRange (actF x c)
      ∧ Traps (.peek n4 x) s c Cause.regRange (actF x c)))
  ∧ (x.h.u = false → inRange x.h [x.d, x.a] c →
      (c.la.jregs ≤ x.a.toNat → Traps (.tget x) s c Cause.jetRange (actF x c))
      ∧ (c.la.jregs ≤ x.d.toNat → Traps (.tset x) s c Cause.jetRange (actF x c) ∧ Traps (.jzero x) s c Cause.jetRange (actF x c)))
  ∧ (inRange x.h (x.a :: x.srcB) c → x.d = 0 → ∀ n8 n10, Traps (.icmp n10 x) s c Cause.maskWriteM0 (actF x c)
      ∧ Traps (.fcmp n8 x) s c Cause.maskWriteM0 (actF x c))
  ∧ (inRange x.h [x.a] c → x.d = 0 → Traps (.fclass x) s c Cause.maskWriteM0 (actF x c) ∧ (x.h.u = false → Traps (.movMV x) s c Cause.maskWriteM0 (actF x c)))
  ∧ (x.d = 0 → ∀ n8, Traps (.msk n8 x) s c Cause.maskWriteM0 (actF x c))

/-- FP_INVALID and the traps on register fields (R56, R60, R87, R130, R138). -/
def Obligations.OperandTraps : Prop := InvalidTraps ∧ RangeTraps

/-! ## P words -/

namespace Sys2Proof.Claims

/-- What a half's active threads deliver (R69). -/
def halfOuts (p : PHalf) (c : Ctx) : List (Nat × Out) :=
  let act := c.k.active p.g false
  let once := p.u && !p.hop.mask
  ((if once then (if act = 0 then [] else [0]) else threadsOf act)).map fun t => (t, PHalf.out p { c with act := act } t)

/-- The strand after both halves' register writes: each from the registers before the word. -/
def halvesDone (x : PWord) (c : Ctx) : Strand :=
  let put := fun (k : Strand) (p : PHalf) => (halfOuts p c).foldl (fun k e => k.deliver c.la (p.u && !p.hop.mask) c.k.mask e) k
  put (put c.k x.h0) x.h1

/-- A half that computes: neither LDP nor STP. -/
def computing (p : PHalf) : Prop := p.hop ≠ .ldp ∧ p.hop ≠ .stp

/-- The threads of a pad half that access (R26, R69), and the half's situation (R72): its own active threads. -/
def halfAct (p : PHalf) (c : Ctx) : Ctx := { c with act := c.k.active p.g false }
def halfLanes (p : PHalf) (c : Ctx) : List Nat := (halfAct p c).lanes p.u

/-- The accesses of a pad half (R69): LDP.w loads, and STP.w stores, one word of the core pad at B + 4 · H6 for each accessing thread. -/
def halfPieces (p : PHalf) (c : Ctx) : List Piece :=
  (halfLanes p c).map fun t =>
    let at_ := (c.val p.u p.b t).toNat + 4 * p.h6.toNat
    if p.hop = .stp then ⟨t, at_, 4, .store (bytesOf 4 (c.val p.u p.d t).toNat), none⟩ else ⟨t, at_, 4, .load false, some ⟨p.u, p.d.toNat, t, none⟩⟩

end Sys2Proof.Claims

/-- P words (R68 to R72): a word that meets the pairing rules completes with both halves' results, each half in the threads that are active
for it and from the registers before the word; an FP half raises no IV under IVT. A half that is LDP.w or STP.w, the first or the second, issues its
accesses to the core pad beside the other half, where they are aligned and in the pad's allocation and nothing keeps them in the core (R219). -/
def Obligations.PairedHalves : Prop := ∀ (x : PWord) (s : State) (c : Ctx),
  let hs := [x.h0, x.h1]
  let act := c.k.active x.h0.g false ||| c.k.active x.h1.g false
  Ready s c (((hs.map PHalf.g).filter (· ≠ 0)).map (fun g => .m g.toNat) ++ hs.flatMap PHalf.reads) (hs.flatMap PHalf.writes) →
  PWord.paired x = true → (∀ p ∈ hs, InRange c p.u (nums (PHalf.vec p)) ∧ (p.hop.mask = true → p.d ≠ 0)) →
  (c.k.ivt = true → ∀ p ∈ hs, ∀ e ∈ halfOuts p c, hasIV e.2.fl = false) →
  (computing x.h0 → computing x.h1 → Effects (.pWord x) s c act fun c => c.with (halvesDone x c))
  ∧ ∀ p ∈ hs, ¬ computing p →
      let m := mStorage c (PHalf.mWord p) (p.hop == .stp)
      (∀ e ∈ halfPieces p c, e.addr % 4 = 0 ∧ e.addr + 4 ≤ c.la.corePad) → (halfAct p c).gate m ((halfPieces p c).map Piece.addr) = none →
      Effects (.pWord x) s c act fun c =>
        if halfLanes p c = [] then c.with (halvesDone x c) else (halfAct p c).issue m (halfPieces p c) (c.with (halvesDone x c))

/-! ## Control flow -/

namespace Sys2Proof.Claims

/-- Where a thread of a strand stands: at the current group's PC, or at a waiting group's. -/
def standing (k : Strand) (t : Nat) : Option Dword :=
  if k.mask.getLsbD t then some k.pc else (k.groups.find? fun g => g.mask.getLsbD t).map Group.pc

/-- Waiting groups as R289 has them: no thread is in two groups, no group is empty, no PC is that of two groups; and none is held by
CTL.RCV or excluded by CTL.YIELD. -/
structure Apart (k : Strand) : Prop where
  one   : ∀ t < 32, (k.groups.countP fun g => g.mask.getLsbD t) + (if k.mask.getLsbD t then 1 else 0) ≤ 1
  some  : ∀ g ∈ k.groups, g.mask ≠ 0
  pcs   : (k.groups.map Group.pc).Nodup
  plain : ∀ g ∈ k.groups, g.hold = none ∧ g.excl = false

/-- Every thread that some group holds, and the current group has the lowest PC (R290). -/
def LowestFirst (k : Strand) : Prop := ∀ g ∈ k.groups, k.pc < g.pc

/-- The mask that a J word branches with (R294). -/
def jMask (x : J) (c : Ctx) : Word :=
  if x.ms = 0 then c.k.mask else if x.mn then ~~~(c.k.mGet x.ms.toNat) else c.k.mGet x.ms.toNat

/-- A J word's target (R66): PC + 8 × OFF. -/
def jumps (pc : Dword) (off : Word) : Dword := BitVec.ofInt 64 (pc.toNat + 8 * off.toInt)

end Sys2Proof.Claims

/-- Words that only advance the strand or change one register of it: NOP, CTL.SIGCHK, CTL.SIGRST, CTL.TMRSET, CTL.TMRCLR, CTL.REGION and
CTL.EVMARK (R52, R79, R301, R305, R380). -/
def Obligations.PlainControl : Prop :=
  (∀ s c, Ready s c [] [] → Effects .nop s c c.k.mask Ctx.s)
  ∧ ∀ x : F, Does (.ctlSigchk x) x [] [] (fun _ => True) (fun c => c.with { c.k with sigPend := some (sigConst x) })
    ∧ Does (.ctlSigrst x) x [] [] (fun _ => True) (fun c => c.with { c.k with sig := 0xFFFFFFFF, sigPend := none }) false true
    ∧ Does (.ctlTmrset x) x (pairLocs x.a) [] (fun _ => pairOk x.a) (fun c => c.with { c.k with tmrcmp := c.k.sPair x.a.toNat, tmrArmed := true })
    ∧ Does (.ctlTmrclr x) x [] [] (fun _ => True) (fun c => c.with { c.k with tmrArmed := false })
    ∧ Does (.ctlRegion x) x [] [] (fun c => c.s.unperformed c.r = false ∧ ∀ e ∈ c.s.samples, e.2.strand ≠ c.r)
        (fun c => c.with { c.k with region := c.k.region + 1, regionpc := c.k.pc + 8, rv := true })
    ∧ Does (.ctlEvmark x) x (argLocs x) [] (fun c => argOk x ∧ c.b.shadow = false) fun c =>
        c.s.emit c.la.fe c.la.lid Cause.programMark .core c.b.core
          (bytesOf 8 c.k.pc.toNat ++ bytesOf 4 (argOf c x).toNat ++ bytesOf 4 c.r.sid)

/-- BRA, CALL, JMPI and CTL.RET (R294 to R296): the strand's groups after the word. A JMPI with no active thread only goes on. -/
def Obligations.Branches : Prop :=
  (∀ (x : J) s c, Ready s c (if x.ms = 0 then [] else [.m x.ms.toNat]) [] →
      Effects (.bra x) s c c.k.mask (fun c => c.with (c.k.split (jMask x c) (jumps c.k.pc x.off))) true)
  ∧ (∀ (x : J) s c, Ready s c [] (pairLocs x.x) → pairOk x.x →
      Effects (.call x) s c c.k.mask (fun c => c.with { c.k.setSPair x.x.toNat (c.k.pc + 8) with pc := jumps c.k.pc x.off }.reselect) true)
  ∧ (∀ (x : F) (tgt : Dword), tgt.toNat % 8 = 0 →
      Does (.jmpi x) x (vecLocs x.h.u [x.a.toNat, x.a.toNat + 1]) (if x.d = 0 then [] else pairLocs x.d)
        (fun c => okPairs x.h [x.a] c ∧ pairOk x.d ∧ ∀ t < 32, (actF x c).getLsbD t → c.pair x.h.u x.a.toNat t = tgt)
        (fun c => if c.act = 0 then c.with { c.k with pc := c.k.pc + 8 }.reselect
          else c.with ((if x.d = 0 then c.k else c.k.setSPair x.d.toNat (c.k.pc + 8)).split c.act tgt)) true)
  ∧ ∀ x : F, Does (.ctlRet x) x (pairLocs x.a) [] (fun c => pairOk x.a ∧ (c.k.sPair x.a.toNat).toNat % 8 = 0)
      (fun c => c.with { c.k with pc := c.k.sPair x.a.toNat }.reselect) true

/-- Splitting a group and selecting (R289, R290): the current group's threads that branch stand at the target, its others at the next word,
every other thread where it stood; the lowest PC is current, and the groups stay apart. A waiting group at the PC of a current group that waits in no
word joins it, and the group enters a block there; with none, nothing merges (R291). -/
def Obligations.SplitsAndMerges : Prop := (∀ (k : Strand) (m : Word) (tgt : Dword), Apart k → k.mask ≠ 0 →
  (∀ t < 32, standing (k.split m tgt) t =
      if k.mask.getLsbD t then some (if m.getLsbD t then tgt else k.pc + 8) else standing k t)
    ∧ LowestFirst (k.split m tgt) ∧ Apart (k.split m tgt) ∧ (k.split m tgt).mask ≠ 0)
  ∧ (∀ (k : Strand) (g : Group), Apart k → k.mask ≠ 0 → k.wait = .none → g ∈ k.groups → g.pc = k.pc →
    k.merge.2 = true ∧ k.merge.1.mask = k.mask ||| g.mask ∧ k.merge.1.pc = k.pc ∧ k.merge.1.entry = true
      ∧ (∀ t < 32, standing k.merge.1 t = standing k t) ∧ Apart k.merge.1 ∧ ∀ g ∈ k.merge.1.groups, g.pc ≠ k.pc)
  ∧ ∀ k : Strand, (∀ g ∈ k.groups, g.pc ≠ k.pc) → k.merge = (k, false)

/-- CTL.YIELD and CTL.RCV (R297, R298): the groups after the word. The yielding group is not selected where another group waits; a group
that waits at a CTL.RCV is held until the word's start plus its count, and in the privileged handler, whose cycles are not counted (R304), until the
entry plus it. -/
def Obligations.YieldAndHold : Prop := ∀ x : F,
  Does (.ctlYield x) x [] [] (fun _ => True) (fun c => c.with (Strand.form { c.k with mask := 0 } c.k.mask (c.k.pc + 8) true).pick) true
    ∧ Does (.ctlRcv x) x (argLocs x) [] (fun _ => argOk x) (fun c => c.with (c.k.holdHere ((if c.k.ph then c.k.trapAt else c.start) + (argOf c x).toNat))) true
    ∧ (∀ k, Apart k → k.mask ≠ 0 → (∀ g ∈ k.groups, g.pc ≠ k.pc + 8) →
        let k' := (Strand.form { k with mask := 0 } k.mask (k.pc + 8) true).pick
        Apart k' ∧ (∀ t < 32, standing k' t = if k.mask.getLsbD t then some (k.pc + 8) else standing k t)
          ∧ if k.groups = [] then k'.pc = k.pc + 8 ∧ k'.mask = k.mask else ∃ g ∈ k.groups, k'.pc = g.pc ∧ k'.mask = g.mask ∧ ∀ g' ∈ k.groups, g.pc ≤ g'.pc)
    ∧ ∀ k n, Apart k → k.mask ≠ 0 → k.groups ≠ [] → (∀ g ∈ k.groups, g.pc ≠ k.pc) → k.mask ||| k.exited ≠ 0xFFFFFFFF →
        ∃ g ∈ (k.holdHere n).groups, g.pc = k.pc ∧ g.mask = k.mask ∧ g.hold = some n

/-- CTL.EXIT and CTL.SLEEP (R219, R299, R305): the active threads exit, and the strand ends with its last thread; the active threads
sleep for the duration, and a duration of 0 has no effect. -/
def Obligations.ExitAndSleep : Prop := ∀ x : F,
  Does (.ctlExit x) x [] []
      (fun c => c.s.heldThreads c.r = 0 ∧ c.b.committing = none ∧ (∀ e ∈ c.s.quorums, e.2.strand = c.r → e.2.store = none)
        ∧ ∀ w, c.k.sigPend = some w → w = foldWord c.k.sig (foldOf (.ctlExit x)))
      (fun c =>
        let folded := { c.k with sig := foldWord c.k.sig (foldOf (.ctlExit x)) }
        if c.act = 0 then c.with { folded with pc := c.k.pc + 8 }.reselect
        else
          let k := ({ folded with sigPend := none } : Strand).exit c.act
          let s := (c.with k).dropLoads c.r k.exited (~~~k.exited = 0)
          if ~~~k.exited = 0 then s.endStrand c.r else s) true true
    ∧ (∀ k m, Apart k → k.mask &&& k.exited = 0 →
        (k.exit m).exited = k.exited ||| m ∧ ∀ t < 32, m &&& ~~~k.mask = 0 → standing (k.exit m) t =
          if m.getLsbD t then none else if k.mask.getLsbD t then some (k.pc + 8) else standing k t)
    ∧ Does (.ctlSleep x) x (argLocs x) [] (fun c => argOk x ∧ c.b.committing = none ∧ c.la.contained = false) fun c =>
        if argOf c x = 0 ∨ c.act = 0 then c.s
        else c.s.modStrand c.r fun k => k.sleep (firstThread c.act) { threads := c.act, till := some (c.now + (argOf c x).toNat), waita := none }

/-! ## Traps, handlers and the SYS words -/

/-- Entry to the privileged handler (R347 to R349): what the entry saves and where the strand goes. Nothing else changes, but that in stop-block mode
every other strand of the block that runs is to stop at its next boundary (R350). -/
def Sys2Proof.Claims.HandlerEntry : Prop := ∀ (s : State) (r : StrandRef) (k : Strand) (b : Block) (p : Report),
  s.strand? r = some k → s.block? r.blk = some b → b.shadow = false → k.ph = false → k.pvec ≠ 0 →
  ∃ k', (s.enterPriv r p).strand? r = some k'
    ∧ k'.pcause.toNat % 256 = p.cause.toNat ∧ k'.pcause.toNat / 256 % 256 = p.detail % 256 ∧ k'.pcause.toNat / 65536 % 256 = p.orig.toNat
    ∧ k'.pcause.getLsbD 24 = p.async ∧ k'.pcause.getLsbD 25 = p.eng
    ∧ k'.pmask = p.mask ∧ k'.pva = p.va ∧ k'.pfpc = p.fpc ∧ k'.pregion = p.region ∧ k'.pepc = p.resume
    ∧ (∀ i < 8, Cells.get k'.psave i = k.sGet (56 + i)) ∧ k'.psigsv = k.sigPend.getD 0 ++ k.sig ∧ k'.psigpv = k.sigPend.isSome
    ∧ k'.sig = 0xFFFFFFFF ∧ k'.sigPend = none ∧ k'.ph = true ∧ k'.pc = k.pvec
    ∧ k'.v = k.v ∧ k'.s = k.s ∧ k'.m = k.m ∧ k'.mpar = k.mpar ∧ k'.h = k.h ∧ k'.mask = k.mask ∧ k'.groups = k.groups ∧ k'.exited = k.exited
    ∧ k'.fpflags = k.fpflags ∧ k'.region = k.region ∧ k'.uepc = k.uepc ∧ k'.ucause = k.ucause ∧ k'.uh = k.uh
    ∧ (b.sb = false → Alone s (s.enterPriv r p) r)
    ∧ ∀ q kq, b.sb = true → q ≠ r → s.strand? q = some kq → ∃ kq', (s.enterPriv r p).strand? q = some kq'
        ∧ kq' = if q.blk = r.blk ∧ kq.ended = false ∧ kq.stopped = false then { kq with stopDue := true } else kq

/-- A second trap, and a trap without a handler (R347): the launch fails with DOUBLE_TRAP, or with the cause. -/
def Sys2Proof.Claims.HandlerRefused : Prop := ∀ (s : State) (r : StrandRef) (k : Strand) (b : Block) (la : Launch) (p : Report),
  s.strand? r = some k → s.block? r.blk = some b → b.shadow = false → s.launch? b.launch = some la → la.failed = none →
  (k.ph = true → ∃ la', (s.enterPriv r p).launch? b.launch = some la' ∧ la'.failed = some Cause.doubleTrap)
    ∧ (k.ph = false → k.pvec = 0 → ∃ la', (s.enterPriv r p).launch? b.launch = some la' ∧ la'.failed = some p.cause)

/-- Entering a privileged handler, and when the launch fails instead (R346 to R349). -/
def Obligations.HandlerEntries : Prop := HandlerEntry ∧ HandlerRefused

/-- Entry to the user handler by TIMER or TRAPU (R300); a strand in one of its handlers, or without a user handler, goes to the privileged
handler with USER_NESTED and the first cause as ORIG (R345, R350). -/
def Obligations.UserHandlerEntry : Prop := ∀ (s : State) (r : StrandRef) (k : Strand) (b : Block) (cause : Cause) (code : Nat) (resume fpc : Dword),
  s.strand? r = some k → s.block? r.blk = some b → b.shadow = false →
  (k.uh = false → k.ph = false → k.uvec ≠ 0 → ∃ k', (s.enterUser r cause code resume fpc).strand? r = some k'
      ∧ k'.uepc = resume ∧ k'.ucause.toNat = cause.toNat + code % 256 * 256 ∧ k'.usigsv = k.sigPend.getD 0 ++ k.sig ∧ k'.usigpv = k.sigPend.isSome
      ∧ k'.sig = 0xFFFFFFFF ∧ k'.sigPend = none ∧ k'.pc = k.uvec ∧ k'.uh = true ∧ k'.ph = k.ph ∧ k'.v = k.v ∧ k'.s = k.s ∧ k'.m = k.m
      ∧ k'.mask = k.mask ∧ k'.groups = k.groups ∧ Alone s (s.enterUser r cause code resume fpc) r)
  ∧ (k.uh = true ∨ k.ph = true ∨ k.uvec = 0 → s.enterUser r cause code resume fpc =
      s.enterPriv r { cause := Cause.userNested, mask := k.mask, resume, fpc, detail := code, orig := cause, region := k.region })

/-- ILL, CTL.BRK, SYS.TRAP and CTL.TRAPU (R57, R300, R302, R362): the traps they take, TRAPU with the user handler's address, which is MISALIGNED
where it is no multiple of 8 (R57); BRK and SYS.TRAP do nothing without an active thread. -/
def Obligations.TrapWords : Prop :=
  (∀ s c, s.ctx? = some c → c.k.mask ≠ 0 → Traps .ill s c Cause.illegalWord c.k.mask)
  ∧ ∀ x : F, (∀ s c, ReadyF x s c [] [] →
      (actF x c ≠ 0 → EffectsThenTraps (.ctlBrk x) s c (actF x c) Ctx.s 0x62 ∧ EffectsThenTraps (.sysTrap x) s c (actF x c) Ctx.s (0x70 + BitVec.ofNat 8 (x.modN 3 0)))
      ∧ (actF x c = 0 → Effects (.ctlBrk x) s c 0 Ctx.s ∧ Effects (.sysTrap x) s c 0 Ctx.s)
      ∧ (c.k.uh = true ∨ c.k.ph = true ∨ c.k.uvec.toNat % 8 = 0 →
        ∃ u, Finishes (.ctlTrapu x) c s u false false ∧ exec (.ctlTrapu x) s = .next (u.enterUser c.r 0x61 (x.modN 7 0) (c.k.pc + 8) c.k.pc))
      ∧ (c.k.uh = false → c.k.ph = false → c.k.uvec.toNat % 8 ≠ 0 → Traps (.ctlTrapu x) s c Cause.misaligned (actF x c) c.k.uvec))

namespace Sys2Proof.Claims

/-- A pending Selvage constant that the word's own fold meets, or none (R52). -/
def sigMeets (i : Instr) (c : Ctx) : Prop := ∀ w, c.k.sigPend = some w → w = foldWord c.k.sig (foldOf i)

/-- The strand's Selvage state restored from a saved pair (R52). -/
def resumed (k : Strand) (sv : Dword) (pv : Bool) : Strand :=
  { k with sig := sv.extractLsb' 0 32, sigPend := if pv then some (sv.extractLsb' 32 32) else none }

/-- The strand as SYS.TRET leaves its handler: S56 to S63 come back, and the held groups' counts were stopped since the trap (R297, R362). -/
def left (c : Ctx) : Strand :=
  { (List.range 8).foldl (fun k i => k.setS (56 + i) (c.k.psave.get i)) c.k with
    ph := false, pc := c.k.pepc, trapAt := 0
    groups := c.k.groups.map fun g => { g with hold := g.hold.map (· + (c.start - c.k.trapAt)) } }

end Sys2Proof.Claims

/-- CTL.URET, SYS.TRET and SYS.TRET.rr (R52, R57, R300, R354, R362), to an aligned address. Under rr every thread that has not exited stands at pepc in one group, the
strand's held requests are dropped, the restarted region's held faults are discarded, and REGION_RESTART is written. -/
def Obligations.Returns : Prop := ∀ x : F,
  Does (.ctlUret x) x [] [] (fun c => c.k.uh = true ∧ c.k.uepc.toNat % 8 = 0 ∧ sigMeets (.ctlUret x) c)
      (fun c => c.with { resumed c.k c.k.usigsv c.k.usigpv with uh := false, pc := c.k.uepc }) true true
    ∧ Does (.sysTret x) x [] [] (fun c => c.k.ph = true ∧ actF x c ≠ 0 ∧ c.k.pepc.toNat % 8 = 0 ∧ sigMeets (.sysTret x) c)
      (fun c => c.with (resumed (left c) c.k.psigsv c.k.psigpv)) true true
    ∧ Does (.sysTretRr x) x [] [] (fun c => c.k.ph = true ∧ actF x c ≠ 0 ∧ c.k.pepc.toNat % 8 = 0 ∧ sigMeets (.sysTretRr x) c)
      (fun c =>
        let keep := fun (r : StrandRef) (h : Hold) => !(r == c.r && h == .held)
        let s := c.with { left c with
          mask := ~~~c.k.exited, m0bad := false, groups := [], sleepers := [], asleep := 0, parked := 0, fetchHeld := .no, sigPend := none
          sig := foldWord c.k.sig (foldOf (.sysTretRr x)), faults := c.k.faults.filter fun f => f.region ≠ c.k.pregion }
        ({ s with
          accs := s.accs.filter fun e => keep e.2.strand e.2.held
          quorums := s.quorums.filter fun e => keep e.2.strand e.2.held
          samples := s.samples.filter fun e => keep e.2.strand e.2.held }).emit c.la.fe c.la.lid Cause.regionRestart .core c.b.core []) true true
    ∧ (∀ s c, ReadyF x s c [] [] → c.k.ph = true → actF x c = 0 →
        Effects (.sysTret x) s c 0 (fun c => c.with { c.k with pc := c.k.pc + 8, sig := foldWord c.k.sig (foldOf (.sysTret x)) }) true true
        ∧ Effects (.sysTretRr x) s c 0 (fun c => c.with { c.k with pc := c.k.pc + 8, sig := foldWord c.k.sig (foldOf (.sysTretRr x)) }) true true)

namespace Sys2Proof.Claims

/-- The control registers of R348: an index is listed; a 64-bit register; a read-only one. -/
def crListed (i : Nat) : Prop := i < 0x0C ∨ (0x10 ≤ i ∧ i < 0x28)
def crDoubles : List Nat := [0x02, 0x03, 0x09, 0x0A, 0x13, 0x14, 0x1B, 0x1E]
def crFixed (i : Nat) : Prop := i ∈ [0x10, 0x12, 0x15, 0x16, 0x17, 0x18, 0x19, 0x1A, 0x1B, 0x1D]

/-- The bits that a register has (R86, R348, R349). -/
def crBits (i : Nat) : Dword :=
  if i = 0x00 then 0x3F else if i ∈ [0x01, 0x0B, 0x11, 0x1F] then 1 else if i = 0x04 ∨ i = 0x08 then 0xFFFF
  else if i ∈ crDoubles then 0xFFFFFFFFFFFFFFFF else 0xFFFFFFFF

/-- The S registers that RDCR and WRCR name: a pair for a 64-bit register (R362). -/
def crPair (n : Nat) (r : BitVec 7) : List Loc := if n ∈ crDoubles then pairLocs r else [.s r.toNat]
def crOk (n : Nat) (r : BitVec 7) : Prop := crListed n ∧ r.toNat < 64 ∧ (n ∈ crDoubles → r.toNat % 2 = 0)

/-- What RDCR and WRCR do where a thread is active (R362). -/
def rdcr (n : Nat) (x : F) (c : Ctx) : State :=
  let v := c.k.crRead c.b c.la n
  if c.act = 0 then c.s else c.with (if n ∈ crDoubles then c.k.setSPair x.d.toNat v else c.k.setS x.d.toNat (v.setWidth 32))
def wrcr (n : Nat) (x : F) (c : Ctx) : State :=
  if c.act = 0 then c.s else c.s.crWrite c.r c.r n (if n ∈ crDoubles then c.k.sPair x.a.toNat else (c.k.sGet x.a.toNat).setWidth 64)

end Sys2Proof.Claims

/-- SYS is privileged (R78): where a thread is active, every form but TRAP, and but RDCR and WRCR of a user control register, traps PRIVILEGED at user
level; the three run there: RDCR reads the register, WRCR writes it, and TRAP traps. Of sig (0x07), whose order with the word's own fold is no rule's, it
says only that the two run; ControlRegisters says what they do. -/
def Obligations.Privilege : Prop := ∀ (x : F) (s : State) (c : Ctx), Timely s c → c.k.ph = false → actF x c ≠ 0 →
  let n := x.modN 5 0
  (∀ i ∈ [Instr.sysTret x, .sysTretRr x, .sysHalt x, .sysHaltRelaunch x, .sysXread x, .sysXwrite x, .sysResume x, .sysIcinv x],
      Traps i s c Cause.privileged (actF x c))
  ∧ (0x0C ≤ n → Traps (.sysRdcr x) s c Cause.privileged (actF x c) ∧ Traps (.sysWrcr x) s c Cause.privileged (actF x c))
  ∧ (n < 0x0C → (n = 0 → s.flagsPending c.r = false) →
      (ReadyF x s c [] (crPair n x.d) → crOk n x.d → ∃ f, (n ≠ 0x07 → f = rdcr n x) ∧ Effects (.sysRdcr x) s c (actF x c) f)
      ∧ (ReadyF x s c (crPair n x.a) [] → crOk n x.a → ∃ f, (n ≠ 0x07 → f = wrcr n x) ∧ Effects (.sysWrcr x) s c (actF x c) f))
  ∧ (ReadyF x s c [] [] → EffectsThenTraps (.sysTrap x) s c (actF x c) Ctx.s (0x70 + BitVec.ofNat 8 (x.modN 3 0)))

/-- SYS.RDCR and SYS.WRCR (R348, R362): a listed register of the right width, and for WRCR not a read-only one; a privileged index needs
the privileged handler, and fpflags waits for the flags of cell reads (R88). -/
def Sys2Proof.Claims.ControlRegisterMoves : Prop := ∀ x : F,
  let n := x.modN 5 0
  let ok := fun (r : BitVec 7) (c : Ctx) => crOk n r ∧ (c.k.ph = true ∨ n < 0x0C) ∧ (n = 0 → c.s.flagsPending c.r = false)
  Does (.sysRdcr x) x [] (crPair n x.d) (ok x.d) (rdcr n x) ∧ Does (.sysWrcr x) x (crPair n x.a) [] (fun c => ok x.a c ∧ ¬ crFixed n) (wrcr n x)

/-- What control registers hold (R348, R349): a register that is written reads back the bits that it has, and no other register changes; a
read-only one never changes. pstate has SS of the strand and SB of the block; its other fields are read-only. -/
def Sys2Proof.Claims.ControlRegisterValues : Prop := ∀ (k : Strand) (b : Block) (la : Launch) (i : Nat) (v : Dword),
  (crListed i → ¬ crFixed i → i ≠ 0x1C → (k.crWrite i v).crRead b la i = v &&& crBits i)
    ∧ (crFixed i → k.crWrite i v = k)
    ∧ (∀ j, crListed j → j ≠ i → (k.crWrite i v).crRead b la j = k.crRead b la j)
    ∧ (k.crWrite 0x1C v).crRead b la 0x1C = (k.crRead b la 0x1C &&& ~~~1) ||| (v &&& 1)
    ∧ (k.crRead b la 0x1C).getLsbD 1 = b.sb

/-- SYS.RDCR and SYS.WRCR, and what the registers hold (R348, R349, R362). For sig the clauses rest on the model's choice (log 20): it is read, and
written, before the word's own fold. -/
def Obligations.ControlRegisters : Prop := ControlRegisterMoves ∧ ControlRegisterValues

namespace Sys2Proof.Claims

/-- The strand that a selector names, and the selector in S[a] (R363). -/
def selOf (c : Ctx) (x : F) : Selector := selectorOf (c.k.sGet x.a.toNat)
def selStrand (c : Ctx) (x : F) : StrandRef := ⟨c.r.blk, (selOf c x).sid⟩

/-- A selector whose strand exists and, but for the issuing strand, has ended, is stopped or is in its handler, with no pending result in
the register (R363). -/
def selOpen (s : State) (c : Ctx) (x : F) (kt : Strand) : Prop :=
  (selOf c x).high = 0 ∧ (selOf c x).kind < 6 ∧ s.strand? (selStrand c x) = some kt
    ∧ (selStrand c x ≠ c.r → (kt.ended ∨ kt.stopped ∨ kt.ph) ∧ ∀ l ∈ (selOf c x).locs, s.pending (selStrand c x) l = false)

/-- Where the issuing strand stands after XWRITE, by the model's choice (log 20): it goes on at the next word, unless it wrote the PC of its current
group or dissolved it; then another group is selected (R290), as in another strand whose current group is dissolved. -/
def wentOn (c : Ctx) (x : F) (k : Strand) : Strand :=
  if k.mask = 0 then k.pick else if selStrand c x = c.r ∧ (selOf c x).ownPc c.k then k else { k with pc := k.pc + 8 }
def dissolved (c : Ctx) (x : F) (s : State) : State :=
  if selStrand c x = c.r then s else s.modStrand (selStrand c x) fun k => if k.mask = 0 ∧ k.ended = false then k.pick else k

end Sys2Proof.Claims

/-- XREAD and XWRITE (R362, R363): in the privileged handler, a selector that names an element of an open strand is read or written (the PC of
the issuing strand's own group with an aligned one). -/
def Sys2Proof.Claims.SelectorAccess : Prop := ∀ (x : F) (s : State) (c : Ctx) (kt : Strand), x.a.toNat < 64 → c.k.ph = true → selOpen s c x kt →
  (∀ w, x.d.toNat < 64 → (selOf c x).read kt c.b c.la = some w →
      ReadyF x s c (.s x.a.toNat :: ownLocs c x) [.s x.d.toNat] →
      Effects (.sysXread x) s c (actF x c) fun c => if c.act = 0 then c.s else c.with (c.k.setS x.d.toNat w))
  ∧ (∀ s', x.b.toNat < 64 → (selOf c x).write s c.r (selStrand c x) kt c.b c.la (c.k.sGet x.b.toNat) = some s' →
      (selStrand c x = c.r → (selOf c x).ownPc c.k = true → ∀ k, s'.strand? c.r = some k → k.pc.toNat % 8 = 0) →
      ReadyF x s c [.s x.a.toNat, .s x.b.toNat] (ownLocs c x) →
      Effects (.sysXwrite x) s c (actF x c)
        (fun c => if c.act = 0 then c.with { c.k with pc := c.k.pc + 8 } else (dissolved c x s').modStrand c.r (wentOn c x)) true)

/-- What XWRITE writes into a V, S or mask register of M1 to M7, XREAD reads; every other element of those registers reads as before
(R363). -/
def Sys2Proof.Claims.SelectorsAgree : Prop := ∀ (x y : Selector) (k k' : Strand) (b : Block) (la : Launch) (w : Word),
  la.d ≤ 8 → x.thread < 32 → y.thread < 32 → x.kind < 3 → ¬ (x.kind = 2 ∧ x.reg = 0) → x.put k la w = some k' →
  x.read k' b la = some w
    ∧ (y.kind < 3 → (x.kind, x.reg, if x.kind = 0 then x.thread else 0, x.elem) ≠ (y.kind, y.reg, if y.kind = 0 then y.thread else 0, y.elem) →
        y.read k' b la = y.read k b la)

/-- XREAD and XWRITE (R362, R363). The model's choices (log 20): a strand that writes the PC of its own current group goes on there; its own sig is
read and written before the word's own fold; a strand in its privileged handler counts as stopped; a write of M0 is one of the current
group's mask; and fpflags does not wait for flags still to come. -/
def Obligations.Selectors : Prop := SelectorAccess ∧ SelectorsAgree

/-- SYS.RESUME, SYS.ICINV, SYS.HALT and SYS.HALT.relaunch in the privileged handler (R346, R358, R362); the counts of a resumed strand's
held groups stood still while it was stopped (R304). -/
def Obligations.PrivilegedActions : Prop := ∀ x : F,
  let run := fun (c : Ctx) (k : Strand) => ({ k with
    stopped := false, why := .issued, trapAt := 0
    groups := k.groups.map fun g => { g with hold := g.hold.map (· + (c.start - k.trapAt)) } } : Strand)
  Does (.sysResume x) x [.s x.a.toNat] [] (fun c => x.a.toNat < 64 ∧ c.k.ph = true ∧
        ((c.k.sGet x.a.toNat).getLsbD 5 = false → ∃ k, c.s.strand? ⟨c.r.blk, (c.k.sGet x.a.toNat).toNat % 32⟩ = some k ∧ k.stopped = true))
      (fun c => if c.act = 0 then c.s
        else if (c.k.sGet x.a.toNat).getLsbD 5 then
          { c.s with strands := c.s.strands.map fun e => if e.1.blk = c.r.blk ∧ e.2.stopped then (e.1, run c e.2) else e }
        else c.s.modStrand ⟨c.r.blk, (c.k.sGet x.a.toNat).toNat % 32⟩ (run c))
    ∧ Does (.sysIcinv x) x (pairLocs x.a ++ [.s x.b.toNat]) [] (fun c => pairOk x.a ∧ x.b.toNat < 64 ∧ c.k.ph = true ∧
        1 ≤ (c.k.sGet x.b.toNat).toNat ∧ (c.k.sGet x.b.toNat).toNat ≤ 2 ^ 20)
      (fun c => if c.act = 0 then c.s else c.s.dropLines c.la.fe (c.k.sPair x.a.toNat).toNat (c.k.sGet x.b.toNat).toNat)
    ∧ ∀ s c, ReadyF x s c (argLocs x) [] → argOk x → c.k.ph = true →
      (actF x c ≠ 0 → exec (.sysHalt x) s = .next (s.failLaunch c.b.launch Cause.sysHalt (pay := bytesOf 4 (argOf c x).toNat))
        ∧ exec (.sysHaltRelaunch x) s = .next (if c.b.relaunchable c.la then s.relaunch c.r.blk else s.failLaunch c.b.launch Cause.rollbackCommitted))
      ∧ (actF x c = 0 → Effects (.sysHalt x) s c 0 Ctx.s ∧ Effects (.sysHaltRelaunch x) s c 0 Ctx.s)

/-! ## Memory -/

namespace Sys2Proof.Claims

/-- The registers of a group of `n` from a field. -/
def groupOf (r : BitVec 7) (n : Nat) : List Nat := (List.range n).map (r.toNat + ·)

/-- What an access word reaches (R210, R219, R255): each computing thread's address is a multiple of the size, and in a pad's allocation; and
nothing keeps the accesses in the core. -/
def reaches (c : Ctx) (m : Storage) (addr : Nat → Int) : Prop :=
  (∀ t ∈ c.lanes m.uni, addr t % m.size = 0 ∧ (m.space ≠ .device → 0 ≤ addr t ∧ addr t + m.bytes ≤ c.la.padSize m.space))
    ∧ c.gate m ((c.lanes m.uni).map fun t => (addr t).toNat) = none

/-- The computing threads with the addresses that they access. -/
def targets (c : Ctx) (u : Bool) (addr : Nat → Int) : List (Nat × Nat) := (c.lanes u).map fun t => (t, (addr t).toNat)

/-- The device after the commit that R232 asks of a word in a contained block, at the scope of its access, and that nothing keeps the word
waiting for it: the strand's earlier accesses have been performed (R233, R242), and the commit is not held (R234). -/
def afterCommit (c : Ctx) (scope : Nat) : State :=
  if c.la.contained then c.s.commit c.r.blk (some ⟨c.r, c.k.pc, c.act, c.k.region, scope⟩) else c.s
def commitDone (c : Ctx) (scope : Nat) : Prop := c.la.contained = true → c.s.orderWait c.r = none
  ∧ ∃ b, (afterCommit c scope).block? c.r.blk = some b ∧ b.committing = none ∧ b.buf = []

/-- Issuing the accesses `ps`, or nothing where no thread computes. -/
def issued (c : Ctx) (m : Storage) (ps : List Piece) (s : State) : State := if c.lanes m.uni = [] then c.s else c.issue m ps s

/-- Fields of an M word in range (R60, R65, R253): the data registers (even for a pair, a quad or a jet; a jet register for a jet), the
address registers. -/
def okM (x : M) (c : Ctx) : Prop :=
  InRange c x.h.u (groupOf x.d (widthRegs x.w.toNat)) ∧ (3 ≤ x.w.toNat → x.d.toNat % 2 = 0) ∧ (x.w = 5 → x.d.toNat < c.la.jregs)
    ∧ (x.a ≠ 0x7F → InRange c x.h.u [x.a.toNat]) ∧ (x.aw = true → x.a ≠ 0x7F ∧ x.a.toNat % 2 = 0 ∧ InRange c x.h.u [x.a.toNat + 1])
    ∧ x.sb.toNat % 2 = 0 ∧ (x.h.u = true → x.a = 0x7F ∧ x.aw = false ∧ x.w ≠ 5)

/-- The registers of an M word's address and data. -/
def addrM (x : M) : List Loc :=
  (if x.a = 0x7F then [] else vecLocs x.h.u (groupOf x.a (if x.aw then 2 else 1)))
    ++ if x.aw then [] else if x.sp = 0 then [.s x.sb.toNat, .s (x.sb.toNat + 1)] else if x.sb = 0 then [] else [.s x.sb.toNat]
def dataM (x : M) : List Loc := vecLocs x.h.u (groupOf x.d (widthRegs x.w.toNat))

/-- The units of one thread's access at `a` (R235, R256): the words of a jet, the two pairs of a pad quad, else the whole access. -/
def unitsAt (c : Ctx) (x : M) (t a : Nat) (kind : Nat → Nat → AccKind) (dst : Nat → Option Dst) : List Piece :=
  if x.w = 5 then (List.range (c.la.tangents.length + 1)).map fun i => ⟨t, a + 4 * i, 4, kind (4 * i) 4, dst i⟩
  else if x.w = 4 ∧ x.sp ≠ 0 then [⟨t, a, 8, kind 0 8, dst 0⟩, ⟨t, a + 8, 8, kind 8 8, dst 2⟩]
  else [⟨t, a, widthBytes x.w.toNat, kind 0 (widthBytes x.w.toNat), dst 0⟩]

/-- A unit of a release wider than block: of a release at such a scope, or of any release to a HOSTWIN page (R215, R232). -/
def wideUnit (c : Ctx) (m : Storage) (p : Piece) : Bool := m.rel && (1 < m.scope || (m.space == .device && c.s.inWindow c.la.fe p.addr))

/-- The scope at which a word's accesses at `as` commit the buffer (R215, R233): a HOSTWIN access is at system scope. -/
def windowScope (c : Ctx) (m : Storage) (as : List Nat) : Nat := if m.space = .device ∧ ∃ a ∈ as, c.s.inWindow c.la.fe a = true then 5 else m.scope

/-- The scope at which a word's stores commit the buffer: that of those of its units which are wider than block. -/
def storeScope (c : Ctx) (m : Storage) (ps : List Piece) : Nat := windowScope c m ((ps.filter (wideUnit c m)).map Piece.addr)

/-- What stands in the buffer after a word's other units have been put there, in their order, from the one at which a forced commit held the
word up (R230 to R232, R234). -/
def buffered (c : Ctx) (m : Storage) (ps : List Piece) : State × Option Nat :=
  let n := match c.k.wait with | .buffered n => n | _ => 0
  let s := if c.k.wait = .buffered n ∨ ps.any (wideUnit c m) = false then c.s
    else c.issue m (ps.filter (wideUnit c m)) (afterCommit c (storeScope c m ps))
  s.bufferFrom ⟨c.r, c.k.pc, c.act, c.k.region, m.scope⟩ (c.s.orderWait c.r).isSome (((ps.filter fun p => !(wideUnit c m p)).filterMap Piece.entry).drop n) n

/-- What a word's stores do (R215, R231, R232, R357): a shadow only folds what others could see; stores of a block that is not contained are
issued, and so are those to the core pad; a contained block's stores to device memory are buffered; a release wider than block, and a store to a
cluster or die pad, is issued after a commit. -/
def storeEffect (c : Ctx) (m : Storage) (w : Nat) (stores : List (Nat × List Byte)) (ps : List Piece) : State :=
  c.screened m.space w stores <|
    if c.b.shadow ∧ m.space ≠ .core then c.s
    else if c.la.contained = false ∨ (m.space = .core ∧ ps.any (wideUnit c m) = false) then c.issue m ps c.s
    else if m.space = .device then (buffered c m ps).1
    else c.issue m ps (afterCommit c (storeScope c m ps))

/-- Nothing keeps a word's stores waiting: where it commits, the commit is done, and the buffer takes what it is to take. -/
def storeFree (c : Ctx) (m : Storage) (ps : List Piece) : Prop := c.la.contained = true → (c.b.shadow = false ∨ m.space = .core) →
  (m.space ≠ .device → ps.any (wideUnit c m) = true ∨ m.space ≠ .core → commitDone c (storeScope c m ps))
  ∧ (m.space = .device → (∀ n, c.k.wait ≠ .buffered n) → ps.any (wideUnit c m) = true → commitDone c (storeScope c m ps))
  ∧ (m.space = .device → (buffered c m ps).2 = none ∧ ((buffered c m ps).1.block? c.r.blk).isSome = true)

/-- The registers of an F word's address (R254), and a group of the word's operands in range. -/
def addrF (x : F) : List Nat := groupOf x.a (if x.modN 6 5 = 0 then 2 else 1)
def okGroup (c : Ctx) (u : Bool) (r : BitVec 7) (n : Nat) : Prop := InRange c u (groupOf r n) ∧ (n = 2 → r.toNat % 2 = 0)
def okAddrF (c : Ctx) (x : F) : Prop := okGroup c x.h.u x.a (if x.modN 6 5 = 0 then 2 else 1)

/-- An F word that accesses storage in a block that is no shadow. -/
def AccessWord (i : Instr) (x : F) (reads writes : List Nat) (ok : Ctx → Prop) (m : Storage) (free : Ctx → Prop) (e : Ctx → State) : Prop :=
  ∀ s c, ReadyF x s c (vecLocs x.h.u (addrF x ++ reads)) (vecLocs x.h.u writes) → okAddrF c x → ok c → c.b.shadow = false →
    reaches (c.seen (actF x c) 0) m ((c.seen (actF x c) 0).fAddr x) → free (c.seen (actF x c) 0) →
    Effects i s c (actF x c) fun c => if c.lanes x.h.u = [] then c.s else e c

end Sys2Proof.Claims

/-- LD and ST (R253, R255, R256): a word whose addresses are in order issues its units, each thread's at its own address, or for a store
does what R231 gives; the store stream has the bytes of the word's width, the value alone of a jet (R119). -/
def Obligations.LoadsAndStores : Prop := ∀ (x : M) (s : State) (c : Ctx),
  let act := c.k.active x.h.g x.h.gn
  let c0 := c.seen act 0
  let units := fun (c : Ctx) => (targets c x.h.u (c.mAddr x)).flatMap fun e =>
    unitsAt c x e.1 e.2 (fun o n => .store (((c.storeData x e.1).drop o).take n)) fun _ => none
  okM x c →
  (Ready s c (Hdr.guard x.h ++ addrM x) (dataM x) → reaches c0 (mStorage c0 x false) (c0.mAddr x) →
    Effects (.ld x) s c act fun c => issued c (mStorage c x false) ((targets c x.h.u (c.mAddr x)).flatMap fun e =>
      unitsAt c x e.1 e.2 (fun _ _ => .load x.sx) fun i =>
        some (if x.w = 5 then ⟨false, x.d.toNat, e.1, some i⟩ else ⟨x.h.u, x.d.toNat + i, e.1, none⟩)) c.s)
  ∧ (Ready s c (Hdr.guard x.h ++ addrM x ++ dataM x) [] → reaches c0 (mStorage c0 x true) (c0.mAddr x) →
      storeFree c0 (mStorage c0 x true) (units c0) →
    Effects (.st x) s c act fun c => if c.lanes x.h.u = [] then c.s else
      storeEffect c (mStorage c x true) x.w.toNat
        ((targets c x.h.u (c.mAddr x)).map fun e => (e.2, (c.storeData x e.1).take (widthBytes x.w.toNat))) (units c))

/-- ATOM, CAS, FXADD and FXRD (R254, R257, R258): one event for each computing thread, after the commit of a contained block where the
word's effect leaves the core, which for an access to a HOSTWIN page is at system scope (R215). -/
def Obligations.ReadModifyWrites : Prop := ∀ x : F,
  let n := if x.mod.getLsbD 7 then 2 else 1
  -- the word commits: it leaves the core, or it is a release wider than block
  let commits := F.sp x ≠ 1 ∨ ((F.ord x).testBit 1 = true ∧ 1 < x.modN 2 0)
  let word := fun (c : Ctx) (r : BitVec 7) (t : Nat) => if n = 2 then (c.pair x.h.u r.toNat t).toNat else (c.val x.h.u r t).toNat
  let m := fStorage x (4 * n) true
  let scope := fun (c : Ctx) => windowScope c m ((targets c x.h.u (c.fAddr x)).map Prod.snd)
  let rmw := fun (i : Instr) (srcs : List (BitVec 7)) (kind : Ctx → Nat → AccKind) =>
    AccessWord i x (srcs.flatMap (groupOf · n)) (groupOf x.d n) (fun c => ∀ r ∈ x.d :: srcs, okGroup c x.h.u r n) m
      (fun c => commits → commitDone c (scope c)) fun c =>
        c.issue m ((targets c x.h.u (c.fAddr x)).map fun e =>
          ⟨e.1, e.2, 4 * n, kind c e.1, some ⟨x.h.u, x.d.toNat, e.1, none⟩⟩) (if commits then afterCommit c (scope c) else c.s)
  let read := fun (i : Instr) (clr : Bool) => F.sp x = 0 →
    AccessWord i x [] [x.d.toNat] (fun c => okGroup c x.h.u x.d 1) (fStorage x 16 clr) (fun c => commitDone c (x.modN 2 0)) fun c =>
      c.issue (fStorage x 16 clr) ((targets c x.h.u (c.fAddr x)).map fun e => ⟨e.1, e.2, 16, .fxrd clr, some ⟨x.h.u, x.d.toNat, e.1, none⟩⟩)
        (afterCommit c (x.modN 2 0))
  let adds := fun (c : Ctx) => (targets c x.h.u (c.fAddr x)).map fun e =>
    (⟨e.1, e.2, 16, .fxadd (x.modN 9 8) (c.val x.h.u x.b e.1), none⟩ : Piece)
  (∀ fn, rmw (.atom fn x) x.srcB fun c t => .atom fn.val (if x.bi then x.b.toNat else word c x.b t))
    ∧ rmw (.cas x) [x.b, x.c] (fun c t => .cas (word c x.b t) (word c x.c t))
    ∧ (F.sp x = 0 → AccessWord (.fxadd x) x [x.b.toNat] [] (fun c => okGroup c x.h.u x.b 1) (fStorage x 16 true)
        (fun c => storeFree c (fStorage x 16 true) (adds c)) fun c => storeEffect c (fStorage x 16 true) 0 [] (adds c))
    ∧ read (.fxrdRead x) false ∧ read (.fxrdClr x) true

/-- QLD and QST (R224, R259): one operation on each cell, with the payload of the highest thread that addresses it; a QST has the tag of its
heartbeat tick, its place in the tick and its core, and at most four issue in a tick. -/
def Obligations.QuorumWords : Prop := ∀ (x : M) (s : State) (c : Ctx),
  let act := c.k.active x.h.g x.h.gn
  let c0 := c.seen act 0
  let seq := fun (s : State) => if (s.core c.b.core).qst.1 = s.beat then (s.core c.b.core).qst.2 else 0
  okM x c → x.sp = 0 → c.b.shadow = false → commitDone c0 x.scope.toNat →
  (Ready s c (Hdr.guard x.h ++ addrM x) (dataM x) → reaches c0 (qStorage x false) (c0.mAddr x) →
    Effects (.qld x) s c act fun c => if c.lanes x.h.u = [] then c.s else
      (((afterCommit c x.scope.toNat).addQuorums ((targets c x.h.u (c.mAddr x)).map fun e =>
        c.quorumOp (qStorage x false) (if x.h.u then c.act else bit e.1) e.2 none (some ⟨x.h.u, x.d.toNat, e.1, none⟩))).nextPo c.r))
  ∧ (Ready s c (Hdr.guard x.h ++ addrM x ++ dataM x) [] → reaches c0 (qStorage x true) (c0.mAddr x) → seq (afterCommit c0 x.scope.toNat) < 4 →
    Effects (.qst x) s c act fun c => if c.lanes x.h.u = [] then c.s else
      let s := afterCommit c x.scope.toNat
      let tag : Dword := BitVec.ofNat 64 (s.beat % 2 ^ 52 * 4096 + seq s * 1024 + c.b.core)
      (((s.setCore c.b.core { s.core c.b.core with qst := (s.beat, seq s + 1) }).addQuorums
        ((cellStores c x (targets c x.h.u (c.mAddr x))).map fun e => c.quorumOp (qStorage x true) e.2.1 e.1 (some (tag, e.2.2)) none)).nextPo c.r))

/-- What issuing accesses does (R235, R246, R255): each unit is a pending access under a new number, in the order of the threads; every
older access, every byte of memory and every register is as before. -/
def Obligations.IssuedAccesses : Prop := ∀ (c : Ctx) (m : Storage) (ps : List Piece) (s : State), (∀ n, s.uid ≤ n → s.accs.get? n = none) →
  let t := c.issue m ps s
  (∀ i (h : i < ps.length), t.accs.get? (s.uid + i) = some (c.access m ps[i])) ∧ (∀ n < s.uid, t.accs.get? n = s.accs.get? n)
    ∧ (∀ n, s.uid + ps.length ≤ n → t.accs.get? n = none)
    ∧ { t with accs := s.accs, uid := s.uid, strands := s.strands } = s
    ∧ (∀ q, q ≠ c.r → t.strand? q = s.strand? q) ∧ t.strand? c.r = (s.strand? c.r).map fun k => { k with po := k.po + 1 }

/-- FENCE, FENCE.sc and WAITA (R244, R260, R261). A fence completes when what it orders has been performed, and stands then in the
program order of its threads; a FENCE.sc once the heartbeat count exceeds the one that it read and what stands before the writes that it has
observed has been performed; the threads of a WAITA sleep. -/
def Obligations.FencesAndWaits : Prop := ∀ x : F,
  (∀ ord scope, Does (.fence ord scope x) x [] []
      (fun c => c.s.heldThreads c.r = 0 ∧ (if ord = 0 then c.s.readsPending c.r = false else c.s.unperformed c.r = false)
        ∧ (ord ≠ 0 → 1 < scope.val → commitDone (c.seen (actF x c) 0) scope.val))
      fun c => if c.act = 0 then c.s
        else c.fenced ord.val scope.val (if ord ≠ 0 ∧ 1 < scope.val then afterCommit c scope.val else c.s))
  ∧ Does (.fenceSc x) x [] [] (fun c => actF x c = 0 ∨ ∃ beat, c.k.wait = .fence beat ∧ beat < c.s.beat ∧ c.s.observedDone c.k (actF x c) = true)
      (fun c => if c.act = 0 then c.s else c.s.fenceSc c.r c.act)
  ∧ (∀ s c, ReadyF x s c [] [] → actF x c ≠ 0 → c.k.wait = .none → s.orderWait c.r = none → c.la.contained = false →
      exec (.fenceSc x) s = .next ((s.modStrand c.r fun k => { k with wait := .fence s.beat }).stall c.r .memory))
  ∧ (F.sp x ≠ 3 → AccessWord (.waita x) x ((x.srcB ++ if x.mod.getLsbD 7 then [x.c] else []).map BitVec.toNat) [x.d.toNat]
      (fun c => ∀ r ∈ x.d :: (x.srcB ++ if x.mod.getLsbD 7 then [x.c] else []), okGroup c x.h.u r 1) (fStorage x 4 false)
      (fun c => commitDone c (x.modN 2 0)) fun c =>
        (((afterCommit c (x.modN 2 0)).modStrand c.r fun k => (targets c x.h.u (c.fAddr x)).foldl (fun k e => k.sleep e.1
          { threads := if x.h.u then c.act else bit e.1
            till := if x.mod.getLsbD 7 then some (c.now + (c.val x.h.u x.c e.1).toNat) else none
            waita := some
              { space := spaceOf (F.sp x), addr := e.2, cond := x.modN 10 8, b := c.opB x e.1, acq := (x.modN 4 3).testBit 0, scope := x.modN 2 0
                dst := ⟨x.h.u, x.d.toNat, e.1, none⟩, pc := c.k.pc, region := c.k.region } }) k).nextPo c.r))

/-! ## Barriers, skeins, queues, handles -/

namespace Sys2Proof.Claims

/-- No strand of the block waits on barrier `n`. -/
def noWaiter (c : Ctx) (n : Nat) : Prop := ∀ e ∈ c.s.strands, e.1.blk = c.r.blk → ∀ act tok, e.2.wait ≠ .barrier n act tok

/-- The operand of a BAR word, its registers and its range. -/
def barOp (c : Ctx) (x : F) : Nat := if x.bi then x.b.toNat else (c.k.sGet x.b.toNat).toNat

/-- A BAR word with its barrier, which does nothing without an active thread. -/
def BarWord (i : Instr) (x : F) (reads writes : List Loc) (ok : Ctx → Barrier → Prop) (e : Ctx → Barrier → State) : Prop :=
  Does i x reads writes (fun c => actF x c ≠ 0 → ok c (c.b.bar x.a.toNat)) fun c => if c.act = 0 then c.s else e c (c.b.bar x.a.toNat)

/-- A barrier that a word other than SET and STAT accepts (R264). -/
def usable (b : Barrier) : Prop := b.init = true ∧ b.ovf = false

/-- The barrier with `k` arrivals of the strand more (R263), behind what its active threads have behind them (R242). -/
def arrived (c : Ctx) (b : Barrier) (k : Nat) : Barrier :=
  { b with acnt := b.acnt + k, arrived := c.r.sid :: b.arrived, view := b.view.join (c.k.viewOf c.act) }

/-- The word's threads have behind them what a view has (R242). -/
def Ctx.learns (c : Ctx) (s : State) (v : View) : State := s.modStrand c.r fun k => k.sync c.act v

end Sys2Proof.Claims

/-- The BAR words (R262 to R264): SET, MARK, OWE, STAT and SHARE; WAIT completes when its own arrival completes the phase, or once another
event has; WAIT with a phase completes when the barrier has left it; each that waits for a phase has its arrivals behind it (R242). -/
def Obligations.BarrierWords : Prop := ∀ x : F,
  let n := x.a.toNat
  (argOk x → BarWord (.barSet x) x (argLocs x) [] (fun c _ => noWaiter c n) fun c b =>
      (c.s.setBar c.r.blk n { init := true, perSource := (barOp c x).testBit 12, aexp := barOp c x % 2 ^ 12, epoch := b.epoch + 1 }).applyHeld c.r.blk n)
  ∧ (argOk x → BarWord (.barMark x) x (argLocs x) []
      (fun c b => usable b ∧ c.s.orderWait c.r = none ∧ b.acnt + barOp c x ≤ b.aexp) fun c b =>
        if barOp c x = 0 then c.s else c.s.barEvent c.r.blk n (arrived c b (barOp c x)) true)
  ∧ BarWord (.barWait x) x [] [] (fun c b => c.k.wait = .none ∧ usable b ∧ c.s.orderWait c.r = none ∧ b.acnt + 1 ≤ b.aexp
        ∧ (arrived c b 1).full = true) (fun c b => let t := c.s.barEvent c.r.blk n (arrived c b 1) true
        Ctx.learns c t ((t.bar c.r.blk n).phaseView (b.phases % 2 ^ 16)))
  ∧ (∀ i ∈ [Instr.barWait x, .barWaitPhase x], x.b.toNat < 64 → BarWord i x [.s x.b.toNat] [] (fun c _ => c.k.wait = .released) fun c _ => c.s)
  ∧ (x.b.toNat < 64 → BarWord (.barWaitPhase x) x [.s x.b.toNat] []
      (fun c b => c.k.wait = .none ∧ usable b ∧ b.phases % 2 ^ 16 ≠ (c.k.sGet x.b.toNat).toNat % 2 ^ 16) fun c b =>
        Ctx.learns c c.s (b.phaseView ((c.k.sGet x.b.toNat).toNat % 2 ^ 16)))
  ∧ (argOk x → BarWord (.barOwe x) x (argLocs x) [] (fun c b => usable b ∧ noWaiter c n) fun c _ => c.s.postBar c.r.blk n (.owe c.b.core (barOp c x)))
  ∧ (x.d.toNat < 64 → BarWord (.barStat x) x [] [.s x.d.toNat] (fun _ _ => True) fun c b =>
      c.with (c.k.setS x.d.toNat (if b.init then BitVec.ofNat 32 ((if b.ovf then 2 ^ 31 else 0) + 2 ^ 30 + (if b.perSource then 2 ^ 29 else 0)
        + b.acnt % 2 ^ 12 * 2 ^ 16 + b.phases % 2 ^ 16) else 0)))
  ∧ (sNamed [x.b, x.c] → BarWord (.barShare x) x [.s x.b.toNat, .s x.c.toNat] []
      (fun c b => usable b ∧ b.perSource = true ∧ (b.src.length < 18 ∨ ∃ e ∈ b.src, e.core = (c.k.sGet x.b.toNat).toNat % 1024)) fun c b =>
        let core := (c.k.sGet x.b.toNat).toNat % 1024
        let v : Int := (c.k.sGet x.c.toNat).toNat
        let put := fun (e : BarSource) => if e.core = core then ⟨core, v, v⟩ else e
        c.s.setBar c.r.blk n { b with src := if ∃ e ∈ b.src, e.core = core then b.src.map put else b.src ++ [⟨core, v, v⟩] })

/-- A barrier's phase (R263): the event that meets the completion condition begins the next phase, with no arrival counted and each source's
share pending again, and releases the strands that wait; what stood before its arrivals is kept (R242); an event that does not leaves the phase. -/
def Obligations.BarrierPhases : Prop := ∀ (s : State) (blk n : Nat) (b : Block) (la : Launch) (x : Barrier),
  s.block? blk = some b → s.launch? b.launch = some la → la.mmr = 2 → x.ovf = false →
  let t := s.barEvent blk n x true
  (x.full = true → t.bar blk n = { x with phases := x.phases + 1, acnt := 0, pend := 0, arrived := [], src := x.src.map fun e => { e with pend := e.share },
                                            done := x.view :: x.done, view := {} }
      ∧ ∀ r k act, r.blk = blk → s.strand? r = some k → k.wait = .barrier n act none → (t.strand? r).map Strand.wait = some .released)
    ∧ (x.full = false → t.bar blk n = x ∧ t.strands = s.strands)
    ∧ ∀ m, m ≠ n → t.bar blk m = s.bar blk m

namespace Sys2Proof.Claims

/-- No engine operation of the block is under way. -/
def noOps (c : Ctx) : Prop := ∀ e ∈ c.s.ops, e.2.blk ≠ c.r.blk

/-- A handle register that names a live record (R268). -/
def names (c : Ctx) (x : F) (n : Nat) (e : HandleRec) : Prop := ∃ t, c.k.hGet x.a.toNat = some t ∧ c.s.liveRec c.b c.r.blk t = some (n, e)

end Sys2Proof.Claims

/-- The SKN words, QCFG and the queue forms of MOV (R123, R265 to R267): joining and leaving; a SYNC completes outside a skein, when the
other members wait in it, and once released; a push appends one entry, a pop takes the oldest into each active thread, which
has behind it what the push had (R242). -/
def Obligations.SkeinsAndQueues : Prop := ∀ x : F,
  (argOk x → Does (.sknJoin x) x (argLocs x) [] noOps fun c => if c.act = 0 then c.s else
      c.s.reskein c.r (some (if x.bi then x.b.toNat else (c.k.sGet x.b.toNat).toNat % 16)))
  ∧ Does (.sknLeave x) x [] [] noOps (fun c => c.s.reskein c.r none)
  ∧ Does (.sknSync x) x [] [] (fun c => c.k.wait = .released ∨ (c.k.wait = .none ∧ c.k.skein = none ∧ ~~~c.k.exited &&& ~~~c.k.mask = 0)) Ctx.s
  ∧ (∀ k, Does (.sknSync x) x [] [] (fun c => c.k.wait = .none ∧ c.k.skein = some k ∧ ~~~c.k.exited &&& ~~~c.k.mask = 0 ∧ noOps c
        ∧ c.s.orderWait c.r = none ∧ c.k.ended = false ∧ (c.s.strands.map Prod.fst).Nodup ∧ ∀ e ∈ c.s.skeinOf c.r.blk k, e.1 ≠ c.r → e.2.wait = .sync)
      fun c => (c.s.modStrand c.r fun x => { x with wait := .sync }).syncDone c.r.blk k)
  ∧ (x.a.toNat < 64 → Does (.qcfg x) x [.s x.a.toNat] []
      (fun c => (queueOf (c.k.sGet x.a.toNat)).depth = 0 → ∀ e ∈ c.s.strands, e.1.blk = c.r.blk → ∀ push act, e.2.wait ≠ .queue x.d.toNat push act)
      fun c => if c.act = 0 then c.s else (c.s.setQueue c.r.blk x.d.toNat (queueOf (c.k.sGet x.a.toNat)) c.start).noteStalls c.b.core (some c.r.blk))
  ∧ (∀ e es, Does (.movQueuePop x) x [] [.v x.d.toNat]
      (fun c => x.h.u = false ∧ x.d.toNat < c.la.nregs ∧ (c.b.queue x.a.toNat).depth ≠ 0 ∧ (c.b.queue x.a.toNat).entries = e :: es)
      fun c => if c.act = 0 then c.s else
        let q := c.b.queue x.a.toNat
        ((c.s.setStrand c.r { (threadsOf c.act).foldl (fun k t => k.put c.la false t (x.d.toNat, .flat (e.getD t 0)))
          (c.k.sync c.act (q.views.headD {})) with wait := .none }).setQueue
            c.r.blk x.a.toNat { q with entries := es, views := q.views.tail } c.start).noteStalls c.b.core (some c.r.blk))
  ∧ Does (.movQueuePush x) x [.v x.a.toNat] []
      (fun c => x.h.u = false ∧ x.a.toNat < c.la.nregs ∧ (c.b.queue x.d.toNat).depth ≠ 0 ∧ c.s.pushBlocked c.b x.d.toNat = false ∧ c.s.orderWait c.r = none)
      fun c => if c.act = 0 then c.s else
        ((c.s.setStrand c.r { c.k with wait := .none }).setQueue c.r.blk x.d.toNat { c.b.queue x.d.toNat with
          entries := (c.b.queue x.d.toNat).entries ++ [(List.range 32).map fun t => if c.act.getLsbD t then c.k.vGet x.a.toNat t else 0]
          views := (c.b.queue x.d.toNat).views ++ [c.k.viewOf c.act] } c.start).noteStalls c.b.core (some c.r.blk)

/-- The handle forms of MOV and the HND words (R123, R268 to R270), of a handle that names a record; what sees an operation completed has
its events behind it (R243). HND.CANCEL of an operation that has
completed does nothing; of a copy without a barrier or a follow-on, other than a CPR, it ends the copy as cancelled. -/
def Obligations.HandleWords : Prop := ∀ (x : F) (n : Nat) (e : HandleRec),
  (∀ w, e.status = some w →
      Does (.movHandleStatus x) x [] [locOf x.h.u x.d.toNat] (fun c => inRange x.h [x.d] c ∧ names c x n e)
        (fun c => if c.act = 0 then c.s else c.with ((c.lanes x.h.u).foldl (fun k t => k.put c.la x.h.u t (x.d.toNat, .flat w)) (c.k.sync c.act e.view)))
      ∧ Does (.hndWait x) x [] [] (fun c => names c x n e) (fun c => if c.act = 0 then c.s else Ctx.learns c c.s e.view) ∧ Does (.hndCancel x) x [] [] (fun c => names c x n e) Ctx.s)
  ∧ DoesOnce (.movHandleToken x) x [] [.s x.d.toNat] (fun c => x.d.toNat < 64 ∧ names c x n e) (fun c => c.k.setS x.d.toNat (token e.gen c.b.slot n))
  ∧ DoesOnce (.hndTest x) x [] [.s x.d.toNat] (fun c => x.d.toNat < 64 ∧ names c x n e) (fun c =>
      (if e.status.isSome then c.k.sync c.act e.view else c.k).setS x.d.toNat (e.status.getD 0xFFFFFFFF))
  ∧ (x.a.toNat < 64 → Does (.movTokenHandle x) x [.s x.a.toNat] [.h x.d.toNat] (fun _ => True) fun c =>
      if c.act = 0 then c.s else c.s.writeH c.r x.d.toNat (some (c.k.sGet x.a.toNat)))
  ∧ Does (.hndMove x) x [] [] (fun c => names c x n e) (fun c => if c.act = 0 ∨ x.d = x.a then c.s else
      (c.s.modStrand c.r fun k => (k.setH x.d.toNat (k.hGet x.a.toNat)).setH x.a.toNat none).sweep c.r.blk)
  ∧ ∀ o, e.status = none → Does (.hndCancel x) x [] []
      (fun c => names c x n e ∧ c.s.op? e.op = some o ∧ o.kind.copy = true ∧ o.kind ≠ .cpr ∧ o.posts = [] ∧ o.lead.w.be = false ∧ o.follow = none)
      fun c => if c.act = 0 then c.s else c.s.cancelOp e.op

/-! ## Engine words -/

namespace Sys2Proof.Claims

/-- The words that issue engine operations, with what each issues; CPL.fo stands apart. -/
def engineWords (x : E) : List (Instr × CollWord) :=
  [(.cpl x, ⟨.cpl, x, 0⟩), (.cps x, ⟨.cps, x, 0⟩), (.cpm x, ⟨.cpm, x, 0⟩), (.cpq x, ⟨.cpq, x, 0⟩), (.cpx x, ⟨.cpx, x, 0⟩), (.cpr x, ⟨.cpr, x, 0⟩),
   (.mxb x, ⟨.mxb, x, 0⟩), (.mxsw x, ⟨.mxsw, x, 0⟩), (.mxsq x, ⟨.mxsq, x, 0⟩), (.mma 0 x, ⟨.mma, x, 0⟩), (.mma 1 x, ⟨.mma, x, 1⟩),
   (.mma 2 x, ⟨.mma, x, 2⟩), (.mma 3 x, ⟨.mma, x, 3⟩), (.mma 4 x, ⟨.mma, x, 4⟩), (.mxd x, ⟨.mxd, x, 0⟩), (.mxdGuide x, ⟨.guide, x, 1⟩),
   (.mxcClear x, ⟨.clear, x, 0⟩), (.mxcPair x, ⟨.pair, x, 1⟩), (.mxcUnpair x, ⟨.unpair, x, 2⟩)]

/-- The registers that an engine word reads and writes. -/
def engReads (w : CollWord) : List Loc := (engRegs w.kind w.w).map .s
def engWrites (w : CollWord) : List Loc := if w.w.hw then [.h w.w.hd.toNat] else []

/-- The operands of a word as its strand holds them (R182, R192). -/
def operands (c : Ctx) (w : CollWord) : EngWord := c.k.engWord w.kind w.w w.fn

/-- A word that passes every check that its arrival makes (R181, R192, R193, R272), and for which nothing waits: all threads of the strand that
have not exited are in its current group, no other operation awaits the strand, and its array is free for it. -/
structure MayArrive (c : Ctx) (w : CollWord) : Prop where
  range  : engRange w.kind w.w = false
  shadow : c.b.shadow = false
  fresh  : c.k.wait = .none
  checks : ∀ e ∈ (arrivalChecks c.la c.k.skein w.kind (operands c w)).1 ++ (arrivalChecks c.la c.k.skein w.kind (operands c w)).2
             ++ flagChecks c.la (operands c w), e.1 = false
  whole  : c.k.mask = ~~~c.k.exited
  alone  : c.s.awaiting c.r.blk c.k.skein = [] ∧ c.s.syncWaits c.r.blk c.k.skein = false
  bar    : w.w.be = true → (c.b.bar w.w.bn.toNat).init = true
  open'  : c.holdOff w.kind = none
  order  : c.s.orderWait c.r = none
  unpaired : w.kind = .pair → (c.s.core c.b.core).array.bind MatrixArray.pair = none

/-- The arrival that a strand brings (R182). -/
def arrival (c : Ctx) (w : CollWord) : Arrival := ⟨c.r.sid, c.k.pc, c.k.mask, c.k.region, operands c w, none, c.k.sig⟩

/-- The operation that the word of a strand outside every skein begins. -/
def beginning (c : Ctx) (w : CollWord) : EngOp :=
  { kind := w.kind, blk := c.r.blk, launch := c.b.launch, core := c.b.core, fe := c.la.fe, skein := none, bk := false, arr := [arrival c w] }

/-- The token in the handle register that a word with HW = 1 names. -/
def gotHandle (c : Ctx) (w : CollWord) (i : Nat) (k : Strand) : Prop :=
  if w.w.hw then k.hGet w.w.hd.toNat = some (token ((c.s.core c.b.core).record i).gen c.b.slot i) else k.h = c.k.h

end Sys2Proof.Claims

/-- The engine words (R181, R182, R194, R274): a word whose operation has started completes; the word of a strand that no member need wait for
arrives, folding its word (R52), and what its operation then does decides: it completes, or the strand waits in it. -/
def Sys2Proof.Claims.EngineWordsArrive : Prop := ∀ (x : E) (i : Instr) (w : CollWord), (i, w) ∈ engineWords x →
  (∀ s c n, Ready s c (engReads w) (engWrites w) → engRange w.kind x = false → c.b.shadow = false → c.k.wait = .started n →
      Effects i s c c.k.mask Ctx.s false true)
    ∧ ∀ s c, Ready s c (engReads w) (engWrites w) → MayArrive c w → ∃ start, c.k.ready ≤ start ∧
      let c' := c.seen c.k.mask start
      match c'.join w (operands c w) none [i] with
      | .done e => ∃ t, exec i s = .next t ∧ Finishes i c' e t false true
      | .wait why e => exec i s = .next (e.stall c.r why)
      | .over e => exec i s = .next e
      | _ => False

/-- A copy starts (R193, R268, R271, R274): the copy word of a strand that issues alone, in a block without containment, with a free record and
a port with room, and which no check at start stops, completes; its operation runs with the operands of the strand, an asked-for handle names
its record, and the block's pad and the registers are as before. -/
def Obligations.CopiesStart : Prop := ∀ (x : E) (i : Instr) (w : CollWord) (s : State) (c : Ctx) (rec : Nat), (i, w) ∈ engineWords x → w.kind.copy = true →
  Ready s c (engReads w) (engWrites w) → MayArrive c w → c.k.skein = none → w.bk = false → x.be = false → c.la.contained = false → s.ops = [] →
  (s.core c.b.core).freeRec = some rec → (w.kind = .cpl → x.fo = false) → s.live c.r.blk = true →
  s.startCause c.la { beginning c w with descs := s.readDescs (beginning c w) } c.b.index = none →
  ∃ t k n o, exec i s = .next t ∧ t.strand? c.r = some k ∧ t.ops = [(n, o)] ∧ k.pc = c.k.pc + 8 ∧ k.v = c.k.v ∧ k.s = c.k.s ∧ k.m = c.k.m
    ∧ k.sig = foldWord c.k.sig (foldOf i) ∧ gotHandle c w rec k
    ∧ o.kind = w.kind ∧ o.arr = [arrival c w] ∧ o.stage = .running ∧ (w.kind = .cpr → o.started = s.ns) ∧ o.record = (if x.hw then some rec else none)
    ∧ o.blk = c.r.blk ∧ o.moved = [] ∧ o.cause = 0
    ∧ (∀ b, t.block? c.r.blk = some b → b.pad = c.b.pad)

namespace Sys2Proof.Claims

/-- The words whose operations enter array order by themselves, with what each issues. -/
def enteringWords (x : E) : List (Instr × CollWord) :=
  [(.mxb x, ⟨.mxb, x, 0⟩), (.mxsw x, ⟨.mxsw, x, 0⟩), (.mxsq x, ⟨.mxsq, x, 0⟩), (.mma 0 x, ⟨.mma, x, 0⟩), (.mma 1 x, ⟨.mma, x, 1⟩),
   (.mma 2 x, ⟨.mma, x, 2⟩), (.mma 3 x, ⟨.mma, x, 3⟩), (.mma 4 x, ⟨.mma, x, 4⟩), (.mxd x, ⟨.mxd, x, 0⟩), (.mxcClear x, ⟨.clear, x, 0⟩)]

/-- The array as a strand finds it: its block's, or a free one, which it claims (R164). -/
def arrayFor (s : State) (c : Ctx) : MatrixArray := ((s.core c.b.core).array).getD { owner := c.r.blk }

/-- The rows operand, the K and N operand of MMA and MXD, and the scale bytes that an MMA claims (R169, R198). -/
def rowsWord (w : EngWord) : Word := w.sb.getD 0 0
def kWord (w : EngWord) : Word := w.sb.getD 1 0
def claimed (w : EngWord) : Nat := if w.aScaled then rowsOf (rowsWord w) * ((kOf (kWord w) + 31) / 32) else 0

/-- The rows of an operation lie in the accumulators (R198, R201, R202). -/
def rowsFit (w : EngWord) : Prop := row0Of (rowsWord w) + rowsOf (rowsWord w) ≤ 32

/-- What an operation needs when it enters array order, of the state that those before it leave (R194 to R202); `d` is the entry of MXB's tensor. -/
def mayEnter (a : MatrixArray) (k : EngKind) (w : EngWord) (d : BitVec 512) : Prop :=
  match k with
  | .mxb => mxbCause w d = none
  | .mxsq => a.count + sqRows w * sqBytes w ≤ 1024
  | .mma => a.liveMeta.loaded = true ∧ rowsFit w ∧ (a.liveMeta.fmt = 2 → nOf (kWord w) ≤ 256) ∧ w.formatBad a.liveMeta = false ∧ claimed w ≤ a.count
  | .mxd | .clear => rowsFit w
  | _ => True

/-- The array once the operation `n` has entered (R164, R194): it is the last in order, and the state that it leaves counts for the checks of later
ones: an MXB gives the shadow bank its format, an MXSW exchanges the banks, an MXSQ adds scale bytes and an MMA claims them. -/
def entered (a : MatrixArray) (n : Nat) (k : EngKind) (w : EngWord) (d : BitVec 512) : MatrixArray :=
  let t := tdeOf d
  let x := w.sa.getD 3 0
  let a : MatrixArray := match k with
    | .mxb => { a with shadowMeta := { loaded := true, fmt := t.fmt, scaled := t.sbase != 0, k := kOf x, n := nOf x } }
    | .mxsw => { a with liveMeta := a.shadowMeta, shadowMeta := a.liveMeta }
    | .mxsq => { a with count := a.count + sqRows w * sqBytes w }
    | .mma => { a with count := a.count - claimed w }
    | _ => a
  { a with order := a.order ++ [n] }

end Sys2Proof.Claims

/-- Array words in array order (R164, R169, R178, R194 to R203): the word of a strand that issues alone, on an array that is free or its block's, with a
free record where it asks for a handle, completes; its operation stands last in order, has not yet acted, and leaves the state and the claims
that later ones are checked against. An MXC.UNPAIR has its effect at once; an MXC.PAIR that finds its partner waiting forms the pair. -/
def Obligations.ArrayWordsEnter : Prop := ∀ (x : E) (s : State) (c : Ctx) (rec : Nat),
  let a := arrayFor s c
  a.owner = c.r.blk → a.pair = none → s.live c.r.blk = true → c.la.contained = false → s.op? s.uid = none →
  (x.hw = true → (s.core c.b.core).freeRec = some rec) →
  (c.k.skein = none → ∀ i w, (i, w) ∈ enteringWords x → Ready s c (engReads w) (engWrites w) → MayArrive c w →
    let d := (s.fe c.la.fe).tde (((operands c w).sa.getD 0 0).toNat % 4096)
    mayEnter a w.kind (operands c w) d →
    ∃ t k o, exec i s = .next t ∧ t.strand? c.r = some k ∧ k.pc = c.k.pc + 8 ∧ gotHandle c w rec k ∧ t.op? s.uid = some o ∧ (∀ m, m ≠ s.uid → t.op? m = s.op? m)
      ∧ o.stage = .running ∧ o.kind = w.kind ∧ o.arr = [arrival c w] ∧ (t.core c.b.core).array = some (entered a s.uid w.kind (operands c w) d))
  ∧ (let w : CollWord := ⟨.unpair, x, 2⟩
    c.k.skein = none → x.be = false → x.fe = false → s.ops = [] → Ready s c [] (engWrites w) → MayArrive c w →
    ∃ t k, exec (.mxcUnpair x) s = .next t ∧ t.strand? c.r = some k ∧ k.pc = c.k.pc + 8 ∧ gotHandle c w rec k ∧ t.ops = [])
  ∧ (let w : CollWord := ⟨.pair, x, 1⟩
    let named := operands c w
    ∀ sk m q, c.k.skein = some sk → (∀ e ∈ s.skeinOf c.r.blk sk, e.1 = c.r) → x.be = false → x.fe = false → s.ops = [(m, q)] → Ready s c (engReads w) (engWrites w) →
      MayArrive c w → q.kind = .pair → q.blk = c.r.blk → q.stage = .ready → q.skein = some (pairPartner named) → pairPartner q.lead = sk →
      pairCond q.lead ≠ pairCond named → q.handles = [] → q.posts = [] → q.lead.w.be = false → q.lead.w.fe = false →
    ∃ t k, exec (.mxcPair x) s = .next t ∧ t.strand? c.r = some k ∧ k.pc = c.k.pc + 8 ∧ gotHandle c w rec k ∧ t.ops = []
      ∧ (t.core c.b.core).array = some { a with pair := some (if pairCond named then ⟨sk, pairPartner named⟩ else ⟨pairPartner named, sk⟩) })

/-- CPL.fo (R282): a started one completes, the strand going on past its MMA word; both words were folded at its arrival (R52). -/
def Sys2Proof.Claims.FollowOnWord : Prop := ∀ (x y : E) (sr : Fin 5) (s : State) (c : Ctx) (n : Nat),
  c.nextWord = .mma sr y → engRange .cpl x = false → c.b.shadow = false → c.k.wait = .started n →
  Ready s c ((engRegs .cpl x ++ engRegs .mma y).map .s) ((if x.hw then [.h x.hd.toNat] else []) ++ if y.hw then [.h y.hd.toNat] else []) →
  Effects (.cplFo x) s c c.k.mask (fun c => c.with { c.k with pc := c.k.pc + 16 }) true true

/-- The words that issue engine operations, CPL.fo among them (R181, R194, R274, R282). -/
def Obligations.EngineWords : Prop := EngineWordsArrive ∧ FollowOnWord

/-! ## Sampling, tables, Heddle -/

namespace Sys2Proof.Claims

/-- The sample that a thread asks for (R159, R162): its coordinates with their components, the record bound at the point, and its place in the
thread's program order. -/
def sampleOf (c : Ctx) (x : F) (lod : Bool) (record : BitVec 512) (t : Nat) : SampleOp :=
  let jet := fun (r : BitVec 7) => decide (r.toNat < c.la.jregs)
  { strand := c.r, fe := c.la.fe, launch := c.b.launch, core := c.b.core, t, pc := c.k.pc, region := c.k.region, d := x.d.toNat
    point := x.modN 3 0, record, u := c.k.vGet x.a.toNat t, v := c.k.vGet x.b.toNat t
    us := if jet x.a then (List.range c.d).map (c.k.compGet x.a.toNat t ·) else []
    vs := if jet x.b then (List.range c.d).map (c.k.compGet x.b.toNat t ·) else []
    uScreen := if jet x.a then (c.tangent x.a t 0, c.tangent x.a t 1) else (0, 0)
    vScreen := if jet x.b then (c.tangent x.b t 0, c.tangent x.b t 1) else (0, 0)
    lod := if lod then some (c.k.vGet x.c.toNat t) else none, view := c.k.viewOf (bit t), po := c.k.po }

/-- Adding samples under new numbers. -/
def addSamples (s : State) (os : List SampleOp) : State :=
  os.foldl (fun s o => { s with uid := s.uid + 1, samples := s.samples.put s.uid o }) s

/-- What a TDE word waits for, and a TEXB word, which does not wait for a sample of its own strand (R160). -/
def tdeFree (s : State) (r : StrandRef) : Prop := s.orderWait r = none
def texbFree (s : State) (r : StrandRef) : Prop := ({ s with samples := s.samples.filter fun e => e.2.strand != r } : State).orderWait r = none

/-- A word over a service (R163, R204): it asks for the service, and completes when the service is done. One that is a `release` stands first behind
its strand's accesses as a release fence at device scope does (R160, R205, R242). -/
def ServiceWord (i : Instr) (x : F) (reads : List Loc) (release : Bool) (free : State → StrandRef → Prop) (ok : Ctx → Prop) (what : Ctx → Request) : Prop :=
  Does i x reads [] (fun c => ok c ∧ c.b.shadow = false ∧ (actF x c = 0 ∨ ∃ n, c.k.wait = .started n)) Ctx.s
    ∧ ∀ s c, ReadyF x s c reads [] → ok c → c.b.shadow = false → actF x c ≠ 0 → c.k.wait = .none → free s c.r → c.la.contained = false →
      let asked : ServiceOp := ⟨c.r, c.la.fe, c.b.launch, c.b.core, c.k.pc, actF x c, c.k.region, what c, .no, 0⟩
      let after : State := if release then s.modStrand c.r fun k => k.learn (actF x c) fun z => z.fence (.ofStrand c.r c.b.core) false true 4 else s
      exec i s = .next ((({ after with uid := s.uid + 1, services := s.services.put s.uid asked }).modStrand c.r fun k =>
        { k with wait := .op s.uid }).stall c.r .other)

/-- The place of TDE.write and TDE.read: its registers, its address, and its checks (R204). -/
def tdeRegs (x : F) : List Loc := [.s x.a.toNat, .s x.b.toNat] ++ if x.modN 1 0 = 0 then [.s (x.b.toNat + 1)] else []
def tdePlace (c : Ctx) (x : F) : Nat := if x.modN 1 0 = 0 then (c.k.sPair x.b.toNat).toNat else (c.k.sGet x.b.toNat).toNat
def tdeFits (x : F) (c : Ctx) : Prop :=
  x.a.toNat < 64 ∧ Claims.pairOk x.b ∧ (c.k.sGet x.a.toNat).toNat < 4096 ∧ tdePlace c x % 64 = 0
    ∧ (x.modN 1 0 ≠ 0 → tdePlace c x + 64 ≤ c.la.padSize (spaceOf (x.modN 1 0)))

end Sys2Proof.Claims

/-- SAMPLE and SAMPLE.lod (R159, R162): one request for each active thread, of a bound point, in full service, once the acquires before it have
returned (R238), and no request of the strand is held in a 64 KiB range that it reads (R219); a request has behind it what its thread has. -/
def Sys2Proof.Claims.SampleRequests : Prop := ∀ (x : F) (lod : Bool) (record : BitVec 512),
  let srcs := [x.a, x.b] ++ if lod then [x.c] else []
  Does (if lod then .sampleLod x else .sample x) x (srcs.map fun r => .v r.toNat) ((groupOf x.d 4).map .v)
    (fun c => x.h.u = false ∧ inRange x.h srcs c ∧ InRange c false (groupOf x.d 4) ∧ c.s.service ≠ .reduced
      ∧ c.b.committing = none ∧ c.s.acquireWait c.r = none ∧ (c.s.fe c.la.fe).binds.get? (x.modN 3 0) = some record
      ∧ ∀ t < 32, (actF x c).getLsbD t → c.s.heldInRange c.r (inRanges ((sampleOf c x lod record t).vas (textureOf record) c.la) 64) = false)
    fun c => if c.act = 0 then c.s else (addSamples c.s ((threadsOf c.act).map (sampleOf c x lod record))).nextPo c.r

/-- TEXB and TDE words (R163, R204, R205): a word asks for its service and waits for it, and completes when it is done. -/
def Sys2Proof.Claims.ServiceRequests : Prop := ∀ x : F,
  let tid := fun (c : Ctx) => (c.k.sGet x.a.toNat).toNat % 4096
  ServiceWord (.texbBind x) x (pairLocs x.a) true texbFree (fun c => Claims.pairOk x.a ∧ (c.k.sPair x.a.toNat).toNat % 64 = 0 ∧ c.s.service ≠ .reduced)
      (fun c => .bind (x.modN 3 0) (c.k.sPair x.a.toNat).toNat)
    ∧ ServiceWord (.texbInval x) x [] true texbFree (fun c => c.s.service ≠ .reduced) (fun _ => .inval (x.modN 3 0))
    ∧ ServiceWord (.tdeWrite x) x (tdeRegs x) true tdeFree (tdeFits x) (fun c => .tdeWrite (tid c) (spaceOf (x.modN 1 0)) (tdePlace c x))
    ∧ ServiceWord (.tdeRead x) x (tdeRegs x) (decide (2 ≤ x.modN 1 0)) tdeFree (tdeFits x) (fun c => .tdeRead (tid c) (spaceOf (x.modN 1 0)) (tdePlace c x))
    ∧ ServiceWord (.tdeInval x) x [.s x.a.toNat] true tdeFree (fun c => x.a.toNat < 64 ∧ (c.k.sGet x.a.toNat).toNat < 4096) (fun c => .tdeInval (tid c))

/-- The words of the sampler and of the descriptor table (R159, R162, R163, R204, R205). -/
def Obligations.SamplerAndTableWords : Prop := SampleRequests ∧ ServiceRequests

/-- HDL.LOAD and HDL.PERM (R189, R190, R206): a draft of 128 bytes, none between 0x80 and 0xFE, is loaded from a pad as the
active threads read it, the pad's bytes where every write of them happens before the word; destination register j
of thread t receives the word of source register i ÷ 32 of thread i mod 32 for the draft's byte i at 32 j + t, or zero where i is 0xFF, and
components with it. -/
def Obligations.HeddleWords : Prop := ∀ x : F,
  let n := x.modN 2 0
  let sp := spaceOf (x.modN 5 4)
  let a := fun (c : Ctx) => (c.k.sGet x.a.toNat).toNat
  let place := fun (c : Ctx) => padPlace c.r.blk c.b.launch c.b.core sp
  let got := fun (c : Ctx) => c.s.readRunAs (place c) (c.k.viewOf c.act) 1 (a c) 128 c.s.fresh
  (x.a.toNat < 64 → Does (.hdlLoad x) x [.s x.a.toNat] []
      (fun c => a c % 16 = 0 ∧ a c + 128 ≤ c.la.padSize sp ∧ c.draftWait sp (a c) = none ∧ c.s.padPoisoned (place c) (a c) 128 = false
        ∧ ∀ b ∈ (got (c.seen (actF x c) 0)).bytes, b.toNat < 0x80 ∨ b.toNat = 0xFF)
      fun c => if c.act = 0 then c.s else
        (c.s.modStrand c.r fun k => k.learn c.act fun z => z.read (.ofStrand c.r c.b.core) false 1 (place c) (a c) 128 (got c).from_).modBlock
          c.r.blk fun b => { b with drafts := (b.drafts.put (256 * n) (got c).bytes).put (256 * n + 128) [1] })
  ∧ (∀ (s : State) pl v g lo len seed, (∀ e ∈ s.past, e.seq ≤ v.base ∨ e.touches pl lo len = false) →
      (s.readRunAs pl v g lo len seed).bytes = (s.memAt pl).bytes lo len)
  ∧ ∀ s c, ReadyF x s c ((groupOf x.a 4).map .v) ((groupOf x.d 4).map .v) → x.h.u = false → InRange c false (groupOf x.a 4 ++ groupOf x.d 4) →
      c.b.draftReady n = true →
      (∀ j < 4, ∀ t < 32, (Cells.get c.b.drafts (256 * n + 32 * j + t)).toNat < 128 ∨ (Cells.get c.b.drafts (256 * n + 32 * j + t)).toNat = 0xFF) →
      ∃ u k, Completed (.hdlPerm x) s c u k ∧ Delivered c false (actF x c) k fun t => (List.range 4).map fun j =>
        let i := (Cells.get c.b.drafts (256 * n + 32 * j + t)).toNat
        (x.d.toNat + j, if i = 0xFF then .flat 0 else c.jet false (BitVec.ofNat 7 (x.a.toNat + i / 32)) (i % 32))

/-! ## Events of memory and strands -/

namespace Sys2Proof.Claims

/-- A pending access of a running block that an ACCESS_PERFORMED may perform (R246, R255). -/
def due (s : State) (n : Nat) (a : Access) : Prop := s.accs.get? n = some a ∧ s.mayPerform n a = true

/-- The value that a unit holds, lowest byte first, and its bytes. -/
def unitOf (m : Memory) (a size : Nat) : Nat := m.num a size

/-- The new value of a unit of `w` bits under an ATOM function (R257). -/
def atomNew (fn : Fin 9) (w old b : Nat) : Nat :=
  let o : Int := if old < 2 ^ (w - 1) then old else (old : Int) - 2 ^ w
  let x : Int := if b < 2 ^ (w - 1) then b else (b : Int) - 2 ^ w
  match fn with
  | 0 => (old + b) % 2 ^ w | 1 => if x < o then b else old | 2 => if o < x then b else old | 3 => min old b | 4 => max old b
  | 5 => old &&& b | 6 => old ||| b | 7 => old ^^^ b | 8 => b

/-- Every write of a unit happens before what the threads of a mask do next: they read its newest contents (R246). -/
def upToDate (s : State) (r : StrandRef) (m : Word) (pl : Place) (a n : Nat) : Prop :=
  ∀ e ∈ s.past, ∀ i < n, e.touches pl (a + i) 1 = true → e.seq ≤ (((s.strand? r).getD {}).viewOf m).at pl (a + i)

/-- The cell after an FXADD of the value `x` (R98, R99): a NaN or an infinity sets NANINF, a magnitude of 2^55 or more RANGE; else x × 2^64, rounded to
an integer half to even, is added modulo 2^120, and an inexact rounding sets INEXACT. -/
def cellAfter (cell : BitVec 128) (x : Fv) : BitVec 128 :=
  let value := cell.extractLsb' 0 120
  let make := fun (status : BitVec 3) (v : BitVec 120) => (cell.extractLsb' 125 3 ||| status) ++ 0#5 ++ v
  match x with
  | .fin neg m e =>
    let n := m * 2 ^ (e + 64).toNat
    let d := 2 ^ (-(e + 64)).toNat
    let i : Int := (n / d : Nat) + if d < 2 * (n % d) ∨ (2 * (n % d) = d ∧ n / d % 2 = 1) then 1 else 0
    if 2 ^ 119 * d ≤ n then make 4 value
    else make (if n % d = 0 then 0 else 2) (BitVec.ofInt 120 (value.toInt + if neg then -i else i))
  | _ => make 1 value

/-- What an access leaves in a unit of `size` bytes that held `old` (R255 to R258). -/
def newUnit (k : AccKind) (size old : Nat) : Nat :=
  match k with
  | .store d => numOf d
  | .atom fn v => if h : fn < 9 then atomNew ⟨fn, h⟩ (8 * size) old v else old
  | .cas c v => if old = c then v else old
  | .fxadd f x => (cellAfter (BitVec.ofNat 128 old) (addend f x)).toNat
  | .fxrd true => 0
  | .load _ | .fxrd false => old

/-- Whether it writes the unit. -/
def writesUnit (k : AccKind) (old : Nat) : Bool :=
  match k with
  | .load _ | .fxrd false => false
  | .cas c _ => old == c
  | _ => true

/-- The words that an access returns of a unit that held `old`, and the flags it raises: those of the unit, a short load's extended, or for FXRD the value of
the cell by rne32 (R99, R258). -/
def returns (k : AccKind) (size old : Nat) : List Word × Flags :=
  let ws := (List.range ((size + 3) / 4)).map fun i => BitVec.ofNat 32 (old / 2 ^ (32 * i))
  match k with
  | .store _ | .fxadd _ _ => ([], 0)
  | .load true => (if size < 4 then [(BitVec.ofNat (8 * size) old).signExtend 32] else ws, 0)
  | .fxrd _ =>
    let cell := BitVec.ofNat 128 old
    let i := (cell.extractLsb' 0 120).toInt
    if cell.getLsbD 125 then ([0x7FC00000], 0) else let v := rne32 (.fin (i < 0) i.natAbs (-64)); ([toWord v], v.fl)
  | _ => (ws, 0)

/-- An access as its word issues it: its kind fits the size of its unit. -/
def fitsUnit (k : AccKind) (size : Nat) : Prop :=
  match k with
  | .store d => d.length = size
  | .load _ => 0 < size
  | .atom fn v => fn < 9 ∧ (size = 4 ∨ size = 8) ∧ v < 2 ^ (8 * size)
  | .cas _ v => (size = 4 ∨ size = 8) ∧ v < 2 ^ (8 * size)
  | .fxadd _ _ | .fxrd _ => size = 16

/-- What the strand of an access has received once it is performed: where it waits for whole registers, the words, and the flags. -/
def Returned (s t : State) (a : Access) (old : Nat) : Prop := ∀ d k, a.dst = some d → d.part = none → s.strand? a.strand = some k →
  (s.launchOf a.strand.blk).isSome → ∃ k', t.strand? a.strand = some k' ∧ k'.fpflags = k.fpflags ||| (returns a.kind a.size old).2
    ∧ ∀ i w, (returns a.kind a.size old).1[i]? = some w → (if d.uni then k'.sGet (d.reg + i) else k'.vGet (d.reg + i) d.t) = w

/-- A strand that comes to its boundary without a block entry to make and without a group at its PC. -/
def quiet (k : Strand) : Prop := k.entry = false ∧ ∀ g ∈ k.groups, g.pc ≠ k.pc

end Sys2Proof.Claims

/-- An access to the core pad. -/
def Sys2Proof.Claims.PadAccesses : Prop := ∀ (s : State) (n : Nat) (a : Access) (b : Block), due s n a → s.block? a.strand.blk = some b → a.space = .core →
  fitsUnit a.kind a.size → (∀ clr, a.kind ≠ .fxrd clr) → (∀ f x, a.kind ≠ .fxadd f x) →
  (a.kind.reads = true → s.padPoisoned (.core a.strand.blk) a.addr a.size = false) →
  (∀ sx, a.kind = .load sx → upToDate s a.strand a.mask (.core a.strand.blk) a.addr a.size) →
  let old := unitOf b.pad a.addr a.size
  ∃ t b', exec (.accessPerformed n) s = .next t ∧ t.accs = s.accs.drop n ∧ t.mem = s.mem ∧ t.block? a.strand.blk = some b'
    ∧ (∀ x, x < a.addr ∨ a.addr + a.size ≤ x → Cells.get b'.pad x = Cells.get b.pad x)
    ∧ unitOf b'.pad a.addr a.size = newUnit a.kind a.size old ∧ Returned s t a old

/-- An access to a page of device memory that is present and allows it; the first write to a page sets its DIRTY (R218). -/
def Sys2Proof.Claims.DeviceAccesses : Prop := ∀ (s : State) (n : Nat) (a : Access) (p : Page), due s n a → a.space = .device →
  lookup (s.tlb a.fe) (s.fe a.fe) (a.kind.reach a.size) a.addr a.size = .page p → p.attr ≠ .hostwin → a.splits p = false → fitsUnit a.kind a.size →
  (p.entry < p.pa ∨ p.pa + a.size ≤ p.entry) → (∀ f x, a.kind = .fxadd f x → (s.fe a.fe).eventBase = 0) →
  (a.kind.reads = true → s.poisoned p a.size = false ∧ s.bufPoisoned a.strand.blk a.addr a.size = false) →
  (∀ sx, a.kind = .load sx → upToDate s a.strand a.mask .device p.pa a.size ∧ s.buffered a.strand.blk = []) →
  let old := unitOf s.mem p.pa a.size
  ∃ t, exec (.accessPerformed n) s = .next t ∧ t.accs = s.accs.drop n
    ∧ (∀ x, x < p.pa ∨ p.pa + a.size ≤ x → x ≠ p.entry → Cells.get t.mem x = Cells.get s.mem x)
    ∧ Cells.get t.mem p.entry = (if writesUnit a.kind old ∧ p.dirty = false then Cells.get s.mem p.entry ||| 0x80 else Cells.get s.mem p.entry)
    ∧ unitOf t.mem p.pa a.size = newUnit a.kind a.size old ∧ Returned s t a old

/-- What a load may read (R235, R246): a unit that every write of it covers exactly, one of the contents that it has had since the last write that
happens before any byte of it; else each of its bytes by itself, since the last write that happens before that byte. -/
def Sys2Proof.Claims.UnitReads : Prop := ∀ (s : State) pl (v : View) lo len seed,
  let q := s.past.filter fun e => e.touches pl lo len
  let bytes := (s.readUnit pl v lo len seed).bytes
  ((∀ e ∈ q, e.isUnit lo len = true) → bytes ∈ contents lo (q.filter fun e => v.atRun pl lo len < e.seq) ((s.memAt pl).bytes lo len))
  ∧ ((∃ e ∈ q, e.isUnit lo len = false) → bytes.length = len ∧ ∀ i < len, [bytes.getD i 0] ∈
      contents (lo + i) (q.filter fun e => (e.byte? (lo + i)).isSome && v.at pl (lo + i) < e.seq) ((s.memAt pl).bytes (lo + i) 1))

/-- ACCESS_PERFORMED (R98, R99, R218, R221, R222, R235, R246, R248, R255 to R258): an access that may be performed acts once on its unit and is pending no
more, on the core pad and on device memory: a load writes nothing, a store its bytes, an ATOM, a CAS and FXADD the new value, FXRD with clear zero; no
other byte changes; and the strand receives what its access returns. An RMW reads the newest contents, and a load too where every write happens
before it; else a load reads one of the contents that R246 allows. An access that may not be performed stays. -/
def Obligations.AccessesPerformed : Prop :=
  (∀ (s : State) (n : Nat), (∀ a, s.accs.get? n = some a → ¬ s.mayPerform n a) → exec (.accessPerformed n) s = .next s)
  ∧ PadAccesses ∧ DeviceAccesses ∧ UnitReads

/-- The events of strands at a boundary (R297, R299, R301, R350, R351, R353): the timer enters the user handler, a debug stop and a held fault
the privileged one, a strand that must stop stops; sleepers whose time has come wake, and a group whose count has ended waits at the next word, where it is one with a current group that waits in no word
(R289), and is selected where no group is current (R290). -/
def Obligations.StrandEvents : Prop := ∀ (s : State) (r : StrandRef) (k : Strand) (b : Block), s.strand? r = some k → s.block? r.blk = some b → s.runs b = true →
  k.ph = false →
  (k.boundary = true → quiet k → k.stepDue = none →
    (k.stopDue = true → exec (.stopBlockHalt r) s = .next (s.modStrand r fun k =>
        { k with stopDue := false, stopped := true, trapAt := s.clock b.core }))
    ∧ (k.stopDue = false → k.faults = [] → k.hostBreak = false → k.tmrArmed = true → k.tmrcmp.toNat ≤ s.clock b.core → k.uh = false →
        exec (.timerFire r) s = .next (((s.setStrand r k).modStrand r fun k => { k with tmrArmed := false }).enterUser r 0x60 0 k.pc k.pc))
    ∧ (k.stopDue = false → k.faults = [] → k.ended = false → ∃ t, exec (.hostBreak r) s = .next t
        ∧ t = ((s.setStrand r { k with hostBreak := true }).modStrand r fun k => { k with hostBreak := false }).enterPriv r
          { cause := 0x6C, mask := k.mask, resume := k.pc, fpc := k.pc, region := k.region })
    ∧ (k.stopDue = false → k.faults ≠ [] → exec (.asyncFaultDelivery r) s = .next ((s.setStrand r k).deliverFault r)))
  ∧ (∀ t z, k.sleepers = [(t, z)] → z.waita = none → (∃ till, z.till = some till ∧ till ≤ s.ns) →
      ∃ u k', exec (.sleepExpiry r) s = .next u ∧ u.strand? r = some k' ∧ k'.sleepers = [] ∧ k'.asleep = k.asleep &&& ~~~z.threads)
  ∧ (∀ g, k.groups = [g] → (∃ c, g.hold = some c ∧ c < s.clock b.core) → k.stopped = false →
      ∃ u k', exec (.rcvExpired r g.pc) s = .next u ∧ u.strand? r = some k'
        ∧ (k.mask ≠ 0 → g.pc + 8 ≠ k.pc → k'.groups = [{ g with pc := g.pc + 8, hold := none, excl := false }] ∧ k'.mask = k.mask ∧ k'.pc = k.pc)
        ∧ (k.mask ≠ 0 → g.pc + 8 = k.pc → k.wait = .none → k'.groups = [] ∧ k'.mask = k.mask ||| g.mask ∧ k'.pc = k.pc)
        ∧ (k.mask = 0 → k'.groups = [] ∧ k'.mask = g.mask ∧ k'.pc = g.pc + 8))

/-- WAITA's events (R261): a thread that reads a word which meets its condition wakes with it, one that reads another word sleeps on and
keeps what it read, and at its bound a thread reads once more and wakes with what it read. On the core pad, every write of the word happening
before the thread's next event. -/
def Obligations.WaitEvents : Prop := ∀ (s : State) (r : StrandRef) (k : Strand) (b : Block) (t : Nat) (z : Sleeper) (w : Waita),
  s.strand? r = some k → s.block? r.blk = some b → (s.launch? b.launch).isSome → s.live r.blk = true → k.sleepers.get? t = some z → z.waita = some w →
  w.space = .core → w.held = .no → s.accs = [] → s.padPoisoned (.core r.blk) w.addr 4 = false →
  upToDate s r (if w.dst.uni then 0xFFFFFFFF else z.threads) (.core r.blk) w.addr 4 →
  let v : Word := BitVec.ofNat 32 (unitOf b.pad w.addr 4)
  let holds := match w.cond with | 0 => v = w.b | 1 => v ≠ w.b | 2 => w.b ≤ v | 3 => w.b < v | 4 => w.b.toInt ≤ v.toInt | _ => w.b.toInt < v.toInt
  (∀ e ∈ [Instr.waitaWakeOnWrite r t, .waitaPeriodicRead r t], ∃ u k', exec e s = .next u ∧ u.strand? r = some k' ∧ u.mem = s.mem
    ∧ (holds → k'.sleepers = k.sleepers.drop t ∧ k'.asleep = k.asleep &&& ~~~z.threads ∧ (w.dst.uni = true → w.dst.part = none → k'.sGet w.dst.reg = v))
    ∧ (¬ holds → (∃ heads, k'.sleepers = k.sleepers.put t { z with waita := some { w with last := some v, held := .no, heads } }) ∧ k'.asleep = k.asleep ∧ k'.v = k.v ∧ k'.s = k.s))
  ∧ ((∃ till, z.till = some till ∧ till ≤ s.ns) → w.dst.uni = true → w.dst.part = none →
      ∃ u k', exec (.waitaBoundExpiry r t) s = .next u ∧ u.strand? r = some k' ∧ k'.sleepers = k.sleepers.drop t ∧ k'.sGet w.dst.reg = v)

/-- The heartbeat, and the events of queues (R7, R320): a tick is a multiple of 256 ns that device time has reached; a block all of whose
strands wait at queues is reported once after 2^16 cycles, and its strands trap QUEUE_DEADLOCK after 2^20. -/
def Obligations.HeartbeatAndQueues : Prop := ∀ (s : State) (blk : Nat) (b : Block) (la : Launch),
  (∃ t, exec .heartbeatTick s = .next t ∧ t.beatNs ≤ t.ns ∧ s.ns ≤ t.ns ∧ (s.beatNs % 256 = 0 → t.beatNs % 256 = 0 ∧ s.beatNs + 256 ≤ t.beatNs))
  ∧ (s.block? blk = some b → s.launch? b.launch = some la → s.queueStalled blk b = true →
      (2 ^ 16 ≤ s.stallCount b → b.qreported = false → exec (.queueStalled blk) s = .next ((s.setBlock blk { b with qreported := true }).emit la.fe la.lid
        Cause.queueStalled .core b.core (bytesOf 4 b.index ++ bytesOf 1 b.slot ++ bytesOf 1 (s.queueMask blk))))
      ∧ (∀ k sid q push act, 2 ^ 20 ≤ s.stallCount b → s.strands = [(⟨blk, sid⟩, k)] → k.wait = .queue q push act → k.ph = false → k.pvec ≠ 0 → b.shadow = false →
          ∃ t k', exec (.queueDeadlock blk) s = .next t ∧ t.strand? ⟨blk, sid⟩ = some k' ∧ k'.ph = true ∧ k'.pc = k.pvec ∧ k'.pepc = k.pc ∧ k'.pmask = act
            ∧ k'.pcause = 0x14)
      ∧ (s.stallCount b < 2 ^ 16 → exec (.queueStalled blk) s = .next s ∧ exec (.queueDeadlock blk) s = .next s))

/-- Nothing has changed but the counters of R382. -/
def Sys2Proof.Claims.onlyCounted (s t : State) : Prop := { t with fes := s.fes } = s ∧ ∀ f, { t.fe f with counters := [] } = { s.fe f with counters := [] }

/-- The events of quorum cells (R225 to R228). A copy answers a QST by taking its tag and payload if its own tag is lower, and the QST is
complete with a majority of answers and once the heartbeat count exceeds its tag's; a copy answers a QLD by giving what it holds, and the QLD
delivers once a majority has answered with one tag. A copy that has not answered in 20,000 ns is lost, and without a majority QUORUM_LOST is
raised. The scrubber gives every copy the greatest tag with its payload. -/
def Obligations.QuorumEvents : Prop :=
  (∀ (s : State) (n i : Nat) (q : QuorumOp) (pa0 copies : Nat),
    s.quorums.get? n = some q → q.held = .no → s.live q.strand.blk = true → q.slot = some (pa0, copies) → i < copies → q.copies.length = copies →
    q.copies.getD i .lost = .none →
    let pa := copyPa pa0 i
    let q' := { q with copies := q.copies.set i (.answered (slotTag s.mem pa) (slotPayload s.mem pa)) }
    let answers := (q'.copies.filter fun a => a ≠ .none).length
    let lost := { q with copies := q.copies.set i .lost }
    (∀ tag pay, q.store = some (tag, pay) → s.copyLost pa = false → (∀ a ∈ q.copies, a ≠ .lost) → ∃ t, exec (.quorumAnswer n i) s = .next t
      ∧ t.mem = (if slotTag s.mem pa < tag then s.mem.put pa (bytesOf 16 pay.toNat ++ bytesOf 8 tag.toNat ++ bytesOf 8 0) else s.mem)
      ∧ (copies < 2 * answers → tag.toNat / 4096 < s.beat → t.quorums = s.quorums.drop n)
      ∧ (2 * answers ≤ copies ∨ s.beat ≤ tag.toNat / 4096 → t.quorums = s.quorums.put n q' ∧ onlyCounted { s with mem := t.mem, quorums := t.quorums } t))
    ∧ (q.store = none → q.chosen = none → s.copyLost pa = false → (∀ a ∈ q.copies, a ≠ .lost) → ∃ t, exec (.quorumAnswer n i) s = .next t ∧ t.mem = s.mem
      ∧ (2 * answers ≤ copies → t.quorums = s.quorums.put n q' ∧ onlyCounted { s with quorums := t.quorums } t)
      ∧ (∀ d k, (∀ a ∈ q'.copies, a = .none ∨ a = .answered (slotTag s.mem pa) (slotPayload s.mem pa)) → q.confirmed = [] → copies < 2 * answers →
          s.strand? q.strand = some k → (s.launchOf q.strand.blk).isSome = true → q.dst = some d → d.uni = true → d.part = none →
          t.quorums = s.quorums.drop n
            ∧ ∀ j < 4, (t.strand? q.strand).map (fun k => k.sGet (d.reg + j)) = some ((slotPayload s.mem pa).extractLsb' (32 * j) 32)))
    ∧ (q.issued + 20000 ≤ s.ns → ∃ t, exec (.quorumCopyTimeout n i) s = .next t
      ∧ (2 * lost.alive ≤ copies → t = (s.dropQuorum n).asyncFault q.strand (q.faultOf Cause.quorumLost))
      ∧ (copies < 2 * lost.alive → 2 * answers ≤ copies → q.chosen = none → (∀ a ∈ q.copies, a ≠ .lost) →
          t = { s with quorums := s.quorums.put n lost }))
    ∧ (s.ns < q.issued + 20000 → exec (.quorumCopyTimeout n i) s = .next s))
  ∧ ∀ (s : State) (fe va : Nat) (p : Page), lookup (s.tlb fe) (s.fe fe) .qld (va / 16 * 16) 16 = .page p → p.attr.copies = 3 →
      (s.fe fe).eventBase = 0 → (∀ i < 3, (s.fe fe).owns (copyPa p.pa i) 32 = true ∧ s.copyLost (copyPa p.pa i) = false) →
      ∃ t j, exec (.quorumScrub fe va) s = .next t ∧ t.strands = s.strands ∧ j < 3
        ∧ (∀ i < 3, slotTag s.mem (copyPa p.pa i) ≤ slotTag s.mem (copyPa p.pa j) ∧ slotTag t.mem (copyPa p.pa i) = slotTag s.mem (copyPa p.pa j)
          ∧ (slotTag s.mem (copyPa p.pa i) < slotTag s.mem (copyPa p.pa j) → slotPayload t.mem (copyPa p.pa i) = slotPayload s.mem (copyPa p.pa j)))
        ∧ ((∀ i < 3, slotTag s.mem (copyPa p.pa i) = slotTag s.mem (copyPa p.pa 0)) → t = s)

/-! ## Events of engines -/

namespace Sys2Proof.Claims

/-- An accumulator of an MMA after the commit (R168, R169, R172 to R174): the fold of the word's semiring over K, from the A elements of row `i` of a side's
tile as it has been read, the column `col` of the live bank, and the accumulator as it stood; the side's scale bytes stand row by row. -/
def mmaSlot (b : Bank) (x : ATile) (l : Layout) (w : EngWord) (i col : Nat) (scales : List Byte) (old : Dword) : Dword :=
  let kk := kOf (kWord w)
  let code := fun k => x.code l (fmtWidth w.aFmt) i k
  let value := fun k => elemValue w.aFmt (code k) (if w.aScaled then some (scales.getD ((kk + 31) / 32 * i + k / 32) 0).toNat else none)
  if w.fn = 0 then ptSlot b value kk col old else tropSlot w.fn w.aFmt b code kk col old

/-- The accumulators after the rows of one side from `base` up, in the first N columns; every other stays (R198). -/
def mmaRows (b : Bank) (x : ATile) (l : Layout) (w rows : EngWord) (base : Nat) (scales : List Byte) (old : Nat → Nat → Dword) (row col : Nat) : Dword :=
  if base ≤ row ∧ row < base + rowsOf (rowsWord rows) ∧ col < nOf (kWord w) then mmaSlot b x l w (row - base) col scales (old row col) else old row col

end Sys2Proof.Claims

/-- MMA_COMMIT (R168 to R174, R178, R200): the rows replace the committed ones in one step and the claimed scale bytes go. Of a matched pair the
unconditional side's rows stand from row 16, each side has its own tile, and the conditional side's word says K, N, formats and semiring. An
uncorrectable error abandons the MMA (R170). -/
def Sys2Proof.Claims.MmaCommits : Prop := ∀ (s : State) (n : Nat) (o : EngOp) (a : MatrixArray), s.arrayDue n .mma = some (o, a) → o.cancelled = false →
  let w := o.lead
  let committed := fun row col => Cells.get a.ax (row * 512 + col)
  (∀ l, o.partner = none → o.role = none → layoutOf w.sa = some l →
    let z : Side := ⟨w, none⟩
    let x := s.aTile o w z
    (a.badRead w [z] = true → exec (.mmaCommit n) s = .next (s.abandonMma o Cause.eccReg 0))
    ∧ (∀ va, a.badRead w [z] = false → x.t.bad = some va → exec (.mmaCommit n) s = .next (s.abandonMma o Cause.eccPad va))
    ∧ (a.badRead w [z] = false → x.t.bad = none → ∃ ax, exec (.mmaCommit n) s = .next (((((s.modArray o.core fun a =>
          { a with ax, queue := a.queue.drop (claimed w) }).opView n x.t.view).count o.fe 4 (rowsOf (rowsWord w))).opEvent o Cause.mmaCommit).arrayDone n o)
        ∧ ∀ row col, col < 512 → Cells.get ax (row * 512 + col) = mmaRows a.live x l w w (row0Of (rowsWord w)) a.queue committed row col)
    ∧ ((∀ e ∈ s.past, e.place = padPlace o.blk o.launch o.core l.space → e.seq ≤ o.view.base) → s.padBad = [] →
        x = ⟨⟨s.memAt (padPlace o.blk o.launch o.core l.space), o.view, none⟩, []⟩))
  ∧ ∀ m u lc lu, o.partner = some m → s.op? m = some u → u.cancelled = false → layoutOf w.sa = some lc → layoutOf u.lead.sa = some lu →
    row0Of (rowsWord w) + rowsOf (rowsWord w) ≤ 16 → row0Of (rowsWord u.lead) + rowsOf (rowsWord u.lead) ≤ 16 →
    let zc : Side := ⟨w, some true⟩
    let zu : Side := ⟨u.lead, some false⟩
    let xc := s.aTile o w zc
    let xu := s.aTile u w zu
    let claims := claimed w + if w.aScaled then rowsOf (rowsWord u.lead) * ((kOf (kWord w) + 31) / 32) else 0
    a.badRead w [zc, zu] = false → xc.t.bad = none → xu.t.bad = none →
    ∃ ax, exec (.mmaCommit n) s = .next ((((((s.modArray o.core fun a =>
          { a with ax, queue := a.queue.drop claims }).opView n xc.t.view).opView m xu.t.view).count o.fe 4
            (rowsOf (rowsWord w) + rowsOf (rowsWord u.lead))).opEvent o Cause.mmaCommit).arrayDone n o)
      ∧ ∀ row col, col < 512 → Cells.get ax (row * 512 + col) = mmaRows a.live xu lu w u.lead (16 + row0Of (rowsWord u.lead)) (a.queue.drop (claimed w))
          (mmaRows a.live xc lc w w (row0Of (rowsWord w)) a.queue committed) row col

/-- The completions of array operations (R166, R171, R175, R176, R179, R197, R201, R202): MXSW exchanges the banks, MXSQ appends its tile's
bytes to the scale queue, MXC.CLEAR gives its rows the semiring's identity, MXB loads the shadow bank, MMA replaces its rows' accumulators, each by the
fold of its semiring over K (R172 to R174), MXD writes its converted tile. Each reads its tile as R243 allows, the pad's bytes where every write of the
pad happens before the operation. None acts unless it runs and nothing before it in order matters. -/
def Obligations.ArrayEvents : Prop :=
  (∀ (s : State) (n : Nat), s.op? n = none →
    ∀ e ∈ [Instr.mxswExchange n, .mxsqComplete n, .mxcClearComplete n, .mxbComplete n, .mmaCommit n, .mxdComplete n], exec e s = .next s)
  ∧ MmaCommits
  ∧ ∀ (s : State) (n : Nat) (o : EngOp) (a : MatrixArray), s.arrayDue n o.kind = some (o, a) → o.partner = none → o.role = none →
  o.cancelled = false →
  (o.kind = .mxsw → exec (.mxswExchange n) s = .next ((s.modArray o.core fun a => { a with live := a.shadow, shadow := a.live }).arrayDone n o))
  ∧ (∀ l, o.kind = .mxsq → layoutOf o.lead.sa = some l →
      let offs := (List.range (sqRows o.lead)).flatMap fun r => (List.range (sqBytes o.lead)).map fun x => l.at x r 0 0
      let t := s.opTile o l.space 1 offs
      t.bad = none → exec (.mxsqComplete n) s =
        .next (((s.modArray o.core fun a => { a with queue := a.queue ++ offs.map (Cells.get t.pad) }).opView n t.view).arrayDone n o))
  ∧ (∀ sp g offs, let pl := padPlace o.blk o.launch o.core sp
      (∀ e ∈ s.past, e.place = pl → e.seq ≤ o.view.base) → s.padBad = [] → s.opTile o sp g offs = ⟨s.memAt pl, o.view, none⟩)
  ∧ (o.kind = .clear → ∃ ax bad, exec (.mxcClearComplete n) s = .next ((s.modArray o.core fun a => { a with ax, bad }).arrayDone n o)
      ∧ (∀ c ∈ bad, c ∈ a.bad) ∧ ∀ row col, col < 512 → Cells.get ax (row * 512 + col) =
        if row0Of (o.lead.sb.getD 0 0) ≤ row ∧ row < row0Of (o.lead.sb.getD 0 0) + rowsOf (o.lead.sb.getD 0 0) then identityOf (o.lead.w.modN 2 0)
        else Cells.get a.ax (row * 512 + col))
  ∧ (o.kind = .mxb →
      let z := bLoadOf o.lead (o.descs.headD 0)
      let r := s.bElems o z
      let q := s.engLines o.fe o.blk o.view 1 z.scaleVas
      let load := fun (a : MatrixArray) => { a with shadow := z.bank r q a.shadow }
      r.absent = none → q.absent = none → r.bad = [] → q.bad = [] →
        exec (.mxbComplete n) s = .next (((((s.modArray o.core load).opView n (r.view.join q.view)).countRead o z.t.base (z.vas.length + z.scaleVas.length)).opEvent o
          Cause.mxbDone).arrayDone n o))
  ∧ (o.kind = .mxd → exec (.mxdComplete n) s = .next (s.drain n o a [row0Of (o.lead.sb.getD 0 0)] fun i col =>
      drainCode (o.lead.w.modN 3 0) (.ofNat2 (o.lead.w.modN 5 4)) (Cells.get a.ax ((row0Of (o.lead.sb.getD 0 0) + i) * 512 + col))))

/-- The events of copies (R268, R271, R273, R281 to R283, R287, R288). The copy of a port that became ready first is accepted and runs, and the members that
wait in it go on; none is accepted while 16 run; a copy that waited for a record starts when one is free, and holds it. The MMA of a CPL that has landed enters array
order. A unit of a CPM is written once; a copy all of whose units have landed completes. A reduction writes its elements and completes, fails with
FORMAT_PAIR when its peers disagree, and with FABRIC_TIMEOUT when they do not come. -/
def Obligations.CopyEvents : Prop := ∀ (s : State) (n : Nat),
  (s.op? n = none → exec (.copyAccept n) s = .next s ∧ exec (.recordFreedStart n) s = .next s)
  ∧ (s.op? n = none → ∀ e ∈ [Instr.copyUnitWritten n 0, .copyComplete n, .cprComplete n [], .cprTimeout n, .cplFollowOnIssue n], exec e s = .next s)
  ∧ ∀ o, s.op? n = some o → s.opLive o = true →
    (∀ a, o.isFollow = true → o.kind = .mma → o.isReady = true → (s.core o.core).array = some a → a.owner = o.blk → a.pair = none →
      o.handles = [] → mmaCause a [⟨o.lead, none⟩] = none → (s.fe o.fe).eventBase = 0 → ∃ t o' a', exec (.cplFollowOnIssue n) s = .next t
        ∧ t.op? n = some o' ∧ o'.stage = .running ∧ o'.arr = o.arr ∧ (t.core o.core).array = some a' ∧ a'.order = a.order ++ [n] ∧ a'.ax = a.ax
        ∧ a'.count = a.count - claimOf [⟨o.lead, none⟩])
    ∧ (o.stage = .queued → o.kind.copy = true → s.portUse o.core < 16 → o.lead.w.be = false → (s.fe o.fe).eventBase = 0 →
        (∀ e ∈ s.ops, e.2.core = o.core → e.2.kind.copy = true → e.2.stage = .ready ∨ e.2.stage = .queued → s.opLive e.2 = true → o.ready ≤ e.2.ready) →
        ∃ t, exec (.copyAccept n) s = .next t ∧ t.op? n = some { o with stage := .running }
          ∧ ∀ a ∈ o.arr, ∀ k, s.strand? ⟨o.blk, a.sid⟩ = some k → k.wait = .op n → (t.strand? ⟨o.blk, a.sid⟩).map Strand.wait = some (.started n))
    ∧ (16 ≤ s.portUse o.core → exec (.copyAccept n) s = .next s)
    ∧ (∀ rec, o.stage = .ready → o.kind.copy = true → o.kind ≠ .cpr → o.posting = false → o.handles ≠ [] → o.lead.w.fo = false → o.lead.w.be = false →
        (s.core o.core).freeRec = some rec → (s.block? o.blk).isSome = true → (∀ la, s.launch? o.launch = some la → la.contained = false) →
        s.portUse o.core < 16 → (s.fe o.fe).eventBase = 0 →
        (∀ e ∈ s.ops, e.2.core = o.core → e.2.kind.copy = true → e.2.stage = .ready ∨ e.2.stage = .queued → s.opLive e.2 = true → o.ready ≤ e.2.ready) →
        ∃ t o', exec (.recordFreedStart n) s = .next t ∧ t.op? n = some o' ∧ o'.stage = .running ∧ o'.record = some rec ∧ o'.arr = o.arr
          ∧ ((t.core o.core).record rec).busy = true ∧ ((t.core o.core).record rec).op = n ∧ ((t.core o.core).record rec).status = none)
    ∧ (o.stage = .ready → o.kind.copy = true → o.posting = false → o.handles ≠ [] → (s.core o.core).freeRec = none →
        ∃ t, exec (.recordFreedStart n) s = .next t ∧ t.ops = s.ops)
    ∧ (∀ m cell, o.kind = .cpm → o.stage = .running → o.moves = [m] → cell < m.size → cell ∉ o.moved →
        exec (.copyUnitWritten n cell) s = .next (s.moveTile n cell o m cell)
          ∧ ∀ b, s.block? o.blk = some b → m.src.space = .core → m.dst.space = .core → o.posts = [] →
            let (x, i, j, k) := m.place cell
            s.padPoisoned (.core o.blk) (m.src.at x i j k) 1 = false →
            (∀ e ∈ s.past, e.seq ≤ o.view.base ∨ e.touches (.core o.blk) (m.src.at x i j k) 1 = false) →
            ((s.moveTile n cell o m cell).block? o.blk).map Block.pad = some (Cells.set b.pad (m.dst.at x i j k) (Cells.get b.pad (m.src.at x i j k))))
    ∧ (∀ cell, cell ∈ o.moved → exec (.copyUnitWritten n cell) s = .next s)
    ∧ (o.stage = .running → o.kind = .cpm ∨ o.kind = .cps → o.landed = true → o.lead.w.fe = false → o.follow = none → o.discard = false →
        exec (.copyComplete n) s = .next ((s.postDone n).opEvent o Cause.copyDone))
    ∧ (o.landed = false → exec (.copyComplete n) s = .next s)
    ∧ (∀ g peers, o.kind = .cpr → o.stage = .running → o.group = some g → o.moved = [] → List.length peers = g.members.length →
        (∃ p ∈ peers, List.length p ≠ cprCount o.lead) → exec (.cprComplete n peers) s = .next ((s.modOp n fun o =>
          { o with cause := Cause.formatPair, moved := [0] }).cprDone n { o with cause := Cause.formatPair }))
    ∧ (∀ g peers, o.kind = .cpr → o.stage = .running → o.group = some g → o.moved = [] → List.length peers = g.members.length →
        (∀ p ∈ peers, List.length p = cprCount o.lead) →
        let size := cprBytes o.lead
        let count := cprCount o.lead
        let b07 := ((s.launch? o.launch).map Launch.mmr).getD 2 == 1
        let r := s.engLines o.fe o.blk o.view (cprUnit size) ((List.range (size * count)).map (cprSrc o.lead + ·))
        let own := fun j => numOf ((List.range size).map fun i => r.byte (cprSrc o.lead + size * j + i))
        r.absent = none → r.bad = [] → s.absentIn o.fe (cprDst o.lead) (size * count) = none → exec (.cprComplete n peers) s =
          .next ((((((({ s with fresh := s.fresh + count } : State).opView n r.view).countRead o (cprSrc o.lead) (size * count))).cprWrite n (cprDst o.lead) size
            ((List.range count).map fun j => cprElement b07 o.lead (s.fresh + j) (own j :: peers.map fun p => (p.getD j 0).toNat % 2 ^ (8 * size)))).modOp n
              fun o => { o with moved := [0] }).cprDone n o))
    ∧ (∀ b07 (w : EngWord) fresh (vs : List Nat), w.w.modN 3 0 = 0xD → w.w.modN 5 4 = 0 → vs ≠ [] → (∀ v ∈ vs, v < 2 ^ 32) →
        cprElement b07 w fresh vs = vs.sum % 2 ^ 32)
    ∧ (∀ g, o.kind = .cpr → o.stage = .running → o.group = some g → o.moved = [] → s.ns < o.started + g.timeout → exec (.cprTimeout n) s = .next s)
    ∧ ∀ g, o.kind = .cpr → o.stage = .running → o.group = some g → o.moved = [] → o.started + g.timeout ≤ s.ns → ∃ t, exec (.cprTimeout n) s = .next t
        ∧ t = ((((s.opFault n Cause.fabricTimeout (cprDst o.lead)).cprScatter n o true).modOp n fun o => { o with moved := [0] }).cprDone n o)

/-- The results of samples and services (R156, R159, R160, R204): a sample of a present texture delivers to the four registers of its thread;
a sample waits for its thread's earlier stores (R159); a bind takes the record that it read, an inval unbinds, each once no sample of the bind point is out; TDE.write stores an entry with bits 511
to 504 zero, TDE.read the entry, TDE.inval clears it; and the strand goes on. -/
def Obligations.ServiceEvents : Prop := ∀ (s : State) (n : Nat) (o : ServiceOp), s.services.get? n = some o → o.held = .no → s.live o.strand.blk = true →
  (∀ point, o.what = .inval point → s.samplesAt o.fe point = false → exec (.texbComplete n) s = .next (((s.bindAt o.fe point fun bs => bs.drop point).emit
      o.fe (s.lidOf o.launch) Cause.bindDone .sampler o.core []).served n o))
  ∧ (∀ point va r, o.what = .bind point va → s.samplesAt o.fe point = false → s.engRead o.fe o.strand.blk (s.serviceView o) 4 va 64 = .ok r →
      (textureOf (BitVec.ofNat 512 (numOf r.bytes))).valid = true → exec (.texbComplete n) s =
        .next (((((s.serviceRan o r).countAt o.fe va 64).bindAt o.fe point fun bs => bs.put point (BitVec.ofNat 512 (numOf r.bytes))).emit o.fe (s.lidOf o.launch) Cause.bindDone .sampler o.core []).served n o))
  ∧ (∀ point va, (o.what = .bind point va ∨ o.what = .inval point) → s.samplesAt o.fe point = true → exec (.texbComplete n) s = .next s)
  ∧ (∀ tid, o.what = .tdeInval tid → exec (.tdeComplete n) s = .next ((s.modFe o.fe fun f => { f with tdes := f.tdes.drop tid }).served n o))
  ∧ (∀ tid a b, o.what = .tdeRead tid .core a → s.block? o.strand.blk = some b → ∃ t b', exec (.tdeComplete n) s = .next t ∧ t.block? o.strand.blk = some b'
      ∧ b'.pad = b.pad.put a (bytesOf 64 ((s.fe o.fe).tde tid).toNat))
  ∧ (∀ fe point f, ((s.bindAt fe point f).fe fe).binds = f (s.fe fe).binds)
  ∧ (∀ tid a b, o.what = .tdeWrite tid .core a → s.block? o.strand.blk = some b → s.padPoisoned (.core o.strand.blk) a 64 = false →
      (∀ e ∈ s.past, e.seq ≤ (s.serviceView o).base ∨ e.touches (.core o.strand.blk) a 64 = false) → ∃ t, exec (.tdeComplete n) s = .next t
      ∧ (t.fe o.fe).tde tid = BitVec.ofNat 512 (b.pad.num a 64) &&& (BitVec.allOnes 512 >>> 8))
  ∧ (∀ k, s.strand? o.strand = some k → k.wait = .op n → ((s.served n o).strand? o.strand).map Strand.wait = some (.started n))
  ∧ (∀ m (z : SampleOp) la, s.samples.get? m = some z → z.held = .no → s.live z.strand.blk = true → s.launch? z.launch = some la →
      s.sampleEarly z = false →
      let x := textureOf z.record
      let vas := z.vas x la
      let r := s.engLines z.fe z.strand.blk z.view 4 vas
      -- the bytes that are read count (R382)
      let counted := vas.foldl (fun s va => s.countAt z.fe va 8) s
      r.absent = none → r.bad = [] → ∃ t, exec (.sampleResult m) s = .next t ∧ t.samples = s.samples.drop m ∧ t.mem = s.mem
        ∧ ∀ k, s.strand? z.strand = some k → t.strand? z.strand = some
          (((sampleJets x z (footprint x z) (counted.texelLines z x vas r) la.d).zipIdx).foldl (fun k e => k.put la false z.t (z.d + e.2, e.1)) (k.sync (bit z.t) r.view)))
  ∧ ∀ m (z : SampleOp), s.samples.get? m = some z → s.sampleEarly z = true → exec (.sampleResult m) s = .next s

/-! ## Events of the front ends -/

namespace Sys2Proof.Claims

/-- The first packet of a front end may start (R369, R371): the front end is enabled and idle or running, no earlier command holds it
back, the packet is well formed, and its token is signalled with 0x00. -/
def mayStart (s : State) (fe : Nat) (bs : List Byte) (rest : List (List Byte)) : Prop :=
  let f := s.fe fe
  f.en = true ∧ (f.st = .idle ∨ f.st = .running) ∧ f.swapping = false ∧ f.swapped = false ∧ f.stopping = none ∧ f.fitWait = none
    ∧ f.queue = bs :: rest ∧ malformed bs = false
    ∧ (waitTok bs = 0 ∨ f.tokens.get? (waitTok bs) = none ∨ f.tokens.get? (waitTok bs) = some (some 0))

/-- A command has started (R369): it left the queue, its SEQ is the last started, and device memory is as it was. -/
def startedAs (s t : State) (fe seq : Nat) (rest : List (List Byte)) : Prop :=
  (t.fe fe).queue = rest ∧ (t.fe fe).seqStart = seq ∧ t.mem = s.mem ∧ t.strands = s.strands ∧ t.accs = s.accs

/-- A command as it starts (R373): what is performed by now happens before what it does. -/
def started (s : State) (fe : Nat) (c : Cmd) : Cmd := { c with since := if (s.fe fe).statusAddr = 0 then s.seq else s.seq + 1 }

/-- A command is in progress as number `n`. -/
def inProgress (s : State) (fe n : Nat) (c : Cmd) : Prop := (s.fe fe).cmds.get? n = some c

/-- A command has completed with a cause (R369, R372): its SEQ is the last completed, its token is signalled, a failure is the last cause. -/
def completedAs (s t : State) (fe : Nat) (c : Cmd) (cause : Cause) : Prop :=
  (t.fe fe).seqDone = c.seq ∧ (c.done ≠ 0 → (t.fe fe).tokens.get? c.done = some (some cause))
    ∧ (t.fe fe).lastCause = if cause = 0 then (s.fe fe).lastCause else cause

/-- Each start of a command that a START event names. -/
def starts (fe : Nat) : List (Nat × Instr) :=
  [(1, .cmdLaunch fe), (2, .cmdCopy fe), (3, .cmdWait fe), (4, .cmdSignal fe), (5, .cmdMap fe)]

/-- The newest bytes of a run of device memory are those that a command reads (R246): every write to the run was performed before it started. -/
def readsNewest (s : State) (c : Cmd) (pa n : Nat) : Prop := ∀ e ∈ s.past, e.seq ≤ c.since ∨ e.touches .device pa n = false

/-- A partition whose command of number `n` is in progress, with no STOP under way, and no other partition with a command of that number. -/
def runsCmd (s : State) (fe n : Nat) (c : Cmd) : Prop := s.cmdFe n = some (fe, c)

end Sys2Proof.Claims

/-- Packets and the start of commands (R328, R368 to R371): a packet of 64 bytes of the partition's own virtual function joins its queue, one of
another is refused with PACKET_FOREIGN; a command starts in its turn, when its token is signalled; a malformed one completes with
PACKET_INVALID, and one whose token holds a failure with LAUNCH_TOKEN. It says where these events complete: a packet's arrival, and the start of
a LAUNCH, a COPY, a WAIT, a SIGNAL and a MAP. -/
def Obligations.PacketsAndStarts : Prop := ∀ (s : State) (fe : Nat),
  (∀ bytes, List.length bytes = 64 → (s.fe fe).en = true →
    exec (.packetReceive fe fe bytes) s = .next (s.setFe fe { s.fe fe with queue := (s.fe fe).queue ++ [bytes] }))
  ∧ (∀ vf bytes, List.length bytes = 64 → vf ≠ fe → exec (.packetReceive vf fe bytes) s = .next (s.setFe vf { s.fe vf with refused := Cause.packetForeign }))
  ∧ (∀ bs rest, mayStart s fe bs rest → ∀ e ∈ starts fe, (cmdOf bs).typ = e.1 → e.1 = 2 ∨ e.1 = 4 →
      ∃ t, exec e.2 s = .next t ∧ startedAs s t fe (cmdOf bs).seq rest ∧ inProgress t fe s.uid (started s fe (cmdOf bs)))
  ∧ (∀ bs rest, mayStart s fe bs rest → (cmdOf bs).typ = 3 → (cmdOf bs).caddr = 0 →
      ∃ t, exec (.cmdWait fe) s = .next t ∧ startedAs s t fe (cmdOf bs).seq rest ∧ completedAs s t fe (cmdOf bs) 0)
  ∧ (∀ bs rest, mayStart s fe bs rest → (cmdOf bs).typ = 5 → (cmdOf bs).caddr = 0 →
      let good := (cmdOf bs).at 16 8 % 65536 = 0 ∧ (cmdOf bs).at 24 8 % 65536 = 0 ∧ (cmdOf bs).at 24 8 ≠ 0
      ∃ t, exec (.cmdMap fe) s = .next t ∧ startedAs s t fe (cmdOf bs).seq rest
        ∧ (good → inProgress t fe s.uid (started s fe (cmdOf bs))) ∧ (¬ good → completedAs s t fe (cmdOf bs) Cause.mapInvalid))
  ∧ (∀ bs rest, mayStart s fe bs rest → (cmdOf bs).typ = 1 → (cmdOf bs).caddr = 0 →
      (∃ t, exec (.cmdLaunch fe) s = .next t ∧ startedAs s t fe (cmdOf bs).seq rest
        ∧ ((s.fe fe).kernelAt ((cmdOf bs).at 16 8) = none → completedAs s t fe (cmdOf bs) Cause.launchEntry ∧ t.launches = s.launches)))
  ∧ (∀ bs rest, (s.fe fe).en = true → (s.fe fe).st = .running → (s.fe fe).swapping = false → (s.fe fe).swapped = false → (s.fe fe).stopping = none →
      (s.fe fe).fitWait = none → (s.fe fe).queue = bs :: rest → malformed bs = true → waitTok bs = 0 → (cmdOf bs).caddr = 0 →
      ∀ e ∈ starts fe, ∃ t, exec e.2 s = .next t ∧ startedAs s t fe (cmdOf bs).seq rest ∧ completedAs s t fe (cmdOf bs) Cause.packetInvalid)
  ∧ (∀ bs rest x, (s.fe fe).en = true → (s.fe fe).st = .running → (s.fe fe).swapping = false → (s.fe fe).swapped = false → (s.fe fe).stopping = none →
      (s.fe fe).fitWait = none → (s.fe fe).queue = bs :: rest → malformed bs = false → waitTok bs ≠ 0 → (s.fe fe).tokens.get? (waitTok bs) = some (some x) → x ≠ 0 →
      (cmdOf bs).caddr = 0 → ∀ e ∈ starts fe, ∃ t, exec e.2 s = .next t ∧ startedAs s t fe (cmdOf bs).seq rest ∧ completedAs s t fe (cmdOf bs) Cause.launchToken)
  ∧ ∀ bs rest, (s.fe fe).queue = bs :: rest → (s.fe fe).st = .running → waitTok bs ≠ 0 → (s.fe fe).tokens.get? (waitTok bs) = some none →
      ∀ e ∈ starts fe, exec e.2 s = .next s

/-- Commands in progress (R207, R370): a LAUNCH that is accepted starts its launch when its pads fit, and else waits until they do; it completes when its
blocks have retired and its writes have been performed; a COPY moves its bytes; a SIGNAL stores its value once every earlier command has
completed; a MAP has held requests translated again, invalidates the translation caches if it says so (R217), and completes. It says where these
events complete: the start of a launch, a launch's completion, a COPY's next bytes, a SIGNAL's store and a MAP's completion. -/
def Obligations.CommandsProgress : Prop := ∀ (s : State) (fe n : Nat) (c : Cmd),
  (∀ bs rest k, mayStart s fe bs rest → (cmdOf bs).typ = 1 → (s.fe fe).kernelAt ((cmdOf bs).at 16 8) = some k →
      let c' := started s fe (cmdOf bs)
      let la := launchOfCmd fe s.uid c' k
      (s.fe fe).launchCause c' k la = none → ∃ t, exec (.cmdLaunch fe) s = .next t ∧ startedAs s t fe (cmdOf bs).seq rest
        ∧ if s.padsFit la then t.launch? (s.uid + 1) = some { la with padsAt := (s.fe fe).clusters } else t.launches = s.launches ∧ (t.fe fe).fitWait = some (s.uid, la))
  ∧ (∀ la, (s.fe fe).fitWait = some (n, la) → la.fe = fe → (s.fe fe).stopping = none →
      (s.padsFit la = true → ∃ t, exec (.launchFitStart fe) s = .next t ∧ t.launch? s.uid = some { la with padsAt := (s.fe fe).clusters }
        ∧ (t.fe fe).fitWait = none)
      ∧ (s.padsFit la = false → exec (.launchFitStart fe) s = .next s))
  ∧ (∀ l la, s.launch? l = some la → (s.fe la.fe).stopping = none → (s.fe la.fe).cmds.get? la.cmd = some c → c.caddr = 0 →
      let finished := (la.failed.isSome ∨ (la.nblocks ≤ la.next ∧ la.again = [])) ∧ (∀ e ∈ s.blocks, e.2.launch ≠ l) ∧ (∀ e ∈ s.accs, e.2.launch ≠ l)
        ∧ (∀ e ∈ s.quorums, e.2.launch ≠ l) ∧ (∀ e ∈ s.echoes, e.2.launch ≠ l) ∧ ∀ e ∈ s.ops, e.2.launch ≠ l
      (finished → ∃ t, exec (.launchComplete l) s = .next t ∧ t.launch? l = none ∧ completedAs s t la.fe c (la.failed.getD la.status) ∧ t.mem = s.mem)
      ∧ (¬ finished → exec (.launchComplete l) s = .next s))
  ∧ (runsCmd s fe n c → c.typ = 2 → c.caddr = 0 → s.service = .full → c.pos < c.at 32 8 →
      let src := c.at 16 8 + c.pos
      let dst := c.at 24 8 + c.pos
      let k := min (c.at 32 8 - c.pos) (min (64 - src % 64) (64 - dst % 64))
      (∀ p q, lookup (s.tlb fe) (s.fe fe) .engRead src k = .page p → lookup (s.tlb fe) (s.fe fe) .engWrite dst k = .page q → s.poison = [] →
        p.attr ≠ .hostwin → q.attr ≠ .hostwin → q.dirty = true → readsNewest s c p.pa k → ∃ t, exec (.copyCmdComplete n) s = .next t
          ∧ t.mem = s.mem.put q.pa (s.mem.bytes p.pa k)
          ∧ (c.at 32 8 = c.pos + k → completedAs s t fe c 0) ∧ (c.pos + k < c.at 32 8 → inProgress t fe n { c with pos := c.pos + k }))
      ∧ (∀ x, lookup (s.tlb fe) (s.fe fe) .engRead src k = .fault x → ∃ t, exec (.copyCmdComplete n) s = .next t ∧ completedAs s t fe c x ∧ t.mem = s.mem))
  ∧ (runsCmd s fe n c → c.typ = 4 → c.caddr = 0 → (∀ e ∈ (s.fe fe).cmds, n ≤ e.1) →
      (c.at 16 8 = 0 → ∃ t, exec (.signalStore n) s = .next t ∧ completedAs s t fe c 0 ∧ t.mem = s.mem)
      ∧ ∀ q, c.at 16 8 ≠ 0 → lookup (s.tlb fe) (s.fe fe) .engWrite (c.at 16 8) 8 = .page q → q.attr ≠ .hostwin → q.dirty = true →
          ∃ t, exec (.signalStore n) s = .next t ∧ completedAs s t fe c 0 ∧ t.mem = s.mem.put q.pa (bytesOf 8 (c.at 24 8)))
  ∧ (runsCmd s fe n c → c.typ = 4 → (∃ e ∈ (s.fe fe).cmds, e.1 < n) → exec (.signalStore n) s = .next s)
  ∧ (runsCmd s fe n c → c.typ = 5 → c.caddr = 0 → s.blocks = [] → (c.at 32 1).testBit 0 = false →
      ∃ t, exec (.mapComplete n) s = .next t ∧ completedAs s t fe c 0 ∧ t.mem = s.mem
        ∧ ∀ e ∈ s.accs, e.2.fe = fe → e.2.held = .held → ∃ a ∈ t.accs, a.1 = e.1 ∧ a.2 = { e.2 with held := .replay })
  ∧ (runsCmd s fe n c → c.typ = 5 → c.caddr = 0 → s.blocks = [] → (c.at 32 1).testBit 0 = true → (s.fe fe).eventBase = 0 →
      ∃ t, exec (.mapComplete n) s = .next t ∧ completedAs s t fe c 0 ∧ t.mem = s.mem ∧ (t.fe fe).flushed = s.seq)
  ∧ ∀ p, s.cmdFe p = none → ∀ e ∈ [Instr.copyCmdComplete p, .signalStore p, .mapComplete p], exec e s = .next s

/-- STOP (R341, R370, R371): suspend with nothing running completes at once and leaves the front end suspended; terminate with nothing running stops it,
its launches fail and every command in progress completes with PARTITION_STOP; resume makes a suspended or a stopped front end run again; a further
suspend of a suspended front end completes at once. It says where
the three STOP events complete. -/
def Obligations.StopCommands : Prop := ∀ (s : State) (fe : Nat) (bs : List Byte) (rest : List (List Byte)),
  (mayStart s fe bs rest → (cmdOf bs).typ = 6 → (cmdOf bs).caddr = 0 → (s.fe fe).eventBase = 0 → (s.fe fe).nextRec = none →
    (∀ e ∈ s.blocks, (s.launch? e.2.launch).map Launch.fe ≠ some fe) → (s.fe fe).cmds = [] →
    ((cmdOf bs).at 16 1 = 0 → ∃ t, exec (.cmdStopSuspend fe) s = .next t ∧ startedAs s t fe (cmdOf bs).seq rest ∧ completedAs s t fe (cmdOf bs) 0
        ∧ (t.fe fe).st = .suspended)
    ∧ ((cmdOf bs).at 16 1 = 1 → s.ops = [] → s.quorums = [] → s.echoes = [] → (∀ e ∈ s.accs, e.2.fe ≠ fe) →
        ∃ t, exec (.cmdStopTerminate fe) s = .next t ∧ (t.fe fe).queue = rest ∧ (t.fe fe).seqStart = (cmdOf bs).seq ∧ t.strands = s.strands
          ∧ completedAs s t fe (cmdOf bs) 0 ∧ (t.fe fe).st = .stopped ∧ (∀ e ∈ t.launches, e.2.fe ≠ fe)
          -- with no page table there is no place for the report (R342)
          ∧ ((s.fe fe).root = 0 → t.mem = s.mem)))
  ∧ ((s.fe fe).en = true → (s.fe fe).st = .suspended ∨ (s.fe fe).st = .stopped → (s.fe fe).swapping = false → (s.fe fe).swapped = false → (s.fe fe).stopping = none →
      (s.fe fe).fitWait = none → (s.fe fe).queue = bs :: rest → malformed bs = false → (cmdOf bs).typ = 6 → (cmdOf bs).at 16 1 = 2 → (cmdOf bs).caddr = 0 →
      (s.fe fe).cmds = [] → ∃ t, exec (.cmdStopResume fe) s = .next t ∧ startedAs s t fe (cmdOf bs).seq rest ∧ completedAs s t fe (cmdOf bs) 0
        ∧ (t.fe fe).st = .idle)
  ∧ ((s.fe fe).en = true → (s.fe fe).st = .suspended → (s.fe fe).swapping = false → (s.fe fe).swapped = false → (s.fe fe).stopping = none →
      (s.fe fe).fitWait = none → (s.fe fe).queue = bs :: rest → malformed bs = false → (cmdOf bs).typ = 6 → (cmdOf bs).at 16 1 = 0 → (cmdOf bs).caddr = 0 →
      ∃ t, exec (.cmdStopSuspend fe) s = .next t ∧ startedAs s t fe (cmdOf bs).seq rest ∧ completedAs s t fe (cmdOf bs) 0 ∧ (t.fe fe).st = .suspended)
  ∧ ((s.fe fe).en = true → (s.fe fe).st = .stopped → (s.fe fe).swapping = false → (s.fe fe).swapped = false → (s.fe fe).stopping = none →
      (s.fe fe).fitWait = none → (s.fe fe).queue = bs :: rest → (cmdOf bs).typ ≠ 6 → (cmdOf bs).caddr = 0 →
      ∀ e ∈ starts fe, ∃ t, exec e.2 s = .next t ∧ startedAs s t fe (cmdOf bs).seq rest ∧ completedAs s t fe (cmdOf bs) Cause.partitionStop)

/-! ## Events of blocks -/

namespace Sys2Proof.Claims

/-- The places that a launch's next block may take (R309, R310). -/
def seatsOf (s : State) (la : Launch) (i : Nat) : List Seat := s.seats la i (la.strandsIn i) la.queueSum fun _ => true

/-- A strand starts (R32, R22, R345): at the entry, its group the threads whose index lies below n, S0:S1 the constants block, every other
V and S register zero, no handle in use, the partition's privileged vector. -/
structure StartsAs (k : Strand) (la : Launch) (pvec : Dword) (index sid : Nat) : Prop where
  pc     : k.pc = la.entry
  mask   : ∀ t < 32, k.mask.getLsbD t = true ↔ index * la.bdim + 32 * sid + t < la.n
  consts : k.sPair 0 = la.consts
  scal   : ∀ r, 2 ≤ r → k.sGet r = 0
  vec    : ∀ r t, k.vGet r t = 0
  handle : k.h = []
  pvec   : k.pvec = pvec

/-- A strand is as it was but for what a save and a restore change. -/
def kept (k k' : Strand) : Prop := k'.v = k.v ∧ k'.s = k.s ∧ k'.m = k.m ∧ k'.pc = k.pc ∧ k'.mask = k.mask ∧ k'.sig = k.sig ∧ k'.exited = k.exited

end Sys2Proof.Claims

/-- The events of a block's course (R30, R308 to R312, R357): the dispatcher places the launch's next block on the eligible core with the most free
strand slots, the lowest of several, with the strands at their start; its strands are selectable 32 ns later; a block that has ended retires
and leaves its core; a screened block passes when hashes and sigs agree. It says where these four events complete. -/
def Obligations.BlockEvents : Prop := ∀ (s : State),
  (∀ fe l i la, s.mayPlace fe = true → s.decide fe = some (.fresh l i) → s.launch? l = some la → la.fe = fe → la.screen = 0 → la.avoid.get? i = none →
      la.staging.get? i = none → seatsOf s la i ≠ [] → (∀ e ∈ s.strands, e.1.blk ≠ s.uid) → ∃ p t b, p ∈ seatsOf s la i
        ∧ (∀ q ∈ seatsOf s la i, q.free < p.free ∨ (q.free = p.free ∧ p.core ≤ q.core))
        ∧ exec (.blockPlace fe) s = .next t ∧ t.block? s.uid = some b ∧ b.launch = l ∧ b.index = i ∧ b.core = p.core ∧ b.slot = p.slot
        ∧ b.selectable = s.ns + 32 ∧ b.pad = [] ∧ b.bars = [] ∧ (t.fe fe).placeAt = s.ns + 4
        ∧ ∀ sid < la.strandsIn i, ∃ k, t.strand? ⟨s.uid, sid⟩ = some k ∧ StartsAs k la (s.fe fe).pvec i sid)
  ∧ (∀ fe, s.ns < (s.fe fe).placeAt → exec (.blockPlace fe) s = .next s)
  ∧ (∀ blk b, s.block? blk = some b → exec (.strandSelectable blk) s = .next { s with ns := max s.ns b.selectable })
  ∧ (∀ blk b la, s.block? blk = some b → s.launch? b.launch = some la →
      (s.ended blk b = true → b.buf = [] → b.committing = none → b.partner = none → b.screenWith = none → b.shadow = false →
        ∃ t la', exec (.blockRetire blk) s = .next t ∧ t.block? blk = none ∧ (∀ e ∈ t.strands, e.1.blk ≠ blk) ∧ t.launch? b.launch = some la'
          ∧ la'.retired = la.retired + 1 ∧ la'.residSum = la.residSum + b.resided + (s.ns - b.placed)
          ∧ ∀ a, (s.core b.core).array = some a → a.owner = blk → (t.core b.core).array = none)
      ∧ (s.ended blk b = false → exec (.blockRetire blk) s = .next s ∧ exec (.screenVerdict blk) s = .next s)
      ∧ ∀ w, s.ended blk b = true → b.screenWith = some w → ∃ t, exec (.screenVerdict blk) s = .next t
          ∧ t.block? blk = some { b with screenWith := none, partner := none }
          ∧ (t.launch? b.launch).map Launch.status = some (if w = s.screenOf blk then la.status else 0x85))

/-- The events of pre-emption (R314, R336, R337, R340, R344): a drain that has run out begins to save its block; a halted block is stored once it waits
for nothing, and restored on another seat with its registers, masks, pad and PCs as they were, or fails its launch where its saved state cannot be
read; a partition without running blocks is swapped out, and swapped in on a range of the same number of clusters. That a refused swap in ends with RECORD_REFUSED is the model's reading (log 29). It says where
these five events complete. -/
def Obligations.PreemptionEvents : Prop := ∀ (s : State),
  (∀ blk b, s.block? blk = some b → b.life = .draining → b.drainBy ≤ s.ns →
      exec (.drainExpiry blk) s = .next (s.setBlock blk { b with life := .halting }))
  ∧ (∀ blk b, s.block? blk = some b → (b.life ≠ .draining ∨ s.ns < b.drainBy) → exec (.drainExpiry blk) s = .next s)
  ∧ (∀ blk b, s.block? blk = some b → b.life = .halting → (∀ e ∈ s.ops, e.2.blk ≠ blk) →
      (s.haltWaits blk = false → ∃ t b', exec (.blockSaved blk) s = .next t ∧ t.block? blk = some b' ∧ b'.life = .saved ∧ b'.gen = b.gen + 1
          ∧ b'.pad = b.pad ∧ b'.bars = b.bars ∧ b'.queues = b.queues ∧ b'.buf = b.buf ∧ b'.drafts = b.drafts
          ∧ (∀ sid k, s.strand? ⟨blk, sid⟩ = some k → ∃ k', t.strand? ⟨blk, sid⟩ = some k' ∧ kept k k')
          ∧ ∀ a, (s.core b.core).array = some a → a.owner = blk → b'.savedArray = some a ∧ (t.core b.core).array = none)
      ∧ (s.haltWaits blk = true → exec (.blockSaved blk) s = .next s))
  ∧ (∀ blk b la x, s.block? blk = some b → s.launch? b.launch = some la → b.life = .saved → s.mayPlace la.fe = true → s.decide la.fe = some (.restore blk) →
      s.restoreSeat b = some x →
      (b.ctxBad = true → exec (.blockRestore blk) s = .next (s.failLaunch b.launch 0x94))
      ∧ (b.ctxBad = false → (∀ e ∈ s.ops, e.2.blk ≠ blk) → (∀ e ∈ s.blocks, e.2.committing = none) →
      ∃ t b', exec (.blockRestore blk) s = .next t ∧ t.block? blk = some b' ∧ b'.life = .running ∧ b'.core = x.core ∧ b'.slot = x.slot
        ∧ b'.selectable = s.ns + 32 ∧ b'.pad = b.pad ∧ b'.bars = b.bars ∧ b'.queues = b.queues ∧ b'.buf = b.buf
        ∧ (∀ sid k, s.strand? ⟨blk, sid⟩ = some k → ∃ k', t.strand? ⟨blk, sid⟩ = some k' ∧ kept k k')
        ∧ (∀ a, b.savedArray = some a → (t.core x.core).array = some a) ∧ (t.fe la.fe).placeAt = s.ns + 4))
  ∧ (∀ fe, (s.fe fe).en = true → (s.fe fe).swapped = false → (s.fe fe).swapping = false → (s.fe fe).stopping = none →
      (∀ e ∈ s.blocks, (s.launch? e.2.launch).map Launch.fe ≠ some fe) →
      ∃ t, exec (.contextSwapOut fe) s = .next t ∧ (t.fe fe).swapped = true ∧ (t.fe fe).swapping = false)
  ∧ ∀ fe cbase, (s.fe fe).swapped = true → let hi := cbase + ((s.fe fe).clim - (s.fe fe).cbase)
      (hi < 32 → s.rangeTaken fe cbase hi = false → ∃ t, exec (.contextSwapIn fe cbase) s = .next t ∧ (t.fe fe).cbase = cbase ∧ (t.fe fe).clim = hi
        ∧ (t.fe fe).swapped = false ∧ t.blocks = s.blocks ∧ t.strands = s.strands)
      ∧ (32 ≤ hi ∨ s.rangeTaken fe cbase hi = true → exec (.contextSwapIn fe cbase) s = .next { s with mgmt := 0xAE })

/-- Code and the host's own accesses (R250, R328, R359, R361, R373, R375): a line whose tag checks enters the instruction cache, one whose tag does not traps
CODE_MAC at the fetch; a demand-loaded page is hashed once, and a mismatch marks it failed; a load is refused with its first failure, or
registers the object; the host reads and writes only in the partition's channels. Where the tags stand is the model's choice (log 8), a page partly in another channel counts
as failed (log 28), and the host's accesses go by physical address (log 29). It says where these five events complete. -/
def Obligations.CodeAndHostEvents : Prop := ∀ (s : State) (fe : Nat),
  (∀ core va p o r k, s.ownerOf core = some fe → let line := lineOf va
      let bs := s.readPage (s.fe fe) p 128
      let good := s.mem.num (o.tagPa line) 8 = (lineTag fe o.count line bs).toNat
      (s.core core).icache.get? (fe, line) = none → lookup (s.tlb fe) (s.fe fe) .fetch line 128 = .page p → va / 65536 * 65536 ∉ (s.fe fe).failed →
      (s.fe fe).demandHash (va / 65536 * 65536) = none → s.poison = [] → (s.fe fe).codeAt line = some o → (s.fe fe).owns (o.tagPa line) 8 = true →
      (good → (s.core core).icache.length < 512 → exec (.icacheFill core va) s = .next (s.setCore core { s.core core with
          icache := (s.core core).icache.put (fe, line) bs }))
      ∧ (good → (s.core core).icache.length = 512 → ∃ c, exec (.icacheFill core va) s = .next (s.setCore core c) ∧ c.icache.get? (fe, line) = some bs
          ∧ c.icache.length = 512 ∧ ∀ e ∈ c.icache, e ∈ (s.core core).icache ∨ e.1 = (fe, line))
      ∧ (¬ good → s.fetching fe (some core) line 128 = [r] → s.strand? r = some k → exec (.icacheFill core va) s = .next (s.enterPriv r
          { cause := 0x83, mask := k.mask, resume := k.pc, fpc := k.pc, va := BitVec.ofNat 64 line, region := k.region })))
  ∧ (∀ va h o p, let page := va / 65536 * 65536
      (s.fe fe).demandHash page = some h → (s.fe fe).codeAt page = some o → lookup (s.tlb fe) (s.fe fe) .fetch page 128 = .page p →
      page ∉ (s.fe fe).hashed → page ∉ (s.fe fe).failed → s.fetching fe none page 65536 ≠ [] →
      let good := (s.fe fe).owns p.pa 65536 = true ∧ Config.sha256 (s.readPage (s.fe fe) p 65536) = h
      (good → ∃ t, exec (.demandPageHash fe va) s = .next t ∧ (t.fe fe).hashed = page :: (s.fe fe).hashed ∧ (t.fe fe).failed = (s.fe fe).failed
        ∧ t.strands = s.strands)
      ∧ (¬ good → ∃ t, exec (.demandPageHash fe va) s = .next t ∧ (t.fe fe).failed = page :: (s.fe fe).failed ∧ (t.fe fe).hashed = (s.fe fe).hashed))
  ∧ (∀ va tags hd bs, s.readVa fe va 64 = some hd → s.readRun fe va (ceilDiv (field hd 8 8) 64) = some bs → va % 128 = 0 →
      let o := iluopOf (bs.take (field hd 8 8))
      let c : CodeObject := { va := va, size := o.size, text := o.text.map fun x => (va + x.off, x.len), kernels := o.kerns
                              demand := o.hashes.map fun h => (va + h.1, h.2), count := (s.fe fe).created, tags := tags }
      ((s.fe fe).codes.filter fun x => x.va ≠ va).length < 64 → (∀ l ∈ c.plainLines, (s.fe fe).owns (c.tagPa l) 8 = true) →
      (o.cause = none → ∃ t, exec (.objectLoad fe va tags) s = .next t ∧ (t.fe fe).codes = ((s.fe fe).codes.filter fun x => x.va ≠ va) ++ [c]
        ∧ (t.fe fe).loadStatus = 0)
      ∧ ∀ x, o.cause = some x → exec (.objectLoad fe va tags) s = .next (s.modFe fe fun f => { f with loadStatus := x }))
  ∧ (∀ va tags, s.readVa fe va 64 = none → exec (.objectLoad fe va tags) s = .next (s.modFe fe fun f => { f with loadStatus := Cause.loadRefused 0 }))
  ∧ (∀ pa bs, let mine := (s.fe fe).en = true ∧ ∀ i < List.length bs, (s.fe fe).owns (pa + i) 1 = true
      (mine → (∃ t, exec (.hostMemoryWrite fe pa bs) s = .next t ∧ t.mem = s.mem.put pa bs ∧ t.host = s.host ∧ t.strands = s.strands ∧ t.blocks = s.blocks
          ∧ (∀ f, f ≠ fe → t.fe f = s.fe f) ∧ ∃ v, t.fe fe = { s.fe fe with hostView := v })
        ∧ exec (.hostMemoryRead fe pa bs.length) s = .next { s with hostRead := s.mem.bytes pa bs.length })
      ∧ (¬ mine → exec (.hostMemoryWrite fe pa bs) s = .next s ∧ exec (.hostMemoryRead fe pa bs.length) s = .next s))

/-! ## Management, bring-up and the fabric -/

namespace Sys2Proof.Claims

/-- The front end has a record's fields (R323). -/
def hasRecord (f : FrontEnd) (r : PartRec) : Prop :=
  f.chan = r.chan ∧ f.colour = r.colour ∧ f.root = r.root ∧ f.en = r.en ∧ f.rank = r.rank ∧ f.clim = r.clim ∧ f.cbase = r.cbase ∧ f.mincl = r.mincl
    ∧ f.minch = r.minch ∧ f.share = r.share ∧ f.minfc = r.minfc ∧ f.drain = r.drain

end Sys2Proof.Claims

/-- Partition records (R323, R324, R359, R376): a good record for a partition that is not enabled creates it with fresh tokens and a new key, one that
R324 refuses changes nothing; a disabled partition is gone. -/
def Sys2Proof.Claims.RecordWrites : Prop := ∀ (s : State) (fe : Nat) (rec : PartRec),
  let r := PartRec.norm rec
  (r.en = true → (s.fe fe).nextRec = none → (s.fe fe).stopping = none → s.recordBad fe r = true →
    exec (.mgmtPartitionWrite fe rec) s = .next { s with mgmt := 0xAE })
  ∧ (r.en = true → (s.fe fe).nextRec = none → (s.fe fe).stopping = none → s.recordBad fe r = false → (s.fe fe).en = false →
      ∃ t, exec (.mgmtPartitionWrite fe rec) s = .next t ∧ t.mgmt = 0 ∧ hasRecord (t.fe fe) r ∧ (t.fe fe).tokens = [] ∧ (t.fe fe).queue = []
        ∧ (t.fe fe).codes = [] ∧ (t.fe fe).created = (s.fe fe).created + 1)
  ∧ (r.en = true → (s.fe fe).nextRec = none → (s.fe fe).stopping = none → s.recordBad fe r = false → (s.fe fe).en = true →
      (∀ e ∈ s.blocks, (s.launch? e.2.launch).map Launch.fe ≠ some fe) →
      ∃ t, exec (.mgmtPartitionWrite fe rec) s = .next t ∧ t.mgmt = 0 ∧ hasRecord (t.fe fe) r ∧ (t.fe fe).tokens = (s.fe fe).tokens)
  ∧ ((s.fe fe).en = true → (s.fe fe).stopping = none → s.ops = [] → s.quorums = [] → s.echoes = [] →
      (∀ e ∈ s.accs, e.2.fe ≠ fe) → ∃ t, exec (.mgmtPartitionDisable fe) s = .next t ∧ t.mgmt = 0 ∧ (t.fe fe).en = false ∧ (t.fe fe).queue = [] ∧ ∀ e ∈ t.launches, e.2.fe ≠ fe)
  ∧ ((s.fe fe).en = false → (s.fe fe).stopping = none → exec (.mgmtPartitionDisable fe) s = .next { s with mgmt := 0 })

/-- The other management operations (R329, R345, R365, R366, R367, R372, R376, R378 to R382): each sets what it names and ends with 0x00, and a value outside its range
ends with RECORD_REFUSED and changes nothing. The cause RECORD_REFUSED for every refused setting, the ageing step and the order of the cap classes are the
model's readings (log 29). -/
def Sys2Proof.Claims.Settings : Prop := ∀ (s : State) (fe n : Nat),
  (∀ va, exec (.mgmtPrivilegedVector fe va) s = .next { s.setFe fe { s.fe fe with pvec := va } with mgmt := 0 })
  ∧ (∀ w, let bad := ∃ x, w = some x ∧ x.kind ≠ .hostMemory ∧ (x.timeout < 100000 ∨ 1000000000 < x.timeout)
      (n < 64 → ¬ bad → ∃ t, exec (.mgmtWindows fe n w) s = .next t ∧ t.mgmt = 0 ∧ (t.fe fe).windows.get? n = w)
      ∧ (64 ≤ n ∨ bad → exec (.mgmtWindows fe n w) s = .next { s with mgmt := 0xAE }))
  ∧ (∀ g, let bad := ∃ x, g = some x ∧ (x.contexts < (s.fe fe).minfc ∨ x.timeout < 1000000 ∨ 10000000000 < x.timeout)
      (n < 256 → ¬ bad → ∃ t, exec (.mgmtReductionGroups fe n g) s = .next t ∧ t.mgmt = 0 ∧ (t.fe fe).groups.get? n = g)
      ∧ (256 ≤ n ∨ bad → exec (.mgmtReductionGroups fe n g) s = .next { s with mgmt := 0xAE }))
  ∧ ((n ≤ 63 → ∃ t, exec (.mgmtReductionGrant n) s = .next t ∧ t.mgmt = 0 ∧ t.grant = n)
      ∧ (63 < n → exec (.mgmtReductionGrant n) s = .next { s with mgmt := 0xAE }))
  ∧ (∀ cfg, let bad := ¬ (cfg.sampleK = 0 ∨ 10 ≤ cfg.sampleK ∧ cfg.sampleK ≤ 20)
      (¬ bad → ∃ t, exec (.mgmtTelemetry fe cfg) s = .next t ∧ t.mgmt = 0 ∧ (t.fe fe).eventBase = cfg.eventBase ∧ (t.fe fe).sampleBase = cfg.sampleBase
        ∧ (t.fe fe).sampleK = cfg.sampleK ∧ (t.fe fe).counting = cfg.counters)
      ∧ (bad → exec (.mgmtTelemetry fe cfg) s = .next { s with mgmt := 0xAE }))
  ∧ exec (.mgmtStatusBlock fe n) s = .next { s.setFe fe { s.fe fe with statusAddr := n } with mgmt := 0 }
  ∧ (600 ≤ n ∧ n ≤ 2400 → exec (.mgmtPowerLimit n) s = .next { s with powerLimit := n, mgmt := 0 })
  ∧ (n < 600 ∨ 2400 < n → exec (.mgmtPowerLimit n) s = .next { s with mgmt := 0xAE })
  ∧ (n < 32 → ∃ t, exec (.mgmtRetire .cluster n) s = .next t ∧ t.mgmt = 0 ∧ t.retiredClusters = s.retiredClusters ||| (1#32 <<< n))
  ∧ (32 ≤ n → exec (.mgmtRetire .cluster n) s = .next { s with mgmt := 0xAE })
  ∧ (384 ≤ n → exec (.mgmtRetire .channel n) s = .next { s with mgmt := 0xAE })
  ∧ (n < 384 → ∃ t, exec (.mgmtRetire .channel n) s = .next t ∧ t.mgmt = 0 ∧ t.retiredChannels = s.retiredChannels ||| (1#384 <<< n))
  ∧ (∀ r : AgeReading, r.cluster < 32 →
      (r.inRange = true → 8 ≤ r.canHold → ∃ t, exec (.mgmtAgeingMeasure r) s = .next t ∧ t.mgmt = 0
        ∧ (t.clusters.getD r.cluster {}).ageStep = 14 - r.canHold)
      ∧ (r.inRange = true → r.canHold < 8 → ∃ t, exec (.mgmtAgeingMeasure r) s = .next t ∧ t.retiredClusters = s.retiredClusters ||| (1#32 <<< r.cluster))
      ∧ (r.inRange = false → ∃ t, exec (.mgmtAgeingMeasure r) s = .next t ∧ t.clusters = s.clusters ∧ t.retiredClusters = s.retiredClusters))
  ∧ (∀ rs, (s.agedAt + 3600000000000000 ≤ s.ns → ∃ t, exec (.ageingPeriodicRead rs) s = .next t ∧ t.agedAt = s.ns)
      ∧ (s.ns < s.agedAt + 3600000000000000 → exec (.ageingPeriodicRead rs) s = .next s))
  ∧ ∀ step, n < 32 → step ≤ 6 → let old := (s.clusters.getD n {}).step
      (step < old → ∃ t, exec (.powerCapAdjust n step) s = .next t ∧ (t.clusters.getD n {}).step = step)
      ∧ (old < step → (∀ c < 32, s.capClass c < s.capClass n → s.retiredClusters.getLsbD c = true ∨ (s.clusters.getD c {}).step = 6) →
          ∃ t, exec (.powerCapAdjust n step) s = .next t ∧ (t.clusters.getD n {}).step = step)
      ∧ (old < step → (∃ c < 32, s.capClass c < s.capClass n ∧ s.retiredClusters.getLsbD c = false ∧ (s.clusters.getD c {}).step ≠ 6) →
          exec (.powerCapAdjust n step) s = .next s)

/-- Bring-up and links (R215, R364, R367, R377, R381, R355): reduced service needs good signatures and a port of die 0, full service every die-to-die link and
stack; ports and Ethernet links come and go; a window access that is not acknowledged fails with HOSTWIN_ERROR; a retransmission changes
nothing; a fatal error stops every partition. Rate 7 for every cluster in reduced service is the model's reading (log 29). -/
def Sys2Proof.Claims.BringUp : Prop := ∀ (s : State) (n : Nat),
  (s.service = .off → ∃ t, exec .powerOn s = .next t ∧ t.service = .powerOn)
  ∧ (s.service = .powerOn → (∃ p < 5, s.ports.getLsbD p = true) → ∃ t, exec .enterReducedService s = .next t
    ∧ if Config.firmwareSigOk = true ∧ Config.configSigOk = true then t.service = .reduced ∧ ∀ c < 32, (t.clusters.getD c {}).rate = 7 else t = s)
  ∧ ((s.service ≠ .powerOn ∨ ∀ p < 5, s.ports.getLsbD p = false) → exec .enterReducedService s = .next s)
  ∧ (let can := s.service = .reduced ∧ s.dieLinks = BitVec.allOnes 4 ∧ s.hbmStacks = BitVec.allOnes 12
    (can → ∃ t, exec .enterFullService s = .next t ∧ t.service = .full
      ∧ ∀ c < 32, (t.clusters.getD c {}).rate = 14 - max (s.clusters.getD c {}).step (s.clusters.getD c {}).ageStep)
    ∧ (¬ can → exec .enterFullService s = .next s))
  ∧ (n < 18 → exec (.portTrain .port n true) s = .next { s with ports := s.ports ||| (1#18 <<< n) })
  ∧ (n < 4 → exec (.portTrain .dieLink n true) s = .next { s with dieLinks := s.dieLinks ||| (1#4 <<< n) })
  ∧ (n < 12 → exec (.portTrain .stack n true) s = .next { s with hbmStacks := s.hbmStacks ||| (1#12 <<< n) })
  ∧ (∀ u, ∃ t, exec (.portTrain u n false) s = .next t ∧ t.ports = s.ports ∧ t.dieLinks = s.dieLinks ∧ t.hbmStacks = s.hbmStacks)
  ∧ (n < 18 → s.ports.getLsbD n = true → ∃ t, exec (.portDown n) s = .next t ∧ t.ports = s.ports &&& ~~~(1#18 <<< n))
  ∧ (n < 18 → s.ports.getLsbD n = false → ∃ t, exec (.portUp n) s = .next t ∧ t.ports = s.ports ||| (1#18 <<< n))
  ∧ exec (.flitCrcReplay n) s = .next s ∧ exec (.weftRetransmit n) s = .next s
  ∧ (∀ up, n < 16 → s.ethLinks.getLsbD n ≠ up → ∃ t, exec (.ethLink n up) s = .next t ∧ ∀ i < 16, t.ethLinks.getLsbD i = if i = n then up else s.ethLinks.getLsbD i)
  ∧ (∀ a k b, s.accs.get? n = some a → a.space = .device → (∃ x, s.placeOf a = some x ∧ x.1 ≠ .device) → (∀ x, s.remoteOf a = some x → x.2 ≤ s.ns) →
      s.mayPerform n a = true → s.strand? a.strand = some k → s.block? a.strand.blk = some b → k.ended = false → ∃ t k', exec (.weftAccessTimeout n) s = .next t ∧ t.accs = s.accs.drop n ∧ t.mem = s.mem ∧ t.strand? a.strand = some k'
        ∧ ∃ f ∈ k'.faults, f.cause = 0xA4 ∧ f.pc = a.pc)
  ∧ (∀ fe, s.ownerOf n = some fe → (s.fe fe).sampleK ≠ 0 → (s.core n).sampleAt / 2 ^ (s.fe fe).sampleK < s.clock n / 2 ^ (s.fe fe).sampleK →
      ∃ t, exec (.pcSample n) s = .next t ∧ (t.core n).samples = (s.core n).samples + 1 ∧ (t.core n).sampleAt = s.clock n
        ∧ t.strands = s.strands)
  ∧ (s.ops = [] → s.quorums = [] → s.echoes = [] → s.accs = [] → ∃ t, exec .deviceFatal s = .next t ∧ t.fatal = true
      ∧ ∀ fe, (s.fe fe).en = true → (s.fe fe).stopping = none → (t.fe fe).st = .stopped)

/-- Management, bring-up and links (R323, R324, R329, R359, R364 to R367, R376 to R379): records create, change and remove partitions or are refused
without effect; each setting takes effect in its range and is refused outside it; the device enters reduced and full service on their
conditions; ports and links come and go, and a fatal error stops every partition. The cause RECORD_REFUSED for every refused setting, rate 7 for
all clusters in reduced service, the ageing step 14 - canHold and the order of the cap classes are the model's readings (log 29). It says where each of
these events completes. -/
def Obligations.ManagementAndBringUp : Prop := RecordWrites ∧ Settings ∧ BringUp

/-! ## The machine as a whole -/

namespace Sys2Proof.Claims

/-- An F word's fields without header bits. -/
def fWord (d a b c : BitVec 7) (mod : BitVec 12) (stall : BitVec 4 := 0) : F := ⟨⟨stall, false, 0, false⟩, d, a, b, c, mod⟩

/-- An E word's fields without handle, barrier and flag. -/
def eWord (sa sb sc : BitVec 6) (mod : BitVec 12) : E := ⟨0, 0, false, sa, sb, sc, 0, false, false, mod⟩

/-- The words that the spec writes out, and the instructions that its text gives for them. -/
def specWords : List (Dword × Instr) :=
  [(0x223001040C200001, .ffma (fWord 1 2 3 4 1 3)),                     -- FFMA.rz V1, V2, V3, V4 !3
   (0x4000080600003000, .cvt 3 (fWord 8 3 0 0 0)),                      -- CVT.e4m3.fp32 V8, V3
   (0x0A00050C1C000088, .twill (fWord 5 6 7 0 0x88)),                   -- AND V5, V6, V7
   (0x1700010210002800, .icmp 2 (fWord 1 1 4 0 0x800)),                 -- ICMP.lt M1, V1, 4
   (0x7C0001040C000000, .msk 0 (fWord 1 2 3 0 0)),                      -- MSK.and M1, M2, M3
   (0x90802050110142C0, .pWord ⟨1, ⟨.iadd, false, 0, 4, 5, 0⟩, ⟨.fmul, false, 0, 10, 11, 0⟩⟩),   -- IADD V4, V5 || FMUL V10, V11 !1
   (0x5000090E21340040, .ld ⟨⟨0, false, 0, false⟩, 9, 7, 4, false, 2, 3, 1, 0, false, 0x40⟩),    -- LD.w.die.acq V9, [S4+V7+0x40]
   (0x51000C1412000010, .st ⟨⟨0, false, 0, false⟩, 12, 10, 2, false, 4, 0, 0, 0, false, 16⟩),    -- ST.q [S2+V10+16], V12
   (0x570008FE22480000, .qst ⟨⟨0, false, 0, false⟩, 8, 0x7F, 4, false, 4, 4, 2, 0, false, 0⟩),   -- QST.dev.rel [S4+0], V8
   (0x5200030C08000014, .atom 0 (fWord 3 6 2 0 0x14)),                  -- ATOM.add.dev.rel V3, [V6:V7], V2
   (0x53000A0C0818001C, .cas (fWord 10 6 2 3 0x1C)),                    -- CAS.dev.ar V10, [V6:V7], V2, V3
   (0x5800000000020000, .fenceSc (fWord 0 0 0 0 0)),                    -- FENCE.sc
   (0x590005100400080C, .waita (fWord 5 8 1 0 0x80C)),                  -- WAITA.eq.dev.acq V5, [V8:V9], 1
   (0x600000040C000800, .barSet (fWord 0 2 3 0 0x800)),                 -- BAR.SET B2, 3
   (0x6000000410002001, .barWaitPhase (fWord 0 2 4 0 1)),               -- BAR.WAIT B2, S4
   (0x6100000008000000, .sknJoin (fWord 0 0 2 0 0)),                    -- SKN.JOIN S2
   (0x6200020A00000000, .qcfg (fWord 2 5 0 0 0)),                       -- QCFG Q2, S5
   (0x6300060200001000, .hndTest (fWord 6 1 0 0 0)),                    -- HND.TEST S6, H1
   (0x69000A0B00000000, .cps { eWord 16 22 0 0 with hw := true }),      -- CPS S16, S22, H0
   (0x6E00100004000002, .sample (fWord 16 0 1 0 2)),                    -- SAMPLE V16, V0, V1, 2
   (0x6F00000C00000003, .texbBind (fWord 0 6 0 0 3)),                   -- TEXB.bind 3, S6
   (0x7100000000000000, .mxsw (eWord 0 0 0 0)),                         -- MXSW
   (0x7300018400000137, .mma 0 (eWord 12 8 0 0x137)),                   -- MMA.pt.s.e4m3.e2m1 S12, S8
   (0x74001A0400040002, .mxdGuide { eWord 16 8 0 2 with hd := 1, hw := true }),  -- MXD.guide.bf16 S16, S8, H1
   (0x76000060B8000000, .tdeWrite (fWord 0 48 46 0 0)),                 -- TDE.write S48, S46
   (0x7700080800001002, .hdlPerm (fWord 8 4 0 0 2)),                    -- HDL.PERM V8, V4, 2
   (0x78000060FFFFFFFC, .bra ⟨0, 0, 3, false, 0xFFFFFFFC⟩),             -- BRA loop, M3, four words back
   (0x7900020C00000000, .jmpi (fWord 2 6 0 0 0)),                       -- JMPI V6, S2
   (0x7A00040000000010, .call ⟨0, 4, 0, false, 16⟩),                    -- CALL blend, S4, 16 words ahead
   (0x7B000000A0002800, .ctlRcv (fWord 0 0 40 0 0x800)),                -- CTL.RCV 40
   (0x7D00000000001001, .sysTretRr (fWord 0 0 0 0 1)),                  -- SYS.TRET.rr
   (0x7D00380000002015, .sysRdcr (fWord 56 0 0 0 0x15)),                -- SYS.RDCR S56, pcause
   (0x7D00007000003014, .sysWrcr (fWord 0 56 0 0 0x14)),                -- SYS.WRCR pepc, S56
   (0xFFFFFFFFFFFFFFFF, .ill), (0, .nop)]

/-- A strand attempts its next word in the state `e` (log 1): it runs, it may go on, and no cause falls due before its word. -/
structure Attempts (e : State) (r : StrandRef) (k : Strand) (b : Block) (la : Launch) : Prop where
  strand : e.strand? r = some k
  block  : e.block? r.blk = some b
  launch : e.launch? b.launch = some la
  runs   : e.runs b = true
  able   : k.able = true
  quiet  : k.boundary = true → quiet k ∧ (k.stopDue = false ∨ k.ph = true)
    ∧ (k.ph = true ∨ k.stepDue = none ∧ k.faults = [] ∧ k.hostBreak = false ∧ e.timerDue b k = false)

/-- The state in which the act `x` makes its attempt: the turns `rest` are left, the core has reached the act's cycle, and the strand's waits that
the clock has ended are over (R297, R299). -/
def begun (s : State) (rest : List Turn) (x : Act) : State := (({ s.tock with turns := rest } : State).reachCycle x.core x.cyc).lapse x.r

/-- An act is over: its start has taken the lane (R316). -/
def tookAct (s : State) (x : Act) (t : State) : State := if x.starts then t.tookLane x (s.lanes.getD (x.core * 16 + x.lane) {}) else t

/-- A strand whose line has come is neither held at its fetch nor parked. -/
def fetched (e : State) (r : StrandRef) : State := e.modStrand r fun k => { k with fetchHeld := .no, parked := 0 }

end Sys2Proof.Claims

/-- A step runs the fetched word (R23, R57, R79, R209, R359; the schedule's turns are the model's, log 1): when a turn lists a strand whose act comes next, and the
line of its PC is in its core's instruction cache, the step is what `exec` answers for the decoded word with that strand in focus, its group then joined with
one at the same PC (R289) and its lane taken (R316); a word that is no instruction traps ILLEGAL_OPCODE or RESERVED_FIELD with the threads that its guard leaves
active (R56), a misaligned PC traps MISALIGNED, and a strand whose line is not cached waits. The turn of an event that lets no time pass is what `exec` answers for it;
that of TIMER_FIRE comes as its strand's start (R321), and is over where no TIMER is due. That an undecodable word traps for the threads of its guard fields
alone, none among them too, and that a misaligned PC traps at its fetch are the model's (log 19). -/
def Obligations.StepRunsTheFetchedWord : Prop := ∀ s : State,
  (∀ (r : StrandRef) (rest : List Turn) (x : Act) (k : Strand) (b : Block) (la : Launch), s.turns = .issue r :: rest →
    s.tock.nextAct (some r) = some x → x.r = r → x.sample = false → let e := begun s rest x
    Attempts e r k b la →
    (∀ p line, k.pc.toNat % 8 = 0 → lookup (e.tlb la.fe) (e.fe la.fe) .fetch k.pc.toNat 8 = .page p →
      (e.core b.core).icache.get? (la.fe, lineOf k.pc.toNat) = some line →
      let w := BitVec.ofNat 64 (numOf ((line.drop (k.pc.toNat % 128)).take 8))
      (∀ i, decode w = .ok i → step s = match exec i { fetched e r with focus := some r } with
          | .next t => .next (tookAct s x (({ t with focus := none } : State).modStrand r Strand.regroup))
          | o => o)
      ∧ ∀ d, decode w = .error d → step s = .next (tookAct s x ((fetched e r).enterPriv r
          { cause := match d with | .illegalOpcode => 0x01 | .reservedField => 0x02, mask := k.activeIn w, resume := k.pc, fpc := k.pc, region := k.region })))
    ∧ (k.pc.toNat % 8 ≠ 0 → step s = .next (tookAct s x (e.enterPriv r
          { cause := Cause.misaligned, mask := k.mask, resume := k.pc, fpc := k.pc, va := k.pc, region := k.region }))))
  ∧ (∀ (r : StrandRef) (rest : List Turn) (k : Strand) (b : Block) (la : Launch), s.turns = .issue r :: rest → s.tock.act? r = none →
    let e := ({ s.tock with turns := rest } : State).lapse r
    Attempts e r k b la → ∀ p, k.pc.toNat % 8 = 0 → lookup (e.tlb la.fe) (e.fe la.fe) .fetch k.pc.toNat 8 = .page p →
      (e.core b.core).icache.get? (la.fe, lineOf k.pc.toNat) = none →
      ∃ t k', step s = .next t ∧ t.strand? r = some k' ∧ k'.pc = k.pc ∧ k'.why = .fetch ∧ t.mem = e.mem)
  ∧ (∀ (i : Instr) (rest : List Turn), s.turns = .event i :: rest → i.form = none → s.passesTo i = none → samples i = false → (∀ r, i ≠ .timerFire r) →
      step s = exec i { s.tock with turns := rest })
  ∧ ∀ (r : StrandRef) (rest : List Turn), s.turns = .event (.timerFire r) :: rest → s.tock.firesTimer r = false → step s = .next { s.tock with turns := rest }

/-- The words that the spec writes out decode to the instructions that it gives for them, and encode to themselves. -/
def Obligations.SpecWordsDecode : Prop := (∀ e ∈ specWords, decode e.1 = .ok e.2 ∧ encode e.2 = some e.1)
  ∧ decode 0x7F00000000000000 = .error .illegalOpcode ∧ decode 1 = .error .reservedField

/-- Decoding and encoding are exact (R57 to R79): every well-formed instruction word decodes from its encoding, with every operand; and a word that decodes is
the encoding of a well-formed instruction, so that no bit of a word is dropped. -/
def Obligations.EncodingIsExact : Prop := ∀ (i : Instr) (w : Dword),
  (i.wf = true → encode i = some w → decode w = .ok i) ∧ (decode w = .ok i → i.wf = true ∧ encode i = some w)

/-- What reset leaves: the device is off, its clock reads 0 (R7), no port, link or stack is trained (R377), the reduction-context grant is 0 (R376), no partition is
enabled, nothing runs and nothing is pending. That memory lists nothing and reads 0 is the model's choice (log 2), the power limit of 2,400 W and that every
Ethernet link is down too (log 6). -/
def Obligations.ResetLeaves : Prop :=
  let s := State.reset
  s.service = .off ∧ s.ns = 0 ∧ s.ports = 0 ∧ s.dieLinks = 0 ∧ s.hbmStacks = 0 ∧ s.ethLinks = 0 ∧ s.grant = 0 ∧ s.fatal = false
    ∧ (∀ f, (s.fe f).en = false ∧ (s.fe f).st = .idle ∧ (s.fe f).pvec = 0) ∧ (∀ c, (s.core c).array = none ∧ ∀ n, ((s.core c).record n).gen = 0)
    ∧ s.strands = [] ∧ s.blocks = [] ∧ s.launches = [] ∧ s.accs = [] ∧ s.ops = [] ∧ (∀ a, Cells.get s.mem a = 0) ∧ s.powerLimit = 2400

/-- The state after reset has the form of a safe run. -/
def Obligations.ResetMeetsInvariant : Prop := State.Inv State.reset

/-- Every step keeps the form of a safe run, and device time never goes back (R7, R377): the memories stay canonical, and no step brings the device into service
without its signatures, or into full service without its links and stacks. -/
def Obligations.StepKeepsInvariant : Prop := ∀ s t : State, s.Inv → step s = .next t → t.Inv ∧ s.ns ≤ t.ns

/-- Every step answers a next state: nothing that a strand may fetch, and no event that may be listed, ends a run. -/
def Obligations.StepAlwaysAnswers : Prop := ∀ s : State, ∃ t, step s = .next t
end

