-- ==== Sys2Proof/Laws/Data.lean ====
section
/-!
SUPPORT. The laws of cells and tables: reading after writing, and that every write keeps the canonical form.
-/
namespace Sys2Proof.Machine

variable {w : Nat} {κ α : Type} [DecidableEq κ]

/-! ## Cells -/

@[simp] theorem Cells.get_nil (k : Nat) : Cells.get ([] : Cells w) k = 0 := rfl

theorem Cells.get_cons (a : Nat) (x : BitVec w) (l : Cells w) (k : Nat) :
    Cells.get ((a, x) :: l) k = if a = k then x else Cells.get l k := rfl

theorem Cells.get_erase (c : Cells w) (k j : Nat) : Cells.get (Cells.erase c k) j = if j = k then 0 else Cells.get c j := by
  induction c with
  | nil => simp [Cells.erase]
  | cons e l ih =>
    obtain ⟨a, x⟩ := e
    simp only [Cells.erase, List.filter_cons] at ih ⊢
    by_cases h : a = k
    · subst h
      by_cases hj : j = a
      · subst hj; simpa using ih
      · simp only [bne_self_eq_false, Bool.false_eq_true, if_false, ih, hj, if_false, Cells.get_cons, if_neg (Ne.symm hj)]
    · by_cases hj : j = k
      · subst hj; simp [Cells.get_cons, h, ih]
      · simp [Cells.get_cons, h, ih, hj]

theorem Cells.get_insert (k : Nat) (v : BitVec w) (c : Cells w) (j : Nat) (hc : Cells.get c k = 0 ∧ ∀ e ∈ c, e.1 ≠ k) :
    Cells.get (Cells.insert k v c) j = if j = k then v else Cells.get c j := by
  induction c with
  | nil => simp [Cells.insert, Cells.get_cons, eq_comm]
  | cons e l ih =>
    obtain ⟨a, x⟩ := e
    have ha : a ≠ k := hc.2 (a, x) (by simp)
    simp only [Cells.insert]
    split
    · simp [Cells.get_cons, eq_comm]
    · have ih := ih ⟨by simpa [Cells.get_cons, ha] using hc.1, fun e he => hc.2 e (by simp [he])⟩
      rw [Cells.get_cons, Cells.get_cons, ih]
      by_cases h : a = j
      · simp [h ▸ ha, h]
      · simp [h]

theorem Cells.erase_ne (c : Cells w) (k : Nat) : ∀ e ∈ Cells.erase c k, e.1 ≠ k := by
  intro e he
  simpa [Cells.erase] using (List.mem_filter.1 he).2

/-- Reading after writing. -/
@[simp] theorem Cells.get_set (c : Cells w) (k : Nat) (v : BitVec w) (j : Nat) :
    Cells.get (Cells.set c k v) j = if j = k then v else Cells.get c j := by
  unfold Cells.set
  split
  · next h => simp [Cells.get_erase, h]
  · rw [Cells.get_insert _ _ _ _ ⟨by simp [Cells.get_erase], Cells.erase_ne c k⟩, Cells.get_erase]
    by_cases hj : j = k <;> simp [hj]

theorem Cells.get_set_ne (c : Cells w) {k j : Nat} (v : BitVec w) (h : j ≠ k) : Cells.get (Cells.set c k v) j = Cells.get c j := by
  simp [h]

theorem Cells.above_iff (k : Nat) (c : Cells w) : Cells.above k c = true ↔ ∀ e ∈ c, k < e.1 := by
  simp [Cells.above]

theorem Cells.wf_cons (a : Nat) (x : BitVec w) (l : Cells w) :
    Cells.wf ((a, x) :: l) = true ↔ x ≠ 0 ∧ (∀ e ∈ l, a < e.1) ∧ Cells.wf l = true := by
  simp [Cells.wf, Cells.above_iff, and_assoc]

theorem Cells.wf_filter (p : Nat × BitVec w → Bool) {c : Cells w} (h : Cells.wf c = true) : Cells.wf (c.filter p) = true := by
  induction c with
  | nil => rfl
  | cons e l ih =>
    obtain ⟨a, x⟩ := e
    obtain ⟨hx, ha, hl⟩ := (Cells.wf_cons a x l).1 h
    rw [List.filter_cons]
    split
    · exact (Cells.wf_cons ..).2 ⟨hx, fun e he => ha e (List.mem_filter.1 he).1, ih hl⟩
    · exact ih hl

theorem Cells.mem_insert {k : Nat} {v : BitVec w} {c : Cells w} {e : Nat × BitVec w} (h : e ∈ Cells.insert k v c) : e = (k, v) ∨ e ∈ c := by
  induction c with
  | nil => simpa [Cells.insert] using h
  | cons f l ih =>
    simp only [Cells.insert] at h
    split at h
    · simpa using h
    · rcases List.mem_cons.1 h with h | h
      · exact .inr (by simp [h])
      · rcases ih h with h | h
        · exact .inl h
        · exact .inr (by simp [h])

theorem Cells.wf_insert {k : Nat} {v : BitVec w} {c : Cells w} (hv : v ≠ 0) (hk : ∀ e ∈ c, e.1 ≠ k) (h : Cells.wf c = true) :
    Cells.wf (Cells.insert k v c) = true := by
  induction c with
  | nil =>
    have : v ≠ 0#w := hv
    simp [Cells.insert, Cells.wf, Cells.above, this]
  | cons e l ih =>
    obtain ⟨a, x⟩ := e
    obtain ⟨hx, ha, hl⟩ := (Cells.wf_cons a x l).1 h
    have hak : a ≠ k := hk (a, x) (by simp)
    simp only [Cells.insert]
    split
    · next hlt =>
      refine (Cells.wf_cons ..).2 ⟨hv, ?_, h⟩
      intro e he
      rcases List.mem_cons.1 he with rfl | he
      · exact hlt
      · exact Nat.lt_trans hlt (ha e he)
    · next hlt =>
      refine (Cells.wf_cons ..).2 ⟨hx, ?_, ih (fun e he => hk e (by simp [he])) hl⟩
      intro e he
      rcases Cells.mem_insert he with rfl | he
      · show a < k; omega
      · exact ha e he

/-- A write keeps the canonical form. -/
theorem Cells.wf_set {c : Cells w} (k : Nat) (v : BitVec w) (h : Cells.wf c = true) : Cells.wf (Cells.set c k v) = true := by
  unfold Cells.set
  split
  · exact Cells.wf_filter _ h
  · next hv => exact Cells.wf_insert hv (Cells.erase_ne c k) (Cells.wf_filter _ h)

theorem Cells.wf_setAll {c : Cells w} (es : List (Nat × BitVec w)) (h : Cells.wf c = true) : Cells.wf (Cells.setAll c es) = true := by
  unfold Cells.setAll
  induction es generalizing c with
  | nil => exact h
  | cons e es ih => exact ih (Cells.wf_set _ _ h)

/-- A key that a list of writes does not name reads as before. -/
theorem Cells.get_setAll_of_ne (c : Cells w) (es : List (Nat × BitVec w)) (j : Nat) (h : ∀ e ∈ es, e.1 ≠ j) :
    Cells.get (Cells.setAll c es) j = Cells.get c j := by
  unfold Cells.setAll
  induction es generalizing c with
  | nil => rfl
  | cons e es ih =>
    rw [List.foldl_cons, ih _ fun e he => h e (by simp [he]), Cells.get_set, if_neg]
    exact fun h' => h e (by simp) h'.symm

/-! ## Memory -/

/-- Writing bytes: inside the run the bytes, outside it what was there. -/
theorem Memory.get_put (m : Memory) (a : Nat) (bs : List Byte) (j : Nat) :
    Cells.get (Memory.put m a bs) j = if a ≤ j ∧ j < a + bs.length then bs.getD (j - a) 0 else Cells.get m j := by
  induction bs generalizing m a with
  | nil => simp [Memory.put] <;> omega
  | cons b bs ih =>
    rw [Memory.put, ih, Cells.get_set]
    by_cases hj : j = a
    · subst hj
      rw [if_neg (by omega), if_pos rfl, if_pos (by simp)]
      simp
    · by_cases h : a + 1 ≤ j ∧ j < a + 1 + bs.length
      · have h' : a ≤ j ∧ j < a + (b :: bs).length := by simp; omega
        have : j - a = (j - (a + 1)) + 1 := by omega
        rw [if_pos h, if_pos h', this, List.getD_cons_succ]
      · have h' : ¬ (a ≤ j ∧ j < a + (b :: bs).length) := by simp; omega
        rw [if_neg h, if_neg h', if_neg hj]

theorem Memory.get_put_outside (m : Memory) (a : Nat) (bs : List Byte) (j : Nat) (h : j < a ∨ a + bs.length ≤ j) :
    Cells.get (Memory.put m a bs) j = Cells.get m j := by
  rw [Memory.get_put, if_neg]; omega

/-- Writing bytes keeps the canonical form. -/
theorem Memory.wf_put {m : Memory} (a : Nat) (bs : List Byte) (h : Memory.wf m = true) : Memory.wf (Memory.put m a bs) = true := by
  induction bs generalizing m a with
  | nil => exact h
  | cons b bs ih => exact ih _ (Cells.wf_set _ _ h)

@[simp] theorem Memory.bytes_length (m : Memory) (a n : Nat) : (Memory.bytes m a n).length = n := by simp [Memory.bytes]

/-- What was written reads back. -/
theorem Memory.bytes_put (m : Memory) (a : Nat) (bs : List Byte) : Memory.bytes (Memory.put m a bs) a bs.length = bs := by
  apply List.ext_getElem
  · simp
  · intro i h1 h2
    simp [Memory.bytes, Memory.get_put, h2]

/-! ## Tables -/

@[simp] theorem Table.get?_nil (k : κ) : Table.get? ([] : Table κ α) k = none := rfl

theorem Table.get?_put (t : Table κ α) (k j : κ) (v : α) : Table.get? (Table.put t k v) j = if k = j then some v else Table.get? t j := by
  induction t with
  | nil => rfl
  | cons e l ih =>
    obtain ⟨a, x⟩ := e
    simp only [Table.put]
    split
    · next h => subst h; simp only [Table.get?]; split <;> rfl
    · next h =>
      simp only [Table.get?, ih]
      by_cases ha : a = j
      · have hk : k ≠ j := fun e => h (ha.trans e.symm)
        simp [ha, hk]
      · simp [ha]

@[simp] theorem Table.get?_put_self (t : Table κ α) (k : κ) (v : α) : Table.get? (Table.put t k v) k = some v := by
  simp [Table.get?_put]

theorem Table.get?_put_ne (t : Table κ α) {k j : κ} (v : α) (h : k ≠ j) : Table.get? (Table.put t k v) j = Table.get? t j := by
  simp [Table.get?_put, h]

theorem Table.get?_mod (t : Table κ α) (k j : κ) (f : α → α) :
    Table.get? (Table.mod t k f) j = if k = j then (Table.get? t j).map f else Table.get? t j := by
  unfold Table.mod
  split
  · next x hx =>
    rw [Table.get?_put]
    by_cases h : k = j
    · subst h; simp [hx]
    · simp [h]
  · next hx =>
    by_cases h : k = j
    · subst h; simp [hx]
    · simp [h]

theorem Table.get?_drop (t : Table κ α) (k j : κ) : Table.get? (Table.drop t k) j = if k = j then none else Table.get? t j := by
  induction t with
  | nil => simp [Table.drop]
  | cons e l ih =>
    obtain ⟨a, x⟩ := e
    simp only [Table.drop, List.filter_cons] at ih ⊢
    by_cases h : a = k
    · subst h
      by_cases hj : a = j
      · subst hj; simpa using ih
      · simpa [Table.get?, hj] using ih
    · have hk : decide (a ≠ k) = true := by simpa using h
      rw [if_pos hk]
      by_cases hj : a = j
      · have hka : k ≠ j := fun e => h (hj.trans e.symm)
        simp [Table.get?, hj, hka]
      · simp only [Table.get?, hj, if_false, ih]

theorem Table.getD_put (t : Table κ α) (k j : κ) (v d : α) : Table.getD (Table.put t k v) j d = if k = j then v else Table.getD t j d := by
  unfold Table.getD; rw [Table.get?_put]; split <;> rfl

/-- A property of every record that is listed is kept by putting a record that has it. -/
theorem Table.forall_put {P : κ × α → Prop} {t : Table κ α} {k : κ} {v : α} (h : ∀ e ∈ t, P e) (hv : P (k, v)) :
    ∀ e ∈ Table.put t k v, P e := by
  induction t with
  | nil => intro e he; simp [Table.put] at he; exact he ▸ hv
  | cons f l ih =>
    obtain ⟨a, x⟩ := f
    intro e he
    simp only [Table.put] at he
    split at he
    · next ha =>
      rcases List.mem_cons.1 he with rfl | he
      · exact ha ▸ hv
      · exact h e (by simp [he])
    · rcases List.mem_cons.1 he with rfl | he
      · exact h _ (by simp)
      · exact ih (fun e he => h e (by simp [he])) e he

theorem Table.mem_of_get? {t : Table κ α} {k : κ} {v : α} (h : Table.get? t k = some v) : (k, v) ∈ t := by
  induction t with
  | nil => simp at h
  | cons f l ih =>
    obtain ⟨a, x⟩ := f
    simp only [Table.get?] at h
    split at h
    · next ha => simp_all
    · exact List.mem_cons_of_mem _ (ih h)

end Sys2Proof.Machine
end

