-- ==== Sys2Proof/Laws/State.lean ====
section
/-!
SUPPORT. What every field of a device and of a strand holds after each update: one lemma per field per update.
-/
namespace Sys2Proof.Machine

/-! ## The device -/

@[simp] theorem State.setStrand_ns (s : State) (r : StrandRef) (k : Strand) : (s.setStrand r k).ns = s.ns := rfl
@[simp] theorem State.setStrand_beatNs (s : State) (r : StrandRef) (k : Strand) : (s.setStrand r k).beatNs = s.beatNs := rfl
@[simp] theorem State.setStrand_service (s : State) (r : StrandRef) (k : Strand) : (s.setStrand r k).service = s.service := rfl
@[simp] theorem State.setStrand_ports (s : State) (r : StrandRef) (k : Strand) : (s.setStrand r k).ports = s.ports := rfl
@[simp] theorem State.setStrand_dieLinks (s : State) (r : StrandRef) (k : Strand) : (s.setStrand r k).dieLinks = s.dieLinks := rfl
@[simp] theorem State.setStrand_hbmStacks (s : State) (r : StrandRef) (k : Strand) : (s.setStrand r k).hbmStacks = s.hbmStacks := rfl
@[simp] theorem State.setStrand_ethLinks (s : State) (r : StrandRef) (k : Strand) : (s.setStrand r k).ethLinks = s.ethLinks := rfl
@[simp] theorem State.setStrand_udpPort (s : State) (r : StrandRef) (k : Strand) : (s.setStrand r k).udpPort = s.udpPort := rfl
@[simp] theorem State.setStrand_flowControl (s : State) (r : StrandRef) (k : Strand) : (s.setStrand r k).flowControl = s.flowControl := rfl
@[simp] theorem State.setStrand_ecnMarking (s : State) (r : StrandRef) (k : Strand) : (s.setStrand r k).ecnMarking = s.ecnMarking := rfl
@[simp] theorem State.setStrand_retiredClusters (s : State) (r : StrandRef) (k : Strand) : (s.setStrand r k).retiredClusters = s.retiredClusters := rfl
@[simp] theorem State.setStrand_retiredChannels (s : State) (r : StrandRef) (k : Strand) : (s.setStrand r k).retiredChannels = s.retiredChannels := rfl
@[simp] theorem State.setStrand_powerLimit (s : State) (r : StrandRef) (k : Strand) : (s.setStrand r k).powerLimit = s.powerLimit := rfl
@[simp] theorem State.setStrand_agedAt (s : State) (r : StrandRef) (k : Strand) : (s.setStrand r k).agedAt = s.agedAt := rfl
@[simp] theorem State.setStrand_grant (s : State) (r : StrandRef) (k : Strand) : (s.setStrand r k).grant = s.grant := rfl
@[simp] theorem State.setStrand_fatal (s : State) (r : StrandRef) (k : Strand) : (s.setStrand r k).fatal = s.fatal := rfl
@[simp] theorem State.setStrand_mgmt (s : State) (r : StrandRef) (k : Strand) : (s.setStrand r k).mgmt = s.mgmt := rfl
@[simp] theorem State.setStrand_hostRead (s : State) (r : StrandRef) (k : Strand) : (s.setStrand r k).hostRead = s.hostRead := rfl
@[simp] theorem State.setStrand_clusters (s : State) (r : StrandRef) (k : Strand) : (s.setStrand r k).clusters = s.clusters := rfl
@[simp] theorem State.setStrand_cores (s : State) (r : StrandRef) (k : Strand) : (s.setStrand r k).cores = s.cores := rfl
@[simp] theorem State.setStrand_fes (s : State) (r : StrandRef) (k : Strand) : (s.setStrand r k).fes = s.fes := rfl
@[simp] theorem State.setStrand_lanes (s : State) (r : StrandRef) (k : Strand) : (s.setStrand r k).lanes = s.lanes := rfl
@[simp] theorem State.setStrand_strands (s : State) (r : StrandRef) (k : Strand) : (s.setStrand r k).strands = s.strands.put r k := rfl
@[simp] theorem State.setStrand_blocks (s : State) (r : StrandRef) (k : Strand) : (s.setStrand r k).blocks = s.blocks := rfl
@[simp] theorem State.setStrand_launches (s : State) (r : StrandRef) (k : Strand) : (s.setStrand r k).launches = s.launches := rfl
@[simp] theorem State.setStrand_accs (s : State) (r : StrandRef) (k : Strand) : (s.setStrand r k).accs = s.accs := rfl
@[simp] theorem State.setStrand_quorums (s : State) (r : StrandRef) (k : Strand) : (s.setStrand r k).quorums = s.quorums := rfl
@[simp] theorem State.setStrand_echoes (s : State) (r : StrandRef) (k : Strand) : (s.setStrand r k).echoes = s.echoes := rfl
@[simp] theorem State.setStrand_ops (s : State) (r : StrandRef) (k : Strand) : (s.setStrand r k).ops = s.ops := rfl
@[simp] theorem State.setStrand_samples (s : State) (r : StrandRef) (k : Strand) : (s.setStrand r k).samples = s.samples := rfl
@[simp] theorem State.setStrand_services (s : State) (r : StrandRef) (k : Strand) : (s.setStrand r k).services = s.services := rfl
@[simp] theorem State.setStrand_mem (s : State) (r : StrandRef) (k : Strand) : (s.setStrand r k).mem = s.mem := rfl
@[simp] theorem State.setStrand_host (s : State) (r : StrandRef) (k : Strand) : (s.setStrand r k).host = s.host := rfl
@[simp] theorem State.setStrand_remote (s : State) (r : StrandRef) (k : Strand) : (s.setStrand r k).remote = s.remote := rfl
@[simp] theorem State.setStrand_poison (s : State) (r : StrandRef) (k : Strand) : (s.setStrand r k).poison = s.poison := rfl
@[simp] theorem State.setStrand_padBad (s : State) (r : StrandRef) (k : Strand) : (s.setStrand r k).padBad = s.padBad := rfl
@[simp] theorem State.setStrand_past (s : State) (r : StrandRef) (k : Strand) : (s.setStrand r k).past = s.past := rfl
@[simp] theorem State.setStrand_seq (s : State) (r : StrandRef) (k : Strand) : (s.setStrand r k).seq = s.seq := rfl
@[simp] theorem State.setStrand_sc (s : State) (r : StrandRef) (k : Strand) : (s.setStrand r k).sc = s.sc := rfl
@[simp] theorem State.setStrand_tags (s : State) (r : StrandRef) (k : Strand) : (s.setStrand r k).tags = s.tags := rfl
@[simp] theorem State.setStrand_turns (s : State) (r : StrandRef) (k : Strand) : (s.setStrand r k).turns = s.turns := rfl
@[simp] theorem State.setStrand_focus (s : State) (r : StrandRef) (k : Strand) : (s.setStrand r k).focus = s.focus := rfl
@[simp] theorem State.setStrand_fresh (s : State) (r : StrandRef) (k : Strand) : (s.setStrand r k).fresh = s.fresh := rfl
@[simp] theorem State.setStrand_uid (s : State) (r : StrandRef) (k : Strand) : (s.setStrand r k).uid = s.uid := rfl

@[simp] theorem State.modStrand_ns (s : State) (r : StrandRef) (g : Strand → Strand) : (s.modStrand r g).ns = s.ns := rfl
@[simp] theorem State.modStrand_beatNs (s : State) (r : StrandRef) (g : Strand → Strand) : (s.modStrand r g).beatNs = s.beatNs := rfl
@[simp] theorem State.modStrand_service (s : State) (r : StrandRef) (g : Strand → Strand) : (s.modStrand r g).service = s.service := rfl
@[simp] theorem State.modStrand_ports (s : State) (r : StrandRef) (g : Strand → Strand) : (s.modStrand r g).ports = s.ports := rfl
@[simp] theorem State.modStrand_dieLinks (s : State) (r : StrandRef) (g : Strand → Strand) : (s.modStrand r g).dieLinks = s.dieLinks := rfl
@[simp] theorem State.modStrand_hbmStacks (s : State) (r : StrandRef) (g : Strand → Strand) : (s.modStrand r g).hbmStacks = s.hbmStacks := rfl
@[simp] theorem State.modStrand_ethLinks (s : State) (r : StrandRef) (g : Strand → Strand) : (s.modStrand r g).ethLinks = s.ethLinks := rfl
@[simp] theorem State.modStrand_udpPort (s : State) (r : StrandRef) (g : Strand → Strand) : (s.modStrand r g).udpPort = s.udpPort := rfl
@[simp] theorem State.modStrand_flowControl (s : State) (r : StrandRef) (g : Strand → Strand) : (s.modStrand r g).flowControl = s.flowControl := rfl
@[simp] theorem State.modStrand_ecnMarking (s : State) (r : StrandRef) (g : Strand → Strand) : (s.modStrand r g).ecnMarking = s.ecnMarking := rfl
@[simp] theorem State.modStrand_retiredClusters (s : State) (r : StrandRef) (g : Strand → Strand) : (s.modStrand r g).retiredClusters = s.retiredClusters := rfl
@[simp] theorem State.modStrand_retiredChannels (s : State) (r : StrandRef) (g : Strand → Strand) : (s.modStrand r g).retiredChannels = s.retiredChannels := rfl
@[simp] theorem State.modStrand_powerLimit (s : State) (r : StrandRef) (g : Strand → Strand) : (s.modStrand r g).powerLimit = s.powerLimit := rfl
@[simp] theorem State.modStrand_agedAt (s : State) (r : StrandRef) (g : Strand → Strand) : (s.modStrand r g).agedAt = s.agedAt := rfl
@[simp] theorem State.modStrand_grant (s : State) (r : StrandRef) (g : Strand → Strand) : (s.modStrand r g).grant = s.grant := rfl
@[simp] theorem State.modStrand_fatal (s : State) (r : StrandRef) (g : Strand → Strand) : (s.modStrand r g).fatal = s.fatal := rfl
@[simp] theorem State.modStrand_mgmt (s : State) (r : StrandRef) (g : Strand → Strand) : (s.modStrand r g).mgmt = s.mgmt := rfl
@[simp] theorem State.modStrand_hostRead (s : State) (r : StrandRef) (g : Strand → Strand) : (s.modStrand r g).hostRead = s.hostRead := rfl
@[simp] theorem State.modStrand_clusters (s : State) (r : StrandRef) (g : Strand → Strand) : (s.modStrand r g).clusters = s.clusters := rfl
@[simp] theorem State.modStrand_cores (s : State) (r : StrandRef) (g : Strand → Strand) : (s.modStrand r g).cores = s.cores := rfl
@[simp] theorem State.modStrand_fes (s : State) (r : StrandRef) (g : Strand → Strand) : (s.modStrand r g).fes = s.fes := rfl
@[simp] theorem State.modStrand_lanes (s : State) (r : StrandRef) (g : Strand → Strand) : (s.modStrand r g).lanes = s.lanes := rfl
@[simp] theorem State.modStrand_strands (s : State) (r : StrandRef) (g : Strand → Strand) : (s.modStrand r g).strands = s.strands.mod r g := rfl
@[simp] theorem State.modStrand_blocks (s : State) (r : StrandRef) (g : Strand → Strand) : (s.modStrand r g).blocks = s.blocks := rfl
@[simp] theorem State.modStrand_launches (s : State) (r : StrandRef) (g : Strand → Strand) : (s.modStrand r g).launches = s.launches := rfl
@[simp] theorem State.modStrand_accs (s : State) (r : StrandRef) (g : Strand → Strand) : (s.modStrand r g).accs = s.accs := rfl
@[simp] theorem State.modStrand_quorums (s : State) (r : StrandRef) (g : Strand → Strand) : (s.modStrand r g).quorums = s.quorums := rfl
@[simp] theorem State.modStrand_echoes (s : State) (r : StrandRef) (g : Strand → Strand) : (s.modStrand r g).echoes = s.echoes := rfl
@[simp] theorem State.modStrand_ops (s : State) (r : StrandRef) (g : Strand → Strand) : (s.modStrand r g).ops = s.ops := rfl
@[simp] theorem State.modStrand_samples (s : State) (r : StrandRef) (g : Strand → Strand) : (s.modStrand r g).samples = s.samples := rfl
@[simp] theorem State.modStrand_services (s : State) (r : StrandRef) (g : Strand → Strand) : (s.modStrand r g).services = s.services := rfl
@[simp] theorem State.modStrand_mem (s : State) (r : StrandRef) (g : Strand → Strand) : (s.modStrand r g).mem = s.mem := rfl
@[simp] theorem State.modStrand_host (s : State) (r : StrandRef) (g : Strand → Strand) : (s.modStrand r g).host = s.host := rfl
@[simp] theorem State.modStrand_remote (s : State) (r : StrandRef) (g : Strand → Strand) : (s.modStrand r g).remote = s.remote := rfl
@[simp] theorem State.modStrand_poison (s : State) (r : StrandRef) (g : Strand → Strand) : (s.modStrand r g).poison = s.poison := rfl
@[simp] theorem State.modStrand_padBad (s : State) (r : StrandRef) (g : Strand → Strand) : (s.modStrand r g).padBad = s.padBad := rfl
@[simp] theorem State.modStrand_past (s : State) (r : StrandRef) (g : Strand → Strand) : (s.modStrand r g).past = s.past := rfl
@[simp] theorem State.modStrand_seq (s : State) (r : StrandRef) (g : Strand → Strand) : (s.modStrand r g).seq = s.seq := rfl
@[simp] theorem State.modStrand_sc (s : State) (r : StrandRef) (g : Strand → Strand) : (s.modStrand r g).sc = s.sc := rfl
@[simp] theorem State.modStrand_tags (s : State) (r : StrandRef) (g : Strand → Strand) : (s.modStrand r g).tags = s.tags := rfl
@[simp] theorem State.modStrand_turns (s : State) (r : StrandRef) (g : Strand → Strand) : (s.modStrand r g).turns = s.turns := rfl
@[simp] theorem State.modStrand_focus (s : State) (r : StrandRef) (g : Strand → Strand) : (s.modStrand r g).focus = s.focus := rfl
@[simp] theorem State.modStrand_fresh (s : State) (r : StrandRef) (g : Strand → Strand) : (s.modStrand r g).fresh = s.fresh := rfl
@[simp] theorem State.modStrand_uid (s : State) (r : StrandRef) (g : Strand → Strand) : (s.modStrand r g).uid = s.uid := rfl

@[simp] theorem State.setFe_ns (s : State) (f : Nat) (x : FrontEnd) : (s.setFe f x).ns = s.ns := rfl
@[simp] theorem State.setFe_beatNs (s : State) (f : Nat) (x : FrontEnd) : (s.setFe f x).beatNs = s.beatNs := rfl
@[simp] theorem State.setFe_service (s : State) (f : Nat) (x : FrontEnd) : (s.setFe f x).service = s.service := rfl
@[simp] theorem State.setFe_ports (s : State) (f : Nat) (x : FrontEnd) : (s.setFe f x).ports = s.ports := rfl
@[simp] theorem State.setFe_dieLinks (s : State) (f : Nat) (x : FrontEnd) : (s.setFe f x).dieLinks = s.dieLinks := rfl
@[simp] theorem State.setFe_hbmStacks (s : State) (f : Nat) (x : FrontEnd) : (s.setFe f x).hbmStacks = s.hbmStacks := rfl
@[simp] theorem State.setFe_ethLinks (s : State) (f : Nat) (x : FrontEnd) : (s.setFe f x).ethLinks = s.ethLinks := rfl
@[simp] theorem State.setFe_udpPort (s : State) (f : Nat) (x : FrontEnd) : (s.setFe f x).udpPort = s.udpPort := rfl
@[simp] theorem State.setFe_flowControl (s : State) (f : Nat) (x : FrontEnd) : (s.setFe f x).flowControl = s.flowControl := rfl
@[simp] theorem State.setFe_ecnMarking (s : State) (f : Nat) (x : FrontEnd) : (s.setFe f x).ecnMarking = s.ecnMarking := rfl
@[simp] theorem State.setFe_retiredClusters (s : State) (f : Nat) (x : FrontEnd) : (s.setFe f x).retiredClusters = s.retiredClusters := rfl
@[simp] theorem State.setFe_retiredChannels (s : State) (f : Nat) (x : FrontEnd) : (s.setFe f x).retiredChannels = s.retiredChannels := rfl
@[simp] theorem State.setFe_powerLimit (s : State) (f : Nat) (x : FrontEnd) : (s.setFe f x).powerLimit = s.powerLimit := rfl
@[simp] theorem State.setFe_agedAt (s : State) (f : Nat) (x : FrontEnd) : (s.setFe f x).agedAt = s.agedAt := rfl
@[simp] theorem State.setFe_grant (s : State) (f : Nat) (x : FrontEnd) : (s.setFe f x).grant = s.grant := rfl
@[simp] theorem State.setFe_fatal (s : State) (f : Nat) (x : FrontEnd) : (s.setFe f x).fatal = s.fatal := rfl
@[simp] theorem State.setFe_mgmt (s : State) (f : Nat) (x : FrontEnd) : (s.setFe f x).mgmt = s.mgmt := rfl
@[simp] theorem State.setFe_hostRead (s : State) (f : Nat) (x : FrontEnd) : (s.setFe f x).hostRead = s.hostRead := rfl
@[simp] theorem State.setFe_clusters (s : State) (f : Nat) (x : FrontEnd) : (s.setFe f x).clusters = s.clusters := rfl
@[simp] theorem State.setFe_cores (s : State) (f : Nat) (x : FrontEnd) : (s.setFe f x).cores = s.cores := rfl
@[simp] theorem State.setFe_fes (s : State) (f : Nat) (x : FrontEnd) : (s.setFe f x).fes = s.fes.put f x := rfl
@[simp] theorem State.setFe_lanes (s : State) (f : Nat) (x : FrontEnd) : (s.setFe f x).lanes = s.lanes := rfl
@[simp] theorem State.setFe_strands (s : State) (f : Nat) (x : FrontEnd) : (s.setFe f x).strands = s.strands := rfl
@[simp] theorem State.setFe_blocks (s : State) (f : Nat) (x : FrontEnd) : (s.setFe f x).blocks = s.blocks := rfl
@[simp] theorem State.setFe_launches (s : State) (f : Nat) (x : FrontEnd) : (s.setFe f x).launches = s.launches := rfl
@[simp] theorem State.setFe_accs (s : State) (f : Nat) (x : FrontEnd) : (s.setFe f x).accs = s.accs := rfl
@[simp] theorem State.setFe_quorums (s : State) (f : Nat) (x : FrontEnd) : (s.setFe f x).quorums = s.quorums := rfl
@[simp] theorem State.setFe_echoes (s : State) (f : Nat) (x : FrontEnd) : (s.setFe f x).echoes = s.echoes := rfl
@[simp] theorem State.setFe_ops (s : State) (f : Nat) (x : FrontEnd) : (s.setFe f x).ops = s.ops := rfl
@[simp] theorem State.setFe_samples (s : State) (f : Nat) (x : FrontEnd) : (s.setFe f x).samples = s.samples := rfl
@[simp] theorem State.setFe_services (s : State) (f : Nat) (x : FrontEnd) : (s.setFe f x).services = s.services := rfl
@[simp] theorem State.setFe_mem (s : State) (f : Nat) (x : FrontEnd) : (s.setFe f x).mem = s.mem := rfl
@[simp] theorem State.setFe_host (s : State) (f : Nat) (x : FrontEnd) : (s.setFe f x).host = s.host := rfl
@[simp] theorem State.setFe_remote (s : State) (f : Nat) (x : FrontEnd) : (s.setFe f x).remote = s.remote := rfl
@[simp] theorem State.setFe_poison (s : State) (f : Nat) (x : FrontEnd) : (s.setFe f x).poison = s.poison := rfl
@[simp] theorem State.setFe_padBad (s : State) (f : Nat) (x : FrontEnd) : (s.setFe f x).padBad = s.padBad := rfl
@[simp] theorem State.setFe_past (s : State) (f : Nat) (x : FrontEnd) : (s.setFe f x).past = s.past := rfl
@[simp] theorem State.setFe_seq (s : State) (f : Nat) (x : FrontEnd) : (s.setFe f x).seq = s.seq := rfl
@[simp] theorem State.setFe_sc (s : State) (f : Nat) (x : FrontEnd) : (s.setFe f x).sc = s.sc := rfl
@[simp] theorem State.setFe_tags (s : State) (f : Nat) (x : FrontEnd) : (s.setFe f x).tags = s.tags := rfl
@[simp] theorem State.setFe_turns (s : State) (f : Nat) (x : FrontEnd) : (s.setFe f x).turns = s.turns := rfl
@[simp] theorem State.setFe_focus (s : State) (f : Nat) (x : FrontEnd) : (s.setFe f x).focus = s.focus := rfl
@[simp] theorem State.setFe_fresh (s : State) (f : Nat) (x : FrontEnd) : (s.setFe f x).fresh = s.fresh := rfl
@[simp] theorem State.setFe_uid (s : State) (f : Nat) (x : FrontEnd) : (s.setFe f x).uid = s.uid := rfl

@[simp] theorem State.modFe_ns (s : State) (f : Nat) (g : FrontEnd → FrontEnd) : (s.modFe f g).ns = s.ns := rfl
@[simp] theorem State.modFe_beatNs (s : State) (f : Nat) (g : FrontEnd → FrontEnd) : (s.modFe f g).beatNs = s.beatNs := rfl
@[simp] theorem State.modFe_service (s : State) (f : Nat) (g : FrontEnd → FrontEnd) : (s.modFe f g).service = s.service := rfl
@[simp] theorem State.modFe_ports (s : State) (f : Nat) (g : FrontEnd → FrontEnd) : (s.modFe f g).ports = s.ports := rfl
@[simp] theorem State.modFe_dieLinks (s : State) (f : Nat) (g : FrontEnd → FrontEnd) : (s.modFe f g).dieLinks = s.dieLinks := rfl
@[simp] theorem State.modFe_hbmStacks (s : State) (f : Nat) (g : FrontEnd → FrontEnd) : (s.modFe f g).hbmStacks = s.hbmStacks := rfl
@[simp] theorem State.modFe_ethLinks (s : State) (f : Nat) (g : FrontEnd → FrontEnd) : (s.modFe f g).ethLinks = s.ethLinks := rfl
@[simp] theorem State.modFe_udpPort (s : State) (f : Nat) (g : FrontEnd → FrontEnd) : (s.modFe f g).udpPort = s.udpPort := rfl
@[simp] theorem State.modFe_flowControl (s : State) (f : Nat) (g : FrontEnd → FrontEnd) : (s.modFe f g).flowControl = s.flowControl := rfl
@[simp] theorem State.modFe_ecnMarking (s : State) (f : Nat) (g : FrontEnd → FrontEnd) : (s.modFe f g).ecnMarking = s.ecnMarking := rfl
@[simp] theorem State.modFe_retiredClusters (s : State) (f : Nat) (g : FrontEnd → FrontEnd) : (s.modFe f g).retiredClusters = s.retiredClusters := rfl
@[simp] theorem State.modFe_retiredChannels (s : State) (f : Nat) (g : FrontEnd → FrontEnd) : (s.modFe f g).retiredChannels = s.retiredChannels := rfl
@[simp] theorem State.modFe_powerLimit (s : State) (f : Nat) (g : FrontEnd → FrontEnd) : (s.modFe f g).powerLimit = s.powerLimit := rfl
@[simp] theorem State.modFe_agedAt (s : State) (f : Nat) (g : FrontEnd → FrontEnd) : (s.modFe f g).agedAt = s.agedAt := rfl
@[simp] theorem State.modFe_grant (s : State) (f : Nat) (g : FrontEnd → FrontEnd) : (s.modFe f g).grant = s.grant := rfl
@[simp] theorem State.modFe_fatal (s : State) (f : Nat) (g : FrontEnd → FrontEnd) : (s.modFe f g).fatal = s.fatal := rfl
@[simp] theorem State.modFe_mgmt (s : State) (f : Nat) (g : FrontEnd → FrontEnd) : (s.modFe f g).mgmt = s.mgmt := rfl
@[simp] theorem State.modFe_hostRead (s : State) (f : Nat) (g : FrontEnd → FrontEnd) : (s.modFe f g).hostRead = s.hostRead := rfl
@[simp] theorem State.modFe_clusters (s : State) (f : Nat) (g : FrontEnd → FrontEnd) : (s.modFe f g).clusters = s.clusters := rfl
@[simp] theorem State.modFe_cores (s : State) (f : Nat) (g : FrontEnd → FrontEnd) : (s.modFe f g).cores = s.cores := rfl
@[simp] theorem State.modFe_fes (s : State) (f : Nat) (g : FrontEnd → FrontEnd) : (s.modFe f g).fes = s.fes.put f (g (s.fe f)) := rfl
@[simp] theorem State.modFe_lanes (s : State) (f : Nat) (g : FrontEnd → FrontEnd) : (s.modFe f g).lanes = s.lanes := rfl
@[simp] theorem State.modFe_strands (s : State) (f : Nat) (g : FrontEnd → FrontEnd) : (s.modFe f g).strands = s.strands := rfl
@[simp] theorem State.modFe_blocks (s : State) (f : Nat) (g : FrontEnd → FrontEnd) : (s.modFe f g).blocks = s.blocks := rfl
@[simp] theorem State.modFe_launches (s : State) (f : Nat) (g : FrontEnd → FrontEnd) : (s.modFe f g).launches = s.launches := rfl
@[simp] theorem State.modFe_accs (s : State) (f : Nat) (g : FrontEnd → FrontEnd) : (s.modFe f g).accs = s.accs := rfl
@[simp] theorem State.modFe_quorums (s : State) (f : Nat) (g : FrontEnd → FrontEnd) : (s.modFe f g).quorums = s.quorums := rfl
@[simp] theorem State.modFe_echoes (s : State) (f : Nat) (g : FrontEnd → FrontEnd) : (s.modFe f g).echoes = s.echoes := rfl
@[simp] theorem State.modFe_ops (s : State) (f : Nat) (g : FrontEnd → FrontEnd) : (s.modFe f g).ops = s.ops := rfl
@[simp] theorem State.modFe_samples (s : State) (f : Nat) (g : FrontEnd → FrontEnd) : (s.modFe f g).samples = s.samples := rfl
@[simp] theorem State.modFe_services (s : State) (f : Nat) (g : FrontEnd → FrontEnd) : (s.modFe f g).services = s.services := rfl
@[simp] theorem State.modFe_mem (s : State) (f : Nat) (g : FrontEnd → FrontEnd) : (s.modFe f g).mem = s.mem := rfl
@[simp] theorem State.modFe_host (s : State) (f : Nat) (g : FrontEnd → FrontEnd) : (s.modFe f g).host = s.host := rfl
@[simp] theorem State.modFe_remote (s : State) (f : Nat) (g : FrontEnd → FrontEnd) : (s.modFe f g).remote = s.remote := rfl
@[simp] theorem State.modFe_poison (s : State) (f : Nat) (g : FrontEnd → FrontEnd) : (s.modFe f g).poison = s.poison := rfl
@[simp] theorem State.modFe_padBad (s : State) (f : Nat) (g : FrontEnd → FrontEnd) : (s.modFe f g).padBad = s.padBad := rfl
@[simp] theorem State.modFe_past (s : State) (f : Nat) (g : FrontEnd → FrontEnd) : (s.modFe f g).past = s.past := rfl
@[simp] theorem State.modFe_seq (s : State) (f : Nat) (g : FrontEnd → FrontEnd) : (s.modFe f g).seq = s.seq := rfl
@[simp] theorem State.modFe_sc (s : State) (f : Nat) (g : FrontEnd → FrontEnd) : (s.modFe f g).sc = s.sc := rfl
@[simp] theorem State.modFe_tags (s : State) (f : Nat) (g : FrontEnd → FrontEnd) : (s.modFe f g).tags = s.tags := rfl
@[simp] theorem State.modFe_turns (s : State) (f : Nat) (g : FrontEnd → FrontEnd) : (s.modFe f g).turns = s.turns := rfl
@[simp] theorem State.modFe_focus (s : State) (f : Nat) (g : FrontEnd → FrontEnd) : (s.modFe f g).focus = s.focus := rfl
@[simp] theorem State.modFe_fresh (s : State) (f : Nat) (g : FrontEnd → FrontEnd) : (s.modFe f g).fresh = s.fresh := rfl
@[simp] theorem State.modFe_uid (s : State) (f : Nat) (g : FrontEnd → FrontEnd) : (s.modFe f g).uid = s.uid := rfl

@[simp] theorem State.setCore_ns (s : State) (n : Nat) (x : Core) : (s.setCore n x).ns = s.ns := rfl
@[simp] theorem State.setCore_beatNs (s : State) (n : Nat) (x : Core) : (s.setCore n x).beatNs = s.beatNs := rfl
@[simp] theorem State.setCore_service (s : State) (n : Nat) (x : Core) : (s.setCore n x).service = s.service := rfl
@[simp] theorem State.setCore_ports (s : State) (n : Nat) (x : Core) : (s.setCore n x).ports = s.ports := rfl
@[simp] theorem State.setCore_dieLinks (s : State) (n : Nat) (x : Core) : (s.setCore n x).dieLinks = s.dieLinks := rfl
@[simp] theorem State.setCore_hbmStacks (s : State) (n : Nat) (x : Core) : (s.setCore n x).hbmStacks = s.hbmStacks := rfl
@[simp] theorem State.setCore_ethLinks (s : State) (n : Nat) (x : Core) : (s.setCore n x).ethLinks = s.ethLinks := rfl
@[simp] theorem State.setCore_udpPort (s : State) (n : Nat) (x : Core) : (s.setCore n x).udpPort = s.udpPort := rfl
@[simp] theorem State.setCore_flowControl (s : State) (n : Nat) (x : Core) : (s.setCore n x).flowControl = s.flowControl := rfl
@[simp] theorem State.setCore_ecnMarking (s : State) (n : Nat) (x : Core) : (s.setCore n x).ecnMarking = s.ecnMarking := rfl
@[simp] theorem State.setCore_retiredClusters (s : State) (n : Nat) (x : Core) : (s.setCore n x).retiredClusters = s.retiredClusters := rfl
@[simp] theorem State.setCore_retiredChannels (s : State) (n : Nat) (x : Core) : (s.setCore n x).retiredChannels = s.retiredChannels := rfl
@[simp] theorem State.setCore_powerLimit (s : State) (n : Nat) (x : Core) : (s.setCore n x).powerLimit = s.powerLimit := rfl
@[simp] theorem State.setCore_agedAt (s : State) (n : Nat) (x : Core) : (s.setCore n x).agedAt = s.agedAt := rfl
@[simp] theorem State.setCore_grant (s : State) (n : Nat) (x : Core) : (s.setCore n x).grant = s.grant := rfl
@[simp] theorem State.setCore_fatal (s : State) (n : Nat) (x : Core) : (s.setCore n x).fatal = s.fatal := rfl
@[simp] theorem State.setCore_mgmt (s : State) (n : Nat) (x : Core) : (s.setCore n x).mgmt = s.mgmt := rfl
@[simp] theorem State.setCore_hostRead (s : State) (n : Nat) (x : Core) : (s.setCore n x).hostRead = s.hostRead := rfl
@[simp] theorem State.setCore_clusters (s : State) (n : Nat) (x : Core) : (s.setCore n x).clusters = s.clusters := rfl
@[simp] theorem State.setCore_cores (s : State) (n : Nat) (x : Core) : (s.setCore n x).cores = s.cores.put n x := rfl
@[simp] theorem State.setCore_fes (s : State) (n : Nat) (x : Core) : (s.setCore n x).fes = s.fes := rfl
@[simp] theorem State.setCore_lanes (s : State) (n : Nat) (x : Core) : (s.setCore n x).lanes = s.lanes := rfl
@[simp] theorem State.setCore_strands (s : State) (n : Nat) (x : Core) : (s.setCore n x).strands = s.strands := rfl
@[simp] theorem State.setCore_blocks (s : State) (n : Nat) (x : Core) : (s.setCore n x).blocks = s.blocks := rfl
@[simp] theorem State.setCore_launches (s : State) (n : Nat) (x : Core) : (s.setCore n x).launches = s.launches := rfl
@[simp] theorem State.setCore_accs (s : State) (n : Nat) (x : Core) : (s.setCore n x).accs = s.accs := rfl
@[simp] theorem State.setCore_quorums (s : State) (n : Nat) (x : Core) : (s.setCore n x).quorums = s.quorums := rfl
@[simp] theorem State.setCore_echoes (s : State) (n : Nat) (x : Core) : (s.setCore n x).echoes = s.echoes := rfl
@[simp] theorem State.setCore_ops (s : State) (n : Nat) (x : Core) : (s.setCore n x).ops = s.ops := rfl
@[simp] theorem State.setCore_samples (s : State) (n : Nat) (x : Core) : (s.setCore n x).samples = s.samples := rfl
@[simp] theorem State.setCore_services (s : State) (n : Nat) (x : Core) : (s.setCore n x).services = s.services := rfl
@[simp] theorem State.setCore_mem (s : State) (n : Nat) (x : Core) : (s.setCore n x).mem = s.mem := rfl
@[simp] theorem State.setCore_host (s : State) (n : Nat) (x : Core) : (s.setCore n x).host = s.host := rfl
@[simp] theorem State.setCore_remote (s : State) (n : Nat) (x : Core) : (s.setCore n x).remote = s.remote := rfl
@[simp] theorem State.setCore_poison (s : State) (n : Nat) (x : Core) : (s.setCore n x).poison = s.poison := rfl
@[simp] theorem State.setCore_padBad (s : State) (n : Nat) (x : Core) : (s.setCore n x).padBad = s.padBad := rfl
@[simp] theorem State.setCore_past (s : State) (n : Nat) (x : Core) : (s.setCore n x).past = s.past := rfl
@[simp] theorem State.setCore_seq (s : State) (n : Nat) (x : Core) : (s.setCore n x).seq = s.seq := rfl
@[simp] theorem State.setCore_sc (s : State) (n : Nat) (x : Core) : (s.setCore n x).sc = s.sc := rfl
@[simp] theorem State.setCore_tags (s : State) (n : Nat) (x : Core) : (s.setCore n x).tags = s.tags := rfl
@[simp] theorem State.setCore_turns (s : State) (n : Nat) (x : Core) : (s.setCore n x).turns = s.turns := rfl
@[simp] theorem State.setCore_focus (s : State) (n : Nat) (x : Core) : (s.setCore n x).focus = s.focus := rfl
@[simp] theorem State.setCore_fresh (s : State) (n : Nat) (x : Core) : (s.setCore n x).fresh = s.fresh := rfl
@[simp] theorem State.setCore_uid (s : State) (n : Nat) (x : Core) : (s.setCore n x).uid = s.uid := rfl

@[simp] theorem State.setBlock_ns (s : State) (b : Nat) (x : Block) : (s.setBlock b x).ns = s.ns := rfl
@[simp] theorem State.setBlock_beatNs (s : State) (b : Nat) (x : Block) : (s.setBlock b x).beatNs = s.beatNs := rfl
@[simp] theorem State.setBlock_service (s : State) (b : Nat) (x : Block) : (s.setBlock b x).service = s.service := rfl
@[simp] theorem State.setBlock_ports (s : State) (b : Nat) (x : Block) : (s.setBlock b x).ports = s.ports := rfl
@[simp] theorem State.setBlock_dieLinks (s : State) (b : Nat) (x : Block) : (s.setBlock b x).dieLinks = s.dieLinks := rfl
@[simp] theorem State.setBlock_hbmStacks (s : State) (b : Nat) (x : Block) : (s.setBlock b x).hbmStacks = s.hbmStacks := rfl
@[simp] theorem State.setBlock_ethLinks (s : State) (b : Nat) (x : Block) : (s.setBlock b x).ethLinks = s.ethLinks := rfl
@[simp] theorem State.setBlock_udpPort (s : State) (b : Nat) (x : Block) : (s.setBlock b x).udpPort = s.udpPort := rfl
@[simp] theorem State.setBlock_flowControl (s : State) (b : Nat) (x : Block) : (s.setBlock b x).flowControl = s.flowControl := rfl
@[simp] theorem State.setBlock_ecnMarking (s : State) (b : Nat) (x : Block) : (s.setBlock b x).ecnMarking = s.ecnMarking := rfl
@[simp] theorem State.setBlock_retiredClusters (s : State) (b : Nat) (x : Block) : (s.setBlock b x).retiredClusters = s.retiredClusters := rfl
@[simp] theorem State.setBlock_retiredChannels (s : State) (b : Nat) (x : Block) : (s.setBlock b x).retiredChannels = s.retiredChannels := rfl
@[simp] theorem State.setBlock_powerLimit (s : State) (b : Nat) (x : Block) : (s.setBlock b x).powerLimit = s.powerLimit := rfl
@[simp] theorem State.setBlock_agedAt (s : State) (b : Nat) (x : Block) : (s.setBlock b x).agedAt = s.agedAt := rfl
@[simp] theorem State.setBlock_grant (s : State) (b : Nat) (x : Block) : (s.setBlock b x).grant = s.grant := rfl
@[simp] theorem State.setBlock_fatal (s : State) (b : Nat) (x : Block) : (s.setBlock b x).fatal = s.fatal := rfl
@[simp] theorem State.setBlock_mgmt (s : State) (b : Nat) (x : Block) : (s.setBlock b x).mgmt = s.mgmt := rfl
@[simp] theorem State.setBlock_hostRead (s : State) (b : Nat) (x : Block) : (s.setBlock b x).hostRead = s.hostRead := rfl
@[simp] theorem State.setBlock_clusters (s : State) (b : Nat) (x : Block) : (s.setBlock b x).clusters = s.clusters := rfl
@[simp] theorem State.setBlock_cores (s : State) (b : Nat) (x : Block) : (s.setBlock b x).cores = s.cores := rfl
@[simp] theorem State.setBlock_fes (s : State) (b : Nat) (x : Block) : (s.setBlock b x).fes = s.fes := rfl
@[simp] theorem State.setBlock_lanes (s : State) (b : Nat) (x : Block) : (s.setBlock b x).lanes = s.lanes := rfl
@[simp] theorem State.setBlock_strands (s : State) (b : Nat) (x : Block) : (s.setBlock b x).strands = s.strands := rfl
@[simp] theorem State.setBlock_blocks (s : State) (b : Nat) (x : Block) : (s.setBlock b x).blocks = s.blocks.put b x := rfl
@[simp] theorem State.setBlock_launches (s : State) (b : Nat) (x : Block) : (s.setBlock b x).launches = s.launches := rfl
@[simp] theorem State.setBlock_accs (s : State) (b : Nat) (x : Block) : (s.setBlock b x).accs = s.accs := rfl
@[simp] theorem State.setBlock_quorums (s : State) (b : Nat) (x : Block) : (s.setBlock b x).quorums = s.quorums := rfl
@[simp] theorem State.setBlock_echoes (s : State) (b : Nat) (x : Block) : (s.setBlock b x).echoes = s.echoes := rfl
@[simp] theorem State.setBlock_ops (s : State) (b : Nat) (x : Block) : (s.setBlock b x).ops = s.ops := rfl
@[simp] theorem State.setBlock_samples (s : State) (b : Nat) (x : Block) : (s.setBlock b x).samples = s.samples := rfl
@[simp] theorem State.setBlock_services (s : State) (b : Nat) (x : Block) : (s.setBlock b x).services = s.services := rfl
@[simp] theorem State.setBlock_mem (s : State) (b : Nat) (x : Block) : (s.setBlock b x).mem = s.mem := rfl
@[simp] theorem State.setBlock_host (s : State) (b : Nat) (x : Block) : (s.setBlock b x).host = s.host := rfl
@[simp] theorem State.setBlock_remote (s : State) (b : Nat) (x : Block) : (s.setBlock b x).remote = s.remote := rfl
@[simp] theorem State.setBlock_poison (s : State) (b : Nat) (x : Block) : (s.setBlock b x).poison = s.poison := rfl
@[simp] theorem State.setBlock_padBad (s : State) (b : Nat) (x : Block) : (s.setBlock b x).padBad = s.padBad := rfl
@[simp] theorem State.setBlock_past (s : State) (b : Nat) (x : Block) : (s.setBlock b x).past = s.past := rfl
@[simp] theorem State.setBlock_seq (s : State) (b : Nat) (x : Block) : (s.setBlock b x).seq = s.seq := rfl
@[simp] theorem State.setBlock_sc (s : State) (b : Nat) (x : Block) : (s.setBlock b x).sc = s.sc := rfl
@[simp] theorem State.setBlock_tags (s : State) (b : Nat) (x : Block) : (s.setBlock b x).tags = s.tags := rfl
@[simp] theorem State.setBlock_turns (s : State) (b : Nat) (x : Block) : (s.setBlock b x).turns = s.turns := rfl
@[simp] theorem State.setBlock_focus (s : State) (b : Nat) (x : Block) : (s.setBlock b x).focus = s.focus := rfl
@[simp] theorem State.setBlock_fresh (s : State) (b : Nat) (x : Block) : (s.setBlock b x).fresh = s.fresh := rfl
@[simp] theorem State.setBlock_uid (s : State) (b : Nat) (x : Block) : (s.setBlock b x).uid = s.uid := rfl

@[simp] theorem State.modBlock_ns (s : State) (b : Nat) (g : Block → Block) : (s.modBlock b g).ns = s.ns := rfl
@[simp] theorem State.modBlock_beatNs (s : State) (b : Nat) (g : Block → Block) : (s.modBlock b g).beatNs = s.beatNs := rfl
@[simp] theorem State.modBlock_service (s : State) (b : Nat) (g : Block → Block) : (s.modBlock b g).service = s.service := rfl
@[simp] theorem State.modBlock_ports (s : State) (b : Nat) (g : Block → Block) : (s.modBlock b g).ports = s.ports := rfl
@[simp] theorem State.modBlock_dieLinks (s : State) (b : Nat) (g : Block → Block) : (s.modBlock b g).dieLinks = s.dieLinks := rfl
@[simp] theorem State.modBlock_hbmStacks (s : State) (b : Nat) (g : Block → Block) : (s.modBlock b g).hbmStacks = s.hbmStacks := rfl
@[simp] theorem State.modBlock_ethLinks (s : State) (b : Nat) (g : Block → Block) : (s.modBlock b g).ethLinks = s.ethLinks := rfl
@[simp] theorem State.modBlock_udpPort (s : State) (b : Nat) (g : Block → Block) : (s.modBlock b g).udpPort = s.udpPort := rfl
@[simp] theorem State.modBlock_flowControl (s : State) (b : Nat) (g : Block → Block) : (s.modBlock b g).flowControl = s.flowControl := rfl
@[simp] theorem State.modBlock_ecnMarking (s : State) (b : Nat) (g : Block → Block) : (s.modBlock b g).ecnMarking = s.ecnMarking := rfl
@[simp] theorem State.modBlock_retiredClusters (s : State) (b : Nat) (g : Block → Block) : (s.modBlock b g).retiredClusters = s.retiredClusters := rfl
@[simp] theorem State.modBlock_retiredChannels (s : State) (b : Nat) (g : Block → Block) : (s.modBlock b g).retiredChannels = s.retiredChannels := rfl
@[simp] theorem State.modBlock_powerLimit (s : State) (b : Nat) (g : Block → Block) : (s.modBlock b g).powerLimit = s.powerLimit := rfl
@[simp] theorem State.modBlock_agedAt (s : State) (b : Nat) (g : Block → Block) : (s.modBlock b g).agedAt = s.agedAt := rfl
@[simp] theorem State.modBlock_grant (s : State) (b : Nat) (g : Block → Block) : (s.modBlock b g).grant = s.grant := rfl
@[simp] theorem State.modBlock_fatal (s : State) (b : Nat) (g : Block → Block) : (s.modBlock b g).fatal = s.fatal := rfl
@[simp] theorem State.modBlock_mgmt (s : State) (b : Nat) (g : Block → Block) : (s.modBlock b g).mgmt = s.mgmt := rfl
@[simp] theorem State.modBlock_hostRead (s : State) (b : Nat) (g : Block → Block) : (s.modBlock b g).hostRead = s.hostRead := rfl
@[simp] theorem State.modBlock_clusters (s : State) (b : Nat) (g : Block → Block) : (s.modBlock b g).clusters = s.clusters := rfl
@[simp] theorem State.modBlock_cores (s : State) (b : Nat) (g : Block → Block) : (s.modBlock b g).cores = s.cores := rfl
@[simp] theorem State.modBlock_fes (s : State) (b : Nat) (g : Block → Block) : (s.modBlock b g).fes = s.fes := rfl
@[simp] theorem State.modBlock_lanes (s : State) (b : Nat) (g : Block → Block) : (s.modBlock b g).lanes = s.lanes := rfl
@[simp] theorem State.modBlock_strands (s : State) (b : Nat) (g : Block → Block) : (s.modBlock b g).strands = s.strands := rfl
@[simp] theorem State.modBlock_blocks (s : State) (b : Nat) (g : Block → Block) : (s.modBlock b g).blocks = s.blocks.mod b g := rfl
@[simp] theorem State.modBlock_launches (s : State) (b : Nat) (g : Block → Block) : (s.modBlock b g).launches = s.launches := rfl
@[simp] theorem State.modBlock_accs (s : State) (b : Nat) (g : Block → Block) : (s.modBlock b g).accs = s.accs := rfl
@[simp] theorem State.modBlock_quorums (s : State) (b : Nat) (g : Block → Block) : (s.modBlock b g).quorums = s.quorums := rfl
@[simp] theorem State.modBlock_echoes (s : State) (b : Nat) (g : Block → Block) : (s.modBlock b g).echoes = s.echoes := rfl
@[simp] theorem State.modBlock_ops (s : State) (b : Nat) (g : Block → Block) : (s.modBlock b g).ops = s.ops := rfl
@[simp] theorem State.modBlock_samples (s : State) (b : Nat) (g : Block → Block) : (s.modBlock b g).samples = s.samples := rfl
@[simp] theorem State.modBlock_services (s : State) (b : Nat) (g : Block → Block) : (s.modBlock b g).services = s.services := rfl
@[simp] theorem State.modBlock_mem (s : State) (b : Nat) (g : Block → Block) : (s.modBlock b g).mem = s.mem := rfl
@[simp] theorem State.modBlock_host (s : State) (b : Nat) (g : Block → Block) : (s.modBlock b g).host = s.host := rfl
@[simp] theorem State.modBlock_remote (s : State) (b : Nat) (g : Block → Block) : (s.modBlock b g).remote = s.remote := rfl
@[simp] theorem State.modBlock_poison (s : State) (b : Nat) (g : Block → Block) : (s.modBlock b g).poison = s.poison := rfl
@[simp] theorem State.modBlock_padBad (s : State) (b : Nat) (g : Block → Block) : (s.modBlock b g).padBad = s.padBad := rfl
@[simp] theorem State.modBlock_past (s : State) (b : Nat) (g : Block → Block) : (s.modBlock b g).past = s.past := rfl
@[simp] theorem State.modBlock_seq (s : State) (b : Nat) (g : Block → Block) : (s.modBlock b g).seq = s.seq := rfl
@[simp] theorem State.modBlock_sc (s : State) (b : Nat) (g : Block → Block) : (s.modBlock b g).sc = s.sc := rfl
@[simp] theorem State.modBlock_tags (s : State) (b : Nat) (g : Block → Block) : (s.modBlock b g).tags = s.tags := rfl
@[simp] theorem State.modBlock_turns (s : State) (b : Nat) (g : Block → Block) : (s.modBlock b g).turns = s.turns := rfl
@[simp] theorem State.modBlock_focus (s : State) (b : Nat) (g : Block → Block) : (s.modBlock b g).focus = s.focus := rfl
@[simp] theorem State.modBlock_fresh (s : State) (b : Nat) (g : Block → Block) : (s.modBlock b g).fresh = s.fresh := rfl
@[simp] theorem State.modBlock_uid (s : State) (b : Nat) (g : Block → Block) : (s.modBlock b g).uid = s.uid := rfl

@[simp] theorem State.setLaunch_ns (s : State) (l : Nat) (x : Launch) : (s.setLaunch l x).ns = s.ns := rfl
@[simp] theorem State.setLaunch_beatNs (s : State) (l : Nat) (x : Launch) : (s.setLaunch l x).beatNs = s.beatNs := rfl
@[simp] theorem State.setLaunch_service (s : State) (l : Nat) (x : Launch) : (s.setLaunch l x).service = s.service := rfl
@[simp] theorem State.setLaunch_ports (s : State) (l : Nat) (x : Launch) : (s.setLaunch l x).ports = s.ports := rfl
@[simp] theorem State.setLaunch_dieLinks (s : State) (l : Nat) (x : Launch) : (s.setLaunch l x).dieLinks = s.dieLinks := rfl
@[simp] theorem State.setLaunch_hbmStacks (s : State) (l : Nat) (x : Launch) : (s.setLaunch l x).hbmStacks = s.hbmStacks := rfl
@[simp] theorem State.setLaunch_ethLinks (s : State) (l : Nat) (x : Launch) : (s.setLaunch l x).ethLinks = s.ethLinks := rfl
@[simp] theorem State.setLaunch_udpPort (s : State) (l : Nat) (x : Launch) : (s.setLaunch l x).udpPort = s.udpPort := rfl
@[simp] theorem State.setLaunch_flowControl (s : State) (l : Nat) (x : Launch) : (s.setLaunch l x).flowControl = s.flowControl := rfl
@[simp] theorem State.setLaunch_ecnMarking (s : State) (l : Nat) (x : Launch) : (s.setLaunch l x).ecnMarking = s.ecnMarking := rfl
@[simp] theorem State.setLaunch_retiredClusters (s : State) (l : Nat) (x : Launch) : (s.setLaunch l x).retiredClusters = s.retiredClusters := rfl
@[simp] theorem State.setLaunch_retiredChannels (s : State) (l : Nat) (x : Launch) : (s.setLaunch l x).retiredChannels = s.retiredChannels := rfl
@[simp] theorem State.setLaunch_powerLimit (s : State) (l : Nat) (x : Launch) : (s.setLaunch l x).powerLimit = s.powerLimit := rfl
@[simp] theorem State.setLaunch_agedAt (s : State) (l : Nat) (x : Launch) : (s.setLaunch l x).agedAt = s.agedAt := rfl
@[simp] theorem State.setLaunch_grant (s : State) (l : Nat) (x : Launch) : (s.setLaunch l x).grant = s.grant := rfl
@[simp] theorem State.setLaunch_fatal (s : State) (l : Nat) (x : Launch) : (s.setLaunch l x).fatal = s.fatal := rfl
@[simp] theorem State.setLaunch_mgmt (s : State) (l : Nat) (x : Launch) : (s.setLaunch l x).mgmt = s.mgmt := rfl
@[simp] theorem State.setLaunch_hostRead (s : State) (l : Nat) (x : Launch) : (s.setLaunch l x).hostRead = s.hostRead := rfl
@[simp] theorem State.setLaunch_clusters (s : State) (l : Nat) (x : Launch) : (s.setLaunch l x).clusters = s.clusters := rfl
@[simp] theorem State.setLaunch_cores (s : State) (l : Nat) (x : Launch) : (s.setLaunch l x).cores = s.cores := rfl
@[simp] theorem State.setLaunch_fes (s : State) (l : Nat) (x : Launch) : (s.setLaunch l x).fes = s.fes := rfl
@[simp] theorem State.setLaunch_lanes (s : State) (l : Nat) (x : Launch) : (s.setLaunch l x).lanes = s.lanes := rfl
@[simp] theorem State.setLaunch_strands (s : State) (l : Nat) (x : Launch) : (s.setLaunch l x).strands = s.strands := rfl
@[simp] theorem State.setLaunch_blocks (s : State) (l : Nat) (x : Launch) : (s.setLaunch l x).blocks = s.blocks := rfl
@[simp] theorem State.setLaunch_launches (s : State) (l : Nat) (x : Launch) : (s.setLaunch l x).launches = s.launches.put l x := rfl
@[simp] theorem State.setLaunch_accs (s : State) (l : Nat) (x : Launch) : (s.setLaunch l x).accs = s.accs := rfl
@[simp] theorem State.setLaunch_quorums (s : State) (l : Nat) (x : Launch) : (s.setLaunch l x).quorums = s.quorums := rfl
@[simp] theorem State.setLaunch_echoes (s : State) (l : Nat) (x : Launch) : (s.setLaunch l x).echoes = s.echoes := rfl
@[simp] theorem State.setLaunch_ops (s : State) (l : Nat) (x : Launch) : (s.setLaunch l x).ops = s.ops := rfl
@[simp] theorem State.setLaunch_samples (s : State) (l : Nat) (x : Launch) : (s.setLaunch l x).samples = s.samples := rfl
@[simp] theorem State.setLaunch_services (s : State) (l : Nat) (x : Launch) : (s.setLaunch l x).services = s.services := rfl
@[simp] theorem State.setLaunch_mem (s : State) (l : Nat) (x : Launch) : (s.setLaunch l x).mem = s.mem := rfl
@[simp] theorem State.setLaunch_host (s : State) (l : Nat) (x : Launch) : (s.setLaunch l x).host = s.host := rfl
@[simp] theorem State.setLaunch_remote (s : State) (l : Nat) (x : Launch) : (s.setLaunch l x).remote = s.remote := rfl
@[simp] theorem State.setLaunch_poison (s : State) (l : Nat) (x : Launch) : (s.setLaunch l x).poison = s.poison := rfl
@[simp] theorem State.setLaunch_padBad (s : State) (l : Nat) (x : Launch) : (s.setLaunch l x).padBad = s.padBad := rfl
@[simp] theorem State.setLaunch_past (s : State) (l : Nat) (x : Launch) : (s.setLaunch l x).past = s.past := rfl
@[simp] theorem State.setLaunch_seq (s : State) (l : Nat) (x : Launch) : (s.setLaunch l x).seq = s.seq := rfl
@[simp] theorem State.setLaunch_sc (s : State) (l : Nat) (x : Launch) : (s.setLaunch l x).sc = s.sc := rfl
@[simp] theorem State.setLaunch_tags (s : State) (l : Nat) (x : Launch) : (s.setLaunch l x).tags = s.tags := rfl
@[simp] theorem State.setLaunch_turns (s : State) (l : Nat) (x : Launch) : (s.setLaunch l x).turns = s.turns := rfl
@[simp] theorem State.setLaunch_focus (s : State) (l : Nat) (x : Launch) : (s.setLaunch l x).focus = s.focus := rfl
@[simp] theorem State.setLaunch_fresh (s : State) (l : Nat) (x : Launch) : (s.setLaunch l x).fresh = s.fresh := rfl
@[simp] theorem State.setLaunch_uid (s : State) (l : Nat) (x : Launch) : (s.setLaunch l x).uid = s.uid := rfl

@[simp] theorem State.modLaunch_ns (s : State) (l : Nat) (g : Launch → Launch) : (s.modLaunch l g).ns = s.ns := rfl
@[simp] theorem State.modLaunch_beatNs (s : State) (l : Nat) (g : Launch → Launch) : (s.modLaunch l g).beatNs = s.beatNs := rfl
@[simp] theorem State.modLaunch_service (s : State) (l : Nat) (g : Launch → Launch) : (s.modLaunch l g).service = s.service := rfl
@[simp] theorem State.modLaunch_ports (s : State) (l : Nat) (g : Launch → Launch) : (s.modLaunch l g).ports = s.ports := rfl
@[simp] theorem State.modLaunch_dieLinks (s : State) (l : Nat) (g : Launch → Launch) : (s.modLaunch l g).dieLinks = s.dieLinks := rfl
@[simp] theorem State.modLaunch_hbmStacks (s : State) (l : Nat) (g : Launch → Launch) : (s.modLaunch l g).hbmStacks = s.hbmStacks := rfl
@[simp] theorem State.modLaunch_ethLinks (s : State) (l : Nat) (g : Launch → Launch) : (s.modLaunch l g).ethLinks = s.ethLinks := rfl
@[simp] theorem State.modLaunch_udpPort (s : State) (l : Nat) (g : Launch → Launch) : (s.modLaunch l g).udpPort = s.udpPort := rfl
@[simp] theorem State.modLaunch_flowControl (s : State) (l : Nat) (g : Launch → Launch) : (s.modLaunch l g).flowControl = s.flowControl := rfl
@[simp] theorem State.modLaunch_ecnMarking (s : State) (l : Nat) (g : Launch → Launch) : (s.modLaunch l g).ecnMarking = s.ecnMarking := rfl
@[simp] theorem State.modLaunch_retiredClusters (s : State) (l : Nat) (g : Launch → Launch) : (s.modLaunch l g).retiredClusters = s.retiredClusters := rfl
@[simp] theorem State.modLaunch_retiredChannels (s : State) (l : Nat) (g : Launch → Launch) : (s.modLaunch l g).retiredChannels = s.retiredChannels := rfl
@[simp] theorem State.modLaunch_powerLimit (s : State) (l : Nat) (g : Launch → Launch) : (s.modLaunch l g).powerLimit = s.powerLimit := rfl
@[simp] theorem State.modLaunch_agedAt (s : State) (l : Nat) (g : Launch → Launch) : (s.modLaunch l g).agedAt = s.agedAt := rfl
@[simp] theorem State.modLaunch_grant (s : State) (l : Nat) (g : Launch → Launch) : (s.modLaunch l g).grant = s.grant := rfl
@[simp] theorem State.modLaunch_fatal (s : State) (l : Nat) (g : Launch → Launch) : (s.modLaunch l g).fatal = s.fatal := rfl
@[simp] theorem State.modLaunch_mgmt (s : State) (l : Nat) (g : Launch → Launch) : (s.modLaunch l g).mgmt = s.mgmt := rfl
@[simp] theorem State.modLaunch_hostRead (s : State) (l : Nat) (g : Launch → Launch) : (s.modLaunch l g).hostRead = s.hostRead := rfl
@[simp] theorem State.modLaunch_clusters (s : State) (l : Nat) (g : Launch → Launch) : (s.modLaunch l g).clusters = s.clusters := rfl
@[simp] theorem State.modLaunch_cores (s : State) (l : Nat) (g : Launch → Launch) : (s.modLaunch l g).cores = s.cores := rfl
@[simp] theorem State.modLaunch_fes (s : State) (l : Nat) (g : Launch → Launch) : (s.modLaunch l g).fes = s.fes := rfl
@[simp] theorem State.modLaunch_lanes (s : State) (l : Nat) (g : Launch → Launch) : (s.modLaunch l g).lanes = s.lanes := rfl
@[simp] theorem State.modLaunch_strands (s : State) (l : Nat) (g : Launch → Launch) : (s.modLaunch l g).strands = s.strands := rfl
@[simp] theorem State.modLaunch_blocks (s : State) (l : Nat) (g : Launch → Launch) : (s.modLaunch l g).blocks = s.blocks := rfl
@[simp] theorem State.modLaunch_launches (s : State) (l : Nat) (g : Launch → Launch) : (s.modLaunch l g).launches = s.launches.mod l g := rfl
@[simp] theorem State.modLaunch_accs (s : State) (l : Nat) (g : Launch → Launch) : (s.modLaunch l g).accs = s.accs := rfl
@[simp] theorem State.modLaunch_quorums (s : State) (l : Nat) (g : Launch → Launch) : (s.modLaunch l g).quorums = s.quorums := rfl
@[simp] theorem State.modLaunch_echoes (s : State) (l : Nat) (g : Launch → Launch) : (s.modLaunch l g).echoes = s.echoes := rfl
@[simp] theorem State.modLaunch_ops (s : State) (l : Nat) (g : Launch → Launch) : (s.modLaunch l g).ops = s.ops := rfl
@[simp] theorem State.modLaunch_samples (s : State) (l : Nat) (g : Launch → Launch) : (s.modLaunch l g).samples = s.samples := rfl
@[simp] theorem State.modLaunch_services (s : State) (l : Nat) (g : Launch → Launch) : (s.modLaunch l g).services = s.services := rfl
@[simp] theorem State.modLaunch_mem (s : State) (l : Nat) (g : Launch → Launch) : (s.modLaunch l g).mem = s.mem := rfl
@[simp] theorem State.modLaunch_host (s : State) (l : Nat) (g : Launch → Launch) : (s.modLaunch l g).host = s.host := rfl
@[simp] theorem State.modLaunch_remote (s : State) (l : Nat) (g : Launch → Launch) : (s.modLaunch l g).remote = s.remote := rfl
@[simp] theorem State.modLaunch_poison (s : State) (l : Nat) (g : Launch → Launch) : (s.modLaunch l g).poison = s.poison := rfl
@[simp] theorem State.modLaunch_padBad (s : State) (l : Nat) (g : Launch → Launch) : (s.modLaunch l g).padBad = s.padBad := rfl
@[simp] theorem State.modLaunch_past (s : State) (l : Nat) (g : Launch → Launch) : (s.modLaunch l g).past = s.past := rfl
@[simp] theorem State.modLaunch_seq (s : State) (l : Nat) (g : Launch → Launch) : (s.modLaunch l g).seq = s.seq := rfl
@[simp] theorem State.modLaunch_sc (s : State) (l : Nat) (g : Launch → Launch) : (s.modLaunch l g).sc = s.sc := rfl
@[simp] theorem State.modLaunch_tags (s : State) (l : Nat) (g : Launch → Launch) : (s.modLaunch l g).tags = s.tags := rfl
@[simp] theorem State.modLaunch_turns (s : State) (l : Nat) (g : Launch → Launch) : (s.modLaunch l g).turns = s.turns := rfl
@[simp] theorem State.modLaunch_focus (s : State) (l : Nat) (g : Launch → Launch) : (s.modLaunch l g).focus = s.focus := rfl
@[simp] theorem State.modLaunch_fresh (s : State) (l : Nat) (g : Launch → Launch) : (s.modLaunch l g).fresh = s.fresh := rfl
@[simp] theorem State.modLaunch_uid (s : State) (l : Nat) (g : Launch → Launch) : (s.modLaunch l g).uid = s.uid := rfl

@[simp] theorem State.reachCycle_ns (s : State) (c n : Nat) : (s.reachCycle c n).ns = max s.ns ((s.cluster c).nsAt n) := rfl
@[simp] theorem State.reachCycle_beatNs (s : State) (c n : Nat) : (s.reachCycle c n).beatNs = s.beatNs := rfl
@[simp] theorem State.reachCycle_service (s : State) (c n : Nat) : (s.reachCycle c n).service = s.service := rfl
@[simp] theorem State.reachCycle_ports (s : State) (c n : Nat) : (s.reachCycle c n).ports = s.ports := rfl
@[simp] theorem State.reachCycle_dieLinks (s : State) (c n : Nat) : (s.reachCycle c n).dieLinks = s.dieLinks := rfl
@[simp] theorem State.reachCycle_hbmStacks (s : State) (c n : Nat) : (s.reachCycle c n).hbmStacks = s.hbmStacks := rfl
@[simp] theorem State.reachCycle_ethLinks (s : State) (c n : Nat) : (s.reachCycle c n).ethLinks = s.ethLinks := rfl
@[simp] theorem State.reachCycle_udpPort (s : State) (c n : Nat) : (s.reachCycle c n).udpPort = s.udpPort := rfl
@[simp] theorem State.reachCycle_flowControl (s : State) (c n : Nat) : (s.reachCycle c n).flowControl = s.flowControl := rfl
@[simp] theorem State.reachCycle_ecnMarking (s : State) (c n : Nat) : (s.reachCycle c n).ecnMarking = s.ecnMarking := rfl
@[simp] theorem State.reachCycle_retiredClusters (s : State) (c n : Nat) : (s.reachCycle c n).retiredClusters = s.retiredClusters := rfl
@[simp] theorem State.reachCycle_retiredChannels (s : State) (c n : Nat) : (s.reachCycle c n).retiredChannels = s.retiredChannels := rfl
@[simp] theorem State.reachCycle_powerLimit (s : State) (c n : Nat) : (s.reachCycle c n).powerLimit = s.powerLimit := rfl
@[simp] theorem State.reachCycle_agedAt (s : State) (c n : Nat) : (s.reachCycle c n).agedAt = s.agedAt := rfl
@[simp] theorem State.reachCycle_grant (s : State) (c n : Nat) : (s.reachCycle c n).grant = s.grant := rfl
@[simp] theorem State.reachCycle_fatal (s : State) (c n : Nat) : (s.reachCycle c n).fatal = s.fatal := rfl
@[simp] theorem State.reachCycle_mgmt (s : State) (c n : Nat) : (s.reachCycle c n).mgmt = s.mgmt := rfl
@[simp] theorem State.reachCycle_hostRead (s : State) (c n : Nat) : (s.reachCycle c n).hostRead = s.hostRead := rfl
@[simp] theorem State.reachCycle_clusters (s : State) (c n : Nat) : (s.reachCycle c n).clusters = s.clusters := rfl
@[simp] theorem State.reachCycle_cores (s : State) (c n : Nat) : (s.reachCycle c n).cores = s.cores.put c { s.core c with reached := max n (s.core c).reached } := rfl
@[simp] theorem State.reachCycle_fes (s : State) (c n : Nat) : (s.reachCycle c n).fes = s.fes := rfl
@[simp] theorem State.reachCycle_lanes (s : State) (c n : Nat) : (s.reachCycle c n).lanes = s.lanes := rfl
@[simp] theorem State.reachCycle_strands (s : State) (c n : Nat) : (s.reachCycle c n).strands = s.strands := rfl
@[simp] theorem State.reachCycle_blocks (s : State) (c n : Nat) : (s.reachCycle c n).blocks = s.blocks := rfl
@[simp] theorem State.reachCycle_launches (s : State) (c n : Nat) : (s.reachCycle c n).launches = s.launches := rfl
@[simp] theorem State.reachCycle_accs (s : State) (c n : Nat) : (s.reachCycle c n).accs = s.accs := rfl
@[simp] theorem State.reachCycle_quorums (s : State) (c n : Nat) : (s.reachCycle c n).quorums = s.quorums := rfl
@[simp] theorem State.reachCycle_echoes (s : State) (c n : Nat) : (s.reachCycle c n).echoes = s.echoes := rfl
@[simp] theorem State.reachCycle_ops (s : State) (c n : Nat) : (s.reachCycle c n).ops = s.ops := rfl
@[simp] theorem State.reachCycle_samples (s : State) (c n : Nat) : (s.reachCycle c n).samples = s.samples := rfl
@[simp] theorem State.reachCycle_services (s : State) (c n : Nat) : (s.reachCycle c n).services = s.services := rfl
@[simp] theorem State.reachCycle_mem (s : State) (c n : Nat) : (s.reachCycle c n).mem = s.mem := rfl
@[simp] theorem State.reachCycle_host (s : State) (c n : Nat) : (s.reachCycle c n).host = s.host := rfl
@[simp] theorem State.reachCycle_remote (s : State) (c n : Nat) : (s.reachCycle c n).remote = s.remote := rfl
@[simp] theorem State.reachCycle_poison (s : State) (c n : Nat) : (s.reachCycle c n).poison = s.poison := rfl
@[simp] theorem State.reachCycle_padBad (s : State) (c n : Nat) : (s.reachCycle c n).padBad = s.padBad := rfl
@[simp] theorem State.reachCycle_past (s : State) (c n : Nat) : (s.reachCycle c n).past = s.past := rfl
@[simp] theorem State.reachCycle_seq (s : State) (c n : Nat) : (s.reachCycle c n).seq = s.seq := rfl
@[simp] theorem State.reachCycle_sc (s : State) (c n : Nat) : (s.reachCycle c n).sc = s.sc := rfl
@[simp] theorem State.reachCycle_tags (s : State) (c n : Nat) : (s.reachCycle c n).tags = s.tags := rfl
@[simp] theorem State.reachCycle_turns (s : State) (c n : Nat) : (s.reachCycle c n).turns = s.turns := rfl
@[simp] theorem State.reachCycle_focus (s : State) (c n : Nat) : (s.reachCycle c n).focus = s.focus := rfl
@[simp] theorem State.reachCycle_fresh (s : State) (c n : Nat) : (s.reachCycle c n).fresh = s.fresh := rfl
@[simp] theorem State.reachCycle_uid (s : State) (c n : Nat) : (s.reachCycle c n).uid = s.uid := rfl

@[simp] theorem State.draw_ns (s : State) : s.draw.2.ns = s.ns := rfl
@[simp] theorem State.draw_beatNs (s : State) : s.draw.2.beatNs = s.beatNs := rfl
@[simp] theorem State.draw_service (s : State) : s.draw.2.service = s.service := rfl
@[simp] theorem State.draw_ports (s : State) : s.draw.2.ports = s.ports := rfl
@[simp] theorem State.draw_dieLinks (s : State) : s.draw.2.dieLinks = s.dieLinks := rfl
@[simp] theorem State.draw_hbmStacks (s : State) : s.draw.2.hbmStacks = s.hbmStacks := rfl
@[simp] theorem State.draw_ethLinks (s : State) : s.draw.2.ethLinks = s.ethLinks := rfl
@[simp] theorem State.draw_udpPort (s : State) : s.draw.2.udpPort = s.udpPort := rfl
@[simp] theorem State.draw_flowControl (s : State) : s.draw.2.flowControl = s.flowControl := rfl
@[simp] theorem State.draw_ecnMarking (s : State) : s.draw.2.ecnMarking = s.ecnMarking := rfl
@[simp] theorem State.draw_retiredClusters (s : State) : s.draw.2.retiredClusters = s.retiredClusters := rfl
@[simp] theorem State.draw_retiredChannels (s : State) : s.draw.2.retiredChannels = s.retiredChannels := rfl
@[simp] theorem State.draw_powerLimit (s : State) : s.draw.2.powerLimit = s.powerLimit := rfl
@[simp] theorem State.draw_agedAt (s : State) : s.draw.2.agedAt = s.agedAt := rfl
@[simp] theorem State.draw_grant (s : State) : s.draw.2.grant = s.grant := rfl
@[simp] theorem State.draw_fatal (s : State) : s.draw.2.fatal = s.fatal := rfl
@[simp] theorem State.draw_mgmt (s : State) : s.draw.2.mgmt = s.mgmt := rfl
@[simp] theorem State.draw_hostRead (s : State) : s.draw.2.hostRead = s.hostRead := rfl
@[simp] theorem State.draw_clusters (s : State) : s.draw.2.clusters = s.clusters := rfl
@[simp] theorem State.draw_cores (s : State) : s.draw.2.cores = s.cores := rfl
@[simp] theorem State.draw_fes (s : State) : s.draw.2.fes = s.fes := rfl
@[simp] theorem State.draw_lanes (s : State) : s.draw.2.lanes = s.lanes := rfl
@[simp] theorem State.draw_strands (s : State) : s.draw.2.strands = s.strands := rfl
@[simp] theorem State.draw_blocks (s : State) : s.draw.2.blocks = s.blocks := rfl
@[simp] theorem State.draw_launches (s : State) : s.draw.2.launches = s.launches := rfl
@[simp] theorem State.draw_accs (s : State) : s.draw.2.accs = s.accs := rfl
@[simp] theorem State.draw_quorums (s : State) : s.draw.2.quorums = s.quorums := rfl
@[simp] theorem State.draw_echoes (s : State) : s.draw.2.echoes = s.echoes := rfl
@[simp] theorem State.draw_ops (s : State) : s.draw.2.ops = s.ops := rfl
@[simp] theorem State.draw_samples (s : State) : s.draw.2.samples = s.samples := rfl
@[simp] theorem State.draw_services (s : State) : s.draw.2.services = s.services := rfl
@[simp] theorem State.draw_mem (s : State) : s.draw.2.mem = s.mem := rfl
@[simp] theorem State.draw_host (s : State) : s.draw.2.host = s.host := rfl
@[simp] theorem State.draw_remote (s : State) : s.draw.2.remote = s.remote := rfl
@[simp] theorem State.draw_poison (s : State) : s.draw.2.poison = s.poison := rfl
@[simp] theorem State.draw_padBad (s : State) : s.draw.2.padBad = s.padBad := rfl
@[simp] theorem State.draw_past (s : State) : s.draw.2.past = s.past := rfl
@[simp] theorem State.draw_seq (s : State) : s.draw.2.seq = s.seq := rfl
@[simp] theorem State.draw_sc (s : State) : s.draw.2.sc = s.sc := rfl
@[simp] theorem State.draw_tags (s : State) : s.draw.2.tags = s.tags := rfl
@[simp] theorem State.draw_turns (s : State) : s.draw.2.turns = s.turns := rfl
@[simp] theorem State.draw_focus (s : State) : s.draw.2.focus = s.focus := rfl
@[simp] theorem State.draw_fresh (s : State) : s.draw.2.fresh = s.fresh + 1 := rfl
@[simp] theorem State.draw_uid (s : State) : s.draw.2.uid = s.uid := rfl

@[simp] theorem State.name_ns (s : State) : s.name.2.ns = s.ns := rfl
@[simp] theorem State.name_beatNs (s : State) : s.name.2.beatNs = s.beatNs := rfl
@[simp] theorem State.name_service (s : State) : s.name.2.service = s.service := rfl
@[simp] theorem State.name_ports (s : State) : s.name.2.ports = s.ports := rfl
@[simp] theorem State.name_dieLinks (s : State) : s.name.2.dieLinks = s.dieLinks := rfl
@[simp] theorem State.name_hbmStacks (s : State) : s.name.2.hbmStacks = s.hbmStacks := rfl
@[simp] theorem State.name_ethLinks (s : State) : s.name.2.ethLinks = s.ethLinks := rfl
@[simp] theorem State.name_udpPort (s : State) : s.name.2.udpPort = s.udpPort := rfl
@[simp] theorem State.name_flowControl (s : State) : s.name.2.flowControl = s.flowControl := rfl
@[simp] theorem State.name_ecnMarking (s : State) : s.name.2.ecnMarking = s.ecnMarking := rfl
@[simp] theorem State.name_retiredClusters (s : State) : s.name.2.retiredClusters = s.retiredClusters := rfl
@[simp] theorem State.name_retiredChannels (s : State) : s.name.2.retiredChannels = s.retiredChannels := rfl
@[simp] theorem State.name_powerLimit (s : State) : s.name.2.powerLimit = s.powerLimit := rfl
@[simp] theorem State.name_agedAt (s : State) : s.name.2.agedAt = s.agedAt := rfl
@[simp] theorem State.name_grant (s : State) : s.name.2.grant = s.grant := rfl
@[simp] theorem State.name_fatal (s : State) : s.name.2.fatal = s.fatal := rfl
@[simp] theorem State.name_mgmt (s : State) : s.name.2.mgmt = s.mgmt := rfl
@[simp] theorem State.name_hostRead (s : State) : s.name.2.hostRead = s.hostRead := rfl
@[simp] theorem State.name_clusters (s : State) : s.name.2.clusters = s.clusters := rfl
@[simp] theorem State.name_cores (s : State) : s.name.2.cores = s.cores := rfl
@[simp] theorem State.name_fes (s : State) : s.name.2.fes = s.fes := rfl
@[simp] theorem State.name_lanes (s : State) : s.name.2.lanes = s.lanes := rfl
@[simp] theorem State.name_strands (s : State) : s.name.2.strands = s.strands := rfl
@[simp] theorem State.name_blocks (s : State) : s.name.2.blocks = s.blocks := rfl
@[simp] theorem State.name_launches (s : State) : s.name.2.launches = s.launches := rfl
@[simp] theorem State.name_accs (s : State) : s.name.2.accs = s.accs := rfl
@[simp] theorem State.name_quorums (s : State) : s.name.2.quorums = s.quorums := rfl
@[simp] theorem State.name_echoes (s : State) : s.name.2.echoes = s.echoes := rfl
@[simp] theorem State.name_ops (s : State) : s.name.2.ops = s.ops := rfl
@[simp] theorem State.name_samples (s : State) : s.name.2.samples = s.samples := rfl
@[simp] theorem State.name_services (s : State) : s.name.2.services = s.services := rfl
@[simp] theorem State.name_mem (s : State) : s.name.2.mem = s.mem := rfl
@[simp] theorem State.name_host (s : State) : s.name.2.host = s.host := rfl
@[simp] theorem State.name_remote (s : State) : s.name.2.remote = s.remote := rfl
@[simp] theorem State.name_poison (s : State) : s.name.2.poison = s.poison := rfl
@[simp] theorem State.name_padBad (s : State) : s.name.2.padBad = s.padBad := rfl
@[simp] theorem State.name_past (s : State) : s.name.2.past = s.past := rfl
@[simp] theorem State.name_seq (s : State) : s.name.2.seq = s.seq := rfl
@[simp] theorem State.name_sc (s : State) : s.name.2.sc = s.sc := rfl
@[simp] theorem State.name_tags (s : State) : s.name.2.tags = s.tags := rfl
@[simp] theorem State.name_turns (s : State) : s.name.2.turns = s.turns := rfl
@[simp] theorem State.name_focus (s : State) : s.name.2.focus = s.focus := rfl
@[simp] theorem State.name_fresh (s : State) : s.name.2.fresh = s.fresh := rfl
@[simp] theorem State.name_uid (s : State) : s.name.2.uid = s.uid + 1 := rfl

@[simp] theorem Strand.setV_v (k : Strand) (r t : Nat) (w : Word) : (k.setV r t w).v = k.v.set (vKey r t 0) w := rfl
@[simp] theorem Strand.setV_s (k : Strand) (r t : Nat) (w : Word) : (k.setV r t w).s = k.s := rfl
@[simp] theorem Strand.setV_m (k : Strand) (r t : Nat) (w : Word) : (k.setV r t w).m = k.m := rfl
@[simp] theorem Strand.setV_mpar (k : Strand) (r t : Nat) (w : Word) : (k.setV r t w).mpar = k.mpar := rfl
@[simp] theorem Strand.setV_m0bad (k : Strand) (r t : Nat) (w : Word) : (k.setV r t w).m0bad = k.m0bad := rfl
@[simp] theorem Strand.setV_h (k : Strand) (r t : Nat) (w : Word) : (k.setV r t w).h = k.h := rfl
@[simp] theorem Strand.setV_mask (k : Strand) (r t : Nat) (w : Word) : (k.setV r t w).mask = k.mask := rfl
@[simp] theorem Strand.setV_pc (k : Strand) (r t : Nat) (w : Word) : (k.setV r t w).pc = k.pc := rfl
@[simp] theorem Strand.setV_groups (k : Strand) (r t : Nat) (w : Word) : (k.setV r t w).groups = k.groups := rfl
@[simp] theorem Strand.setV_exited (k : Strand) (r t : Nat) (w : Word) : (k.setV r t w).exited = k.exited := rfl
@[simp] theorem Strand.setV_parked (k : Strand) (r t : Nat) (w : Word) : (k.setV r t w).parked = k.parked := rfl
@[simp] theorem Strand.setV_asleep (k : Strand) (r t : Nat) (w : Word) : (k.setV r t w).asleep = k.asleep := rfl
@[simp] theorem Strand.setV_sleepers (k : Strand) (r t : Nat) (w : Word) : (k.setV r t w).sleepers = k.sleepers := rfl
@[simp] theorem Strand.setV_entry (k : Strand) (r t : Nat) (w : Word) : (k.setV r t w).entry = k.entry := rfl
@[simp] theorem Strand.setV_drain (k : Strand) (r t : Nat) (w : Word) : (k.setV r t w).drain = k.drain := rfl
@[simp] theorem Strand.setV_fetchHeld (k : Strand) (r t : Nat) (w : Word) : (k.setV r t w).fetchHeld = k.fetchHeld := rfl
@[simp] theorem Strand.setV_fpflags (k : Strand) (r t : Nat) (w : Word) : (k.setV r t w).fpflags = k.fpflags := rfl
@[simp] theorem Strand.setV_ivt (k : Strand) (r t : Nat) (w : Word) : (k.setV r t w).ivt = k.ivt := rfl
@[simp] theorem Strand.setV_uvec (k : Strand) (r t : Nat) (w : Word) : (k.setV r t w).uvec = k.uvec := rfl
@[simp] theorem Strand.setV_uepc (k : Strand) (r t : Nat) (w : Word) : (k.setV r t w).uepc = k.uepc := rfl
@[simp] theorem Strand.setV_ucause (k : Strand) (r t : Nat) (w : Word) : (k.setV r t w).ucause = k.ucause := rfl
@[simp] theorem Strand.setV_tmrcmp (k : Strand) (r t : Nat) (w : Word) : (k.setV r t w).tmrcmp = k.tmrcmp := rfl
@[simp] theorem Strand.setV_tmrArmed (k : Strand) (r t : Nat) (w : Word) : (k.setV r t w).tmrArmed = k.tmrArmed := rfl
@[simp] theorem Strand.setV_sig (k : Strand) (r t : Nat) (w : Word) : (k.setV r t w).sig = k.sig := rfl
@[simp] theorem Strand.setV_sigPend (k : Strand) (r t : Nat) (w : Word) : (k.setV r t w).sigPend = k.sigPend := rfl
@[simp] theorem Strand.setV_region (k : Strand) (r t : Nat) (w : Word) : (k.setV r t w).region = k.region := rfl
@[simp] theorem Strand.setV_regionpc (k : Strand) (r t : Nat) (w : Word) : (k.setV r t w).regionpc = k.regionpc := rfl
@[simp] theorem Strand.setV_usigsv (k : Strand) (r t : Nat) (w : Word) : (k.setV r t w).usigsv = k.usigsv := rfl
@[simp] theorem Strand.setV_usigpv (k : Strand) (r t : Nat) (w : Word) : (k.setV r t w).usigpv = k.usigpv := rfl
@[simp] theorem Strand.setV_chk (k : Strand) (r t : Nat) (w : Word) : (k.setV r t w).chk = k.chk := rfl
@[simp] theorem Strand.setV_pvec (k : Strand) (r t : Nat) (w : Word) : (k.setV r t w).pvec = k.pvec := rfl
@[simp] theorem Strand.setV_pepc (k : Strand) (r t : Nat) (w : Word) : (k.setV r t w).pepc = k.pepc := rfl
@[simp] theorem Strand.setV_pcause (k : Strand) (r t : Nat) (w : Word) : (k.setV r t w).pcause = k.pcause := rfl
@[simp] theorem Strand.setV_pmask (k : Strand) (r t : Nat) (w : Word) : (k.setV r t w).pmask = k.pmask := rfl
@[simp] theorem Strand.setV_pva (k : Strand) (r t : Nat) (w : Word) : (k.setV r t w).pva = k.pva := rfl
@[simp] theorem Strand.setV_pfpc (k : Strand) (r t : Nat) (w : Word) : (k.setV r t w).pfpc = k.pfpc := rfl
@[simp] theorem Strand.setV_pregion (k : Strand) (r t : Nat) (w : Word) : (k.setV r t w).pregion = k.pregion := rfl
@[simp] theorem Strand.setV_psigsv (k : Strand) (r t : Nat) (w : Word) : (k.setV r t w).psigsv = k.psigsv := rfl
@[simp] theorem Strand.setV_psigpv (k : Strand) (r t : Nat) (w : Word) : (k.setV r t w).psigpv = k.psigpv := rfl
@[simp] theorem Strand.setV_psave (k : Strand) (r t : Nat) (w : Word) : (k.setV r t w).psave = k.psave := rfl
@[simp] theorem Strand.setV_rv (k : Strand) (r t : Nat) (w : Word) : (k.setV r t w).rv = k.rv := rfl
@[simp] theorem Strand.setV_ph (k : Strand) (r t : Nat) (w : Word) : (k.setV r t w).ph = k.ph := rfl
@[simp] theorem Strand.setV_uh (k : Strand) (r t : Nat) (w : Word) : (k.setV r t w).uh = k.uh := rfl
@[simp] theorem Strand.setV_ss (k : Strand) (r t : Nat) (w : Word) : (k.setV r t w).ss = k.ss := rfl
@[simp] theorem Strand.setV_stepDue (k : Strand) (r t : Nat) (w : Word) : (k.setV r t w).stepDue = k.stepDue := rfl
@[simp] theorem Strand.setV_trapAt (k : Strand) (r t : Nat) (w : Word) : (k.setV r t w).trapAt = k.trapAt := rfl
@[simp] theorem Strand.setV_stopDue (k : Strand) (r t : Nat) (w : Word) : (k.setV r t w).stopDue = k.stopDue := rfl
@[simp] theorem Strand.setV_stopped (k : Strand) (r t : Nat) (w : Word) : (k.setV r t w).stopped = k.stopped := rfl
@[simp] theorem Strand.setV_faults (k : Strand) (r t : Nat) (w : Word) : (k.setV r t w).faults = k.faults := rfl
@[simp] theorem Strand.setV_hostBreak (k : Strand) (r t : Nat) (w : Word) : (k.setV r t w).hostBreak = k.hostBreak := rfl
@[simp] theorem Strand.setV_ready (k : Strand) (r t : Nat) (w : Word) : (k.setV r t w).ready = k.ready := rfl
@[simp] theorem Strand.setV_late (k : Strand) (r t : Nat) (w : Word) : (k.setV r t w).late = k.late := rfl
@[simp] theorem Strand.setV_passP (k : Strand) (r t : Nat) (w : Word) : (k.setV r t w).passP = k.passP := rfl
@[simp] theorem Strand.setV_passH (k : Strand) (r t : Nat) (w : Word) : (k.setV r t w).passH = k.passH := rfl
@[simp] theorem Strand.setV_lane (k : Strand) (r t : Nat) (w : Word) : (k.setV r t w).lane = k.lane := rfl
@[simp] theorem Strand.setV_slot (k : Strand) (r t : Nat) (w : Word) : (k.setV r t w).slot = k.slot := rfl
@[simp] theorem Strand.setV_why (k : Strand) (r t : Nat) (w : Word) : (k.setV r t w).why = k.why := rfl
@[simp] theorem Strand.setV_skein (k : Strand) (r t : Nat) (w : Word) : (k.setV r t w).skein = k.skein := rfl
@[simp] theorem Strand.setV_wait (k : Strand) (r t : Nat) (w : Word) : (k.setV r t w).wait = k.wait := rfl
@[simp] theorem Strand.setV_po (k : Strand) (r t : Nat) (w : Word) : (k.setV r t w).po = k.po := rfl
@[simp] theorem Strand.setV_seen (k : Strand) (r t : Nat) (w : Word) : (k.setV r t w).seen = k.seen := rfl
@[simp] theorem Strand.setV_since (k : Strand) (r t : Nat) (w : Word) : (k.setV r t w).since = k.since := rfl
@[simp] theorem Strand.setV_ended (k : Strand) (r t : Nat) (w : Word) : (k.setV r t w).ended = k.ended := rfl
@[simp] theorem Strand.setV_shash (k : Strand) (r t : Nat) (w : Word) : (k.setV r t w).shash = k.shash := rfl
@[simp] theorem Strand.setV_bad (k : Strand) (r t : Nat) (w : Word) : (k.setV r t w).bad = k.bad := rfl

@[simp] theorem Strand.setComp_v (k : Strand) (r t c : Nat) (w : Word) : (k.setComp r t c w).v = k.v.set (vKey r t (c + 1)) w := rfl
@[simp] theorem Strand.setComp_s (k : Strand) (r t c : Nat) (w : Word) : (k.setComp r t c w).s = k.s := rfl
@[simp] theorem Strand.setComp_m (k : Strand) (r t c : Nat) (w : Word) : (k.setComp r t c w).m = k.m := rfl
@[simp] theorem Strand.setComp_mpar (k : Strand) (r t c : Nat) (w : Word) : (k.setComp r t c w).mpar = k.mpar := rfl
@[simp] theorem Strand.setComp_m0bad (k : Strand) (r t c : Nat) (w : Word) : (k.setComp r t c w).m0bad = k.m0bad := rfl
@[simp] theorem Strand.setComp_h (k : Strand) (r t c : Nat) (w : Word) : (k.setComp r t c w).h = k.h := rfl
@[simp] theorem Strand.setComp_mask (k : Strand) (r t c : Nat) (w : Word) : (k.setComp r t c w).mask = k.mask := rfl
@[simp] theorem Strand.setComp_pc (k : Strand) (r t c : Nat) (w : Word) : (k.setComp r t c w).pc = k.pc := rfl
@[simp] theorem Strand.setComp_groups (k : Strand) (r t c : Nat) (w : Word) : (k.setComp r t c w).groups = k.groups := rfl
@[simp] theorem Strand.setComp_exited (k : Strand) (r t c : Nat) (w : Word) : (k.setComp r t c w).exited = k.exited := rfl
@[simp] theorem Strand.setComp_parked (k : Strand) (r t c : Nat) (w : Word) : (k.setComp r t c w).parked = k.parked := rfl
@[simp] theorem Strand.setComp_asleep (k : Strand) (r t c : Nat) (w : Word) : (k.setComp r t c w).asleep = k.asleep := rfl
@[simp] theorem Strand.setComp_sleepers (k : Strand) (r t c : Nat) (w : Word) : (k.setComp r t c w).sleepers = k.sleepers := rfl
@[simp] theorem Strand.setComp_entry (k : Strand) (r t c : Nat) (w : Word) : (k.setComp r t c w).entry = k.entry := rfl
@[simp] theorem Strand.setComp_drain (k : Strand) (r t c : Nat) (w : Word) : (k.setComp r t c w).drain = k.drain := rfl
@[simp] theorem Strand.setComp_fetchHeld (k : Strand) (r t c : Nat) (w : Word) : (k.setComp r t c w).fetchHeld = k.fetchHeld := rfl
@[simp] theorem Strand.setComp_fpflags (k : Strand) (r t c : Nat) (w : Word) : (k.setComp r t c w).fpflags = k.fpflags := rfl
@[simp] theorem Strand.setComp_ivt (k : Strand) (r t c : Nat) (w : Word) : (k.setComp r t c w).ivt = k.ivt := rfl
@[simp] theorem Strand.setComp_uvec (k : Strand) (r t c : Nat) (w : Word) : (k.setComp r t c w).uvec = k.uvec := rfl
@[simp] theorem Strand.setComp_uepc (k : Strand) (r t c : Nat) (w : Word) : (k.setComp r t c w).uepc = k.uepc := rfl
@[simp] theorem Strand.setComp_ucause (k : Strand) (r t c : Nat) (w : Word) : (k.setComp r t c w).ucause = k.ucause := rfl
@[simp] theorem Strand.setComp_tmrcmp (k : Strand) (r t c : Nat) (w : Word) : (k.setComp r t c w).tmrcmp = k.tmrcmp := rfl
@[simp] theorem Strand.setComp_tmrArmed (k : Strand) (r t c : Nat) (w : Word) : (k.setComp r t c w).tmrArmed = k.tmrArmed := rfl
@[simp] theorem Strand.setComp_sig (k : Strand) (r t c : Nat) (w : Word) : (k.setComp r t c w).sig = k.sig := rfl
@[simp] theorem Strand.setComp_sigPend (k : Strand) (r t c : Nat) (w : Word) : (k.setComp r t c w).sigPend = k.sigPend := rfl
@[simp] theorem Strand.setComp_region (k : Strand) (r t c : Nat) (w : Word) : (k.setComp r t c w).region = k.region := rfl
@[simp] theorem Strand.setComp_regionpc (k : Strand) (r t c : Nat) (w : Word) : (k.setComp r t c w).regionpc = k.regionpc := rfl
@[simp] theorem Strand.setComp_usigsv (k : Strand) (r t c : Nat) (w : Word) : (k.setComp r t c w).usigsv = k.usigsv := rfl
@[simp] theorem Strand.setComp_usigpv (k : Strand) (r t c : Nat) (w : Word) : (k.setComp r t c w).usigpv = k.usigpv := rfl
@[simp] theorem Strand.setComp_chk (k : Strand) (r t c : Nat) (w : Word) : (k.setComp r t c w).chk = k.chk := rfl
@[simp] theorem Strand.setComp_pvec (k : Strand) (r t c : Nat) (w : Word) : (k.setComp r t c w).pvec = k.pvec := rfl
@[simp] theorem Strand.setComp_pepc (k : Strand) (r t c : Nat) (w : Word) : (k.setComp r t c w).pepc = k.pepc := rfl
@[simp] theorem Strand.setComp_pcause (k : Strand) (r t c : Nat) (w : Word) : (k.setComp r t c w).pcause = k.pcause := rfl
@[simp] theorem Strand.setComp_pmask (k : Strand) (r t c : Nat) (w : Word) : (k.setComp r t c w).pmask = k.pmask := rfl
@[simp] theorem Strand.setComp_pva (k : Strand) (r t c : Nat) (w : Word) : (k.setComp r t c w).pva = k.pva := rfl
@[simp] theorem Strand.setComp_pfpc (k : Strand) (r t c : Nat) (w : Word) : (k.setComp r t c w).pfpc = k.pfpc := rfl
@[simp] theorem Strand.setComp_pregion (k : Strand) (r t c : Nat) (w : Word) : (k.setComp r t c w).pregion = k.pregion := rfl
@[simp] theorem Strand.setComp_psigsv (k : Strand) (r t c : Nat) (w : Word) : (k.setComp r t c w).psigsv = k.psigsv := rfl
@[simp] theorem Strand.setComp_psigpv (k : Strand) (r t c : Nat) (w : Word) : (k.setComp r t c w).psigpv = k.psigpv := rfl
@[simp] theorem Strand.setComp_psave (k : Strand) (r t c : Nat) (w : Word) : (k.setComp r t c w).psave = k.psave := rfl
@[simp] theorem Strand.setComp_rv (k : Strand) (r t c : Nat) (w : Word) : (k.setComp r t c w).rv = k.rv := rfl
@[simp] theorem Strand.setComp_ph (k : Strand) (r t c : Nat) (w : Word) : (k.setComp r t c w).ph = k.ph := rfl
@[simp] theorem Strand.setComp_uh (k : Strand) (r t c : Nat) (w : Word) : (k.setComp r t c w).uh = k.uh := rfl
@[simp] theorem Strand.setComp_ss (k : Strand) (r t c : Nat) (w : Word) : (k.setComp r t c w).ss = k.ss := rfl
@[simp] theorem Strand.setComp_stepDue (k : Strand) (r t c : Nat) (w : Word) : (k.setComp r t c w).stepDue = k.stepDue := rfl
@[simp] theorem Strand.setComp_trapAt (k : Strand) (r t c : Nat) (w : Word) : (k.setComp r t c w).trapAt = k.trapAt := rfl
@[simp] theorem Strand.setComp_stopDue (k : Strand) (r t c : Nat) (w : Word) : (k.setComp r t c w).stopDue = k.stopDue := rfl
@[simp] theorem Strand.setComp_stopped (k : Strand) (r t c : Nat) (w : Word) : (k.setComp r t c w).stopped = k.stopped := rfl
@[simp] theorem Strand.setComp_faults (k : Strand) (r t c : Nat) (w : Word) : (k.setComp r t c w).faults = k.faults := rfl
@[simp] theorem Strand.setComp_hostBreak (k : Strand) (r t c : Nat) (w : Word) : (k.setComp r t c w).hostBreak = k.hostBreak := rfl
@[simp] theorem Strand.setComp_ready (k : Strand) (r t c : Nat) (w : Word) : (k.setComp r t c w).ready = k.ready := rfl
@[simp] theorem Strand.setComp_late (k : Strand) (r t c : Nat) (w : Word) : (k.setComp r t c w).late = k.late := rfl
@[simp] theorem Strand.setComp_passP (k : Strand) (r t c : Nat) (w : Word) : (k.setComp r t c w).passP = k.passP := rfl
@[simp] theorem Strand.setComp_passH (k : Strand) (r t c : Nat) (w : Word) : (k.setComp r t c w).passH = k.passH := rfl
@[simp] theorem Strand.setComp_lane (k : Strand) (r t c : Nat) (w : Word) : (k.setComp r t c w).lane = k.lane := rfl
@[simp] theorem Strand.setComp_slot (k : Strand) (r t c : Nat) (w : Word) : (k.setComp r t c w).slot = k.slot := rfl
@[simp] theorem Strand.setComp_why (k : Strand) (r t c : Nat) (w : Word) : (k.setComp r t c w).why = k.why := rfl
@[simp] theorem Strand.setComp_skein (k : Strand) (r t c : Nat) (w : Word) : (k.setComp r t c w).skein = k.skein := rfl
@[simp] theorem Strand.setComp_wait (k : Strand) (r t c : Nat) (w : Word) : (k.setComp r t c w).wait = k.wait := rfl
@[simp] theorem Strand.setComp_po (k : Strand) (r t c : Nat) (w : Word) : (k.setComp r t c w).po = k.po := rfl
@[simp] theorem Strand.setComp_seen (k : Strand) (r t c : Nat) (w : Word) : (k.setComp r t c w).seen = k.seen := rfl
@[simp] theorem Strand.setComp_since (k : Strand) (r t c : Nat) (w : Word) : (k.setComp r t c w).since = k.since := rfl
@[simp] theorem Strand.setComp_ended (k : Strand) (r t c : Nat) (w : Word) : (k.setComp r t c w).ended = k.ended := rfl
@[simp] theorem Strand.setComp_shash (k : Strand) (r t c : Nat) (w : Word) : (k.setComp r t c w).shash = k.shash := rfl
@[simp] theorem Strand.setComp_bad (k : Strand) (r t c : Nat) (w : Word) : (k.setComp r t c w).bad = k.bad := rfl

@[simp] theorem Strand.setS_v (k : Strand) (r : Nat) (w : Word) : (k.setS r w).v = k.v := rfl
@[simp] theorem Strand.setS_s (k : Strand) (r : Nat) (w : Word) : (k.setS r w).s = k.s.set r w := rfl
@[simp] theorem Strand.setS_m (k : Strand) (r : Nat) (w : Word) : (k.setS r w).m = k.m := rfl
@[simp] theorem Strand.setS_mpar (k : Strand) (r : Nat) (w : Word) : (k.setS r w).mpar = k.mpar := rfl
@[simp] theorem Strand.setS_m0bad (k : Strand) (r : Nat) (w : Word) : (k.setS r w).m0bad = k.m0bad := rfl
@[simp] theorem Strand.setS_h (k : Strand) (r : Nat) (w : Word) : (k.setS r w).h = k.h := rfl
@[simp] theorem Strand.setS_mask (k : Strand) (r : Nat) (w : Word) : (k.setS r w).mask = k.mask := rfl
@[simp] theorem Strand.setS_pc (k : Strand) (r : Nat) (w : Word) : (k.setS r w).pc = k.pc := rfl
@[simp] theorem Strand.setS_groups (k : Strand) (r : Nat) (w : Word) : (k.setS r w).groups = k.groups := rfl
@[simp] theorem Strand.setS_exited (k : Strand) (r : Nat) (w : Word) : (k.setS r w).exited = k.exited := rfl
@[simp] theorem Strand.setS_parked (k : Strand) (r : Nat) (w : Word) : (k.setS r w).parked = k.parked := rfl
@[simp] theorem Strand.setS_asleep (k : Strand) (r : Nat) (w : Word) : (k.setS r w).asleep = k.asleep := rfl
@[simp] theorem Strand.setS_sleepers (k : Strand) (r : Nat) (w : Word) : (k.setS r w).sleepers = k.sleepers := rfl
@[simp] theorem Strand.setS_entry (k : Strand) (r : Nat) (w : Word) : (k.setS r w).entry = k.entry := rfl
@[simp] theorem Strand.setS_drain (k : Strand) (r : Nat) (w : Word) : (k.setS r w).drain = k.drain := rfl
@[simp] theorem Strand.setS_fetchHeld (k : Strand) (r : Nat) (w : Word) : (k.setS r w).fetchHeld = k.fetchHeld := rfl
@[simp] theorem Strand.setS_fpflags (k : Strand) (r : Nat) (w : Word) : (k.setS r w).fpflags = k.fpflags := rfl
@[simp] theorem Strand.setS_ivt (k : Strand) (r : Nat) (w : Word) : (k.setS r w).ivt = k.ivt := rfl
@[simp] theorem Strand.setS_uvec (k : Strand) (r : Nat) (w : Word) : (k.setS r w).uvec = k.uvec := rfl
@[simp] theorem Strand.setS_uepc (k : Strand) (r : Nat) (w : Word) : (k.setS r w).uepc = k.uepc := rfl
@[simp] theorem Strand.setS_ucause (k : Strand) (r : Nat) (w : Word) : (k.setS r w).ucause = k.ucause := rfl
@[simp] theorem Strand.setS_tmrcmp (k : Strand) (r : Nat) (w : Word) : (k.setS r w).tmrcmp = k.tmrcmp := rfl
@[simp] theorem Strand.setS_tmrArmed (k : Strand) (r : Nat) (w : Word) : (k.setS r w).tmrArmed = k.tmrArmed := rfl
@[simp] theorem Strand.setS_sig (k : Strand) (r : Nat) (w : Word) : (k.setS r w).sig = k.sig := rfl
@[simp] theorem Strand.setS_sigPend (k : Strand) (r : Nat) (w : Word) : (k.setS r w).sigPend = k.sigPend := rfl
@[simp] theorem Strand.setS_region (k : Strand) (r : Nat) (w : Word) : (k.setS r w).region = k.region := rfl
@[simp] theorem Strand.setS_regionpc (k : Strand) (r : Nat) (w : Word) : (k.setS r w).regionpc = k.regionpc := rfl
@[simp] theorem Strand.setS_usigsv (k : Strand) (r : Nat) (w : Word) : (k.setS r w).usigsv = k.usigsv := rfl
@[simp] theorem Strand.setS_usigpv (k : Strand) (r : Nat) (w : Word) : (k.setS r w).usigpv = k.usigpv := rfl
@[simp] theorem Strand.setS_chk (k : Strand) (r : Nat) (w : Word) : (k.setS r w).chk = k.chk := rfl
@[simp] theorem Strand.setS_pvec (k : Strand) (r : Nat) (w : Word) : (k.setS r w).pvec = k.pvec := rfl
@[simp] theorem Strand.setS_pepc (k : Strand) (r : Nat) (w : Word) : (k.setS r w).pepc = k.pepc := rfl
@[simp] theorem Strand.setS_pcause (k : Strand) (r : Nat) (w : Word) : (k.setS r w).pcause = k.pcause := rfl
@[simp] theorem Strand.setS_pmask (k : Strand) (r : Nat) (w : Word) : (k.setS r w).pmask = k.pmask := rfl
@[simp] theorem Strand.setS_pva (k : Strand) (r : Nat) (w : Word) : (k.setS r w).pva = k.pva := rfl
@[simp] theorem Strand.setS_pfpc (k : Strand) (r : Nat) (w : Word) : (k.setS r w).pfpc = k.pfpc := rfl
@[simp] theorem Strand.setS_pregion (k : Strand) (r : Nat) (w : Word) : (k.setS r w).pregion = k.pregion := rfl
@[simp] theorem Strand.setS_psigsv (k : Strand) (r : Nat) (w : Word) : (k.setS r w).psigsv = k.psigsv := rfl
@[simp] theorem Strand.setS_psigpv (k : Strand) (r : Nat) (w : Word) : (k.setS r w).psigpv = k.psigpv := rfl
@[simp] theorem Strand.setS_psave (k : Strand) (r : Nat) (w : Word) : (k.setS r w).psave = k.psave := rfl
@[simp] theorem Strand.setS_rv (k : Strand) (r : Nat) (w : Word) : (k.setS r w).rv = k.rv := rfl
@[simp] theorem Strand.setS_ph (k : Strand) (r : Nat) (w : Word) : (k.setS r w).ph = k.ph := rfl
@[simp] theorem Strand.setS_uh (k : Strand) (r : Nat) (w : Word) : (k.setS r w).uh = k.uh := rfl
@[simp] theorem Strand.setS_ss (k : Strand) (r : Nat) (w : Word) : (k.setS r w).ss = k.ss := rfl
@[simp] theorem Strand.setS_stepDue (k : Strand) (r : Nat) (w : Word) : (k.setS r w).stepDue = k.stepDue := rfl
@[simp] theorem Strand.setS_trapAt (k : Strand) (r : Nat) (w : Word) : (k.setS r w).trapAt = k.trapAt := rfl
@[simp] theorem Strand.setS_stopDue (k : Strand) (r : Nat) (w : Word) : (k.setS r w).stopDue = k.stopDue := rfl
@[simp] theorem Strand.setS_stopped (k : Strand) (r : Nat) (w : Word) : (k.setS r w).stopped = k.stopped := rfl
@[simp] theorem Strand.setS_faults (k : Strand) (r : Nat) (w : Word) : (k.setS r w).faults = k.faults := rfl
@[simp] theorem Strand.setS_hostBreak (k : Strand) (r : Nat) (w : Word) : (k.setS r w).hostBreak = k.hostBreak := rfl
@[simp] theorem Strand.setS_ready (k : Strand) (r : Nat) (w : Word) : (k.setS r w).ready = k.ready := rfl
@[simp] theorem Strand.setS_late (k : Strand) (r : Nat) (w : Word) : (k.setS r w).late = k.late := rfl
@[simp] theorem Strand.setS_passP (k : Strand) (r : Nat) (w : Word) : (k.setS r w).passP = k.passP := rfl
@[simp] theorem Strand.setS_passH (k : Strand) (r : Nat) (w : Word) : (k.setS r w).passH = k.passH := rfl
@[simp] theorem Strand.setS_lane (k : Strand) (r : Nat) (w : Word) : (k.setS r w).lane = k.lane := rfl
@[simp] theorem Strand.setS_slot (k : Strand) (r : Nat) (w : Word) : (k.setS r w).slot = k.slot := rfl
@[simp] theorem Strand.setS_why (k : Strand) (r : Nat) (w : Word) : (k.setS r w).why = k.why := rfl
@[simp] theorem Strand.setS_skein (k : Strand) (r : Nat) (w : Word) : (k.setS r w).skein = k.skein := rfl
@[simp] theorem Strand.setS_wait (k : Strand) (r : Nat) (w : Word) : (k.setS r w).wait = k.wait := rfl
@[simp] theorem Strand.setS_po (k : Strand) (r : Nat) (w : Word) : (k.setS r w).po = k.po := rfl
@[simp] theorem Strand.setS_seen (k : Strand) (r : Nat) (w : Word) : (k.setS r w).seen = k.seen := rfl
@[simp] theorem Strand.setS_since (k : Strand) (r : Nat) (w : Word) : (k.setS r w).since = k.since := rfl
@[simp] theorem Strand.setS_ended (k : Strand) (r : Nat) (w : Word) : (k.setS r w).ended = k.ended := rfl
@[simp] theorem Strand.setS_shash (k : Strand) (r : Nat) (w : Word) : (k.setS r w).shash = k.shash := rfl
@[simp] theorem Strand.setS_bad (k : Strand) (r : Nat) (w : Word) : (k.setS r w).bad = k.bad := rfl

@[simp] theorem Strand.setSPair_v (k : Strand) (r : Nat) (w : Dword) : (k.setSPair r w).v = k.v := rfl
@[simp] theorem Strand.setSPair_s (k : Strand) (r : Nat) (w : Dword) : (k.setSPair r w).s = (k.s.set r (w.extractLsb' 0 32)).set (r + 1) (w.extractLsb' 32 32) := rfl
@[simp] theorem Strand.setSPair_m (k : Strand) (r : Nat) (w : Dword) : (k.setSPair r w).m = k.m := rfl
@[simp] theorem Strand.setSPair_mpar (k : Strand) (r : Nat) (w : Dword) : (k.setSPair r w).mpar = k.mpar := rfl
@[simp] theorem Strand.setSPair_m0bad (k : Strand) (r : Nat) (w : Dword) : (k.setSPair r w).m0bad = k.m0bad := rfl
@[simp] theorem Strand.setSPair_h (k : Strand) (r : Nat) (w : Dword) : (k.setSPair r w).h = k.h := rfl
@[simp] theorem Strand.setSPair_mask (k : Strand) (r : Nat) (w : Dword) : (k.setSPair r w).mask = k.mask := rfl
@[simp] theorem Strand.setSPair_pc (k : Strand) (r : Nat) (w : Dword) : (k.setSPair r w).pc = k.pc := rfl
@[simp] theorem Strand.setSPair_groups (k : Strand) (r : Nat) (w : Dword) : (k.setSPair r w).groups = k.groups := rfl
@[simp] theorem Strand.setSPair_exited (k : Strand) (r : Nat) (w : Dword) : (k.setSPair r w).exited = k.exited := rfl
@[simp] theorem Strand.setSPair_parked (k : Strand) (r : Nat) (w : Dword) : (k.setSPair r w).parked = k.parked := rfl
@[simp] theorem Strand.setSPair_asleep (k : Strand) (r : Nat) (w : Dword) : (k.setSPair r w).asleep = k.asleep := rfl
@[simp] theorem Strand.setSPair_sleepers (k : Strand) (r : Nat) (w : Dword) : (k.setSPair r w).sleepers = k.sleepers := rfl
@[simp] theorem Strand.setSPair_entry (k : Strand) (r : Nat) (w : Dword) : (k.setSPair r w).entry = k.entry := rfl
@[simp] theorem Strand.setSPair_drain (k : Strand) (r : Nat) (w : Dword) : (k.setSPair r w).drain = k.drain := rfl
@[simp] theorem Strand.setSPair_fetchHeld (k : Strand) (r : Nat) (w : Dword) : (k.setSPair r w).fetchHeld = k.fetchHeld := rfl
@[simp] theorem Strand.setSPair_fpflags (k : Strand) (r : Nat) (w : Dword) : (k.setSPair r w).fpflags = k.fpflags := rfl
@[simp] theorem Strand.setSPair_ivt (k : Strand) (r : Nat) (w : Dword) : (k.setSPair r w).ivt = k.ivt := rfl
@[simp] theorem Strand.setSPair_uvec (k : Strand) (r : Nat) (w : Dword) : (k.setSPair r w).uvec = k.uvec := rfl
@[simp] theorem Strand.setSPair_uepc (k : Strand) (r : Nat) (w : Dword) : (k.setSPair r w).uepc = k.uepc := rfl
@[simp] theorem Strand.setSPair_ucause (k : Strand) (r : Nat) (w : Dword) : (k.setSPair r w).ucause = k.ucause := rfl
@[simp] theorem Strand.setSPair_tmrcmp (k : Strand) (r : Nat) (w : Dword) : (k.setSPair r w).tmrcmp = k.tmrcmp := rfl
@[simp] theorem Strand.setSPair_tmrArmed (k : Strand) (r : Nat) (w : Dword) : (k.setSPair r w).tmrArmed = k.tmrArmed := rfl
@[simp] theorem Strand.setSPair_sig (k : Strand) (r : Nat) (w : Dword) : (k.setSPair r w).sig = k.sig := rfl
@[simp] theorem Strand.setSPair_sigPend (k : Strand) (r : Nat) (w : Dword) : (k.setSPair r w).sigPend = k.sigPend := rfl
@[simp] theorem Strand.setSPair_region (k : Strand) (r : Nat) (w : Dword) : (k.setSPair r w).region = k.region := rfl
@[simp] theorem Strand.setSPair_regionpc (k : Strand) (r : Nat) (w : Dword) : (k.setSPair r w).regionpc = k.regionpc := rfl
@[simp] theorem Strand.setSPair_usigsv (k : Strand) (r : Nat) (w : Dword) : (k.setSPair r w).usigsv = k.usigsv := rfl
@[simp] theorem Strand.setSPair_usigpv (k : Strand) (r : Nat) (w : Dword) : (k.setSPair r w).usigpv = k.usigpv := rfl
@[simp] theorem Strand.setSPair_chk (k : Strand) (r : Nat) (w : Dword) : (k.setSPair r w).chk = k.chk := rfl
@[simp] theorem Strand.setSPair_pvec (k : Strand) (r : Nat) (w : Dword) : (k.setSPair r w).pvec = k.pvec := rfl
@[simp] theorem Strand.setSPair_pepc (k : Strand) (r : Nat) (w : Dword) : (k.setSPair r w).pepc = k.pepc := rfl
@[simp] theorem Strand.setSPair_pcause (k : Strand) (r : Nat) (w : Dword) : (k.setSPair r w).pcause = k.pcause := rfl
@[simp] theorem Strand.setSPair_pmask (k : Strand) (r : Nat) (w : Dword) : (k.setSPair r w).pmask = k.pmask := rfl
@[simp] theorem Strand.setSPair_pva (k : Strand) (r : Nat) (w : Dword) : (k.setSPair r w).pva = k.pva := rfl
@[simp] theorem Strand.setSPair_pfpc (k : Strand) (r : Nat) (w : Dword) : (k.setSPair r w).pfpc = k.pfpc := rfl
@[simp] theorem Strand.setSPair_pregion (k : Strand) (r : Nat) (w : Dword) : (k.setSPair r w).pregion = k.pregion := rfl
@[simp] theorem Strand.setSPair_psigsv (k : Strand) (r : Nat) (w : Dword) : (k.setSPair r w).psigsv = k.psigsv := rfl
@[simp] theorem Strand.setSPair_psigpv (k : Strand) (r : Nat) (w : Dword) : (k.setSPair r w).psigpv = k.psigpv := rfl
@[simp] theorem Strand.setSPair_psave (k : Strand) (r : Nat) (w : Dword) : (k.setSPair r w).psave = k.psave := rfl
@[simp] theorem Strand.setSPair_rv (k : Strand) (r : Nat) (w : Dword) : (k.setSPair r w).rv = k.rv := rfl
@[simp] theorem Strand.setSPair_ph (k : Strand) (r : Nat) (w : Dword) : (k.setSPair r w).ph = k.ph := rfl
@[simp] theorem Strand.setSPair_uh (k : Strand) (r : Nat) (w : Dword) : (k.setSPair r w).uh = k.uh := rfl
@[simp] theorem Strand.setSPair_ss (k : Strand) (r : Nat) (w : Dword) : (k.setSPair r w).ss = k.ss := rfl
@[simp] theorem Strand.setSPair_stepDue (k : Strand) (r : Nat) (w : Dword) : (k.setSPair r w).stepDue = k.stepDue := rfl
@[simp] theorem Strand.setSPair_trapAt (k : Strand) (r : Nat) (w : Dword) : (k.setSPair r w).trapAt = k.trapAt := rfl
@[simp] theorem Strand.setSPair_stopDue (k : Strand) (r : Nat) (w : Dword) : (k.setSPair r w).stopDue = k.stopDue := rfl
@[simp] theorem Strand.setSPair_stopped (k : Strand) (r : Nat) (w : Dword) : (k.setSPair r w).stopped = k.stopped := rfl
@[simp] theorem Strand.setSPair_faults (k : Strand) (r : Nat) (w : Dword) : (k.setSPair r w).faults = k.faults := rfl
@[simp] theorem Strand.setSPair_hostBreak (k : Strand) (r : Nat) (w : Dword) : (k.setSPair r w).hostBreak = k.hostBreak := rfl
@[simp] theorem Strand.setSPair_ready (k : Strand) (r : Nat) (w : Dword) : (k.setSPair r w).ready = k.ready := rfl
@[simp] theorem Strand.setSPair_late (k : Strand) (r : Nat) (w : Dword) : (k.setSPair r w).late = k.late := rfl
@[simp] theorem Strand.setSPair_passP (k : Strand) (r : Nat) (w : Dword) : (k.setSPair r w).passP = k.passP := rfl
@[simp] theorem Strand.setSPair_passH (k : Strand) (r : Nat) (w : Dword) : (k.setSPair r w).passH = k.passH := rfl
@[simp] theorem Strand.setSPair_lane (k : Strand) (r : Nat) (w : Dword) : (k.setSPair r w).lane = k.lane := rfl
@[simp] theorem Strand.setSPair_slot (k : Strand) (r : Nat) (w : Dword) : (k.setSPair r w).slot = k.slot := rfl
@[simp] theorem Strand.setSPair_why (k : Strand) (r : Nat) (w : Dword) : (k.setSPair r w).why = k.why := rfl
@[simp] theorem Strand.setSPair_skein (k : Strand) (r : Nat) (w : Dword) : (k.setSPair r w).skein = k.skein := rfl
@[simp] theorem Strand.setSPair_wait (k : Strand) (r : Nat) (w : Dword) : (k.setSPair r w).wait = k.wait := rfl
@[simp] theorem Strand.setSPair_po (k : Strand) (r : Nat) (w : Dword) : (k.setSPair r w).po = k.po := rfl
@[simp] theorem Strand.setSPair_seen (k : Strand) (r : Nat) (w : Dword) : (k.setSPair r w).seen = k.seen := rfl
@[simp] theorem Strand.setSPair_since (k : Strand) (r : Nat) (w : Dword) : (k.setSPair r w).since = k.since := rfl
@[simp] theorem Strand.setSPair_ended (k : Strand) (r : Nat) (w : Dword) : (k.setSPair r w).ended = k.ended := rfl
@[simp] theorem Strand.setSPair_shash (k : Strand) (r : Nat) (w : Dword) : (k.setSPair r w).shash = k.shash := rfl
@[simp] theorem Strand.setSPair_bad (k : Strand) (r : Nat) (w : Dword) : (k.setSPair r w).bad = k.bad := rfl

@[simp] theorem Strand.setM_v (k : Strand) (r : Nat) (w : Word) : (k.setM r w).v = k.v := rfl
@[simp] theorem Strand.setM_s (k : Strand) (r : Nat) (w : Word) : (k.setM r w).s = k.s := rfl
@[simp] theorem Strand.setM_m (k : Strand) (r : Nat) (w : Word) : (k.setM r w).m = k.m.set r w := rfl
@[simp] theorem Strand.setM_mpar (k : Strand) (r : Nat) (w : Word) : (k.setM r w).mpar = if parity w then k.mpar ||| 1#8 <<< r else k.mpar &&& ~~~(1#8 <<< r) := by simp only [Strand.setM]
@[simp] theorem Strand.setM_m0bad (k : Strand) (r : Nat) (w : Word) : (k.setM r w).m0bad = k.m0bad := rfl
@[simp] theorem Strand.setM_h (k : Strand) (r : Nat) (w : Word) : (k.setM r w).h = k.h := rfl
@[simp] theorem Strand.setM_mask (k : Strand) (r : Nat) (w : Word) : (k.setM r w).mask = k.mask := rfl
@[simp] theorem Strand.setM_pc (k : Strand) (r : Nat) (w : Word) : (k.setM r w).pc = k.pc := rfl
@[simp] theorem Strand.setM_groups (k : Strand) (r : Nat) (w : Word) : (k.setM r w).groups = k.groups := rfl
@[simp] theorem Strand.setM_exited (k : Strand) (r : Nat) (w : Word) : (k.setM r w).exited = k.exited := rfl
@[simp] theorem Strand.setM_parked (k : Strand) (r : Nat) (w : Word) : (k.setM r w).parked = k.parked := rfl
@[simp] theorem Strand.setM_asleep (k : Strand) (r : Nat) (w : Word) : (k.setM r w).asleep = k.asleep := rfl
@[simp] theorem Strand.setM_sleepers (k : Strand) (r : Nat) (w : Word) : (k.setM r w).sleepers = k.sleepers := rfl
@[simp] theorem Strand.setM_entry (k : Strand) (r : Nat) (w : Word) : (k.setM r w).entry = k.entry := rfl
@[simp] theorem Strand.setM_drain (k : Strand) (r : Nat) (w : Word) : (k.setM r w).drain = k.drain := rfl
@[simp] theorem Strand.setM_fetchHeld (k : Strand) (r : Nat) (w : Word) : (k.setM r w).fetchHeld = k.fetchHeld := rfl
@[simp] theorem Strand.setM_fpflags (k : Strand) (r : Nat) (w : Word) : (k.setM r w).fpflags = k.fpflags := rfl
@[simp] theorem Strand.setM_ivt (k : Strand) (r : Nat) (w : Word) : (k.setM r w).ivt = k.ivt := rfl
@[simp] theorem Strand.setM_uvec (k : Strand) (r : Nat) (w : Word) : (k.setM r w).uvec = k.uvec := rfl
@[simp] theorem Strand.setM_uepc (k : Strand) (r : Nat) (w : Word) : (k.setM r w).uepc = k.uepc := rfl
@[simp] theorem Strand.setM_ucause (k : Strand) (r : Nat) (w : Word) : (k.setM r w).ucause = k.ucause := rfl
@[simp] theorem Strand.setM_tmrcmp (k : Strand) (r : Nat) (w : Word) : (k.setM r w).tmrcmp = k.tmrcmp := rfl
@[simp] theorem Strand.setM_tmrArmed (k : Strand) (r : Nat) (w : Word) : (k.setM r w).tmrArmed = k.tmrArmed := rfl
@[simp] theorem Strand.setM_sig (k : Strand) (r : Nat) (w : Word) : (k.setM r w).sig = k.sig := rfl
@[simp] theorem Strand.setM_sigPend (k : Strand) (r : Nat) (w : Word) : (k.setM r w).sigPend = k.sigPend := rfl
@[simp] theorem Strand.setM_region (k : Strand) (r : Nat) (w : Word) : (k.setM r w).region = k.region := rfl
@[simp] theorem Strand.setM_regionpc (k : Strand) (r : Nat) (w : Word) : (k.setM r w).regionpc = k.regionpc := rfl
@[simp] theorem Strand.setM_usigsv (k : Strand) (r : Nat) (w : Word) : (k.setM r w).usigsv = k.usigsv := rfl
@[simp] theorem Strand.setM_usigpv (k : Strand) (r : Nat) (w : Word) : (k.setM r w).usigpv = k.usigpv := rfl
@[simp] theorem Strand.setM_chk (k : Strand) (r : Nat) (w : Word) : (k.setM r w).chk = k.chk := rfl
@[simp] theorem Strand.setM_pvec (k : Strand) (r : Nat) (w : Word) : (k.setM r w).pvec = k.pvec := rfl
@[simp] theorem Strand.setM_pepc (k : Strand) (r : Nat) (w : Word) : (k.setM r w).pepc = k.pepc := rfl
@[simp] theorem Strand.setM_pcause (k : Strand) (r : Nat) (w : Word) : (k.setM r w).pcause = k.pcause := rfl
@[simp] theorem Strand.setM_pmask (k : Strand) (r : Nat) (w : Word) : (k.setM r w).pmask = k.pmask := rfl
@[simp] theorem Strand.setM_pva (k : Strand) (r : Nat) (w : Word) : (k.setM r w).pva = k.pva := rfl
@[simp] theorem Strand.setM_pfpc (k : Strand) (r : Nat) (w : Word) : (k.setM r w).pfpc = k.pfpc := rfl
@[simp] theorem Strand.setM_pregion (k : Strand) (r : Nat) (w : Word) : (k.setM r w).pregion = k.pregion := rfl
@[simp] theorem Strand.setM_psigsv (k : Strand) (r : Nat) (w : Word) : (k.setM r w).psigsv = k.psigsv := rfl
@[simp] theorem Strand.setM_psigpv (k : Strand) (r : Nat) (w : Word) : (k.setM r w).psigpv = k.psigpv := rfl
@[simp] theorem Strand.setM_psave (k : Strand) (r : Nat) (w : Word) : (k.setM r w).psave = k.psave := rfl
@[simp] theorem Strand.setM_rv (k : Strand) (r : Nat) (w : Word) : (k.setM r w).rv = k.rv := rfl
@[simp] theorem Strand.setM_ph (k : Strand) (r : Nat) (w : Word) : (k.setM r w).ph = k.ph := rfl
@[simp] theorem Strand.setM_uh (k : Strand) (r : Nat) (w : Word) : (k.setM r w).uh = k.uh := rfl
@[simp] theorem Strand.setM_ss (k : Strand) (r : Nat) (w : Word) : (k.setM r w).ss = k.ss := rfl
@[simp] theorem Strand.setM_stepDue (k : Strand) (r : Nat) (w : Word) : (k.setM r w).stepDue = k.stepDue := rfl
@[simp] theorem Strand.setM_trapAt (k : Strand) (r : Nat) (w : Word) : (k.setM r w).trapAt = k.trapAt := rfl
@[simp] theorem Strand.setM_stopDue (k : Strand) (r : Nat) (w : Word) : (k.setM r w).stopDue = k.stopDue := rfl
@[simp] theorem Strand.setM_stopped (k : Strand) (r : Nat) (w : Word) : (k.setM r w).stopped = k.stopped := rfl
@[simp] theorem Strand.setM_faults (k : Strand) (r : Nat) (w : Word) : (k.setM r w).faults = k.faults := rfl
@[simp] theorem Strand.setM_hostBreak (k : Strand) (r : Nat) (w : Word) : (k.setM r w).hostBreak = k.hostBreak := rfl
@[simp] theorem Strand.setM_ready (k : Strand) (r : Nat) (w : Word) : (k.setM r w).ready = k.ready := rfl
@[simp] theorem Strand.setM_late (k : Strand) (r : Nat) (w : Word) : (k.setM r w).late = k.late := rfl
@[simp] theorem Strand.setM_passP (k : Strand) (r : Nat) (w : Word) : (k.setM r w).passP = k.passP := rfl
@[simp] theorem Strand.setM_passH (k : Strand) (r : Nat) (w : Word) : (k.setM r w).passH = k.passH := rfl
@[simp] theorem Strand.setM_lane (k : Strand) (r : Nat) (w : Word) : (k.setM r w).lane = k.lane := rfl
@[simp] theorem Strand.setM_slot (k : Strand) (r : Nat) (w : Word) : (k.setM r w).slot = k.slot := rfl
@[simp] theorem Strand.setM_why (k : Strand) (r : Nat) (w : Word) : (k.setM r w).why = k.why := rfl
@[simp] theorem Strand.setM_skein (k : Strand) (r : Nat) (w : Word) : (k.setM r w).skein = k.skein := rfl
@[simp] theorem Strand.setM_wait (k : Strand) (r : Nat) (w : Word) : (k.setM r w).wait = k.wait := rfl
@[simp] theorem Strand.setM_po (k : Strand) (r : Nat) (w : Word) : (k.setM r w).po = k.po := rfl
@[simp] theorem Strand.setM_seen (k : Strand) (r : Nat) (w : Word) : (k.setM r w).seen = k.seen := rfl
@[simp] theorem Strand.setM_since (k : Strand) (r : Nat) (w : Word) : (k.setM r w).since = k.since := rfl
@[simp] theorem Strand.setM_ended (k : Strand) (r : Nat) (w : Word) : (k.setM r w).ended = k.ended := rfl
@[simp] theorem Strand.setM_shash (k : Strand) (r : Nat) (w : Word) : (k.setM r w).shash = k.shash := rfl
@[simp] theorem Strand.setM_bad (k : Strand) (r : Nat) (w : Word) : (k.setM r w).bad = k.bad := rfl

@[simp] theorem Strand.setH_v (k : Strand) (r : Nat) (t : Option Word) : (k.setH r t).v = k.v := rfl
@[simp] theorem Strand.setH_s (k : Strand) (r : Nat) (t : Option Word) : (k.setH r t).s = k.s := rfl
@[simp] theorem Strand.setH_m (k : Strand) (r : Nat) (t : Option Word) : (k.setH r t).m = k.m := rfl
@[simp] theorem Strand.setH_mpar (k : Strand) (r : Nat) (t : Option Word) : (k.setH r t).mpar = k.mpar := rfl
@[simp] theorem Strand.setH_m0bad (k : Strand) (r : Nat) (t : Option Word) : (k.setH r t).m0bad = k.m0bad := rfl
@[simp] theorem Strand.setH_h (k : Strand) (r : Nat) (t : Option Word) : (k.setH r t).h = k.h.put r t := rfl
@[simp] theorem Strand.setH_mask (k : Strand) (r : Nat) (t : Option Word) : (k.setH r t).mask = k.mask := rfl
@[simp] theorem Strand.setH_pc (k : Strand) (r : Nat) (t : Option Word) : (k.setH r t).pc = k.pc := rfl
@[simp] theorem Strand.setH_groups (k : Strand) (r : Nat) (t : Option Word) : (k.setH r t).groups = k.groups := rfl
@[simp] theorem Strand.setH_exited (k : Strand) (r : Nat) (t : Option Word) : (k.setH r t).exited = k.exited := rfl
@[simp] theorem Strand.setH_parked (k : Strand) (r : Nat) (t : Option Word) : (k.setH r t).parked = k.parked := rfl
@[simp] theorem Strand.setH_asleep (k : Strand) (r : Nat) (t : Option Word) : (k.setH r t).asleep = k.asleep := rfl
@[simp] theorem Strand.setH_sleepers (k : Strand) (r : Nat) (t : Option Word) : (k.setH r t).sleepers = k.sleepers := rfl
@[simp] theorem Strand.setH_entry (k : Strand) (r : Nat) (t : Option Word) : (k.setH r t).entry = k.entry := rfl
@[simp] theorem Strand.setH_drain (k : Strand) (r : Nat) (t : Option Word) : (k.setH r t).drain = k.drain := rfl
@[simp] theorem Strand.setH_fetchHeld (k : Strand) (r : Nat) (t : Option Word) : (k.setH r t).fetchHeld = k.fetchHeld := rfl
@[simp] theorem Strand.setH_fpflags (k : Strand) (r : Nat) (t : Option Word) : (k.setH r t).fpflags = k.fpflags := rfl
@[simp] theorem Strand.setH_ivt (k : Strand) (r : Nat) (t : Option Word) : (k.setH r t).ivt = k.ivt := rfl
@[simp] theorem Strand.setH_uvec (k : Strand) (r : Nat) (t : Option Word) : (k.setH r t).uvec = k.uvec := rfl
@[simp] theorem Strand.setH_uepc (k : Strand) (r : Nat) (t : Option Word) : (k.setH r t).uepc = k.uepc := rfl
@[simp] theorem Strand.setH_ucause (k : Strand) (r : Nat) (t : Option Word) : (k.setH r t).ucause = k.ucause := rfl
@[simp] theorem Strand.setH_tmrcmp (k : Strand) (r : Nat) (t : Option Word) : (k.setH r t).tmrcmp = k.tmrcmp := rfl
@[simp] theorem Strand.setH_tmrArmed (k : Strand) (r : Nat) (t : Option Word) : (k.setH r t).tmrArmed = k.tmrArmed := rfl
@[simp] theorem Strand.setH_sig (k : Strand) (r : Nat) (t : Option Word) : (k.setH r t).sig = k.sig := rfl
@[simp] theorem Strand.setH_sigPend (k : Strand) (r : Nat) (t : Option Word) : (k.setH r t).sigPend = k.sigPend := rfl
@[simp] theorem Strand.setH_region (k : Strand) (r : Nat) (t : Option Word) : (k.setH r t).region = k.region := rfl
@[simp] theorem Strand.setH_regionpc (k : Strand) (r : Nat) (t : Option Word) : (k.setH r t).regionpc = k.regionpc := rfl
@[simp] theorem Strand.setH_usigsv (k : Strand) (r : Nat) (t : Option Word) : (k.setH r t).usigsv = k.usigsv := rfl
@[simp] theorem Strand.setH_usigpv (k : Strand) (r : Nat) (t : Option Word) : (k.setH r t).usigpv = k.usigpv := rfl
@[simp] theorem Strand.setH_chk (k : Strand) (r : Nat) (t : Option Word) : (k.setH r t).chk = k.chk := rfl
@[simp] theorem Strand.setH_pvec (k : Strand) (r : Nat) (t : Option Word) : (k.setH r t).pvec = k.pvec := rfl
@[simp] theorem Strand.setH_pepc (k : Strand) (r : Nat) (t : Option Word) : (k.setH r t).pepc = k.pepc := rfl
@[simp] theorem Strand.setH_pcause (k : Strand) (r : Nat) (t : Option Word) : (k.setH r t).pcause = k.pcause := rfl
@[simp] theorem Strand.setH_pmask (k : Strand) (r : Nat) (t : Option Word) : (k.setH r t).pmask = k.pmask := rfl
@[simp] theorem Strand.setH_pva (k : Strand) (r : Nat) (t : Option Word) : (k.setH r t).pva = k.pva := rfl
@[simp] theorem Strand.setH_pfpc (k : Strand) (r : Nat) (t : Option Word) : (k.setH r t).pfpc = k.pfpc := rfl
@[simp] theorem Strand.setH_pregion (k : Strand) (r : Nat) (t : Option Word) : (k.setH r t).pregion = k.pregion := rfl
@[simp] theorem Strand.setH_psigsv (k : Strand) (r : Nat) (t : Option Word) : (k.setH r t).psigsv = k.psigsv := rfl
@[simp] theorem Strand.setH_psigpv (k : Strand) (r : Nat) (t : Option Word) : (k.setH r t).psigpv = k.psigpv := rfl
@[simp] theorem Strand.setH_psave (k : Strand) (r : Nat) (t : Option Word) : (k.setH r t).psave = k.psave := rfl
@[simp] theorem Strand.setH_rv (k : Strand) (r : Nat) (t : Option Word) : (k.setH r t).rv = k.rv := rfl
@[simp] theorem Strand.setH_ph (k : Strand) (r : Nat) (t : Option Word) : (k.setH r t).ph = k.ph := rfl
@[simp] theorem Strand.setH_uh (k : Strand) (r : Nat) (t : Option Word) : (k.setH r t).uh = k.uh := rfl
@[simp] theorem Strand.setH_ss (k : Strand) (r : Nat) (t : Option Word) : (k.setH r t).ss = k.ss := rfl
@[simp] theorem Strand.setH_stepDue (k : Strand) (r : Nat) (t : Option Word) : (k.setH r t).stepDue = k.stepDue := rfl
@[simp] theorem Strand.setH_trapAt (k : Strand) (r : Nat) (t : Option Word) : (k.setH r t).trapAt = k.trapAt := rfl
@[simp] theorem Strand.setH_stopDue (k : Strand) (r : Nat) (t : Option Word) : (k.setH r t).stopDue = k.stopDue := rfl
@[simp] theorem Strand.setH_stopped (k : Strand) (r : Nat) (t : Option Word) : (k.setH r t).stopped = k.stopped := rfl
@[simp] theorem Strand.setH_faults (k : Strand) (r : Nat) (t : Option Word) : (k.setH r t).faults = k.faults := rfl
@[simp] theorem Strand.setH_hostBreak (k : Strand) (r : Nat) (t : Option Word) : (k.setH r t).hostBreak = k.hostBreak := rfl
@[simp] theorem Strand.setH_ready (k : Strand) (r : Nat) (t : Option Word) : (k.setH r t).ready = k.ready := rfl
@[simp] theorem Strand.setH_late (k : Strand) (r : Nat) (t : Option Word) : (k.setH r t).late = k.late := rfl
@[simp] theorem Strand.setH_passP (k : Strand) (r : Nat) (t : Option Word) : (k.setH r t).passP = k.passP := rfl
@[simp] theorem Strand.setH_passH (k : Strand) (r : Nat) (t : Option Word) : (k.setH r t).passH = k.passH := rfl
@[simp] theorem Strand.setH_lane (k : Strand) (r : Nat) (t : Option Word) : (k.setH r t).lane = k.lane := rfl
@[simp] theorem Strand.setH_slot (k : Strand) (r : Nat) (t : Option Word) : (k.setH r t).slot = k.slot := rfl
@[simp] theorem Strand.setH_why (k : Strand) (r : Nat) (t : Option Word) : (k.setH r t).why = k.why := rfl
@[simp] theorem Strand.setH_skein (k : Strand) (r : Nat) (t : Option Word) : (k.setH r t).skein = k.skein := rfl
@[simp] theorem Strand.setH_wait (k : Strand) (r : Nat) (t : Option Word) : (k.setH r t).wait = k.wait := rfl
@[simp] theorem Strand.setH_po (k : Strand) (r : Nat) (t : Option Word) : (k.setH r t).po = k.po := rfl
@[simp] theorem Strand.setH_seen (k : Strand) (r : Nat) (t : Option Word) : (k.setH r t).seen = k.seen := rfl
@[simp] theorem Strand.setH_since (k : Strand) (r : Nat) (t : Option Word) : (k.setH r t).since = k.since := rfl
@[simp] theorem Strand.setH_ended (k : Strand) (r : Nat) (t : Option Word) : (k.setH r t).ended = k.ended := rfl
@[simp] theorem Strand.setH_shash (k : Strand) (r : Nat) (t : Option Word) : (k.setH r t).shash = k.shash := rfl
@[simp] theorem Strand.setH_bad (k : Strand) (r : Nat) (t : Option Word) : (k.setH r t).bad = k.bad := rfl

@[simp] theorem Strand.raise_v (k : Strand) (f : Fp.Flags) : (k.raise f).v = k.v := rfl
@[simp] theorem Strand.raise_s (k : Strand) (f : Fp.Flags) : (k.raise f).s = k.s := rfl
@[simp] theorem Strand.raise_m (k : Strand) (f : Fp.Flags) : (k.raise f).m = k.m := rfl
@[simp] theorem Strand.raise_mpar (k : Strand) (f : Fp.Flags) : (k.raise f).mpar = k.mpar := rfl
@[simp] theorem Strand.raise_m0bad (k : Strand) (f : Fp.Flags) : (k.raise f).m0bad = k.m0bad := rfl
@[simp] theorem Strand.raise_h (k : Strand) (f : Fp.Flags) : (k.raise f).h = k.h := rfl
@[simp] theorem Strand.raise_mask (k : Strand) (f : Fp.Flags) : (k.raise f).mask = k.mask := rfl
@[simp] theorem Strand.raise_pc (k : Strand) (f : Fp.Flags) : (k.raise f).pc = k.pc := rfl
@[simp] theorem Strand.raise_groups (k : Strand) (f : Fp.Flags) : (k.raise f).groups = k.groups := rfl
@[simp] theorem Strand.raise_exited (k : Strand) (f : Fp.Flags) : (k.raise f).exited = k.exited := rfl
@[simp] theorem Strand.raise_parked (k : Strand) (f : Fp.Flags) : (k.raise f).parked = k.parked := rfl
@[simp] theorem Strand.raise_asleep (k : Strand) (f : Fp.Flags) : (k.raise f).asleep = k.asleep := rfl
@[simp] theorem Strand.raise_sleepers (k : Strand) (f : Fp.Flags) : (k.raise f).sleepers = k.sleepers := rfl
@[simp] theorem Strand.raise_entry (k : Strand) (f : Fp.Flags) : (k.raise f).entry = k.entry := rfl
@[simp] theorem Strand.raise_drain (k : Strand) (f : Fp.Flags) : (k.raise f).drain = k.drain := rfl
@[simp] theorem Strand.raise_fetchHeld (k : Strand) (f : Fp.Flags) : (k.raise f).fetchHeld = k.fetchHeld := rfl
@[simp] theorem Strand.raise_fpflags (k : Strand) (f : Fp.Flags) : (k.raise f).fpflags = k.fpflags ||| f := rfl
@[simp] theorem Strand.raise_ivt (k : Strand) (f : Fp.Flags) : (k.raise f).ivt = k.ivt := rfl
@[simp] theorem Strand.raise_uvec (k : Strand) (f : Fp.Flags) : (k.raise f).uvec = k.uvec := rfl
@[simp] theorem Strand.raise_uepc (k : Strand) (f : Fp.Flags) : (k.raise f).uepc = k.uepc := rfl
@[simp] theorem Strand.raise_ucause (k : Strand) (f : Fp.Flags) : (k.raise f).ucause = k.ucause := rfl
@[simp] theorem Strand.raise_tmrcmp (k : Strand) (f : Fp.Flags) : (k.raise f).tmrcmp = k.tmrcmp := rfl
@[simp] theorem Strand.raise_tmrArmed (k : Strand) (f : Fp.Flags) : (k.raise f).tmrArmed = k.tmrArmed := rfl
@[simp] theorem Strand.raise_sig (k : Strand) (f : Fp.Flags) : (k.raise f).sig = k.sig := rfl
@[simp] theorem Strand.raise_sigPend (k : Strand) (f : Fp.Flags) : (k.raise f).sigPend = k.sigPend := rfl
@[simp] theorem Strand.raise_region (k : Strand) (f : Fp.Flags) : (k.raise f).region = k.region := rfl
@[simp] theorem Strand.raise_regionpc (k : Strand) (f : Fp.Flags) : (k.raise f).regionpc = k.regionpc := rfl
@[simp] theorem Strand.raise_usigsv (k : Strand) (f : Fp.Flags) : (k.raise f).usigsv = k.usigsv := rfl
@[simp] theorem Strand.raise_usigpv (k : Strand) (f : Fp.Flags) : (k.raise f).usigpv = k.usigpv := rfl
@[simp] theorem Strand.raise_chk (k : Strand) (f : Fp.Flags) : (k.raise f).chk = k.chk := rfl
@[simp] theorem Strand.raise_pvec (k : Strand) (f : Fp.Flags) : (k.raise f).pvec = k.pvec := rfl
@[simp] theorem Strand.raise_pepc (k : Strand) (f : Fp.Flags) : (k.raise f).pepc = k.pepc := rfl
@[simp] theorem Strand.raise_pcause (k : Strand) (f : Fp.Flags) : (k.raise f).pcause = k.pcause := rfl
@[simp] theorem Strand.raise_pmask (k : Strand) (f : Fp.Flags) : (k.raise f).pmask = k.pmask := rfl
@[simp] theorem Strand.raise_pva (k : Strand) (f : Fp.Flags) : (k.raise f).pva = k.pva := rfl
@[simp] theorem Strand.raise_pfpc (k : Strand) (f : Fp.Flags) : (k.raise f).pfpc = k.pfpc := rfl
@[simp] theorem Strand.raise_pregion (k : Strand) (f : Fp.Flags) : (k.raise f).pregion = k.pregion := rfl
@[simp] theorem Strand.raise_psigsv (k : Strand) (f : Fp.Flags) : (k.raise f).psigsv = k.psigsv := rfl
@[simp] theorem Strand.raise_psigpv (k : Strand) (f : Fp.Flags) : (k.raise f).psigpv = k.psigpv := rfl
@[simp] theorem Strand.raise_psave (k : Strand) (f : Fp.Flags) : (k.raise f).psave = k.psave := rfl
@[simp] theorem Strand.raise_rv (k : Strand) (f : Fp.Flags) : (k.raise f).rv = k.rv := rfl
@[simp] theorem Strand.raise_ph (k : Strand) (f : Fp.Flags) : (k.raise f).ph = k.ph := rfl
@[simp] theorem Strand.raise_uh (k : Strand) (f : Fp.Flags) : (k.raise f).uh = k.uh := rfl
@[simp] theorem Strand.raise_ss (k : Strand) (f : Fp.Flags) : (k.raise f).ss = k.ss := rfl
@[simp] theorem Strand.raise_stepDue (k : Strand) (f : Fp.Flags) : (k.raise f).stepDue = k.stepDue := rfl
@[simp] theorem Strand.raise_trapAt (k : Strand) (f : Fp.Flags) : (k.raise f).trapAt = k.trapAt := rfl
@[simp] theorem Strand.raise_stopDue (k : Strand) (f : Fp.Flags) : (k.raise f).stopDue = k.stopDue := rfl
@[simp] theorem Strand.raise_stopped (k : Strand) (f : Fp.Flags) : (k.raise f).stopped = k.stopped := rfl
@[simp] theorem Strand.raise_faults (k : Strand) (f : Fp.Flags) : (k.raise f).faults = k.faults := rfl
@[simp] theorem Strand.raise_hostBreak (k : Strand) (f : Fp.Flags) : (k.raise f).hostBreak = k.hostBreak := rfl
@[simp] theorem Strand.raise_ready (k : Strand) (f : Fp.Flags) : (k.raise f).ready = k.ready := rfl
@[simp] theorem Strand.raise_late (k : Strand) (f : Fp.Flags) : (k.raise f).late = k.late := rfl
@[simp] theorem Strand.raise_passP (k : Strand) (f : Fp.Flags) : (k.raise f).passP = k.passP := rfl
@[simp] theorem Strand.raise_passH (k : Strand) (f : Fp.Flags) : (k.raise f).passH = k.passH := rfl
@[simp] theorem Strand.raise_lane (k : Strand) (f : Fp.Flags) : (k.raise f).lane = k.lane := rfl
@[simp] theorem Strand.raise_slot (k : Strand) (f : Fp.Flags) : (k.raise f).slot = k.slot := rfl
@[simp] theorem Strand.raise_why (k : Strand) (f : Fp.Flags) : (k.raise f).why = k.why := rfl
@[simp] theorem Strand.raise_skein (k : Strand) (f : Fp.Flags) : (k.raise f).skein = k.skein := rfl
@[simp] theorem Strand.raise_wait (k : Strand) (f : Fp.Flags) : (k.raise f).wait = k.wait := rfl
@[simp] theorem Strand.raise_po (k : Strand) (f : Fp.Flags) : (k.raise f).po = k.po := rfl
@[simp] theorem Strand.raise_seen (k : Strand) (f : Fp.Flags) : (k.raise f).seen = k.seen := rfl
@[simp] theorem Strand.raise_since (k : Strand) (f : Fp.Flags) : (k.raise f).since = k.since := rfl
@[simp] theorem Strand.raise_ended (k : Strand) (f : Fp.Flags) : (k.raise f).ended = k.ended := rfl
@[simp] theorem Strand.raise_shash (k : Strand) (f : Fp.Flags) : (k.raise f).shash = k.shash := rfl
@[simp] theorem Strand.raise_bad (k : Strand) (f : Fp.Flags) : (k.raise f).bad = k.bad := rfl

@[simp] theorem Strand.fold_v (k : Strand) (i : Instr) : (k.fold i).v = k.v := rfl
@[simp] theorem Strand.fold_s (k : Strand) (i : Instr) : (k.fold i).s = k.s := rfl
@[simp] theorem Strand.fold_m (k : Strand) (i : Instr) : (k.fold i).m = k.m := rfl
@[simp] theorem Strand.fold_mpar (k : Strand) (i : Instr) : (k.fold i).mpar = k.mpar := rfl
@[simp] theorem Strand.fold_m0bad (k : Strand) (i : Instr) : (k.fold i).m0bad = k.m0bad := rfl
@[simp] theorem Strand.fold_h (k : Strand) (i : Instr) : (k.fold i).h = k.h := rfl
@[simp] theorem Strand.fold_mask (k : Strand) (i : Instr) : (k.fold i).mask = k.mask := rfl
@[simp] theorem Strand.fold_pc (k : Strand) (i : Instr) : (k.fold i).pc = k.pc := rfl
@[simp] theorem Strand.fold_groups (k : Strand) (i : Instr) : (k.fold i).groups = k.groups := rfl
@[simp] theorem Strand.fold_exited (k : Strand) (i : Instr) : (k.fold i).exited = k.exited := rfl
@[simp] theorem Strand.fold_parked (k : Strand) (i : Instr) : (k.fold i).parked = k.parked := rfl
@[simp] theorem Strand.fold_asleep (k : Strand) (i : Instr) : (k.fold i).asleep = k.asleep := rfl
@[simp] theorem Strand.fold_sleepers (k : Strand) (i : Instr) : (k.fold i).sleepers = k.sleepers := rfl
@[simp] theorem Strand.fold_entry (k : Strand) (i : Instr) : (k.fold i).entry = k.entry := rfl
@[simp] theorem Strand.fold_drain (k : Strand) (i : Instr) : (k.fold i).drain = k.drain := rfl
@[simp] theorem Strand.fold_fetchHeld (k : Strand) (i : Instr) : (k.fold i).fetchHeld = k.fetchHeld := rfl
@[simp] theorem Strand.fold_fpflags (k : Strand) (i : Instr) : (k.fold i).fpflags = k.fpflags := rfl
@[simp] theorem Strand.fold_ivt (k : Strand) (i : Instr) : (k.fold i).ivt = k.ivt := rfl
@[simp] theorem Strand.fold_uvec (k : Strand) (i : Instr) : (k.fold i).uvec = k.uvec := rfl
@[simp] theorem Strand.fold_uepc (k : Strand) (i : Instr) : (k.fold i).uepc = k.uepc := rfl
@[simp] theorem Strand.fold_ucause (k : Strand) (i : Instr) : (k.fold i).ucause = k.ucause := rfl
@[simp] theorem Strand.fold_tmrcmp (k : Strand) (i : Instr) : (k.fold i).tmrcmp = k.tmrcmp := rfl
@[simp] theorem Strand.fold_tmrArmed (k : Strand) (i : Instr) : (k.fold i).tmrArmed = k.tmrArmed := rfl
@[simp] theorem Strand.fold_sig (k : Strand) (i : Instr) : (k.fold i).sig = foldWord k.sig (foldOf i) := rfl
@[simp] theorem Strand.fold_sigPend (k : Strand) (i : Instr) : (k.fold i).sigPend = k.sigPend := rfl
@[simp] theorem Strand.fold_region (k : Strand) (i : Instr) : (k.fold i).region = k.region := rfl
@[simp] theorem Strand.fold_regionpc (k : Strand) (i : Instr) : (k.fold i).regionpc = k.regionpc := rfl
@[simp] theorem Strand.fold_usigsv (k : Strand) (i : Instr) : (k.fold i).usigsv = k.usigsv := rfl
@[simp] theorem Strand.fold_usigpv (k : Strand) (i : Instr) : (k.fold i).usigpv = k.usigpv := rfl
@[simp] theorem Strand.fold_chk (k : Strand) (i : Instr) : (k.fold i).chk = k.chk := rfl
@[simp] theorem Strand.fold_pvec (k : Strand) (i : Instr) : (k.fold i).pvec = k.pvec := rfl
@[simp] theorem Strand.fold_pepc (k : Strand) (i : Instr) : (k.fold i).pepc = k.pepc := rfl
@[simp] theorem Strand.fold_pcause (k : Strand) (i : Instr) : (k.fold i).pcause = k.pcause := rfl
@[simp] theorem Strand.fold_pmask (k : Strand) (i : Instr) : (k.fold i).pmask = k.pmask := rfl
@[simp] theorem Strand.fold_pva (k : Strand) (i : Instr) : (k.fold i).pva = k.pva := rfl
@[simp] theorem Strand.fold_pfpc (k : Strand) (i : Instr) : (k.fold i).pfpc = k.pfpc := rfl
@[simp] theorem Strand.fold_pregion (k : Strand) (i : Instr) : (k.fold i).pregion = k.pregion := rfl
@[simp] theorem Strand.fold_psigsv (k : Strand) (i : Instr) : (k.fold i).psigsv = k.psigsv := rfl
@[simp] theorem Strand.fold_psigpv (k : Strand) (i : Instr) : (k.fold i).psigpv = k.psigpv := rfl
@[simp] theorem Strand.fold_psave (k : Strand) (i : Instr) : (k.fold i).psave = k.psave := rfl
@[simp] theorem Strand.fold_rv (k : Strand) (i : Instr) : (k.fold i).rv = k.rv := rfl
@[simp] theorem Strand.fold_ph (k : Strand) (i : Instr) : (k.fold i).ph = k.ph := rfl
@[simp] theorem Strand.fold_uh (k : Strand) (i : Instr) : (k.fold i).uh = k.uh := rfl
@[simp] theorem Strand.fold_ss (k : Strand) (i : Instr) : (k.fold i).ss = k.ss := rfl
@[simp] theorem Strand.fold_stepDue (k : Strand) (i : Instr) : (k.fold i).stepDue = k.stepDue := rfl
@[simp] theorem Strand.fold_trapAt (k : Strand) (i : Instr) : (k.fold i).trapAt = k.trapAt := rfl
@[simp] theorem Strand.fold_stopDue (k : Strand) (i : Instr) : (k.fold i).stopDue = k.stopDue := rfl
@[simp] theorem Strand.fold_stopped (k : Strand) (i : Instr) : (k.fold i).stopped = k.stopped := rfl
@[simp] theorem Strand.fold_faults (k : Strand) (i : Instr) : (k.fold i).faults = k.faults := rfl
@[simp] theorem Strand.fold_hostBreak (k : Strand) (i : Instr) : (k.fold i).hostBreak = k.hostBreak := rfl
@[simp] theorem Strand.fold_ready (k : Strand) (i : Instr) : (k.fold i).ready = k.ready := rfl
@[simp] theorem Strand.fold_late (k : Strand) (i : Instr) : (k.fold i).late = k.late := rfl
@[simp] theorem Strand.fold_passP (k : Strand) (i : Instr) : (k.fold i).passP = k.passP := rfl
@[simp] theorem Strand.fold_passH (k : Strand) (i : Instr) : (k.fold i).passH = k.passH := rfl
@[simp] theorem Strand.fold_lane (k : Strand) (i : Instr) : (k.fold i).lane = k.lane := rfl
@[simp] theorem Strand.fold_slot (k : Strand) (i : Instr) : (k.fold i).slot = k.slot := rfl
@[simp] theorem Strand.fold_why (k : Strand) (i : Instr) : (k.fold i).why = k.why := rfl
@[simp] theorem Strand.fold_skein (k : Strand) (i : Instr) : (k.fold i).skein = k.skein := rfl
@[simp] theorem Strand.fold_wait (k : Strand) (i : Instr) : (k.fold i).wait = k.wait := rfl
@[simp] theorem Strand.fold_po (k : Strand) (i : Instr) : (k.fold i).po = k.po := rfl
@[simp] theorem Strand.fold_seen (k : Strand) (i : Instr) : (k.fold i).seen = k.seen := rfl
@[simp] theorem Strand.fold_since (k : Strand) (i : Instr) : (k.fold i).since = k.since := rfl
@[simp] theorem Strand.fold_ended (k : Strand) (i : Instr) : (k.fold i).ended = k.ended := rfl
@[simp] theorem Strand.fold_shash (k : Strand) (i : Instr) : (k.fold i).shash = k.shash := rfl
@[simp] theorem Strand.fold_bad (k : Strand) (i : Instr) : (k.fold i).bad = k.bad := rfl

@[simp] theorem Strand.enterBlock_v (k : Strand) : (k.enterBlock).v = k.v := rfl
@[simp] theorem Strand.enterBlock_s (k : Strand) : (k.enterBlock).s = k.s := rfl
@[simp] theorem Strand.enterBlock_m (k : Strand) : (k.enterBlock).m = k.m := rfl
@[simp] theorem Strand.enterBlock_mpar (k : Strand) : (k.enterBlock).mpar = k.mpar := rfl
@[simp] theorem Strand.enterBlock_m0bad (k : Strand) : (k.enterBlock).m0bad = k.m0bad := rfl
@[simp] theorem Strand.enterBlock_h (k : Strand) : (k.enterBlock).h = k.h := rfl
@[simp] theorem Strand.enterBlock_mask (k : Strand) : (k.enterBlock).mask = k.mask := rfl
@[simp] theorem Strand.enterBlock_pc (k : Strand) : (k.enterBlock).pc = k.pc := rfl
@[simp] theorem Strand.enterBlock_groups (k : Strand) : (k.enterBlock).groups = k.groups := rfl
@[simp] theorem Strand.enterBlock_exited (k : Strand) : (k.enterBlock).exited = k.exited := rfl
@[simp] theorem Strand.enterBlock_parked (k : Strand) : (k.enterBlock).parked = k.parked := rfl
@[simp] theorem Strand.enterBlock_asleep (k : Strand) : (k.enterBlock).asleep = k.asleep := rfl
@[simp] theorem Strand.enterBlock_sleepers (k : Strand) : (k.enterBlock).sleepers = k.sleepers := rfl
@[simp] theorem Strand.enterBlock_entry (k : Strand) : (k.enterBlock).entry = false := rfl
@[simp] theorem Strand.enterBlock_drain (k : Strand) : (k.enterBlock).drain = k.drain := rfl
@[simp] theorem Strand.enterBlock_fetchHeld (k : Strand) : (k.enterBlock).fetchHeld = k.fetchHeld := rfl
@[simp] theorem Strand.enterBlock_fpflags (k : Strand) : (k.enterBlock).fpflags = k.fpflags := rfl
@[simp] theorem Strand.enterBlock_ivt (k : Strand) : (k.enterBlock).ivt = k.ivt := rfl
@[simp] theorem Strand.enterBlock_uvec (k : Strand) : (k.enterBlock).uvec = k.uvec := rfl
@[simp] theorem Strand.enterBlock_uepc (k : Strand) : (k.enterBlock).uepc = k.uepc := rfl
@[simp] theorem Strand.enterBlock_ucause (k : Strand) : (k.enterBlock).ucause = k.ucause := rfl
@[simp] theorem Strand.enterBlock_tmrcmp (k : Strand) : (k.enterBlock).tmrcmp = k.tmrcmp := rfl
@[simp] theorem Strand.enterBlock_tmrArmed (k : Strand) : (k.enterBlock).tmrArmed = k.tmrArmed := rfl
@[simp] theorem Strand.enterBlock_sig (k : Strand) : (k.enterBlock).sig = foldWord sigReset sigMarker := rfl
@[simp] theorem Strand.enterBlock_sigPend (k : Strand) : (k.enterBlock).sigPend = none := rfl
@[simp] theorem Strand.enterBlock_region (k : Strand) : (k.enterBlock).region = k.region := rfl
@[simp] theorem Strand.enterBlock_regionpc (k : Strand) : (k.enterBlock).regionpc = k.regionpc := rfl
@[simp] theorem Strand.enterBlock_usigsv (k : Strand) : (k.enterBlock).usigsv = k.usigsv := rfl
@[simp] theorem Strand.enterBlock_usigpv (k : Strand) : (k.enterBlock).usigpv = k.usigpv := rfl
@[simp] theorem Strand.enterBlock_chk (k : Strand) : (k.enterBlock).chk = k.chk := rfl
@[simp] theorem Strand.enterBlock_pvec (k : Strand) : (k.enterBlock).pvec = k.pvec := rfl
@[simp] theorem Strand.enterBlock_pepc (k : Strand) : (k.enterBlock).pepc = k.pepc := rfl
@[simp] theorem Strand.enterBlock_pcause (k : Strand) : (k.enterBlock).pcause = k.pcause := rfl
@[simp] theorem Strand.enterBlock_pmask (k : Strand) : (k.enterBlock).pmask = k.pmask := rfl
@[simp] theorem Strand.enterBlock_pva (k : Strand) : (k.enterBlock).pva = k.pva := rfl
@[simp] theorem Strand.enterBlock_pfpc (k : Strand) : (k.enterBlock).pfpc = k.pfpc := rfl
@[simp] theorem Strand.enterBlock_pregion (k : Strand) : (k.enterBlock).pregion = k.pregion := rfl
@[simp] theorem Strand.enterBlock_psigsv (k : Strand) : (k.enterBlock).psigsv = k.psigsv := rfl
@[simp] theorem Strand.enterBlock_psigpv (k : Strand) : (k.enterBlock).psigpv = k.psigpv := rfl
@[simp] theorem Strand.enterBlock_psave (k : Strand) : (k.enterBlock).psave = k.psave := rfl
@[simp] theorem Strand.enterBlock_rv (k : Strand) : (k.enterBlock).rv = k.rv := rfl
@[simp] theorem Strand.enterBlock_ph (k : Strand) : (k.enterBlock).ph = k.ph := rfl
@[simp] theorem Strand.enterBlock_uh (k : Strand) : (k.enterBlock).uh = k.uh := rfl
@[simp] theorem Strand.enterBlock_ss (k : Strand) : (k.enterBlock).ss = k.ss := rfl
@[simp] theorem Strand.enterBlock_stepDue (k : Strand) : (k.enterBlock).stepDue = k.stepDue := rfl
@[simp] theorem Strand.enterBlock_trapAt (k : Strand) : (k.enterBlock).trapAt = k.trapAt := rfl
@[simp] theorem Strand.enterBlock_stopDue (k : Strand) : (k.enterBlock).stopDue = k.stopDue := rfl
@[simp] theorem Strand.enterBlock_stopped (k : Strand) : (k.enterBlock).stopped = k.stopped := rfl
@[simp] theorem Strand.enterBlock_faults (k : Strand) : (k.enterBlock).faults = k.faults := rfl
@[simp] theorem Strand.enterBlock_hostBreak (k : Strand) : (k.enterBlock).hostBreak = k.hostBreak := rfl
@[simp] theorem Strand.enterBlock_ready (k : Strand) : (k.enterBlock).ready = k.ready := rfl
@[simp] theorem Strand.enterBlock_late (k : Strand) : (k.enterBlock).late = k.late := rfl
@[simp] theorem Strand.enterBlock_passP (k : Strand) : (k.enterBlock).passP = k.passP := rfl
@[simp] theorem Strand.enterBlock_passH (k : Strand) : (k.enterBlock).passH = k.passH := rfl
@[simp] theorem Strand.enterBlock_lane (k : Strand) : (k.enterBlock).lane = k.lane := rfl
@[simp] theorem Strand.enterBlock_slot (k : Strand) : (k.enterBlock).slot = k.slot := rfl
@[simp] theorem Strand.enterBlock_why (k : Strand) : (k.enterBlock).why = k.why := rfl
@[simp] theorem Strand.enterBlock_skein (k : Strand) : (k.enterBlock).skein = k.skein := rfl
@[simp] theorem Strand.enterBlock_wait (k : Strand) : (k.enterBlock).wait = k.wait := rfl
@[simp] theorem Strand.enterBlock_po (k : Strand) : (k.enterBlock).po = k.po := rfl
@[simp] theorem Strand.enterBlock_seen (k : Strand) : (k.enterBlock).seen = k.seen := rfl
@[simp] theorem Strand.enterBlock_since (k : Strand) : (k.enterBlock).since = k.since := rfl
@[simp] theorem Strand.enterBlock_ended (k : Strand) : (k.enterBlock).ended = k.ended := rfl
@[simp] theorem Strand.enterBlock_shash (k : Strand) : (k.enterBlock).shash = k.shash := rfl
@[simp] theorem Strand.enterBlock_bad (k : Strand) : (k.enterBlock).bad = k.bad := rfl

end Sys2Proof.Machine
end

