-- ==== Sys2Proof/Laws/Word.lean ====
section
/-!
SUPPORT. What `word` can do (R28, R52, R56, R73 to R75): it always answers where a strand has the focus; the first cause that applies traps;
otherwise a word that is ready for its registers has its effect, and completing it changes the strand and the lane alone.
-/
namespace Sys2Proof.Machine

/-! ## The focus -/

theorem State.ctx?_eq {s : State} {c : Ctx} (h : s.ctx? = some c) :
    s.focus = some c.r ∧ s.strand? c.r = some c.k ∧ s.block? c.r.blk = some c.b ∧ s.launch? c.b.launch = some c.la ∧ c.s = s
      ∧ c.rd = c.k ∧ c.act = c.k.mask ∧ c.start = 0 := by
  unfold State.ctx? at h
  split at h
  · cases h
  · next r hr =>
    split at h
    · next k b hk hb =>
      split at h
      · next la hl => cases h; exact ⟨hr, hk, hb, hl, rfl, rfl, rfl, rfl⟩
      · cases h
    · cases h

theorem State.ctx?_some {s : State} {r : StrandRef} {k : Strand} {b : Block} {la : Launch} (hf : s.focus = some r)
    (hk : s.strand? r = some k) (hb : s.block? r.blk = some b) (hl : s.launch? b.launch = some la) :
    s.ctx? = some ⟨s, r, k, k, [], b, la, k.mask, 0⟩ := by
  simp [State.ctx?, hf, hk, hb, hl]

theorem State.ctx?_rdT {s : State} {c : Ctx} (h : s.ctx? = some c) : c.rdT = [] := by
  obtain ⟨hf, hk, hb, hl, -, -, -, -⟩ := State.ctx?_eq h
  rw [State.ctx?_some hf hk hb hl] at h
  exact (congrArg Ctx.rdT (Option.some.inj h)).symm

/-! ## Time -/

theorem Strand.ready_le_soonest (k : Strand) : k.ready ≤ k.soonest := by
  unfold Strand.soonest; split <;> omega

theorem State.startOf_bounds (s : State) (b : Block) (k : Strand) (sp : Spec) :
    k.ready ≤ s.startOf b k sp ∧ s.clock b.core ≤ s.startOf b k sp := by
  have h := k.ready_le_soonest
  simp only [State.startOf]
  constructor <;> (repeat' split) <;> omega

theorem Strand.lateFor_nil {k : Strand} {start : Nat} {reads : List Loc} (h : ∀ l ∈ k.late, l.loc ∈ reads → l.timely ≤ k.ready)
    (hs : k.ready ≤ start) : k.lateFor start reads = [] := by
  unfold Strand.lateFor
  rw [List.filter_eq_nil_iff]
  intro l hl hc
  simp only [Bool.and_eq_true, decide_eq_true_eq, List.contains_iff_mem] at hc
  have := h l hl hc.2
  omega

@[simp] theorem Strand.early_nil (k : Strand) (f t : Nat) : k.early f t [] = k := rfl

/-! ## Outcomes of a word -/

/-- A word answers a next state wherever a strand has the focus: it never refuses, and it faults only without a strand. -/
theorem word_answers {s : State} {c : Ctx} (h : s.ctx? = some c) (i : Instr) (spec : Ctx → Spec) (eff : Ctx → Verdict) :
    ∃ t, word i s spec eff = .next t := by
  unfold word
  rw [h]
  dsimp only
  repeat' split
  all_goals exact ⟨_, rfl⟩

/-- Without a strand a word faults. -/
theorem word_noStrand {s : State} (h : s.ctx? = none) (i : Instr) (spec : Ctx → Spec) (eff : Ctx → Verdict) :
    word i s spec eff = .fault .noStrand := by
  simp [word, h]

/-- A word that reads no result untimely begins with its strand's registers. -/
theorem Ctx.begin_seen {s : State} {c : Ctx} {sp : Spec} {start : Nat} (h : s.ctx? = some c) (hl : c.k.lateFor start sp.reads = []) :
    ({ c with act := c.k.activeFor sp.halves sp.g sp.gn } : Ctx).begin sp start = c.seen (c.k.activeFor sp.halves sp.g sp.gn) start := by
  obtain ⟨hf, hk, hb, hla, hs, hrd, ha, h0⟩ := State.ctx?_eq h
  simp only [Ctx.begin, hl, List.isEmpty_nil, if_true, Ctx.seen, Ctx.maskBy, State.ctx?_rdT h, hrd]

/-- The first of a word's causes that applies traps with every active thread (R56), where there is one and no read of a result is untimely. -/
theorem word_check {i : Instr} {s : State} {c : Ctx} {spec : Ctx → Spec} {eff : Ctx → Verdict} {b : Bool} {cause : Cause}
    (h : s.ctx? = some c) (hl : ∀ l ∈ c.k.late, l.timely ≤ c.k.ready) (hact : c.k.activeFor (spec c).halves (spec c).g (spec c).gn ≠ 0)
    (hc : (spec c).checks.find? Prod.fst = some (b, cause)) :
    word i s spec eff = .next (({ c with act := c.k.activeFor (spec c).halves (spec c).g (spec c).gn } : Ctx).trap cause
      (c.k.activeFor (spec c).halves (spec c).g (spec c).gn) 0 0) := by
  have hlate := Strand.lateFor_nil (reads := (spec c).full.reads) (fun l m _ => hl l m) (State.startOf_bounds s c.b c.k (spec c).full).1
  have hact' : c.k.activeFor (spec c).full.halves (spec c).full.g (spec c).full.gn ≠ 0 := hact
  have hc' : (spec c).full.checks.find? Prod.fst = some (b, cause) := hc
  have hshort : ∀ c' : Ctx, c'.k = c.k → c'.short (spec c).full (s.startOf c.b c.k (spec c).full) = false := by
    intro c' hk; simp [Ctx.short, hk, hlate]
  have hcause : (c.seen (c.k.activeFor (spec c).full.halves (spec c).full.g (spec c).full.gn)
      (s.startOf c.b c.k (spec c).full)).cause? (spec c).full = some cause :=
    (if_neg hact').trans (by rw [hc']; rfl)
  unfold word
  rw [h]
  dsimp only
  rw [hshort { c with act := c.k.activeFor (spec c).full.halves (spec c).full.g (spec c).full.gn } rfl, if_neg Bool.false_ne_true,
    Ctx.begin_seen h hlate, hcause]
  rfl

/-- A word whose registers are ready has its effect, at its start. -/
theorem word_effect {i : Instr} {s : State} {c : Ctx} {spec : Ctx → Spec} {eff : Ctx → Verdict}
    (hr : Ready s c (spec c).full.reads (spec c).writes) (hc : (spec c).checks.find? Prod.fst = none)
    (hn : (spec c).noShadow = true → c.b.shadow = false) :
    let sp := (spec c).full
    let c' := c.seen (c.k.activeFor (spec c).halves (spec c).g (spec c).gn) (s.startOf c.b c.k sp)
    word i s spec eff = match eff c' with
      | .trap cause mask va detail => .next (c'.trap cause mask va detail)
      | .wait why s' => .next (s'.stall c.r why)
      | .done s' => .next (c'.finish i sp s')
      | .doneThen s' a => .next (c'.follow (c'.finish i sp s') a)
      | .over s' => .next s'
      | .trapIn s' cause mask va => .next (({ c' with s := s' } : Ctx).trap cause mask va 0) := by
  intro sp c'
  obtain ⟨hf, hk, hb, hl, hs, hrd, ha, h0⟩ := State.ctx?_eq hr.focus
  have hpend : (sp.reads ++ sp.writes).any (s.pending c.r) = false := by
    rw [List.any_eq_false]; intro l hl; simp [hr.free l hl]
  have hpar : c.k.badMask sp.reads = none := by
    unfold Strand.badMask
    rw [List.find?_eq_none]
    intro m hm
    obtain ⟨l, hl, he⟩ := List.mem_filterMap.1 hm
    cases l <;> simp at he
    subst he
    simp [hr.parity _ hl]
  have hlate : c.k.lateFor (s.startOf c.b c.k sp) sp.reads = [] :=
    Strand.lateFor_nil hr.timely (State.startOf_bounds s c.b c.k sp).1
  have hsh : ((spec c).noShadow && c.b.shadow) = false := by
    cases h : (spec c).noShadow
    · rfl
    · simp [hn h]
  have hbad : ∀ c' : Ctx, c'.k = c.k → c'.badReads sp.reads = [] := by
    intro c' hk
    simp only [Ctx.badReads, hk]
    split
    · rfl
    · exact List.filter_eq_nil_iff.2 fun e he => by simp [hr.clean e he, sp]
  have hc' : (spec c).full.checks.find? Prod.fst = none := hc
  have hshort : ∀ c' : Ctx, c'.k = c.k → c'.short sp (s.startOf c.b c.k sp) = false := by
    intro c' hk; simp [Ctx.short, hk, hlate]
  have hcause : c'.cause? sp = none := by
    simp only [Ctx.cause?]; split
    · rfl
    · rw [show sp.checks.find? Prod.fst = none from hc]; rfl
  have hsh' : (sp.noShadow && c'.b.shadow) = false := hsh
  unfold word
  rw [hr.focus]
  dsimp only
  rw [hshort { c with act := c.k.activeFor (spec c).full.halves (spec c).full.g (spec c).full.gn } rfl, if_neg Bool.false_ne_true,
    Ctx.begin_seen hr.focus hlate]
  show (match c'.cause? sp with | some cause => _ | none => _) = _
  rw [hcause]
  refine (if_neg (c := (sp.noShadow && c'.b.shadow && (c'.act != 0#32)) = true) (by rw [hsh']; exact Bool.false_ne_true)).trans ?_
  refine (if_neg (c := (sp.reads ++ sp.writes).any (s.pending c.r) = true) (by rw [hpend]; exact Bool.false_ne_true)).trans ?_
  refine (if_neg (c := (!(c'.badReads sp.reads).isEmpty) = true) (by rw [hbad c' rfl]; exact Bool.false_ne_true)).trans ?_
  show (match c'.k.badMask sp.reads with | some m => _ | none => _) = _
  rw [show c'.k.badMask sp.reads = none from hpar]
  dsimp only
  rw [if_neg Bool.false_ne_true]
  change (match eff c' with | .trap .. => _ | .wait .. => _ | .done _ => _ | .doneThen .. => _ | .over _ => _ | .trapIn .. => _) = _
  cases eff c' <;> rfl

/-! ## Completing a word -/

@[simp] theorem State.strand?_modStrand_self (s : State) (r : StrandRef) (f : Strand → Strand) :
    (s.modStrand r f).strand? r = (s.strand? r).map f := by
  simp [State.strand?, State.modStrand, Table.get?_mod]

theorem State.strand?_modStrand_ne (s : State) {r q : StrandRef} (f : Strand → Strand) (h : r ≠ q) :
    (s.modStrand r f).strand? q = s.strand? q := by
  simp [State.strand?, State.modStrand, Table.get?_mod, h]

@[simp] theorem State.strand?_setStrand_self (s : State) (r : StrandRef) (k : Strand) : (s.setStrand r k).strand? r = some k := by
  simp [State.strand?, State.setStrand]

theorem State.strand?_setStrand_ne (s : State) {r q : StrandRef} (k : Strand) (h : r ≠ q) : (s.setStrand r k).strand? q = s.strand? q := by
  simp [State.strand?, State.setStrand, Table.get?_put, h]

/-- Counting changes the counters of one front end. -/
theorem State.count_eq (s : State) (fe i n : Nat) : ∃ cs, s.count fe i n = s.setFe fe { s.fe fe with counters := cs } := by
  by_cases h : (s.fe fe).counting
  · exact ⟨_, by rw [State.count, State.modFe, if_pos h]⟩
  · exact ⟨(s.fe fe).counters, by rw [State.count, State.modFe, if_neg h]⟩

theorem State.fe_setFe (s : State) (a b : Nat) (x : FrontEnd) : (s.setFe a x).fe b = if a = b then x else s.fe b :=
  Table.getD_put ..

theorem State.fe_count (s : State) (fe i n f : Nat) : { (s.count fe i n).fe f with counters := [] } = { s.fe f with counters := [] } := by
  obtain ⟨cs, h⟩ := s.count_eq fe i n
  rw [h, State.fe_setFe]
  split
  · next h => subst h; rfl
  · rfl

/-- Completing a word changes the strand's own issue state alone, beside the lane, the time and the counters. -/
theorem Ctx.finish_strand (c : Ctx) (i : Instr) (sp : Spec) (s : State) :
    (c.finish i sp s).strand? c.r
      = (s.strand? c.r).map fun k => k.complete c.k i sp c.act c.start (streamOf sp (countOf c.act)) c.d := by
  simp only [Ctx.finish]
  have hcount : ∀ (t : State) (f a n : Nat), (t.count f a n).strand? c.r = t.strand? c.r := by
    intro t f a n; obtain ⟨cs, h⟩ := t.count_eq f a n; rw [h]; rfl
  have key : (s.modStrand c.r fun k => k.complete c.k i sp c.act c.start (streamOf sp (countOf c.act)) c.d).strand? c.r
      = (s.strand? c.r).map fun k => k.complete c.k i sp c.act c.start (streamOf sp (countOf c.act)) c.d :=
    State.strand?_modStrand_self s c.r _
  repeat' split
  all_goals
    simp only [hcount]
    exact key

theorem Ctx.finish_alone {c : Ctx} {s0 s : State} (i : Instr) (sp : Spec) (h : Alone s0 s c.r) : Alone s0 (c.finish i sp s) c.r := by
  have hcount : ∀ (t : State) (f a n : Nat), Alone s0 t c.r → Alone s0 (t.count f a n) c.r := by
    intro t f a n ht
    obtain ⟨cs, he⟩ := State.count_eq t f a n
    refine ⟨?_, ?_, ?_, ?_, ?_, ?_⟩
    · intro q hq; rw [he]; exact ht.strands q hq
    · intro g; rw [State.fe_count]; exact ht.fes g
    · intro m; rw [he]; exact ht.cores m
    · rw [he]; exact ht.rest
    · rw [he]; exact ht.bytes
    · rw [he]; exact ht.time
  have hmain : ∀ lane, Alone s0 ({ s.modStrand c.r (fun k => k.complete c.k i sp c.act c.start (streamOf sp (countOf c.act)) c.d) with
      lanes := s.lanes.put (laneKey c.b c.k) lane } : State) c.r := by
    intro lane
    refine ⟨?_, h.fes, h.cores, h.rest, h.bytes, h.time⟩
    intro q hq
    rw [← h.strands q hq]
    exact congrArg (Option.map Strand.unpassed) (State.strand?_modStrand_ne s _ (Ne.symm hq))
  have hreach : ∀ (t : State) (a n : Nat), Alone s0 t c.r → Alone s0 (t.reachCycle a n) c.r := by
    intro t a n ht
    refine ⟨ht.strands, ht.fes, ?_, ht.rest, ht.bytes, Nat.le_trans ht.time (Nat.le_max_left _ _)⟩
    intro m
    rw [← ht.cores m]
    show { Table.getD (Table.put t.cores a _) m {} with reached := 0 } = _
    rw [Table.getD_put]
    split
    · next e => subst e; rfl
    · rfl
  simp only [Ctx.finish]
  repeat' split
  all_goals first
    | exact hcount _ _ _ _ (hcount _ _ _ _ (hreach _ _ _ (hmain _)))
    | exact hcount _ _ _ _ (hreach _ _ _ (hmain _))

theorem Alone.refl (s : State) (r : StrandRef) : Alone s s r := ⟨fun _ _ => rfl, fun _ => rfl, fun _ => rfl, rfl, fun _ => rfl, Nat.le_refl _⟩

theorem Alone.setStrand {s t : State} {r : StrandRef} (h : Alone s t r) (k : Strand) : Alone s (t.setStrand r k) r :=
  ⟨fun q hq => by rw [State.strand?_setStrand_ne t k (Ne.symm hq)]; exact h.strands q hq, h.fes, h.cores, h.rest, h.bytes, h.time⟩

/-- A word that does not move the groups goes on at the next word. -/
theorem Strand.complete_pc (k old : Strand) (i : Instr) (sp : Spec) (act : Word) (start st d : Nat) (h : sp.moves = false)
    : (k.complete old i sp act start st d).pc = k.pc + 8 := by
  simp only [Strand.complete, h, Bool.false_eq_true, if_false]
  split <;> rfl

theorem Strand.complete_sig (k old : Strand) (i : Instr) (sp : Spec) (act : Word) (start st d : Nat) (h : sp.folded = false)
    : (k.complete old i sp act start st d).sig = foldWord k.sig (foldOf i) := by
  simp [Strand.complete, h]

theorem Strand.complete_fixed (k old : Strand) (i : Instr) (sp : Spec) (act : Word) (start st d : Nat) :
    (k.complete old i sp act start st d).fixed = k.fixed := by
  simp only [Strand.complete]; split <;> rfl

theorem Strand.complete_regs (k old : Strand) (i : Instr) (sp : Spec) (act : Word) (start st d : Nat) :
    (k.complete old i sp act start st d).v = k.v ∧ (k.complete old i sp act start st d).s = k.s
      ∧ (k.complete old i sp act start st d).m = k.m ∧ (k.complete old i sp act start st d).mpar = k.mpar
      ∧ (k.complete old i sp act start st d).fpflags = k.fpflags ∧ (k.complete old i sp act start st d).mask = k.mask := by
  simp only [Strand.complete]; split <;> exact ⟨rfl, rfl, rfl, rfl, rfl, rfl⟩

/-- A word whose effect gives its strand `k` and leaves the rest alone, completed. -/
theorem word_completed {i : Instr} {s s' : State} {c : Ctx} {spec : Ctx → Spec} {eff : Ctx → Verdict} {k : Strand}
    (he : exec i s = word i s spec eff)
    (hr : Ready s c (spec c).full.reads (spec c).writes) (hc : (spec c).checks.find? Prod.fst = none)
    (hn : (spec c).noShadow = true → c.b.shadow = false) (hm : (spec c).moves = false) (hf : (spec c).folded = false)
    (heff : eff (c.seen (c.k.activeFor (spec c).halves (spec c).g (spec c).gn)
      (s.startOf c.b c.k (spec c).full)) = .done s')
    (ha : Alone s s' c.r) (hk : s'.strand? c.r = some k) (hfix : k.fixed = c.k.fixed) (hpc : k.pc = c.k.pc) (hsig : k.sig = c.k.sig) :
    ∃ t k', Completed i s c t k' ∧ k'.v = k.v ∧ k'.s = k.s ∧ k'.m = k.m ∧ k'.mpar = k.mpar ∧ k'.fpflags = k.fpflags ∧ k'.mask = k.mask := by
  have h := word_effect (i := i) (eff := eff) hr hc hn
  dsimp only at h
  rw [heff] at h
  let act := c.k.activeFor (spec c).halves (spec c).g (spec c).gn
  let start := s.startOf c.b c.k (spec c).full
  let st := streamOf (spec c).full (countOf act)
  refine ⟨_, k.complete c.k i (spec c).full act start st c.d, ⟨he.trans h, ?_, ?_, ?_, Ctx.finish_alone (c := c.seen act start) i _ ha, ?_⟩,
    Strand.complete_regs ..⟩
  · refine (Ctx.finish_strand (c.seen act start) i (spec c).full s').trans ?_
    show Option.map _ (s'.strand? c.r) = _
    rw [hk]; rfl
  · exact (Strand.complete_pc _ _ _ (spec c).full _ _ _ _ hm).trans (by rw [hpc])
  · exact (Strand.complete_sig _ _ _ (spec c).full _ _ _ _ hf).trans (by rw [hsig])
  · rw [Strand.complete_fixed, hfix]

theorem Strand.complete_at (k old : Strand) (i : Instr) (sp : Spec) (act : Word) (start st d : Nat) :
    (k.complete old i sp act start st d).pc = if sp.moves then k.pc else k.pc + 8 := by
  cases h : sp.folded <;> simp [Strand.complete, h, Strand.fold]

theorem Strand.complete_folds (k old : Strand) (i : Instr) (sp : Spec) (act : Word) (start st d : Nat) :
    (k.complete old i sp act start st d).sig = if sp.folded then k.sig else foldWord k.sig (foldOf i) := by
  cases h : sp.folded <;> simp [Strand.complete, h]

/-- Completing a word after its effect (R28, R52). -/
theorem Ctx.finish_finishes {c : Ctx} {i : Instr} {sp : Spec} {e : State} {k0 : Strand} (hk : e.strand? c.r = some k0) :
    Finishes i c e (c.finish i sp e) sp.moves sp.folded := by
  obtain ⟨hv, hs, hm, hp, hf, -⟩ := Strand.complete_regs k0 c.k i sp c.act c.start (streamOf sp (countOf c.act)) c.d
  have hfix := Strand.complete_fixed k0 c.k i sp c.act c.start (streamOf sp (countOf c.act)) c.d
  have hat := Strand.complete_at k0 c.k i sp c.act c.start (streamOf sp (countOf c.act)) c.d
  have hfold := Strand.complete_folds k0 c.k i sp c.act c.start (streamOf sp (countOf c.act)) c.d
  have hget := Ctx.finish_strand c i sp e
  have halone := Ctx.finish_alone (c := c) i sp (Alone.refl e c.r)
  rw [hk, Option.map_some] at hget
  unfold Finishes
  exact ⟨k0, _, hk, hget, halone, hfix, hv, hs, hm, hp, hf, hat, hfold⟩

/-- A word that is ready, has no cause and ends with the effect `e` completes with it. -/
theorem word_effects {i : Instr} {s : State} {c : Ctx} {spec : Ctx → Spec} {eff : Ctx → Verdict} {e : Ctx → State} {act : Word} {m f : Bool}
    (he : exec i s = word i s spec eff) (hr : Ready s c (spec c).full.reads (spec c).writes)
    (hc : (spec c).checks.find? Prod.fst = none) (hn : (spec c).noShadow = true → c.b.shadow = false)
    (ha : c.k.activeFor (spec c).halves (spec c).g (spec c).gn = act) (hm : (spec c).moves = m) (hf : (spec c).folded = f)
    (heff : ∀ start, eff (c.seen act start) = .done (e (c.seen act start)))
    (hk : ∀ start, ((e (c.seen act start)).strand? c.r).isSome) : Effects i s c act e m f := by
  subst ha hm hf
  have h := word_effect (i := i) (eff := eff) hr hc hn
  dsimp only at h
  rw [heff] at h
  dsimp only at h
  obtain ⟨k0, hk0⟩ := Option.isSome_iff_exists.1 (hk (s.startOf c.b c.k (spec c).full))
  obtain ⟨h1, h2⟩ := State.startOf_bounds s c.b c.k (spec c).full
  have hfin := Ctx.finish_finishes (c := c.seen (c.k.activeFor (spec c).halves (spec c).g (spec c).gn) (s.startOf c.b c.k (spec c).full))
    (i := i) (sp := (spec c).full) hk0
  exact ⟨s.startOf c.b c.k (spec c).full, _, h1, h2, he.trans h, hfin⟩

@[simp] theorem Ctx.strand?_with (c : Ctx) (k : Strand) : (c.with k).strand? c.r = some k := State.strand?_setStrand_self ..

theorem Finishes.pc {i : Instr} {c : Ctx} {e t : State} {k0 : Strand} (h : Finishes i c e t false false) (hk : e.strand? c.r = some k0) :
    (t.strand? c.r).map Strand.pc = some (k0.pc + 8) := by
  obtain ⟨k0', k, h0, h1, -, -, -, -, -, -, -, hp, -⟩ := h
  rw [hk] at h0; cases h0
  rw [h1]; simpa using hp

/-- A word that is ready, has no cause and ends with the effect `e` and a trap at the next word. -/
theorem word_effectsThenTraps {i : Instr} {s : State} {c : Ctx} {spec : Ctx → Spec} {eff : Ctx → Verdict} {e : Ctx → State} {act : Word}
    {cause : Cause} (he : exec i s = word i s spec eff) (hr : Ready s c (spec c).full.reads (spec c).writes)
    (hc : (spec c).checks.find? Prod.fst = none) (hn : (spec c).noShadow = true → c.b.shadow = false)
    (ha : c.k.activeFor (spec c).halves (spec c).g (spec c).gn = act) (hm : (spec c).moves = false) (hf : (spec c).folded = false)
    (heff : ∀ start, eff (c.seen act start) = .doneThen (e (c.seen act start)) (.trap cause act))
    (hk : ∀ start, ∃ k, (e (c.seen act start)).strand? c.r = some k ∧ k.pc = c.k.pc) : EffectsThenTraps i s c act e cause := by
  subst ha
  have h := word_effect (i := i) (eff := eff) hr hc hn
  dsimp only at h
  rw [heff] at h
  dsimp only at h
  obtain ⟨k0, hk0, hpc⟩ := hk (s.startOf c.b c.k (spec c).full)
  obtain ⟨h1, h2⟩ := State.startOf_bounds s c.b c.k (spec c).full
  have hfin := Ctx.finish_finishes (c := c.seen (c.k.activeFor (spec c).halves (spec c).g (spec c).gn) (s.startOf c.b c.k (spec c).full))
    (i := i) (sp := (spec c).full) hk0
  rw [show (spec c).full.moves = false from hm, show (spec c).full.folded = false from hf] at hfin
  refine ⟨_, _, h1, h2, hfin, he.trans (h.trans ?_)⟩
  have hp := Finishes.pc hfin hk0
  simp only [Ctx.follow]
  have hp' : ((((c.seen (c.k.activeFor (spec c).halves (spec c).g (spec c).gn) (s.startOf c.b c.k (spec c).full)).finish i (spec c).full
    (e (c.seen (c.k.activeFor (spec c).halves (spec c).g (spec c).gn) (s.startOf c.b c.k (spec c).full)))).strand? c.r).map Strand.pc).getD 0 =
      c.k.pc + 8 := by
    rw [← hpc]; exact congrArg (Option.getD · 0) hp
  exact congrArg (fun w => Host.Outcome.next (State.enterPriv _ _ ⟨cause, _, w, c.k.pc, 0, 0, 0, c.k.region, false, false⟩)) hp'

/-- The first of a word's causes that applies, said of the instruction. -/
theorem word_traps {i : Instr} {s : State} {c : Ctx} {spec : Ctx → Spec} {eff : Ctx → Verdict} {b : Bool} {cause : Cause} {act : Word}
    (he : exec i s = word i s spec eff) (h : s.ctx? = some c) (hl : ∀ l ∈ c.k.late, l.timely ≤ c.k.ready)
    (hc : (spec c).checks.find? Prod.fst = some (b, cause)) (ha : c.k.activeFor (spec c).halves (spec c).g (spec c).gn = act) (h0 : act ≠ 0) :
    Traps i s c cause act := by
  subst ha
  obtain ⟨-, -, -, -, hs, -, -, -⟩ := State.ctx?_eq h
  rw [Traps, he, word_check h hl h0 hc, Ctx.trap]
  dsimp only
  rw [hs]

/-- A trap that a ready word's effect raises (R352). -/
theorem word_effectTraps {i : Instr} {s : State} {c : Ctx} {spec : Ctx → Spec} {eff : Ctx → Verdict} {act mask : Word} {cause : Cause} {va : Dword}
    {n : Nat} (he : exec i s = word i s spec eff) (hr : Ready s c (spec c).full.reads (spec c).writes)
    (hc : (spec c).checks.find? Prod.fst = none) (hn : (spec c).noShadow = true → c.b.shadow = false)
    (ha : c.k.activeFor (spec c).halves (spec c).g (spec c).gn = act)
    (heff : ∀ start, eff (c.seen act start) = .trap cause mask va n) : Traps i s c cause mask va n := by
  subst ha
  have h := word_effect (i := i) (eff := eff) hr hc hn
  dsimp only at h
  rw [heff] at h
  dsimp only at h
  obtain ⟨-, -, -, -, hs, -, -, -⟩ := State.ctx?_eq hr.focus
  rw [Traps, he, h]
  simp only [Ctx.seen, Ctx.trap]
  rw [hs]

end Sys2Proof.Machine
end

