-- ==== Sys2Proof/Laws/Alu.lean ====
section
/-!
SUPPORT. What `alu` can do (R53, R104): the registers that the threads of a computing word leave, its flags, and that it completes.
-/
namespace Sys2Proof.Machine
open Sys2Proof.Fp (Jet Flags)

/-! ## Threads -/

theorem mem_threadsOf {m : Word} {t : Nat} : t ∈ threadsOf m ↔ t < 32 ∧ m.getLsbD t = true := by
  simp [threadsOf]

theorem threadsOf_nodup (m : Word) : (threadsOf m).Nodup := List.nodup_range.sublist List.filter_sublist

/-! ## One register -/

theorem vKey_inj {r t c r' t' c' : Nat} (ht : t < 32) (ht' : t' < 32) (hc : c < 16) (hc' : c' < 16) :
    vKey r t c = vKey r' t' c' ↔ r = r' ∧ t = t' ∧ c = c' := by
  unfold vKey; omega

/-- A V register's word after one delivery of thread `t`. -/
def wrote (la : Launch) (regs : List (Nat × Jet)) (r c : Nat) (old : Word) : Word :=
  match regs.lookup r with
  | some j => if c = 0 then j.v else if r < la.jregs ∧ c ≤ la.d then j.comp (c - 1) else old
  | none => old

theorem Strand.setComps_get (k : Strand) (r t : Nat) (cs : List Word) (n : Nat) (r' t' c : Nat) (ht : t < 32) (ht' : t' < 32) (hc : c < 16)
    (hn : n + cs.length < 16) :
    (((cs.zipIdx n).foldl (fun k e => k.setComp r t e.2 e.1) k).v.get (vKey r' t' c))
      = if r' = r ∧ t' = t ∧ n + 1 ≤ c ∧ c ≤ n + cs.length then cs.getD (c - 1 - n) 0 else k.v.get (vKey r' t' c) := by
  induction cs generalizing k n with
  | nil => simp <;> (intros; omega)
  | cons x xs ih =>
    rw [List.zipIdx_cons, List.foldl_cons, ih _ _ (by simp at hn; omega)]
    simp only [Strand.setComp_v, Cells.get_set, vKey_inj ht' ht hc (by simp at hn; omega : n + 1 < 16)]
    by_cases h : r' = r ∧ t' = t
    · obtain ⟨rfl, rfl⟩ := h
      by_cases h1 : c = n + 1
      · subst h1
        rw [if_neg (by omega), if_pos ⟨rfl, rfl, rfl⟩, if_pos (by simp)]
        simp
      · by_cases h2 : n + 2 ≤ c ∧ c ≤ n + 1 + xs.length
        · rw [if_pos ⟨rfl, rfl, h2⟩, if_pos (by simp; omega)]
          have : c - 1 - n = (c - 1 - (n + 1)) + 1 := by omega
          rw [this, List.getD_cons_succ]
        · rw [if_neg (by omega), if_neg (by omega), if_neg (by simp; omega)]
    · rw [if_neg (by omega), if_neg (by omega), if_neg (by omega)]

theorem Strand.put_get (k : Strand) (la : Launch) (t : Nat) (e : Nat × Jet) (r t' c : Nat) (ht : t < 32) (ht' : t' < 32) (hc : c < 16)
    (hd : la.d ≤ 8) :
    (k.put la false t e).v.get (vKey r t' c) = if t' = t then wrote la [e] r c (k.v.get (vKey r t' c)) else k.v.get (vKey r t' c) := by
  obtain ⟨a, j⟩ := e
  simp only [Strand.put, Bool.false_eq_true, if_false, wrote, List.lookup_cons, List.lookup_nil]
  split
  · next hj =>
    rw [Strand.setJet, Strand.setComps_get _ _ _ _ _ _ _ _ ht ht' hc (by simp; omega)]
    simp only [Strand.setV_v, Cells.get_set, vKey_inj ht' ht hc (by omega : 0 < 16), List.length_map, List.length_range, Nat.zero_add,
      Nat.sub_zero]
    by_cases h : t' = t
    · by_cases hr : r = a
      · subst h; subst hr
        by_cases h0 : c = 0
        · simp [h0]
        · by_cases hcd : c ≤ la.d
          · have hlt : c - 1 < la.d := by omega
            simp [h0, hcd, hj, hlt, show 1 ≤ c by omega]
          · simp [h0, hcd]
      · have : (r == a) = false := by simpa using hr
        simp [hr, this, h]
    · simp [h]
  · next hj =>
    simp only [Strand.setV_v, Cells.get_set, vKey_inj ht' ht hc (by omega : 0 < 16)]
    by_cases h : t' = t
    · by_cases hr : r = a
      · subst h; subst hr
        by_cases h0 : c = 0
        · simp [h0]
        · simp [h0, hj]
      · have : (r == a) = false := by simpa using hr
        simp [hr, this, h]
    · simp [h]

theorem lookup_eq_none {l : List (Nat × Jet)} {r : Nat} (h : r ∉ l.map Prod.fst) : l.lookup r = none := by
  refine List.lookup_eq_none_iff.2 fun p hp => ?_
  have : p.1 ∈ l.map Prod.fst := List.mem_map_of_mem hp
  exact bne_iff_ne.2 fun e => h (e ▸ this)

theorem Strand.puts_get (regs : List (Nat × Jet)) (k : Strand) (la : Launch) (t : Nat) (r t' c : Nat) (hn : (regs.map Prod.fst).Nodup)
    (ht : t < 32) (ht' : t' < 32) (hc : c < 16) (hd : la.d ≤ 8) :
    (regs.foldl (fun k e => k.put la false t e) k).v.get (vKey r t' c)
      = if t' = t then wrote la regs r c (k.v.get (vKey r t' c)) else k.v.get (vKey r t' c) := by
  induction regs generalizing k with
  | nil => simp [wrote]
  | cons e l ih =>
    obtain ⟨a, j⟩ := e
    simp only [List.map_cons, List.nodup_cons] at hn
    rw [List.foldl_cons, ih _ hn.2, Strand.put_get _ _ _ _ _ _ _ ht ht' hc hd]
    by_cases h : t' = t
    · simp only [h, if_true, wrote, List.lookup_cons, List.lookup_nil]
      by_cases hr : r = a
      · subst hr
        simp only [beq_self_eq_true, lookup_eq_none hn.1]
      · have : (r == a) = false := by simpa using hr
        simp only [this]
    · simp [h]

/-- What a write of registers leaves: everything but the V registers. -/
theorem Strand.put_eq (k : Strand) (la : Launch) (t : Nat) (e : Nat × Jet) : ∃ v, k.put la false t e = { k with v := v } := by
  have h : ∀ (cs : List (Word × Nat)) (k : Strand), ∃ v, cs.foldl (fun k e' => k.setComp e.1 t e'.2 e'.1) k = { k with v := v } := by
    intro cs
    induction cs with
    | nil => intro k; exact ⟨k.v, rfl⟩
    | cons x xs ih => intro k; obtain ⟨v, hv⟩ := ih (k.setComp e.1 t x.2 x.1); exact ⟨v, hv⟩
  simp only [Strand.put, Bool.false_eq_true, if_false]
  split
  · obtain ⟨v, hv⟩ := h _ (k.setV e.1 t e.2.v); exact ⟨v, hv⟩
  · exact ⟨_, rfl⟩

theorem Strand.puts_eq (regs : List (Nat × Jet)) (k : Strand) (la : Launch) (t : Nat) :
    ∃ v, regs.foldl (fun k e => k.put la false t e) k = { k with v := v } := by
  induction regs generalizing k with
  | nil => exact ⟨k.v, rfl⟩
  | cons e l ih =>
    obtain ⟨v, hv⟩ := k.put_eq la t e
    rw [List.foldl_cons, hv]
    obtain ⟨v', hv'⟩ := ih { k with v := v }
    exact ⟨v', hv'⟩

theorem Strand.putsU_eq (regs : List (Nat × Jet)) (k : Strand) (la : Launch) (t : Nat) :
    regs.foldl (fun k e => k.put la true t e) k = { k with s := regs.foldl (fun s e => s.set e.1 e.2.v) k.s } := by
  induction regs generalizing k with
  | nil => rfl
  | cons e l ih => rw [List.foldl_cons, ih]; rfl

theorem Cells.setJets_get (regs : List (Nat × Jet)) (s : Cells 32) (r : Nat) (hn : (regs.map Prod.fst).Nodup) :
    Cells.get (regs.foldl (fun (s : Cells 32) e => s.set e.1 e.2.v) s) r = match regs.lookup r with | some j => j.v | none => Cells.get s r := by
  induction regs generalizing s with
  | nil => rfl
  | cons e l ih =>
    obtain ⟨a, j⟩ := e
    simp only [List.map_cons, List.nodup_cons] at hn
    rw [List.foldl_cons, ih _ hn.2, List.lookup_cons]
    by_cases hr : r = a
    · subst hr; simp [lookup_eq_none hn.1]
    · have : (r == a) = false := by simpa using hr
      simp [this, hr]

/-! ## All threads -/

/-- What a word without a mask result leaves in its strand: V and S registers and flags alone. -/
theorem Strand.deliver_eq (k : Strand) (la : Launch) (act : Word) (e : Nat × Out) (hb : e.2.bit = none) :
    ∃ v, k.deliver la false act e = { k with v := v, fpflags := k.fpflags ||| e.2.fl } := by
  obtain ⟨v, hv⟩ := Strand.puts_eq e.2.regs k la e.1
  refine ⟨v, ?_⟩
  simp only [Strand.deliver, hb]
  rw [hv]; rfl

theorem Strand.delivers_eq (ts : List Nat) (f : Nat → Out) (hb : ∀ t, (f t).bit = none) (k : Strand) (la : Launch) (act : Word) :
    ∃ v, (ts.map fun t => (t, f t)).foldl (fun k e => k.deliver la false act e) k
      = { k with v := v, fpflags := ts.foldl (fun a t => a ||| (f t).fl) k.fpflags } := by
  induction ts generalizing k with
  | nil => exact ⟨k.v, rfl⟩
  | cons t l ih =>
    obtain ⟨v, hv⟩ := k.deliver_eq la act (t, f t) (hb t)
    rw [List.map_cons, List.foldl_cons, hv]
    obtain ⟨v', hv'⟩ := ih { k with v := v, fpflags := k.fpflags ||| (f t).fl }
    exact ⟨v', hv'⟩

theorem Strand.delivers_get (ts : List Nat) (f : Nat → Out) (hb : ∀ t, (f t).bit = none) (hr : ∀ t, ((f t).regs.map Prod.fst).Nodup)
    (hts : ∀ t ∈ ts, t < 32) (hnd : ts.Nodup) (k : Strand) (la : Launch) (act : Word) (r t c : Nat) (ht : t < 32) (hc : c < 16) (hd : la.d ≤ 8) :
    ((ts.map fun t => (t, f t)).foldl (fun k e => k.deliver la false act e) k).v.get (vKey r t c)
      = if t ∈ ts then wrote la (f t).regs r c (k.v.get (vKey r t c)) else k.v.get (vKey r t c) := by
  induction ts generalizing k with
  | nil => simp
  | cons a l ih =>
    rw [List.nodup_cons] at hnd
    rw [List.map_cons, List.foldl_cons, ih (fun t h => hts t (by simp [h])) hnd.2]
    have h1 : (k.deliver la false act (a, f a)).v.get (vKey r t c)
        = if t = a then wrote la (f a).regs r c (k.v.get (vKey r t c)) else k.v.get (vKey r t c) := by
      rw [← Strand.puts_get (f a).regs k la a r t c (hr a) (hts a (by simp)) ht hc hd]
      simp only [Strand.deliver, hb]
      rfl
    rw [h1]
    by_cases h : t = a
    · subst h; simp [hnd.1]
    · simp [h]

theorem foldl_or_get (ts : List Nat) (g : Nat → Flags) (a : Flags) (i : Nat) :
    (ts.foldl (fun a t => a ||| g t) a).getLsbD i = true ↔ a.getLsbD i = true ∨ ∃ t ∈ ts, (g t).getLsbD i = true := by
  induction ts generalizing a with
  | nil => simp
  | cons t l ih => simp only [List.foldl_cons, ih, BitVec.getLsbD_or, Bool.or_eq_true, List.mem_cons, or_assoc, exists_eq_or_imp]

theorem bit_ne_zero {t : Nat} (ht : t < 32) : bit t ≠ 0 := by
  intro h
  have := congrArg (fun w : Word => w.getLsbD t) h
  simp [bit, ht] at this

theorem ivMask_vec (act : Word) (ts : List Nat) (f : Nat → Out) :
    ivMask false act (ts.map fun t => (t, f t)) ≠ 0 → ∃ t ∈ ts, hasIV (f t).fl = true := by
  intro h
  refine Classical.byContradiction fun hno => h ?_
  simp only [ivMask, Bool.false_eq_true, if_false]
  have : ∀ (l : List Nat) (m : Word), (∀ t ∈ l, ¬ hasIV (f t).fl = true) →
      (l.map fun t => (t, f t)).foldl (fun m e => if hasIV e.2.fl then m ||| bit e.1 else m) m = m := by
    intro l
    induction l with
    | nil => intros; rfl
    | cons a l ih =>
      intro m hm
      rw [List.map_cons, List.foldl_cons, if_neg (hm a (by simp))]
      exact ih m fun t ht => hm t (by simp [ht])
  exact this ts 0 fun t ht hiv => hno ⟨t, ht, hiv⟩

/-- The effect of a computing word without a mask result. -/
theorem Ctx.deliver_done {c : Ctx} {u : Bool} {f : Nat → Out} (hb : ∀ t, (f t).bit = none) (hr : ∀ t, ((f t).regs.map Prod.fst).Nodup)
    (hd : c.la.d ≤ 8) (hiv : c.k.ivt = true → ¬ raisesIV u c.act fun t => (f t).fl) :
    ∃ k, c.deliver u (c.outs u f) = .done (c.s.setStrand c.r k) ∧ Delivered c u c.act k (fun t => (f t).regs)
      ∧ Raised u c.act c.k.fpflags k.fpflags (fun t => (f t).fl) ∧ ∃ v s fl, k = { c.k with v := v, s := s, fpflags := fl } := by
  have hnt : ¬ ((c.k.ivt && ivMask u c.act (c.outs u f) != 0) = true) := by
    intro h
    simp only [Bool.and_eq_true, bne_iff_ne, ne_eq] at h
    refine hiv h.1 ?_
    cases u
    · obtain ⟨t, ht, hv⟩ := ivMask_vec c.act (threadsOf c.act) f h.2
      exact ⟨t, (mem_threadsOf.1 ht).1, (mem_threadsOf.1 ht).2, hv⟩
    · have h2 := h.2
      simp only [Ctx.outs, Ctx.lanes, if_true, ivMask] at h2
      by_cases h0 : c.act = 0
      · simp [h0] at h2
      · simp only [h0, if_false, List.map_cons, List.map_nil, List.any_cons, List.any_nil, Bool.or_false] at h2
        refine ⟨h0, ?_⟩
        refine Classical.byContradiction fun hno => h2 ?_
        rw [if_neg hno]
  simp only [Ctx.deliver]
  rw [if_neg hnt]
  refine ⟨_, rfl, ?_⟩
  cases u
  · simp only [Ctx.outs, Ctx.lanes, Bool.false_eq_true, if_false]
    obtain ⟨v, hv⟩ := Strand.delivers_eq (threadsOf c.act) f hb c.k c.la c.act
    have hget := fun r t c' ht hc' => Strand.delivers_get (threadsOf c.act) f hb hr (fun t ht => (mem_threadsOf.1 ht).1) (threadsOf_nodup _)
      c.k c.la c.act r t c' ht hc' hd
    rw [hv] at hget ⊢
    refine ⟨⟨?_, nofun, nofun, fun _ => rfl⟩, ?_, v, c.k.s, _, rfl⟩
    · intro _ r t ht
      have hg := fun c' hc' => hget r t c' ht hc'
      simp only [mem_threadsOf, ht, true_and] at hg
      unfold received
      by_cases ha : c.act.getLsbD t = true
      · simp only [ha, if_true] at hg ⊢
        cases hl : (f t).regs.lookup r with
        | none =>
          simp only [wrote, hl] at hg
          exact ⟨hg 0 (by omega), fun i hi => hg (i + 1) (by omega)⟩
        | some j =>
          simp only [wrote, hl] at hg
          refine ⟨hg 0 (by omega), fun hj i hi => ?_⟩
          have hi8 : i < c.la.d := hi
          have := hg (i + 1) (by omega)
          rw [if_neg (by omega), if_pos ⟨hj, by omega⟩] at this
          exact this
      · simp only [ha, Bool.false_eq_true, if_false] at hg ⊢
        exact ⟨hg 0 (by omega), fun i hi => hg (i + 1) (by omega)⟩
    · intro i _
      refine (foldl_or_get (threadsOf c.act) (fun t => (f t).fl) c.k.fpflags i).trans ?_
      simp only [Bool.false_eq_true, if_false, mem_threadsOf]
      constructor <;> rintro (h | ⟨t, h⟩) <;> first | exact .inl h | exact .inr ⟨t, by simpa [and_assoc] using h⟩
  · simp only [Ctx.outs, Ctx.lanes, if_true]
    by_cases h0 : c.act = 0
    · simp only [h0, if_true, List.map_nil, List.foldl_nil]
      exact ⟨⟨nofun, fun _ => rfl, fun _ r => rfl, nofun⟩, fun i _ => by simp, c.k.v, c.k.s, c.k.fpflags, rfl⟩
    · simp only [h0, if_false, List.map_cons, List.map_nil, List.foldl_cons, List.foldl_nil]
      have hk : c.k.deliver c.la true c.k.mask (0, f 0)
          = { c.k with s := (f 0).regs.foldl (fun s e => s.set e.1 e.2.v) c.k.s, fpflags := c.k.fpflags ||| (f 0).fl } := by
        simp only [Strand.deliver, hb]
        rw [Strand.putsU_eq]; rfl
      rw [hk]
      refine ⟨⟨nofun, fun _ => rfl, fun _ r => ?_, nofun⟩, fun i _ => ?_, c.k.v, _, _, rfl⟩
      · simp only [h0, if_false]
        exact Cells.setJets_get _ _ _ (hr 0)
      · show (c.k.fpflags ||| (f 0).fl).getLsbD i = true ↔ _
        have h0' : c.act ≠ 0#32 := h0
        simp [h0']

/-! ## The word -/

theorem Ready.mono {s : State} {c : Ctx} {reads writes reads' writes' : List Loc} (h : Ready s c reads writes)
    (hr : ∀ l ∈ reads', l ∈ reads) (hw : ∀ l ∈ writes', l ∈ reads ∨ l ∈ writes) : Ready s c reads' writes' :=
  ⟨h.focus, fun l hl => h.free l (by
      rcases List.mem_append.1 hl with hl | hl
      · exact List.mem_append_left _ (hr l hl)
      · exact List.mem_append.2 (hw l hl)),
    fun m hm => h.parity m (hr _ hm), fun e he hm => h.clean e he (hr _ hm), fun l hl hm => h.timely l hl (hr _ hm), h.names⟩

theorem Spec.guards_ofHdr (sp : Spec) (hh : sp.halves = none) :
    sp.guards = if sp.g = 0 then [] else [.m sp.g.toNat] := by
  simp only [Spec.guards, hh]
  by_cases h : sp.g = 0
  · simp [h]
  · have hg : sp.g ≠ 0#3 := h
    have : (sp.g != 0#3) = true := by simpa using h
    simp [hg, this]

/-- The checks of R56, ranks 5 to 8, pass for registers in range. -/
theorem Regs.checks_none {g : Regs} {c : Ctx} {u : Bool} (hv : ∀ r ∈ g.vec, if u then r.toNat < 64 else r.toNat < c.la.nregs)
    (hs : ∀ r ∈ g.span, if u then r < 64 else r < c.la.nregs) (he : ∀ r ∈ g.even, r.toNat % 2 = 0) (hsr : ∀ r ∈ g.sreg, r.toNat < 64)
    (hj : ∀ r ∈ g.jets, r.toNat < c.la.jregs) (hrange : g.range = false) (hcomp : g.noComp = false) (hu : g.noU = true → u = false)
    (hm : g.m0 = false) : (g.checks c u).find? Prod.fst = none := by
  have hodd : ∀ r : BitVec 7, r.toNat % 2 = 0 → r.getLsbD 0 = false := by
    intro r h
    simp [BitVec.getLsbD, Nat.testBit_zero, h]
  have a1 : (u && (g.noU || g.vec.any fun r => 64 ≤ r.toNat)) = false := by
    cases u
    · rfl
    · have hn : g.noU = false := by cases h : g.noU <;> simp_all
      simp only [Bool.true_and, hn, Bool.false_or, List.any_eq_false, decide_eq_true_eq]
      intro r hr; have := hv r hr; simp at this; omega
  have a2 : ((!u && (g.vec.any (fun r => c.la.nregs ≤ r.toNat) || g.span.any (c.la.nregs ≤ ·)))
      || (u && g.span.any (64 ≤ ·)) || g.even.any (fun r => r.getLsbD 0) || g.sreg.any (fun r => 64 ≤ r.toNat) || g.range) = false := by
    have b1 : g.even.any (fun r => r.getLsbD 0) = false := by
      rw [List.any_eq_false]; intro r hr; rw [hodd r (he r hr)]; exact Bool.false_ne_true
    have b2 : g.sreg.any (fun r => decide (64 ≤ r.toNat)) = false := by
      rw [List.any_eq_false]; intro r hr; have := hsr r hr; simp; omega
    cases u
    · have b3 : g.vec.any (fun r => decide (c.la.nregs ≤ r.toNat)) = false := by
        rw [List.any_eq_false]; intro r hr; have := hv r hr; simp at this ⊢; omega
      have b4 : g.span.any (fun r => decide (c.la.nregs ≤ r)) = false := by
        rw [List.any_eq_false]; intro r hr; have := hs r hr; simp at this ⊢; omega
      rw [b1, b2, b3, b4, hrange]; rfl
    · have b4 : g.span.any (fun r => decide (64 ≤ r)) = false := by
        rw [List.any_eq_false]; intro r hr; have := hs r hr; simp at this ⊢; omega
      rw [b1, b2, b4, hrange]; rfl
  have a3 : (g.noComp || g.jets.any (fun r => c.la.jregs ≤ r.toNat)) = false := by
    rw [hcomp, Bool.false_or, List.any_eq_false]; intro r hr; have := hj r hr; simp; omega
  simp only [Regs.checks, List.find?_cons, a1, a2, a3, hm, List.find?_nil]

/-- Every computing word without a mask result completes as `Computes` says, given its registers in range. -/
theorem alu_computes {i : Instr} {h : Hdr} {g : Ctx → Shape} {f : Ctx → Nat → Out} {reads writes : List Loc} {ok : Ctx → Prop}
    {out : Ctx → Nat → List (Nat × Jet)} {fl : Ctx → Nat → Flags}
    (he : ∀ s, exec i s = alu i s h g f)
    (hreads : ∀ c, ok c → ∀ l ∈ (g c).src.map (fun r => locOf h.u r.toNat) ++ (g c).reads, l ∈ reads)
    (hwrites : ∀ c, ok c → ∀ l ∈ (g c).dst.map (locOf h.u) ++ (g c).writes, l ∈ writes)
    (hchk : ∀ c, ok c → ((g c).regs.checks c h.u ++ (g c).own).find? Prod.fst = none)
    (hf : ∀ c t, c.rd = c.k → (f c t).bit = none ∧ (f c t).regs = out c t ∧ (f c t).fl = fl c t ∧ ((out c t).map Prod.fst).Nodup) :
    Computes i h reads writes ok out fl := by
  intro s c hr hok
  have hc := State.ctx?_eq hr.focus
  have hb := State.startOf_bounds s c.b c.k ((g c).spec h c).full
  refine ⟨s.startOf c.b c.k ((g c).spec h c).full, hb.1, hb.2, ?_⟩
  intro act c' hiv
  have hs : c.s = s := hc.2.2.2.2.1
  have hrd : c'.rd = c'.k := hc.2.2.2.2.2.1
  have hfull : ((g c).spec h c).full.reads = Hdr.guard h ++ ((g c).src.map (fun r => locOf h.u r.toNat) ++ (g c).reads) := by
    show ((g c).spec h c).guards ++ _ = _
    rw [Spec.guards_ofHdr _ rfl]; rfl
  have hready : Ready s c ((g c).spec h c).full.reads ((g c).spec h c).writes := by
    rw [hfull]
    refine hr.mono ?_ ?_
    · intro l hl
      rcases List.mem_append.1 hl with hl | hl
      · exact List.mem_append_left _ hl
      · exact List.mem_append_right _ (hreads c hok l hl)
    · exact fun l hl => .inr (hwrites c hok l hl)
  obtain ⟨k, hk, hdel, hra, v, sv, fv, hkeq⟩ := Ctx.deliver_done (c := c') (u := h.u) (f := f c') (fun t => (hf c' t hrd).1)
    (fun t => by rw [(hf c' t hrd).2.1]; exact (hf c' t hrd).2.2.2) hr.names
    (by intro h1 h2; simp only [fun t => (hf c' t hrd).2.2.1] at h2; exact hiv h1 h2)
  have hce : c'.s.setStrand c'.r k = s.setStrand c.r k := by show c.s.setStrand c.r k = _; rw [hs]
  obtain ⟨t, k', hcomp, h1, h2, h3, h4, h5, _⟩ := word_completed (i := i) (s := s) (s' := s.setStrand c.r k) (c := c)
    (spec := fun c => (g c).spec h c) (eff := fun c => c.deliver h.u (c.outs h.u (f c))) (k := k) (he s) hready (hchk c hok)
    (by intro hns; cases hns) rfl rfl (hk.trans (by rw [hce])) ((Alone.refl s c.r).setStrand k) (State.strand?_setStrand_self ..)
    (by rw [hkeq]; rfl) (by rw [hkeq]; rfl) (by rw [hkeq]; rfl)
  refine ⟨t, k', hcomp, ?_, ?_, ?_, ?_⟩
  · refine ⟨?_, ?_, ?_, ?_⟩
    · intro hu r th hth
      have := hdel.vec hu r th hth
      simp only [fun t => (hf c' t hrd).2.1] at this
      simp only [Strand.vGet, Strand.compGet, h1] at this ⊢
      exact this
    · intro hu; rw [h1]; exact hdel.vecU hu
    · intro hu r
      have := hdel.scal hu r
      simp only [fun t => (hf c' t hrd).2.1] at this
      simp only [Strand.sGet, h2] at this ⊢
      exact this
    · intro hu; rw [h2]; exact hdel.scalV hu
  · rw [h5]
    intro i hi
    have := hra i hi
    simp only [fun t => (hf c' t hrd).2.2.1] at this
    exact this
  · rw [h3, hkeq]; rfl
  · rw [h4, hkeq]; rfl

/-- The common shape of one destination and vector sources. -/
theorem shapeOf_computes {i : Instr} {h : Hdr} {d : BitVec 7} {src : List (BitVec 7)} {lat : Option Nat} {slots : Ctx → Nat}
    {f : Ctx → Nat → Out} {out : Ctx → Nat → List (Nat × Jet)} {fl : Ctx → Nat → Flags}
    (he : ∀ s, exec i s = alu i s h (fun c => shapeOf d src lat (slots c)) f)
    (hf : ∀ c t, c.rd = c.k → (f c t).bit = none ∧ (f c t).regs = out c t ∧ (f c t).fl = fl c t ∧ ((out c t).map Prod.fst).Nodup) :
    Computes i h (vecLocs h.u (src.map BitVec.toNat)) [locOf h.u d.toNat] (fun c => InRange c h.u ((d :: src).map BitVec.toNat)) out fl := by
  refine alu_computes he ?_ ?_ ?_ hf
  · intro c _ l hl; simpa [shapeOf, vecLocs] using hl
  · intro c _ l hl; simpa [shapeOf] using hl
  · intro c hok
    simp only [InRange] at hok
    simp only [shapeOf, List.append_nil]
    apply Regs.checks_none <;> simp_all

/-! ## Masks -/

@[simp] theorem getLsbD_bit (t i : Nat) (hi : i < 32) : (bit t).getLsbD i = decide (t = i) := by
  simp only [bit, BitVec.getLsbD_shiftLeft, BitVec.getLsbD_one, hi, decide_true, Bool.true_and]
  by_cases h : t = i
  · subst h; simp
  · by_cases hlt : i < t
    · simp [hlt, h]
    · have : ¬ i - t = 0 := by omega
      simp [hlt, h, this]

theorem getLsbD_mergeMask (old new sel : Word) (i : Nat) (hi : i < 32) :
    (mergeMask old new sel).getLsbD i = if sel.getLsbD i then new.getLsbD i else old.getLsbD i := by
  simp only [mergeMask, BitVec.getLsbD_or, BitVec.getLsbD_and, BitVec.getLsbD_not, hi, decide_true, Bool.true_and]
  cases sel.getLsbD i <;> simp

theorem Strand.mGet_setM (k : Strand) {d : Nat} (hd : d ≠ 0) (w : Word) (m : Nat) : (k.setM d w).mGet m = if m = d then w else k.mGet m := by
  unfold Strand.mGet
  by_cases h : m = d
  · subst h; simp [hd]
  · simp [h]

/-- What a mask result leaves: masks and flags alone. -/
theorem Strand.deliverBit_eq (k : Strand) (la : Launch) (u : Bool) (act : Word) (e : Nat × Out) {d : Nat} {b : Bool} (hb : e.2.bit = some (d, b))
    (hr : e.2.regs = []) :
    k.deliver la u act e = (k.setM d (mergeMask (k.mGet d) (if b then 0xFFFFFFFF else 0) (if u then act else bit e.1))).raise e.2.fl := by
  simp only [Strand.deliver, hb, hr, List.foldl_nil]

theorem getLsbD_full (b : Bool) (i : Nat) (hi : i < 32) : (if b then 0xFFFFFFFF else 0 : Word).getLsbD i = b := by
  cases b
  · simp
  · have : (0xFFFFFFFF : Word) = BitVec.allOnes 32 := by decide
    rw [if_pos rfl, this, BitVec.getLsbD_allOnes]
    simp [hi]

theorem Strand.deliverBits (ts : List Nat) (f : Nat → Out) {d : Nat} (hd : d ≠ 0) (b : Nat → Bool) (hb : ∀ t, (f t).bit = some (d, b t))
    (hr : ∀ t, (f t).regs = []) (hnd : ts.Nodup) (k : Strand) (la : Launch) (act : Word) :
    ∃ m p, (ts.map fun t => (t, f t)).foldl (fun k e => k.deliver la false act e) k
        = { k with m := m, mpar := p, fpflags := ts.foldl (fun a t => a ||| (f t).fl) k.fpflags }
      ∧ (∀ n, n ≠ d → Cells.get m n = k.m.get n)
      ∧ ∀ th < 32, (Cells.get m d).getLsbD th = if th ∈ ts then b th else (k.m.get d).getLsbD th := by
  induction ts generalizing k with
  | nil => exact ⟨k.m, k.mpar, rfl, fun _ _ => rfl, fun _ _ => by simp⟩
  | cons a l ih =>
    rw [List.nodup_cons] at hnd
    rw [List.map_cons, List.foldl_cons, Strand.deliverBit_eq k la false act (a, f a) (hb a) (hr a)]
    obtain ⟨m, p, h1, h2, h3⟩ := ih hnd.2 ((k.setM d (mergeMask (k.mGet d) (if b a then 0xFFFFFFFF else 0) (bit a))).raise (f a).fl)
    refine ⟨m, p, h1, fun n hn => (h2 n hn).trans (by simp [hn]), fun th hth => ?_⟩
    rw [h3 th hth]
    simp only [Strand.raise_m, Strand.setM_m, Cells.get_set, if_true]
    by_cases hin : th ∈ l
    · simp [hin]
    · rw [if_neg hin, getLsbD_mergeMask _ _ _ _ hth, getLsbD_bit _ _ hth, getLsbD_full _ _ hth]
      by_cases ha : th = a
      · subst ha; simp
      · have : ¬ a = th := fun e => ha e.symm
        simp [ha, hin, this, Strand.mGet, hd]

/-- The effect of a word that writes a mask. -/
theorem Ctx.deliver_mask {c : Ctx} {u : Bool} {f : Nat → Out} {d : Nat} (hd : d ≠ 0) {b : Nat → Bool} (hb : ∀ t, (f t).bit = some (d, b t))
    (hr : ∀ t, (f t).regs = []) (hiv : c.k.ivt = true → ¬ raisesIV u c.act fun t => (f t).fl) :
    ∃ k m p fl, c.deliver u (c.outs u f) = .done (c.s.setStrand c.r k) ∧ k = { c.k with m := m, mpar := p, fpflags := fl }
      ∧ Raised u c.act c.k.fpflags k.fpflags (fun t => (f t).fl) ∧ (∀ n, n ≠ d → k.mGet n = c.k.mGet n)
      ∧ ∀ th < 32, (k.mGet d).getLsbD th = if u then (if c.act ≠ 0 ∧ c.k.mask.getLsbD th then b 0 else (c.k.mGet d).getLsbD th)
          else if c.act.getLsbD th then b th else (c.k.mGet d).getLsbD th := by
  have hnt : ¬ ((c.k.ivt && ivMask u c.act (c.outs u f) != 0) = true) := by
    intro h
    simp only [Bool.and_eq_true, bne_iff_ne, ne_eq] at h
    refine hiv h.1 ?_
    cases u
    · obtain ⟨t, ht, hv⟩ := ivMask_vec c.act (threadsOf c.act) f h.2
      exact ⟨t, (mem_threadsOf.1 ht).1, (mem_threadsOf.1 ht).2, hv⟩
    · have h2 := h.2
      simp only [Ctx.outs, Ctx.lanes, if_true, ivMask] at h2
      by_cases h0 : c.act = 0
      · simp [h0] at h2
      · simp only [h0, if_false, List.map_cons, List.map_nil, List.any_cons, List.any_nil, Bool.or_false] at h2
        refine ⟨h0, ?_⟩
        refine Classical.byContradiction fun hno => h2 ?_
        rw [if_neg hno]
  simp only [Ctx.deliver]
  rw [if_neg hnt]
  have hg : ∀ (k : Strand), k.mGet d = k.m.get d := fun k => by simp [Strand.mGet, hd]
  cases u
  · simp only [Ctx.outs, Ctx.lanes, Bool.false_eq_true, if_false]
    obtain ⟨m, p, h1, h2, h3⟩ := Strand.deliverBits (threadsOf c.act) f hd b hb hr (threadsOf_nodup _) c.k c.la c.act
    refine ⟨_, m, p, _, rfl, h1, ?_, ?_, ?_⟩
    · intro i _
      rw [h1]
      refine (foldl_or_get (threadsOf c.act) (fun t => (f t).fl) c.k.fpflags i).trans ?_
      simp only [Bool.false_eq_true, if_false, mem_threadsOf]
      constructor <;> rintro (h | ⟨t, h⟩) <;> first | exact .inl h | exact .inr ⟨t, by simpa [and_assoc] using h⟩
    · intro n hn
      rw [h1]
      simp only [Strand.mGet, h2 n hn]
    · intro th hth
      rw [h1, hg, hg]
      refine (h3 th hth).trans ?_
      simp [mem_threadsOf, hth]
  · simp only [Ctx.outs, Ctx.lanes, if_true]
    by_cases h0 : c.act = 0
    · simp only [h0, if_true, List.map_nil, List.foldl_nil]
      exact ⟨_, c.k.m, c.k.mpar, c.k.fpflags, rfl, rfl, fun i _ => by simp, fun _ _ => rfl, fun th hth => by simp⟩
    · simp only [h0, if_false, List.map_cons, List.map_nil, List.foldl_cons, List.foldl_nil]
      rw [Strand.deliverBit_eq c.k c.la true c.k.mask (0, f 0) (hb 0) (hr 0)]
      refine ⟨_, _, _, _, rfl, rfl, ?_, ?_, ?_⟩
      · intro i _
        show (c.k.fpflags ||| (f 0).fl).getLsbD i = true ↔ _
        have h0' : c.act ≠ 0#32 := h0
        simp [h0']
      · intro n hn
        show Strand.mGet (c.k.setM d _) n = _
        rw [Strand.mGet_setM _ hd, if_neg hn]
      · intro th hth
        show (Strand.mGet (c.k.setM d _) d).getLsbD th = _
        rw [Strand.mGet_setM _ hd, if_pos rfl, getLsbD_mergeMask _ _ _ _ hth, getLsbD_full _ _ hth]
        have h0' : c.act ≠ 0#32 := h0
        simp [h0']

/-- Every computing word whose result is a mask completes as `ComputesMask` says. -/
theorem alu_computes_mask {i : Instr} {h : Hdr} {d : BitVec 7} {g : Ctx → Shape} {f : Ctx → Nat → Out} {reads : List Loc} {ok : Ctx → Prop}
    {val : Ctx → Nat → Bool} {fl : Ctx → Nat → Flags}
    (he : ∀ s, exec i s = alu i s h g f)
    (hreads : ∀ c, ok c → ∀ l ∈ (g c).src.map (fun r => locOf h.u r.toNat) ++ (g c).reads, l ∈ reads)
    (hwrites : ∀ c, ok c → ∀ l ∈ (g c).dst.map (locOf h.u) ++ (g c).writes, l = .m d.toNat)
    (hchk : ∀ c, ok c → d ≠ 0 → ((g c).regs.checks c h.u ++ (g c).own).find? Prod.fst = none)
    (hf : ∀ (c : Ctx) t st, c.rd = c.k → (f (c.seen (c.k.active h.g h.gn) st) t) = { bit := some (d.toNat, val (c.seen (c.k.active h.g h.gn) 0) t), fl := fl (c.seen (c.k.active h.g h.gn) 0) t }) :
    ComputesMask i h d reads ok val fl := by
  intro s c hr hd hok act c' hiv
  have hc := State.ctx?_eq hr.focus
  have hs : c.s = s := hc.2.2.2.2.1
  have hd' : d.toNat ≠ 0 := by
    intro h0; exact hd (BitVec.eq_of_toNat_eq (by simpa using h0))
  have hfull : ((g c).spec h c).full.reads = Hdr.guard h ++ ((g c).src.map (fun r => locOf h.u r.toNat) ++ (g c).reads) := by
    show ((g c).spec h c).guards ++ _ = _
    rw [Spec.guards_ofHdr _ rfl]; rfl
  have hready : Ready s c ((g c).spec h c).full.reads ((g c).spec h c).writes := by
    rw [hfull]
    refine hr.mono ?_ ?_
    · intro l hl
      rcases List.mem_append.1 hl with hl | hl
      · exact List.mem_append_left _ hl
      · exact List.mem_append_right _ (hreads c hok l hl)
    · intro l hl; exact .inr (by simp [hwrites c hok l hl])
  let cs := c.seen act (s.startOf c.b c.k ((g c).spec h c).full)
  have hfe : ∀ t, f cs t = { bit := some (d.toNat, val c' t), fl := fl c' t } := fun t => hf c t _ hc.2.2.2.2.2.1
  obtain ⟨k, m, p, fv, hk, hkeq, hra, hm, hbits⟩ := Ctx.deliver_mask (c := cs) (u := h.u) (f := f cs) hd' (b := val c')
    (fun t => by rw [hfe t]) (fun t => by rw [hfe t]) (by intro h1 h2; simp only [hfe] at h2; exact hiv h1 h2)
  have hce : cs.s.setStrand cs.r k = s.setStrand c.r k := by show c.s.setStrand c.r k = _; rw [hs]
  obtain ⟨t, k', hcomp, h1, h2, h3, h4, h5, h6⟩ := word_completed (i := i) (s := s) (s' := s.setStrand c.r k) (c := c)
    (spec := fun c => (g c).spec h c) (eff := fun c => c.deliver h.u (c.outs h.u (f c))) (k := k) (he s) hready (hchk c hok hd)
    (by intro hns; cases hns) rfl rfl (hk.trans (by rw [hce])) ((Alone.refl s c.r).setStrand k) (State.strand?_setStrand_self ..)
    (by rw [hkeq]; rfl) (by rw [hkeq]; rfl) (by rw [hkeq]; rfl)
  have hmg : ∀ n, k'.mGet n = k.mGet n := fun n => by simp only [Strand.mGet, h3, h6]
  refine ⟨t, k', hcomp, ?_, ?_, ?_, ?_, ?_⟩
  · rw [h5]
    intro i hi
    have := hra i hi
    simp only [hfe] at this
    exact this
  · rw [h1, hkeq]; rfl
  · rw [h2, hkeq]; rfl
  · intro n hn; rw [hmg]; exact hm n hn
  · intro th hth; rw [hmg]; exact hbits th hth

end Sys2Proof.Machine
end

