-- ==== Sys2Proof/Laws/Decode.lean ====
section
/-!
SUPPORT. The fields of a word are read back from its encoding (R57 to R68), and a word whose form is read back decodes to its instruction.
-/
namespace Sys2Proof
theorem bit1_get (b : Bool) : (bit1 b).getLsbD 0 = b := by cases b <;> rfl

theorem F.ofWord_toWord (opc fn : Nat) (x : F) : F.ofWord (x.toWord opc fn) = x := by
  simp (disch := decide) only [F.ofWord, Hdr.ofWord, F.toWord, Hdr.toBits, BitVec.extractLsb'_append_eq_of_add_le,
    BitVec.extractLsb'_append_eq_of_le, BitVec.extractLsb'_eq_self, BitVec.getLsbD_append, Nat.reduceLT, Nat.reduceSub, if_true, if_false, bit1_get]
  rfl

theorem I.ofWord_toWord (opc : Nat) (x : I) : I.ofWord (x.toWord opc) = x := by
  simp (disch := decide) only [I.ofWord, Hdr.ofWord, I.toWord, Hdr.toBits, BitVec.extractLsb'_append_eq_of_add_le,
    BitVec.extractLsb'_append_eq_of_le, BitVec.extractLsb'_eq_self, BitVec.getLsbD_append, Nat.reduceLT, Nat.reduceSub, if_true, if_false, bit1_get]
  rfl

theorem M.ofWord_toWord (opc : Nat) (x : M) : M.ofWord (x.toWord opc) = x := by
  simp (disch := decide) only [M.ofWord, Hdr.ofWord, M.toWord, Hdr.toBits, BitVec.extractLsb'_append_eq_of_add_le,
    BitVec.extractLsb'_append_eq_of_le, BitVec.extractLsb'_eq_self, BitVec.getLsbD_append, Nat.reduceLT, Nat.reduceSub, if_true, if_false, bit1_get]
  rfl

theorem J.ofWord_toWord (opc : Nat) (x : J) : J.ofWord (x.toWord opc) = x := by
  simp (disch := decide) only [J.ofWord, J.toWord, BitVec.extractLsb'_append_eq_of_add_le,
    BitVec.extractLsb'_append_eq_of_le, BitVec.extractLsb'_eq_self, BitVec.getLsbD_append, Nat.reduceLT, Nat.reduceSub, if_true, if_false, bit1_get]

theorem E.ofWord_toWord (opc fn : Nat) (x : E) : E.ofWord (x.toWord opc fn) = x := by
  simp (disch := decide) only [E.ofWord, E.toWord, BitVec.extractLsb'_append_eq_of_add_le,
    BitVec.extractLsb'_append_eq_of_le, BitVec.extractLsb'_eq_self, BitVec.getLsbD_append, Nat.reduceLT, Nat.reduceSub, if_true, if_false, bit1_get]

theorem Hop.ofCode_code (h : Hop) : Hop.ofCode h.code.toNat = some h := by cases h <;> rfl

theorem PHalf.ofBits_toBits (p : PHalf) : PHalf.ofBits p.toBits = some p := by
  simp (disch := decide) only [PHalf.ofBits, PHalf.toBits, BitVec.extractLsb'_append_eq_of_add_le, Hop.ofCode_code,
    BitVec.extractLsb'_append_eq_of_le, BitVec.extractLsb'_eq_self, BitVec.getLsbD_append, Nat.reduceLT, Nat.reduceSub, if_true, if_false, bit1_get, Option.map]

theorem all_ones_bit63 {w : Dword} (h : w.getLsbD 63 = false) : w ≠ 0xFFFFFFFFFFFFFFFF#64 := by
  rintro rfl; exact absurd h (by decide)

theorem opc_toNat {opc : Nat} (h : opc < 128) : (BitVec.ofNat 7 opc).toNat = opc := by simp [Nat.mod_eq_of_lt h]

/-- The format of an F word is read back. -/
theorem Form.ofWord_f {opc fn : Nat} (x : F) (h : opc < 128) (hf : fmtOf opc = .f) (hn : fn < 128) :
    Form.ofWord (x.toWord opc fn) = some (.f opc fn x) := by
  have b : (x.toWord opc fn).getLsbD 63 = false := by
    simp only [F.toWord, Hdr.toBits, BitVec.getLsbD_append, Nat.reduceLT, Nat.reduceSub, if_false]; rfl
  have o : (x.toWord opc fn).extractLsb' 56 7 = BitVec.ofNat 7 opc := by
    simp (disch := decide) only [F.toWord, Hdr.toBits, BitVec.extractLsb'_append_eq_of_add_le, BitVec.extractLsb'_append_eq_of_le, Nat.reduceSub]
    exact BitVec.extractLsb'_eq_self
  have n : (x.toWord opc fn).extractLsb' 12 7 = BitVec.ofNat 7 fn := by
    simp (disch := decide) only [F.toWord, Hdr.toBits, BitVec.extractLsb'_append_eq_of_add_le, BitVec.extractLsb'_append_eq_of_le,
      BitVec.extractLsb'_eq_self, Nat.reduceSub]
  simp only [Form.ofWord, if_neg (all_ones_bit63 b), b, o, n, opc_toNat h, opc_toNat hn, hf, F.ofWord_toWord, if_false, Bool.false_eq_true]

theorem Form.ofWord_i {opc : Nat} (x : I) (h : opc < 128) (hf : fmtOf opc = .i) : Form.ofWord (x.toWord opc) = some (.i opc x) := by
  have b : (x.toWord opc).getLsbD 63 = false := by
    simp only [I.toWord, Hdr.toBits, BitVec.getLsbD_append, Nat.reduceLT, Nat.reduceSub, if_false]; rfl
  have o : (x.toWord opc).extractLsb' 56 7 = BitVec.ofNat 7 opc := by
    simp (disch := decide) only [I.toWord, Hdr.toBits, BitVec.extractLsb'_append_eq_of_add_le, BitVec.extractLsb'_append_eq_of_le, Nat.reduceSub]
    exact BitVec.extractLsb'_eq_self
  simp only [Form.ofWord, if_neg (all_ones_bit63 b), b, o, opc_toNat h, hf, I.ofWord_toWord, if_false, Bool.false_eq_true]

theorem Form.ofWord_m {opc : Nat} (x : M) (h : opc < 128) (hf : fmtOf opc = .m) : Form.ofWord (x.toWord opc) = some (.m opc x) := by
  have b : (x.toWord opc).getLsbD 63 = false := by
    simp only [M.toWord, Hdr.toBits, BitVec.getLsbD_append, Nat.reduceLT, Nat.reduceSub, if_false]; rfl
  have o : (x.toWord opc).extractLsb' 56 7 = BitVec.ofNat 7 opc := by
    simp (disch := decide) only [M.toWord, Hdr.toBits, BitVec.extractLsb'_append_eq_of_add_le, BitVec.extractLsb'_append_eq_of_le, Nat.reduceSub]
    exact BitVec.extractLsb'_eq_self
  simp only [Form.ofWord, if_neg (all_ones_bit63 b), b, o, opc_toNat h, hf, M.ofWord_toWord, if_false, Bool.false_eq_true]

theorem Form.ofWord_j {opc : Nat} (x : J) (h : opc < 128) (hf : fmtOf opc = .j) : Form.ofWord (x.toWord opc) = some (.j opc x) := by
  have b : (x.toWord opc).getLsbD 63 = false := by
    simp only [J.toWord, BitVec.getLsbD_append, Nat.reduceLT, Nat.reduceSub, if_false]; rfl
  have o : (x.toWord opc).extractLsb' 56 7 = BitVec.ofNat 7 opc := by
    simp (disch := decide) only [J.toWord, BitVec.extractLsb'_append_eq_of_add_le, BitVec.extractLsb'_append_eq_of_le,
      BitVec.extractLsb'_eq_self, Nat.reduceSub]
  simp only [Form.ofWord, if_neg (all_ones_bit63 b), b, o, opc_toNat h, hf, J.ofWord_toWord, if_false, Bool.false_eq_true]

theorem Form.ofWord_e {opc fn : Nat} (x : E) (h : opc < 128) (hf : fmtOf opc = .e) (hn : fn < 128) :
    Form.ofWord (x.toWord opc fn) = some (.e opc fn x) := by
  have b : (x.toWord opc fn).getLsbD 63 = false := by
    simp only [E.toWord, BitVec.getLsbD_append, Nat.reduceLT, Nat.reduceSub, if_false]; rfl
  have o : (x.toWord opc fn).extractLsb' 56 7 = BitVec.ofNat 7 opc := by
    simp (disch := decide) only [E.toWord, BitVec.extractLsb'_append_eq_of_add_le, BitVec.extractLsb'_append_eq_of_le,
      BitVec.extractLsb'_eq_self, Nat.reduceSub]
  have n : (x.toWord opc fn).extractLsb' 18 7 = BitVec.ofNat 7 fn := by
    simp (disch := decide) only [E.toWord, BitVec.extractLsb'_append_eq_of_add_le, BitVec.extractLsb'_append_eq_of_le,
      BitVec.extractLsb'_eq_self, Nat.reduceSub]
  simp only [Form.ofWord, if_neg (all_ones_bit63 b), b, o, n, opc_toNat h, opc_toNat hn, hf, E.ofWord_toWord, if_false, Bool.false_eq_true]

theorem reserved_i {opc : Nat} (x : I) : reservedBits (x.toWord opc) (.i opc x) = false := by
  simp only [reservedBits, I.toWord, Hdr.toBits, BitVec.getLsbD_append, Nat.reduceLT, Nat.reduceSub, if_true, if_false]; rfl

theorem reserved_j {opc : Nat} (x : J) : reservedBits (x.toWord opc) (.j opc x) = false := by
  simp (disch := decide) only [reservedBits, J.toWord, BitVec.extractLsb'_append_eq_of_add_le, BitVec.extractLsb'_append_eq_of_le,
      BitVec.extractLsb'_eq_self, Nat.reduceSub]; rfl

theorem reserved_e {opc fn : Nat} (x : E) : reservedBits (x.toWord opc fn) (.e opc fn x) = false := by
  simp (disch := decide) only [reservedBits, E.toWord, BitVec.extractLsb'_append_eq_of_add_le, BitVec.extractLsb'_append_eq_of_le,
      BitVec.extractLsb'_eq_self, Nat.reduceSub]; rfl

/-- A word whose form is read back as a well-formed instruction decodes to it. -/
theorem decode_form {i : Instr} {fm : Form} {w : Dword} (hw : i.wf = true) (ho : Form.ofWord w = some fm) (hi : fm.instr = some i)
    (hr : reservedBits w fm = false) : decode w = .ok i := by
  simp [decode, ho, hi, hr, hw]

/-- A form that the opcode map has (R77): its opcode selects its format, and its function code has 7 bits. -/
def Form.sound : Form → Prop
  | .allOnes => True
  | .f opc fn _ => opc ≠ 0 ∧ opc < 128 ∧ fmtOf opc = .f ∧ fn < 128
  | .i opc _ => opc < 128 ∧ fmtOf opc = .i
  | .m opc _ => opc < 128 ∧ fmtOf opc = .m
  | .j opc _ => opc < 128 ∧ fmtOf opc = .j
  | .e opc fn _ => opc < 128 ∧ fmtOf opc = .e ∧ fn < 128
  | .p _ => True

theorem Form.ofWord_p (x : PWord) : Form.ofWord x.toWord = some (.p x) := by
  have b : x.toWord.getLsbD 63 = true := by
    simp only [PWord.toWord, BitVec.getLsbD_append, Nat.reduceLT, Nat.reduceSub, if_false]; rfl
  have h0 : x.toWord.extractLsb' 30 30 = x.h0.toBits := by
    simp (disch := decide) only [PWord.toWord, BitVec.extractLsb'_append_eq_of_add_le, BitVec.extractLsb'_append_eq_of_le,
      BitVec.extractLsb'_eq_self, Nat.reduceSub]
  have h1 : x.toWord.extractLsb' 0 30 = x.h1.toBits := by
    simp (disch := decide) only [PWord.toWord, BitVec.extractLsb'_append_eq_of_add_le, BitVec.extractLsb'_append_eq_of_le,
      BitVec.extractLsb'_eq_self, Nat.reduceSub]
  have st : x.toWord.extractLsb' 60 3 = x.stall := by
    simp (disch := decide) only [PWord.toWord, BitVec.extractLsb'_append_eq_of_add_le, BitVec.extractLsb'_append_eq_of_le,
      BitVec.extractLsb'_eq_self, Nat.reduceSub]
  have n : x.toWord ≠ 0xFFFFFFFFFFFFFFFF#64 := by
    intro h
    have hop : x.h1.hop.code = 0x3F#6 := by
      have : x.h1.toBits.extractLsb' 24 6 = x.h1.hop.code := by
        simp (disch := decide) only [PHalf.toBits, BitVec.extractLsb'_append_eq_of_add_le, BitVec.extractLsb'_append_eq_of_le,
          BitVec.extractLsb'_eq_self, Nat.reduceSub]
      rw [← this, ← h1, h]; rfl
    revert hop; cases x.h1.hop <;> decide
  simp only [Form.ofWord, if_neg n, b, if_true, h0, h1, st, PHalf.ofBits_toBits]

/-- A sound form is read back from its word, and sets no reserved bit. -/
theorem Form.ofWord_toWord (fm : Form) (h : fm.sound) : Form.ofWord fm.toWord = some fm ∧ reservedBits fm.toWord fm = false := by
  cases fm with
  | allOnes => exact ⟨rfl, rfl⟩
  | f opc fn x =>
    obtain ⟨h0, h1, h2, h3⟩ := h
    refine ⟨Form.ofWord_f x h1 h2 h3, ?_⟩
    unfold reservedBits; split <;> simp_all
  | i opc x => exact ⟨Form.ofWord_i x h.1 h.2, reserved_i x⟩
  | m opc x => exact ⟨Form.ofWord_m x h.1 h.2, rfl⟩
  | j opc x => exact ⟨Form.ofWord_j x h.1 h.2, reserved_j x⟩
  | e opc fn x => exact ⟨Form.ofWord_e x h.1 h.2.1 h.2.2, reserved_e x⟩
  | p x => exact ⟨Form.ofWord_p x, rfl⟩

/-- A bounded function code is read back. -/
theorem finFn_val {n : Nat} (fn : Fin n) (mk : Fin n → Instr) : finFn n fn.val mk = some (mk fn) := by simp [finFn]

/-- What the fields of a checked F word satisfy. -/
theorem F.ok_mod {d a b c : Use} {mask : BitVec 12} {x : F} (h : x.ok d a b c mask = true) : x.mod &&& ~~~mask = 0 := by
  simp only [F.ok, Bool.and_eq_true, beq_iff_eq] at h; exact h.2

/-- A MOD bit outside the mask of a checked word is 0. -/
theorem F.mod_bit {d a b c : Use} {mask : BitVec 12} {x : F} (h : x.ok d a b c mask = true) (i : Nat) (hi : i < 12) (hm : mask.getLsbD i = false) :
    x.mod.getLsbD i = false := by
  have h0 := congrArg (·.getLsbD i) (F.ok_mod h)
  have h1 : x.mod.getLsbD i = (0 : BitVec 12).getLsbD i := by
    simpa only [BitVec.getLsbD_and, BitVec.getLsbD_not, hm, hi, decide_true, Bool.not_false, Bool.and_true] using h0
  rw [h1]; simp

end Sys2Proof
end

