-- ==== Sys2Proof/Laws/Frames.lean ====
section
/-!
SUPPORT. The frame of every operation on a device: the fields that it may change; every other field is as before.
-/
set_option Elab.async false
namespace Sys2Proof.Machine
open Sys2Proof.Fp (Flags JOut Rm Jet)

/-- The fields of a device. -/
inductive Part where
  | ns | beatNs | service | ports | dieLinks | hbmStacks | ethLinks | udpPort | flowControl | ecnMarking | retiredClusters | retiredChannels | powerLimit | agedAt | grant
  | fatal | mgmt | hostRead | clusters | cores | fes | lanes | strands | blocks | launches | accs | quorums | echoes | ops | samples
  | services | mem | host | remote | poison | padBad | past | seq | sc | tags | turns | focus | fresh | uid
  deriving DecidableEq

/-- What an event record changes (R380): the buffers' memory and the partition's counters. -/
def recordParts : List Part := [.fes, .host, .mem, .padBad, .past, .poison, .remote, .seq]

/-- What a trap may change: where the launch fails or a shadow is abandoned, its blocks are killed (R341, R346, R357). -/
def trapParts : List Part := [.accs, .blocks, .cores, .fes, .focus, .host, .launches, .mem, .ops, .padBad, .past, .poison, .quorums,
  .remote, .samples, .seq, .services, .strands]

/-- From `s` to `t` nothing changes but the listed fields. -/
structure Only (pts : List Part) (s t : State) : Prop where
  ns : .ns ∉ pts → t.ns = s.ns
  beatNs : .beatNs ∉ pts → t.beatNs = s.beatNs
  service : .service ∉ pts → t.service = s.service
  ports : .ports ∉ pts → t.ports = s.ports
  dieLinks : .dieLinks ∉ pts → t.dieLinks = s.dieLinks
  hbmStacks : .hbmStacks ∉ pts → t.hbmStacks = s.hbmStacks
  ethLinks : .ethLinks ∉ pts → t.ethLinks = s.ethLinks
  udpPort : .udpPort ∉ pts → t.udpPort = s.udpPort
  flowControl : .flowControl ∉ pts → t.flowControl = s.flowControl
  ecnMarking : .ecnMarking ∉ pts → t.ecnMarking = s.ecnMarking
  retiredClusters : .retiredClusters ∉ pts → t.retiredClusters = s.retiredClusters
  retiredChannels : .retiredChannels ∉ pts → t.retiredChannels = s.retiredChannels
  powerLimit : .powerLimit ∉ pts → t.powerLimit = s.powerLimit
  agedAt : .agedAt ∉ pts → t.agedAt = s.agedAt
  grant : .grant ∉ pts → t.grant = s.grant
  fatal : .fatal ∉ pts → t.fatal = s.fatal
  mgmt : .mgmt ∉ pts → t.mgmt = s.mgmt
  hostRead : .hostRead ∉ pts → t.hostRead = s.hostRead
  clusters : .clusters ∉ pts → t.clusters = s.clusters
  cores : .cores ∉ pts → t.cores = s.cores
  fes : .fes ∉ pts → t.fes = s.fes
  lanes : .lanes ∉ pts → t.lanes = s.lanes
  strands : .strands ∉ pts → t.strands = s.strands
  blocks : .blocks ∉ pts → t.blocks = s.blocks
  launches : .launches ∉ pts → t.launches = s.launches
  accs : .accs ∉ pts → t.accs = s.accs
  quorums : .quorums ∉ pts → t.quorums = s.quorums
  echoes : .echoes ∉ pts → t.echoes = s.echoes
  ops : .ops ∉ pts → t.ops = s.ops
  samples : .samples ∉ pts → t.samples = s.samples
  services : .services ∉ pts → t.services = s.services
  mem : .mem ∉ pts → t.mem = s.mem
  host : .host ∉ pts → t.host = s.host
  remote : .remote ∉ pts → t.remote = s.remote
  poison : .poison ∉ pts → t.poison = s.poison
  padBad : .padBad ∉ pts → t.padBad = s.padBad
  past : .past ∉ pts → t.past = s.past
  seq : .seq ∉ pts → t.seq = s.seq
  sc : .sc ∉ pts → t.sc = s.sc
  tags : .tags ∉ pts → t.tags = s.tags
  turns : .turns ∉ pts → t.turns = s.turns
  focus : .focus ∉ pts → t.focus = s.focus
  fresh : .fresh ∉ pts → t.fresh = s.fresh
  uid : .uid ∉ pts → t.uid = s.uid

variable {pts : List Part} {s0 s : State}

/-- Every field of the first list is in the second. -/
abbrev Within (qs pts : List Part) : Prop := ∀ p ∈ qs, p ∈ pts

theorem Within.same : Within pts pts := fun _ h => h
theorem Within.trans {qs rs : List Part} (h : Within qs rs) (h' : Within rs pts) : Within qs pts := fun p hp => h' p (h p hp)
theorem Within.inTrap : Within recordParts trapParts := by decide

theorem Only.refl (pts : List Part) (s : State) : Only pts s s := by
  constructor <;> exact fun _ => rfl

theorem Only.trans {s t u : State} (h : Only pts s t) (h' : Only pts t u) : Only pts s u where
  ns hn := (h'.ns hn).trans (h.ns hn)
  beatNs hn := (h'.beatNs hn).trans (h.beatNs hn)
  service hn := (h'.service hn).trans (h.service hn)
  ports hn := (h'.ports hn).trans (h.ports hn)
  dieLinks hn := (h'.dieLinks hn).trans (h.dieLinks hn)
  hbmStacks hn := (h'.hbmStacks hn).trans (h.hbmStacks hn)
  ethLinks hn := (h'.ethLinks hn).trans (h.ethLinks hn)
  udpPort hn := (h'.udpPort hn).trans (h.udpPort hn)
  flowControl hn := (h'.flowControl hn).trans (h.flowControl hn)
  ecnMarking hn := (h'.ecnMarking hn).trans (h.ecnMarking hn)
  retiredClusters hn := (h'.retiredClusters hn).trans (h.retiredClusters hn)
  retiredChannels hn := (h'.retiredChannels hn).trans (h.retiredChannels hn)
  powerLimit hn := (h'.powerLimit hn).trans (h.powerLimit hn)
  agedAt hn := (h'.agedAt hn).trans (h.agedAt hn)
  grant hn := (h'.grant hn).trans (h.grant hn)
  fatal hn := (h'.fatal hn).trans (h.fatal hn)
  mgmt hn := (h'.mgmt hn).trans (h.mgmt hn)
  hostRead hn := (h'.hostRead hn).trans (h.hostRead hn)
  clusters hn := (h'.clusters hn).trans (h.clusters hn)
  cores hn := (h'.cores hn).trans (h.cores hn)
  fes hn := (h'.fes hn).trans (h.fes hn)
  lanes hn := (h'.lanes hn).trans (h.lanes hn)
  strands hn := (h'.strands hn).trans (h.strands hn)
  blocks hn := (h'.blocks hn).trans (h.blocks hn)
  launches hn := (h'.launches hn).trans (h.launches hn)
  accs hn := (h'.accs hn).trans (h.accs hn)
  quorums hn := (h'.quorums hn).trans (h.quorums hn)
  echoes hn := (h'.echoes hn).trans (h.echoes hn)
  ops hn := (h'.ops hn).trans (h.ops hn)
  samples hn := (h'.samples hn).trans (h.samples hn)
  services hn := (h'.services hn).trans (h.services hn)
  mem hn := (h'.mem hn).trans (h.mem hn)
  host hn := (h'.host hn).trans (h.host hn)
  remote hn := (h'.remote hn).trans (h.remote hn)
  poison hn := (h'.poison hn).trans (h.poison hn)
  padBad hn := (h'.padBad hn).trans (h.padBad hn)
  past hn := (h'.past hn).trans (h.past hn)
  seq hn := (h'.seq hn).trans (h.seq hn)
  sc hn := (h'.sc hn).trans (h.sc hn)
  tags hn := (h'.tags hn).trans (h.tags hn)
  turns hn := (h'.turns hn).trans (h.turns hn)
  focus hn := (h'.focus hn).trans (h.focus hn)
  fresh hn := (h'.fresh hn).trans (h.fresh hn)
  uid hn := (h'.uid hn).trans (h.uid hn)

theorem Only.mono {qs : List Part} {s t : State} (h : Only qs s t) (hs : ∀ p ∈ qs, p ∈ pts) : Only pts s t where
  ns hn := h.ns fun hm => hn (hs _ hm)
  beatNs hn := h.beatNs fun hm => hn (hs _ hm)
  service hn := h.service fun hm => hn (hs _ hm)
  ports hn := h.ports fun hm => hn (hs _ hm)
  dieLinks hn := h.dieLinks fun hm => hn (hs _ hm)
  hbmStacks hn := h.hbmStacks fun hm => hn (hs _ hm)
  ethLinks hn := h.ethLinks fun hm => hn (hs _ hm)
  udpPort hn := h.udpPort fun hm => hn (hs _ hm)
  flowControl hn := h.flowControl fun hm => hn (hs _ hm)
  ecnMarking hn := h.ecnMarking fun hm => hn (hs _ hm)
  retiredClusters hn := h.retiredClusters fun hm => hn (hs _ hm)
  retiredChannels hn := h.retiredChannels fun hm => hn (hs _ hm)
  powerLimit hn := h.powerLimit fun hm => hn (hs _ hm)
  agedAt hn := h.agedAt fun hm => hn (hs _ hm)
  grant hn := h.grant fun hm => hn (hs _ hm)
  fatal hn := h.fatal fun hm => hn (hs _ hm)
  mgmt hn := h.mgmt fun hm => hn (hs _ hm)
  hostRead hn := h.hostRead fun hm => hn (hs _ hm)
  clusters hn := h.clusters fun hm => hn (hs _ hm)
  cores hn := h.cores fun hm => hn (hs _ hm)
  fes hn := h.fes fun hm => hn (hs _ hm)
  lanes hn := h.lanes fun hm => hn (hs _ hm)
  strands hn := h.strands fun hm => hn (hs _ hm)
  blocks hn := h.blocks fun hm => hn (hs _ hm)
  launches hn := h.launches fun hm => hn (hs _ hm)
  accs hn := h.accs fun hm => hn (hs _ hm)
  quorums hn := h.quorums fun hm => hn (hs _ hm)
  echoes hn := h.echoes fun hm => hn (hs _ hm)
  ops hn := h.ops fun hm => hn (hs _ hm)
  samples hn := h.samples fun hm => hn (hs _ hm)
  services hn := h.services fun hm => hn (hs _ hm)
  mem hn := h.mem fun hm => hn (hs _ hm)
  host hn := h.host fun hm => hn (hs _ hm)
  remote hn := h.remote fun hm => hn (hs _ hm)
  poison hn := h.poison fun hm => hn (hs _ hm)
  padBad hn := h.padBad fun hm => hn (hs _ hm)
  past hn := h.past fun hm => hn (hs _ hm)
  seq hn := h.seq fun hm => hn (hs _ hm)
  sc hn := h.sc fun hm => hn (hs _ hm)
  tags hn := h.tags fun hm => hn (hs _ hm)
  turns hn := h.turns fun hm => hn (hs _ hm)
  focus hn := h.focus fun hm => hn (hs _ hm)
  fresh hn := h.fresh fun hm => hn (hs _ hm)
  uid hn := h.uid fun hm => hn (hs _ hm)

/-- A state that is `s` but for some fields, each of which is listed. -/
theorem Only.upd
    {x_ns : Nat} {x_beatNs : Nat} {x_service : Service} {x_ports : BitVec 18} {x_dieLinks : BitVec 4} {x_hbmStacks : BitVec 12}
    {x_ethLinks : BitVec 16} {x_udpPort : BitVec 16} {x_flowControl : BitVec 16} {x_ecnMarking : BitVec 16} {x_retiredClusters : BitVec 32} {x_retiredChannels : BitVec 384} {x_powerLimit : Nat} {x_agedAt : Nat}
    {x_grant : Nat} {x_fatal : Bool} {x_mgmt : Cause} {x_hostRead : List Byte} {x_clusters : Table Nat Cluster}
    {x_cores : Table Nat Core} {x_fes : Table Nat FrontEnd} {x_lanes : Table Nat Lane} {x_strands : Table StrandRef Strand}
    {x_blocks : Table Nat Block} {x_launches : Table Nat Launch} {x_accs : Table Nat Access} {x_quorums : Table Nat QuorumOp}
    {x_echoes : Table Nat QuorumOp} {x_ops : Table Nat EngOp} {x_samples : Table Nat SampleOp} {x_services : Table Nat ServiceOp}
    {x_mem : Memory} {x_host : Memory} {x_remote : Memory} {x_poison : List Nat} {x_padBad : List (Place × Nat)} {x_past : List Past}
    {x_seq : Nat} {x_sc : View} {x_tags : List CellTag} {x_turns : List Turn} {x_focus : Option StrandRef} {x_fresh : Nat}
    {x_uid : Nat}
    (ns : x_ns = s.ns ∨ .ns ∈ pts)
    (beatNs : x_beatNs = s.beatNs ∨ .beatNs ∈ pts)
    (service : x_service = s.service ∨ .service ∈ pts)
    (ports : x_ports = s.ports ∨ .ports ∈ pts)
    (dieLinks : x_dieLinks = s.dieLinks ∨ .dieLinks ∈ pts)
    (hbmStacks : x_hbmStacks = s.hbmStacks ∨ .hbmStacks ∈ pts)
    (ethLinks : x_ethLinks = s.ethLinks ∨ .ethLinks ∈ pts)
    (udpPort : x_udpPort = s.udpPort ∨ .udpPort ∈ pts)
    (flowControl : x_flowControl = s.flowControl ∨ .flowControl ∈ pts)
    (ecnMarking : x_ecnMarking = s.ecnMarking ∨ .ecnMarking ∈ pts)
    (retiredClusters : x_retiredClusters = s.retiredClusters ∨ .retiredClusters ∈ pts)
    (retiredChannels : x_retiredChannels = s.retiredChannels ∨ .retiredChannels ∈ pts)
    (powerLimit : x_powerLimit = s.powerLimit ∨ .powerLimit ∈ pts)
    (agedAt : x_agedAt = s.agedAt ∨ .agedAt ∈ pts)
    (grant : x_grant = s.grant ∨ .grant ∈ pts)
    (fatal : x_fatal = s.fatal ∨ .fatal ∈ pts)
    (mgmt : x_mgmt = s.mgmt ∨ .mgmt ∈ pts)
    (hostRead : x_hostRead = s.hostRead ∨ .hostRead ∈ pts)
    (clusters : x_clusters = s.clusters ∨ .clusters ∈ pts)
    (cores : x_cores = s.cores ∨ .cores ∈ pts)
    (fes : x_fes = s.fes ∨ .fes ∈ pts)
    (lanes : x_lanes = s.lanes ∨ .lanes ∈ pts)
    (strands : x_strands = s.strands ∨ .strands ∈ pts)
    (blocks : x_blocks = s.blocks ∨ .blocks ∈ pts)
    (launches : x_launches = s.launches ∨ .launches ∈ pts)
    (accs : x_accs = s.accs ∨ .accs ∈ pts)
    (quorums : x_quorums = s.quorums ∨ .quorums ∈ pts)
    (echoes : x_echoes = s.echoes ∨ .echoes ∈ pts)
    (ops : x_ops = s.ops ∨ .ops ∈ pts)
    (samples : x_samples = s.samples ∨ .samples ∈ pts)
    (services : x_services = s.services ∨ .services ∈ pts)
    (mem : x_mem = s.mem ∨ .mem ∈ pts)
    (host : x_host = s.host ∨ .host ∈ pts)
    (remote : x_remote = s.remote ∨ .remote ∈ pts)
    (poison : x_poison = s.poison ∨ .poison ∈ pts)
    (padBad : x_padBad = s.padBad ∨ .padBad ∈ pts)
    (past : x_past = s.past ∨ .past ∈ pts)
    (seq : x_seq = s.seq ∨ .seq ∈ pts)
    (sc : x_sc = s.sc ∨ .sc ∈ pts)
    (tags : x_tags = s.tags ∨ .tags ∈ pts)
    (turns : x_turns = s.turns ∨ .turns ∈ pts)
    (focus : x_focus = s.focus ∨ .focus ∈ pts)
    (fresh : x_fresh = s.fresh ∨ .fresh ∈ pts)
    (uid : x_uid = s.uid ∨ .uid ∈ pts) (h : Only pts s0 s) :
    Only pts s0 ⟨x_ns, x_beatNs, x_service, x_ports, x_dieLinks, x_hbmStacks, x_ethLinks, x_udpPort, x_flowControl, x_ecnMarking, x_retiredClusters, x_retiredChannels,
      x_powerLimit, x_agedAt, x_grant, x_fatal, x_mgmt, x_hostRead, x_clusters, x_cores, x_fes, x_lanes, x_strands, x_blocks,
      x_launches, x_accs, x_quorums, x_echoes, x_ops, x_samples, x_services, x_mem, x_host, x_remote, x_poison, x_padBad, x_past,
      x_seq, x_sc, x_tags, x_turns, x_focus, x_fresh, x_uid⟩ where
  ns hn := (ns.resolve_right hn).trans (h.ns hn)
  beatNs hn := (beatNs.resolve_right hn).trans (h.beatNs hn)
  service hn := (service.resolve_right hn).trans (h.service hn)
  ports hn := (ports.resolve_right hn).trans (h.ports hn)
  dieLinks hn := (dieLinks.resolve_right hn).trans (h.dieLinks hn)
  hbmStacks hn := (hbmStacks.resolve_right hn).trans (h.hbmStacks hn)
  ethLinks hn := (ethLinks.resolve_right hn).trans (h.ethLinks hn)
  udpPort hn := (udpPort.resolve_right hn).trans (h.udpPort hn)
  flowControl hn := (flowControl.resolve_right hn).trans (h.flowControl hn)
  ecnMarking hn := (ecnMarking.resolve_right hn).trans (h.ecnMarking hn)
  retiredClusters hn := (retiredClusters.resolve_right hn).trans (h.retiredClusters hn)
  retiredChannels hn := (retiredChannels.resolve_right hn).trans (h.retiredChannels hn)
  powerLimit hn := (powerLimit.resolve_right hn).trans (h.powerLimit hn)
  agedAt hn := (agedAt.resolve_right hn).trans (h.agedAt hn)
  grant hn := (grant.resolve_right hn).trans (h.grant hn)
  fatal hn := (fatal.resolve_right hn).trans (h.fatal hn)
  mgmt hn := (mgmt.resolve_right hn).trans (h.mgmt hn)
  hostRead hn := (hostRead.resolve_right hn).trans (h.hostRead hn)
  clusters hn := (clusters.resolve_right hn).trans (h.clusters hn)
  cores hn := (cores.resolve_right hn).trans (h.cores hn)
  fes hn := (fes.resolve_right hn).trans (h.fes hn)
  lanes hn := (lanes.resolve_right hn).trans (h.lanes hn)
  strands hn := (strands.resolve_right hn).trans (h.strands hn)
  blocks hn := (blocks.resolve_right hn).trans (h.blocks hn)
  launches hn := (launches.resolve_right hn).trans (h.launches hn)
  accs hn := (accs.resolve_right hn).trans (h.accs hn)
  quorums hn := (quorums.resolve_right hn).trans (h.quorums hn)
  echoes hn := (echoes.resolve_right hn).trans (h.echoes hn)
  ops hn := (ops.resolve_right hn).trans (h.ops hn)
  samples hn := (samples.resolve_right hn).trans (h.samples hn)
  services hn := (services.resolve_right hn).trans (h.services hn)
  mem hn := (mem.resolve_right hn).trans (h.mem hn)
  host hn := (host.resolve_right hn).trans (h.host hn)
  remote hn := (remote.resolve_right hn).trans (h.remote hn)
  poison hn := (poison.resolve_right hn).trans (h.poison hn)
  padBad hn := (padBad.resolve_right hn).trans (h.padBad hn)
  past hn := (past.resolve_right hn).trans (h.past hn)
  seq hn := (seq.resolve_right hn).trans (h.seq hn)
  sc hn := (sc.resolve_right hn).trans (h.sc hn)
  tags hn := (tags.resolve_right hn).trans (h.tags hn)
  turns hn := (turns.resolve_right hn).trans (h.turns hn)
  focus hn := (focus.resolve_right hn).trans (h.focus hn)
  fresh hn := (fresh.resolve_right hn).trans (h.fresh hn)
  uid hn := (uid.resolve_right hn).trans (h.uid hn)

theorem Only.foldl {f : State → α → State} {l : List α} (hf : ∀ s e, Only pts s0 s → Only pts s0 (f s e)) (h : Only pts s0 s) :
    Only pts s0 (l.foldl f s) := by
  induction l generalizing s with
  | nil => exact h
  | cons e l ih => exact ih (hf _ _ h)

/-- A fold that carries something beside the state. -/
theorem Only.foldlPair {f : State × β → α → State × β} {l : List α} {b : β}
    (hf : ∀ p e, Only pts s0 p.1 → Only pts s0 (f p e).1) (h : Only pts s0 s) : Only pts s0 (l.foldl f (s, b)).1 := by
  suffices ∀ p : State × β, Only pts s0 p.1 → Only pts s0 (l.foldl f p).1 from this _ h
  intro p hp
  induction l generalizing p with
  | nil => exact hp
  | cons e l ih => exact ih _ (hf _ _ hp)

theorem Only.getD {o : Option State} (ho : ∀ t, o = some t → Only pts s0 t) (h : Only pts s0 s) : Only pts s0 (o.getD s) := by
  cases o with
  | none => exact h
  | some t => exact ho t rfl

/-! ## Clock -/

theorem State.setFe_only {f : Nat} {x : FrontEnd} (ho : Only pts s0 s) (hin : Within [.fes] pts) :
    Only pts s0 (State.setFe s f x) := by
  refine ho.trans (Only.mono ?_ hin)
  clear ho hin
  have hk := Only.refl [.fes] s
  unfold State.setFe
  try dsimp only
  with_reducible repeat' first | exact hk | assumption | (intro _) | split | exact Or.inl rfl | exact Or.inr (by decide) | apply Only.upd

theorem State.reachCycle_only {core cyc : Nat} (ho : Only pts s0 s) (hin : Within [.cores, .ns] pts) :
    Only pts s0 (State.reachCycle s core cyc) := by
  refine ho.trans (Only.mono ?_ hin)
  clear ho hin
  have hk := Only.refl [.cores, .ns] s
  unfold State.reachCycle
  try dsimp only
  with_reducible repeat' first | exact hk | assumption | (intro _) | split | exact Or.inl rfl | exact Or.inr (by decide) | apply Only.upd

theorem State.modFe_only {f : Nat} {g : FrontEnd → FrontEnd} (ho : Only pts s0 s) (hin : Within [.fes] pts) :
    Only pts s0 (State.modFe s f g) := by
  refine ho.trans (Only.mono ?_ hin)
  clear ho hin
  have hk := Only.refl [.fes] s
  unfold State.modFe
  try dsimp only
  with_reducible repeat' first | exact hk | apply State.setFe_only | exact .same

theorem State.setCore_only {k : Nat} {x : Core} (ho : Only pts s0 s) (hin : Within [.cores] pts) :
    Only pts s0 (State.setCore s k x) := by
  refine ho.trans (Only.mono ?_ hin)
  clear ho hin
  have hk := Only.refl [.cores] s
  unfold State.setCore
  try dsimp only
  with_reducible repeat' first | exact hk | assumption | (intro _) | split | exact Or.inl rfl | exact Or.inr (by decide) | apply Only.upd

theorem State.setStrand_only {r : StrandRef} {k : Strand} (ho : Only pts s0 s) (hin : Within [.strands] pts) :
    Only pts s0 (State.setStrand s r k) := by
  refine ho.trans (Only.mono ?_ hin)
  clear ho hin
  have hk := Only.refl [.strands] s
  unfold State.setStrand
  try dsimp only
  with_reducible repeat' first | exact hk | assumption | (intro _) | split | exact Or.inl rfl | exact Or.inr (by decide) | apply Only.upd

theorem State.modStrand_only {r : StrandRef} {f : Strand → Strand} (ho : Only pts s0 s) (hin : Within [.strands] pts) :
    Only pts s0 (State.modStrand s r f) := by
  refine ho.trans (Only.mono ?_ hin)
  clear ho hin
  have hk := Only.refl [.strands] s
  unfold State.modStrand
  try dsimp only
  with_reducible repeat' first | exact hk | assumption | (intro _) | split | exact Or.inl rfl | exact Or.inr (by decide) | apply Only.upd

theorem State.setBlock_only {b : Nat} {x : Block} (ho : Only pts s0 s) (hin : Within [.blocks] pts) :
    Only pts s0 (State.setBlock s b x) := by
  refine ho.trans (Only.mono ?_ hin)
  clear ho hin
  have hk := Only.refl [.blocks] s
  unfold State.setBlock
  try dsimp only
  with_reducible repeat' first | exact hk | assumption | (intro _) | split | exact Or.inl rfl | exact Or.inr (by decide) | apply Only.upd

theorem State.modBlock_only {b : Nat} {f : Block → Block} (ho : Only pts s0 s) (hin : Within [.blocks] pts) :
    Only pts s0 (State.modBlock s b f) := by
  refine ho.trans (Only.mono ?_ hin)
  clear ho hin
  have hk := Only.refl [.blocks] s
  unfold State.modBlock
  try dsimp only
  with_reducible repeat' first | exact hk | assumption | (intro _) | split | exact Or.inl rfl | exact Or.inr (by decide) | apply Only.upd

theorem State.setLaunch_only {l : Nat} {x : Launch} (ho : Only pts s0 s) (hin : Within [.launches] pts) :
    Only pts s0 (State.setLaunch s l x) := by
  refine ho.trans (Only.mono ?_ hin)
  clear ho hin
  have hk := Only.refl [.launches] s
  unfold State.setLaunch
  try dsimp only
  with_reducible repeat' first | exact hk | assumption | (intro _) | split | exact Or.inl rfl | exact Or.inr (by decide) | apply Only.upd

theorem State.modLaunch_only {l : Nat} {f : Launch → Launch} (ho : Only pts s0 s) (hin : Within [.launches] pts) :
    Only pts s0 (State.modLaunch s l f) := by
  refine ho.trans (Only.mono ?_ hin)
  clear ho hin
  have hk := Only.refl [.launches] s
  unfold State.modLaunch
  try dsimp only
  with_reducible repeat' first | exact hk | assumption | (intro _) | split | exact Or.inl rfl | exact Or.inr (by decide) | apply Only.upd

theorem State.draw_only  (ho : Only pts s0 s) (hin : Within [.fresh] pts) :
    Only pts s0 (State.draw s).2 := by
  refine ho.trans (Only.mono ?_ hin)
  clear ho hin
  have hk := Only.refl [.fresh] s
  unfold State.draw
  try dsimp only
  with_reducible repeat' first | exact hk | assumption | (intro _) | split | exact Or.inl rfl | exact Or.inr (by decide) | apply Only.upd

theorem State.name_only  (ho : Only pts s0 s) (hin : Within [.uid] pts) :
    Only pts s0 (State.name s).2 := by
  refine ho.trans (Only.mono ?_ hin)
  clear ho hin
  have hk := Only.refl [.uid] s
  unfold State.name
  try dsimp only
  with_reducible repeat' first | exact hk | assumption | (intro _) | split | exact Or.inl rfl | exact Or.inr (by decide) | apply Only.upd

/-! ## Order -/

theorem State.setMem_only {pl : Place} {m : Memory} (ho : Only pts s0 s) (hin : Within [.blocks, .host, .launches, .mem, .remote] pts) :
    Only pts s0 (State.setMem s pl m) := by
  refine ho.trans (Only.mono ?_ hin)
  clear ho hin
  have hk := Only.refl [.blocks, .host, .launches, .mem, .remote] s
  unfold State.setMem
  try dsimp only
  with_reducible repeat' first
    | exact hk | apply State.modBlock_only | apply State.modLaunch_only | exact .same | exact .inTrap | exact (by decide) | assumption
    | (intro _) | split | exact Or.inl rfl | exact Or.inr (by decide) | apply Only.upd

theorem State.write_only {pl : Place} {a : Nat} {bs : List Byte} {w : Author} {sel : Nat → Bool} (ho : Only pts s0 s)
    (hin : Within [.blocks, .host, .launches, .mem, .padBad, .past, .poison, .remote, .seq] pts) :
    Only pts s0 (State.write s pl a bs w sel) := by
  refine ho.trans (Only.mono ?_ hin)
  clear ho hin
  have hk := Only.refl [.blocks, .host, .launches, .mem, .padBad, .past, .poison, .remote, .seq] s
  unfold State.write
  try dsimp only
  with_reducible repeat' first
    | exact hk | apply State.setMem_only | exact .same | exact .inTrap | exact (by decide) | assumption | (intro _) | split
    | exact Or.inl rfl | exact Or.inr (by decide) | apply Only.upd

theorem State.fenceSc_only {r : StrandRef} {m : Word} (ho : Only pts s0 s) (hin : Within [.sc, .strands] pts) :
    Only pts s0 (State.fenceSc s r m) := by
  refine ho.trans (Only.mono ?_ hin)
  clear ho hin
  have hk := Only.refl [.sc, .strands] s
  unfold State.fenceSc
  try dsimp only
  with_reducible repeat' first
    | exact hk | apply State.setStrand_only | exact .same | exact .inTrap | exact (by decide) | apply Only.foldl | apply Only.foldlPair
    | assumption | (intro _) | split | exact Or.inl rfl | exact Or.inr (by decide) | apply Only.upd

/-! ## Translate -/

theorem State.flushTlb_only {fe : Nat} (ho : Only pts s0 s) (hin : Within [.fes] pts) :
    Only pts s0 (State.flushTlb s fe) := by
  refine ho.trans (Only.mono ?_ hin)
  clear ho hin
  have hk := Only.refl [.fes] s
  unfold State.flushTlb
  try dsimp only
  with_reducible repeat' first | exact hk | apply State.modFe_only | exact .same

/-- A write to a page changes nothing but the three memories and what the model keeps of past contents. -/
theorem State.write_out {pl : Place} {a : Nat} {bs : List Byte} {w : Author} {sel : Nat → Bool}
    (hp : pl = .device ∨ pl = .host ∨ pl = .remote) :
    Only [.host, .mem, .padBad, .past, .poison, .remote, .seq] s (s.write pl a bs w sel) := by
  have hk := Only.refl [.host, .mem, .padBad, .past, .poison, .remote, .seq] s
  rcases hp with rfl | rfl | rfl <;> unfold State.write State.setMem <;> dsimp only <;>
    (apply Only.upd (h := hk) <;> first | exact Or.inl rfl | exact Or.inr (by decide))

theorem FrontEnd.place_out (f : FrontEnd) (p : Page) : (f.place p).1 = .device ∨ (f.place p).1 = .host ∨ (f.place p).1 = .remote := by
  unfold FrontEnd.place
  repeat' split
  all_goals first | exact .inl rfl | exact .inr (.inl rfl) | exact .inr (.inr rfl)

theorem State.writePage_only {f : FrontEnd} {p : Page} {bs : List Byte} {w : Author} {sel : Nat → Bool} (ho : Only pts s0 s)
    (hin : Within [.host, .mem, .padBad, .past, .poison, .remote, .seq] pts) :
    Only pts s0 (State.writePage s f p bs w sel) := by
  refine ho.trans (Only.mono ?_ hin)
  clear ho hin
  have hk := Only.refl [.host, .mem, .padBad, .past, .poison, .remote, .seq] s
  unfold State.writePage
  refine Only.trans (t := { s with mem := setDirty s.mem p }) ?_ (State.write_out (FrontEnd.place_out f p))
  apply Only.upd (h := hk) <;> first | exact Or.inl rfl | exact Or.inr (by decide)

/-! ## Stalls -/

theorem State.noteStalls_only {core : Nat} {reset : Option Nat} (ho : Only pts s0 s) (hin : Within [.blocks] pts) :
    Only pts s0 (State.noteStalls s core reset) := by
  refine ho.trans (Only.mono ?_ hin)
  clear ho hin
  have hk := Only.refl [.blocks] s
  unfold State.noteStalls
  try dsimp only
  with_reducible repeat' first | exact hk | assumption | (intro _) | split | exact Or.inl rfl | exact Or.inr (by decide) | apply Only.upd

/-! ## Report -/

theorem State.writeVa_only {fe va : Nat} {bs : List Byte} {w : Author} (ho : Only pts s0 s)
    (hin : Within [.host, .mem, .padBad, .past, .poison, .remote, .seq] pts) {out : State} (e : State.writeVa s fe va bs w = some out) :
    Only pts s0 out := by
  refine ho.trans (Only.mono ?_ hin)
  clear ho hin
  have hk := Only.refl [.host, .mem, .padBad, .past, .poison, .remote, .seq] s
  unfold State.writeVa at e
  try dsimp only at e
  with_reducible repeat' first | split at e | cases e | exact hk | apply State.writePage_only | exact .same

theorem State.count_only {fe i n : Nat} (ho : Only pts s0 s) (hin : Within [.fes] pts) :
    Only pts s0 (State.count s fe i n) := by
  refine ho.trans (Only.mono ?_ hin)
  clear ho hin
  have hk := Only.refl [.fes] s
  unfold State.count
  try dsimp only
  with_reducible repeat' first | exact hk | apply State.modFe_only | exact .same

theorem State.traffic_only {fe : Nat} {p : Page} (ho : Only pts s0 s) (hin : Within [.fes] pts) :
    Only pts s0 (State.traffic s fe p) := by
  refine ho.trans (Only.mono ?_ hin)
  clear ho hin
  have hk := Only.refl [.fes] s
  unfold State.traffic
  try dsimp only
  with_reducible repeat' first
    | exact hk | apply State.count_only | exact .same | exact .inTrap | exact (by decide) | assumption | (intro _) | split

theorem State.countMem_only {fe i n : Nat} {p : Page} (ho : Only pts s0 s) (hin : Within [.fes] pts) :
    Only pts s0 (State.countMem s fe i n p) := by
  refine ho.trans (Only.mono ?_ hin)
  clear ho hin
  have hk := Only.refl [.fes] s
  unfold State.countMem
  try dsimp only
  with_reducible repeat' first
    | exact hk | apply State.count_only | exact .same | exact .inTrap | exact (by decide) | assumption | (intro _) | split

theorem State.countCycles_only {cl : Nat} (ho : Only pts s0 s) (hin : Within [.clusters, .fes] pts) :
    Only pts s0 (State.countCycles s cl) := by
  refine ho.trans (Only.mono ?_ hin)
  clear ho hin
  have hk := Only.refl [.clusters, .fes] s
  unfold State.countCycles
  try dsimp only
  with_reducible repeat' first
    | exact hk | apply State.count_only | exact .same | exact .inTrap | exact (by decide) | apply Only.getD | assumption | (intro _) | split
    | exact Or.inl rfl | exact Or.inr (by decide) | apply Only.upd

theorem State.credit_only  (ho : Only pts s0 s) (hin : Within [.clusters, .fes] pts) :
    Only pts s0 (State.credit s) := by
  refine ho.trans (Only.mono ?_ hin)
  clear ho hin
  have hk := Only.refl [.clusters, .fes] s
  unfold State.credit
  try dsimp only
  with_reducible repeat' first
    | exact hk | apply State.countCycles_only | exact .same | exact .inTrap | exact (by decide) | apply Only.foldl | apply Only.foldlPair
    | assumption | (intro _)

theorem State.append_only {fe base : Nat} {rec : List Byte} (ho : Only pts s0 s) (hin : Within recordParts pts) :
    Only pts s0 (State.append s fe base rec) := by
  refine ho.trans (Only.mono ?_ hin)
  clear ho hin
  have hk := Only.refl recordParts s
  unfold State.append
  try dsimp only
  with_reducible repeat' first
    | exact hk | apply State.count_only | (refine State.writeVa_only ?_ ?_ (by assumption)) | exact .same | exact .inTrap
    | exact (by decide) | apply Only.getD | assumption | (intro _) | split

theorem State.emit_only {fe lid : Nat} {code : Cause} {src : Src} {unit : Nat} {pay : List Byte} {sub : Nat} (ho : Only pts s0 s)
    (hin : Within recordParts pts) :
    Only pts s0 (State.emit s fe lid code src unit pay sub) := by
  refine ho.trans (Only.mono ?_ hin)
  clear ho hin
  have hk := Only.refl recordParts s
  unfold State.emit
  try dsimp only
  with_reducible repeat' first | exact hk | apply State.append_only | exact .same

theorem State.emitAll_only {code : Cause} {src : Src} {unit : Nat} {pay : List Byte} (ho : Only pts s0 s) (hin : Within recordParts pts) :
    Only pts s0 (State.emitAll s code src unit pay) := by
  refine ho.trans (Only.mono ?_ hin)
  clear ho hin
  have hk := Only.refl recordParts s
  unfold State.emitAll
  try dsimp only
  with_reducible repeat' first
    | exact hk | apply State.emit_only | exact .same | exact .inTrap | exact (by decide) | apply Only.foldl | apply Only.foldlPair
    | assumption | (intro _) | split

theorem State.writeStatus_only {fe : Nat} (ho : Only pts s0 s) (hin : Within [.host, .mem, .padBad, .past, .poison, .remote, .seq] pts) :
    Only pts s0 (State.writeStatus s fe) := by
  refine ho.trans (Only.mono ?_ hin)
  clear ho hin
  have hk := Only.refl [.host, .mem, .padBad, .past, .poison, .remote, .seq] s
  unfold State.writeStatus
  try dsimp only
  split
  · exact hk
  · exact State.write_out (.inr (.inl rfl))

theorem State.completeCmd_only {fe i : Nat} {c : Cmd} {cause : Cause} (ho : Only pts s0 s) (hin : Within recordParts pts) :
    Only pts s0 (State.completeCmd s fe i c cause) := by
  refine ho.trans (Only.mono ?_ hin)
  clear ho hin
  have hk := Only.refl recordParts s
  unfold State.completeCmd
  try dsimp only
  with_reducible repeat' first
    | exact hk | (refine State.writeVa_only ?_ ?_ (by assumption)) | apply State.modFe_only | apply State.writeStatus_only | exact .same
    | exact .inTrap | exact (by decide) | apply Only.getD | assumption | (intro _) | split

theorem State.dropStrands_only {b : Nat} (ho : Only pts s0 s) (hin : Within [.strands] pts) :
    Only pts s0 (State.dropStrands s b) := by
  refine ho.trans (Only.mono ?_ hin)
  clear ho hin
  have hk := Only.refl [.strands] s
  unfold State.dropStrands
  try dsimp only
  with_reducible repeat' first | exact hk | assumption | (intro _) | split | exact Or.inl rfl | exact Or.inr (by decide) | apply Only.upd

theorem State.landUnit_only {o : EngOp} {w : Nat × List Byte × List Byte} (ho : Only pts s0 s) (hin : Within recordParts pts) :
    Only pts s0 (State.landUnit s o w) := by
  refine ho.trans (Only.mono ?_ hin)
  clear ho hin
  have hk := Only.refl recordParts s
  unfold State.landUnit
  try dsimp only
  with_reducible repeat' first
    | exact hk | apply State.writePage_only | apply State.countMem_only | apply State.traffic_only | exact .same | exact .inTrap
    | exact (by decide) | apply Only.getD | assumption | (intro _) | split

theorem State.endLines_only {o : EngOp} (ho : Only pts s0 s) (hin : Within recordParts pts) :
    Only pts s0 (State.endLines s o) := by
  refine ho.trans (Only.mono ?_ hin)
  clear ho hin
  have hk := Only.refl recordParts s
  unfold State.endLines
  try dsimp only
  with_reducible repeat' first
    | exact hk | apply State.landUnit_only | exact .same | exact .inTrap | exact (by decide) | apply Only.foldl | apply Only.foldlPair
    | assumption | (intro _) | split

theorem State.killBlock_only {b : Nat} (ho : Only pts s0 s)
    (hin : Within [.accs, .blocks, .cores, .fes, .focus, .host, .mem, .ops, .padBad, .past, .poison, .quorums, .remote, .samples, .seq, .services, .strands] pts) :
    Only pts s0 (State.killBlock s b) := by
  refine ho.trans (Only.mono ?_ hin)
  clear ho hin
  have hk := Only.refl [.accs, .blocks, .cores, .fes, .focus, .host, .mem, .ops, .padBad, .past, .poison, .quorums, .remote, .samples, .seq, .services, .strands] s
  unfold State.killBlock
  try dsimp only
  with_reducible repeat' first
    | exact hk | apply State.endLines_only | apply State.dropStrands_only | apply State.noteStalls_only | exact .same | exact .inTrap
    | exact (by decide) | apply Only.foldl | apply Only.foldlPair | apply Only.getD | assumption | (intro _) | split | exact Or.inl rfl
    | exact Or.inr (by decide) | apply Only.upd

theorem State.abandonShadow_only {blk : Nat} (ho : Only pts s0 s)
    (hin : Within [.accs, .blocks, .cores, .fes, .focus, .host, .mem, .ops, .padBad, .past, .poison, .quorums, .remote, .samples, .seq, .services, .strands] pts) :
    Only pts s0 (State.abandonShadow s blk) := by
  refine ho.trans (Only.mono ?_ hin)
  clear ho hin
  have hk := Only.refl [.accs, .blocks, .cores, .fes, .focus, .host, .mem, .ops, .padBad, .past, .poison, .quorums, .remote, .samples, .seq, .services, .strands] s
  unfold State.abandonShadow
  try dsimp only
  with_reducible repeat' first
    | exact hk | apply State.modBlock_only | apply State.killBlock_only | apply State.emit_only | exact .same | exact .inTrap
    | exact (by decide) | apply Only.getD | assumption | (intro _) | split

theorem State.failLaunch_only {l : Nat} {c : Cause} {sub : Nat} {pay : List Byte} (ho : Only pts s0 s) (hin : Within trapParts pts) :
    Only pts s0 (State.failLaunch s l c sub pay) := by
  refine ho.trans (Only.mono ?_ hin)
  clear ho hin
  have hk := Only.refl trapParts s
  unfold State.failLaunch
  try dsimp only
  with_reducible repeat' first
    | exact hk | apply State.setLaunch_only | apply State.killBlock_only | apply State.emit_only | exact .same | exact .inTrap
    | exact (by decide) | apply Only.foldl | apply Only.foldlPair | assumption | (intro _) | split

/-! ## Lanes -/

theorem State.passOver_only {view : List LaneStrand} {x : StrandRef} {t last : Nat} (ho : Only pts s0 s) (hin : Within [.strands] pts) :
    Only pts s0 (State.passOver s view x t last) := by
  refine ho.trans (Only.mono ?_ hin)
  clear ho hin
  have hk := Only.refl [.strands] s
  unfold State.passOver
  try dsimp only
  with_reducible repeat' first
    | exact hk | apply State.modStrand_only | exact .same | exact .inTrap | exact (by decide) | apply Only.foldl | apply Only.foldlPair
    | assumption | (intro _) | split

/-! ## Recovery -/

theorem State.requeue_only {blk : Nat} (ho : Only pts s0 s) (hin : Within trapParts pts) :
    Only pts s0 (State.requeue s blk) := by
  refine ho.trans (Only.mono ?_ hin)
  clear ho hin
  have hk := Only.refl trapParts s
  unfold State.requeue
  try dsimp only
  with_reducible repeat' first
    | exact hk | apply State.killBlock_only | apply State.modLaunch_only | exact .same | exact .inTrap | exact (by decide) | assumption
    | (intro _) | split

theorem State.abandonPair_only {blk : Nat} (ho : Only pts s0 s)
    (hin : Within [.accs, .blocks, .cores, .fes, .focus, .host, .mem, .ops, .padBad, .past, .poison, .quorums, .remote, .samples, .seq, .services, .strands] pts) :
    Only pts s0 (State.abandonPair s blk) := by
  refine ho.trans (Only.mono ?_ hin)
  clear ho hin
  have hk := Only.refl [.accs, .blocks, .cores, .fes, .focus, .host, .mem, .ops, .padBad, .past, .poison, .quorums, .remote, .samples, .seq, .services, .strands] s
  unfold State.abandonPair
  try dsimp only
  with_reducible repeat' first
    | exact hk | apply State.abandonShadow_only | exact .same | exact .inTrap | exact (by decide) | assumption | (intro _) | split

theorem State.relaunch_only {blk : Nat} (ho : Only pts s0 s) (hin : Within trapParts pts) :
    Only pts s0 (State.relaunch s blk) := by
  refine ho.trans (Only.mono ?_ hin)
  clear ho hin
  have hk := Only.refl trapParts s
  unfold State.relaunch
  try dsimp only
  with_reducible repeat' first
    | exact hk | apply State.failLaunch_only | apply State.abandonPair_only | apply State.modLaunch_only | apply State.requeue_only
    | apply State.emit_only | exact .same | exact .inTrap | exact (by decide) | apply Only.getD | assumption | (intro _) | split

theorem State.consume_only {blk : Nat} {cause : Cause} (ho : Only pts s0 s) (hin : Within trapParts pts) {out : State}
    (e : State.consume s blk cause = some out) :
    Only pts s0 out := by
  refine ho.trans (Only.mono ?_ hin)
  clear ho hin
  have hk := Only.refl trapParts s
  unfold State.consume at e
  try dsimp only at e
  with_reducible repeat' first
    | split at e | cases e | exact hk | apply State.abandonShadow_only | apply State.relaunch_only | apply State.failLaunch_only
    | exact .same | exact .inTrap | exact (by decide)

theorem State.blockFails_only {blk : Nat} {b : Block} {c : Cause} {sub : Nat} (ho : Only pts s0 s) (hin : Within trapParts pts) :
    Only pts s0 (State.blockFails s blk b c sub) := by
  refine ho.trans (Only.mono ?_ hin)
  clear ho hin
  have hk := Only.refl trapParts s
  unfold State.blockFails
  try dsimp only
  with_reducible repeat' first
    | exact hk | apply State.abandonShadow_only | apply State.failLaunch_only | exact .same | exact .inTrap | exact (by decide) | assumption
    | (intro _) | split

theorem State.unheard_only {blk : Nat} {b : Block} {f : HeldFault} (ho : Only pts s0 s) (hin : Within trapParts pts) :
    Only pts s0 (State.unheard s blk b f) := by
  refine ho.trans (Only.mono ?_ hin)
  clear ho hin
  have hk := Only.refl trapParts s
  unfold State.unheard
  try dsimp only
  with_reducible repeat' first | exact hk | apply State.blockFails_only | exact .same

theorem State.asyncFault_only {r : StrandRef} {f : HeldFault} (ho : Only pts s0 s) (hin : Within trapParts pts) :
    Only pts s0 (State.asyncFault s r f) := by
  refine ho.trans (Only.mono ?_ hin)
  clear ho hin
  have hk := Only.refl trapParts s
  unfold State.asyncFault
  try dsimp only
  with_reducible repeat' first
    | exact hk | (refine State.consume_only ?_ ?_ (by assumption)) | apply State.unheard_only | apply State.setStrand_only
    | apply State.failLaunch_only | exact .same | exact .inTrap | exact (by decide) | assumption | (intro _) | split

/-! ## Ops -/

theorem State.stopOthers_only {r : StrandRef} {on : Bool} (ho : Only pts s0 s) (hin : Within [.strands] pts) :
    Only pts s0 (State.stopOthers s r on) := by
  refine ho.trans (Only.mono ?_ hin)
  clear ho hin
  have hk := Only.refl [.strands] s
  unfold State.stopOthers
  try dsimp only
  with_reducible repeat' first | exact hk | assumption | (intro _) | split | exact Or.inl rfl | exact Or.inr (by decide) | apply Only.upd

theorem State.enterPriv_only {r : StrandRef} {p : Report} (ho : Only pts s0 s) (hin : Within trapParts pts) :
    Only pts s0 (State.enterPriv s r p) := by
  refine ho.trans (Only.mono ?_ hin)
  clear ho hin
  have hk := Only.refl trapParts s
  unfold State.enterPriv
  try dsimp only
  with_reducible repeat' first
    | exact hk | apply State.abandonShadow_only | apply State.failLaunch_only | apply State.count_only | apply State.setStrand_only
    | apply State.stopOthers_only | exact .same | exact .inTrap | exact (by decide) | apply Only.getD | assumption | (intro _) | split

theorem State.enterUser_only {r : StrandRef} {cause : Cause} {code : Nat} {resume fpc : Dword} (ho : Only pts s0 s)
    (hin : Within trapParts pts) :
    Only pts s0 (State.enterUser s r cause code resume fpc) := by
  refine ho.trans (Only.mono ?_ hin)
  clear ho hin
  have hk := Only.refl trapParts s
  unfold State.enterUser
  try dsimp only
  with_reducible repeat' first
    | exact hk | apply State.abandonShadow_only | apply State.enterPriv_only | apply State.count_only | apply State.setStrand_only
    | exact .same | exact .inTrap | exact (by decide) | apply Only.getD | assumption | (intro _) | split

theorem State.stall_only {r : StrandRef} {why : Stall} (ho : Only pts s0 s) (hin : Within [.strands] pts) :
    Only pts s0 (State.stall s r why) := by
  refine ho.trans (Only.mono ?_ hin)
  clear ho hin
  have hk := Only.refl [.strands] s
  unfold State.stall
  try dsimp only
  with_reducible repeat' first | exact hk | apply State.modStrand_only | exact .same

theorem Ctx.finish_only {c : Ctx} {i : Instr} {sp : Spec} (ho : Only pts s0 s) (hin : Within [.cores, .fes, .lanes, .ns, .strands] pts) :
    Only pts s0 (Ctx.finish c i sp s) := by
  refine ho.trans (Only.mono ?_ hin)
  clear ho hin
  have hk := Only.refl [.cores, .fes, .lanes, .ns, .strands] s
  unfold Ctx.finish
  try dsimp only
  with_reducible repeat' first
    | exact hk | apply State.modStrand_only | apply State.reachCycle_only | apply State.count_only | exact .same | exact .inTrap
    | exact (by decide) | apply Only.getD | assumption | (intro _) | split | exact Or.inl rfl | exact Or.inr (by decide) | apply Only.upd

theorem Ctx.trap_only {c : Ctx} {cause : Cause} {mask : Word} {va : Dword} {detail : Nat} (ho : Only pts s0 c.s)
    (hin : Within trapParts pts) :
    Only pts s0 (Ctx.trap c cause mask va detail) := by
  refine ho.trans (Only.mono ?_ hin)
  clear ho hin
  have hk := Only.refl trapParts c.s
  unfold Ctx.trap
  try dsimp only
  with_reducible repeat' first | exact hk | apply State.enterPriv_only | exact .same

theorem Ctx.eccReg_only {c : Ctx} {es : List (Loc × Nat)} (ho : Only pts s0 c.s) (hin : Within trapParts pts) :
    Only pts s0 (Ctx.eccReg c es) := by
  refine ho.trans (Only.mono ?_ hin)
  clear ho hin
  have hk := Only.refl trapParts c.s
  unfold Ctx.eccReg
  try dsimp only
  with_reducible repeat' first
    | exact hk | apply State.setStrand_only | apply State.asyncFault_only | exact .same | exact .inTrap | exact (by decide)

theorem Ctx.follow_only {c : Ctx} {a : After} (ho : Only pts s0 s) (hin : Within trapParts pts) :
    Only pts s0 (Ctx.follow c s a) := by
  refine ho.trans (Only.mono ?_ hin)
  clear ho hin
  have hk := Only.refl trapParts s
  unfold Ctx.follow
  try dsimp only
  with_reducible repeat' first
    | exact hk | apply Ctx.trap_only | apply State.enterPriv_only | apply State.enterUser_only | exact .same | exact .inTrap
    | exact (by decide) | apply Only.getD | assumption | (intro _) | split

/-! ## Access -/

theorem State.writeResult_only {r : StrandRef} {d : Option Dst} {ws : List Word} {fl : Flags} (ho : Only pts s0 s)
    (hin : Within [.strands] pts) :
    Only pts s0 (State.writeResult s r d ws fl) := by
  refine ho.trans (Only.mono ?_ hin)
  clear ho hin
  have hk := Only.refl [.strands] s
  unfold State.writeResult
  try dsimp only
  with_reducible repeat' first
    | exact hk | apply State.modStrand_only | exact .same | exact .inTrap | exact (by decide) | assumption | (intro _) | split

theorem State.reportAbsent_only {fe lid core va kind sid : Nat} (ho : Only pts s0 s)
    (hin : Within [.cores, .fes, .host, .mem, .padBad, .past, .poison, .remote, .seq] pts) :
    Only pts s0 (State.reportAbsent s fe lid core va kind sid) := by
  refine ho.trans (Only.mono ?_ hin)
  clear ho hin
  have hk := Only.refl [.cores, .fes, .host, .mem, .padBad, .past, .poison, .remote, .seq] s
  unfold State.reportAbsent
  try dsimp only
  with_reducible repeat' first
    | exact hk | apply State.setCore_only | apply State.count_only | apply State.emit_only | apply State.modFe_only | exact .same
    | exact .inTrap | exact (by decide) | assumption | (intro _) | split

theorem State.refault_only {h : Hold} {fe launch core va kind sid : Nat} (ho : Only pts s0 s)
    (hin : Within [.cores, .fes, .host, .mem, .padBad, .past, .poison, .remote, .seq] pts) :
    Only pts s0 (State.refault s h fe launch core va kind sid) := by
  refine ho.trans (Only.mono ?_ hin)
  clear ho hin
  have hk := Only.refl [.cores, .fes, .host, .mem, .padBad, .past, .poison, .remote, .seq] s
  unfold State.refault
  try dsimp only
  with_reducible repeat' first
    | exact hk | apply State.reportAbsent_only | apply State.emit_only | exact .same | exact .inTrap | exact (by decide) | assumption
    | (intro _) | split

theorem State.holdAccess_only {n : Nat} {a : Access} (ho : Only pts s0 s)
    (hin : Within [.accs, .cores, .fes, .host, .mem, .padBad, .past, .poison, .remote, .seq] pts) :
    Only pts s0 (State.holdAccess s n a) := by
  refine ho.trans (Only.mono ?_ hin)
  clear ho hin
  have hk := Only.refl [.accs, .cores, .fes, .host, .mem, .padBad, .past, .poison, .remote, .seq] s
  unfold State.holdAccess
  try dsimp only
  with_reducible repeat' first
    | exact hk | apply State.refault_only | exact .same | exact .inTrap | exact (by decide) | assumption | (intro _) | split
    | exact Or.inl rfl | exact Or.inr (by decide) | apply Only.upd

theorem State.cellEvents_only {a : Access} {pa : Nat} {old new : List Byte} (ho : Only pts s0 s) (hin : Within recordParts pts) :
    Only pts s0 (State.cellEvents s a pa old new) := by
  refine ho.trans (Only.mono ?_ hin)
  clear ho hin
  have hk := Only.refl recordParts s
  unfold State.cellEvents
  try dsimp only
  with_reducible repeat' first
    | exact hk | apply State.emit_only | exact .same | exact .inTrap | exact (by decide) | assumption | (intro _) | split

theorem State.learned_only {a : Access} {scope : Nat} {pl : Place} {x : Nat} {ws : List Past} {wrote : Bool} (ho : Only pts s0 s)
    (hin : Within [.strands] pts) :
    Only pts s0 (State.learned s a scope pl x ws wrote) := by
  refine ho.trans (Only.mono ?_ hin)
  clear ho hin
  have hk := Only.refl [.strands] s
  unfold State.learned
  try dsimp only
  with_reducible repeat' first
    | exact hk | apply State.modStrand_only | exact .same | exact .inTrap | exact (by decide) | assumption | (intro _) | split

theorem State.beforeSamples_only {a : Access} {pl : Place} {x : Nat} {ws : List Past} {wrote : Bool} (ho : Only pts s0 s)
    (hin : Within [.samples] pts) :
    Only pts s0 (State.beforeSamples s a pl x ws wrote) := by
  refine ho.trans (Only.mono ?_ hin)
  clear ho hin
  have hk := Only.refl [.samples] s
  unfold State.beforeSamples
  try dsimp only
  with_reducible repeat' first | exact hk | assumption | (intro _) | split | exact Or.inl rfl | exact Or.inr (by decide) | apply Only.upd

theorem State.carryOut_only {a : Access} {scope : Nat} {pl : Place} {x : Nat} {d : Deed} {got : Got} (ho : Only pts s0 s)
    (hin : Within [.blocks, .host, .launches, .mem, .padBad, .past, .poison, .remote, .samples, .seq, .strands] pts) :
    Only pts s0 (State.carryOut s a scope pl x d got) := by
  refine ho.trans (Only.mono ?_ hin)
  clear ho hin
  have hk := Only.refl [.blocks, .host, .launches, .mem, .padBad, .past, .poison, .remote, .samples, .seq, .strands] s
  unfold State.carryOut
  try dsimp only
  with_reducible repeat' first
    | exact hk | apply State.write_only | apply State.learned_only | apply State.beforeSamples_only | apply State.writeResult_only
    | exact .same | exact .inTrap | exact (by decide) | assumption | (intro _) | split

theorem State.performPage_only {a : Access} {p : Page} (ho : Only pts s0 s) (hin : Within trapParts pts) :
    Only pts s0 (State.performPage s a p) := by
  refine ho.trans (Only.mono ?_ hin)
  clear ho hin
  have hk := Only.refl trapParts s
  unfold State.performPage
  try dsimp only
  with_reducible repeat' first
    | exact hk | apply State.asyncFault_only | apply State.write_only | apply State.carryOut_only | apply State.countMem_only
    | apply State.cellEvents_only | apply State.traffic_only | exact .same | exact .inTrap | exact (by decide) | assumption | (intro _)
    | split | exact Or.inl rfl | exact Or.inr (by decide) | apply Only.upd

theorem State.performPad_only {a : Access} (ho : Only pts s0 s) (hin : Within trapParts pts) :
    Only pts s0 (State.performPad s a) := by
  refine ho.trans (Only.mono ?_ hin)
  clear ho hin
  have hk := Only.refl trapParts s
  unfold State.performPad
  try dsimp only
  with_reducible repeat' first
    | exact hk | apply State.asyncFault_only | apply State.carryOut_only | exact .same | exact .inTrap | exact (by decide) | assumption
    | (intro _) | split

theorem State.dropAcc_only {n : Nat} (ho : Only pts s0 s) (hin : Within [.accs] pts) :
    Only pts s0 (State.dropAcc s n) := by
  refine ho.trans (Only.mono ?_ hin)
  clear ho hin
  have hk := Only.refl [.accs] s
  unfold State.dropAcc
  try dsimp only
  with_reducible repeat' first | exact hk | assumption | (intro _) | split | exact Or.inl rfl | exact Or.inr (by decide) | apply Only.upd

theorem State.perform_only {n : Nat} {a : Access} (ho : Only pts s0 s) (hin : Within (.fresh :: trapParts) pts) :
    Only pts s0 (State.perform s n a) := by
  refine ho.trans (Only.mono ?_ hin)
  clear ho hin
  have hk := Only.refl (.fresh :: trapParts) s
  unfold State.perform
  try dsimp only
  with_reducible repeat' first
    | exact hk | apply State.holdAccess_only | apply State.dropAcc_only | apply State.asyncFault_only | apply State.draw_only
    | apply State.performPage_only | apply State.performPad_only | exact .same | exact .inTrap | exact (by decide) | assumption | (intro _)
    | split | exact Or.inl rfl | exact Or.inr (by decide) | apply Only.upd

theorem State.afterCommit_only {blk : Nat} {spans : List Span} {who : Option CommitBy} {b : Block} (ho : Only pts s0 s)
    (hin : Within [.ops, .samples, .strands] pts) :
    Only pts s0 (State.afterCommit s blk spans who b) := by
  refine ho.trans (Only.mono ?_ hin)
  clear ho hin
  have hk := Only.refl [.ops, .samples, .strands] s
  unfold State.afterCommit
  try dsimp only
  with_reducible repeat' first
    | exact hk | apply State.modStrand_only | exact .same | exact .inTrap | exact (by decide) | apply Only.foldl | apply Only.foldlPair
    | assumption | (intro _) | split | exact Or.inl rfl | exact Or.inr (by decide) | apply Only.upd

theorem commitEntry_only {blk : Nat} {b : Block} {la : Launch} {w : Author} {again : Hold} {c : Committing} {e : Buffered}
    (ho : Only pts s0 c.s) (hin : Within trapParts pts) : Only pts s0 (commitEntry blk b la w again c e).s := by
  have hr : Within recordParts pts := Within.trans .inTrap hin
  unfold commitEntry
  split
  split
  · try dsimp only
    split
    · exact ho
    · exact State.refault_only ho (Within.trans (by decide) hin)
  · exact ho
  · split
    · exact ho
    · try dsimp only
      split
      · exact ho
      · try dsimp only
        have h1 : ∀ {p : Page} {size : Nat} {bs : List Byte} {z : Author},
            Only pts s0 (((c.s.writePage (c.s.fe la.fe) p bs z).countMem la.fe 6 size p).traffic la.fe p) := fun {_ _ _ _} =>
          State.traffic_only (State.countMem_only (State.writePage_only ho (Within.trans (by decide) hin)) (Within.trans (by decide) hin))
            (Within.trans (by decide) hin)
        split
        · exact State.cellEvents_only h1 hr
        · exact h1

theorem State.commitList_only {blk : Nat} {es : List Buffered} {who : Option CommitBy} {again : Hold} (ho : Only pts s0 s)
    (hin : Within trapParts pts) :
    Only pts s0 (State.commitList s blk es who again) := by
  refine ho.trans (Only.mono ?_ hin)
  clear ho hin
  have hk := Only.refl trapParts s
  unfold State.commitList
  split
  · extract_lets c s1 s2
    apply Only.foldl
    · intro s e h
      split
      · exact h
      · split
        · exact State.asyncFault_only h .same
        · exact State.failLaunch_only h .same
    · refine State.afterCommit_only (State.modBlock_only ?_ (by decide)) (by decide)
      have : ∀ (b : Block) (la : Launch) (w : Author) (l : List Buffered) (c : Committing),
          Only trapParts s c.s → Only trapParts s (l.foldl (commitEntry blk b la w again) c).s := by
        intro b la w l
        induction l with
        | nil => exact fun _ h => h
        | cons e l ih => exact fun c h => ih _ (commitEntry_only h .same)
      exact this _ _ _ _ _ hk
  · exact hk

theorem State.commit_only {blk : Nat} {who : Option CommitBy} (ho : Only pts s0 s) (hin : Within trapParts pts) :
    Only pts s0 (State.commit s blk who) := by
  refine ho.trans (Only.mono ?_ hin)
  clear ho hin
  have hk := Only.refl trapParts s
  unfold State.commit
  try dsimp only
  with_reducible repeat' first
    | exact hk | apply State.setBlock_only | apply State.asyncFault_only | (refine State.consume_only ?_ ?_ (by assumption))
    | apply State.failLaunch_only | apply State.commitList_only | exact .same | exact .inTrap | exact (by decide) | apply Only.getD
    | assumption | (intro _) | split

theorem State.recommit_only {blk : Nat} (ho : Only pts s0 s) (hin : Within trapParts pts) :
    Only pts s0 (State.recommit s blk) := by
  refine ho.trans (Only.mono ?_ hin)
  clear ho hin
  have hk := Only.refl trapParts s
  unfold State.recommit
  try dsimp only
  with_reducible repeat' first
    | exact hk | apply State.commitList_only | exact .same | exact .inTrap | exact (by decide) | assumption | (intro _) | split

theorem State.bufferEntry_only {blk : Nat} {e : Buffered} (ho : Only pts s0 s) (hin : Within [.blocks] pts) :
    Only pts s0 (State.bufferEntry s blk e) := by
  refine ho.trans (Only.mono ?_ hin)
  clear ho hin
  have hk := Only.refl [.blocks] s
  unfold State.bufferEntry
  try dsimp only
  with_reducible repeat' first | exact hk | apply State.modBlock_only | exact .same

theorem State.forceCommit_only {w : CommitBy} {b : Block} (ho : Only pts s0 s) (hin : Within trapParts pts) :
    Only pts s0 (State.forceCommit s w b) := by
  refine ho.trans (Only.mono ?_ hin)
  clear ho hin
  have hk := Only.refl trapParts s
  unfold State.forceCommit
  try dsimp only
  with_reducible repeat' first | exact hk | apply State.commit_only | apply State.emit_only | exact .same | exact .inTrap

/-! ## Memory -/

theorem State.nextPo_only {r : StrandRef} (ho : Only pts s0 s) (hin : Within [.strands] pts) :
    Only pts s0 (State.nextPo s r) := by
  refine ho.trans (Only.mono ?_ hin)
  clear ho hin
  have hk := Only.refl [.strands] s
  unfold State.nextPo
  try dsimp only
  with_reducible repeat' first | exact hk | apply State.modStrand_only | exact .same

theorem Ctx.issue_only {c : Ctx} {m : Storage} {ps : List Piece} (ho : Only pts s0 s) (hin : Within [.accs, .strands, .uid] pts) :
    Only pts s0 (Ctx.issue c m ps s) := by
  refine ho.trans (Only.mono ?_ hin)
  clear ho hin
  have hk := Only.refl [.accs, .strands, .uid] s
  unfold Ctx.issue
  try dsimp only
  with_reducible repeat' first
    | exact hk | apply State.name_only | apply State.nextPo_only | exact .same | exact .inTrap | exact (by decide) | apply Only.foldl
    | apply Only.foldlPair | assumption | (intro _) | split | exact Or.inl rfl | exact Or.inr (by decide) | apply Only.upd

theorem Ctx.screened_only {c : Ctx} {sp : Space} {w : Nat} {stores : List (Nat × List Byte)} (ho : Only pts s0 s)
    (hin : Within [.strands] pts) :
    Only pts s0 (Ctx.screened c sp w stores s) := by
  refine ho.trans (Only.mono ?_ hin)
  clear ho hin
  have hk := Only.refl [.strands] s
  unfold Ctx.screened
  try dsimp only
  with_reducible repeat' first
    | exact hk | apply State.modStrand_only | exact .same | exact .inTrap | exact (by decide) | apply Only.foldl | apply Only.foldlPair
    | assumption | (intro _) | split

/-! ## Quorum -/

theorem State.sendSlot_only {fe pa : Nat} {tag : Dword} {pay : BitVec 128} (ho : Only pts s0 s) (hin : Within [.fes, .mem] pts) :
    Only pts s0 (State.sendSlot s fe pa tag pay) := by
  refine ho.trans (Only.mono ?_ hin)
  clear ho hin
  have hk := Only.refl [.fes, .mem] s
  unfold State.sendSlot
  try dsimp only
  with_reducible repeat' first
    | exact hk | apply State.count_only | exact .same | exact .inTrap | exact (by decide) | assumption | (intro _) | split
    | exact Or.inl rfl | exact Or.inr (by decide) | apply Only.upd

theorem State.addQuorums_only {qs : List QuorumOp} (ho : Only pts s0 s) (hin : Within [.quorums, .uid] pts) :
    Only pts s0 (State.addQuorums s qs) := by
  refine ho.trans (Only.mono ?_ hin)
  clear ho hin
  have hk := Only.refl [.quorums, .uid] s
  unfold State.addQuorums
  try dsimp only
  with_reducible repeat' first
    | exact hk | apply State.name_only | exact .same | exact .inTrap | exact (by decide) | apply Only.foldl | apply Only.foldlPair
    | assumption | (intro _) | split | exact Or.inl rfl | exact Or.inr (by decide) | apply Only.upd

theorem State.setQuorum_only {n : Nat} {q : QuorumOp} (ho : Only pts s0 s) (hin : Within [.quorums] pts) :
    Only pts s0 (State.setQuorum s n q) := by
  refine ho.trans (Only.mono ?_ hin)
  clear ho hin
  have hk := Only.refl [.quorums] s
  unfold State.setQuorum
  try dsimp only
  with_reducible repeat' first | exact hk | assumption | (intro _) | split | exact Or.inl rfl | exact Or.inr (by decide) | apply Only.upd

theorem State.dropQuorum_only {n : Nat} (ho : Only pts s0 s) (hin : Within [.quorums] pts) :
    Only pts s0 (State.dropQuorum s n) := by
  refine ho.trans (Only.mono ?_ hin)
  clear ho hin
  have hk := Only.refl [.quorums] s
  unfold State.dropQuorum
  try dsimp only
  with_reducible repeat' first | exact hk | assumption | (intro _) | split | exact Or.inl rfl | exact Or.inr (by decide) | apply Only.upd

theorem State.endQst_only {n : Nat} {q : QuorumOp} {tag : Dword} {pa : Nat} (ho : Only pts s0 s) (hin : Within [.echoes, .tags] pts) :
    Only pts s0 (State.endQst s n q tag pa) := by
  refine ho.trans (Only.mono ?_ hin)
  clear ho hin
  have hk := Only.refl [.echoes, .tags] s
  unfold State.endQst
  try dsimp only
  with_reducible repeat' first
    | exact hk | apply Only.foldl | apply Only.foldlPair | apply Only.getD | assumption | (intro _) | split | exact Or.inl rfl
    | exact Or.inr (by decide) | apply Only.upd

theorem State.endQld_only {q : QuorumOp} {tag : Dword} {pa : Nat} (ho : Only pts s0 s) (hin : Within [.strands] pts) :
    Only pts s0 (State.endQld s q tag pa) := by
  refine ho.trans (Only.mono ?_ hin)
  clear ho hin
  have hk := Only.refl [.strands] s
  unfold State.endQld
  try dsimp only
  with_reducible repeat' first
    | exact hk | apply State.modStrand_only | exact .same | exact .inTrap | exact (by decide) | apply Only.foldl | apply Only.foldlPair
    | assumption | (intro _)

theorem State.endStep2_only {n : Nat} {q : QuorumOp} {tag : Dword} {pay : BitVec 128} (ho : Only pts s0 s) (hin : Within
    (.echoes :: .uid :: trapParts) pts) :
    Only pts s0 (State.endStep2 s n q tag pay) := by
  refine ho.trans (Only.mono ?_ hin)
  clear ho hin
  have hk := Only.refl (.echoes :: .uid :: trapParts) s
  unfold State.endStep2
  try dsimp only
  with_reducible repeat' first
    | exact hk | apply Only.getD | assumption | (intro _) | split | exact Or.inl rfl | exact Or.inr (by decide) | apply Only.upd

theorem State.translateQuorum_only {n : Nat} {q : QuorumOp} (ho : Only pts s0 s) (hin : Within (.uid :: trapParts) pts) :
    Only pts s0 (State.translateQuorum s n q).1 := by
  refine ho.trans (Only.mono ?_ hin)
  clear ho hin
  have hk := Only.refl (.uid :: trapParts) s
  unfold State.translateQuorum
  try dsimp only
  with_reducible repeat' first
    | exact hk | apply State.dropQuorum_only | apply State.refault_only | apply State.setQuorum_only | apply State.asyncFault_only
    | exact .same | exact .inTrap | exact (by decide) | assumption | (intro _) | split | exact Or.inl rfl | exact Or.inr (by decide)
    | apply Only.upd

theorem State.settleQuorum_only {n : Nat} {q : QuorumOp} (ho : Only pts s0 s) (hin : Within (.echoes :: .tags :: .uid :: trapParts) pts) :
    Only pts s0 (State.settleQuorum s n q) := by
  refine ho.trans (Only.mono ?_ hin)
  clear ho hin
  have hk := Only.refl (.echoes :: .tags :: .uid :: trapParts) s
  unfold State.settleQuorum
  try dsimp only
  with_reducible repeat' first
    | exact hk | apply State.dropQuorum_only | apply State.emit_only | apply State.setQuorum_only | apply State.asyncFault_only
    | apply State.endQst_only | apply State.endStep2_only | apply State.endQld_only | apply State.writeResult_only | exact .same
    | exact .inTrap | exact (by decide) | apply Only.getD | assumption | (intro _) | split

theorem State.answerCopy_only {n : Nat} {q : QuorumOp} {i : Nat} (ho : Only pts s0 s) (hin : Within
    (.echoes :: .tags :: .uid :: trapParts) pts) :
    Only pts s0 (State.answerCopy s n q i) := by
  refine ho.trans (Only.mono ?_ hin)
  clear ho hin
  have hk := Only.refl (.echoes :: .tags :: .uid :: trapParts) s
  unfold State.answerCopy
  try dsimp only
  with_reducible repeat' first
    | exact hk | apply State.settleQuorum_only | apply State.sendSlot_only | apply State.count_only | exact .same | exact .inTrap
    | exact (by decide) | apply Only.getD | assumption | (intro _) | split

theorem State.echo_only {n : Nat} {q : QuorumOp} {i : Nat} (ho : Only pts s0 s) (hin : Within (.echoes :: .uid :: trapParts) pts) :
    Only pts s0 (State.echo s n q i) := by
  refine ho.trans (Only.mono ?_ hin)
  clear ho hin
  have hk := Only.refl (.echoes :: .uid :: trapParts) s
  unfold State.echo
  try dsimp only
  with_reducible repeat' first
    | exact hk | apply State.sendSlot_only | exact .same | exact .inTrap | exact (by decide) | apply Only.getD | assumption | (intro _)
    | split | exact Or.inl rfl | exact Or.inr (by decide) | apply Only.upd

/-! ## Waits -/

theorem Ctx.fenced_only {c : Ctx} {ord scope : Nat} (ho : Only pts s0 s) (hin : Within [.strands] pts) :
    Only pts s0 (Ctx.fenced c ord scope s) := by
  refine ho.trans (Only.mono ?_ hin)
  clear ho hin
  have hk := Only.refl [.strands] s
  unfold Ctx.fenced
  try dsimp only
  with_reducible repeat' first | exact hk | apply State.modStrand_only | exact .same

theorem State.waitaValue_only {t : Nat} {z : Sleeper} {w : Waita} {a : Access} {pl : Place} {x : Nat} {buf : List Buffered}
    (ho : Only pts s0 s) (hin : Within [.strands] pts) :
    Only pts s0 (State.waitaValue s t z w a pl x buf) := by
  refine ho.trans (Only.mono ?_ hin)
  clear ho hin
  have hk := Only.refl [.strands] s
  unfold State.waitaValue
  try dsimp only
  with_reducible repeat' first
    | exact hk | apply State.learned_only | apply State.writeResult_only | apply State.modStrand_only | exact .same | exact .inTrap
    | exact (by decide) | assumption | (intro _) | split

theorem State.waitaRead_only {r : StrandRef} {t : Nat} (ho : Only pts s0 s) (hin : Within trapParts pts) :
    Only pts s0 (State.waitaRead s r t) := by
  refine ho.trans (Only.mono ?_ hin)
  clear ho hin
  have hk := Only.refl trapParts s
  unfold State.waitaRead
  try dsimp only
  with_reducible repeat' first
    | exact hk | apply State.modStrand_only | apply State.asyncFault_only | apply State.refault_only | apply State.countMem_only
    | apply State.traffic_only | apply State.waitaValue_only | exact .same | exact .inTrap | exact (by decide) | apply Only.getD
    | assumption | (intro _) | split

theorem State.wakeSlept_only {r : StrandRef} (ho : Only pts s0 s) (hin : Within [.strands] pts) :
    Only pts s0 (State.wakeSlept s r) := by
  refine ho.trans (Only.mono ?_ hin)
  clear ho hin
  have hk := Only.refl [.strands] s
  unfold State.wakeSlept
  try dsimp only
  with_reducible repeat' first | exact hk | apply State.modStrand_only | exact .same

/-! ## Barriers -/

theorem State.setBar_only {blk n : Nat} {x : Barrier} (ho : Only pts s0 s) (hin : Within [.blocks] pts) :
    Only pts s0 (State.setBar s blk n x) := by
  refine ho.trans (Only.mono ?_ hin)
  clear ho hin
  have hk := Only.refl [.blocks] s
  unfold State.setBar
  try dsimp only
  with_reducible repeat' first | exact hk | apply State.modBlock_only | exact .same

theorem State.trapWaiting_only {r : StrandRef} {cause : Cause} {act : Word} (ho : Only pts s0 s) (hin : Within trapParts pts) :
    Only pts s0 (State.trapWaiting s r cause act) := by
  refine ho.trans (Only.mono ?_ hin)
  clear ho hin
  have hk := Only.refl trapParts s
  unfold State.trapWaiting
  try dsimp only
  with_reducible repeat' first
    | exact hk | apply State.enterPriv_only | exact .same | exact .inTrap | exact (by decide) | assumption | (intro _) | split

theorem State.trapWaiters_only {blk n : Nat} {cause : Cause} (ho : Only pts s0 s) (hin : Within trapParts pts) :
    Only pts s0 (State.trapWaiters s blk n cause) := by
  refine ho.trans (Only.mono ?_ hin)
  clear ho hin
  have hk := Only.refl trapParts s
  unfold State.trapWaiters
  try dsimp only
  with_reducible repeat' first
    | exact hk | apply State.trapWaiting_only | exact .same | exact .inTrap | exact (by decide) | apply Only.foldl | apply Only.foldlPair
    | assumption | (intro _) | split

theorem State.completePhase_only {blk n : Nat} (ho : Only pts s0 s)
    (hin : Within [.blocks, .fes, .host, .mem, .padBad, .past, .poison, .remote, .seq, .strands] pts) :
    Only pts s0 (State.completePhase s blk n) := by
  refine ho.trans (Only.mono ?_ hin)
  clear ho hin
  have hk := Only.refl [.blocks, .fes, .host, .mem, .padBad, .past, .poison, .remote, .seq, .strands] s
  unfold State.completePhase
  try dsimp only
  with_reducible repeat' first
    | exact hk | apply State.setBar_only | apply State.emit_only | exact .same | exact .inTrap | exact (by decide) | assumption | (intro _)
    | split | exact Or.inl rfl | exact Or.inr (by decide) | apply Only.upd

theorem State.barEvent_only {blk n : Nat} {x : Barrier} {test : Bool} (ho : Only pts s0 s) (hin : Within trapParts pts) :
    Only pts s0 (State.barEvent s blk n x test) := by
  refine ho.trans (Only.mono ?_ hin)
  clear ho hin
  have hk := Only.refl trapParts s
  unfold State.barEvent
  try dsimp only
  with_reducible repeat' first
    | exact hk | apply State.setBar_only | apply State.completePhase_only | apply State.trapWaiters_only | exact .same | exact .inTrap
    | exact (by decide) | assumption | (intro _) | split

theorem State.postBar_only {blk n : Nat} {p : Post} {v : View} (ho : Only pts s0 s) (hin : Within trapParts pts) :
    Only pts s0 (State.postBar s blk n p v) := by
  refine ho.trans (Only.mono ?_ hin)
  clear ho hin
  have hk := Only.refl trapParts s
  unfold State.postBar
  try dsimp only
  with_reducible repeat' first
    | exact hk | apply State.barEvent_only | exact .same | exact .inTrap | exact (by decide) | assumption | (intro _) | split

theorem State.endArrivals_only {r : StrandRef} (ho : Only pts s0 s) (hin : Within trapParts pts) :
    Only pts s0 (State.endArrivals s r) := by
  refine ho.trans (Only.mono ?_ hin)
  clear ho hin
  have hk := Only.refl trapParts s
  unfold State.endArrivals
  try dsimp only
  with_reducible repeat' first
    | exact hk | apply State.barEvent_only | exact .same | exact .inTrap | exact (by decide) | apply Only.foldl | apply Only.foldlPair
    | assumption | (intro _) | split

theorem State.applyHeld_only {blk n : Nat} (ho : Only pts s0 s) (hin : Within trapParts pts) :
    Only pts s0 (State.applyHeld s blk n) := by
  refine ho.trans (Only.mono ?_ hin)
  clear ho hin
  have hk := Only.refl trapParts s
  unfold State.applyHeld
  try dsimp only
  with_reducible repeat' first
    | exact hk | apply State.setBlock_only | apply State.postBar_only | exact .same | exact .inTrap | exact (by decide) | apply Only.foldl
    | apply Only.foldlPair | assumption | (intro _) | split | exact Or.inl rfl | exact Or.inr (by decide) | apply Only.upd

theorem Ctx.waitBar_only {c : Ctx} {n : Nat} {tok : Option Nat} (ho : Only pts s0 s) (hin : Within [.strands] pts) :
    Only pts s0 (Ctx.waitBar c n tok s) := by
  refine ho.trans (Only.mono ?_ hin)
  clear ho hin
  have hk := Only.refl [.strands] s
  unfold Ctx.waitBar
  try dsimp only
  with_reducible repeat' first | exact hk | apply State.modStrand_only | exact .same

/-! ## Handles -/

theorem State.setRec_only {core n : Nat} {x : HandleRec} (ho : Only pts s0 s) (hin : Within [.cores] pts) :
    Only pts s0 (State.setRec s core n x) := by
  refine ho.trans (Only.mono ?_ hin)
  clear ho hin
  have hk := Only.refl [.cores] s
  unfold State.setRec
  try dsimp only
  with_reducible repeat' first | exact hk | apply State.setCore_only | exact .same

theorem State.sweep_only {blk : Nat} (ho : Only pts s0 s) (hin : Within [.cores] pts) :
    Only pts s0 (State.sweep s blk) := by
  refine ho.trans (Only.mono ?_ hin)
  clear ho hin
  have hk := Only.refl [.cores] s
  unfold State.sweep
  try dsimp only
  with_reducible repeat' first
    | exact hk | apply State.setCore_only | exact .same | exact .inTrap | exact (by decide) | assumption | (intro _) | split

theorem State.writeH_only {r : StrandRef} {h : Nat} {t : Option Word} (ho : Only pts s0 s) (hin : Within [.cores, .strands] pts) :
    Only pts s0 (State.writeH s r h t) := by
  refine ho.trans (Only.mono ?_ hin)
  clear ho hin
  have hk := Only.refl [.cores, .strands] s
  unfold State.writeH
  try dsimp only
  with_reducible repeat' first
    | exact hk | apply State.modStrand_only | apply State.sweep_only | exact .same | exact .inTrap | exact (by decide)

/-! ## Queues -/

theorem State.setQueue_only {blk n : Nat} {q : Queue} {t : Nat} (ho : Only pts s0 s) (hin : Within [.blocks] pts) :
    Only pts s0 (State.setQueue s blk n q t) := by
  refine ho.trans (Only.mono ?_ hin)
  clear ho hin
  have hk := Only.refl [.blocks] s
  unfold State.setQueue
  try dsimp only
  with_reducible repeat' first | exact hk | apply State.modBlock_only | exact .same

/-! ## Engines -/

theorem State.setOp_only {n : Nat} {o : EngOp} (ho : Only pts s0 s) (hin : Within [.ops] pts) :
    Only pts s0 (State.setOp s n o) := by
  refine ho.trans (Only.mono ?_ hin)
  clear ho hin
  have hk := Only.refl [.ops] s
  unfold State.setOp
  try dsimp only
  with_reducible repeat' first | exact hk | assumption | (intro _) | split | exact Or.inl rfl | exact Or.inr (by decide) | apply Only.upd

theorem State.modOp_only {n : Nat} {f : EngOp → EngOp} (ho : Only pts s0 s) (hin : Within [.ops] pts) :
    Only pts s0 (State.modOp s n f) := by
  refine ho.trans (Only.mono ?_ hin)
  clear ho hin
  have hk := Only.refl [.ops] s
  unfold State.modOp
  try dsimp only
  with_reducible repeat' first | exact hk | assumption | (intro _) | split | exact Or.inl rfl | exact Or.inr (by decide) | apply Only.upd

theorem State.dropOp_only {n : Nat} (ho : Only pts s0 s) (hin : Within [.ops] pts) :
    Only pts s0 (State.dropOp s n) := by
  refine ho.trans (Only.mono ?_ hin)
  clear ho hin
  have hk := Only.refl [.ops] s
  unfold State.dropOp
  try dsimp only
  with_reducible repeat' first | exact hk | assumption | (intro _) | split | exact Or.inl rfl | exact Or.inr (by decide) | apply Only.upd

theorem State.setWaits_only {n : Nat} {o : EngOp} {f : Strand → Strand} (ho : Only pts s0 s) (hin : Within [.strands] pts) :
    Only pts s0 (State.setWaits s n o f) := by
  refine ho.trans (Only.mono ?_ hin)
  clear ho hin
  have hk := Only.refl [.strands] s
  unfold State.setWaits
  try dsimp only
  with_reducible repeat' first
    | exact hk | apply State.modStrand_only | exact .same | exact .inTrap | exact (by decide) | apply Only.foldl | apply Only.foldlPair
    | assumption | (intro _)

theorem State.passMembers_only {n : Nat} {o : EngOp} (ho : Only pts s0 s) (hin : Within [.strands] pts) :
    Only pts s0 (State.passMembers s n o) := by
  refine ho.trans (Only.mono ?_ hin)
  clear ho hin
  have hk := Only.refl [.strands] s
  unfold State.passMembers
  try dsimp only
  with_reducible repeat' first | exact hk | apply State.setWaits_only | exact .same

theorem State.closeRec_only {o : EngOp} (ho : Only pts s0 s) (hin : Within [.cores] pts) :
    Only pts s0 (State.closeRec s o) := by
  refine ho.trans (Only.mono ?_ hin)
  clear ho hin
  have hk := Only.refl [.cores] s
  unfold State.closeRec
  try dsimp only
  with_reducible repeat' first
    | exact hk | apply State.setRec_only | apply State.sweep_only | exact .same | exact .inTrap | exact (by decide) | assumption | (intro _)
    | split

theorem State.trapMembers_only {n : Nat} {o : EngOp} {c : Cause} {va : Dword} (ho : Only pts s0 s) (hin : Within trapParts pts) :
    Only pts s0 (State.trapMembers s n o c va) := by
  refine ho.trans (Only.mono ?_ hin)
  clear ho hin
  have hk := Only.refl trapParts s
  unfold State.trapMembers
  try dsimp only
  with_reducible repeat' first
    | exact hk | apply State.dropOp_only | apply State.closeRec_only | apply State.setStrand_only | apply State.enterPriv_only
    | apply State.asyncFault_only | exact .same | exact .inTrap | exact (by decide) | apply Only.foldl | apply Only.foldlPair | assumption
    | (intro _) | split

theorem State.opView_only {n : Nat} {v : View} (ho : Only pts s0 s) (hin : Within [.ops] pts) :
    Only pts s0 (State.opView s n v) := by
  refine ho.trans (Only.mono ?_ hin)
  clear ho hin
  have hk := Only.refl [.ops] s
  unfold State.opView
  try dsimp only
  with_reducible repeat' first | exact hk | apply State.modOp_only | exact .same

theorem State.countAt_only {fe va len : Nat} (ho : Only pts s0 s) (hin : Within [.fes] pts) :
    Only pts s0 (State.countAt s fe va len) := by
  refine ho.trans (Only.mono ?_ hin)
  clear ho hin
  have hk := Only.refl [.fes] s
  unfold State.countAt
  try dsimp only
  with_reducible repeat' first
    | exact hk | apply State.countMem_only | apply State.traffic_only | exact .same | exact .inTrap | exact (by decide) | assumption
    | (intro _) | split

theorem State.countRead_only {o : EngOp} {va len : Nat} (ho : Only pts s0 s) (hin : Within [.fes] pts) :
    Only pts s0 (State.countRead s o va len) := by
  refine ho.trans (Only.mono ?_ hin)
  clear ho hin
  have hk := Only.refl [.fes] s
  unfold State.countRead
  try dsimp only
  with_reducible repeat' first | exact hk | apply State.countAt_only | exact .same

theorem State.engWrite_only {n : Nat} {o : EngOp} {g va : Nat} {bs masks : List Byte} {heads : List Head} (ho : Only pts s0 s)
    (hin : Within [.fes, .host, .mem, .ops, .padBad, .past, .poison, .remote, .seq] pts) {out : State}
    (e : State.engWrite s n o g va bs masks heads = .ok out) :
    Only pts s0 out := by
  refine ho.trans (Only.mono ?_ hin)
  clear ho hin
  have hk := Only.refl [.fes, .host, .mem, .ops, .padBad, .past, .poison, .remote, .seq] s
  unfold State.engWrite at e
  try dsimp only at e
  with_reducible repeat' first
    | split at e | cases e | exact hk | apply State.writePage_only | apply State.modOp_only | apply State.countMem_only
    | apply State.traffic_only | exact .same | exact .inTrap | exact (by decide)

theorem State.opPadWrite_only {n : Nat} {pl : Place} {g a : Nat} {bs masks : List Byte} {heads : List Head} (ho : Only pts s0 s)
    (hin : Within [.blocks, .host, .launches, .mem, .ops, .padBad, .past, .poison, .remote, .seq] pts) :
    Only pts s0 (State.opPadWrite s n pl g a bs masks heads) := by
  refine ho.trans (Only.mono ?_ hin)
  clear ho hin
  have hk := Only.refl [.blocks, .host, .launches, .mem, .ops, .padBad, .past, .poison, .remote, .seq] s
  unfold State.opPadWrite
  try dsimp only
  with_reducible repeat' first
    | exact hk | apply State.write_only | apply State.modOp_only | exact .same | exact .inTrap | exact (by decide)

theorem State.opFault_only {n : Nat} {c : Cause} {va : Nat} (ho : Only pts s0 s) (hin : Within trapParts pts) :
    Only pts s0 (State.opFault s n c va) := by
  refine ho.trans (Only.mono ?_ hin)
  clear ho hin
  have hk := Only.refl trapParts s
  unfold State.opFault
  try dsimp only
  with_reducible repeat' first
    | exact hk | apply State.setOp_only | apply State.asyncFault_only | exact .same | exact .inTrap | exact (by decide) | assumption
    | (intro _) | split

theorem State.opError_only {o : EngOp} {c : Cause} {va : Nat} (ho : Only pts s0 s) (hin : Within trapParts pts) :
    Only pts s0 (State.opError s o c va) := by
  refine ho.trans (Only.mono ?_ hin)
  clear ho hin
  have hk := Only.refl trapParts s
  unfold State.opError
  try dsimp only
  with_reducible repeat' first
    | exact hk | apply State.asyncFault_only | exact .same | exact .inTrap | exact (by decide) | assumption | (intro _) | split

theorem State.holdOp_only {n : Nat} {va : Nat} {write : Bool} (ho : Only pts s0 s)
    (hin : Within [.blocks, .cores, .fes, .host, .launches, .mem, .ops, .padBad, .past, .poison, .remote, .seq] pts) :
    Only pts s0 (State.holdOp s n va write) := by
  refine ho.trans (Only.mono ?_ hin)
  clear ho hin
  have hk := Only.refl [.blocks, .cores, .fes, .host, .launches, .mem, .ops, .padBad, .past, .poison, .remote, .seq] s
  unfold State.holdOp
  try dsimp only
  with_reducible repeat' first
    | exact hk | apply State.refault_only | apply State.write_only | apply State.modOp_only | exact .same | exact .inTrap
    | exact (by decide) | apply Only.getD | assumption | (intro _) | split

theorem State.postTo_only {n : Nat} {o : EngOp} {index bar : Nat} {p : Post} (ho : Only pts s0 s) (hin : Within trapParts pts) :
    Only pts s0 (State.postTo s n o index bar p).1 := by
  refine ho.trans (Only.mono ?_ hin)
  clear ho hin
  have hk := Only.refl trapParts s
  unfold State.postTo
  try dsimp only
  with_reducible repeat' first
    | exact hk | apply State.postBar_only | apply State.setBlock_only | apply State.modLaunch_only | exact .same | exact .inTrap
    | exact (by decide) | assumption | (intro _) | split

theorem State.postOwe_only {n index bar bytes : Nat} (ho : Only pts s0 s) (hin : Within trapParts pts) :
    Only pts s0 (State.postOwe s n index bar bytes) := by
  refine ho.trans (Only.mono ?_ hin)
  clear ho hin
  have hk := Only.refl trapParts s
  unfold State.postOwe
  try dsimp only
  with_reducible repeat' first
    | exact hk | apply State.postTo_only | apply State.modOp_only | exact .same | exact .inTrap | exact (by decide) | assumption | (intro _)
    | split

theorem State.postBytes_only {n bytes : Nat} {ok : OpPost → Bool} (ho : Only pts s0 s) (hin : Within trapParts pts) :
    Only pts s0 (State.postBytes s n bytes ok) := by
  refine ho.trans (Only.mono ?_ hin)
  clear ho hin
  have hk := Only.refl trapParts s
  unfold State.postBytes
  try dsimp only
  with_reducible repeat' first
    | exact hk | apply State.postTo_only | apply State.modOp_only | exact .same | exact .inTrap | exact (by decide) | apply Only.foldl
    | apply Only.foldlPair | assumption | (intro _) | split

theorem State.unpost_only {n : Nat} {o : EngOp} {p : OpPost} {owed got : Nat} (ho : Only pts s0 s) (hin : Within [.blocks, .launches] pts) :
    Only pts s0 (State.unpost s n o p owed got) := by
  refine ho.trans (Only.mono ?_ hin)
  clear ho hin
  have hk := Only.refl [.blocks, .launches] s
  unfold State.unpost
  try dsimp only
  with_reducible repeat' first
    | exact hk | apply State.modLaunch_only | apply State.setBlock_only | apply State.setBar_only | exact .same | exact .inTrap
    | exact (by decide) | assumption | (intro _) | split

theorem State.postDone_only {n : Nat} (ho : Only pts s0 s) (hin : Within trapParts pts) :
    Only pts s0 (State.postDone s n) := by
  refine ho.trans (Only.mono ?_ hin)
  clear ho hin
  have hk := Only.refl trapParts s
  unfold State.postDone
  try dsimp only
  with_reducible repeat' first
    | exact hk | apply State.dropOp_only | apply State.closeRec_only | apply State.postBar_only | apply State.postTo_only | exact .same
    | exact .inTrap | exact (by decide) | apply Only.foldl | apply Only.foldlPair | assumption | (intro _) | split

theorem State.engCommit_only {o : EngOp} (ho : Only pts s0 s) (hin : Within trapParts pts) :
    Only pts s0 (State.engCommit s o).1 := by
  refine ho.trans (Only.mono ?_ hin)
  clear ho hin
  have hk := Only.refl trapParts s
  unfold State.engCommit
  try dsimp only
  with_reducible repeat' first
    | exact hk | apply State.commit_only | exact .same | exact .inTrap | exact (by decide) | apply Only.getD | assumption | (intro _)
    | split

theorem State.postFlag_only {n : Nat} (ho : Only pts s0 s) (hin : Within trapParts pts) :
    Only pts s0 (State.postFlag s n).1 := by
  refine ho.trans (Only.mono ?_ hin)
  clear ho hin
  have hk := Only.refl trapParts s
  unfold State.postFlag
  try dsimp only
  with_reducible repeat' first
    | exact hk | apply State.modOp_only | apply State.opPadWrite_only | apply State.engCommit_only
    | (refine State.engWrite_only ?_ ?_ (by assumption)) | apply State.holdOp_only | apply State.opFault_only | exact .same | exact .inTrap
    | exact (by decide) | apply Only.getD | assumption | (intro _) | split

theorem State.complete_only {n : Nat} (ho : Only pts s0 s) (hin : Within trapParts pts) :
    Only pts s0 (State.complete s n) := by
  refine ho.trans (Only.mono ?_ hin)
  clear ho hin
  have hk := Only.refl trapParts s
  unfold State.complete
  try dsimp only
  with_reducible repeat' first
    | exact hk | apply State.postFlag_only | apply State.postDone_only | exact .same | exact .inTrap | exact (by decide) | assumption
    | (intro _) | split

theorem State.repost_only {n : Nat} (ho : Only pts s0 s) (hin : Within trapParts pts) :
    Only pts s0 (State.repost s n) := by
  refine ho.trans (Only.mono ?_ hin)
  clear ho hin
  have hk := Only.refl trapParts s
  unfold State.repost
  try dsimp only
  with_reducible repeat' first
    | exact hk | apply State.complete_only | exact .same | exact .inTrap | exact (by decide) | assumption | (intro _) | split

theorem State.takeRec_only {n : Nat} {i : Nat} {hs : List (Nat × Nat)} (ho : Only pts s0 s) (hin : Within [.cores, .ops, .strands] pts) :
    Only pts s0 (State.takeRec s n i hs) := by
  refine ho.trans (Only.mono ?_ hin)
  clear ho hin
  have hk := Only.refl [.cores, .ops, .strands] s
  unfold State.takeRec
  try dsimp only
  with_reducible repeat' first
    | exact hk | apply State.setRec_only | apply State.modStrand_only | apply State.setOp_only | apply State.sweep_only | exact .same
    | exact .inTrap | exact (by decide) | apply Only.foldl | apply Only.foldlPair | assumption | (intro _) | split

theorem State.opEvent_only {o : EngOp} {c : Cause} (ho : Only pts s0 s) (hin : Within recordParts pts) :
    Only pts s0 (State.opEvent s o c) := by
  refine ho.trans (Only.mono ?_ hin)
  clear ho hin
  have hk := Only.refl recordParts s
  unfold State.opEvent
  try dsimp only
  with_reducible repeat' first
    | exact hk | apply State.emit_only | exact .same | exact .inTrap | exact (by decide) | assumption | (intro _) | split

/-! ## Copies -/

theorem State.stageCpq_only {n : Nat} {o : EngOp} (ho : Only pts s0 s) (hin : Within (.lanes :: .ns :: trapParts) pts) :
    Only pts s0 (State.stageCpq s n o) := by
  refine ho.trans (Only.mono ?_ hin)
  clear ho hin
  have hk := Only.refl (.lanes :: .ns :: trapParts) s
  unfold State.stageCpq
  try dsimp only
  with_reducible repeat' first
    | exact hk | apply State.setOp_only | apply State.opFault_only | exact .same | exact .inTrap | exact (by decide) | apply Only.foldl
    | apply Only.foldlPair | assumption | (intro _) | split

theorem State.postExpect_only {n : Nat} {o : EngOp} (ho : Only pts s0 s) (hin : Within trapParts pts) :
    Only pts s0 (State.postExpect s n o) := by
  refine ho.trans (Only.mono ?_ hin)
  clear ho hin
  have hk := Only.refl trapParts s
  unfold State.postExpect
  try dsimp only
  with_reducible repeat' first
    | exact hk | apply State.postOwe_only | exact .same | exact .inTrap | exact (by decide) | apply Only.foldl | apply Only.foldlPair
    | apply Only.getD | assumption | (intro _) | split

theorem State.startCpr_only {o : EngOp} (ho : Only pts s0 s) (hin : Within [.blocks] pts) :
    Only pts s0 (State.startCpr s o).2 := by
  refine ho.trans (Only.mono ?_ hin)
  clear ho hin
  have hk := Only.refl [.blocks] s
  unfold State.startCpr
  try dsimp only
  with_reducible repeat' first
    | exact hk | apply State.modBlock_only | exact .same | exact .inTrap | exact (by decide) | apply Only.getD | assumption | (intro _)
    | split

theorem State.numberCpr_only {o : EngOp} (ho : Only pts s0 s) (hin : Within [.fes] pts) :
    Only pts s0 (State.numberCpr s o).2 := by
  refine ho.trans (Only.mono ?_ hin)
  clear ho hin
  have hk := Only.refl [.fes] s
  unfold State.numberCpr
  try dsimp only
  with_reducible repeat' first
    | exact hk | apply State.modFe_only | exact .same | exact .inTrap | exact (by decide) | apply Only.getD | assumption | (intro _) | split

theorem State.acceptCopy_only {n : Nat} (ho : Only pts s0 s) (hin : Within trapParts pts) :
    Only pts s0 (State.acceptCopy s n) := by
  refine ho.trans (Only.mono ?_ hin)
  clear ho hin
  have hk := Only.refl trapParts s
  unfold State.acceptCopy
  try dsimp only
  with_reducible repeat' first
    | exact hk | apply State.setOp_only | apply State.postExpect_only | apply State.passMembers_only | apply State.opEvent_only
    | exact .same | exact .inTrap | exact (by decide) | assumption | (intro _) | split

theorem State.checkCopy_only {n : Nat} (ho : Only pts s0 s) (hin : Within trapParts pts) :
    Only pts s0 (State.checkCopy s n) := by
  refine ho.trans (Only.mono ?_ hin)
  clear ho hin
  have hk := Only.refl trapParts s
  unfold State.checkCopy
  try dsimp only
  with_reducible repeat' first
    | exact hk | apply State.trapMembers_only | apply State.setOp_only | exact .same | exact .inTrap | exact (by decide) | assumption
    | (intro _) | split

theorem State.startCopy_only {n : Nat} (ho : Only pts s0 s) (hin : Within (.uid :: trapParts) pts) :
    Only pts s0 (State.startCopy s n) := by
  refine ho.trans (Only.mono ?_ hin)
  clear ho hin
  have hk := Only.refl (.uid :: trapParts) s
  unfold State.startCopy
  try dsimp only
  with_reducible repeat' first
    | exact hk | apply State.setWaits_only | apply State.engCommit_only | apply State.numberCpr_only | apply State.startCpr_only
    | apply State.setOp_only | apply State.takeRec_only | apply State.name_only | apply State.modOp_only | apply Ctx.follow_only
    | apply State.passMembers_only | apply State.acceptCopy_only | exact .same | exact .inTrap | exact (by decide) | apply Only.getD
    | assumption | (intro _) | split

theorem State.deliverTo_only {n : Nat} {o : EngOp} {index a : Nat} {bs masks : List Byte} (ho : Only pts s0 s)
    (hin : Within [.blocks, .host, .launches, .mem, .ops, .padBad, .past, .poison, .remote, .seq] pts) :
    Only pts s0 (State.deliverTo s n o index a bs masks).1 := by
  refine ho.trans (Only.mono ?_ hin)
  clear ho hin
  have hk := Only.refl [.blocks, .host, .launches, .mem, .ops, .padBad, .past, .poison, .remote, .seq] s
  unfold State.deliverTo
  try dsimp only
  with_reducible repeat' first
    | exact hk | apply State.opPadWrite_only | apply State.modLaunch_only | exact .same | exact .inTrap | exact (by decide) | assumption
    | (intro _) | split

theorem State.passUnit_only {n cell bytes : Nat} {ok : OpPost → Bool} (ho : Only pts s0 s) (hin : Within trapParts pts) :
    Only pts s0 (State.passUnit s n cell bytes ok) := by
  refine ho.trans (Only.mono ?_ hin)
  clear ho hin
  have hk := Only.refl trapParts s
  unfold State.passUnit
  try dsimp only
  with_reducible repeat' first
    | exact hk | apply State.modOp_only | apply State.count_only | apply State.postBytes_only | exact .same | exact .inTrap
    | exact (by decide) | assumption | (intro _) | split

theorem State.gotUnit_only {n va len : Nat} {r : Reached Ran} {go : State → List Byte → State} (ho : Only pts s0 s)
    (hin : Within trapParts pts) (hgo : ∀ t bs, Only pts s0 t → Only pts s0 (go t bs)) :
    Only pts s0 (State.gotUnit s n va len r go) := by
  unfold State.gotUnit
  split
  · exact State.holdOp_only ho (Within.trans (by decide) hin)
  · exact hgo _ _ (State.opView_only ho (Within.trans (by decide) hin))
  · try dsimp only
    have h1 : Only pts s0 (s.opFault n ‹Cause› va) := State.opFault_only ho fun p h => hin p h
    split
    · exact hgo _ _ h1
    · exact h1

theorem State.putUnit_only {n g va : Nat} {bs masks : List Byte} {go : State → State} {heads : List Head} (ho : Only pts s0 s)
    (hin : Within trapParts pts) (hgo : ∀ t, Only pts s0 t → Only pts s0 (go t)) :
    Only pts s0 (State.putUnit s n g va bs masks go heads) := by
  unfold State.putUnit
  split
  · exact ho
  · split
    · exact State.holdOp_only ho (Within.trans (by decide) hin)
    · exact hgo _ (State.opFault_only ho fun p h => hin p h)
    · exact hgo _ (State.engWrite_only ho (Within.trans (by decide) hin) (by assumption))

theorem State.moveBox_only {n cell : Nat} {o : EngOp} {a : Arrival} {z : Slice} {u : Nat} (ho : Only pts s0 s)
    (hin : Within trapParts pts) :
    Only pts s0 (State.moveBox s n cell o a z u) := by
  refine ho.trans (Only.mono ?_ hin)
  clear ho hin
  have hk := Only.refl trapParts s
  unfold State.moveBox
  try dsimp only
  with_reducible repeat' first
    | exact hk | apply State.passUnit_only | apply State.putUnit_only | apply State.gotUnit_only | apply State.deliverTo_only
    | apply State.modOp_only | apply State.modBlock_only | apply State.opPadWrite_only | apply State.countRead_only | exact .same
    | exact .inTrap | exact (by decide) | apply Only.foldl | apply Only.foldlPair | apply Only.getD | assumption | (intro _) | split

theorem State.moveTile_only {n cell : Nat} {o : EngOp} {m : TileMove} {u : Nat} (ho : Only pts s0 s) (hin : Within trapParts pts) :
    Only pts s0 (State.moveTile s n cell o m u) := by
  refine ho.trans (Only.mono ?_ hin)
  clear ho hin
  have hk := Only.refl trapParts s
  unfold State.moveTile
  try dsimp only
  with_reducible repeat' first
    | exact hk | apply State.gotUnit_only | apply State.opPadWrite_only | apply State.passUnit_only | exact .same | exact .inTrap
    | exact (by decide) | assumption | (intro _)

theorem State.moveScale_only {n cell va : Nat} {x : Byte} (ho : Only pts s0 s) (hin : Within trapParts pts) :
    Only pts s0 (State.moveScale s n cell va x) := by
  refine ho.trans (Only.mono ?_ hin)
  clear ho hin
  have hk := Only.refl trapParts s
  unfold State.moveScale
  try dsimp only
  with_reducible repeat' first
    | exact hk | apply State.putUnit_only | apply State.modOp_only | exact .same | exact .inTrap | exact (by decide) | assumption
    | (intro _)

theorem State.listExc_only {n : Nat} {o : EngOp} {list : Nat} {e : BitVec 128} (ho : Only pts s0 s) (hin : Within trapParts pts) :
    Only pts s0 (State.listExc s n o list e) := by
  refine ho.trans (Only.mono ?_ hin)
  clear ho hin
  have hk := Only.refl trapParts s
  unfold State.listExc
  extract_lets ff next
  have hn : ∀ t : State, Only trapParts s t → Only trapParts s (next t) := fun _ h => State.modOp_only h (by decide)
  split
  · exact State.holdOp_only hk (by decide)
  · exact State.holdOp_only hk (by decide)
  · exact hn _ (State.opFault_only hk .same)
  · exact hn _ (State.opFault_only hk .same)
  · extract_lets s1 c cap rise
    have h1 : Only trapParts s s1 := State.opView_only hk (by decide)
    have hr : ∀ t : State, Only trapParts s t → Only trapParts s (rise t) := by
      intro t h
      refine State.putUnit_only h .same fun u hu => hn _ ?_
      split
      · exact hu
      · exact State.opEvent_only hu .inTrap
    split
    · exact State.putUnit_only h1 .same hr
    · exact hr _ h1

theorem State.moveUnit_only {n cell : Nat} {o : EngOp} (ho : Only pts s0 s) (hin : Within trapParts pts) :
    Only pts s0 (State.moveUnit s n cell o) := by
  refine ho.trans (Only.mono ?_ hin)
  clear ho hin
  have hk := Only.refl trapParts s
  unfold State.moveUnit
  try dsimp only
  with_reducible repeat' first
    | exact hk | apply State.moveTile_only | apply State.moveBox_only | apply State.moveScale_only | apply State.listExc_only | exact .same
    | exact .inTrap | exact (by decide) | assumption | (intro _) | split

/-! ## Arrays -/

theorem State.modArray_only {core : Nat} {f : MatrixArray → MatrixArray} (ho : Only pts s0 s) (hin : Within [.cores] pts) :
    Only pts s0 (State.modArray s core f) := by
  refine ho.trans (Only.mono ?_ hin)
  clear ho hin
  have hk := Only.refl [.cores] s
  unfold State.modArray
  try dsimp only
  with_reducible repeat' first | exact hk | apply State.setCore_only | exact .same

theorem State.arrayDone_only {n : Nat} {o : EngOp} (ho : Only pts s0 s) (hin : Within trapParts pts) :
    Only pts s0 (State.arrayDone s n o) := by
  refine ho.trans (Only.mono ?_ hin)
  clear ho hin
  have hk := Only.refl trapParts s
  unfold State.arrayDone
  try dsimp only
  with_reducible repeat' first
    | exact hk | apply State.modArray_only | apply State.complete_only | exact .same | exact .inTrap | exact (by decide) | assumption
    | (intro _) | split

theorem State.waitFor_only {n : Nat} {o : EngOp} {why : Stall} (ho : Only pts s0 s) (hin : Within [.strands] pts) :
    Only pts s0 (State.waitFor s n o why) := by
  refine ho.trans (Only.mono ?_ hin)
  clear ho hin
  have hk := Only.refl [.strands] s
  unfold State.waitFor
  try dsimp only
  with_reducible repeat' first | exact hk | apply State.setWaits_only | exact .same

theorem State.giveRecs_only {rs : List (Nat × Nat)} (ho : Only pts s0 s) (hin : Within [.cores, .ops, .strands] pts) :
    Only pts s0 (State.giveRecs s rs) := by
  refine ho.trans (Only.mono ?_ hin)
  clear ho hin
  have hk := Only.refl [.cores, .ops, .strands] s
  unfold State.giveRecs
  try dsimp only
  with_reducible repeat' first
    | exact hk | apply State.takeRec_only | exact .same | exact .inTrap | exact (by decide) | apply Only.foldl | apply Only.foldlPair
    | assumption | (intro _) | split

theorem State.enterOps_only {os : List (Nat × EngOp)} {zs : List Side} {d : BitVec 512} (ho : Only pts s0 s)
    (hin : Within [.cores, .fes, .host, .mem, .ops, .padBad, .past, .poison, .remote, .seq, .strands] pts) :
    Only pts s0 (State.enterOps s os zs d) := by
  refine ho.trans (Only.mono ?_ hin)
  clear ho hin
  have hk := Only.refl [.cores, .fes, .host, .mem, .ops, .padBad, .past, .poison, .remote, .seq, .strands] s
  unfold State.enterOps
  try dsimp only
  with_reducible repeat' first
    | exact hk | apply State.waitFor_only | apply State.giveRecs_only | apply State.modOp_only | apply State.modArray_only
    | apply State.passMembers_only | apply State.opEvent_only | exact .same | exact .inTrap | exact (by decide) | apply Only.foldl
    | apply Only.foldlPair | assumption | (intro _) | split

theorem State.enterChecked_only {os : List (Nat × EngOp)} {zs : List Side} {d : BitVec 512} {cause : Option Cause} (ho : Only pts s0 s)
    (hin : Within trapParts pts) :
    Only pts s0 (State.enterChecked s os zs d cause) := by
  refine ho.trans (Only.mono ?_ hin)
  clear ho hin
  have hk := Only.refl trapParts s
  unfold State.enterChecked
  try dsimp only
  with_reducible repeat' first
    | exact hk | apply State.trapMembers_only | apply State.engCommit_only | apply State.enterOps_only | apply State.waitFor_only
    | exact .same | exact .inTrap | exact (by decide) | apply Only.foldl | apply Only.foldlPair | assumption | (intro _) | split

theorem State.matchPair_only {a : MatrixArray} {p : Pair} (ho : Only pts s0 s) (hin : Within trapParts pts) :
    Only pts s0 (State.matchPair s a p) := by
  refine ho.trans (Only.mono ?_ hin)
  clear ho hin
  have hk := Only.refl trapParts s
  unfold State.matchPair
  try dsimp only
  with_reducible repeat' first
    | exact hk | apply State.enterChecked_only | exact .same | exact .inTrap | exact (by decide) | assumption | (intro _) | split

theorem State.dissolve_only {core : Nat} (ho : Only pts s0 s) (hin : Within trapParts pts) :
    Only pts s0 (State.dissolve s core) := by
  refine ho.trans (Only.mono ?_ hin)
  clear ho hin
  have hk := Only.refl trapParts s
  unfold State.dissolve
  try dsimp only
  with_reducible repeat' first
    | exact hk | apply State.modArray_only | apply State.trapMembers_only | apply State.modOp_only | apply State.emit_only | exact .same
    | exact .inTrap | exact (by decide) | apply Only.foldl | apply Only.foldlPair | assumption | (intro _) | split

theorem State.syncMembers_only {o : EngOp} {v : View} (ho : Only pts s0 s) (hin : Within [.strands] pts) :
    Only pts s0 (State.syncMembers s o v) := by
  refine ho.trans (Only.mono ?_ hin)
  clear ho hin
  have hk := Only.refl [.strands] s
  unfold State.syncMembers
  try dsimp only
  with_reducible repeat' first
    | exact hk | apply State.modStrand_only | exact .same | exact .inTrap | exact (by decide) | apply Only.foldl | apply Only.foldlPair
    | assumption | (intro _)

theorem State.formPair_only {n : Nat} {o : EngOp} (ho : Only pts s0 s) (hin : Within trapParts pts) :
    Only pts s0 (State.formPair s n o) := by
  refine ho.trans (Only.mono ?_ hin)
  clear ho hin
  have hk := Only.refl trapParts s
  unfold State.formPair
  try dsimp only
  with_reducible repeat' first
    | exact hk | apply State.trapMembers_only | apply State.waitFor_only | apply State.modOp_only | apply State.giveRecs_only
    | apply State.modArray_only | apply State.passMembers_only | apply State.syncMembers_only | apply State.opEvent_only
    | apply State.complete_only | exact .same | exact .inTrap | exact (by decide) | assumption | (intro _) | split

theorem State.enterDone_only {n : Nat} {o : EngOp} (ho : Only pts s0 s) (hin : Within trapParts pts) :
    Only pts s0 (State.enterDone s n o) := by
  refine ho.trans (Only.mono ?_ hin)
  clear ho hin
  have hk := Only.refl trapParts s
  unfold State.enterDone
  try dsimp only
  with_reducible repeat' first
    | exact hk | apply State.waitFor_only | apply State.giveRecs_only | apply State.passMembers_only | apply State.complete_only
    | exact .same | exact .inTrap | exact (by decide) | assumption | (intro _) | split

theorem State.enterOwned_only {n : Nat} {o : EngOp} {a : MatrixArray} (ho : Only pts s0 s) (hin : Within trapParts pts) :
    Only pts s0 (State.enterOwned s n o a) := by
  refine ho.trans (Only.mono ?_ hin)
  clear ho hin
  have hk := Only.refl trapParts s
  unfold State.enterOwned
  try dsimp only
  with_reducible repeat' first
    | exact hk | apply State.waitFor_only | apply State.formPair_only | apply State.enterDone_only | apply State.enterChecked_only
    | apply State.trapMembers_only | apply State.dissolve_only | apply State.modOp_only | apply State.matchPair_only | exact .same
    | exact .inTrap | exact (by decide) | apply Only.getD | assumption | (intro _) | split

theorem State.claimArray_only {core blk : Nat} (ho : Only pts s0 s) (hin : Within [.cores] pts) :
    Only pts s0 (State.claimArray s core blk) := by
  refine ho.trans (Only.mono ?_ hin)
  clear ho hin
  have hk := Only.refl [.cores] s
  unfold State.claimArray
  try dsimp only
  with_reducible repeat' first
    | exact hk | apply State.setCore_only | exact .same | exact .inTrap | exact (by decide) | assumption | (intro _) | split

theorem State.tryEnter_only {n : Nat} (ho : Only pts s0 s) (hin : Within trapParts pts) :
    Only pts s0 (State.tryEnter s n) := by
  refine ho.trans (Only.mono ?_ hin)
  clear ho hin
  have hk := Only.refl trapParts s
  unfold State.tryEnter
  try dsimp only
  with_reducible repeat' first
    | exact hk | apply State.claimArray_only | apply State.waitFor_only | apply State.enterOwned_only | exact .same | exact .inTrap
    | exact (by decide) | assumption | (intro _) | split

theorem State.freeFollow_only {n : Nat} (ho : Only pts s0 s) (hin : Within trapParts pts) :
    Only pts s0 (State.freeFollow s n) := by
  refine ho.trans (Only.mono ?_ hin)
  clear ho hin
  have hk := Only.refl trapParts s
  unfold State.freeFollow
  try dsimp only
  with_reducible repeat' first
    | exact hk | apply Ctx.follow_only | apply State.setOp_only | apply State.tryEnter_only | exact .same | exact .inTrap
    | exact (by decide) | assumption | (intro _) | split

theorem State.leaveOrder_only {n : Nat} {o : EngOp} (ho : Only pts s0 s) (hin : Within [.cores, .fes, .ops] pts) :
    Only pts s0 (State.leaveOrder s n o) := by
  refine ho.trans (Only.mono ?_ hin)
  clear ho hin
  have hk := Only.refl [.cores, .fes, .ops] s
  unfold State.leaveOrder
  try dsimp only
  with_reducible repeat' first
    | exact hk | apply State.modArray_only | apply State.count_only | apply State.modOp_only | exact .same | exact .inTrap
    | exact (by decide) | assumption | (intro _) | split

theorem State.withdraw_only {m : Nat} (ho : Only pts s0 s) (hin : Within trapParts pts) :
    Only pts s0 (State.withdraw s m) := by
  refine ho.trans (Only.mono ?_ hin)
  clear ho hin
  have hk := Only.refl trapParts s
  unfold State.withdraw
  try dsimp only
  with_reducible repeat' first
    | exact hk | apply State.setOp_only | apply State.postDone_only | apply State.modArray_only | apply State.count_only | exact .same
    | exact .inTrap | exact (by decide) | apply Only.getD | assumption | (intro _) | split

theorem State.abandonMma_only {o : EngOp} {c : Cause} {va : Nat} (ho : Only pts s0 s) (hin : Within trapParts pts) :
    Only pts s0 (State.abandonMma s o c va) := by
  refine ho.trans (Only.mono ?_ hin)
  clear ho hin
  have hk := Only.refl trapParts s
  unfold State.abandonMma
  try dsimp only
  with_reducible repeat' first
    | exact hk | apply Ctx.eccReg_only | apply State.modArray_only | apply State.opEvent_only | apply State.opError_only | exact .same
    | exact .inTrap | exact (by decide) | assumption | (intro _) | split

theorem State.drainTile_only {n : Nat} {o : EngOp} {l : Layout} {b rows cols : Nat} {code : Nat → Nat → Nat} (ho : Only pts s0 s)
    (hin : Within [.blocks, .host, .launches, .mem, .ops, .padBad, .past, .poison, .remote, .seq] pts) :
    Only pts s0 (State.drainTile s n o l b rows cols code) := by
  refine ho.trans (Only.mono ?_ hin)
  clear ho hin
  have hk := Only.refl [.blocks, .host, .launches, .mem, .ops, .padBad, .past, .poison, .remote, .seq] s
  unfold State.drainTile
  try dsimp only
  with_reducible repeat' first
    | exact hk | apply State.opPadWrite_only | exact .same | exact .inTrap | exact (by decide) | apply Only.foldl | apply Only.foldlPair
    | assumption | (intro _)

theorem State.drain_only {n : Nat} {o : EngOp} {a : MatrixArray} {bases : List Nat} {code : Nat → Nat → Nat} (ho : Only pts s0 s)
    (hin : Within trapParts pts) :
    Only pts s0 (State.drain s n o a bases code) := by
  refine ho.trans (Only.mono ?_ hin)
  clear ho hin
  have hk := Only.refl trapParts s
  unfold State.drain
  try dsimp only
  with_reducible repeat' first
    | exact hk | apply State.modArray_only | apply State.opError_only | apply Ctx.eccReg_only | apply State.drainTile_only
    | apply State.count_only | apply State.opEvent_only | apply State.arrayDone_only | exact .same | exact .inTrap | exact (by decide)
    | apply Only.getD | assumption | (intro _) | split

/-! ## Collective -/

theorem State.ripen_only {n : Nat} {o : EngOp} (ho : Only pts s0 s) (hin : Within (.uid :: trapParts) pts) :
    Only pts s0 (State.ripen s n o) := by
  refine ho.trans (Only.mono ?_ hin)
  clear ho hin
  have hk := Only.refl (.uid :: trapParts) s
  unfold State.ripen
  try dsimp only
  with_reducible repeat' first
    | exact hk | apply State.name_only | apply State.setOp_only | apply State.checkCopy_only | exact .same | exact .inTrap
    | exact (by decide) | assumption | (intro _) | split

theorem State.endCopy_only {n : Nat} (ho : Only pts s0 s) (hin : Within trapParts pts) :
    Only pts s0 (State.endCopy s n) := by
  refine ho.trans (Only.mono ?_ hin)
  clear ho hin
  have hk := Only.refl trapParts s
  unfold State.endCopy
  have hp := State.postFlag_only (n := n) hk .same
  split
  · rename_i e
    rw [e] at hp
    exact hp
  · rename_i e
    rw [e] at hp
    split
    · exact hp
    · rename_i o ho
      extract_lets s1 s2
      have h1 : Only trapParts s s1 := State.opEvent_only (State.postDone_only hp (by decide)) .inTrap
      have h2 : Only trapParts s s2 := by
        unfold s2
        split
        · exact State.opEvent_only h1 .inTrap
        · exact h1
      clear_value s2
      split
      · split
        · exact State.withdraw_only h2 .same
        · exact h2
      · exact h2

theorem State.tryStart_only {n : Nat} (ho : Only pts s0 s) (hin : Within (.uid :: trapParts) pts) :
    Only pts s0 (State.tryStart s n) := by
  refine ho.trans (Only.mono ?_ hin)
  clear ho hin
  have hk := Only.refl (.uid :: trapParts) s
  unfold State.tryStart
  try dsimp only
  with_reducible repeat' first
    | exact hk | apply State.endCopy_only | apply State.complete_only | apply State.ripen_only | apply State.tryEnter_only
    | apply State.startCopy_only | apply State.acceptCopy_only | exact .same | exact .inTrap | exact (by decide) | assumption | (intro _)
    | split

theorem State.syncDone_only {blk k : Nat} (ho : Only pts s0 s) (hin : Within [.strands] pts) :
    Only pts s0 (State.syncDone s blk k) := by
  refine ho.trans (Only.mono ?_ hin)
  clear ho hin
  have hk := Only.refl [.strands] s
  unfold State.syncDone
  try dsimp only
  with_reducible repeat' first
    | exact hk | apply State.modStrand_only | exact .same | exact .inTrap | exact (by decide) | apply Only.foldl | apply Only.foldlPair
    | assumption | (intro _) | split

theorem State.breakPairs_only {blk : Nat} {ks : List Nat} (ho : Only pts s0 s) (hin : Within trapParts pts) :
    Only pts s0 (State.breakPairs s blk ks) := by
  refine ho.trans (Only.mono ?_ hin)
  clear ho hin
  have hk := Only.refl trapParts s
  unfold State.breakPairs
  try dsimp only
  with_reducible repeat' first
    | exact hk | apply State.trapMembers_only | exact .same | exact .inTrap | exact (by decide) | apply Only.foldl | apply Only.foldlPair
    | assumption | (intro _) | split

theorem State.membership_only {blk : Nat} {ks : List Nat} (ho : Only pts s0 s) (hin : Within (.uid :: trapParts) pts) :
    Only pts s0 (State.membership s blk ks) := by
  refine ho.trans (Only.mono ?_ hin)
  clear ho hin
  have hk := Only.refl (.uid :: trapParts) s
  unfold State.membership
  try dsimp only
  with_reducible repeat' first
    | exact hk | apply State.dissolve_only | apply State.breakPairs_only | apply State.syncDone_only | apply State.tryStart_only
    | exact .same | exact .inTrap | exact (by decide) | apply Only.foldl | apply Only.foldlPair | assumption | (intro _) | split

theorem State.reskein_only {r : StrandRef} {dest : Option Nat} (ho : Only pts s0 s) (hin : Within (.uid :: trapParts) pts) :
    Only pts s0 (State.reskein s r dest) := by
  refine ho.trans (Only.mono ?_ hin)
  clear ho hin
  have hk := Only.refl (.uid :: trapParts) s
  unfold State.reskein
  try dsimp only
  with_reducible repeat' first
    | exact hk | apply State.setStrand_only | apply State.membership_only | exact .same | exact .inTrap | exact (by decide) | assumption
    | (intro _) | split

/-! ## EngineWords -/

theorem State.cprWrite_only {n dst size : Nat} {vs : List Nat} (ho : Only pts s0 s) (hin : Within trapParts pts) :
    Only pts s0 (State.cprWrite s n dst size vs) := by
  refine ho.trans (Only.mono ?_ hin)
  clear ho hin
  have hk := Only.refl trapParts s
  unfold State.cprWrite
  exact Only.foldl (fun _ _ h => State.putUnit_only h .same fun _ h => h) hk

theorem State.cprDone_only {n : Nat} {o : EngOp} (ho : Only pts s0 s) (hin : Within trapParts pts) :
    Only pts s0 (State.cprDone s n o) := by
  refine ho.trans (Only.mono ?_ hin)
  clear ho hin
  have hk := Only.refl trapParts s
  unfold State.cprDone
  try dsimp only
  with_reducible repeat' first | exact hk | apply State.postBytes_only | apply State.endCopy_only | exact .same

theorem State.cprScatter_only {n : Nat} {o : EngOp} {whole : Bool} (ho : Only pts s0 s) (hin : Within (.fresh :: trapParts) pts) :
    Only pts s0 (State.cprScatter s n o whole) := by
  refine ho.trans (Only.mono ?_ hin)
  clear ho hin
  have hk := Only.refl (.fresh :: trapParts) s
  unfold State.cprScatter
  try dsimp only
  with_reducible repeat' first
    | exact hk | apply State.count_only | (refine State.engWrite_only ?_ ?_ (by assumption)) | apply State.opFault_only | exact .same
    | exact .inTrap | exact (by decide) | apply Only.foldl | apply Only.foldlPair | assumption | (intro _) | split | exact Or.inl rfl
    | exact Or.inr (by decide) | apply Only.upd

theorem State.cancelOp_only {n : Nat} (ho : Only pts s0 s) (hin : Within trapParts pts) :
    Only pts s0 (State.cancelOp s n) := by
  refine ho.trans (Only.mono ?_ hin)
  clear ho hin
  have hk := Only.refl trapParts s
  unfold State.cancelOp
  try dsimp only
  with_reducible repeat' first
    | exact hk | apply State.passMembers_only | apply State.unpost_only | apply State.setOp_only | apply State.postDone_only
    | apply State.postBar_only | apply State.opEvent_only | apply Ctx.follow_only | apply State.modOp_only | apply State.withdraw_only
    | exact .same | exact .inTrap | exact (by decide) | apply Only.foldl | apply Only.foldlPair | assumption | (intro _) | split

/-! ## Strands -/

theorem State.dropLoads_only {r : StrandRef} {m : Word} {all : Bool} (ho : Only pts s0 s) (hin : Within (.uid :: trapParts) pts) :
    Only pts s0 (State.dropLoads s r m all) := by
  refine ho.trans (Only.mono ?_ hin)
  clear ho hin
  have hk := Only.refl (.uid :: trapParts) s
  unfold State.dropLoads
  try dsimp only
  with_reducible repeat' first | exact hk | assumption | (intro _) | split | exact Or.inl rfl | exact Or.inr (by decide) | apply Only.upd

theorem State.endStrand_only {r : StrandRef} (ho : Only pts s0 s) (hin : Within (.uid :: trapParts) pts) :
    Only pts s0 (State.endStrand s r) := by
  refine ho.trans (Only.mono ?_ hin)
  clear ho hin
  have hk := Only.refl (.uid :: trapParts) s
  unfold State.endStrand
  try dsimp only
  with_reducible repeat' first
    | exact hk | apply State.setStrand_only | apply State.sweep_only | apply State.membership_only | apply State.endArrivals_only
    | apply State.noteStalls_only | apply State.unheard_only | exact .same | exact .inTrap | exact (by decide) | assumption | (intro _)
    | split

/-! ## Boundary -/

theorem State.deliverFault_only {r : StrandRef} (ho : Only pts s0 s) (hin : Within trapParts pts) :
    Only pts s0 (State.deliverFault s r) := by
  refine ho.trans (Only.mono ?_ hin)
  clear ho hin
  have hk := Only.refl trapParts s
  unfold State.deliverFault
  try dsimp only
  with_reducible repeat' first
    | exact hk | apply State.stall_only | apply State.setStrand_only | apply State.enterPriv_only | exact .same | exact .inTrap
    | exact (by decide) | assumption | (intro _) | split

theorem State.boundaryCause_only {r : StrandRef} {k : Strand} {b : Block} {bad : Option Dword} (ho : Only pts s0 s)
    (hin : Within trapParts pts) {out : State} (e : State.boundaryCause s r k b bad = some out) :
    Only pts s0 out := by
  refine ho.trans (Only.mono ?_ hin)
  clear ho hin
  have hk := Only.refl trapParts s
  unfold State.boundaryCause at e
  try dsimp only at e
  with_reducible repeat' first
    | split at e | cases e | exact hk | apply State.enterPriv_only | apply State.modStrand_only | apply State.deliverFault_only
    | apply State.enterUser_only | exact .same | exact .inTrap | exact (by decide)

theorem State.comeToBoundary_only {r : StrandRef} {k : Strand} {b : Block} (ho : Only pts s0 s) (hin : Within trapParts pts) :
    Only pts s0 (State.comeToBoundary s r k b).1 := by
  refine ho.trans (Only.mono ?_ hin)
  clear ho hin
  have hk := Only.refl trapParts s
  unfold State.comeToBoundary
  try dsimp only
  with_reducible repeat' first
    | exact hk | apply State.modStrand_only | apply State.setStrand_only | (refine State.boundaryCause_only ?_ ?_ (by assumption))
    | exact .same | exact .inTrap | exact (by decide) | assumption | (intro _) | split

theorem State.visit_only {r : StrandRef} {ok : Strand → Block → Bool} (ho : Only pts s0 s) (hin : Within trapParts pts) :
    Only pts s0 (State.visit s r ok) := by
  refine ho.trans (Only.mono ?_ hin)
  clear ho hin
  have hk := Only.refl trapParts s
  unfold State.visit
  try dsimp only
  with_reducible repeat' first
    | exact hk | apply State.comeToBoundary_only | exact .same | exact .inTrap | exact (by decide) | assumption | (intro _) | split

theorem State.expire_only {r : StrandRef} {ok : Group → Bool} (ho : Only pts s0 s)
    (hin : Within [.fes, .host, .mem, .padBad, .past, .poison, .remote, .seq, .strands] pts) :
    Only pts s0 (State.expire s r ok) := by
  refine ho.trans (Only.mono ?_ hin)
  clear ho hin
  have hk := Only.refl [.fes, .host, .mem, .padBad, .past, .poison, .remote, .seq, .strands] s
  unfold State.expire
  try dsimp only
  with_reducible repeat' first
    | exact hk | apply State.setStrand_only | apply State.emit_only | exact .same | exact .inTrap | exact (by decide) | apply Only.foldl
    | apply Only.foldlPair | apply Only.getD | assumption | (intro _) | split

/-! ## Placement -/

theorem State.putBlock_only {l : Nat} {la : Launch} {index : Nat} {seat : Seat} {shadow : Bool} (ho : Only pts s0 s)
    (hin : Within [.blocks, .fes, .host, .mem, .padBad, .past, .poison, .remote, .seq, .strands, .uid] pts) :
    Only pts s0 (State.putBlock s l la index seat shadow).2 := by
  refine ho.trans (Only.mono ?_ hin)
  clear ho hin
  have hk := Only.refl [.blocks, .fes, .host, .mem, .padBad, .past, .poison, .remote, .seq, .strands, .uid] s
  unfold State.putBlock
  try dsimp only
  with_reducible repeat' first
    | exact hk | apply State.name_only | apply State.count_only | apply State.emit_only | exact .same | exact .inTrap | exact (by decide)
    | apply Only.getD | assumption | (intro _) | split | exact Or.inl rfl | exact Or.inr (by decide) | apply Only.upd

theorem State.placeFresh_only {l : Nat} {la : Launch} {index : Nat} (ho : Only pts s0 s)
    (hin : Within [.blocks, .fes, .host, .launches, .mem, .padBad, .past, .poison, .remote, .seq, .strands, .uid] pts) {out : State}
    (e : State.placeFresh s l la index = some out) :
    Only pts s0 out := by
  refine ho.trans (Only.mono ?_ hin)
  clear ho hin
  have hk := Only.refl [.blocks, .fes, .host, .launches, .mem, .padBad, .past, .poison, .remote, .seq, .strands, .uid] s
  unfold State.placeFresh at e
  cases hx : s.freshSeats l la index with
  | none => simp [hx] at e
  | some p =>
    obtain ⟨p, q⟩ := p
    simp only [hx, Option.map_some, Option.some.injEq] at e
    subst e
    refine State.modLaunch_only ?_ (by decide)
    split
    · exact State.putBlock_only hk (by decide)
    · exact State.modBlock_only (State.modBlock_only (State.putBlock_only (State.putBlock_only hk (by decide)) (by decide)) (by decide))
        (by decide)

theorem State.placedOne_only {fe : Nat} (ho : Only pts s0 s) (hin : Within [.fes] pts) :
    Only pts s0 (State.placedOne s fe) := by
  refine ho.trans (Only.mono ?_ hin)
  clear ho hin
  have hk := Only.refl [.fes] s
  unfold State.placedOne
  try dsimp only
  with_reducible repeat' first | exact hk | apply State.modFe_only | exact .same

theorem State.verdict_only {blk : Nat} (ho : Only pts s0 s)
    (hin : Within [.blocks, .fes, .host, .launches, .mem, .padBad, .past, .poison, .remote, .seq] pts) :
    Only pts s0 (State.verdict s blk) := by
  refine ho.trans (Only.mono ?_ hin)
  clear ho hin
  have hk := Only.refl [.blocks, .fes, .host, .launches, .mem, .padBad, .past, .poison, .remote, .seq] s
  unfold State.verdict
  try dsimp only
  with_reducible repeat' first
    | exact hk | apply State.setBlock_only | apply State.emit_only | apply State.modLaunch_only | exact .same | exact .inTrap
    | exact (by decide) | apply Only.getD | assumption | (intro _) | split

theorem State.retire_only {blk : Nat} {b : Block} (ho : Only pts s0 s)
    (hin : Within [.blocks, .cores, .fes, .host, .launches, .mem, .padBad, .past, .poison, .remote, .seq, .strands] pts) :
    Only pts s0 (State.retire s blk b) := by
  refine ho.trans (Only.mono ?_ hin)
  clear ho hin
  have hk := Only.refl [.blocks, .cores, .fes, .host, .launches, .mem, .padBad, .past, .poison, .remote, .seq, .strands] s
  unfold State.retire
  try dsimp only
  with_reducible repeat' first
    | exact hk | apply State.verdict_only | apply State.modBlock_only | apply State.modLaunch_only | apply State.dropStrands_only
    | apply State.setCore_only | apply State.noteStalls_only | apply State.emit_only | exact .same | exact .inTrap | exact (by decide)
    | apply Only.getD | assumption | (intro _) | split | exact Or.inl rfl | exact Or.inr (by decide) | apply Only.upd

/-! ## Admission -/

theorem State.readmit_only  (ho : Only pts s0 s) (hin : Within recordParts pts) :
    Only pts s0 (State.readmit s) := by
  refine ho.trans (Only.mono ?_ hin)
  clear ho hin
  have hk := Only.refl recordParts s
  unfold State.readmit
  try dsimp only
  with_reducible repeat' first
    | exact hk | apply State.modFe_only | apply State.emit_only | exact .same | exact .inTrap | exact (by decide) | apply Only.foldl
    | apply Only.foldlPair | assumption | (intro _) | split

/-! ## Preempt -/

theorem State.preemptEvent_only {b : Block} {c : Cause} (ho : Only pts s0 s) (hin : Within recordParts pts) :
    Only pts s0 (State.preemptEvent s b c) := by
  refine ho.trans (Only.mono ?_ hin)
  clear ho hin
  have hk := Only.refl recordParts s
  unfold State.preemptEvent
  try dsimp only
  with_reducible repeat' first | exact hk | apply State.emit_only | exact .same

theorem State.haltBlock_only {blk : Nat} (ho : Only pts s0 s) (hin : Within [.blocks] pts) :
    Only pts s0 (State.haltBlock s blk) := by
  refine ho.trans (Only.mono ?_ hin)
  clear ho hin
  have hk := Only.refl [.blocks] s
  unfold State.haltBlock
  try dsimp only
  with_reducible repeat' first | exact hk | apply State.modBlock_only | exact .same

theorem State.flush_only {blk : Nat} {b : Block} (ho : Only pts s0 s) (hin : Within trapParts pts) :
    Only pts s0 (State.flush s blk b) := by
  refine ho.trans (Only.mono ?_ hin)
  clear ho hin
  have hk := Only.refl trapParts s
  unfold State.flush
  try dsimp only
  with_reducible repeat' first
    | exact hk | apply State.abandonShadow_only | apply State.abandonPair_only | apply State.requeue_only | apply State.preemptEvent_only
    | apply State.count_only | exact .same | exact .inTrap | exact (by decide) | apply Only.getD | assumption | (intro _) | split

theorem State.preempt_only {blk : Nat} (ho : Only pts s0 s) (hin : Within trapParts pts) :
    Only pts s0 (State.preempt s blk) := by
  refine ho.trans (Only.mono ?_ hin)
  clear ho hin
  have hk := Only.refl trapParts s
  unfold State.preempt
  try dsimp only
  with_reducible repeat' first
    | exact hk | apply State.drain_only | apply State.setBlock_only | apply State.preemptEvent_only | apply State.flush_only
    | apply State.haltBlock_only | exact .same | exact .inTrap | exact (by decide) | assumption | (intro _) | split

theorem State.preemptAll_only {fe : Nat} (ho : Only pts s0 s) (hin : Within trapParts pts) :
    Only pts s0 (State.preemptAll s fe) := by
  refine ho.trans (Only.mono ?_ hin)
  clear ho hin
  have hk := Only.refl trapParts s
  unfold State.preemptAll
  try dsimp only
  with_reducible repeat' first
    | exact hk | apply State.preempt_only | exact .same | exact .inTrap | exact (by decide) | apply Only.foldl | apply Only.foldlPair
    | assumption | (intro _)

theorem State.saveAll_only {fe : Nat} (ho : Only pts s0 s) (hin : Within [.blocks] pts) :
    Only pts s0 (State.saveAll s fe) := by
  refine ho.trans (Only.mono ?_ hin)
  clear ho hin
  have hk := Only.refl [.blocks] s
  unfold State.saveAll
  try dsimp only
  with_reducible repeat' first
    | exact hk | apply State.haltBlock_only | exact .same | exact .inTrap | exact (by decide) | apply Only.foldl | apply Only.foldlPair
    | assumption | (intro _) | split

theorem State.eachStrand_only {blk : Nat} {f : StrandRef → Strand → Strand} (ho : Only pts s0 s) (hin : Within [.strands] pts) :
    Only pts s0 (State.eachStrand s blk f) := by
  refine ho.trans (Only.mono ?_ hin)
  clear ho hin
  have hk := Only.refl [.strands] s
  unfold State.eachStrand
  try dsimp only
  with_reducible repeat' first | exact hk | assumption | (intro _) | split | exact Or.inl rfl | exact Or.inr (by decide) | apply Only.upd

theorem State.saveOp_only {n : Nat} {o : EngOp} (ho : Only pts s0 s) (hin : Within trapParts pts) :
    Only pts s0 (State.saveOp s n o) := by
  refine ho.trans (Only.mono ?_ hin)
  clear ho hin
  have hk := Only.refl trapParts s
  unfold State.saveOp
  try dsimp only
  with_reducible repeat' first
    | exact hk | apply State.unpost_only | apply State.setOp_only | apply State.opEvent_only | apply Ctx.follow_only
    | apply State.leaveOrder_only | apply State.modOp_only | exact .same | exact .inTrap | exact (by decide) | apply Only.foldl
    | apply Only.foldlPair | assumption | (intro _) | split

theorem State.saveBlock_only {blk : Nat} {b : Block} (ho : Only pts s0 s) (hin : Within trapParts pts) :
    Only pts s0 (State.saveBlock s blk b) := by
  refine ho.trans (Only.mono ?_ hin)
  clear ho hin
  have hk := Only.refl trapParts s
  unfold State.saveBlock
  try dsimp only
  with_reducible repeat' first
    | exact hk | apply State.eachStrand_only | apply State.saveOp_only | apply State.modBlock_only | apply State.setCore_only
    | apply State.noteStalls_only | apply State.preemptEvent_only | apply State.count_only | exact .same | exact .inTrap | exact (by decide)
    | apply Only.foldl | apply Only.foldlPair | apply Only.getD | assumption | (intro _)

theorem State.endCmd_only {fe n : Nat} {c : Cmd} {cause : Cause} (ho : Only pts s0 s) (hin : Within recordParts pts) :
    Only pts s0 (State.endCmd s fe n c cause) := by
  refine ho.trans (Only.mono ?_ hin)
  clear ho hin
  have hk := Only.refl recordParts s
  unfold State.endCmd
  try dsimp only
  with_reducible repeat' first
    | exact hk | apply State.modFe_only | apply State.completeCmd_only | exact .same | exact .inTrap | exact (by decide)

theorem State.respread_only {fe : Nat} (ho : Only pts s0 s) (hin : Within [.launches] pts) :
    Only pts s0 (State.respread s fe) := by
  refine ho.trans (Only.mono ?_ hin)
  clear ho hin
  have hk := Only.refl [.launches] s
  unfold State.respread
  try dsimp only
  with_reducible repeat' first
    | exact hk | apply Only.foldl | apply Only.foldlPair | assumption | (intro _) | split | exact Or.inl rfl | exact Or.inr (by decide)
    | apply Only.upd

theorem State.createPartition_only {fe : Nat} {r : PartRec} (ho : Only pts s0 s)
    (hin : Within [.clusters, .fes, .host, .mem, .padBad, .past, .poison, .remote, .seq] pts) :
    Only pts s0 (State.createPartition s fe r) := by
  refine ho.trans (Only.mono ?_ hin)
  clear ho hin
  have hk := Only.refl [.clusters, .fes, .host, .mem, .padBad, .past, .poison, .remote, .seq] s
  unfold State.createPartition
  try dsimp only
  with_reducible repeat' first
    | exact hk | apply State.credit_only | apply State.setFe_only | apply State.flushTlb_only | apply State.emit_only
    | apply State.readmit_only | exact .same | exact .inTrap | exact (by decide)

theorem State.putRecord_only {fe : Nat} {r : PartRec} (ho : Only pts s0 s)
    (hin : Within [.clusters, .fes, .host, .launches, .mem, .padBad, .past, .poison, .remote, .seq] pts) :
    Only pts s0 (State.putRecord s fe r) := by
  refine ho.trans (Only.mono ?_ hin)
  clear ho hin
  have hk := Only.refl [.clusters, .fes, .host, .launches, .mem, .padBad, .past, .poison, .remote, .seq] s
  unfold State.putRecord
  try dsimp only
  with_reducible repeat' first
    | exact hk | apply State.credit_only | apply State.modFe_only | apply State.respread_only | apply State.readmit_only | exact .same
    | exact .inTrap | exact (by decide)

theorem State.settle_only {fe : Nat} (ho : Only pts s0 s)
    (hin : Within [.clusters, .fes, .host, .launches, .mem, .padBad, .past, .poison, .remote, .seq] pts) :
    Only pts s0 (State.settle s fe) := by
  refine ho.trans (Only.mono ?_ hin)
  clear ho hin
  have hk := Only.refl [.clusters, .fes, .host, .launches, .mem, .padBad, .past, .poison, .remote, .seq] s
  unfold State.settle
  try dsimp only
  with_reducible repeat' first
    | exact hk | apply State.emit_only | apply State.endCmd_only | apply State.putRecord_only | apply State.credit_only
    | apply State.modFe_only | exact .same | exact .inTrap | exact (by decide) | assumption | (intro _) | split

theorem State.replayHeld_only {mine : Nat → Nat → Bool} (ho : Only pts s0 s) (hin : Within trapParts pts) :
    Only pts s0 (State.replayHeld s mine) := by
  refine ho.trans (Only.mono ?_ hin)
  clear ho hin
  have hk := Only.refl trapParts s
  unfold State.replayHeld
  try dsimp only
  with_reducible repeat' first
    | exact hk | apply State.recommit_only | exact .same | exact .inTrap | exact (by decide) | apply Only.foldl | apply Only.foldlPair
    | apply Only.getD | assumption | (intro _) | split | exact Or.inl rfl | exact Or.inr (by decide) | apply Only.upd

theorem State.restoreOp_only {core : Nat} {moves : List (Nat × Half × Nat × Half)} {n : Nat} {o : EngOp} (ho : Only pts s0 s)
    (hin : Within [.ops] pts) :
    Only pts s0 (State.restoreOp s core moves n o) := by
  refine ho.trans (Only.mono ?_ hin)
  clear ho hin
  have hk := Only.refl [.ops] s
  unfold State.restoreOp
  try dsimp only
  with_reducible repeat' first | exact hk | apply State.setOp_only | exact .same

theorem State.restoreBlock_only {blk : Nat} {b : Block} {seat : Seat} (ho : Only pts s0 s) (hin : Within trapParts pts) :
    Only pts s0 (State.restoreBlock s blk b seat) := by
  refine ho.trans (Only.mono ?_ hin)
  clear ho hin
  have hk := Only.refl trapParts s
  unfold State.restoreBlock
  try dsimp only
  with_reducible repeat' first
    | exact hk | apply State.setCore_only | apply State.modBlock_only | apply State.eachStrand_only | apply State.restoreOp_only
    | apply State.replayHeld_only | apply State.noteStalls_only | apply State.preemptEvent_only | exact .same | exact .inTrap
    | exact (by decide) | apply Only.foldl | apply Only.foldlPair | apply Only.getD | assumption | (intro _) | split | exact Or.inl rfl
    | exact Or.inr (by decide) | apply Only.upd

/-! ## FrontEnds -/

theorem State.beginCmd_only {fe i : Nat} {c : Cmd} (ho : Only pts s0 s) (hin : Within recordParts pts) :
    Only pts s0 (State.beginCmd s fe i c) := by
  refine ho.trans (Only.mono ?_ hin)
  clear ho hin
  have hk := Only.refl recordParts s
  unfold State.beginCmd
  try dsimp only
  with_reducible repeat' first
    | exact hk | apply State.modFe_only | apply State.writeStatus_only | exact .same | exact .inTrap | exact (by decide)

theorem State.beginLaunch_only {n : Nat} {l : Launch} (ho : Only pts s0 s) (hin : Within [.fes, .launches, .uid] pts) :
    Only pts s0 (State.beginLaunch s n l) := by
  refine ho.trans (Only.mono ?_ hin)
  clear ho hin
  have hk := Only.refl [.fes, .launches, .uid] s
  unfold State.beginLaunch
  try dsimp only
  with_reducible repeat' first
    | exact hk | apply State.name_only | apply State.setLaunch_only | apply State.modFe_only | exact .same | exact .inTrap
    | exact (by decide)

theorem State.endLaunch_only {l : Nat} {la : Launch} (ho : Only pts s0 s)
    (hin : Within [.fes, .host, .launches, .mem, .padBad, .past, .poison, .remote, .seq] pts) :
    Only pts s0 (State.endLaunch s l la) := by
  refine ho.trans (Only.mono ?_ hin)
  clear ho hin
  have hk := Only.refl [.fes, .host, .launches, .mem, .padBad, .past, .poison, .remote, .seq] s
  unfold State.endLaunch
  try dsimp only
  with_reducible repeat' first
    | exact hk | apply State.endCmd_only | exact .same | exact .inTrap | exact (by decide) | apply Only.getD | assumption | (intro _)
    | split | exact Or.inl rfl | exact Or.inr (by decide) | apply Only.upd

theorem State.cmdAbsent_only {fe va : Nat} {write : Bool} (ho : Only pts s0 s)
    (hin : Within [.blocks, .cores, .fes, .host, .launches, .mem, .padBad, .past, .poison, .remote, .seq] pts) :
    Only pts s0 (State.cmdAbsent s fe va write) := by
  refine ho.trans (Only.mono ?_ hin)
  clear ho hin
  have hk := Only.refl [.blocks, .cores, .fes, .host, .launches, .mem, .padBad, .past, .poison, .remote, .seq] s
  unfold State.cmdAbsent
  try dsimp only
  with_reducible repeat' first
    | exact hk | apply State.reportAbsent_only | apply State.write_only | exact .same | exact .inTrap | exact (by decide)

theorem State.endSuspend_only {fe : Nat} (ho : Only pts s0 s) (hin : Within recordParts pts) :
    Only pts s0 (State.endSuspend s fe) := by
  refine ho.trans (Only.mono ?_ hin)
  clear ho hin
  have hk := Only.refl recordParts s
  unfold State.endSuspend
  try dsimp only
  with_reducible repeat' first
    | exact hk | apply State.endCmd_only | exact .same | exact .inTrap | exact (by decide) | assumption | (intro _) | split

theorem State.dirtyReport_only {fe va : Nat} (ho : Only pts s0 s) (hin : Within recordParts pts) :
    Only pts s0 (State.dirtyReport s fe va) := by
  refine ho.trans (Only.mono ?_ hin)
  clear ho hin
  have hk := Only.refl recordParts s
  have hw : ∀ {t : State} {a : Nat} {bs : List Byte} {w : Author}, Only recordParts s t → Only recordParts s
      ((t.writeVa fe a bs w).getD t) :=
    fun h => Only.getD (fun _ e => State.writeVa_only h (by decide) e) h
  unfold State.dirtyReport
  split
  · exact hk
  · extract_lets cap ps s1 s2
    have h2 : Only recordParts s s2 := hw (Only.foldl (fun _ _ h => hw h) hk)
    split
    · exact State.emit_only h2 .same
    · exact h2

theorem State.beginStop_only {fe : Nat} {x : Stopping} (ho : Only pts s0 s) (hin : Within (.clusters :: trapParts) pts) :
    Only pts s0 (State.beginStop s fe x) := by
  refine ho.trans (Only.mono ?_ hin)
  clear ho hin
  have hk := Only.refl (.clusters :: trapParts) s
  unfold State.beginStop
  try dsimp only
  with_reducible repeat' first
    | exact hk | apply State.endSuspend_only | apply State.modFe_only | apply State.killBlock_only | apply State.putRecord_only
    | exact .same | exact .inTrap | exact (by decide) | apply Only.foldl | apply Only.foldlPair | assumption | (intro _) | split
    | exact Or.inl rfl | exact Or.inr (by decide) | apply Only.upd

theorem State.settleStop_only {fe : Nat} (ho : Only pts s0 s)
    (hin : Within [.accs, .clusters, .fes, .host, .launches, .mem, .padBad, .past, .poison, .quorums, .remote, .seq] pts) :
    Only pts s0 (State.settleStop s fe) := by
  refine ho.trans (Only.mono ?_ hin)
  clear ho hin
  have hk := Only.refl [.accs, .clusters, .fes, .host, .launches, .mem, .padBad, .past, .poison, .quorums, .remote, .seq] s
  unfold State.settleStop
  try dsimp only
  with_reducible repeat' first
    | exact hk | apply State.endCmd_only | apply State.dirtyReport_only | apply State.modFe_only | apply State.writeStatus_only
    | apply State.credit_only | apply State.emit_only | apply State.setFe_only | apply State.readmit_only | apply State.createPartition_only
    | exact .same | exact .inTrap | exact (by decide) | apply Only.foldl | apply Only.foldlPair | assumption | (intro _) | split
    | exact Or.inl rfl | exact Or.inr (by decide) | apply Only.upd

/-! ## Code -/

theorem State.fetchTrap_only {rs : List StrandRef} {cause : Cause} {line : Option Nat} (ho : Only pts s0 s) (hin : Within trapParts pts) :
    Only pts s0 (State.fetchTrap s rs cause line) := by
  refine ho.trans (Only.mono ?_ hin)
  clear ho hin
  have hk := Only.refl trapParts s
  unfold State.fetchTrap
  try dsimp only
  with_reducible repeat' first
    | exact hk | apply State.enterPriv_only | exact .same | exact .inTrap | exact (by decide) | apply Only.foldl | apply Only.foldlPair
    | apply Only.getD | assumption | (intro _) | split

theorem State.hashFail_only {rs : List StrandRef} (ho : Only pts s0 s) (hin : Within trapParts pts) :
    Only pts s0 (State.hashFail s rs) := by
  refine ho.trans (Only.mono ?_ hin)
  clear ho hin
  have hk := Only.refl trapParts s
  unfold State.hashFail
  try dsimp only
  with_reducible repeat' first
    | exact hk | apply State.blockFails_only | exact .same | exact .inTrap | exact (by decide) | apply Only.foldl | apply Only.foldlPair
    | assumption | (intro _) | split

theorem State.tagLine_only {fe : Nat} {o : CodeObject} {line : Nat} (ho : Only pts s0 s)
    (hin : Within [.host, .mem, .padBad, .past, .poison, .remote, .seq] pts) :
    Only pts s0 (State.tagLine s fe o line) := by
  refine ho.trans (Only.mono ?_ hin)
  clear ho hin
  have hk := Only.refl [.host, .mem, .padBad, .past, .poison, .remote, .seq] s
  unfold State.tagLine
  split
  · split
    · exact State.write_out (.inl rfl)
    · exact hk
  · exact hk

/-! ## Manage -/

theorem State.managed_only {c : Cause} (ho : Only pts s0 s) (hin : Within [.mgmt] pts) :
    Only pts s0 (State.managed s c) := by
  refine ho.trans (Only.mono ?_ hin)
  clear ho hin
  have hk := Only.refl [.mgmt] s
  unfold State.managed
  try dsimp only
  with_reducible repeat' first | exact hk | assumption | (intro _) | split | exact Or.inl rfl | exact Or.inr (by decide) | apply Only.upd

theorem State.disable_only {fe : Nat} (ho : Only pts s0 s) (hin : Within (.clusters :: trapParts) pts) :
    Only pts s0 (State.disable s fe) := by
  refine ho.trans (Only.mono ?_ hin)
  clear ho hin
  have hk := Only.refl (.clusters :: trapParts) s
  unfold State.disable
  try dsimp only
  with_reducible repeat' first
    | exact hk | apply State.modFe_only | apply State.settleStop_only | apply State.beginStop_only | exact .same | exact .inTrap
    | exact (by decide) | assumption | (intro _) | split

theorem State.tuneCluster_only {n : Nat} {f : Cluster → Cluster} (ho : Only pts s0 s) (hin : Within [.clusters] pts) :
    Only pts s0 (State.tuneCluster s n f) := by
  refine ho.trans (Only.mono ?_ hin)
  clear ho hin
  have hk := Only.refl [.clusters] s
  unfold State.tuneCluster
  try dsimp only
  with_reducible repeat' first
    | exact hk | apply Only.getD | assumption | (intro _) | split | exact Or.inl rfl | exact Or.inr (by decide) | apply Only.upd

theorem State.retireCluster_only {n : Nat} (ho : Only pts s0 s)
    (hin : Within [.blocks, .fes, .host, .mem, .padBad, .past, .poison, .remote, .retiredClusters, .seq] pts) :
    Only pts s0 (State.retireCluster s n) := by
  refine ho.trans (Only.mono ?_ hin)
  clear ho hin
  have hk := Only.refl [.blocks, .fes, .host, .mem, .padBad, .past, .poison, .remote, .retiredClusters, .seq] s
  unfold State.retireCluster
  try dsimp only
  with_reducible repeat' first
    | exact hk | apply State.emitAll_only | apply State.haltBlock_only | apply State.readmit_only | exact .same | exact .inTrap
    | exact (by decide) | apply Only.foldl | apply Only.foldlPair | assumption | (intro _) | split | exact Or.inl rfl
    | exact Or.inr (by decide) | apply Only.upd

theorem State.ageCluster_only {r : AgeReading} (ho : Only pts s0 s)
    (hin : Within [.blocks, .clusters, .fes, .host, .mem, .padBad, .past, .poison, .remote, .retiredClusters, .seq] pts) :
    Only pts s0 (State.ageCluster s r) := by
  refine ho.trans (Only.mono ?_ hin)
  clear ho hin
  have hk := Only.refl [.blocks, .clusters, .fes, .host, .mem, .padBad, .past, .poison, .remote, .retiredClusters, .seq] s
  unfold State.ageCluster
  try dsimp only
  with_reducible repeat' first
    | exact hk | apply State.emitAll_only | apply State.retireCluster_only | apply State.tuneCluster_only | exact .same | exact .inTrap
    | exact (by decide) | assumption | (intro _) | split

theorem State.setRates_only {rate : Cluster → Nat} (ho : Only pts s0 s) (hin : Within [.clusters] pts) :
    Only pts s0 (State.setRates s rate) := by
  refine ho.trans (Only.mono ?_ hin)
  clear ho hin
  have hk := Only.refl [.clusters] s
  unfold State.setRates
  try dsimp only
  with_reducible repeat' first
    | exact hk | apply Only.getD | assumption | (intro _) | split | exact Or.inl rfl | exact Or.inr (by decide) | apply Only.upd

/-! ## Sampler -/

theorem State.dropSample_only {n : Nat} (ho : Only pts s0 s) (hin : Within [.samples] pts) :
    Only pts s0 (State.dropSample s n) := by
  refine ho.trans (Only.mono ?_ hin)
  clear ho hin
  have hk := Only.refl [.samples] s
  unfold State.dropSample
  try dsimp only
  with_reducible repeat' first | exact hk | assumption | (intro _) | split | exact Or.inl rfl | exact Or.inr (by decide) | apply Only.upd

theorem State.sampleFault_only {o : SampleOp} {c : Cause} {va : Nat} (ho : Only pts s0 s) (hin : Within trapParts pts) :
    Only pts s0 (State.sampleFault s o c va) := by
  refine ho.trans (Only.mono ?_ hin)
  clear ho hin
  have hk := Only.refl trapParts s
  unfold State.sampleFault
  try dsimp only
  with_reducible repeat' first | exact hk | apply State.asyncFault_only | exact .same

theorem State.sampleFaults_only {o : SampleOp} {bad : List (Cause × Nat)} (ho : Only pts s0 s) (hin : Within trapParts pts) :
    Only pts s0 (State.sampleFaults s o bad) := by
  refine ho.trans (Only.mono ?_ hin)
  clear ho hin
  have hk := Only.refl trapParts s
  unfold State.sampleFaults
  try dsimp only
  with_reducible repeat' first
    | exact hk | apply State.sampleFault_only | exact .same | exact .inTrap | exact (by decide) | apply Only.foldl | apply Only.foldlPair
    | assumption | (intro _) | split

theorem State.holdSample_only {n : Nat} {o : SampleOp} {va : Nat} (ho : Only pts s0 s)
    (hin : Within [.cores, .fes, .host, .mem, .padBad, .past, .poison, .remote, .samples, .seq] pts) :
    Only pts s0 (State.holdSample s n o va) := by
  refine ho.trans (Only.mono ?_ hin)
  clear ho hin
  have hk := Only.refl [.cores, .fes, .host, .mem, .padBad, .past, .poison, .remote, .samples, .seq] s
  unfold State.holdSample
  try dsimp only
  with_reducible repeat' first
    | exact hk | apply State.refault_only | exact .same | exact .inTrap | exact (by decide) | assumption | (intro _) | split
    | exact Or.inl rfl | exact Or.inr (by decide) | apply Only.upd

theorem State.dropService_only {n : Nat} (ho : Only pts s0 s) (hin : Within [.services] pts) :
    Only pts s0 (State.dropService s n) := by
  refine ho.trans (Only.mono ?_ hin)
  clear ho hin
  have hk := Only.refl [.services] s
  unfold State.dropService
  try dsimp only
  with_reducible repeat' first | exact hk | assumption | (intro _) | split | exact Or.inl rfl | exact Or.inr (by decide) | apply Only.upd

theorem State.served_only {n : Nat} {o : ServiceOp} (ho : Only pts s0 s) (hin : Within [.services, .strands] pts) :
    Only pts s0 (State.served s n o) := by
  refine ho.trans (Only.mono ?_ hin)
  clear ho hin
  have hk := Only.refl [.services, .strands] s
  unfold State.served
  try dsimp only
  with_reducible repeat' first
    | exact hk | apply State.dropService_only | apply State.modStrand_only | exact .same | exact .inTrap | exact (by decide)

theorem State.serviceTrap_only {n : Nat} {o : ServiceOp} {c : Cause} (ho : Only pts s0 s) (hin : Within trapParts pts) :
    Only pts s0 (State.serviceTrap s n o c) := by
  refine ho.trans (Only.mono ?_ hin)
  clear ho hin
  have hk := Only.refl trapParts s
  unfold State.serviceTrap
  try dsimp only
  with_reducible repeat' first
    | exact hk | apply State.dropService_only | apply State.trapWaiting_only | exact .same | exact .inTrap | exact (by decide)

theorem State.holdService_only {n : Nat} {o : ServiceOp} {va kind : Nat} (ho : Only pts s0 s)
    (hin : Within [.cores, .fes, .host, .mem, .padBad, .past, .poison, .remote, .seq, .services, .strands] pts) :
    Only pts s0 (State.holdService s n o va kind) := by
  refine ho.trans (Only.mono ?_ hin)
  clear ho hin
  have hk := Only.refl [.cores, .fes, .host, .mem, .padBad, .past, .poison, .remote, .seq, .services, .strands] s
  unfold State.holdService
  try dsimp only
  with_reducible repeat' first
    | exact hk | apply State.refault_only | apply State.modStrand_only | exact .same | exact .inTrap | exact (by decide) | assumption
    | (intro _) | split | exact Or.inl rfl | exact Or.inr (by decide) | apply Only.upd

theorem State.serviceRan_only {o : ServiceOp} {r : Ran} (ho : Only pts s0 s) (hin : Within (.uid :: trapParts) pts) :
    Only pts s0 (State.serviceRan s o r) := by
  refine ho.trans (Only.mono ?_ hin)
  clear ho hin
  have hk := Only.refl (.uid :: trapParts) s
  unfold State.serviceRan
  try dsimp only
  with_reducible repeat' first | exact hk | apply State.modStrand_only | exact .same | exact .inTrap | exact (by decide)

theorem State.serviceFault_only {n : Nat} {o : ServiceOp} {c : Cause} {va : Nat} (ho : Only pts s0 s) (hin : Within trapParts pts) :
    Only pts s0 (State.serviceFault s n o c va) := by
  refine ho.trans (Only.mono ?_ hin)
  clear ho hin
  have hk := Only.refl trapParts s
  unfold State.serviceFault
  try dsimp only
  with_reducible repeat' first
    | exact hk | apply State.asyncFault_only | apply State.served_only | exact .same | exact .inTrap | exact (by decide)

theorem State.bindAt_only {fe point : Nat} {f : Table Nat (BitVec 512) → Table Nat (BitVec 512)} (ho : Only pts s0 s)
    (hin : Within [.fes] pts) :
    Only pts s0 (State.bindAt s fe point f) := by
  refine ho.trans (Only.mono ?_ hin)
  clear ho hin
  have hk := Only.refl [.fes] s
  unfold State.bindAt
  try dsimp only
  with_reducible repeat' first | exact hk | apply State.modFe_only | exact .same

/-! ## System -/

theorem State.setSb_only {r : StrandRef} {on : Bool} (ho : Only pts s0 s) (hin : Within [.blocks, .strands] pts) :
    Only pts s0 (State.setSb s r on) := by
  refine ho.trans (Only.mono ?_ hin)
  clear ho hin
  have hk := Only.refl [.blocks, .strands] s
  unfold State.setSb
  try dsimp only
  with_reducible repeat' first
    | exact hk | apply State.modBlock_only | apply State.stopOthers_only | exact .same | exact .inTrap | exact (by decide)

theorem State.crWrite_only {r t : StrandRef} {i : Nat} {v : Dword} (ho : Only pts s0 s) (hin : Within [.blocks, .strands] pts) :
    Only pts s0 (State.crWrite s r t i v) := by
  refine ho.trans (Only.mono ?_ hin)
  clear ho hin
  have hk := Only.refl [.blocks, .strands] s
  unfold State.crWrite
  try dsimp only
  with_reducible repeat' first
    | exact hk | apply State.modStrand_only | apply State.modBlock_only | apply State.setSb_only | exact .same | exact .inTrap
    | exact (by decide) | apply Only.getD | assumption | (intro _) | split

theorem Selector.write_only {x : Selector} {r t : StrandRef} {k : Strand} {b : Block} {la : Launch} {w : Word} (ho : Only pts s0 s)
    (hin : Within [.blocks, .cores, .strands] pts) {out : State} (e : Selector.write x s r t k b la w = some out) :
    Only pts s0 out := by
  refine ho.trans (Only.mono ?_ hin)
  clear ho hin
  have hk := Only.refl [.blocks, .cores, .strands] s
  unfold Selector.write at e
  split at e
  · split at e
    · split at e
      · cases e
      · cases e
        exact State.crWrite_only hk (by decide)
    · cases e
  · split at e
    · cases e
      exact State.writeH_only hk (by decide)
    · cases e
  · cases hx : x.put k la w with
    | none => simp [hx] at e
    | some k' =>
      simp only [hx, Option.map_some, Option.some.injEq] at e
      exact e ▸ State.setStrand_only hk (by decide)

theorem State.dropLines_only {fe a n : Nat} (ho : Only pts s0 s) (hin : Within [.cores] pts) :
    Only pts s0 (State.dropLines s fe a n) := by
  refine ho.trans (Only.mono ?_ hin)
  clear ho hin
  have hk := Only.refl [.cores] s
  unfold State.dropLines
  try dsimp only
  with_reducible repeat' first | exact hk | assumption | (intro _) | split | exact Or.inl rfl | exact Or.inr (by decide) | apply Only.upd

/-! ## Tables -/

theorem State.setTde_only {fe tid : Nat} {e : BitVec 512} (ho : Only pts s0 s) (hin : Within [.fes] pts) :
    Only pts s0 (State.setTde s fe tid e) := by
  refine ho.trans (Only.mono ?_ hin)
  clear ho hin
  have hk := Only.refl [.fes] s
  unfold State.setTde
  try dsimp only
  with_reducible repeat' first | exact hk | apply State.modFe_only | exact .same

theorem State.serviceWrote_only {n : Nat} {o : ServiceOp} (ho : Only pts s0 s) (hin : Within [.services, .strands] pts) :
    Only pts s0 (State.serviceWrote s n o) := by
  refine ho.trans (Only.mono ?_ hin)
  clear ho hin
  have hk := Only.refl [.services, .strands] s
  unfold State.serviceWrote
  try dsimp only
  with_reducible repeat' first
    | exact hk | apply State.modStrand_only | apply State.served_only | exact .same | exact .inTrap | exact (by decide)

theorem State.bufferFrom_only {w : CommitBy} {busy : Bool} {es : List Buffered} {n : Nat} {s : State} (ho : Only pts s0 s)
    (hin : Within trapParts pts) : Only pts s0 (s.bufferFrom w busy es n).1 := by
  induction es generalizing s n with
  | nil => exact ho
  | cons e es ih =>
    have hb : ∀ {t : State}, Only pts s0 t → Only pts s0 (t.bufferEntry w.strand.blk e) := fun h =>
      State.bufferEntry_only h (Within.trans (by decide) hin)
    unfold State.bufferFrom
    split
    · exact ho
    · split
      · exact ih (hb ho)
      · split
        · exact ho
        · try dsimp only
          have h1 := State.forceCommit_only (w := w) (b := ‹Block›) ho hin
          split
          · exact h1
          · split
            · exact h1
            · apply ih
              split
              · exact State.commit_only (hb h1) hin
              · exact hb h1

theorem State.serviceWrite_only {n : Nat} {o : ServiceOp} {va : Nat} {bs : List Byte} (ho : Only pts s0 s) (hin : Within
    (.uid :: trapParts) pts) :
    Only pts s0 (State.serviceWrite s n o va bs) := by
  refine ho.trans (Only.mono ?_ hin)
  clear ho hin
  have hk := Only.refl (.uid :: trapParts) s
  unfold State.serviceWrite
  extract_lets contained
  split
  · split
    · exact hk
    · have h := State.bufferFrom_only (w := ⟨o.strand, o.pc, o.mask, o.region, 4⟩) (busy := false) (es := [.store va bs]) (n := 0) hk
        (by decide)
      split <;> rename_i he <;> rw [he] at h
      · exact State.served_only h (by decide)
      · exact h
  · split
    · exact State.holdService_only hk (by decide)
    · exact State.serviceFault_only hk (by decide)
    · exact State.serviceWrote_only (State.traffic_only (State.countMem_only (State.writePage_only hk (by decide)) (by decide))
        (by decide)) (by decide)

/-! ## Issue -/

theorem State.holdFetch_only {r : StrandRef} {k : Strand} {b : Block} {la : Launch} (ho : Only pts s0 s)
    (hin : Within [.cores, .fes, .host, .mem, .padBad, .past, .poison, .remote, .seq, .strands] pts) :
    Only pts s0 (State.holdFetch s r k b la) := by
  refine ho.trans (Only.mono ?_ hin)
  clear ho hin
  have hk := Only.refl [.cores, .fes, .host, .mem, .padBad, .past, .poison, .remote, .seq, .strands] s
  unfold State.holdFetch
  try dsimp only
  with_reducible repeat' first
    | exact hk | apply State.refault_only | apply State.setStrand_only | exact .same | exact .inTrap | exact (by decide)

theorem State.lapse_only {r : StrandRef} (ho : Only pts s0 s)
    (hin : Within [.fes, .host, .mem, .padBad, .past, .poison, .remote, .seq, .strands] pts) :
    Only pts s0 (State.lapse s r) := by
  refine ho.trans (Only.mono ?_ hin)
  clear ho hin
  have hk := Only.refl [.fes, .host, .mem, .padBad, .past, .poison, .remote, .seq, .strands] s
  unfold State.lapse
  try dsimp only
  with_reducible repeat' first
    | exact hk | apply State.expire_only | apply State.wakeSlept_only | exact .same | exact .inTrap | exact (by decide)

theorem State.unstalled_only {r : StrandRef} (ho : Only pts s0 s) (hin : Within [.fresh, .strands] pts) :
    Only pts s0 (State.unstalled s r) := by
  refine ho.trans (Only.mono ?_ hin)
  clear ho hin
  have hk := Only.refl [.fresh, .strands] s
  unfold State.unstalled
  try dsimp only
  with_reducible repeat' first
    | exact hk | apply State.modStrand_only | exact .same | exact .inTrap | exact (by decide) | assumption | (intro _) | split
    | exact Or.inl rfl | exact Or.inr (by decide) | apply Only.upd

theorem State.tookLane_only {x : Act} {old : Lane} (ho : Only pts s0 s) (hin : Within [.lanes, .strands] pts) :
    Only pts s0 (State.tookLane s x old) := by
  refine ho.trans (Only.mono ?_ hin)
  clear ho hin
  have hk := Only.refl [.lanes, .strands] s
  unfold State.tookLane
  try dsimp only
  with_reducible repeat' first
    | exact hk | apply State.passOver_only | exact .same | exact .inTrap | exact (by decide) | apply Only.getD | assumption | (intro _)
    | split | exact Or.inl rfl | exact Or.inr (by decide) | apply Only.upd

theorem State.observe_only  (ho : Only pts s0 s) (hin : Within [.strands] pts) :
    Only pts s0 (State.observe s) := by
  refine ho.trans (Only.mono ?_ hin)
  clear ho hin
  have hk := Only.refl [.strands] s
  unfold State.observe
  try dsimp only
  with_reducible repeat' first
    | exact hk | apply State.modStrand_only | exact .same | exact .inTrap | exact (by decide) | apply Only.foldl | apply Only.foldlPair
    | assumption | (intro _)

/-! ## Ecc -/

theorem State.upsetReg_only {r : StrandRef} {l : Loc} {t : Nat} (ho : Only pts s0 s) (hin : Within [.strands] pts) :
    Only pts s0 (State.upsetReg s r l t) := by
  refine ho.trans (Only.mono ?_ hin)
  clear ho hin
  have hk := Only.refl [.strands] s
  unfold State.upsetReg
  try dsimp only
  with_reducible repeat' first
    | exact hk | apply State.modStrand_only | exact .same | exact .inTrap | exact (by decide) | assumption | (intro _) | split

theorem State.upsetMask_only {r : StrandRef} {m t : Nat} (ho : Only pts s0 s) (hin : Within [.strands] pts) :
    Only pts s0 (State.upsetMask s r m t) := by
  refine ho.trans (Only.mono ?_ hin)
  clear ho hin
  have hk := Only.refl [.strands] s
  unfold State.upsetMask
  try dsimp only
  with_reducible repeat' first | exact hk | apply State.modStrand_only | exact .same

theorem State.tellCore_only {core : Nat} {c : Cause} (ho : Only pts s0 s) (hin : Within recordParts pts) :
    Only pts s0 (State.tellCore s core c) := by
  refine ho.trans (Only.mono ?_ hin)
  clear ho hin
  have hk := Only.refl recordParts s
  unfold State.tellCore
  try dsimp only
  with_reducible repeat' first
    | exact hk | apply State.emit_only | exact .same | exact .inTrap | exact (by decide) | assumption | (intro _) | split

theorem State.corrected_only {kind unit : Nat} (ho : Only pts s0 s) (hin : Within recordParts pts) :
    Only pts s0 (State.corrected s kind unit) := by
  refine ho.trans (Only.mono ?_ hin)
  clear ho hin
  have hk := Only.refl recordParts s
  unfold State.corrected
  try dsimp only
  with_reducible repeat' first
    | exact hk | apply State.emit_only | apply State.tellCore_only | exact .same | exact .inTrap | exact (by decide) | apply Only.foldl
    | apply Only.foldlPair | assumption | (intro _) | split

theorem State.readCounter_only {fe i : Nat} (ho : Only pts s0 s) (hin : Within [.clusters, .fes, .hostRead] pts) :
    Only pts s0 (State.readCounter s fe i) := by
  refine ho.trans (Only.mono ?_ hin)
  clear ho hin
  have hk := Only.refl [.clusters, .fes, .hostRead] s
  unfold State.readCounter
  try dsimp only
  with_reducible repeat' first
    | exact hk | apply State.credit_only | exact .same | exact .inTrap | exact (by decide) | assumption | (intro _) | split
    | exact Or.inl rfl | exact Or.inr (by decide) | apply Only.upd

/-! ## Step -/

theorem State.tock_only  (ho : Only pts s0 s) (hin : Within [.fresh] pts) :
    Only pts s0 (State.tock s) := by
  refine ho.trans (Only.mono ?_ hin)
  clear ho hin
  have hk := Only.refl [.fresh] s
  unfold State.tock
  try dsimp only
  with_reducible repeat' first | exact hk | assumption | (intro _) | split | exact Or.inl rfl | exact Or.inr (by decide) | apply Only.upd

end Sys2Proof.Machine
end

