-- ==== Sys2Proof/Laws/Keeps.lean ====
section
/-!
SUPPORT. What every operation on a device keeps: the form of Safety.lean's `State.Inv`, and device time, which never goes back.
-/
set_option Elab.async false
namespace Sys2Proof.Machine
open Sys2Proof.Fp (Flags JOut Rm Jet)

/-- From `s` to `t` the form of a safe run is kept and device time does not go back. -/
structure Keeps (s t : State) : Prop where
  inv  : s.Inv → t.Inv
  time : s.ns ≤ t.ns

/-- What `Keeps` says of the state, if any, in which a word's effect ends. -/
def Verdict.Keeps (s : State) : Verdict → Prop
  | .trap .. => True
  | .wait _ t | .done t | .doneThen t _ | .trapIn t .. | .over t => Machine.Keeps s t

/-- What `Keeps` says of a next state. -/
structure OutcomeKeeps (s : State) (o : Outcome) : Prop where
  keeps : ∀ t, o = .next t → Keeps s t

variable {s0 s : State}

theorem Verdict.keeps_trap {s : State} {c : Cause} {m : Word} {v : Dword} {d : Nat} : (Verdict.trap c m v d).Keeps s := trivial
theorem Verdict.keeps_done {s t : State} (h : Machine.Keeps s t) : (Verdict.done t).Keeps s := h
theorem Verdict.keeps_doneThen {s t : State} {a : After} (h : Machine.Keeps s t) : (Verdict.doneThen t a).Keeps s := h
theorem Verdict.keeps_wait {s t : State} {y : Stall} (h : Machine.Keeps s t) : (Verdict.wait y t).Keeps s := h
theorem Verdict.keeps_over {s t : State} (h : Machine.Keeps s t) : (Verdict.over t).Keeps s := h
theorem Verdict.keeps_trapIn {s t : State} {c : Cause} {m : Word} {v : Dword} (h : Machine.Keeps s t) : (Verdict.trapIn t c m v).Keeps s := h
theorem OutcomeKeeps.next {s t : State} (h : Keeps s t) : OutcomeKeeps s (.next t) := by
  refine ⟨fun u e => ?_⟩
  cases e
  exact h
theorem OutcomeKeeps.fault {s : State} {f : Fault} : OutcomeKeeps s (.fault f) := by
  refine ⟨fun u e => ?_⟩
  cases e

theorem Keeps.refl (s : State) : Keeps s s := ⟨id, Nat.le_refl _⟩

theorem Keeps.trans {s t u : State} (h : Keeps s t) (h' : Keeps t u) : Keeps s u := ⟨h'.inv ∘ h.inv, Nat.le_trans h.time h'.time⟩

/-- A state that differs in other fields than the three memories, the state of service with the trained units, and device time. -/
theorem Keeps.upd {s0 s : State} (h : Keeps s0 s)
    {beatNs : Nat}
    {ports : BitVec 18}
    {ethLinks : BitVec 16}
    {udpPort : BitVec 16}
    {flowControl : BitVec 16}
    {ecnMarking : BitVec 16}
    {retiredClusters : BitVec 32}
    {retiredChannels : BitVec 384}
    {powerLimit : Nat}
    {agedAt : Nat}
    {grant : Nat}
    {fatal : Bool}
    {mgmt : Cause}
    {hostRead : List Byte}
    {clusters : Table Nat Cluster}
    {cores : Table Nat Core}
    {fes : Table Nat FrontEnd}
    {lanes : Table Nat Lane}
    {strands : Table StrandRef Strand}
    {blocks : Table Nat Block}
    {launches : Table Nat Launch}
    {accs : Table Nat Access}
    {quorums : Table Nat QuorumOp}
    {echoes : Table Nat QuorumOp}
    {ops : Table Nat EngOp}
    {samples : Table Nat SampleOp}
    {services : Table Nat ServiceOp}
    {poison : List Nat}
    {padBad : List (Place × Nat)}
    {past : List Past}
    {seq : Nat}
    {sc : View}
    {tags : List CellTag}
    {turns : List Turn}
    {focus : Option StrandRef}
    {fresh : Nat}
    {uid : Nat} :
    Keeps s0 { s with
      beatNs
      ports
      ethLinks
      udpPort
      flowControl
      ecnMarking
      retiredClusters
      retiredChannels
      powerLimit
      agedAt
      grant
      fatal
      mgmt
      hostRead
      clusters
      cores
      fes
      lanes
      strands
      blocks
      launches
      accs
      quorums
      echoes
      ops
      samples
      services
      poison
      padBad
      past
      seq
      sc
      tags
      turns
      focus
      fresh
      uid } :=
  ⟨fun hi => ⟨(h.inv hi).mem, (h.inv hi).host, (h.inv hi).remote, (h.inv hi).signed, (h.inv hi).trained⟩, h.time⟩

theorem Keeps.withMem {s0 s : State} (h : Keeps s0 s) {m : Memory} (hm : Memory.wf s.mem = true → Memory.wf m = true) :
    Keeps s0 { s with mem := m } :=
  ⟨fun hi => ⟨hm (h.inv hi).mem, (h.inv hi).host, (h.inv hi).remote, (h.inv hi).signed, (h.inv hi).trained⟩, h.time⟩

theorem Keeps.withHost {s0 s : State} (h : Keeps s0 s) {m : Memory} (hm : Memory.wf s.host = true → Memory.wf m = true) :
    Keeps s0 { s with host := m } :=
  ⟨fun hi => ⟨(h.inv hi).mem, hm (h.inv hi).host, (h.inv hi).remote, (h.inv hi).signed, (h.inv hi).trained⟩, h.time⟩

theorem Keeps.withRemote {s0 s : State} (h : Keeps s0 s) {m : Memory} (hm : Memory.wf s.remote = true → Memory.wf m = true) :
    Keeps s0 { s with remote := m } :=
  ⟨fun hi => ⟨(h.inv hi).mem, (h.inv hi).host, hm (h.inv hi).remote, (h.inv hi).signed, (h.inv hi).trained⟩, h.time⟩

theorem Keeps.withTime {s0 s : State} (h : Keeps s0 s) {n : Nat} (hn : s.ns ≤ n) : Keeps s0 { s with ns := n } :=
  ⟨fun hi => ⟨(h.inv hi).mem, (h.inv hi).host, (h.inv hi).remote, (h.inv hi).signed, (h.inv hi).trained⟩, Nat.le_trans h.time hn⟩

theorem Keeps.foldl {s0 s : State} {f : State → α → State} {l : List α} (hf : ∀ s e, Keeps s0 s → Keeps s0 (f s e)) (h : Keeps s0 s) :
    Keeps s0 (l.foldl f s) := by
  induction l generalizing s with
  | nil => exact h
  | cons e l ih => exact ih (hf _ _ h)

/-- A fold that carries something beside the state. -/
theorem Keeps.foldlPair {s0 s : State} {f : State × β → α → State × β} {l : List α} {b : β}
    (hf : ∀ p e, Keeps s0 p.1 → Keeps s0 (f p e).1) (h : Keeps s0 s) : Keeps s0 (l.foldl f (s, b)).1 := by
  suffices ∀ p : State × β, Keeps s0 p.1 → Keeps s0 (l.foldl f p).1 from this _ h
  intro p hp
  induction l generalizing p with
  | nil => exact hp
  | cons e l ih => exact ih _ (hf _ _ hp)

theorem Keeps.getD {s0 s : State} {o : Option State} (ho : ∀ t, o = some t → Keeps s0 t) (h : Keeps s0 s) : Keeps s0 (o.getD s) := by
  cases o with
  | none => exact h
  | some t => exact ho t rfl

theorem setDirty_wf {m : Memory} {p : Page} (h : Memory.wf m = true) : Memory.wf (setDirty m p) = true := by
  unfold setDirty
  split
  · exact h
  · exact Cells.wf_set _ _ h

/-! ## Clock -/

theorem State.setFe_keeps {f : Nat} {x : FrontEnd} (hk : Keeps s0 s) :
    Keeps s0 (State.setFe s f x) := by
  unfold State.setFe
  try dsimp only
  with_reducible repeat' first | exact hk | assumption | (intro _) | split | apply Keeps.upd

theorem State.reachCycle_keeps {core cyc : Nat} (hk : Keeps s0 s) :
    Keeps s0 (State.reachCycle s core cyc) := by
  exact ⟨fun hi => ⟨(hk.inv hi).mem, (hk.inv hi).host, (hk.inv hi).remote, (hk.inv hi).signed, (hk.inv hi).trained⟩,
    Nat.le_trans hk.time (Nat.le_max_left ..)⟩

theorem State.modFe_keeps {f : Nat} {g : FrontEnd → FrontEnd} (hk : Keeps s0 s) :
    Keeps s0 (State.modFe s f g) := by
  unfold State.modFe
  try dsimp only
  with_reducible repeat' first | exact hk | apply State.setFe_keeps

theorem State.setCore_keeps {k : Nat} {x : Core} (hk : Keeps s0 s) :
    Keeps s0 (State.setCore s k x) := by
  unfold State.setCore
  try dsimp only
  with_reducible repeat' first | exact hk | assumption | (intro _) | split | apply Keeps.upd

theorem State.setStrand_keeps {r : StrandRef} {k : Strand} (hk : Keeps s0 s) :
    Keeps s0 (State.setStrand s r k) := by
  unfold State.setStrand
  try dsimp only
  with_reducible repeat' first | exact hk | assumption | (intro _) | split | apply Keeps.upd

theorem State.modStrand_keeps {r : StrandRef} {f : Strand → Strand} (hk : Keeps s0 s) :
    Keeps s0 (State.modStrand s r f) := by
  unfold State.modStrand
  try dsimp only
  with_reducible repeat' first | exact hk | assumption | (intro _) | split | apply Keeps.upd

theorem State.setBlock_keeps {b : Nat} {x : Block} (hk : Keeps s0 s) :
    Keeps s0 (State.setBlock s b x) := by
  unfold State.setBlock
  try dsimp only
  with_reducible repeat' first | exact hk | assumption | (intro _) | split | apply Keeps.upd

theorem State.modBlock_keeps {b : Nat} {f : Block → Block} (hk : Keeps s0 s) :
    Keeps s0 (State.modBlock s b f) := by
  unfold State.modBlock
  try dsimp only
  with_reducible repeat' first | exact hk | assumption | (intro _) | split | apply Keeps.upd

theorem State.setLaunch_keeps {l : Nat} {x : Launch} (hk : Keeps s0 s) :
    Keeps s0 (State.setLaunch s l x) := by
  unfold State.setLaunch
  try dsimp only
  with_reducible repeat' first | exact hk | assumption | (intro _) | split | apply Keeps.upd

theorem State.modLaunch_keeps {l : Nat} {f : Launch → Launch} (hk : Keeps s0 s) :
    Keeps s0 (State.modLaunch s l f) := by
  unfold State.modLaunch
  try dsimp only
  with_reducible repeat' first | exact hk | assumption | (intro _) | split | apply Keeps.upd

theorem State.draw_keeps  (hk : Keeps s0 s) :
    Keeps s0 (State.draw s).2 := by
  unfold State.draw
  try dsimp only
  with_reducible repeat' first | exact hk | assumption | (intro _) | split | apply Keeps.upd

theorem State.name_keeps  (hk : Keeps s0 s) :
    Keeps s0 (State.name s).2 := by
  unfold State.name
  try dsimp only
  with_reducible repeat' first | exact hk | assumption | (intro _) | split | apply Keeps.upd

/-! ## Order -/

theorem State.setMem_keeps {pl : Place} {m : Memory} (hk : Keeps s0 s) (hm : Memory.wf (s.memAt pl) = true → Memory.wf m = true) :
    Keeps s0 (State.setMem s pl m) := by
  unfold State.setMem
  split
  · exact hk.withMem hm
  · exact hk.withHost hm
  · exact hk.withRemote hm
  · exact State.modBlock_keeps hk
  · exact State.modLaunch_keeps hk
  · exact State.modLaunch_keeps hk

theorem State.write_keeps {pl : Place} {a : Nat} {bs : List Byte} {w : Author} {sel : Nat → Bool} (hk : Keeps s0 s) :
    Keeps s0 (State.write s pl a bs w sel) := by
  unfold State.write
  exact (State.setMem_keeps hk (Memory.wf_put _ _)).upd

theorem State.fenceSc_keeps {r : StrandRef} {m : Word} (hk : Keeps s0 s) :
    Keeps s0 (State.fenceSc s r m) := by
  unfold State.fenceSc
  try dsimp only
  with_reducible repeat' first
    | exact hk | apply State.setStrand_keeps | apply Keeps.foldl | apply Keeps.foldlPair | assumption | (intro _) | split | apply Keeps.upd

/-! ## Translate -/

theorem State.flushTlb_keeps {fe : Nat} (hk : Keeps s0 s) :
    Keeps s0 (State.flushTlb s fe) := by
  unfold State.flushTlb
  try dsimp only
  with_reducible repeat' first | exact hk | apply State.modFe_keeps

theorem State.writePage_keeps {f : FrontEnd} {p : Page} {bs : List Byte} {w : Author} {sel : Nat → Bool} (hk : Keeps s0 s) :
    Keeps s0 (State.writePage s f p bs w sel) := by
  unfold State.writePage
  exact State.write_keeps (hk.withMem setDirty_wf)

/-! ## Stalls -/

theorem State.noteStalls_keeps {core : Nat} {reset : Option Nat} (hk : Keeps s0 s) :
    Keeps s0 (State.noteStalls s core reset) := by
  unfold State.noteStalls
  try dsimp only
  with_reducible repeat' first | exact hk | assumption | (intro _) | split | apply Keeps.upd

/-! ## Report -/

theorem State.writeVa_keeps {fe va : Nat} {bs : List Byte} {w : Author} (hk : Keeps s0 s) {out : State}
    (e : State.writeVa s fe va bs w = some out) :
    Keeps s0 out := by
  unfold State.writeVa at e
  try dsimp only at e
  with_reducible repeat' first | split at e | cases e | exact hk | apply State.writePage_keeps

theorem State.count_keeps {fe i n : Nat} (hk : Keeps s0 s) :
    Keeps s0 (State.count s fe i n) := by
  unfold State.count
  try dsimp only
  with_reducible repeat' first | exact hk | apply State.modFe_keeps

theorem State.traffic_keeps {fe : Nat} {p : Page} (hk : Keeps s0 s) :
    Keeps s0 (State.traffic s fe p) := by
  unfold State.traffic
  try dsimp only
  with_reducible repeat' first | exact hk | apply State.count_keeps | assumption | (intro _) | split

theorem State.countMem_keeps {fe i n : Nat} {p : Page} (hk : Keeps s0 s) :
    Keeps s0 (State.countMem s fe i n p) := by
  unfold State.countMem
  try dsimp only
  with_reducible repeat' first | exact hk | apply State.count_keeps | assumption | (intro _) | split

theorem State.countCycles_keeps {cl : Nat} (hk : Keeps s0 s) :
    Keeps s0 (State.countCycles s cl) := by
  unfold State.countCycles
  try dsimp only
  with_reducible repeat' first | exact hk | apply State.count_keeps | apply Keeps.getD | assumption | (intro _) | split | apply Keeps.upd

theorem State.credit_keeps  (hk : Keeps s0 s) :
    Keeps s0 (State.credit s) := by
  unfold State.credit
  try dsimp only
  with_reducible repeat' first | exact hk | apply State.countCycles_keeps | apply Keeps.foldl

theorem State.append_keeps {fe base : Nat} {rec : List Byte} (hk : Keeps s0 s) :
    Keeps s0 (State.append s fe base rec) := by
  unfold State.append
  try dsimp only
  with_reducible repeat' first
    | exact hk | apply State.count_keeps | (refine State.writeVa_keeps ?_ (by assumption)) | apply Keeps.getD | assumption | (intro _)
    | split

theorem State.emit_keeps {fe lid : Nat} {code : Cause} {src : Src} {unit : Nat} {pay : List Byte} {sub : Nat} (hk : Keeps s0 s) :
    Keeps s0 (State.emit s fe lid code src unit pay sub) := by
  unfold State.emit
  try dsimp only
  with_reducible repeat' first | exact hk | apply State.append_keeps

theorem State.emitAll_keeps {code : Cause} {src : Src} {unit : Nat} {pay : List Byte} (hk : Keeps s0 s) :
    Keeps s0 (State.emitAll s code src unit pay) := by
  unfold State.emitAll
  try dsimp only
  with_reducible repeat' first
    | exact hk | apply State.emit_keeps | apply Keeps.foldl | apply Keeps.foldlPair | assumption | (intro _) | split

theorem State.writeStatus_keeps {fe : Nat} (hk : Keeps s0 s) :
    Keeps s0 (State.writeStatus s fe) := by
  unfold State.writeStatus
  try dsimp only
  split
  · exact hk
  · exact State.write_keeps hk

theorem State.completeCmd_keeps {fe i : Nat} {c : Cmd} {cause : Cause} (hk : Keeps s0 s) :
    Keeps s0 (State.completeCmd s fe i c cause) := by
  unfold State.completeCmd
  try dsimp only
  with_reducible repeat' first
    | exact hk | apply State.modFe_keeps | apply State.writeStatus_keeps | (refine State.writeVa_keeps ?_ (by assumption))
    | apply Keeps.getD | assumption | (intro _) | split

theorem State.dropStrands_keeps {b : Nat} (hk : Keeps s0 s) :
    Keeps s0 (State.dropStrands s b) := by
  unfold State.dropStrands
  try dsimp only
  with_reducible repeat' first | exact hk | assumption | (intro _) | split | apply Keeps.upd

theorem State.landUnit_keeps {o : EngOp} {w : Nat × List Byte × List Byte} (hk : Keeps s0 s) :
    Keeps s0 (State.landUnit s o w) := by
  unfold State.landUnit
  try dsimp only
  with_reducible repeat' first
    | exact hk | apply State.writePage_keeps | apply State.countMem_keeps | apply State.traffic_keeps | apply Keeps.getD | assumption
    | (intro _) | split

theorem State.endLines_keeps {o : EngOp} (hk : Keeps s0 s) :
    Keeps s0 (State.endLines s o) := by
  unfold State.endLines
  try dsimp only
  with_reducible repeat' first
    | exact hk | apply State.landUnit_keeps | apply Keeps.foldl | apply Keeps.foldlPair | assumption | (intro _) | split

theorem State.killBlock_keeps {b : Nat} (hk : Keeps s0 s) :
    Keeps s0 (State.killBlock s b) := by
  unfold State.killBlock
  try dsimp only
  with_reducible repeat' first
    | exact hk | apply State.endLines_keeps | apply State.dropStrands_keeps | apply State.noteStalls_keeps | apply Keeps.foldl
    | apply Keeps.foldlPair | apply Keeps.getD | assumption | (intro _) | split | apply Keeps.upd

theorem State.abandonShadow_keeps {blk : Nat} (hk : Keeps s0 s) :
    Keeps s0 (State.abandonShadow s blk) := by
  unfold State.abandonShadow
  try dsimp only
  with_reducible repeat' first
    | exact hk | apply State.modBlock_keeps | apply State.killBlock_keeps | apply State.emit_keeps | apply Keeps.getD | assumption
    | (intro _) | split

theorem State.failLaunch_keeps {l : Nat} {c : Cause} {sub : Nat} {pay : List Byte} (hk : Keeps s0 s) :
    Keeps s0 (State.failLaunch s l c sub pay) := by
  unfold State.failLaunch
  try dsimp only
  with_reducible repeat' first
    | exact hk | apply State.setLaunch_keeps | apply State.killBlock_keeps | apply State.emit_keeps | apply Keeps.foldl
    | apply Keeps.foldlPair | assumption | (intro _) | split

/-! ## Lanes -/

theorem State.passOver_keeps {view : List LaneStrand} {x : StrandRef} {t last : Nat} (hk : Keeps s0 s) :
    Keeps s0 (State.passOver s view x t last) := by
  unfold State.passOver
  try dsimp only
  with_reducible repeat' first
    | exact hk | apply State.modStrand_keeps | apply Keeps.foldl | apply Keeps.foldlPair | assumption | (intro _) | split

/-! ## Recovery -/

theorem State.requeue_keeps {blk : Nat} (hk : Keeps s0 s) :
    Keeps s0 (State.requeue s blk) := by
  unfold State.requeue
  try dsimp only
  with_reducible repeat' first | exact hk | apply State.killBlock_keeps | apply State.modLaunch_keeps | assumption | (intro _) | split

theorem State.abandonPair_keeps {blk : Nat} (hk : Keeps s0 s) :
    Keeps s0 (State.abandonPair s blk) := by
  unfold State.abandonPair
  try dsimp only
  with_reducible repeat' first | exact hk | apply State.abandonShadow_keeps | assumption | (intro _) | split

theorem State.relaunch_keeps {blk : Nat} (hk : Keeps s0 s) :
    Keeps s0 (State.relaunch s blk) := by
  unfold State.relaunch
  try dsimp only
  with_reducible repeat' first
    | exact hk | apply State.failLaunch_keeps | apply State.abandonPair_keeps | apply State.modLaunch_keeps | apply State.requeue_keeps
    | apply State.emit_keeps | apply Keeps.getD | assumption | (intro _) | split

theorem State.consume_keeps {blk : Nat} {cause : Cause} (hk : Keeps s0 s) {out : State} (e : State.consume s blk cause = some out) :
    Keeps s0 out := by
  unfold State.consume at e
  try dsimp only at e
  with_reducible repeat' first
    | split at e | cases e | exact hk | apply State.abandonShadow_keeps | apply State.relaunch_keeps | apply State.failLaunch_keeps

theorem State.blockFails_keeps {blk : Nat} {b : Block} {c : Cause} {sub : Nat} (hk : Keeps s0 s) :
    Keeps s0 (State.blockFails s blk b c sub) := by
  unfold State.blockFails
  try dsimp only
  with_reducible repeat' first | exact hk | apply State.abandonShadow_keeps | apply State.failLaunch_keeps | assumption | (intro _) | split

theorem State.unheard_keeps {blk : Nat} {b : Block} {f : HeldFault} (hk : Keeps s0 s) :
    Keeps s0 (State.unheard s blk b f) := by
  unfold State.unheard
  try dsimp only
  with_reducible repeat' first | exact hk | apply State.blockFails_keeps

theorem State.asyncFault_keeps {r : StrandRef} {f : HeldFault} (hk : Keeps s0 s) :
    Keeps s0 (State.asyncFault s r f) := by
  unfold State.asyncFault
  try dsimp only
  with_reducible repeat' first
    | exact hk | apply State.unheard_keeps | apply State.setStrand_keeps | apply State.failLaunch_keeps
    | (refine State.consume_keeps ?_ (by assumption)) | assumption | (intro _) | split

/-! ## Ops -/

theorem State.stopOthers_keeps {r : StrandRef} {on : Bool} (hk : Keeps s0 s) :
    Keeps s0 (State.stopOthers s r on) := by
  unfold State.stopOthers
  try dsimp only
  with_reducible repeat' first | exact hk | assumption | (intro _) | split | apply Keeps.upd

theorem State.enterPriv_keeps {r : StrandRef} {p : Report} (hk : Keeps s0 s) :
    Keeps s0 (State.enterPriv s r p) := by
  unfold State.enterPriv
  try dsimp only
  with_reducible repeat' first
    | exact hk | apply State.abandonShadow_keeps | apply State.failLaunch_keeps | apply State.count_keeps | apply State.setStrand_keeps
    | apply State.stopOthers_keeps | apply Keeps.getD | assumption | (intro _) | split

theorem State.enterUser_keeps {r : StrandRef} {cause : Cause} {code : Nat} {resume fpc : Dword} (hk : Keeps s0 s) :
    Keeps s0 (State.enterUser s r cause code resume fpc) := by
  unfold State.enterUser
  try dsimp only
  with_reducible repeat' first
    | exact hk | apply State.abandonShadow_keeps | apply State.enterPriv_keeps | apply State.count_keeps | apply State.setStrand_keeps
    | apply Keeps.getD | assumption | (intro _) | split

theorem Ctx.trapAll_keeps {c : Ctx} {cause : Cause} {va : Dword} (hk : Keeps s0 c.s) :
    (Ctx.trapAll c cause va).Keeps s0 := by
  unfold Ctx.trapAll
  try dsimp only
  repeat' first
    | with_reducible exact hk | exact trivial | with_reducible apply Verdict.keeps_done | with_reducible apply Verdict.keeps_doneThen
    | with_reducible apply Verdict.keeps_wait | with_reducible apply Verdict.keeps_over | with_reducible apply Verdict.keeps_trapIn
    | with_reducible assumption

theorem Ctx.misaligned_keeps {c : Ctx} {tgt : Dword} (hk : Keeps s0 c.s) :
    (Ctx.misaligned c tgt).Keeps s0 := by
  unfold Ctx.misaligned
  try dsimp only
  with_reducible repeat' first
    | exact hk | exact trivial | apply Verdict.keeps_done | apply Verdict.keeps_doneThen | apply Verdict.keeps_wait
    | apply Verdict.keeps_over | apply Verdict.keeps_trapIn | assumption | (intro _) | exact Verdict.keeps_trap

theorem State.stall_keeps {r : StrandRef} {why : Stall} (hk : Keeps s0 s) :
    Keeps s0 (State.stall s r why) := by
  unfold State.stall
  try dsimp only
  with_reducible repeat' first | exact hk | apply State.modStrand_keeps

theorem Ctx.finish_keeps {c : Ctx} {i : Instr} {sp : Spec} (hk : Keeps s0 s) :
    Keeps s0 (Ctx.finish c i sp s) := by
  unfold Ctx.finish
  try dsimp only
  with_reducible repeat' first
    | exact hk | apply State.modStrand_keeps | apply State.reachCycle_keeps | apply State.count_keeps | apply Keeps.getD | assumption
    | (intro _) | split | apply Keeps.upd

theorem Ctx.trap_keeps {c : Ctx} {cause : Cause} {mask : Word} {va : Dword} {detail : Nat} (hk : Keeps s0 c.s) :
    Keeps s0 (Ctx.trap c cause mask va detail) := by
  unfold Ctx.trap
  try dsimp only
  with_reducible repeat' first | exact hk | apply State.enterPriv_keeps

theorem Ctx.eccReg_keeps {c : Ctx} {es : List (Loc × Nat)} (hk : Keeps s0 c.s) :
    Keeps s0 (Ctx.eccReg c es) := by
  unfold Ctx.eccReg
  try dsimp only
  with_reducible repeat' first | exact hk | apply State.setStrand_keeps | apply State.asyncFault_keeps

theorem Ctx.follow_keeps {c : Ctx} {a : After} (hk : Keeps s0 s) :
    Keeps s0 (Ctx.follow c s a) := by
  unfold Ctx.follow
  try dsimp only
  with_reducible repeat' first
    | exact hk | apply Ctx.trap_keeps | apply State.enterPriv_keeps | apply State.enterUser_keeps | apply Keeps.getD | assumption
    | (intro _) | split

theorem Ctx.begin_keeps {c : Ctx} {sp : Spec} {start : Nat} (hk : Keeps s0 c.s) : Keeps s0 (c.begin sp start).s := by
  unfold Ctx.begin
  try dsimp only
  split
  · exact hk
  · exact hk.upd

theorem word_keeps {i : Instr} {spec : Ctx → Spec} {eff : Ctx → Verdict} (hk : Keeps s0 s) (heff : ∀ a0, Keeps s0 a0.s →
    (eff a0).Keeps s0) :
    OutcomeKeeps s0 (word i s spec eff) := by
  unfold word
  split
  · exact .fault
  · next c0 hc =>
    extract_lets sp c1 start c
    have h1 : Keeps s0 c1.s := (State.ctx?_eq hc).2.2.2.2.1 ▸ hk
    have h2 : Keeps s0 c.s := by
      unfold c
      split
      · exact h1
      · exact Ctx.begin_keeps h1
    clear_value c
    split
    · exact .next (Ctx.trap_keeps h2)
    · split
      · exact .next (State.abandonShadow_keeps hk)
      · split
        · exact .next (State.stall_keeps hk)
        · split
          · exact .next (Ctx.eccReg_keeps h2)
          · split
            · exact .next (State.emit_keeps (Ctx.trap_keeps h2))
            · split
              · exact .next (Ctx.trap_keeps h1)
              · have h3 := heff c h2
                split <;> rename_i he <;> rw [he] at h3
                · exact .next (Ctx.trap_keeps h2)
                · exact .next (State.stall_keeps h3)
                · exact .next (Ctx.finish_keeps h3)
                · exact .next (Ctx.follow_keeps (Ctx.finish_keeps h3))
                · exact .next h3
                · exact .next (Ctx.trap_keeps h3)

/-! ## Operands -/

theorem Ctx.deliver_keeps {c : Ctx} {u : Bool} {os : List (Nat × Out)} (hk : Keeps s0 c.s) :
    (Ctx.deliver c u os).Keeps s0 := by
  unfold Ctx.deliver
  try dsimp only
  repeat' first
    | with_reducible exact hk | exact trivial | with_reducible apply Verdict.keeps_done | with_reducible apply Verdict.keeps_doneThen
    | with_reducible apply Verdict.keeps_wait | with_reducible apply Verdict.keeps_over | with_reducible apply Verdict.keeps_trapIn
    | with_reducible apply Ctx.trap_keeps | with_reducible apply State.setStrand_keeps | with_reducible apply Keeps.foldl
    | with_reducible apply Keeps.foldlPair | with_reducible assumption | (intro _) | split

theorem alu_keeps {i : Instr} {h : Hdr} {g : Ctx → Shape} {f : Ctx → Nat → Out} (hk : Keeps s0 s) :
    OutcomeKeeps s0 (alu i s h g f) := by
  unfold alu
  try dsimp only
  with_reducible repeat' first
    | exact hk | exact trivial | apply Verdict.keeps_done | apply Verdict.keeps_doneThen | apply Verdict.keeps_wait
    | apply Verdict.keeps_over | apply Verdict.keeps_trapIn | apply OutcomeKeeps.next | apply OutcomeKeeps.fault | apply word_keeps
    | apply Ctx.deliver_keeps | assumption | (intro _)

theorem perStrand_keeps {i : Instr} {h : Hdr} {g : Ctx → Shape} {f : Ctx → Strand → Strand} (hk : Keeps s0 s) :
    OutcomeKeeps s0 (perStrand i s h g f) := by
  unfold perStrand
  try dsimp only
  with_reducible repeat' first
    | exact hk | exact trivial | apply Verdict.keeps_done | apply Verdict.keeps_doneThen | apply Verdict.keeps_wait
    | apply Verdict.keeps_over | apply Verdict.keeps_trapIn | apply OutcomeKeeps.next | apply OutcomeKeeps.fault | apply word_keeps
    | apply State.setStrand_keeps | assumption | (intro _) | split

/-! ## Access -/

theorem State.writeResult_keeps {r : StrandRef} {d : Option Dst} {ws : List Word} {fl : Flags} (hk : Keeps s0 s) :
    Keeps s0 (State.writeResult s r d ws fl) := by
  unfold State.writeResult
  try dsimp only
  with_reducible repeat' first | exact hk | apply State.modStrand_keeps | assumption | (intro _) | split

theorem State.reportAbsent_keeps {fe lid core va kind sid : Nat} (hk : Keeps s0 s) :
    Keeps s0 (State.reportAbsent s fe lid core va kind sid) := by
  unfold State.reportAbsent
  try dsimp only
  with_reducible repeat' first
    | exact hk | apply State.setCore_keeps | apply State.count_keeps | apply State.emit_keeps | apply State.modFe_keeps | assumption
    | (intro _) | split

theorem State.refault_keeps {h : Hold} {fe launch core va kind sid : Nat} (hk : Keeps s0 s) :
    Keeps s0 (State.refault s h fe launch core va kind sid) := by
  unfold State.refault
  try dsimp only
  with_reducible repeat' first | exact hk | apply State.reportAbsent_keeps | apply State.emit_keeps | assumption | (intro _) | split

theorem State.holdAccess_keeps {n : Nat} {a : Access} (hk : Keeps s0 s) :
    Keeps s0 (State.holdAccess s n a) := by
  unfold State.holdAccess
  try dsimp only
  with_reducible repeat' first | exact hk | apply State.refault_keeps | assumption | (intro _) | split | apply Keeps.upd

theorem State.cellEvents_keeps {a : Access} {pa : Nat} {old new : List Byte} (hk : Keeps s0 s) :
    Keeps s0 (State.cellEvents s a pa old new) := by
  unfold State.cellEvents
  try dsimp only
  with_reducible repeat' first | exact hk | apply State.emit_keeps | assumption | (intro _) | split

theorem State.learned_keeps {a : Access} {scope : Nat} {pl : Place} {x : Nat} {ws : List Past} {wrote : Bool} (hk : Keeps s0 s) :
    Keeps s0 (State.learned s a scope pl x ws wrote) := by
  unfold State.learned
  try dsimp only
  with_reducible repeat' first | exact hk | apply State.modStrand_keeps | assumption | (intro _) | split

theorem State.beforeSamples_keeps {a : Access} {pl : Place} {x : Nat} {ws : List Past} {wrote : Bool} (hk : Keeps s0 s) :
    Keeps s0 (State.beforeSamples s a pl x ws wrote) := by
  unfold State.beforeSamples
  try dsimp only
  with_reducible repeat' first | exact hk | assumption | (intro _) | split | apply Keeps.upd

theorem State.carryOut_keeps {a : Access} {scope : Nat} {pl : Place} {x : Nat} {d : Deed} {got : Got} (hk : Keeps s0 s) :
    Keeps s0 (State.carryOut s a scope pl x d got) := by
  unfold State.carryOut
  try dsimp only
  with_reducible repeat' first
    | exact hk | apply State.write_keeps | apply State.learned_keeps | apply State.beforeSamples_keeps | apply State.writeResult_keeps
    | assumption | (intro _) | split

theorem State.performPage_keeps {a : Access} {p : Page} (hk : Keeps s0 s) :
    Keeps s0 (State.performPage s a p) := by
  unfold State.performPage
  split
  · exact State.asyncFault_keeps hk
  split
  · exact State.asyncFault_keeps hk
  · split
    extract_lets got old d s1 s2 s3 s4 s5
    have h1 : Keeps s0 s1 := by
      unfold s1
      split
      · exact hk.withMem setDirty_wf
      · exact hk
    have h2 : Keeps s0 s2 := State.carryOut_keeps h1
    have h3 : Keeps s0 s3 := by
      unfold s3
      split
      · exact State.countMem_keeps h2
      · exact h2
    have h4 : Keeps s0 s4 := by
      unfold s4
      split
      · exact State.countMem_keeps h3
      · exact h3
    apply State.traffic_keeps
    unfold s5
    split
    · exact State.cellEvents_keeps h4
    · exact h4

theorem State.performPad_keeps {a : Access} (hk : Keeps s0 s) :
    Keeps s0 (State.performPad s a) := by
  unfold State.performPad
  try dsimp only
  with_reducible repeat' first | exact hk | apply State.asyncFault_keeps | apply State.carryOut_keeps | assumption | (intro _) | split

theorem State.dropAcc_keeps {n : Nat} (hk : Keeps s0 s) :
    Keeps s0 (State.dropAcc s n) := by
  unfold State.dropAcc
  try dsimp only
  with_reducible repeat' first | exact hk | assumption | (intro _) | split | apply Keeps.upd

theorem State.perform_keeps {n : Nat} {a : Access} (hk : Keeps s0 s) :
    Keeps s0 (State.perform s n a) := by
  unfold State.perform
  try dsimp only
  with_reducible repeat' first
    | exact hk | apply State.holdAccess_keeps | apply State.dropAcc_keeps | apply State.asyncFault_keeps | apply State.draw_keeps
    | apply State.performPage_keeps | apply State.performPad_keeps | assumption | (intro _) | split | apply Keeps.upd

theorem State.afterCommit_keeps {blk : Nat} {spans : List Span} {who : Option CommitBy} {b : Block} (hk : Keeps s0 s) :
    Keeps s0 (State.afterCommit s blk spans who b) := by
  unfold State.afterCommit
  try dsimp only
  with_reducible repeat' first
    | exact hk | apply State.modStrand_keeps | apply Keeps.foldl | apply Keeps.foldlPair | assumption | (intro _) | split | apply Keeps.upd

theorem commitEntry_keeps {blk : Nat} {b : Block} {la : Launch} {w : Author} {again : Hold} {c : Committing} {e : Buffered}
    (hk : Keeps s0 c.s) : Keeps s0 (commitEntry blk b la w again c e).s := by
  unfold commitEntry
  split
  split
  · try dsimp only
    split
    · exact hk
    · exact State.refault_keeps hk
  · exact hk
  · split
    · exact hk
    · try dsimp only
      split
      · exact hk
      · try dsimp only
        split
        · exact State.cellEvents_keeps (State.traffic_keeps (State.countMem_keeps (State.writePage_keeps hk)))
        · exact State.traffic_keeps (State.countMem_keeps (State.writePage_keeps hk))

theorem State.commitList_keeps {blk : Nat} {es : List Buffered} {who : Option CommitBy} {again : Hold} (hk : Keeps s0 s) :
    Keeps s0 (State.commitList s blk es who again) := by
  unfold State.commitList
  split
  · extract_lets c s1 s2
    apply Keeps.foldl
    · intro s e h
      split
      · exact h
      · split
        · exact State.asyncFault_keeps h
        · exact State.failLaunch_keeps h
    · apply State.afterCommit_keeps
      apply State.modBlock_keeps
      have : ∀ (b : Block) (la : Launch) (w : Author) (l : List Buffered) (c : Committing),
          Keeps s0 c.s → Keeps s0 (l.foldl (commitEntry blk b la w again) c).s := by
        intro b la w l
        induction l with
        | nil => exact fun _ h => h
        | cons e l ih => exact fun c h => ih _ (commitEntry_keeps h)
      exact this _ _ _ _ _ hk
  · exact hk

theorem State.commit_keeps {blk : Nat} {who : Option CommitBy} (hk : Keeps s0 s) :
    Keeps s0 (State.commit s blk who) := by
  unfold State.commit
  try dsimp only
  with_reducible repeat' first
    | exact hk | apply State.setBlock_keeps | apply State.asyncFault_keeps | apply State.failLaunch_keeps | apply State.commitList_keeps
    | (refine State.consume_keeps ?_ (by assumption)) | apply Keeps.getD | assumption | (intro _) | split

theorem State.recommit_keeps {blk : Nat} (hk : Keeps s0 s) :
    Keeps s0 (State.recommit s blk) := by
  unfold State.recommit
  try dsimp only
  with_reducible repeat' first | exact hk | apply State.commitList_keeps | assumption | (intro _) | split

theorem State.bufferEntry_keeps {blk : Nat} {e : Buffered} (hk : Keeps s0 s) :
    Keeps s0 (State.bufferEntry s blk e) := by
  unfold State.bufferEntry
  try dsimp only
  with_reducible repeat' first | exact hk | apply State.modBlock_keeps

theorem State.forceCommit_keeps {w : CommitBy} {b : Block} (hk : Keeps s0 s) :
    Keeps s0 (State.forceCommit s w b) := by
  unfold State.forceCommit
  try dsimp only
  with_reducible repeat' first | exact hk | apply State.commit_keeps | apply State.emit_keeps

/-! ## Memory -/

theorem Ctx.storage_keeps {c : Ctx} {m : Storage} {addr : Nat → Int} {go : List (Nat × Nat) → Verdict} (hk : Keeps s0 c.s) (hgo : ∀ a0,
    (go a0).Keeps s0) :
    (Ctx.storage c m addr go).Keeps s0 := by
  unfold Ctx.storage
  try dsimp only
  repeat' first
    | with_reducible exact hk | with_reducible apply hgo | exact trivial | with_reducible apply Verdict.keeps_done
    | with_reducible apply Verdict.keeps_doneThen | with_reducible apply Verdict.keeps_wait | with_reducible apply Verdict.keeps_over
    | with_reducible apply Verdict.keeps_trapIn | with_reducible apply Ctx.trap_keeps | with_reducible apply Ctx.misaligned_keeps
    | with_reducible apply Keeps.getD | with_reducible assumption | (intro _) | split

theorem Ctx.committed_keeps {c : Ctx} {go : State → Verdict} {scope : Nat} {wait : Option Stall} (hk : Keeps s0 c.s)
    (hgo : ∀ a0, Keeps s0 a0 → (go a0).Keeps s0) :
    (Ctx.committed c go scope wait).Keeps s0 := by
  unfold Ctx.committed
  try dsimp only
  with_reducible repeat' first
    | exact hk | apply hgo | exact trivial | apply Verdict.keeps_done | apply Verdict.keeps_doneThen | apply Verdict.keeps_wait
    | apply Verdict.keeps_over | apply Verdict.keeps_trapIn | apply State.commit_keeps | assumption | (intro _) | split

theorem State.nextPo_keeps {r : StrandRef} (hk : Keeps s0 s) :
    Keeps s0 (State.nextPo s r) := by
  unfold State.nextPo
  try dsimp only
  with_reducible repeat' first | exact hk | apply State.modStrand_keeps

theorem Ctx.issue_keeps {c : Ctx} {m : Storage} {ps : List Piece} (hk : Keeps s0 s) :
    Keeps s0 (Ctx.issue c m ps s) := by
  unfold Ctx.issue
  try dsimp only
  with_reducible repeat' first
    | exact hk | apply State.name_keeps | apply State.nextPo_keeps | apply Keeps.foldl | apply Keeps.foldlPair | assumption | (intro _)
    | split | apply Keeps.upd

theorem Ctx.screened_keeps {c : Ctx} {sp : Space} {w : Nat} {stores : List (Nat × List Byte)} (hk : Keeps s0 s) :
    Keeps s0 (Ctx.screened c sp w stores s) := by
  unfold Ctx.screened
  try dsimp only
  with_reducible repeat' first
    | exact hk | apply State.modStrand_keeps | apply Keeps.foldl | apply Keeps.foldlPair | assumption | (intro _) | split

theorem State.bufferFrom_keeps {w : CommitBy} {busy : Bool} {es : List Buffered} {n : Nat} {s : State} (hk : Keeps s0 s) :
    Keeps s0 (s.bufferFrom w busy es n).1 := by
  induction es generalizing s n with
  | nil => exact hk
  | cons e es ih =>
    unfold State.bufferFrom
    split
    · exact hk
    · split
      · exact ih (State.bufferEntry_keeps hk)
      · split
        · exact hk
        · try dsimp only
          have h1 := State.forceCommit_keeps (w := w) (b := ‹Block›) hk
          split
          · exact h1
          · split
            · exact h1
            · apply ih
              split
              · exact State.commit_keeps (State.bufferEntry_keeps h1)
              · exact State.bufferEntry_keeps h1

theorem Ctx.bufferPieces_keeps {c : Ctx} {scope : Nat} {ps : List Piece} {n : Nat} {go : State → Verdict} (hk : Keeps s0 s)
    (hgo : ∀ a0, Keeps s0 a0 → (go a0).Keeps s0) :
    (Ctx.bufferPieces c scope ps n s go).Keeps s0 := by
  have h := State.bufferFrom_keeps (w := c.commitBy scope) (busy := (c.s.orderWait c.r).isSome)
    (es := (ps.filterMap Piece.entry).drop n) (n := n) hk
  unfold Ctx.bufferPieces
  split <;> rename_i he <;> rw [he] at h
  · split
    · exact hgo _ h
    · exact h
  · exact State.modStrand_keeps h

theorem Ctx.store_keeps {c : Ctx} {m : Storage} {w : Nat} {stores : List (Nat × List Byte)} {ps : List Piece} (hk : Keeps s0 c.s) :
    (Ctx.store c m w stores ps).Keeps s0 := by
  unfold Ctx.store
  try dsimp only
  with_reducible repeat' first
    | exact hk | exact trivial | apply Verdict.keeps_done | apply Verdict.keeps_doneThen | apply Verdict.keeps_wait
    | apply Verdict.keeps_over | apply Verdict.keeps_trapIn | apply Ctx.screened_keeps | apply Ctx.issue_keeps | apply Ctx.committed_keeps
    | apply Ctx.bufferPieces_keeps | assumption | (intro _) | split

theorem rmwWord_keeps {i : Instr} {x : F} {src : List (BitVec 7)} {kind : Ctx → Nat → AccKind} (hk : Keeps s0 s) :
    OutcomeKeeps s0 (rmwWord i x src kind s) := by
  unfold rmwWord
  try dsimp only
  with_reducible repeat' first
    | exact hk | exact trivial | apply Verdict.keeps_done | apply Verdict.keeps_doneThen | apply Verdict.keeps_wait
    | apply Verdict.keeps_over | apply Verdict.keeps_trapIn | apply OutcomeKeeps.next | apply OutcomeKeeps.fault | apply word_keeps
    | apply Ctx.storage_keeps | apply Ctx.issue_keeps | apply Ctx.committed_keeps | assumption | (intro _) | split

theorem Ctx.cell_keeps {c : Ctx} {x : F} {go : Verdict} (hk : Keeps s0 c.s) (hgo :  go.Keeps s0) :
    (Ctx.cell c x go).Keeps s0 := by
  unfold Ctx.cell
  try dsimp only
  with_reducible repeat' first
    | exact hk | apply hgo | exact trivial | apply Verdict.keeps_done | apply Verdict.keeps_doneThen | apply Verdict.keeps_wait
    | apply Verdict.keeps_over | apply Verdict.keeps_trapIn | apply Ctx.trap_keeps | assumption | (intro _) | exact Verdict.keeps_trap
    | split

theorem fxrdWord_keeps {i : Instr} {x : F} {clr : Bool} (hk : Keeps s0 s) :
    OutcomeKeeps s0 (fxrdWord i x clr s) := by
  unfold fxrdWord
  try dsimp only
  with_reducible repeat' first
    | exact hk | exact trivial | apply Verdict.keeps_done | apply Verdict.keeps_doneThen | apply Verdict.keeps_wait
    | apply Verdict.keeps_over | apply Verdict.keeps_trapIn | apply OutcomeKeeps.next | apply OutcomeKeeps.fault | apply word_keeps
    | apply Ctx.cell_keeps | apply Ctx.storage_keeps | apply Ctx.committed_keeps | apply Ctx.issue_keeps | assumption | (intro _)

/-! ## Quorum -/

theorem acceptSlot_wf {m : Memory} {pa : Nat} {tag : Dword} {pay : BitVec 128} (h : Memory.wf m = true) :
    Memory.wf (acceptSlot m pa tag pay) = true := by
  unfold acceptSlot
  split
  · exact Memory.wf_put _ _ h
  · exact h

theorem State.sendSlot_keeps {fe pa : Nat} {tag : Dword} {pay : BitVec 128} (hk : Keeps s0 s) :
    Keeps s0 (State.sendSlot s fe pa tag pay) := by
  unfold State.sendSlot
  refine Keeps.withMem ?_ acceptSlot_wf
  split
  · exact State.count_keeps hk
  · exact hk

theorem Ctx.quorumCell_keeps {c : Ctx} {x : M} {go : Verdict} (hk : Keeps s0 c.s) (hgo :  go.Keeps s0) :
    (Ctx.quorumCell c x go).Keeps s0 := by
  unfold Ctx.quorumCell
  try dsimp only
  with_reducible repeat' first
    | exact hk | apply hgo | exact trivial | apply Verdict.keeps_done | apply Verdict.keeps_doneThen | apply Verdict.keeps_wait
    | apply Verdict.keeps_over | apply Verdict.keeps_trapIn | apply Ctx.trap_keeps | assumption | (intro _) | exact Verdict.keeps_trap
    | split

theorem State.addQuorums_keeps {qs : List QuorumOp} (hk : Keeps s0 s) :
    Keeps s0 (State.addQuorums s qs) := by
  unfold State.addQuorums
  try dsimp only
  with_reducible repeat' first
    | exact hk | apply State.name_keeps | apply Keeps.foldl | apply Keeps.foldlPair | assumption | (intro _) | split | apply Keeps.upd

theorem State.setQuorum_keeps {n : Nat} {q : QuorumOp} (hk : Keeps s0 s) :
    Keeps s0 (State.setQuorum s n q) := by
  unfold State.setQuorum
  try dsimp only
  with_reducible repeat' first | exact hk | assumption | (intro _) | split | apply Keeps.upd

theorem State.dropQuorum_keeps {n : Nat} (hk : Keeps s0 s) :
    Keeps s0 (State.dropQuorum s n) := by
  unfold State.dropQuorum
  try dsimp only
  with_reducible repeat' first | exact hk | assumption | (intro _) | split | apply Keeps.upd

theorem State.endQst_keeps {n : Nat} {q : QuorumOp} {tag : Dword} {pa : Nat} (hk : Keeps s0 s) :
    Keeps s0 (State.endQst s n q tag pa) := by
  unfold State.endQst
  try dsimp only
  with_reducible repeat' first
    | exact hk | apply Keeps.foldl | apply Keeps.foldlPair | apply Keeps.getD | assumption | (intro _) | split | apply Keeps.upd

theorem State.endQld_keeps {q : QuorumOp} {tag : Dword} {pa : Nat} (hk : Keeps s0 s) :
    Keeps s0 (State.endQld s q tag pa) := by
  unfold State.endQld
  try dsimp only
  with_reducible repeat' first | exact hk | apply State.modStrand_keeps | apply Keeps.foldl | apply Keeps.foldlPair | assumption | (intro _)

theorem State.endStep2_keeps {n : Nat} {q : QuorumOp} {tag : Dword} {pay : BitVec 128} (hk : Keeps s0 s) :
    Keeps s0 (State.endStep2 s n q tag pay) := by
  unfold State.endStep2
  try dsimp only
  with_reducible repeat' first | exact hk | apply Ctx.store_keeps | apply Keeps.getD | assumption | (intro _) | split | apply Keeps.upd

theorem State.translateQuorum_keeps {n : Nat} {q : QuorumOp} (hk : Keeps s0 s) :
    Keeps s0 (State.translateQuorum s n q).1 := by
  unfold State.translateQuorum
  split
  · split
    · exact State.dropQuorum_keeps hk
    · exact State.setQuorum_keeps (State.refault_keeps hk)
  · exact State.asyncFault_keeps (State.dropQuorum_keeps hk)
  · dsimp only
    split
    · apply State.setQuorum_keeps
      split
      · exact hk.withMem setDirty_wf
      · exact hk
    · exact State.asyncFault_keeps (State.dropQuorum_keeps hk)

theorem State.settleQuorum_keeps {n : Nat} {q : QuorumOp} (hk : Keeps s0 s) :
    Keeps s0 (State.settleQuorum s n q) := by
  unfold State.settleQuorum
  try dsimp only
  with_reducible repeat' first
    | exact hk | apply State.dropQuorum_keeps | apply State.emit_keeps | apply State.setQuorum_keeps | apply State.asyncFault_keeps
    | apply Ctx.store_keeps | apply State.endQst_keeps | apply State.endStep2_keeps | apply State.endQld_keeps
    | apply State.writeResult_keeps | apply Keeps.getD | assumption | (intro _) | split

theorem State.answerCopy_keeps {n : Nat} {q : QuorumOp} {i : Nat} (hk : Keeps s0 s) :
    Keeps s0 (State.answerCopy s n q i) := by
  unfold State.answerCopy
  split
  · exact hk
  · split
    · exact hk
    · try dsimp only
      split
      · exact hk
      · split
        · exact State.settleQuorum_keeps hk
        · apply State.settleQuorum_keeps
          split
          · exact State.sendSlot_keeps hk
          · exact State.count_keeps hk
      · split
        · split
          · split
            · exact State.settleQuorum_keeps hk
            · exact State.settleQuorum_keeps (State.sendSlot_keeps hk)
          · exact hk
        · exact hk

theorem State.echo_keeps {n : Nat} {q : QuorumOp} {i : Nat} (hk : Keeps s0 s) :
    Keeps s0 (State.echo s n q i) := by
  unfold State.echo
  split
  · split
    · exact hk
    · try dsimp only
      apply Keeps.upd
      split
      · exact hk
      · exact State.sendSlot_keeps hk
  · exact hk

/-! ## Waits -/

theorem Ctx.fenced_keeps {c : Ctx} {ord scope : Nat} (hk : Keeps s0 s) :
    Keeps s0 (Ctx.fenced c ord scope s) := by
  unfold Ctx.fenced
  try dsimp only
  with_reducible repeat' first | exact hk | apply State.modStrand_keeps

theorem State.waitaValue_keeps {t : Nat} {z : Sleeper} {w : Waita} {a : Access} {pl : Place} {x : Nat} {buf : List Buffered}
    (hk : Keeps s0 s) :
    Keeps s0 (State.waitaValue s t z w a pl x buf) := by
  unfold State.waitaValue
  try dsimp only
  with_reducible repeat' first
    | exact hk | apply State.learned_keeps | apply State.writeResult_keeps | apply State.modStrand_keeps | assumption | (intro _) | split

theorem State.waitaRead_keeps {r : StrandRef} {t : Nat} (hk : Keeps s0 s) :
    Keeps s0 (State.waitaRead s r t) := by
  unfold State.waitaRead
  try dsimp only
  with_reducible repeat' first
    | exact hk | apply State.modStrand_keeps | apply State.asyncFault_keeps | apply State.refault_keeps | apply State.countMem_keeps
    | apply State.traffic_keeps | apply State.waitaValue_keeps | apply Keeps.getD | assumption | (intro _) | split

theorem State.wakeSlept_keeps {r : StrandRef} (hk : Keeps s0 s) :
    Keeps s0 (State.wakeSlept s r) := by
  unfold State.wakeSlept
  try dsimp only
  with_reducible repeat' first | exact hk | apply State.modStrand_keeps

/-! ## Barriers -/

theorem State.setBar_keeps {blk n : Nat} {x : Barrier} (hk : Keeps s0 s) :
    Keeps s0 (State.setBar s blk n x) := by
  unfold State.setBar
  try dsimp only
  with_reducible repeat' first | exact hk | apply State.modBlock_keeps

theorem State.trapWaiting_keeps {r : StrandRef} {cause : Cause} {act : Word} (hk : Keeps s0 s) :
    Keeps s0 (State.trapWaiting s r cause act) := by
  unfold State.trapWaiting
  try dsimp only
  with_reducible repeat' first | exact hk | apply State.enterPriv_keeps | assumption | (intro _) | split

theorem State.trapWaiters_keeps {blk n : Nat} {cause : Cause} (hk : Keeps s0 s) :
    Keeps s0 (State.trapWaiters s blk n cause) := by
  unfold State.trapWaiters
  try dsimp only
  with_reducible repeat' first
    | exact hk | apply State.trapWaiting_keeps | apply Keeps.foldl | apply Keeps.foldlPair | assumption | (intro _) | split

theorem State.completePhase_keeps {blk n : Nat} (hk : Keeps s0 s) :
    Keeps s0 (State.completePhase s blk n) := by
  unfold State.completePhase
  try dsimp only
  with_reducible repeat' first
    | exact hk | apply State.setBar_keeps | apply State.emit_keeps | assumption | (intro _) | split | apply Keeps.upd

theorem State.barEvent_keeps {blk n : Nat} {x : Barrier} {test : Bool} (hk : Keeps s0 s) :
    Keeps s0 (State.barEvent s blk n x test) := by
  unfold State.barEvent
  try dsimp only
  with_reducible repeat' first
    | exact hk | apply State.setBar_keeps | apply State.completePhase_keeps | apply State.trapWaiters_keeps | assumption | (intro _) | split

theorem State.postBar_keeps {blk n : Nat} {p : Post} {v : View} (hk : Keeps s0 s) :
    Keeps s0 (State.postBar s blk n p v) := by
  unfold State.postBar
  try dsimp only
  with_reducible repeat' first | exact hk | apply State.barEvent_keeps | assumption | (intro _) | split

theorem State.endArrivals_keeps {r : StrandRef} (hk : Keeps s0 s) :
    Keeps s0 (State.endArrivals s r) := by
  unfold State.endArrivals
  try dsimp only
  with_reducible repeat' first
    | exact hk | apply State.barEvent_keeps | apply Keeps.foldl | apply Keeps.foldlPair | assumption | (intro _) | split

theorem State.applyHeld_keeps {blk n : Nat} (hk : Keeps s0 s) :
    Keeps s0 (State.applyHeld s blk n) := by
  unfold State.applyHeld
  try dsimp only
  with_reducible repeat' first
    | exact hk | apply State.setBlock_keeps | apply State.postBar_keeps | apply Keeps.foldl | apply Keeps.foldlPair | assumption | (intro _)
    | split | apply Keeps.upd

theorem barWord_keeps {i : Instr} {x : F} {g : Shape} {eff : Ctx → Nat → Barrier → Verdict} (hk : Keeps s0 s)
    (heff : ∀ a0 a1 a2, Keeps s0 a0.s → (eff a0 a1 a2).Keeps s0) :
    OutcomeKeeps s0 (barWord i x g eff s) := by
  unfold barWord
  try dsimp only
  with_reducible repeat' first
    | exact hk | apply heff | exact trivial | apply Verdict.keeps_done | apply Verdict.keeps_doneThen | apply Verdict.keeps_wait
    | apply Verdict.keeps_over | apply Verdict.keeps_trapIn | apply OutcomeKeeps.next | apply OutcomeKeeps.fault | apply word_keeps
    | assumption | (intro _) | split

theorem Ctx.barOk_keeps {c : Ctx} {b : Barrier} {go : Verdict} (hk : Keeps s0 c.s) (hgo :  go.Keeps s0) :
    (Ctx.barOk c b go).Keeps s0 := by
  unfold Ctx.barOk
  try dsimp only
  with_reducible repeat' first
    | exact hk | apply hgo | exact trivial | apply Verdict.keeps_done | apply Verdict.keeps_doneThen | apply Verdict.keeps_wait
    | apply Verdict.keeps_over | apply Verdict.keeps_trapIn | apply Ctx.trapAll_keeps | assumption | (intro _) | split

theorem Ctx.arrive_keeps {c : Ctx} {n : Nat} {b : Barrier} {k : Nat} {go : State → Verdict} (hk : Keeps s0 c.s) (hgo : ∀ a0, Keeps s0 a0 →
    (go a0).Keeps s0) :
    (Ctx.arrive c n b k go).Keeps s0 := by
  unfold Ctx.arrive
  try dsimp only
  with_reducible repeat' first
    | exact hk | apply hgo | exact trivial | apply Verdict.keeps_done | apply Verdict.keeps_doneThen | apply Verdict.keeps_wait
    | apply Verdict.keeps_over | apply Verdict.keeps_trapIn | apply State.setBar_keeps | apply State.trapWaiters_keeps
    | apply State.barEvent_keeps | assumption | (intro _) | split

theorem Ctx.waitBar_keeps {c : Ctx} {n : Nat} {tok : Option Nat} (hk : Keeps s0 s) :
    Keeps s0 (Ctx.waitBar c n tok s) := by
  unfold Ctx.waitBar
  try dsimp only
  with_reducible repeat' first | exact hk | apply State.modStrand_keeps

/-! ## Handles -/

theorem State.setRec_keeps {core n : Nat} {x : HandleRec} (hk : Keeps s0 s) :
    Keeps s0 (State.setRec s core n x) := by
  unfold State.setRec
  try dsimp only
  with_reducible repeat' first | exact hk | apply State.setCore_keeps

theorem State.sweep_keeps {blk : Nat} (hk : Keeps s0 s) :
    Keeps s0 (State.sweep s blk) := by
  unfold State.sweep
  try dsimp only
  with_reducible repeat' first | exact hk | apply State.setCore_keeps | assumption | (intro _) | split

theorem State.writeH_keeps {r : StrandRef} {h : Nat} {t : Option Word} (hk : Keeps s0 s) :
    Keeps s0 (State.writeH s r h t) := by
  unfold State.writeH
  try dsimp only
  with_reducible repeat' first | exact hk | apply State.modStrand_keeps | apply State.sweep_keeps

theorem Ctx.handle_keeps {c : Ctx} {a : Nat} {go : Nat → HandleRec → Verdict} (hk : Keeps s0 c.s) (hgo : ∀ a0 a1, (go a0 a1).Keeps s0) :
    (Ctx.handle c a go).Keeps s0 := by
  unfold Ctx.handle
  try dsimp only
  with_reducible repeat' first
    | exact hk | apply hgo | exact trivial | apply Verdict.keeps_done | apply Verdict.keeps_doneThen | apply Verdict.keeps_wait
    | apply Verdict.keeps_over | apply Verdict.keeps_trapIn | apply Ctx.trapAll_keeps | assumption | (intro _) | split

theorem handleWord_keeps {i : Instr} {h : Hdr} {g : Shape} {slots : Option Nat} {eff : Ctx → Verdict} (hk : Keeps s0 s)
    (heff : ∀ a0, Keeps s0 a0.s → (eff a0).Keeps s0) :
    OutcomeKeeps s0 (handleWord i h g slots eff s) := by
  unfold handleWord
  try dsimp only
  with_reducible repeat' first
    | exact hk | apply heff | exact trivial | apply Verdict.keeps_done | apply Verdict.keeps_doneThen | apply Verdict.keeps_wait
    | apply Verdict.keeps_over | apply Verdict.keeps_trapIn | apply OutcomeKeeps.next | apply OutcomeKeeps.fault | apply word_keeps
    | assumption | (intro _) | split

/-! ## Queues -/

theorem Ctx.waitQueue_keeps {c : Ctx} {n : Nat} {push : Bool} (hk : Keeps s0 c.s) :
    (Ctx.waitQueue c n push).Keeps s0 := by
  unfold Ctx.waitQueue
  try dsimp only
  with_reducible repeat' first
    | exact hk | exact trivial | apply Verdict.keeps_done | apply Verdict.keeps_doneThen | apply Verdict.keeps_wait
    | apply Verdict.keeps_over | apply Verdict.keeps_trapIn | apply State.modStrand_keeps | apply State.noteStalls_keeps

theorem State.setQueue_keeps {blk n : Nat} {q : Queue} {t : Nat} (hk : Keeps s0 s) :
    Keeps s0 (State.setQueue s blk n q t) := by
  unfold State.setQueue
  try dsimp only
  with_reducible repeat' first | exact hk | apply State.modBlock_keeps

/-! ## Engines -/

theorem State.setOp_keeps {n : Nat} {o : EngOp} (hk : Keeps s0 s) :
    Keeps s0 (State.setOp s n o) := by
  unfold State.setOp
  try dsimp only
  with_reducible repeat' first | exact hk | assumption | (intro _) | split | apply Keeps.upd

theorem State.modOp_keeps {n : Nat} {f : EngOp → EngOp} (hk : Keeps s0 s) :
    Keeps s0 (State.modOp s n f) := by
  unfold State.modOp
  try dsimp only
  with_reducible repeat' first | exact hk | assumption | (intro _) | split | apply Keeps.upd

theorem State.dropOp_keeps {n : Nat} (hk : Keeps s0 s) :
    Keeps s0 (State.dropOp s n) := by
  unfold State.dropOp
  try dsimp only
  with_reducible repeat' first | exact hk | assumption | (intro _) | split | apply Keeps.upd

theorem State.setWaits_keeps {n : Nat} {o : EngOp} {f : Strand → Strand} (hk : Keeps s0 s) :
    Keeps s0 (State.setWaits s n o f) := by
  unfold State.setWaits
  try dsimp only
  with_reducible repeat' first | exact hk | apply State.modStrand_keeps | apply Keeps.foldl | apply Keeps.foldlPair | assumption | (intro _)

theorem State.passMembers_keeps {n : Nat} {o : EngOp} (hk : Keeps s0 s) :
    Keeps s0 (State.passMembers s n o) := by
  unfold State.passMembers
  try dsimp only
  with_reducible repeat' first | exact hk | apply State.setWaits_keeps

theorem State.closeRec_keeps {o : EngOp} (hk : Keeps s0 s) :
    Keeps s0 (State.closeRec s o) := by
  unfold State.closeRec
  try dsimp only
  with_reducible repeat' first | exact hk | apply State.setRec_keeps | apply State.sweep_keeps | assumption | (intro _) | split

theorem State.trapMembers_keeps {n : Nat} {o : EngOp} {c : Cause} {va : Dword} (hk : Keeps s0 s) :
    Keeps s0 (State.trapMembers s n o c va) := by
  unfold State.trapMembers
  try dsimp only
  with_reducible repeat' first
    | exact hk | apply State.dropOp_keeps | apply State.closeRec_keeps | apply State.setStrand_keeps | apply State.enterPriv_keeps
    | apply State.asyncFault_keeps | apply Keeps.foldl | apply Keeps.foldlPair | assumption | (intro _) | split

theorem State.opView_keeps {n : Nat} {v : View} (hk : Keeps s0 s) :
    Keeps s0 (State.opView s n v) := by
  unfold State.opView
  try dsimp only
  with_reducible repeat' first | exact hk | apply State.modOp_keeps

theorem State.countAt_keeps {fe va len : Nat} (hk : Keeps s0 s) :
    Keeps s0 (State.countAt s fe va len) := by
  unfold State.countAt
  try dsimp only
  with_reducible repeat' first | exact hk | apply State.countMem_keeps | apply State.traffic_keeps | assumption | (intro _) | split

theorem State.countRead_keeps {o : EngOp} {va len : Nat} (hk : Keeps s0 s) :
    Keeps s0 (State.countRead s o va len) := by
  unfold State.countRead
  try dsimp only
  with_reducible repeat' first | exact hk | apply State.countAt_keeps

theorem State.engWrite_keeps {n : Nat} {o : EngOp} {g va : Nat} {bs masks : List Byte} {heads : List Head} (hk : Keeps s0 s) {out : State}
    (e : State.engWrite s n o g va bs masks heads = .ok out) :
    Keeps s0 out := by
  unfold State.engWrite at e
  try dsimp only at e
  with_reducible repeat' first
    | split at e | cases e | exact hk | apply State.writePage_keeps | apply State.modOp_keeps | apply State.countMem_keeps
    | apply State.traffic_keeps

theorem State.opPadWrite_keeps {n : Nat} {pl : Place} {g a : Nat} {bs masks : List Byte} {heads : List Head} (hk : Keeps s0 s) :
    Keeps s0 (State.opPadWrite s n pl g a bs masks heads) := by
  unfold State.opPadWrite
  try dsimp only
  with_reducible repeat' first | exact hk | apply State.write_keeps | apply State.modOp_keeps

theorem State.opFault_keeps {n : Nat} {c : Cause} {va : Nat} (hk : Keeps s0 s) :
    Keeps s0 (State.opFault s n c va) := by
  unfold State.opFault
  try dsimp only
  with_reducible repeat' first | exact hk | apply State.setOp_keeps | apply State.asyncFault_keeps | assumption | (intro _) | split

theorem State.opError_keeps {o : EngOp} {c : Cause} {va : Nat} (hk : Keeps s0 s) :
    Keeps s0 (State.opError s o c va) := by
  unfold State.opError
  try dsimp only
  with_reducible repeat' first | exact hk | apply State.asyncFault_keeps | assumption | (intro _) | split

theorem State.holdOp_keeps {n : Nat} {va : Nat} {write : Bool} (hk : Keeps s0 s) :
    Keeps s0 (State.holdOp s n va write) := by
  unfold State.holdOp
  try dsimp only
  with_reducible repeat' first
    | exact hk | apply State.refault_keeps | apply State.write_keeps | apply State.modOp_keeps | apply Keeps.getD | assumption | (intro _)
    | split

theorem State.postTo_keeps {n : Nat} {o : EngOp} {index bar : Nat} {p : Post} (hk : Keeps s0 s) :
    Keeps s0 (State.postTo s n o index bar p).1 := by
  unfold State.postTo
  try dsimp only
  with_reducible repeat' first
    | exact hk | apply State.postBar_keeps | apply State.setBlock_keeps | apply State.modLaunch_keeps | assumption | (intro _) | split

theorem State.postOwe_keeps {n index bar bytes : Nat} (hk : Keeps s0 s) :
    Keeps s0 (State.postOwe s n index bar bytes) := by
  unfold State.postOwe
  try dsimp only
  with_reducible repeat' first | exact hk | apply State.postTo_keeps | apply State.modOp_keeps | assumption | (intro _) | split

theorem State.postBytes_keeps {n bytes : Nat} {ok : OpPost → Bool} (hk : Keeps s0 s) :
    Keeps s0 (State.postBytes s n bytes ok) := by
  unfold State.postBytes
  try dsimp only
  with_reducible repeat' first
    | exact hk | apply State.postTo_keeps | apply State.modOp_keeps | apply Keeps.foldl | apply Keeps.foldlPair | assumption | (intro _)
    | split

theorem State.unpost_keeps {n : Nat} {o : EngOp} {p : OpPost} {owed got : Nat} (hk : Keeps s0 s) :
    Keeps s0 (State.unpost s n o p owed got) := by
  unfold State.unpost
  try dsimp only
  with_reducible repeat' first
    | exact hk | apply State.modLaunch_keeps | apply State.setBlock_keeps | apply State.setBar_keeps | assumption | (intro _) | split

theorem State.postDone_keeps {n : Nat} (hk : Keeps s0 s) :
    Keeps s0 (State.postDone s n) := by
  unfold State.postDone
  try dsimp only
  with_reducible repeat' first
    | exact hk | apply State.dropOp_keeps | apply State.closeRec_keeps | apply State.postBar_keeps | apply Ctx.arrive_keeps
    | apply State.postTo_keeps | apply Keeps.foldl | apply Keeps.foldlPair | assumption | (intro _) | split

theorem State.engCommit_keeps {o : EngOp} (hk : Keeps s0 s) :
    Keeps s0 (State.engCommit s o).1 := by
  unfold State.engCommit
  try dsimp only
  with_reducible repeat' first | exact hk | apply State.commit_keeps | apply Keeps.getD | assumption | (intro _) | split

theorem State.postFlag_keeps {n : Nat} (hk : Keeps s0 s) :
    Keeps s0 (State.postFlag s n).1 := by
  unfold State.postFlag
  try dsimp only
  with_reducible repeat' first
    | exact hk | apply State.modOp_keeps | apply State.opPadWrite_keeps | apply State.engCommit_keeps | apply State.holdOp_keeps
    | apply State.opFault_keeps | (refine State.engWrite_keeps ?_ (by assumption)) | apply Keeps.getD | assumption | (intro _) | split

theorem State.complete_keeps {n : Nat} (hk : Keeps s0 s) :
    Keeps s0 (State.complete s n) := by
  unfold State.complete
  try dsimp only
  with_reducible repeat' first | exact hk | apply State.postFlag_keeps | apply State.postDone_keeps | assumption | (intro _) | split

theorem State.repost_keeps {n : Nat} (hk : Keeps s0 s) :
    Keeps s0 (State.repost s n) := by
  unfold State.repost
  try dsimp only
  with_reducible repeat' first | exact hk | apply State.complete_keeps | assumption | (intro _) | split

theorem State.takeRec_keeps {n : Nat} {i : Nat} {hs : List (Nat × Nat)} (hk : Keeps s0 s) :
    Keeps s0 (State.takeRec s n i hs) := by
  unfold State.takeRec
  try dsimp only
  with_reducible repeat' first
    | exact hk | apply State.setRec_keeps | apply State.modStrand_keeps | apply State.setOp_keeps | apply State.sweep_keeps
    | apply Keeps.foldl | apply Keeps.foldlPair | assumption | (intro _) | split

theorem State.opEvent_keeps {o : EngOp} {c : Cause} (hk : Keeps s0 s) :
    Keeps s0 (State.opEvent s o c) := by
  unfold State.opEvent
  try dsimp only
  with_reducible repeat' first | exact hk | apply State.emit_keeps | assumption | (intro _) | split

/-! ## Copies -/

theorem State.stageCpq_keeps {n : Nat} {o : EngOp} (hk : Keeps s0 s) :
    Keeps s0 (State.stageCpq s n o) := by
  unfold State.stageCpq
  try dsimp only
  with_reducible repeat' first
    | exact hk | apply word_keeps | apply State.setOp_keeps | apply State.opFault_keeps | apply Keeps.foldl | apply Keeps.foldlPair
    | assumption | (intro _) | split

theorem State.postExpect_keeps {n : Nat} {o : EngOp} (hk : Keeps s0 s) :
    Keeps s0 (State.postExpect s n o) := by
  unfold State.postExpect
  try dsimp only
  with_reducible repeat' first
    | exact hk | apply State.postOwe_keeps | apply Keeps.foldl | apply Keeps.foldlPair | apply Keeps.getD | assumption | (intro _) | split

theorem State.startCpr_keeps {o : EngOp} (hk : Keeps s0 s) :
    Keeps s0 (State.startCpr s o).2 := by
  unfold State.startCpr
  try dsimp only
  with_reducible repeat' first | exact hk | apply State.modBlock_keeps | apply Keeps.getD | assumption | (intro _) | split

theorem State.numberCpr_keeps {o : EngOp} (hk : Keeps s0 s) :
    Keeps s0 (State.numberCpr s o).2 := by
  unfold State.numberCpr
  try dsimp only
  with_reducible repeat' first | exact hk | apply State.modFe_keeps | apply Keeps.getD | assumption | (intro _) | split

theorem State.acceptCopy_keeps {n : Nat} (hk : Keeps s0 s) :
    Keeps s0 (State.acceptCopy s n) := by
  unfold State.acceptCopy
  try dsimp only
  with_reducible repeat' first
    | exact hk | apply State.setOp_keeps | apply State.postExpect_keeps | apply State.passMembers_keeps | apply State.opEvent_keeps
    | assumption | (intro _) | split

theorem State.checkCopy_keeps {n : Nat} (hk : Keeps s0 s) :
    Keeps s0 (State.checkCopy s n) := by
  unfold State.checkCopy
  try dsimp only
  with_reducible repeat' first | exact hk | apply State.trapMembers_keeps | apply State.setOp_keeps | assumption | (intro _) | split

theorem State.startCopy_keeps {n : Nat} (hk : Keeps s0 s) :
    Keeps s0 (State.startCopy s n) := by
  unfold State.startCopy
  try dsimp only
  with_reducible repeat' first
    | exact hk | apply State.setWaits_keeps | apply Ctx.handle_keeps | apply State.engCommit_keeps | apply State.numberCpr_keeps
    | apply State.startCpr_keeps | apply State.setOp_keeps | apply State.takeRec_keeps | apply State.name_keeps | apply State.modOp_keeps
    | apply Ctx.follow_keeps | apply State.passMembers_keeps | apply State.acceptCopy_keeps | apply Keeps.getD | assumption | (intro _)
    | split

theorem State.deliverTo_keeps {n : Nat} {o : EngOp} {index a : Nat} {bs masks : List Byte} (hk : Keeps s0 s) :
    Keeps s0 (State.deliverTo s n o index a bs masks).1 := by
  unfold State.deliverTo
  try dsimp only
  with_reducible repeat' first | exact hk | apply State.opPadWrite_keeps | apply State.modLaunch_keeps | assumption | (intro _) | split

theorem State.passUnit_keeps {n cell bytes : Nat} {ok : OpPost → Bool} (hk : Keeps s0 s) :
    Keeps s0 (State.passUnit s n cell bytes ok) := by
  unfold State.passUnit
  try dsimp only
  with_reducible repeat' first
    | exact hk | apply State.modOp_keeps | apply Ctx.cell_keeps | apply State.count_keeps | apply State.postBytes_keeps | assumption
    | (intro _) | split

theorem State.gotUnit_keeps {n va len : Nat} {r : Reached Ran} {go : State → List Byte → State} (hk : Keeps s0 s)
    (hgo : ∀ t bs, Keeps s0 t → Keeps s0 (go t bs)) :
    Keeps s0 (State.gotUnit s n va len r go) := by
  unfold State.gotUnit
  split
  · exact State.holdOp_keeps hk
  · exact hgo _ _ (State.opView_keeps hk)
  · try dsimp only
    split
    · exact hgo _ _ (State.opFault_keeps hk)
    · exact State.opFault_keeps hk

theorem State.putUnit_keeps {n g va : Nat} {bs masks : List Byte} {go : State → State} {heads : List Head} (hk : Keeps s0 s)
    (hgo : ∀ t, Keeps s0 t → Keeps s0 (go t)) :
    Keeps s0 (State.putUnit s n g va bs masks go heads) := by
  unfold State.putUnit
  split
  · exact hk
  · split
    · exact State.holdOp_keeps hk
    · exact hgo _ (State.opFault_keeps hk)
    · exact hgo _ (State.engWrite_keeps hk (by assumption))

theorem State.moveBox_keeps {n cell : Nat} {o : EngOp} {a : Arrival} {z : Slice} {u : Nat} (hk : Keeps s0 s) :
    Keeps s0 (State.moveBox s n cell o a z u) := by
  unfold State.moveBox
  try dsimp only
  with_reducible repeat' first
    | exact hk | apply State.passUnit_keeps | apply Ctx.cell_keeps | apply State.putUnit_keeps | apply State.gotUnit_keeps
    | apply State.deliverTo_keeps | apply State.modOp_keeps | apply State.modBlock_keeps | apply State.opPadWrite_keeps
    | apply State.countRead_keeps | apply Keeps.foldl | apply Keeps.foldlPair | apply Keeps.getD | assumption | (intro _) | split

theorem State.moveTile_keeps {n cell : Nat} {o : EngOp} {m : TileMove} {u : Nat} (hk : Keeps s0 s) :
    Keeps s0 (State.moveTile s n cell o m u) := by
  unfold State.moveTile
  try dsimp only
  with_reducible repeat' first
    | exact hk | apply State.gotUnit_keeps | apply State.opPadWrite_keeps | apply State.passUnit_keeps | apply Ctx.cell_keeps | assumption
    | (intro _)

theorem State.moveScale_keeps {n cell va : Nat} {x : Byte} (hk : Keeps s0 s) :
    Keeps s0 (State.moveScale s n cell va x) := by
  unfold State.moveScale
  try dsimp only
  with_reducible repeat' first
    | exact hk | apply State.putUnit_keeps | apply State.modOp_keeps | apply Ctx.cell_keeps | assumption | (intro _)

theorem State.listExc_keeps {n : Nat} {o : EngOp} {list : Nat} {e : BitVec 128} (hk : Keeps s0 s) :
    Keeps s0 (State.listExc s n o list e) := by
  unfold State.listExc
  extract_lets ff next
  have hn : ∀ t : State, Keeps s0 t → Keeps s0 (next t) := fun _ h => State.modOp_keeps h
  split
  · exact State.holdOp_keeps hk
  · exact State.holdOp_keeps hk
  · exact hn _ (State.opFault_keeps hk)
  · exact hn _ (State.opFault_keeps hk)
  · extract_lets s1 c cap rise
    have h1 : Keeps s0 s1 := State.opView_keeps hk
    have hr : ∀ t : State, Keeps s0 t → Keeps s0 (rise t) := by
      intro t h
      refine State.putUnit_keeps h fun u hu => hn _ ?_
      split
      · exact hu
      · exact State.opEvent_keeps hu
    split
    · exact State.putUnit_keeps h1 hr
    · exact hr _ h1

theorem State.moveUnit_keeps {n cell : Nat} {o : EngOp} (hk : Keeps s0 s) :
    Keeps s0 (State.moveUnit s n cell o) := by
  unfold State.moveUnit
  try dsimp only
  with_reducible repeat' first
    | exact hk | apply Ctx.cell_keeps | apply State.moveTile_keeps | apply State.moveBox_keeps | apply State.moveScale_keeps
    | apply State.listExc_keeps | assumption | (intro _) | split

/-! ## Arrays -/

theorem State.modArray_keeps {core : Nat} {f : MatrixArray → MatrixArray} (hk : Keeps s0 s) :
    Keeps s0 (State.modArray s core f) := by
  unfold State.modArray
  try dsimp only
  with_reducible repeat' first | exact hk | apply State.setCore_keeps

theorem State.arrayDone_keeps {n : Nat} {o : EngOp} (hk : Keeps s0 s) :
    Keeps s0 (State.arrayDone s n o) := by
  unfold State.arrayDone
  try dsimp only
  with_reducible repeat' first | exact hk | apply State.modArray_keeps | apply State.complete_keeps | assumption | (intro _) | split

theorem State.waitFor_keeps {n : Nat} {o : EngOp} {why : Stall} (hk : Keeps s0 s) :
    Keeps s0 (State.waitFor s n o why) := by
  unfold State.waitFor
  try dsimp only
  with_reducible repeat' first | exact hk | apply State.setWaits_keeps

theorem State.giveRecs_keeps {rs : List (Nat × Nat)} (hk : Keeps s0 s) :
    Keeps s0 (State.giveRecs s rs) := by
  unfold State.giveRecs
  try dsimp only
  with_reducible repeat' first
    | exact hk | apply State.takeRec_keeps | apply Keeps.foldl | apply Keeps.foldlPair | assumption | (intro _) | split

theorem State.enterOps_keeps {os : List (Nat × EngOp)} {zs : List Side} {d : BitVec 512} (hk : Keeps s0 s) :
    Keeps s0 (State.enterOps s os zs d) := by
  unfold State.enterOps
  try dsimp only
  with_reducible repeat' first
    | exact hk | apply State.waitFor_keeps | apply Ctx.handle_keeps | apply State.giveRecs_keeps | apply State.modOp_keeps
    | apply State.modArray_keeps | apply State.passMembers_keeps | apply State.opEvent_keeps | apply Keeps.foldl | apply Keeps.foldlPair
    | assumption | (intro _) | split

theorem State.enterChecked_keeps {os : List (Nat × EngOp)} {zs : List Side} {d : BitVec 512} {cause : Option Cause} (hk : Keeps s0 s) :
    Keeps s0 (State.enterChecked s os zs d cause) := by
  unfold State.enterChecked
  try dsimp only
  with_reducible repeat' first
    | exact hk | apply State.trapMembers_keeps | apply State.engCommit_keeps | apply State.enterOps_keeps | apply State.waitFor_keeps
    | apply Keeps.foldl | apply Keeps.foldlPair | assumption | (intro _) | split

theorem State.matchPair_keeps {a : MatrixArray} {p : Pair} (hk : Keeps s0 s) :
    Keeps s0 (State.matchPair s a p) := by
  unfold State.matchPair
  try dsimp only
  with_reducible repeat' first | exact hk | apply State.enterChecked_keeps | assumption | (intro _) | split

theorem State.dissolve_keeps {core : Nat} (hk : Keeps s0 s) :
    Keeps s0 (State.dissolve s core) := by
  unfold State.dissolve
  try dsimp only
  with_reducible repeat' first
    | exact hk | apply State.modArray_keeps | apply State.trapMembers_keeps | apply State.modOp_keeps | apply State.emit_keeps
    | apply Keeps.foldl | apply Keeps.foldlPair | assumption | (intro _) | split

theorem State.syncMembers_keeps {o : EngOp} {v : View} (hk : Keeps s0 s) :
    Keeps s0 (State.syncMembers s o v) := by
  unfold State.syncMembers
  try dsimp only
  with_reducible repeat' first | exact hk | apply State.modStrand_keeps | apply Keeps.foldl | apply Keeps.foldlPair | assumption | (intro _)

theorem State.formPair_keeps {n : Nat} {o : EngOp} (hk : Keeps s0 s) :
    Keeps s0 (State.formPair s n o) := by
  unfold State.formPair
  try dsimp only
  with_reducible repeat' first
    | exact hk | apply State.trapMembers_keeps | apply State.waitFor_keeps | apply State.modOp_keeps | apply Ctx.handle_keeps
    | apply State.giveRecs_keeps | apply State.modArray_keeps | apply State.passMembers_keeps | apply State.syncMembers_keeps
    | apply State.opEvent_keeps | apply State.complete_keeps | assumption | (intro _) | split

theorem State.enterDone_keeps {n : Nat} {o : EngOp} (hk : Keeps s0 s) :
    Keeps s0 (State.enterDone s n o) := by
  unfold State.enterDone
  try dsimp only
  with_reducible repeat' first
    | exact hk | apply State.waitFor_keeps | apply Ctx.handle_keeps | apply State.giveRecs_keeps | apply State.passMembers_keeps
    | apply State.complete_keeps | assumption | (intro _) | split

theorem State.enterOwned_keeps {n : Nat} {o : EngOp} {a : MatrixArray} (hk : Keeps s0 s) :
    Keeps s0 (State.enterOwned s n o a) := by
  unfold State.enterOwned
  try dsimp only
  with_reducible repeat' first
    | exact hk | apply State.waitFor_keeps | apply State.formPair_keeps | apply State.enterDone_keeps | apply State.enterChecked_keeps
    | apply State.trapMembers_keeps | apply State.dissolve_keeps | apply Ctx.handle_keeps | apply State.modOp_keeps
    | apply State.matchPair_keeps | apply Keeps.getD | assumption | (intro _) | split

theorem State.claimArray_keeps {core blk : Nat} (hk : Keeps s0 s) :
    Keeps s0 (State.claimArray s core blk) := by
  unfold State.claimArray
  try dsimp only
  with_reducible repeat' first | exact hk | apply State.setCore_keeps | assumption | (intro _) | split

theorem State.tryEnter_keeps {n : Nat} (hk : Keeps s0 s) :
    Keeps s0 (State.tryEnter s n) := by
  unfold State.tryEnter
  try dsimp only
  with_reducible repeat' first
    | exact hk | apply State.claimArray_keeps | apply State.waitFor_keeps | apply State.enterOwned_keeps | assumption | (intro _) | split

theorem State.freeFollow_keeps {n : Nat} (hk : Keeps s0 s) :
    Keeps s0 (State.freeFollow s n) := by
  unfold State.freeFollow
  try dsimp only
  with_reducible repeat' first
    | exact hk | apply Ctx.follow_keeps | apply State.setOp_keeps | apply State.tryEnter_keeps | assumption | (intro _) | split

theorem State.leaveOrder_keeps {n : Nat} {o : EngOp} (hk : Keeps s0 s) :
    Keeps s0 (State.leaveOrder s n o) := by
  unfold State.leaveOrder
  try dsimp only
  with_reducible repeat' first
    | exact hk | apply State.modArray_keeps | apply State.count_keeps | apply State.modOp_keeps | assumption | (intro _) | split

theorem State.withdraw_keeps {m : Nat} (hk : Keeps s0 s) :
    Keeps s0 (State.withdraw s m) := by
  unfold State.withdraw
  try dsimp only
  with_reducible repeat' first
    | exact hk | apply State.setOp_keeps | apply State.postDone_keeps | apply State.modArray_keeps | apply State.count_keeps
    | apply Keeps.getD | assumption | (intro _) | split

theorem State.abandonMma_keeps {o : EngOp} {c : Cause} {va : Nat} (hk : Keeps s0 s) :
    Keeps s0 (State.abandonMma s o c va) := by
  unfold State.abandonMma
  try dsimp only
  with_reducible repeat' first
    | exact hk | apply Ctx.eccReg_keeps | apply State.modArray_keeps | apply State.opEvent_keeps | apply State.opError_keeps | assumption
    | (intro _) | split

theorem State.drainTile_keeps {n : Nat} {o : EngOp} {l : Layout} {b rows cols : Nat} {code : Nat → Nat → Nat} (hk : Keeps s0 s) :
    Keeps s0 (State.drainTile s n o l b rows cols code) := by
  unfold State.drainTile
  try dsimp only
  with_reducible repeat' first
    | exact hk | apply State.opPadWrite_keeps | apply Keeps.foldl | apply Keeps.foldlPair | assumption | (intro _)

theorem State.drain_keeps {n : Nat} {o : EngOp} {a : MatrixArray} {bases : List Nat} {code : Nat → Nat → Nat} (hk : Keeps s0 s) :
    Keeps s0 (State.drain s n o a bases code) := by
  unfold State.drain
  try dsimp only
  with_reducible repeat' first
    | exact hk | apply State.modArray_keeps | apply State.opError_keeps | apply Ctx.eccReg_keeps | apply State.drainTile_keeps
    | apply State.count_keeps | apply State.opEvent_keeps | apply State.arrayDone_keeps | apply Keeps.getD | assumption | (intro _) | split

/-! ## Collective -/

theorem State.ripen_keeps {n : Nat} {o : EngOp} (hk : Keeps s0 s) :
    Keeps s0 (State.ripen s n o) := by
  unfold State.ripen
  try dsimp only
  with_reducible repeat' first
    | exact hk | apply State.name_keeps | apply State.setOp_keeps | apply State.checkCopy_keeps | assumption | (intro _) | split

theorem State.endCopy_keeps {n : Nat} (hk : Keeps s0 s) :
    Keeps s0 (State.endCopy s n) := by
  unfold State.endCopy
  have hp := State.postFlag_keeps (n := n) hk
  split
  · rename_i e
    rw [e] at hp
    exact hp
  · rename_i e
    rw [e] at hp
    split
    · exact hp
    · rename_i o ho
      extract_lets s1 s2
      have h1 : Keeps s0 s1 := State.opEvent_keeps (State.postDone_keeps hp)
      have h2 : Keeps s0 s2 := by
        unfold s2
        split
        · exact State.opEvent_keeps h1
        · exact h1
      clear_value s2
      split
      · split
        · exact State.withdraw_keeps h2
        · exact h2
      · exact h2

theorem State.tryStart_keeps {n : Nat} (hk : Keeps s0 s) :
    Keeps s0 (State.tryStart s n) := by
  unfold State.tryStart
  try dsimp only
  with_reducible repeat' first
    | exact hk | apply State.endCopy_keeps | apply State.complete_keeps | apply State.ripen_keeps | apply State.tryEnter_keeps
    | apply State.startCopy_keeps | apply State.acceptCopy_keeps | assumption | (intro _) | split

theorem State.syncDone_keeps {blk k : Nat} (hk : Keeps s0 s) :
    Keeps s0 (State.syncDone s blk k) := by
  unfold State.syncDone
  try dsimp only
  with_reducible repeat' first
    | exact hk | apply State.modStrand_keeps | apply Keeps.foldl | apply Keeps.foldlPair | assumption | (intro _) | split

theorem State.breakPairs_keeps {blk : Nat} {ks : List Nat} (hk : Keeps s0 s) :
    Keeps s0 (State.breakPairs s blk ks) := by
  unfold State.breakPairs
  try dsimp only
  with_reducible repeat' first
    | exact hk | apply State.trapMembers_keeps | apply Keeps.foldl | apply Keeps.foldlPair | assumption | (intro _) | split

theorem State.membership_keeps {blk : Nat} {ks : List Nat} (hk : Keeps s0 s) :
    Keeps s0 (State.membership s blk ks) := by
  unfold State.membership
  try dsimp only
  with_reducible repeat' first
    | exact hk | apply State.dissolve_keeps | apply State.breakPairs_keeps | apply State.syncDone_keeps | apply State.tryStart_keeps
    | apply Keeps.foldl | apply Keeps.foldlPair | assumption | (intro _) | split

theorem State.arrived_keeps {r : StrandRef} {n : Nat} (hk : Keeps s0 s) :
    (State.arrived s r n).Keeps s0 := by
  unfold State.arrived
  try dsimp only
  with_reducible repeat' first
    | exact hk | exact trivial | apply Verdict.keeps_done | apply Verdict.keeps_doneThen | apply Verdict.keeps_wait
    | apply Verdict.keeps_over | apply Verdict.keeps_trapIn | apply Ctx.handle_keeps | assumption | (intro _) | split

theorem Ctx.join_keeps {c : Ctx} {x : CollWord} {w : EngWord} {fo : Option EngWord} {is : List Instr} (hk : Keeps s0 c.s) :
    (Ctx.join c x w fo is).Keeps s0 := by
  unfold Ctx.join
  try dsimp only
  with_reducible repeat' first
    | exact hk | exact trivial | apply Verdict.keeps_done | apply Verdict.keeps_doneThen | apply Verdict.keeps_wait
    | apply Verdict.keeps_over | apply Verdict.keeps_trapIn | apply State.claimArray_keeps | apply State.setOp_keeps
    | apply State.name_keeps | apply State.modStrand_keeps | apply State.stall_keeps | apply State.tryStart_keeps
    | apply State.arrived_keeps | apply Keeps.foldl | apply Keeps.foldlPair | assumption | (intro _) | split

theorem Ctx.collect_keeps {c : Ctx} {x : CollWord} {more : List (Bool × Cause × Nat)} {fo : Option EngWord} {is : List Instr}
    (hk : Keeps s0 c.s) :
    (Ctx.collect c x more fo is).Keeps s0 := by
  unfold Ctx.collect
  try dsimp only
  repeat' first
    | with_reducible exact hk | exact trivial | with_reducible apply Verdict.keeps_done | with_reducible apply Verdict.keeps_doneThen
    | with_reducible apply Verdict.keeps_wait | with_reducible apply Verdict.keeps_over | with_reducible apply Verdict.keeps_trapIn
    | with_reducible apply State.tryStart_keeps | with_reducible apply State.arrived_keeps | with_reducible apply Ctx.trap_keeps
    | with_reducible apply Ctx.trapAll_keeps | with_reducible apply Ctx.join_keeps | with_reducible apply Keeps.getD
    | with_reducible assumption | (intro _) | split

theorem collWord_keeps {i : Instr} {x : CollWord} (hk : Keeps s0 s) :
    OutcomeKeeps s0 (collWord i x s) := by
  unfold collWord
  try dsimp only
  with_reducible repeat' first
    | exact hk | exact trivial | apply Verdict.keeps_done | apply Verdict.keeps_doneThen | apply Verdict.keeps_wait
    | apply Verdict.keeps_over | apply Verdict.keeps_trapIn | apply OutcomeKeeps.next | apply OutcomeKeeps.fault | apply word_keeps
    | apply State.stall_keeps | apply Ctx.collect_keeps | assumption | (intro _)

theorem State.reskein_keeps {r : StrandRef} {dest : Option Nat} (hk : Keeps s0 s) :
    Keeps s0 (State.reskein s r dest) := by
  unfold State.reskein
  try dsimp only
  with_reducible repeat' first | exact hk | apply State.setStrand_keeps | apply State.membership_keeps | assumption | (intro _) | split

theorem sknWord_keeps {i : Instr} {x : F} {g : Shape} {eff : Ctx → Verdict} (hk : Keeps s0 s) (heff : ∀ a0, Keeps s0 a0.s →
    (eff a0).Keeps s0) :
    OutcomeKeeps s0 (sknWord i x g eff s) := by
  unfold sknWord
  try dsimp only
  with_reducible repeat' first
    | exact hk | apply heff | exact trivial | apply Verdict.keeps_done | apply Verdict.keeps_doneThen | apply Verdict.keeps_wait
    | apply Verdict.keeps_over | apply Verdict.keeps_trapIn | apply OutcomeKeeps.next | apply OutcomeKeeps.fault | apply word_keeps

/-! ## EngineWords -/

theorem State.cprWrite_keeps {n dst size : Nat} {vs : List Nat} (hk : Keeps s0 s) :
    Keeps s0 (State.cprWrite s n dst size vs) := by
  unfold State.cprWrite
  exact Keeps.foldl (fun _ _ h => State.putUnit_keeps h fun _ h => h) hk

theorem State.cprDone_keeps {n : Nat} {o : EngOp} (hk : Keeps s0 s) :
    Keeps s0 (State.cprDone s n o) := by
  unfold State.cprDone
  try dsimp only
  with_reducible repeat' first | exact hk | apply State.postBytes_keeps | apply State.endCopy_keeps

theorem State.cprScatter_keeps {n : Nat} {o : EngOp} {whole : Bool} (hk : Keeps s0 s) :
    Keeps s0 (State.cprScatter s n o whole) := by
  unfold State.cprScatter
  try dsimp only
  with_reducible repeat' first
    | exact hk | apply State.count_keeps | apply State.opFault_keeps | (refine State.engWrite_keeps ?_ (by assumption)) | apply Keeps.foldl
    | apply Keeps.foldlPair | assumption | (intro _) | split | apply Keeps.upd

theorem State.cancelOp_keeps {n : Nat} (hk : Keeps s0 s) :
    Keeps s0 (State.cancelOp s n) := by
  unfold State.cancelOp
  try dsimp only
  with_reducible repeat' first
    | exact hk | apply State.passMembers_keeps | apply State.unpost_keeps | apply State.setOp_keeps | apply State.postDone_keeps
    | apply State.postBar_keeps | apply Ctx.arrive_keeps | apply State.opEvent_keeps | apply Ctx.follow_keeps | apply State.modOp_keeps
    | apply State.withdraw_keeps | apply Keeps.foldl | apply Keeps.foldlPair | assumption | (intro _) | split

/-! ## Control -/

theorem ctl_keeps {i : Instr} {h : Hdr} {g : Shape} {tune : Spec → Spec} {eff : Ctx → Verdict} (hk : Keeps s0 s)
    (heff : ∀ a0, Keeps s0 a0.s → (eff a0).Keeps s0) :
    OutcomeKeeps s0 (ctl i s h g tune eff) := by
  unfold ctl
  try dsimp only
  with_reducible repeat' first
    | exact hk | apply heff | exact trivial | apply Verdict.keeps_done | apply Verdict.keeps_doneThen | apply Verdict.keeps_wait
    | apply Verdict.keeps_over | apply Verdict.keeps_trapIn | apply OutcomeKeeps.next | apply OutcomeKeeps.fault | apply word_keeps

theorem Ctx.sigChecked_keeps {c : Ctx} {i : Instr} {ok : Strand → Verdict} (hk : Keeps s0 c.s) (hok : ∀ a0, (ok a0).Keeps s0) :
    (Ctx.sigChecked c i ok).Keeps s0 := by
  unfold Ctx.sigChecked
  try dsimp only
  with_reducible repeat' first
    | exact hk | apply hok | exact trivial | apply Verdict.keeps_done | apply Verdict.keeps_doneThen | apply Verdict.keeps_wait
    | apply Verdict.keeps_over | apply Verdict.keeps_trapIn | apply State.setStrand_keeps | apply Keeps.getD | assumption | (intro _)
    | split

/-! ## Strands -/

theorem State.dropLoads_keeps {r : StrandRef} {m : Word} {all : Bool} (hk : Keeps s0 s) :
    Keeps s0 (State.dropLoads s r m all) := by
  unfold State.dropLoads
  try dsimp only
  with_reducible repeat' first | exact hk | apply Ctx.store_keeps | assumption | (intro _) | split | apply Keeps.upd

theorem State.endStrand_keeps {r : StrandRef} (hk : Keeps s0 s) :
    Keeps s0 (State.endStrand s r) := by
  unfold State.endStrand
  try dsimp only
  with_reducible repeat' first
    | exact hk | apply State.setStrand_keeps | apply State.sweep_keeps | apply State.membership_keeps | apply State.endArrivals_keeps
    | apply State.noteStalls_keeps | apply State.unheard_keeps | assumption | (intro _) | split

/-! ## Boundary -/

theorem State.deliverFault_keeps {r : StrandRef} (hk : Keeps s0 s) :
    Keeps s0 (State.deliverFault s r) := by
  unfold State.deliverFault
  try dsimp only
  with_reducible repeat' first
    | exact hk | apply State.stall_keeps | apply State.setStrand_keeps | apply State.enterPriv_keeps | assumption | (intro _) | split

theorem State.boundaryCause_keeps {r : StrandRef} {k : Strand} {b : Block} {bad : Option Dword} (hk : Keeps s0 s) {out : State}
    (e : State.boundaryCause s r k b bad = some out) :
    Keeps s0 out := by
  unfold State.boundaryCause at e
  try dsimp only at e
  with_reducible repeat' first
    | split at e | cases e | exact hk | apply State.enterPriv_keeps | apply State.modStrand_keeps | apply State.deliverFault_keeps
    | apply State.enterUser_keeps

theorem State.comeToBoundary_keeps {r : StrandRef} {k : Strand} {b : Block} (hk : Keeps s0 s) :
    Keeps s0 (State.comeToBoundary s r k b).1 := by
  unfold State.comeToBoundary
  try dsimp only
  with_reducible repeat' first
    | exact hk | apply State.modStrand_keeps | apply Ctx.arrive_keeps | apply State.setStrand_keeps
    | (refine State.boundaryCause_keeps ?_ (by assumption)) | assumption | (intro _) | split

theorem State.visit_keeps {r : StrandRef} {ok : Strand → Block → Bool} (hk : Keeps s0 s) :
    Keeps s0 (State.visit s r ok) := by
  unfold State.visit
  try dsimp only
  with_reducible repeat' first | exact hk | apply State.comeToBoundary_keeps | assumption | (intro _) | split

theorem State.expire_keeps {r : StrandRef} {ok : Group → Bool} (hk : Keeps s0 s) :
    Keeps s0 (State.expire s r ok) := by
  unfold State.expire
  try dsimp only
  with_reducible repeat' first
    | exact hk | apply State.setStrand_keeps | apply State.emit_keeps | apply Keeps.foldl | apply Keeps.foldlPair | apply Keeps.getD
    | assumption | (intro _) | split

/-! ## Placement -/

theorem State.putBlock_keeps {l : Nat} {la : Launch} {index : Nat} {seat : Seat} {shadow : Bool} (hk : Keeps s0 s) :
    Keeps s0 (State.putBlock s l la index seat shadow).2 := by
  unfold State.putBlock
  try dsimp only
  with_reducible repeat' first
    | exact hk | apply State.name_keeps | apply State.count_keeps | apply State.emit_keeps | apply Keeps.getD | assumption | (intro _)
    | split | apply Keeps.upd

theorem State.placeFresh_keeps {l : Nat} {la : Launch} {index : Nat} (hk : Keeps s0 s) {out : State}
    (e : State.placeFresh s l la index = some out) :
    Keeps s0 out := by
  unfold State.placeFresh at e
  cases hx : s.freshSeats l la index with
  | none => simp [hx] at e
  | some p =>
    obtain ⟨p, q⟩ := p
    simp only [hx, Option.map_some, Option.some.injEq] at e
    subst e
    apply State.modLaunch_keeps
    split
    · exact State.putBlock_keeps hk
    · exact State.modBlock_keeps (State.modBlock_keeps (State.putBlock_keeps (State.putBlock_keeps hk)))

theorem State.placedOne_keeps {fe : Nat} (hk : Keeps s0 s) :
    Keeps s0 (State.placedOne s fe) := by
  unfold State.placedOne
  try dsimp only
  with_reducible repeat' first | exact hk | apply State.modFe_keeps

theorem State.verdict_keeps {blk : Nat} (hk : Keeps s0 s) :
    Keeps s0 (State.verdict s blk) := by
  unfold State.verdict
  try dsimp only
  with_reducible repeat' first
    | exact hk | apply State.setBlock_keeps | apply State.emit_keeps | apply State.modLaunch_keeps | apply Keeps.getD | assumption
    | (intro _) | split

theorem State.retire_keeps {blk : Nat} {b : Block} (hk : Keeps s0 s) :
    Keeps s0 (State.retire s blk b) := by
  unfold State.retire
  try dsimp only
  with_reducible repeat' first
    | exact hk | apply State.verdict_keeps | apply State.modBlock_keeps | apply State.modLaunch_keeps | apply State.dropStrands_keeps
    | apply State.setCore_keeps | apply State.noteStalls_keeps | apply State.emit_keeps | apply Keeps.getD | assumption | (intro _) | split
    | apply Keeps.upd

/-! ## Admission -/

theorem State.readmit_keeps  (hk : Keeps s0 s) :
    Keeps s0 (State.readmit s) := by
  unfold State.readmit
  try dsimp only
  with_reducible repeat' first
    | exact hk | apply State.modFe_keeps | apply State.emit_keeps | apply Keeps.foldl | apply Keeps.foldlPair | assumption | (intro _)
    | split

/-! ## Preempt -/

theorem State.preemptEvent_keeps {b : Block} {c : Cause} (hk : Keeps s0 s) :
    Keeps s0 (State.preemptEvent s b c) := by
  unfold State.preemptEvent
  try dsimp only
  with_reducible repeat' first | exact hk | apply State.emit_keeps

theorem State.haltBlock_keeps {blk : Nat} (hk : Keeps s0 s) :
    Keeps s0 (State.haltBlock s blk) := by
  unfold State.haltBlock
  try dsimp only
  with_reducible repeat' first | exact hk | apply State.modBlock_keeps

theorem State.flush_keeps {blk : Nat} {b : Block} (hk : Keeps s0 s) :
    Keeps s0 (State.flush s blk b) := by
  unfold State.flush
  try dsimp only
  with_reducible repeat' first
    | exact hk | apply State.abandonShadow_keeps | apply State.abandonPair_keeps | apply State.requeue_keeps
    | apply State.preemptEvent_keeps | apply State.count_keeps | apply Keeps.getD | assumption | (intro _) | split

theorem State.preempt_keeps {blk : Nat} (hk : Keeps s0 s) :
    Keeps s0 (State.preempt s blk) := by
  unfold State.preempt
  try dsimp only
  with_reducible repeat' first
    | exact hk | apply State.drain_keeps | apply State.setBlock_keeps | apply State.preemptEvent_keeps | apply State.flush_keeps
    | apply State.haltBlock_keeps | assumption | (intro _) | split

theorem State.preemptAll_keeps {fe : Nat} (hk : Keeps s0 s) :
    Keeps s0 (State.preemptAll s fe) := by
  unfold State.preemptAll
  try dsimp only
  with_reducible repeat' first | exact hk | apply State.preempt_keeps | apply Keeps.foldl | apply Keeps.foldlPair | assumption | (intro _)

theorem State.saveAll_keeps {fe : Nat} (hk : Keeps s0 s) :
    Keeps s0 (State.saveAll s fe) := by
  unfold State.saveAll
  try dsimp only
  with_reducible repeat' first
    | exact hk | apply State.haltBlock_keeps | apply Keeps.foldl | apply Keeps.foldlPair | assumption | (intro _) | split

theorem State.eachStrand_keeps {blk : Nat} {f : StrandRef → Strand → Strand} (hk : Keeps s0 s) :
    Keeps s0 (State.eachStrand s blk f) := by
  unfold State.eachStrand
  try dsimp only
  with_reducible repeat' first | exact hk | assumption | (intro _) | split | apply Keeps.upd

theorem State.saveOp_keeps {n : Nat} {o : EngOp} (hk : Keeps s0 s) :
    Keeps s0 (State.saveOp s n o) := by
  unfold State.saveOp
  try dsimp only
  with_reducible repeat' first
    | exact hk | apply State.unpost_keeps | apply State.setOp_keeps | apply State.opEvent_keeps | apply Ctx.follow_keeps
    | apply State.leaveOrder_keeps | apply State.modOp_keeps | apply Keeps.foldl | apply Keeps.foldlPair | assumption | (intro _) | split

theorem State.saveBlock_keeps {blk : Nat} {b : Block} (hk : Keeps s0 s) :
    Keeps s0 (State.saveBlock s blk b) := by
  unfold State.saveBlock
  try dsimp only
  with_reducible repeat' first
    | exact hk | apply State.eachStrand_keeps | apply State.saveOp_keeps | apply State.modBlock_keeps | apply State.setCore_keeps
    | apply State.noteStalls_keeps | apply State.preemptEvent_keeps | apply State.count_keeps | apply Keeps.foldl | apply Keeps.foldlPair
    | apply Keeps.getD | assumption | (intro _)

theorem State.endCmd_keeps {fe n : Nat} {c : Cmd} {cause : Cause} (hk : Keeps s0 s) :
    Keeps s0 (State.endCmd s fe n c cause) := by
  unfold State.endCmd
  try dsimp only
  with_reducible repeat' first | exact hk | apply State.modFe_keeps | apply State.completeCmd_keeps

theorem State.respread_keeps {fe : Nat} (hk : Keeps s0 s) :
    Keeps s0 (State.respread s fe) := by
  unfold State.respread
  try dsimp only
  with_reducible repeat' first | exact hk | apply Keeps.foldl | apply Keeps.foldlPair | assumption | (intro _) | split | apply Keeps.upd

theorem State.createPartition_keeps {fe : Nat} {r : PartRec} (hk : Keeps s0 s) :
    Keeps s0 (State.createPartition s fe r) := by
  unfold State.createPartition
  try dsimp only
  with_reducible repeat' first
    | exact hk | apply State.credit_keeps | apply State.setFe_keeps | apply State.flushTlb_keeps | apply State.emit_keeps
    | apply State.readmit_keeps

theorem State.putRecord_keeps {fe : Nat} {r : PartRec} (hk : Keeps s0 s) :
    Keeps s0 (State.putRecord s fe r) := by
  unfold State.putRecord
  try dsimp only
  with_reducible repeat' first
    | exact hk | apply State.credit_keeps | apply State.modFe_keeps | apply State.respread_keeps | apply State.readmit_keeps

theorem State.settle_keeps {fe : Nat} (hk : Keeps s0 s) :
    Keeps s0 (State.settle s fe) := by
  unfold State.settle
  try dsimp only
  with_reducible repeat' first
    | exact hk | apply State.emit_keeps | apply State.endCmd_keeps | apply State.putRecord_keeps | apply State.credit_keeps
    | apply State.modFe_keeps | assumption | (intro _) | split

theorem State.replayHeld_keeps {mine : Nat → Nat → Bool} (hk : Keeps s0 s) :
    Keeps s0 (State.replayHeld s mine) := by
  unfold State.replayHeld
  try dsimp only
  with_reducible repeat' first
    | exact hk | apply State.recommit_keeps | apply Keeps.foldl | apply Keeps.foldlPair | apply Keeps.getD | assumption | (intro _) | split
    | apply Keeps.upd

theorem State.restoreOp_keeps {core : Nat} {moves : List (Nat × Half × Nat × Half)} {n : Nat} {o : EngOp} (hk : Keeps s0 s) :
    Keeps s0 (State.restoreOp s core moves n o) := by
  unfold State.restoreOp
  try dsimp only
  with_reducible repeat' first | exact hk | apply State.setOp_keeps

theorem State.restoreBlock_keeps {blk : Nat} {b : Block} {seat : Seat} (hk : Keeps s0 s) :
    Keeps s0 (State.restoreBlock s blk b seat) := by
  unfold State.restoreBlock
  try dsimp only
  with_reducible repeat' first
    | exact hk | apply State.setCore_keeps | apply State.modBlock_keeps | apply State.eachStrand_keeps | apply State.restoreOp_keeps
    | apply State.replayHeld_keeps | apply State.noteStalls_keeps | apply State.preemptEvent_keeps | apply Keeps.foldl
    | apply Keeps.foldlPair | apply Keeps.getD | assumption | (intro _) | split | apply Keeps.upd

/-! ## FrontEnds -/

theorem State.beginCmd_keeps {fe i : Nat} {c : Cmd} (hk : Keeps s0 s) :
    Keeps s0 (State.beginCmd s fe i c) := by
  unfold State.beginCmd
  try dsimp only
  with_reducible repeat' first | exact hk | apply State.modFe_keeps | apply State.writeStatus_keeps

theorem State.startNext_keeps {fe : Nat} {want : Cmd → Bool} {go : State → Nat → Cmd → State} (hk : Keeps s0 s)
    (hgo : ∀ t n c, Keeps s0 t → Keeps s0 (go t n c)) :
    OutcomeKeeps s0 (State.startNext s fe want go) := by
  unfold State.startNext
  try dsimp only
  with_reducible repeat' first
    | exact hk | exact trivial | apply Verdict.keeps_done | apply Verdict.keeps_doneThen | apply Verdict.keeps_wait
    | apply Verdict.keeps_over | apply Verdict.keeps_trapIn | apply OutcomeKeeps.next | apply OutcomeKeeps.fault
    | apply State.beginCmd_keeps | apply State.completeCmd_keeps | apply State.name_keeps | apply State.modFe_keeps | assumption | (intro _)
    | apply hgo | apply State.name_keeps | apply State.modFe_keeps | apply State.beginCmd_keeps | split

theorem State.beginLaunch_keeps {n : Nat} {l : Launch} (hk : Keeps s0 s) :
    Keeps s0 (State.beginLaunch s n l) := by
  unfold State.beginLaunch
  try dsimp only
  with_reducible repeat' first | exact hk | apply State.name_keeps | apply State.setLaunch_keeps | apply State.modFe_keeps

theorem State.endLaunch_keeps {l : Nat} {la : Launch} (hk : Keeps s0 s) :
    Keeps s0 (State.endLaunch s l la) := by
  unfold State.endLaunch
  try dsimp only
  with_reducible repeat' first | exact hk | apply State.endCmd_keeps | apply Keeps.getD | assumption | (intro _) | split | apply Keeps.upd

theorem State.cmdAbsent_keeps {fe va : Nat} {write : Bool} (hk : Keeps s0 s) :
    Keeps s0 (State.cmdAbsent s fe va write) := by
  unfold State.cmdAbsent
  try dsimp only
  with_reducible repeat' first | exact hk | apply State.reportAbsent_keeps

theorem State.endSuspend_keeps {fe : Nat} (hk : Keeps s0 s) :
    Keeps s0 (State.endSuspend s fe) := by
  unfold State.endSuspend
  try dsimp only
  with_reducible repeat' first | exact hk | apply State.endCmd_keeps | assumption | (intro _) | split

theorem State.dirtyReport_keeps {fe va : Nat} (hk : Keeps s0 s) :
    Keeps s0 (State.dirtyReport s fe va) := by
  have hw : ∀ {s : State} {a : Nat} {bs : List Byte} {w : Author}, Keeps s0 s → Keeps s0 ((s.writeVa fe a bs w).getD s) :=
    fun h => Keeps.getD (fun _ e => State.writeVa_keeps h e) h
  unfold State.dirtyReport
  split
  · exact hk
  · extract_lets cap ps s1 s2
    have h2 : Keeps s0 s2 := hw (Keeps.foldl (fun _ _ h => hw h) hk)
    split
    · exact State.emit_keeps h2
    · exact h2

theorem State.beginStop_keeps {fe : Nat} {x : Stopping} (hk : Keeps s0 s) :
    Keeps s0 (State.beginStop s fe x) := by
  unfold State.beginStop
  try dsimp only
  with_reducible repeat' first
    | exact hk | apply State.endSuspend_keeps | apply State.modFe_keeps | apply State.killBlock_keeps | apply State.putRecord_keeps
    | apply Keeps.foldl | apply Keeps.foldlPair | assumption | (intro _) | split | apply Keeps.upd

theorem State.settleStop_keeps {fe : Nat} (hk : Keeps s0 s) :
    Keeps s0 (State.settleStop s fe) := by
  unfold State.settleStop
  split
  · exact hk
  split
  · exact hk
  · extract_lets s1 s2 s3 s4 s5 next s6
    have h3 : Keeps s0 s3 := by
      have h2 : Keeps s0 s2 := Keeps.foldl (fun _ _ h => State.endCmd_keeps h) hk.upd
      unfold s3
      split
      · exact State.dirtyReport_keeps h2
      · exact h2
    have h5 : Keeps s0 s5 := by
      unfold s5
      split
      · exact State.endCmd_keeps (State.modFe_keeps h3)
      · exact State.writeStatus_keeps (State.modFe_keeps h3)
    clear_value s5
    split
    · exact h5
    · have h6 : Keeps s0 s6 := State.readmit_keeps (State.setFe_keeps (State.emit_keeps (State.credit_keeps h5)))
      clear_value s6 next
      split
      · exact State.createPartition_keeps h6
      · exact h6

/-! ## Code -/

theorem State.fetchTrap_keeps {rs : List StrandRef} {cause : Cause} {line : Option Nat} (hk : Keeps s0 s) :
    Keeps s0 (State.fetchTrap s rs cause line) := by
  unfold State.fetchTrap
  try dsimp only
  with_reducible repeat' first
    | exact hk | apply State.enterPriv_keeps | apply Keeps.foldl | apply Keeps.foldlPair | apply Keeps.getD | assumption | (intro _) | split

theorem State.hashFail_keeps {rs : List StrandRef} (hk : Keeps s0 s) :
    Keeps s0 (State.hashFail s rs) := by
  unfold State.hashFail
  try dsimp only
  with_reducible repeat' first
    | exact hk | apply State.blockFails_keeps | apply Keeps.foldl | apply Keeps.foldlPair | assumption | (intro _) | split

theorem State.tagLine_keeps {fe : Nat} {o : CodeObject} {line : Nat} (hk : Keeps s0 s) :
    Keeps s0 (State.tagLine s fe o line) := by
  unfold State.tagLine
  split
  · split
    · exact State.write_keeps hk
    · exact hk
  · exact hk

/-! ## Float -/

theorem fpWord_keeps {i : Instr} {x : F} {srcs : List (BitVec 7)} {lat : Option Nat} {slots : Nat → Nat} {f : Ctx → Nat → JOut}
    (hk : Keeps s0 s) :
    OutcomeKeeps s0 (fpWord i x srcs lat slots f s) := by
  unfold fpWord
  try dsimp only
  with_reducible repeat' first
    | exact hk | exact trivial | apply Verdict.keeps_done | apply Verdict.keeps_doneThen | apply Verdict.keeps_wait
    | apply Verdict.keeps_over | apply Verdict.keeps_trapIn | apply OutcomeKeeps.next | apply OutcomeKeeps.fault | apply alu_keeps

theorem fpImm_keeps {i : Instr} {x : I} {slots : Nat → Nat} {f : Nat → Bool → Rm → Jet → Jet → JOut} (hk : Keeps s0 s) :
    OutcomeKeeps s0 (fpImm i x slots f s) := by
  unfold fpImm
  try dsimp only
  with_reducible repeat' first
    | exact hk | exact trivial | apply Verdict.keeps_done | apply Verdict.keeps_doneThen | apply Verdict.keeps_wait
    | apply Verdict.keeps_over | apply Verdict.keeps_trapIn | apply OutcomeKeeps.next | apply OutcomeKeeps.fault | apply alu_keeps

theorem twoWord_keeps {i : Instr} {x : F} {prod : Bool} (hk : Keeps s0 s) :
    OutcomeKeeps s0 (twoWord i x prod s) := by
  unfold twoWord
  try dsimp only
  with_reducible repeat' first
    | exact hk | exact trivial | apply Verdict.keeps_done | apply Verdict.keeps_doneThen | apply Verdict.keeps_wait
    | apply Verdict.keeps_over | apply Verdict.keeps_trapIn | apply OutcomeKeeps.next | apply OutcomeKeeps.fault | apply alu_keeps

theorem qntWord_keeps {i : Instr} {x : F} {z : Bool} (hk : Keeps s0 s) :
    OutcomeKeeps s0 (qntWord i x z s) := by
  unfold qntWord
  try dsimp only
  with_reducible repeat' first
    | exact hk | exact trivial | apply Verdict.keeps_done | apply Verdict.keeps_doneThen | apply Verdict.keeps_wait
    | apply Verdict.keeps_over | apply Verdict.keeps_trapIn | apply OutcomeKeeps.next | apply OutcomeKeeps.fault | apply alu_keeps

/-! ## Integer -/

theorem int2_keeps {i : Instr} {x : F} {lat : Nat} {f : Word → Word → Word} (hk : Keeps s0 s) :
    OutcomeKeeps s0 (int2 i x lat f s) := by
  unfold int2
  try dsimp only
  with_reducible repeat' first
    | exact hk | exact trivial | apply Verdict.keeps_done | apply Verdict.keeps_doneThen | apply Verdict.keeps_wait
    | apply Verdict.keeps_over | apply Verdict.keeps_trapIn | apply OutcomeKeeps.next | apply OutcomeKeeps.fault | apply alu_keeps

theorem int1_keeps {i : Instr} {x : F} {f : Word → Word} (hk : Keeps s0 s) :
    OutcomeKeeps s0 (int1 i x f s) := by
  unfold int1
  try dsimp only
  with_reducible repeat' first
    | exact hk | exact trivial | apply Verdict.keeps_done | apply Verdict.keeps_doneThen | apply Verdict.keeps_wait
    | apply Verdict.keeps_over | apply Verdict.keeps_trapIn | apply OutcomeKeeps.next | apply OutcomeKeeps.fault | apply alu_keeps

/-! ## Manage -/

theorem State.managed_keeps {c : Cause} (hk : Keeps s0 s) :
    Keeps s0 (State.managed s c) := by
  unfold State.managed
  try dsimp only
  with_reducible repeat' first | exact hk | assumption | (intro _) | split | apply Keeps.upd

theorem State.disable_keeps {fe : Nat} (hk : Keeps s0 s) :
    Keeps s0 (State.disable s fe) := by
  unfold State.disable
  try dsimp only
  with_reducible repeat' first
    | exact hk | apply State.modFe_keeps | apply State.settleStop_keeps | apply State.beginStop_keeps | assumption | (intro _) | split

theorem State.tuneCluster_keeps {n : Nat} {f : Cluster → Cluster} (hk : Keeps s0 s) :
    Keeps s0 (State.tuneCluster s n f) := by
  unfold State.tuneCluster
  try dsimp only
  with_reducible repeat' first | exact hk | apply Keeps.getD | assumption | (intro _) | split | apply Keeps.upd

theorem State.retireCluster_keeps {n : Nat} (hk : Keeps s0 s) :
    Keeps s0 (State.retireCluster s n) := by
  unfold State.retireCluster
  try dsimp only
  with_reducible repeat' first
    | exact hk | apply State.emitAll_keeps | apply State.haltBlock_keeps | apply State.readmit_keeps | apply Keeps.foldl
    | apply Keeps.foldlPair | assumption | (intro _) | split | apply Keeps.upd

theorem State.ageCluster_keeps {r : AgeReading} (hk : Keeps s0 s) :
    Keeps s0 (State.ageCluster s r) := by
  unfold State.ageCluster
  try dsimp only
  with_reducible repeat' first
    | exact hk | apply State.emitAll_keeps | apply State.retireCluster_keeps | apply State.tuneCluster_keeps | assumption | (intro _)
    | split

theorem State.setRates_keeps {rate : Cluster → Nat} (hk : Keeps s0 s) :
    Keeps s0 (State.setRates s rate) := by
  unfold State.setRates
  try dsimp only
  with_reducible repeat' first | exact hk | apply Keeps.getD | assumption | (intro _) | split | apply Keeps.upd

/-! ## Moves -/

theorem immWord_keeps {i : Instr} {x : I} {src : List (BitVec 7)} {f : Word → Word → Word} (hk : Keeps s0 s) :
    OutcomeKeeps s0 (immWord i x src f s) := by
  unfold immWord
  try dsimp only
  with_reducible repeat' first
    | exact hk | exact trivial | apply Verdict.keeps_done | apply Verdict.keeps_doneThen | apply Verdict.keeps_wait
    | apply Verdict.keeps_over | apply Verdict.keeps_trapIn | apply OutcomeKeeps.next | apply OutcomeKeeps.fault | apply alu_keeps

/-! ## Pairs -/

theorem PHalf.access_keeps {p : PHalf} {c : Ctx} (hk : Keeps s0 c.s) :
    (PHalf.access p c).Keeps s0 := by
  have h1 : Keeps s0 (PHalf.ctx p c).s := hk
  unfold PHalf.access
  try dsimp only
  split
  · exact h1
  · apply Ctx.storage_keeps h1
    intro ts
    try dsimp only
    split
    · exact Ctx.store_keeps h1
    · exact Ctx.issue_keeps h1

theorem PHalf.verdict_keeps {p : PHalf} {c : Ctx} (hk : Keeps s0 c.s) :
    (PHalf.verdict p c).Keeps s0 := by
  unfold PHalf.verdict
  try dsimp only
  repeat' first
    | with_reducible exact hk | exact trivial | with_reducible apply Verdict.keeps_done | with_reducible apply Verdict.keeps_doneThen
    | with_reducible apply Verdict.keeps_wait | with_reducible apply Verdict.keeps_over | with_reducible apply Verdict.keeps_trapIn
    | with_reducible apply Ctx.trap_keeps | with_reducible apply PHalf.access_keeps | with_reducible assumption | (intro _) | split

/-! ## Sampler -/

theorem State.dropSample_keeps {n : Nat} (hk : Keeps s0 s) :
    Keeps s0 (State.dropSample s n) := by
  unfold State.dropSample
  try dsimp only
  with_reducible repeat' first | exact hk | assumption | (intro _) | split | apply Keeps.upd

theorem State.sampleFault_keeps {o : SampleOp} {c : Cause} {va : Nat} (hk : Keeps s0 s) :
    Keeps s0 (State.sampleFault s o c va) := by
  unfold State.sampleFault
  try dsimp only
  with_reducible repeat' first | exact hk | apply State.asyncFault_keeps

theorem State.sampleFaults_keeps {o : SampleOp} {bad : List (Cause × Nat)} (hk : Keeps s0 s) :
    Keeps s0 (State.sampleFaults s o bad) := by
  unfold State.sampleFaults
  try dsimp only
  with_reducible repeat' first
    | exact hk | apply State.sampleFault_keeps | apply Keeps.foldl | apply Keeps.foldlPair | assumption | (intro _) | split

theorem State.holdSample_keeps {n : Nat} {o : SampleOp} {va : Nat} (hk : Keeps s0 s) :
    Keeps s0 (State.holdSample s n o va) := by
  unfold State.holdSample
  try dsimp only
  with_reducible repeat' first | exact hk | apply State.refault_keeps | assumption | (intro _) | split | apply Keeps.upd

theorem sampleWord_keeps {i : Instr} {x : F} {lod : Bool} (hk : Keeps s0 s) :
    OutcomeKeeps s0 (sampleWord i x lod s) := by
  unfold sampleWord
  try dsimp only
  with_reducible repeat' first
    | exact hk | exact trivial | apply Verdict.keeps_done | apply Verdict.keeps_doneThen | apply Verdict.keeps_wait
    | apply Verdict.keeps_over | apply Verdict.keeps_trapIn | apply OutcomeKeeps.next | apply OutcomeKeeps.fault | apply word_keeps
    | apply Ctx.trapAll_keeps | apply State.name_keeps | apply State.nextPo_keeps | apply Keeps.foldl | apply Keeps.foldlPair | assumption
    | (intro _) | split | apply Keeps.upd

theorem Ctx.serve_keeps {c : Ctx} {release : Bool} {what : Request} {wait : Option Stall} (hk : Keeps s0 c.s) :
    (Ctx.serve c release what wait).Keeps s0 := by
  unfold Ctx.serve
  try dsimp only
  with_reducible repeat' first
    | exact hk | exact trivial | apply Verdict.keeps_done | apply Verdict.keeps_doneThen | apply Verdict.keeps_wait
    | apply Verdict.keeps_over | apply Verdict.keeps_trapIn | apply State.modStrand_keeps | apply State.name_keeps
    | apply Ctx.committed_keeps | assumption | (intro _) | split | apply Keeps.upd

theorem State.dropService_keeps {n : Nat} (hk : Keeps s0 s) :
    Keeps s0 (State.dropService s n) := by
  unfold State.dropService
  try dsimp only
  with_reducible repeat' first | exact hk | assumption | (intro _) | split | apply Keeps.upd

theorem State.served_keeps {n : Nat} {o : ServiceOp} (hk : Keeps s0 s) :
    Keeps s0 (State.served s n o) := by
  unfold State.served
  try dsimp only
  with_reducible repeat' first | exact hk | apply State.dropService_keeps | apply State.modStrand_keeps

theorem State.serviceTrap_keeps {n : Nat} {o : ServiceOp} {c : Cause} (hk : Keeps s0 s) :
    Keeps s0 (State.serviceTrap s n o c) := by
  unfold State.serviceTrap
  try dsimp only
  with_reducible repeat' first | exact hk | apply State.dropService_keeps | apply State.trapWaiting_keeps

theorem State.holdService_keeps {n : Nat} {o : ServiceOp} {va kind : Nat} (hk : Keeps s0 s) :
    Keeps s0 (State.holdService s n o va kind) := by
  unfold State.holdService
  try dsimp only
  with_reducible repeat' first
    | exact hk | apply State.refault_keeps | apply State.modStrand_keeps | assumption | (intro _) | split | apply Keeps.upd

theorem State.serviceRan_keeps {o : ServiceOp} {r : Ran} (hk : Keeps s0 s) :
    Keeps s0 (State.serviceRan s o r) := by
  unfold State.serviceRan
  try dsimp only
  with_reducible repeat' first | exact hk | apply State.modStrand_keeps

theorem State.serviceFault_keeps {n : Nat} {o : ServiceOp} {c : Cause} {va : Nat} (hk : Keeps s0 s) :
    Keeps s0 (State.serviceFault s n o c va) := by
  unfold State.serviceFault
  try dsimp only
  with_reducible repeat' first | exact hk | apply State.asyncFault_keeps | apply State.served_keeps

theorem State.serviceRead_keeps {n : Nat} {o : ServiceOp} {kind va len : Nat} {go : State → List Byte → State} (hk : Keeps s0 s)
    (hgo : ∀ t bs, Keeps s0 t → Keeps s0 (go t bs)) :
    Keeps s0 (State.serviceRead s n o kind va len go) := by
  unfold State.serviceRead
  split
  · exact State.holdService_keeps hk
  · exact State.serviceFault_keeps hk
  · exact hgo _ _ (State.countAt_keeps (State.serviceRan_keeps hk))

theorem State.bindAt_keeps {fe point : Nat} {f : Table Nat (BitVec 512) → Table Nat (BitVec 512)} (hk : Keeps s0 s) :
    Keeps s0 (State.bindAt s fe point f) := by
  unfold State.bindAt
  try dsimp only
  with_reducible repeat' first | exact hk | apply State.modFe_keeps

theorem texbWord_keeps {i : Instr} {x : F} {g : Shape} {bad : Ctx → Option Nat} {what : Ctx → Request} (hk : Keeps s0 s) :
    OutcomeKeeps s0 (texbWord i x g bad what s) := by
  unfold texbWord
  apply word_keeps hk
  intro c hc
  try dsimp only
  split
  · exact hc
  · split
    · trivial
    · split
      · exact hc
      · exact Ctx.serve_keeps hc

/-! ## System -/

theorem sysWord_keeps {i : Instr} {h : Hdr} {g : Shape} {user : Bool} {tune : Spec → Spec} {eff : Ctx → Verdict} (hk : Keeps s0 s)
    (heff : ∀ a0, Keeps s0 a0.s → (eff a0).Keeps s0) :
    OutcomeKeeps s0 (sysWord i h g user tune eff s) := by
  unfold sysWord
  try dsimp only
  with_reducible repeat' first
    | exact hk | apply heff | exact trivial | apply Verdict.keeps_done | apply Verdict.keeps_doneThen | apply Verdict.keeps_wait
    | apply Verdict.keeps_over | apply Verdict.keeps_trapIn | apply OutcomeKeeps.next | apply OutcomeKeeps.fault | apply word_keeps

theorem tretWord_keeps {i : Instr} {x : F} {eff : Ctx → Strand → Verdict} (hk : Keeps s0 s) (heff : ∀ a0 a1, Keeps s0 a0.s →
    (eff a0 a1).Keeps s0) :
    OutcomeKeeps s0 (tretWord i x eff s) := by
  unfold tretWord
  try dsimp only
  with_reducible repeat' first
    | exact hk | apply heff | exact trivial | apply Verdict.keeps_done | apply Verdict.keeps_doneThen | apply Verdict.keeps_wait
    | apply Verdict.keeps_over | apply Verdict.keeps_trapIn | apply OutcomeKeeps.next | apply OutcomeKeeps.fault | apply word_keeps
    | apply State.drain_keeps | apply State.setStrand_keeps | apply Ctx.misaligned_keeps | apply Ctx.sigChecked_keeps | assumption
    | (intro _) | split

theorem State.setSb_keeps {r : StrandRef} {on : Bool} (hk : Keeps s0 s) :
    Keeps s0 (State.setSb s r on) := by
  unfold State.setSb
  try dsimp only
  with_reducible repeat' first | exact hk | apply State.modBlock_keeps | apply State.stopOthers_keeps

theorem State.crWrite_keeps {r t : StrandRef} {i : Nat} {v : Dword} (hk : Keeps s0 s) :
    Keeps s0 (State.crWrite s r t i v) := by
  unfold State.crWrite
  try dsimp only
  with_reducible repeat' first
    | exact hk | apply State.modStrand_keeps | apply State.modBlock_keeps | apply State.setSb_keeps | apply Keeps.getD | assumption
    | (intro _) | split

theorem Selector.write_keeps {x : Selector} {r t : StrandRef} {k : Strand} {b : Block} {la : Launch} {w : Word} (hk : Keeps s0 s)
    {out : State} (e : Selector.write x s r t k b la w = some out) :
    Keeps s0 out := by
  unfold Selector.write at e
  split at e
  · split at e
    · split at e
      · cases e
      · cases e; exact State.crWrite_keeps hk
    · cases e
  · split at e
    · cases e; exact State.writeH_keeps hk
    · cases e
  · cases hx : x.put k la w with
    | none => simp [hx] at e
    | some k' => simp only [hx, Option.map_some, Option.some.injEq] at e; exact e ▸ State.setStrand_keeps hk

theorem Ctx.target_keeps {c : Ctx} {x : Selector} {ok : Strand → Bool} {go : StrandRef → Strand → Verdict} (hk : Keeps s0 c.s)
    (hgo : ∀ a0 a1, (go a0 a1).Keeps s0) :
    (Ctx.target c x ok go).Keeps s0 := by
  unfold Ctx.target
  try dsimp only
  with_reducible repeat' first
    | exact hk | apply hgo | exact trivial | apply Verdict.keeps_done | apply Verdict.keeps_doneThen | apply Verdict.keeps_wait
    | apply Verdict.keeps_over | apply Verdict.keeps_trapIn | apply Ctx.trapAll_keeps | assumption | (intro _) | split

theorem State.dropLines_keeps {fe a n : Nat} (hk : Keeps s0 s) :
    Keeps s0 (State.dropLines s fe a n) := by
  unfold State.dropLines
  try dsimp only
  with_reducible repeat' first | exact hk | assumption | (intro _) | split | apply Keeps.upd

/-! ## Tables -/

theorem Ctx.tdeOk_keeps {c : Ctx} {x : F} {inval : Bool} {go : Verdict} (hk : Keeps s0 c.s) (hgo :  go.Keeps s0) :
    (Ctx.tdeOk c x inval go).Keeps s0 := by
  unfold Ctx.tdeOk
  try dsimp only
  repeat' first
    | with_reducible exact hk | with_reducible apply hgo | exact trivial | with_reducible apply Verdict.keeps_done
    | with_reducible apply Verdict.keeps_doneThen | with_reducible apply Verdict.keeps_wait | with_reducible apply Verdict.keeps_over
    | with_reducible apply Verdict.keeps_trapIn | with_reducible apply Ctx.trapAll_keeps | with_reducible apply Ctx.trap_keeps
    | with_reducible apply Ctx.misaligned_keeps | with_reducible assumption | (intro _) | split

theorem tdeWord_keeps {i : Instr} {x : F} {g : Shape} {inval noShadow release : Bool} {what : Ctx → Request} (hk : Keeps s0 s) :
    OutcomeKeeps s0 (tdeWord i x g inval noShadow release what s) := by
  unfold tdeWord
  try dsimp only
  with_reducible repeat' first
    | exact hk | exact trivial | apply Verdict.keeps_done | apply Verdict.keeps_doneThen | apply Verdict.keeps_wait
    | apply Verdict.keeps_over | apply Verdict.keeps_trapIn | apply OutcomeKeeps.next | apply OutcomeKeeps.fault | apply word_keeps
    | apply Ctx.tdeOk_keeps | apply Ctx.serve_keeps | assumption | (intro _) | split

theorem State.setTde_keeps {fe tid : Nat} {e : BitVec 512} (hk : Keeps s0 s) :
    Keeps s0 (State.setTde s fe tid e) := by
  unfold State.setTde
  try dsimp only
  with_reducible repeat' first | exact hk | apply State.modFe_keeps

theorem State.serviceWrote_keeps {n : Nat} {o : ServiceOp} (hk : Keeps s0 s) :
    Keeps s0 (State.serviceWrote s n o) := by
  unfold State.serviceWrote
  try dsimp only
  with_reducible repeat' first | exact hk | apply State.modStrand_keeps | apply State.served_keeps

theorem State.serviceWrite_keeps {n : Nat} {o : ServiceOp} {va : Nat} {bs : List Byte} (hk : Keeps s0 s) :
    Keeps s0 (State.serviceWrite s n o va bs) := by
  unfold State.serviceWrite
  extract_lets contained
  split
  · split
    · exact hk
    · have h := State.bufferFrom_keeps (w := ⟨o.strand, o.pc, o.mask, o.region, 4⟩) (busy := false) (es := [.store va bs]) (n := 0) hk
      split <;> rename_i he <;> rw [he] at h
      · exact State.served_keeps h
      · exact h
  · split
    · exact State.holdService_keeps hk
    · exact State.serviceFault_keeps hk
    · exact State.serviceWrote_keeps (State.traffic_keeps (State.countMem_keeps (State.writePage_keeps hk)))

/-! ## Issue -/

theorem State.holdFetch_keeps {r : StrandRef} {k : Strand} {b : Block} {la : Launch} (hk : Keeps s0 s) :
    Keeps s0 (State.holdFetch s r k b la) := by
  unfold State.holdFetch
  try dsimp only
  with_reducible repeat' first | exact hk | apply State.refault_keeps | apply State.setStrand_keeps

theorem State.lapse_keeps {r : StrandRef} (hk : Keeps s0 s) :
    Keeps s0 (State.lapse s r) := by
  unfold State.lapse
  try dsimp only
  with_reducible repeat' first | exact hk | apply State.expire_keeps | apply State.wakeSlept_keeps

theorem State.unstalled_keeps {r : StrandRef} (hk : Keeps s0 s) :
    Keeps s0 (State.unstalled s r) := by
  unfold State.unstalled
  try dsimp only
  with_reducible repeat' first | exact hk | apply State.modStrand_keeps | assumption | (intro _) | split | apply Keeps.upd

theorem State.tookLane_keeps {x : Act} {old : Lane} (hk : Keeps s0 s) :
    Keeps s0 (State.tookLane s x old) := by
  unfold State.tookLane
  try dsimp only
  with_reducible repeat' first | exact hk | apply State.passOver_keeps | apply Keeps.getD | assumption | (intro _) | split | apply Keeps.upd

theorem State.observe_keeps  (hk : Keeps s0 s) :
    Keeps s0 (State.observe s) := by
  unfold State.observe
  try dsimp only
  with_reducible repeat' first | exact hk | apply State.modStrand_keeps | apply Keeps.foldl | apply Keeps.foldlPair | assumption | (intro _)

/-! ## Ecc -/

theorem State.upsetReg_keeps {r : StrandRef} {l : Loc} {t : Nat} (hk : Keeps s0 s) :
    Keeps s0 (State.upsetReg s r l t) := by
  unfold State.upsetReg
  try dsimp only
  with_reducible repeat' first | exact hk | apply State.modStrand_keeps | assumption | (intro _) | split

theorem State.upsetMask_keeps {r : StrandRef} {m t : Nat} (hk : Keeps s0 s) :
    Keeps s0 (State.upsetMask s r m t) := by
  unfold State.upsetMask
  try dsimp only
  with_reducible repeat' first | exact hk | apply State.modStrand_keeps

theorem State.tellCore_keeps {core : Nat} {c : Cause} (hk : Keeps s0 s) :
    Keeps s0 (State.tellCore s core c) := by
  unfold State.tellCore
  try dsimp only
  with_reducible repeat' first | exact hk | apply State.emit_keeps | assumption | (intro _) | split

theorem State.corrected_keeps {kind unit : Nat} (hk : Keeps s0 s) :
    Keeps s0 (State.corrected s kind unit) := by
  unfold State.corrected
  try dsimp only
  with_reducible repeat' first
    | exact hk | apply State.emit_keeps | apply State.tellCore_keeps | apply Keeps.foldl | apply Keeps.foldlPair | assumption | (intro _)
    | split

theorem State.readCounter_keeps {fe i : Nat} (hk : Keeps s0 s) :
    Keeps s0 (State.readCounter s fe i) := by
  unfold State.readCounter
  try dsimp only
  with_reducible repeat' first | exact hk | apply State.credit_keeps | assumption | (intro _) | split | apply Keeps.upd

/-! ## Step -/

theorem State.upset_keeps {s : State} {u : Upset} (hk : Keeps s0 s) : Keeps s0 (s.upset u) := by
  unfold State.upset
  split <;> try dsimp only
  · split
    · exact hk.upd
    · exact hk
  · exact hk.upd
  · exact State.upsetReg_keeps hk
  · exact State.upsetMask_keeps hk
  · exact State.modArray_keeps hk
  · exact State.modArray_keeps hk
  · exact State.modBlock_keeps hk
  · split
    · exact State.emit_keeps (State.setCore_keeps hk)
    · exact hk
  · exact State.tellCore_keeps hk
  · exact State.modBlock_keeps hk
  · exact State.corrected_keeps hk
  · exact State.modFe_keeps hk
  · exact hk.upd
  · split
    · exact hk
    · exact hk.upd
  · exact State.readCounter_keeps hk

theorem State.tock_keeps  (hk : Keeps s0 s) :
    Keeps s0 (State.tock s) := by
  unfold State.tock
  try dsimp only
  with_reducible repeat' first | exact hk | assumption | (intro _) | split | apply Keeps.upd

end Sys2Proof.Machine
end

