-- ==== Sys2Proof/Laws/KeepsWords.lean ====
section
/-!
SUPPORT. What every word and every event keeps: its meaning answers no next state that loses the form of Safety.lean's `State.Inv`, or
in which device time has gone back. The proofs go through the operations of Laws/Keeps.lean.
-/
set_option Elab.async false
namespace Sys2Proof.Machine
open Sys2Proof.Fp (Flags JOut Rm Jet)

variable {s0 s : State}

/-! ## Memory -/

theorem execLd_keeps {x : M} (hk : Keeps s0 s) :
    OutcomeKeeps s0 (execLd x s) := by
  unfold execLd
  try dsimp only
  with_reducible repeat' first
    | exact hk | exact trivial | apply Verdict.keeps_done | apply Verdict.keeps_doneThen | apply Verdict.keeps_wait
    | apply Verdict.keeps_over | apply Verdict.keeps_trapIn | apply OutcomeKeeps.next | apply OutcomeKeeps.fault | apply word_keeps
    | apply Ctx.storage_keeps | apply Ctx.issue_keeps | assumption | (intro _)

theorem execSt_keeps {x : M} (hk : Keeps s0 s) :
    OutcomeKeeps s0 (execSt x s) := by
  unfold execSt
  try dsimp only
  with_reducible repeat' first
    | exact hk | exact trivial | apply Verdict.keeps_done | apply Verdict.keeps_doneThen | apply Verdict.keeps_wait
    | apply Verdict.keeps_over | apply Verdict.keeps_trapIn | apply OutcomeKeeps.next | apply OutcomeKeeps.fault | apply word_keeps
    | apply Ctx.storage_keeps | apply Ctx.store_keeps | assumption | (intro _)

theorem execAtom_keeps {fn : Fin 9} {x : F} (hk : Keeps s0 s) :
    OutcomeKeeps s0 (execAtom fn x s) := by
  unfold execAtom
  try dsimp only
  with_reducible repeat' first
    | exact hk | exact trivial | apply Verdict.keeps_done | apply Verdict.keeps_doneThen | apply Verdict.keeps_wait
    | apply Verdict.keeps_over | apply Verdict.keeps_trapIn | apply OutcomeKeeps.next | apply OutcomeKeeps.fault | apply rmwWord_keeps

theorem execCas_keeps {x : F} (hk : Keeps s0 s) :
    OutcomeKeeps s0 (execCas x s) := by
  unfold execCas
  try dsimp only
  with_reducible repeat' first
    | exact hk | exact trivial | apply Verdict.keeps_done | apply Verdict.keeps_doneThen | apply Verdict.keeps_wait
    | apply Verdict.keeps_over | apply Verdict.keeps_trapIn | apply OutcomeKeeps.next | apply OutcomeKeeps.fault | apply rmwWord_keeps

theorem execFxadd_keeps {x : F} (hk : Keeps s0 s) :
    OutcomeKeeps s0 (execFxadd x s) := by
  unfold execFxadd
  try dsimp only
  with_reducible repeat' first
    | exact hk | exact trivial | apply Verdict.keeps_done | apply Verdict.keeps_doneThen | apply Verdict.keeps_wait
    | apply Verdict.keeps_over | apply Verdict.keeps_trapIn | apply OutcomeKeeps.next | apply OutcomeKeeps.fault | apply word_keeps
    | apply Ctx.cell_keeps | apply Ctx.storage_keeps | apply Ctx.store_keeps | assumption | (intro _)

theorem execFxrdRead_keeps {x : F} (hk : Keeps s0 s) :
    OutcomeKeeps s0 (execFxrdRead x s) := by
  unfold execFxrdRead
  try dsimp only
  with_reducible repeat' first
    | exact hk | exact trivial | apply Verdict.keeps_done | apply Verdict.keeps_doneThen | apply Verdict.keeps_wait
    | apply Verdict.keeps_over | apply Verdict.keeps_trapIn | apply OutcomeKeeps.next | apply OutcomeKeeps.fault | apply fxrdWord_keeps

theorem execFxrdClr_keeps {x : F} (hk : Keeps s0 s) :
    OutcomeKeeps s0 (execFxrdClr x s) := by
  unfold execFxrdClr
  try dsimp only
  with_reducible repeat' first
    | exact hk | exact trivial | apply Verdict.keeps_done | apply Verdict.keeps_doneThen | apply Verdict.keeps_wait
    | apply Verdict.keeps_over | apply Verdict.keeps_trapIn | apply OutcomeKeeps.next | apply OutcomeKeeps.fault | apply fxrdWord_keeps

theorem execAccessPerformed_keeps {n : Nat} (hk : Keeps s0 s) :
    OutcomeKeeps s0 (execAccessPerformed n s) := by
  unfold execAccessPerformed
  try dsimp only
  with_reducible repeat' first
    | exact hk | exact trivial | apply Verdict.keeps_done | apply Verdict.keeps_doneThen | apply Verdict.keeps_wait
    | apply Verdict.keeps_over | apply Verdict.keeps_trapIn | apply OutcomeKeeps.next | apply OutcomeKeeps.fault | apply State.perform_keeps
    | assumption | (intro _) | split

/-! ## Quorum -/

theorem execQld_keeps {x : M} (hk : Keeps s0 s) :
    OutcomeKeeps s0 (execQld x s) := by
  unfold execQld
  try dsimp only
  with_reducible repeat' first
    | exact hk | exact trivial | apply Verdict.keeps_done | apply Verdict.keeps_doneThen | apply Verdict.keeps_wait
    | apply Verdict.keeps_over | apply Verdict.keeps_trapIn | apply OutcomeKeeps.next | apply OutcomeKeeps.fault | apply word_keeps
    | apply Ctx.quorumCell_keeps | apply Ctx.storage_keeps | apply Ctx.committed_keeps | apply State.addQuorums_keeps
    | apply State.nextPo_keeps | assumption | (intro _)

theorem execQst_keeps {x : M} (hk : Keeps s0 s) :
    OutcomeKeeps s0 (execQst x s) := by
  unfold execQst
  try dsimp only
  with_reducible repeat' first
    | exact hk | exact trivial | apply Verdict.keeps_done | apply Verdict.keeps_doneThen | apply Verdict.keeps_wait
    | apply Verdict.keeps_over | apply Verdict.keeps_trapIn | apply OutcomeKeeps.next | apply OutcomeKeeps.fault | apply word_keeps
    | apply Ctx.quorumCell_keeps | apply Ctx.storage_keeps | apply Ctx.committed_keeps | apply State.emit_keeps | apply State.setCore_keeps
    | apply State.addQuorums_keeps | apply State.nextPo_keeps | assumption | (intro _) | split

theorem State.oneStore_keeps {n : Nat} {q : QuorumOp} {s : State} (hk : Keeps s0 s) : Keeps s0 (s.oneStore n q).1 := by
  unfold State.oneStore
  exact hk.upd

theorem execQuorumAnswer_keeps {n i : Nat} (hk : Keeps s0 s) :
    OutcomeKeeps s0 (execQuorumAnswer n i s) := by
  unfold execQuorumAnswer
  split
  · apply OutcomeKeeps.next
    split
    · exact State.echo_keeps hk
    · exact hk
  · split
    · exact .next hk
    · split
      · generalize hx : (if Option.isSome _ = true then State.oneStore _ _ _ else _) = x
        replace hx : Keeps s0 x.1 := by
          rw [← hx]
          split
          · exact State.oneStore_keeps hk
          · exact hk
        split
        rename_i s' q'
        have h := State.translateQuorum_keeps (n := n) (q := q') hx
        split
        · rename_i e
          rw [e] at h
          exact .next (State.answerCopy_keeps h)
        · rename_i e
          rw [e] at h
          exact .next h
      · exact .next (State.answerCopy_keeps hk)

theorem execQuorumCopyTimeout_keeps {n i : Nat} (hk : Keeps s0 s) :
    OutcomeKeeps s0 (execQuorumCopyTimeout n i s) := by
  unfold execQuorumCopyTimeout
  try dsimp only
  with_reducible repeat' first
    | exact hk | exact trivial | apply Verdict.keeps_done | apply Verdict.keeps_doneThen | apply Verdict.keeps_wait
    | apply Verdict.keeps_over | apply Verdict.keeps_trapIn | apply OutcomeKeeps.next | apply OutcomeKeeps.fault
    | apply State.settleQuorum_keeps | assumption | (intro _) | split

theorem execQuorumScrub_keeps {fe va : Nat} (hk : Keeps s0 s) :
    OutcomeKeeps s0 (execQuorumScrub fe va s) := by
  unfold execQuorumScrub
  split
  · dsimp only
    split
    · exact .next hk
    · split
      · exact .next hk
      · refine .next (State.emit_keeps (hk.withMem fun h => ?_))
        generalize slotTag s.mem _ = tag
        generalize slotPayload s.mem _ = pay
        generalize List.filter _ _ = l
        have : ∀ (l : List Nat) (m : Memory), Memory.wf m = true → Memory.wf (l.foldl (fun m pa => acceptSlot m pa tag pay) m) = true := by
          intro l
          induction l with
          | nil => exact fun _ h => h
          | cons a l ih => exact fun m h => ih _ (acceptSlot_wf h)
        exact this _ _ h
  · exact .next hk

/-! ## Waits -/

theorem execFence_keeps {ord : Fin 3} {scope : Fin 6} {x : F} (hk : Keeps s0 s) :
    OutcomeKeeps s0 (execFence ord scope x s) := by
  unfold execFence
  try dsimp only
  with_reducible repeat' first
    | exact hk | exact trivial | apply Verdict.keeps_done | apply Verdict.keeps_doneThen | apply Verdict.keeps_wait
    | apply Verdict.keeps_over | apply Verdict.keeps_trapIn | apply OutcomeKeeps.next | apply OutcomeKeeps.fault | apply word_keeps
    | apply Ctx.committed_keeps | apply Ctx.fenced_keeps | assumption | (intro _) | split

theorem execFenceSc_keeps {x : F} (hk : Keeps s0 s) :
    OutcomeKeeps s0 (execFenceSc x s) := by
  unfold execFenceSc
  try dsimp only
  with_reducible repeat' first
    | exact hk | exact trivial | apply Verdict.keeps_done | apply Verdict.keeps_doneThen | apply Verdict.keeps_wait
    | apply Verdict.keeps_over | apply Verdict.keeps_trapIn | apply OutcomeKeeps.next | apply OutcomeKeeps.fault | apply word_keeps
    | apply State.fenceSc_keeps | apply Ctx.committed_keeps | apply State.modStrand_keeps | assumption | (intro _) | split

theorem execWaita_keeps {x : F} (hk : Keeps s0 s) :
    OutcomeKeeps s0 (execWaita x s) := by
  unfold execWaita
  try dsimp only
  with_reducible repeat' first
    | exact hk | exact trivial | apply Verdict.keeps_done | apply Verdict.keeps_doneThen | apply Verdict.keeps_wait
    | apply Verdict.keeps_over | apply Verdict.keeps_trapIn | apply OutcomeKeeps.next | apply OutcomeKeeps.fault | apply word_keeps
    | apply Ctx.trap_keeps | apply Ctx.storage_keeps | apply Ctx.committed_keeps | apply State.modStrand_keeps | apply State.nextPo_keeps
    | apply Keeps.foldl | apply Keeps.foldlPair | apply Keeps.getD | assumption | (intro _) | exact Verdict.keeps_trap | split

theorem execWaitaWakeOnWrite_keeps {r : StrandRef} {t : Nat} (hk : Keeps s0 s) :
    OutcomeKeeps s0 (execWaitaWakeOnWrite r t s) := by
  unfold execWaitaWakeOnWrite
  try dsimp only
  with_reducible repeat' first
    | exact hk | exact trivial | apply Verdict.keeps_done | apply Verdict.keeps_doneThen | apply Verdict.keeps_wait
    | apply Verdict.keeps_over | apply Verdict.keeps_trapIn | apply OutcomeKeeps.next | apply OutcomeKeeps.fault
    | apply State.waitaRead_keeps

theorem execWaitaPeriodicRead_keeps {r : StrandRef} {t : Nat} (hk : Keeps s0 s) :
    OutcomeKeeps s0 (execWaitaPeriodicRead r t s) := by
  unfold execWaitaPeriodicRead
  try dsimp only
  with_reducible repeat' first
    | exact hk | exact trivial | apply Verdict.keeps_done | apply Verdict.keeps_doneThen | apply Verdict.keeps_wait
    | apply Verdict.keeps_over | apply Verdict.keeps_trapIn | apply OutcomeKeeps.next | apply OutcomeKeeps.fault
    | apply State.waitaRead_keeps

theorem execWaitaBoundExpiry_keeps {r : StrandRef} {t : Nat} (hk : Keeps s0 s) :
    OutcomeKeeps s0 (execWaitaBoundExpiry r t s) := by
  unfold execWaitaBoundExpiry
  try dsimp only
  with_reducible repeat' first
    | exact hk | exact trivial | apply Verdict.keeps_done | apply Verdict.keeps_doneThen | apply Verdict.keeps_wait
    | apply Verdict.keeps_over | apply Verdict.keeps_trapIn | apply OutcomeKeeps.next | apply OutcomeKeeps.fault
    | apply State.waitaRead_keeps | apply State.writeResult_keeps | apply State.modStrand_keeps | apply Keeps.getD | assumption | (intro _)
    | split

theorem execCtlSleep_keeps {x : F} (hk : Keeps s0 s) :
    OutcomeKeeps s0 (execCtlSleep x s) := by
  unfold execCtlSleep
  try dsimp only
  with_reducible repeat' first
    | exact hk | exact trivial | apply Verdict.keeps_done | apply Verdict.keeps_doneThen | apply Verdict.keeps_wait
    | apply Verdict.keeps_over | apply Verdict.keeps_trapIn | apply OutcomeKeeps.next | apply OutcomeKeeps.fault | apply word_keeps
    | apply Ctx.committed_keeps | apply State.modStrand_keeps | assumption | (intro _) | split

theorem execSleepExpiry_keeps {r : StrandRef} (hk : Keeps s0 s) :
    OutcomeKeeps s0 (execSleepExpiry r s) := by
  unfold execSleepExpiry
  try dsimp only
  with_reducible repeat' first
    | exact hk | exact trivial | apply Verdict.keeps_done | apply Verdict.keeps_doneThen | apply Verdict.keeps_wait
    | apply Verdict.keeps_over | apply Verdict.keeps_trapIn | apply OutcomeKeeps.next | apply OutcomeKeeps.fault
    | apply State.wakeSlept_keeps

theorem execHeartbeatTick_keeps  (hk : Keeps s0 s) :
    OutcomeKeeps s0 (execHeartbeatTick s) := by
  unfold execHeartbeatTick
  try dsimp only
  apply OutcomeKeeps.next
  generalize (if s.beatNs + 256 ≤ s.ns then s.ns / 256 * 256 else s.beatNs + 256) = t
  have h1 : Keeps s0 { s with ns := max s.ns t, beatNs := t } := (hk.withTime (Nat.le_max_left ..)).upd
  have h2 := Keeps.foldl (f := State.countCycles) (l := s.clusters.map Prod.fst) (fun _ _ h => State.countCycles_keeps h) h1
  apply Keeps.foldl _ h2
  intro u e h
  try dsimp only
  split
  · split
    · exact State.settleQuorum_keeps h
    · exact h
  · exact h

/-! ## Barriers -/

theorem execBarSet_keeps {x : F} (hk : Keeps s0 s) :
    OutcomeKeeps s0 (execBarSet x s) := by
  unfold execBarSet
  try dsimp only
  with_reducible repeat' first
    | exact hk | exact trivial | apply Verdict.keeps_done | apply Verdict.keeps_doneThen | apply Verdict.keeps_wait
    | apply Verdict.keeps_over | apply Verdict.keeps_trapIn | apply OutcomeKeeps.next | apply OutcomeKeeps.fault | apply barWord_keeps
    | apply State.setBar_keeps | apply State.trapWaiters_keeps | apply State.applyHeld_keeps | assumption | (intro _)

theorem execBarMark_keeps {x : F} (hk : Keeps s0 s) :
    OutcomeKeeps s0 (execBarMark x s) := by
  unfold execBarMark
  try dsimp only
  with_reducible repeat' first
    | exact hk | exact trivial | apply Verdict.keeps_done | apply Verdict.keeps_doneThen | apply Verdict.keeps_wait
    | apply Verdict.keeps_over | apply Verdict.keeps_trapIn | apply OutcomeKeeps.next | apply OutcomeKeeps.fault | apply barWord_keeps
    | apply Ctx.barOk_keeps | apply Ctx.arrive_keeps | assumption | (intro _) | split

theorem execBarWait_keeps {x : F} (hk : Keeps s0 s) :
    OutcomeKeeps s0 (execBarWait x s) := by
  unfold execBarWait
  try dsimp only
  with_reducible repeat' first
    | exact hk | exact trivial | apply Verdict.keeps_done | apply Verdict.keeps_doneThen | apply Verdict.keeps_wait
    | apply Verdict.keeps_over | apply Verdict.keeps_trapIn | apply OutcomeKeeps.next | apply OutcomeKeeps.fault | apply barWord_keeps
    | apply Ctx.barOk_keeps | apply Ctx.arrive_keeps | apply Ctx.waitBar_keeps | apply State.modStrand_keeps | assumption | (intro _)
    | split

theorem execBarWaitPhase_keeps {x : F} (hk : Keeps s0 s) :
    OutcomeKeeps s0 (execBarWaitPhase x s) := by
  unfold execBarWaitPhase
  try dsimp only
  with_reducible repeat' first
    | exact hk | exact trivial | apply Verdict.keeps_done | apply Verdict.keeps_doneThen | apply Verdict.keeps_wait
    | apply Verdict.keeps_over | apply Verdict.keeps_trapIn | apply OutcomeKeeps.next | apply OutcomeKeeps.fault | apply barWord_keeps
    | apply Ctx.barOk_keeps | apply Ctx.waitBar_keeps | apply State.modStrand_keeps | assumption | (intro _) | split

theorem execBarOwe_keeps {x : F} (hk : Keeps s0 s) :
    OutcomeKeeps s0 (execBarOwe x s) := by
  unfold execBarOwe
  try dsimp only
  with_reducible repeat' first
    | exact hk | exact trivial | apply Verdict.keeps_done | apply Verdict.keeps_doneThen | apply Verdict.keeps_wait
    | apply Verdict.keeps_over | apply Verdict.keeps_trapIn | apply OutcomeKeeps.next | apply OutcomeKeeps.fault | apply barWord_keeps
    | apply Ctx.barOk_keeps | apply State.postBar_keeps | assumption | (intro _)

theorem execBarStat_keeps {x : F} (hk : Keeps s0 s) :
    OutcomeKeeps s0 (execBarStat x s) := by
  unfold execBarStat
  try dsimp only
  with_reducible repeat' first
    | exact hk | exact trivial | apply Verdict.keeps_done | apply Verdict.keeps_doneThen | apply Verdict.keeps_wait
    | apply Verdict.keeps_over | apply Verdict.keeps_trapIn | apply OutcomeKeeps.next | apply OutcomeKeeps.fault | apply barWord_keeps
    | apply State.setStrand_keeps | assumption | (intro _)

theorem execBarShare_keeps {x : F} (hk : Keeps s0 s) :
    OutcomeKeeps s0 (execBarShare x s) := by
  unfold execBarShare
  try dsimp only
  with_reducible repeat' first
    | exact hk | exact trivial | apply Verdict.keeps_done | apply Verdict.keeps_doneThen | apply Verdict.keeps_wait
    | apply Verdict.keeps_over | apply Verdict.keeps_trapIn | apply OutcomeKeeps.next | apply OutcomeKeeps.fault | apply barWord_keeps
    | apply Ctx.trapAll_keeps | apply State.setBar_keeps | assumption | (intro _) | split

/-! ## Handles -/

theorem execMovHandleStatus_keeps {x : F} (hk : Keeps s0 s) :
    OutcomeKeeps s0 (execMovHandleStatus x s) := by
  unfold execMovHandleStatus
  try dsimp only
  with_reducible repeat' first
    | exact hk | exact trivial | apply Verdict.keeps_done | apply Verdict.keeps_doneThen | apply Verdict.keeps_wait
    | apply Verdict.keeps_over | apply Verdict.keeps_trapIn | apply OutcomeKeeps.next | apply OutcomeKeeps.fault | apply handleWord_keeps
    | apply Ctx.handle_keeps | apply State.setStrand_keeps | apply Keeps.foldl | apply Keeps.foldlPair | assumption | (intro _) | split

theorem execMovHandleToken_keeps {x : F} (hk : Keeps s0 s) :
    OutcomeKeeps s0 (execMovHandleToken x s) := by
  unfold execMovHandleToken
  try dsimp only
  with_reducible repeat' first
    | exact hk | exact trivial | apply Verdict.keeps_done | apply Verdict.keeps_doneThen | apply Verdict.keeps_wait
    | apply Verdict.keeps_over | apply Verdict.keeps_trapIn | apply OutcomeKeeps.next | apply OutcomeKeeps.fault | apply handleWord_keeps
    | apply Ctx.handle_keeps | apply State.setStrand_keeps | assumption | (intro _)

theorem execMovTokenHandle_keeps {x : F} (hk : Keeps s0 s) :
    OutcomeKeeps s0 (execMovTokenHandle x s) := by
  unfold execMovTokenHandle
  try dsimp only
  with_reducible repeat' first
    | exact hk | exact trivial | apply Verdict.keeps_done | apply Verdict.keeps_doneThen | apply Verdict.keeps_wait
    | apply Verdict.keeps_over | apply Verdict.keeps_trapIn | apply OutcomeKeeps.next | apply OutcomeKeeps.fault | apply handleWord_keeps
    | apply State.writeH_keeps | assumption | (intro _)

theorem execHndWait_keeps {x : F} (hk : Keeps s0 s) :
    OutcomeKeeps s0 (execHndWait x s) := by
  unfold execHndWait
  try dsimp only
  with_reducible repeat' first
    | exact hk | exact trivial | apply Verdict.keeps_done | apply Verdict.keeps_doneThen | apply Verdict.keeps_wait
    | apply Verdict.keeps_over | apply Verdict.keeps_trapIn | apply OutcomeKeeps.next | apply OutcomeKeeps.fault | apply handleWord_keeps
    | apply Ctx.handle_keeps | apply State.modStrand_keeps | assumption | (intro _) | split

theorem execHndTest_keeps {x : F} (hk : Keeps s0 s) :
    OutcomeKeeps s0 (execHndTest x s) := by
  unfold execHndTest
  try dsimp only
  with_reducible repeat' first
    | exact hk | exact trivial | apply Verdict.keeps_done | apply Verdict.keeps_doneThen | apply Verdict.keeps_wait
    | apply Verdict.keeps_over | apply Verdict.keeps_trapIn | apply OutcomeKeeps.next | apply OutcomeKeeps.fault | apply handleWord_keeps
    | apply Ctx.handle_keeps | apply State.setStrand_keeps | apply Keeps.getD | assumption | (intro _)

theorem execHndMove_keeps {x : F} (hk : Keeps s0 s) :
    OutcomeKeeps s0 (execHndMove x s) := by
  unfold execHndMove
  try dsimp only
  with_reducible repeat' first
    | exact hk | exact trivial | apply Verdict.keeps_done | apply Verdict.keeps_doneThen | apply Verdict.keeps_wait
    | apply Verdict.keeps_over | apply Verdict.keeps_trapIn | apply OutcomeKeeps.next | apply OutcomeKeeps.fault | apply handleWord_keeps
    | apply Ctx.handle_keeps | apply State.modStrand_keeps | apply State.sweep_keeps | assumption | (intro _) | split

/-! ## Queues -/

theorem execMovQueuePop_keeps {x : F} (hk : Keeps s0 s) :
    OutcomeKeeps s0 (execMovQueuePop x s) := by
  unfold execMovQueuePop
  try dsimp only
  with_reducible repeat' first
    | exact hk | exact trivial | apply Verdict.keeps_done | apply Verdict.keeps_doneThen | apply Verdict.keeps_wait
    | apply Verdict.keeps_over | apply Verdict.keeps_trapIn | apply OutcomeKeeps.next | apply OutcomeKeeps.fault | apply word_keeps
    | apply Ctx.trapAll_keeps | apply Ctx.waitQueue_keeps | apply State.setStrand_keeps | apply State.setQueue_keeps
    | apply State.noteStalls_keeps | apply Keeps.foldl | apply Keeps.foldlPair | apply Keeps.getD | assumption | (intro _) | split

theorem execMovQueuePush_keeps {x : F} (hk : Keeps s0 s) :
    OutcomeKeeps s0 (execMovQueuePush x s) := by
  unfold execMovQueuePush
  try dsimp only
  with_reducible repeat' first
    | exact hk | exact trivial | apply Verdict.keeps_done | apply Verdict.keeps_doneThen | apply Verdict.keeps_wait
    | apply Verdict.keeps_over | apply Verdict.keeps_trapIn | apply OutcomeKeeps.next | apply OutcomeKeeps.fault | apply word_keeps
    | apply Ctx.trapAll_keeps | apply Ctx.waitQueue_keeps | apply State.setStrand_keeps | apply State.setQueue_keeps
    | apply State.noteStalls_keeps | assumption | (intro _) | split

theorem execQcfg_keeps {x : F} (hk : Keeps s0 s) :
    OutcomeKeeps s0 (execQcfg x s) := by
  unfold execQcfg
  try dsimp only
  with_reducible repeat' first
    | exact hk | exact trivial | apply Verdict.keeps_done | apply Verdict.keeps_doneThen | apply Verdict.keeps_wait
    | apply Verdict.keeps_over | apply Verdict.keeps_trapIn | apply OutcomeKeeps.next | apply OutcomeKeeps.fault | apply word_keeps
    | apply State.setQueue_keeps | apply State.trapWaiting_keeps | apply State.noteStalls_keeps | apply Keeps.foldl | apply Keeps.foldlPair
    | assumption | (intro _) | split

theorem execQueueStalled_keeps {blk : Nat} (hk : Keeps s0 s) :
    OutcomeKeeps s0 (execQueueStalled blk s) := by
  unfold execQueueStalled
  try dsimp only
  with_reducible repeat' first
    | exact hk | exact trivial | apply Verdict.keeps_done | apply Verdict.keeps_doneThen | apply Verdict.keeps_wait
    | apply Verdict.keeps_over | apply Verdict.keeps_trapIn | apply OutcomeKeeps.next | apply OutcomeKeeps.fault
    | apply State.setBlock_keeps | apply State.emit_keeps | assumption | (intro _) | split

theorem execQueueDeadlock_keeps {blk : Nat} (hk : Keeps s0 s) :
    OutcomeKeeps s0 (execQueueDeadlock blk s) := by
  unfold execQueueDeadlock
  try dsimp only
  with_reducible repeat' first
    | exact hk | exact trivial | apply Verdict.keeps_done | apply Verdict.keeps_doneThen | apply Verdict.keeps_wait
    | apply Verdict.keeps_over | apply Verdict.keeps_trapIn | apply OutcomeKeeps.next | apply OutcomeKeeps.fault
    | apply State.trapWaiting_keeps | apply State.noteStalls_keeps | apply Keeps.foldl | apply Keeps.foldlPair | assumption | (intro _)
    | split

/-! ## Copies -/

theorem execCopyAccept_keeps {n : Nat} (hk : Keeps s0 s) :
    OutcomeKeeps s0 (execCopyAccept n s) := by
  unfold execCopyAccept
  try dsimp only
  with_reducible repeat' first
    | exact hk | exact trivial | apply Verdict.keeps_done | apply Verdict.keeps_doneThen | apply Verdict.keeps_wait
    | apply Verdict.keeps_over | apply Verdict.keeps_trapIn | apply OutcomeKeeps.next | apply OutcomeKeeps.fault
    | apply State.acceptCopy_keeps

/-! ## Arrays -/

theorem execCplFollowOnIssue_keeps {n : Nat} (hk : Keeps s0 s) :
    OutcomeKeeps s0 (execCplFollowOnIssue n s) := by
  unfold execCplFollowOnIssue
  try dsimp only
  with_reducible repeat' first
    | exact hk | exact trivial | apply Verdict.keeps_done | apply Verdict.keeps_doneThen | apply Verdict.keeps_wait
    | apply Verdict.keeps_over | apply Verdict.keeps_trapIn | apply OutcomeKeeps.next | apply OutcomeKeeps.fault
    | apply State.tryEnter_keeps | assumption | (intro _) | split

theorem execMmaCommit_keeps {n : Nat} (hk : Keeps s0 s) :
    OutcomeKeeps s0 (execMmaCommit n s) := by
  unfold execMmaCommit
  try dsimp only
  with_reducible repeat' first
    | exact hk | exact trivial | apply Verdict.keeps_done | apply Verdict.keeps_doneThen | apply Verdict.keeps_wait
    | apply Verdict.keeps_over | apply Verdict.keeps_trapIn | apply OutcomeKeeps.next | apply OutcomeKeeps.fault | apply State.repost_keeps
    | apply State.abandonMma_keeps | apply Ctx.eccReg_keeps | apply State.modArray_keeps | apply State.opView_keeps
    | apply State.count_keeps | apply State.opEvent_keeps | apply State.arrayDone_keeps | apply Keeps.foldl | apply Keeps.foldlPair
    | assumption | (intro _) | split

theorem execMxswExchange_keeps {n : Nat} (hk : Keeps s0 s) :
    OutcomeKeeps s0 (execMxswExchange n s) := by
  unfold execMxswExchange
  try dsimp only
  with_reducible repeat' first
    | exact hk | exact trivial | apply Verdict.keeps_done | apply Verdict.keeps_doneThen | apply Verdict.keeps_wait
    | apply Verdict.keeps_over | apply Verdict.keeps_trapIn | apply OutcomeKeeps.next | apply OutcomeKeeps.fault | apply State.repost_keeps
    | apply State.modArray_keeps | apply State.arrayDone_keeps | assumption | (intro _) | split

theorem execMxsqComplete_keeps {n : Nat} (hk : Keeps s0 s) :
    OutcomeKeeps s0 (execMxsqComplete n s) := by
  unfold execMxsqComplete
  try dsimp only
  with_reducible repeat' first
    | exact hk | exact trivial | apply Verdict.keeps_done | apply Verdict.keeps_doneThen | apply Verdict.keeps_wait
    | apply Verdict.keeps_over | apply Verdict.keeps_trapIn | apply OutcomeKeeps.next | apply OutcomeKeeps.fault | apply State.repost_keeps
    | apply State.arrayDone_keeps | apply State.opFault_keeps | apply State.modArray_keeps | apply State.opView_keeps | assumption
    | (intro _) | split

theorem execMxcClearComplete_keeps {n : Nat} (hk : Keeps s0 s) :
    OutcomeKeeps s0 (execMxcClearComplete n s) := by
  unfold execMxcClearComplete
  try dsimp only
  with_reducible repeat' first
    | exact hk | exact trivial | apply Verdict.keeps_done | apply Verdict.keeps_doneThen | apply Verdict.keeps_wait
    | apply Verdict.keeps_over | apply Verdict.keeps_trapIn | apply OutcomeKeeps.next | apply OutcomeKeeps.fault | apply State.repost_keeps
    | apply State.modArray_keeps | apply State.arrayDone_keeps | assumption | (intro _) | split

theorem execMxdComplete_keeps {n : Nat} (hk : Keeps s0 s) :
    OutcomeKeeps s0 (execMxdComplete n s) := by
  unfold execMxdComplete
  try dsimp only
  with_reducible repeat' first
    | exact hk | exact trivial | apply Verdict.keeps_done | apply Verdict.keeps_doneThen | apply Verdict.keeps_wait
    | apply Verdict.keeps_over | apply Verdict.keeps_trapIn | apply OutcomeKeeps.next | apply OutcomeKeeps.fault | apply State.drain_keeps
    | apply State.repost_keeps | apply Keeps.getD | assumption | (intro _) | split

theorem execMxbComplete_keeps {n : Nat} (hk : Keeps s0 s) :
    OutcomeKeeps s0 (execMxbComplete n s) := by
  unfold execMxbComplete
  try dsimp only
  with_reducible repeat' first
    | exact hk | exact trivial | apply Verdict.keeps_done | apply Verdict.keeps_doneThen | apply Verdict.keeps_wait
    | apply Verdict.keeps_over | apply Verdict.keeps_trapIn | apply OutcomeKeeps.next | apply OutcomeKeeps.fault | apply State.repost_keeps
    | apply State.holdOp_keeps | apply State.opFault_keeps | apply State.modArray_keeps | apply State.opView_keeps
    | apply State.countRead_keeps | apply State.opEvent_keeps | apply State.arrayDone_keeps | apply Keeps.foldl | apply Keeps.foldlPair
    | assumption | (intro _) | split

/-! ## Collective -/

theorem execRecordFreedStart_keeps {n : Nat} (hk : Keeps s0 s) :
    OutcomeKeeps s0 (execRecordFreedStart n s) := by
  unfold execRecordFreedStart
  try dsimp only
  with_reducible repeat' first
    | exact hk | exact trivial | apply Verdict.keeps_done | apply Verdict.keeps_doneThen | apply Verdict.keeps_wait
    | apply Verdict.keeps_over | apply Verdict.keeps_trapIn | apply OutcomeKeeps.next | apply OutcomeKeeps.fault
    | apply State.tryStart_keeps

theorem execSknJoin_keeps {x : F} (hk : Keeps s0 s) :
    OutcomeKeeps s0 (execSknJoin x s) := by
  unfold execSknJoin
  try dsimp only
  with_reducible repeat' first
    | exact hk | exact trivial | apply Verdict.keeps_done | apply Verdict.keeps_doneThen | apply Verdict.keeps_wait
    | apply Verdict.keeps_over | apply Verdict.keeps_trapIn | apply OutcomeKeeps.next | apply OutcomeKeeps.fault | apply sknWord_keeps
    | apply State.reskein_keeps | assumption | (intro _) | split

theorem execSknLeave_keeps {x : F} (hk : Keeps s0 s) :
    OutcomeKeeps s0 (execSknLeave x s) := by
  unfold execSknLeave
  try dsimp only
  with_reducible repeat' first
    | exact hk | exact trivial | apply Verdict.keeps_done | apply Verdict.keeps_doneThen | apply Verdict.keeps_wait
    | apply Verdict.keeps_over | apply Verdict.keeps_trapIn | apply OutcomeKeeps.next | apply OutcomeKeeps.fault | apply sknWord_keeps
    | apply State.reskein_keeps | assumption | (intro _)

theorem execSknSync_keeps {x : F} (hk : Keeps s0 s) :
    OutcomeKeeps s0 (execSknSync x s) := by
  unfold execSknSync
  try dsimp only
  repeat' first
    | with_reducible exact hk | exact trivial | with_reducible apply Verdict.keeps_done | with_reducible apply Verdict.keeps_doneThen
    | with_reducible apply Verdict.keeps_wait | with_reducible apply Verdict.keeps_over | with_reducible apply Verdict.keeps_trapIn
    | with_reducible apply OutcomeKeeps.next | with_reducible apply OutcomeKeeps.fault | with_reducible apply sknWord_keeps
    | with_reducible apply Ctx.trap_keeps | with_reducible apply Ctx.trapAll_keeps | with_reducible apply State.modStrand_keeps
    | with_reducible apply State.syncDone_keeps | with_reducible assumption | (intro _) | split

/-! ## EngineWords -/

theorem execMxb_keeps {x : E} (hk : Keeps s0 s) :
    OutcomeKeeps s0 (execMxb x s) := by
  unfold execMxb
  try dsimp only
  with_reducible repeat' first
    | exact hk | exact trivial | apply Verdict.keeps_done | apply Verdict.keeps_doneThen | apply Verdict.keeps_wait
    | apply Verdict.keeps_over | apply Verdict.keeps_trapIn | apply OutcomeKeeps.next | apply OutcomeKeeps.fault | apply collWord_keeps

theorem execMxsw_keeps {x : E} (hk : Keeps s0 s) :
    OutcomeKeeps s0 (execMxsw x s) := by
  unfold execMxsw
  try dsimp only
  with_reducible repeat' first
    | exact hk | exact trivial | apply Verdict.keeps_done | apply Verdict.keeps_doneThen | apply Verdict.keeps_wait
    | apply Verdict.keeps_over | apply Verdict.keeps_trapIn | apply OutcomeKeeps.next | apply OutcomeKeeps.fault | apply collWord_keeps

theorem execMxsq_keeps {x : E} (hk : Keeps s0 s) :
    OutcomeKeeps s0 (execMxsq x s) := by
  unfold execMxsq
  try dsimp only
  with_reducible repeat' first
    | exact hk | exact trivial | apply Verdict.keeps_done | apply Verdict.keeps_doneThen | apply Verdict.keeps_wait
    | apply Verdict.keeps_over | apply Verdict.keeps_trapIn | apply OutcomeKeeps.next | apply OutcomeKeeps.fault | apply collWord_keeps

theorem execMma_keeps {sr : Fin 5} {x : E} (hk : Keeps s0 s) :
    OutcomeKeeps s0 (execMma sr x s) := by
  unfold execMma
  try dsimp only
  with_reducible repeat' first
    | exact hk | exact trivial | apply Verdict.keeps_done | apply Verdict.keeps_doneThen | apply Verdict.keeps_wait
    | apply Verdict.keeps_over | apply Verdict.keeps_trapIn | apply OutcomeKeeps.next | apply OutcomeKeeps.fault | apply collWord_keeps

theorem execMxd_keeps {x : E} (hk : Keeps s0 s) :
    OutcomeKeeps s0 (execMxd x s) := by
  unfold execMxd
  try dsimp only
  with_reducible repeat' first
    | exact hk | exact trivial | apply Verdict.keeps_done | apply Verdict.keeps_doneThen | apply Verdict.keeps_wait
    | apply Verdict.keeps_over | apply Verdict.keeps_trapIn | apply OutcomeKeeps.next | apply OutcomeKeeps.fault | apply collWord_keeps

theorem execMxdGuide_keeps {x : E} (hk : Keeps s0 s) :
    OutcomeKeeps s0 (execMxdGuide x s) := by
  unfold execMxdGuide
  try dsimp only
  with_reducible repeat' first
    | exact hk | exact trivial | apply Verdict.keeps_done | apply Verdict.keeps_doneThen | apply Verdict.keeps_wait
    | apply Verdict.keeps_over | apply Verdict.keeps_trapIn | apply OutcomeKeeps.next | apply OutcomeKeeps.fault | apply collWord_keeps

theorem execMxcClear_keeps {x : E} (hk : Keeps s0 s) :
    OutcomeKeeps s0 (execMxcClear x s) := by
  unfold execMxcClear
  try dsimp only
  with_reducible repeat' first
    | exact hk | exact trivial | apply Verdict.keeps_done | apply Verdict.keeps_doneThen | apply Verdict.keeps_wait
    | apply Verdict.keeps_over | apply Verdict.keeps_trapIn | apply OutcomeKeeps.next | apply OutcomeKeeps.fault | apply collWord_keeps

theorem execMxcPair_keeps {x : E} (hk : Keeps s0 s) :
    OutcomeKeeps s0 (execMxcPair x s) := by
  unfold execMxcPair
  try dsimp only
  with_reducible repeat' first
    | exact hk | exact trivial | apply Verdict.keeps_done | apply Verdict.keeps_doneThen | apply Verdict.keeps_wait
    | apply Verdict.keeps_over | apply Verdict.keeps_trapIn | apply OutcomeKeeps.next | apply OutcomeKeeps.fault | apply collWord_keeps

theorem execMxcUnpair_keeps {x : E} (hk : Keeps s0 s) :
    OutcomeKeeps s0 (execMxcUnpair x s) := by
  unfold execMxcUnpair
  try dsimp only
  with_reducible repeat' first
    | exact hk | exact trivial | apply Verdict.keeps_done | apply Verdict.keeps_doneThen | apply Verdict.keeps_wait
    | apply Verdict.keeps_over | apply Verdict.keeps_trapIn | apply OutcomeKeeps.next | apply OutcomeKeeps.fault | apply collWord_keeps

theorem execCpl_keeps {x : E} (hk : Keeps s0 s) :
    OutcomeKeeps s0 (execCpl x s) := by
  unfold execCpl
  try dsimp only
  with_reducible repeat' first
    | exact hk | exact trivial | apply Verdict.keeps_done | apply Verdict.keeps_doneThen | apply Verdict.keeps_wait
    | apply Verdict.keeps_over | apply Verdict.keeps_trapIn | apply OutcomeKeeps.next | apply OutcomeKeeps.fault | apply collWord_keeps

theorem execCps_keeps {x : E} (hk : Keeps s0 s) :
    OutcomeKeeps s0 (execCps x s) := by
  unfold execCps
  try dsimp only
  with_reducible repeat' first
    | exact hk | exact trivial | apply Verdict.keeps_done | apply Verdict.keeps_doneThen | apply Verdict.keeps_wait
    | apply Verdict.keeps_over | apply Verdict.keeps_trapIn | apply OutcomeKeeps.next | apply OutcomeKeeps.fault | apply collWord_keeps

theorem execCpm_keeps {x : E} (hk : Keeps s0 s) :
    OutcomeKeeps s0 (execCpm x s) := by
  unfold execCpm
  try dsimp only
  with_reducible repeat' first
    | exact hk | exact trivial | apply Verdict.keeps_done | apply Verdict.keeps_doneThen | apply Verdict.keeps_wait
    | apply Verdict.keeps_over | apply Verdict.keeps_trapIn | apply OutcomeKeeps.next | apply OutcomeKeeps.fault | apply collWord_keeps

theorem execCpq_keeps {x : E} (hk : Keeps s0 s) :
    OutcomeKeeps s0 (execCpq x s) := by
  unfold execCpq
  try dsimp only
  with_reducible repeat' first
    | exact hk | exact trivial | apply Verdict.keeps_done | apply Verdict.keeps_doneThen | apply Verdict.keeps_wait
    | apply Verdict.keeps_over | apply Verdict.keeps_trapIn | apply OutcomeKeeps.next | apply OutcomeKeeps.fault | apply collWord_keeps

theorem execCpx_keeps {x : E} (hk : Keeps s0 s) :
    OutcomeKeeps s0 (execCpx x s) := by
  unfold execCpx
  try dsimp only
  with_reducible repeat' first
    | exact hk | exact trivial | apply Verdict.keeps_done | apply Verdict.keeps_doneThen | apply Verdict.keeps_wait
    | apply Verdict.keeps_over | apply Verdict.keeps_trapIn | apply OutcomeKeeps.next | apply OutcomeKeeps.fault | apply collWord_keeps

theorem execCpr_keeps {x : E} (hk : Keeps s0 s) :
    OutcomeKeeps s0 (execCpr x s) := by
  unfold execCpr
  try dsimp only
  with_reducible repeat' first
    | exact hk | exact trivial | apply Verdict.keeps_done | apply Verdict.keeps_doneThen | apply Verdict.keeps_wait
    | apply Verdict.keeps_over | apply Verdict.keeps_trapIn | apply OutcomeKeeps.next | apply OutcomeKeeps.fault | apply collWord_keeps

theorem execCplFo_keeps {x : E} (hk : Keeps s0 s) :
    OutcomeKeeps s0 (execCplFo x s) := by
  unfold execCplFo
  try dsimp only
  apply word_keeps hk
  intro c hc
  try dsimp only
  split
  · exact hc
  · exact State.modStrand_keeps (State.refault_keeps hc)
  · exact Ctx.trapAll_keeps hc
  · next sr y _ =>
    have h := Ctx.collect_keeps (x := ⟨.cpl, x, 0⟩) (more := c.followChecks (c.rd.engWord .mma y sr.val))
      (fo := some (c.rd.engWord .mma y sr.val)) (is := [.cplFo x, .mma sr y]) hc
    split
    · rename_i he
      rw [he] at h
      exact State.modStrand_keeps (s0 := s0) h
    · exact h

theorem execCopyUnitWritten_keeps {n cell : Nat} (hk : Keeps s0 s) :
    OutcomeKeeps s0 (execCopyUnitWritten n cell s) := by
  unfold execCopyUnitWritten
  try dsimp only
  with_reducible repeat' first
    | exact hk | exact trivial | apply Verdict.keeps_done | apply Verdict.keeps_doneThen | apply Verdict.keeps_wait
    | apply Verdict.keeps_over | apply Verdict.keeps_trapIn | apply OutcomeKeeps.next | apply OutcomeKeeps.fault | apply Ctx.cell_keeps
    | apply State.stageCpq_keeps | apply State.moveUnit_keeps | apply State.freeFollow_keeps | assumption | (intro _) | split

theorem execCopyComplete_keeps {n : Nat} (hk : Keeps s0 s) :
    OutcomeKeeps s0 (execCopyComplete n s) := by
  unfold execCopyComplete
  try dsimp only
  with_reducible repeat' first
    | exact hk | exact trivial | apply Verdict.keeps_done | apply Verdict.keeps_doneThen | apply Verdict.keeps_wait
    | apply Verdict.keeps_over | apply Verdict.keeps_trapIn | apply OutcomeKeeps.next | apply OutcomeKeeps.fault | apply State.endCopy_keeps
    | assumption | (intro _) | split

theorem execCprComplete_keeps {n : Nat} {peers : PeerData} (hk : Keeps s0 s) :
    OutcomeKeeps s0 (execCprComplete n peers s) := by
  unfold execCprComplete
  try dsimp only
  with_reducible repeat' first
    | exact hk | exact trivial | apply Verdict.keeps_done | apply Verdict.keeps_doneThen | apply Verdict.keeps_wait
    | apply Verdict.keeps_over | apply Verdict.keeps_trapIn | apply OutcomeKeeps.next | apply OutcomeKeeps.fault | apply State.count_keeps
    | apply State.endCopy_keeps | apply State.modOp_keeps | apply State.cprDone_keeps | apply State.holdOp_keeps | apply State.opFault_keeps
    | apply State.opView_keeps | apply State.countRead_keeps | apply State.cprWrite_keeps | apply Keeps.foldl | apply Keeps.foldlPair
    | apply Keeps.getD | assumption | (intro _) | split | apply Keeps.upd

theorem execCprTimeout_keeps {n : Nat} (hk : Keeps s0 s) :
    OutcomeKeeps s0 (execCprTimeout n s) := by
  unfold execCprTimeout
  try dsimp only
  with_reducible repeat' first
    | exact hk | exact trivial | apply Verdict.keeps_done | apply Verdict.keeps_doneThen | apply Verdict.keeps_wait
    | apply Verdict.keeps_over | apply Verdict.keeps_trapIn | apply OutcomeKeeps.next | apply OutcomeKeeps.fault | apply State.opFault_keeps
    | apply State.cprScatter_keeps | apply State.modOp_keeps | apply State.cprDone_keeps | apply Keeps.getD | assumption | (intro _) | split

theorem execHndCancel_keeps {x : F} (hk : Keeps s0 s) :
    OutcomeKeeps s0 (execHndCancel x s) := by
  unfold execHndCancel
  try dsimp only
  with_reducible repeat' first
    | exact hk | exact trivial | apply Verdict.keeps_done | apply Verdict.keeps_doneThen | apply Verdict.keeps_wait
    | apply Verdict.keeps_over | apply Verdict.keeps_trapIn | apply OutcomeKeeps.next | apply OutcomeKeeps.fault | apply handleWord_keeps
    | apply Ctx.handle_keeps | apply State.cprScatter_keeps | apply State.cancelOp_keeps | assumption | (intro _) | split

/-! ## Control -/

theorem execNop_keeps  (hk : Keeps s0 s) :
    OutcomeKeeps s0 (execNop s) := by
  unfold execNop
  try dsimp only
  with_reducible repeat' first
    | exact hk | exact trivial | apply Verdict.keeps_done | apply Verdict.keeps_doneThen | apply Verdict.keeps_wait
    | apply Verdict.keeps_over | apply Verdict.keeps_trapIn | apply OutcomeKeeps.next | apply OutcomeKeeps.fault | apply word_keeps
    | assumption | (intro _)

theorem execIll_keeps  (hk : Keeps s0 s) :
    OutcomeKeeps s0 (execIll s) := by
  unfold execIll
  try dsimp only
  with_reducible repeat' first
    | exact hk | exact trivial | apply Verdict.keeps_done | apply Verdict.keeps_doneThen | apply Verdict.keeps_wait
    | apply Verdict.keeps_over | apply Verdict.keeps_trapIn | apply OutcomeKeeps.next | apply OutcomeKeeps.fault | apply word_keeps
    | assumption | (intro _)

theorem execBra_keeps {x : J} (hk : Keeps s0 s) :
    OutcomeKeeps s0 (execBra x s) := by
  unfold execBra
  try dsimp only
  with_reducible repeat' first
    | exact hk | exact trivial | apply Verdict.keeps_done | apply Verdict.keeps_doneThen | apply Verdict.keeps_wait
    | apply Verdict.keeps_over | apply Verdict.keeps_trapIn | apply OutcomeKeeps.next | apply OutcomeKeeps.fault | apply word_keeps
    | apply State.stall_keeps | apply State.setStrand_keeps | assumption | (intro _)

theorem execCall_keeps {x : J} (hk : Keeps s0 s) :
    OutcomeKeeps s0 (execCall x s) := by
  unfold execCall
  try dsimp only
  with_reducible repeat' first
    | exact hk | exact trivial | apply Verdict.keeps_done | apply Verdict.keeps_doneThen | apply Verdict.keeps_wait
    | apply Verdict.keeps_over | apply Verdict.keeps_trapIn | apply OutcomeKeeps.next | apply OutcomeKeeps.fault | apply word_keeps
    | apply State.stall_keeps | apply State.setStrand_keeps | assumption | (intro _)

theorem execJmpi_keeps {x : F} (hk : Keeps s0 s) :
    OutcomeKeeps s0 (execJmpi x s) := by
  unfold execJmpi
  try dsimp only
  repeat' first
    | with_reducible exact hk | exact trivial | with_reducible apply Verdict.keeps_done | with_reducible apply Verdict.keeps_doneThen
    | with_reducible apply Verdict.keeps_wait | with_reducible apply Verdict.keeps_over | with_reducible apply Verdict.keeps_trapIn
    | with_reducible apply OutcomeKeeps.next | with_reducible apply OutcomeKeeps.fault | with_reducible apply word_keeps
    | with_reducible apply State.setStrand_keeps | with_reducible apply Ctx.trap_keeps | with_reducible apply Ctx.misaligned_keeps
    | with_reducible assumption | (intro _) | split

theorem execCtlRet_keeps {x : F} (hk : Keeps s0 s) :
    OutcomeKeeps s0 (execCtlRet x s) := by
  unfold execCtlRet
  try dsimp only
  with_reducible repeat' first
    | exact hk | exact trivial | apply Verdict.keeps_done | apply Verdict.keeps_doneThen | apply Verdict.keeps_wait
    | apply Verdict.keeps_over | apply Verdict.keeps_trapIn | apply OutcomeKeeps.next | apply OutcomeKeeps.fault | apply ctl_keeps
    | apply Ctx.misaligned_keeps | apply State.setStrand_keeps | assumption | (intro _) | split

theorem execCtlRcv_keeps {x : F} (hk : Keeps s0 s) :
    OutcomeKeeps s0 (execCtlRcv x s) := by
  unfold execCtlRcv
  try dsimp only
  with_reducible repeat' first
    | exact hk | exact trivial | apply Verdict.keeps_done | apply Verdict.keeps_doneThen | apply Verdict.keeps_wait
    | apply Verdict.keeps_over | apply Verdict.keeps_trapIn | apply OutcomeKeeps.next | apply OutcomeKeeps.fault | apply ctl_keeps
    | apply State.setStrand_keeps | assumption | (intro _)

theorem execCtlYield_keeps {x : F} (hk : Keeps s0 s) :
    OutcomeKeeps s0 (execCtlYield x s) := by
  unfold execCtlYield
  try dsimp only
  with_reducible repeat' first
    | exact hk | exact trivial | apply Verdict.keeps_done | apply Verdict.keeps_doneThen | apply Verdict.keeps_wait
    | apply Verdict.keeps_over | apply Verdict.keeps_trapIn | apply OutcomeKeeps.next | apply OutcomeKeeps.fault | apply ctl_keeps
    | apply State.setStrand_keeps | assumption | (intro _)

theorem execCtlRegion_keeps {x : F} (hk : Keeps s0 s) :
    OutcomeKeeps s0 (execCtlRegion x s) := by
  unfold execCtlRegion
  try dsimp only
  with_reducible repeat' first
    | exact hk | exact trivial | apply Verdict.keeps_done | apply Verdict.keeps_doneThen | apply Verdict.keeps_wait
    | apply Verdict.keeps_over | apply Verdict.keeps_trapIn | apply OutcomeKeeps.next | apply OutcomeKeeps.fault | apply ctl_keeps
    | apply State.drain_keeps | apply State.setStrand_keeps | assumption | (intro _) | split

theorem execCtlSigchk_keeps {x : F} (hk : Keeps s0 s) :
    OutcomeKeeps s0 (execCtlSigchk x s) := by
  unfold execCtlSigchk
  try dsimp only
  with_reducible repeat' first
    | exact hk | exact trivial | apply Verdict.keeps_done | apply Verdict.keeps_doneThen | apply Verdict.keeps_wait
    | apply Verdict.keeps_over | apply Verdict.keeps_trapIn | apply OutcomeKeeps.next | apply OutcomeKeeps.fault | apply ctl_keeps
    | apply State.setStrand_keeps | assumption | (intro _)

theorem execCtlSigrst_keeps {x : F} (hk : Keeps s0 s) :
    OutcomeKeeps s0 (execCtlSigrst x s) := by
  unfold execCtlSigrst
  try dsimp only
  with_reducible repeat' first
    | exact hk | exact trivial | apply Verdict.keeps_done | apply Verdict.keeps_doneThen | apply Verdict.keeps_wait
    | apply Verdict.keeps_over | apply Verdict.keeps_trapIn | apply OutcomeKeeps.next | apply OutcomeKeeps.fault | apply ctl_keeps
    | apply State.setStrand_keeps | assumption | (intro _)

theorem execCtlTmrset_keeps {x : F} (hk : Keeps s0 s) :
    OutcomeKeeps s0 (execCtlTmrset x s) := by
  unfold execCtlTmrset
  try dsimp only
  with_reducible repeat' first
    | exact hk | exact trivial | apply Verdict.keeps_done | apply Verdict.keeps_doneThen | apply Verdict.keeps_wait
    | apply Verdict.keeps_over | apply Verdict.keeps_trapIn | apply OutcomeKeeps.next | apply OutcomeKeeps.fault | apply ctl_keeps
    | apply State.setStrand_keeps | assumption | (intro _)

theorem execCtlTmrclr_keeps {x : F} (hk : Keeps s0 s) :
    OutcomeKeeps s0 (execCtlTmrclr x s) := by
  unfold execCtlTmrclr
  try dsimp only
  with_reducible repeat' first
    | exact hk | exact trivial | apply Verdict.keeps_done | apply Verdict.keeps_doneThen | apply Verdict.keeps_wait
    | apply Verdict.keeps_over | apply Verdict.keeps_trapIn | apply OutcomeKeeps.next | apply OutcomeKeeps.fault | apply ctl_keeps
    | apply State.setStrand_keeps | assumption | (intro _)

theorem execCtlTrapu_keeps {x : F} (hk : Keeps s0 s) :
    OutcomeKeeps s0 (execCtlTrapu x s) := by
  unfold execCtlTrapu
  try dsimp only
  with_reducible repeat' first
    | exact hk | exact trivial | apply Verdict.keeps_done | apply Verdict.keeps_doneThen | apply Verdict.keeps_wait
    | apply Verdict.keeps_over | apply Verdict.keeps_trapIn | apply OutcomeKeeps.next | apply OutcomeKeeps.fault | apply ctl_keeps
    | apply State.drain_keeps | apply Ctx.misaligned_keeps | assumption | (intro _) | split

theorem execCtlUret_keeps {x : F} (hk : Keeps s0 s) :
    OutcomeKeeps s0 (execCtlUret x s) := by
  unfold execCtlUret
  try dsimp only
  with_reducible repeat' first
    | exact hk | exact trivial | apply Verdict.keeps_done | apply Verdict.keeps_doneThen | apply Verdict.keeps_wait
    | apply Verdict.keeps_over | apply Verdict.keeps_trapIn | apply OutcomeKeeps.next | apply OutcomeKeeps.fault | apply word_keeps
    | apply State.drain_keeps | apply Ctx.misaligned_keeps | apply Ctx.sigChecked_keeps | apply State.setStrand_keeps | assumption
    | (intro _) | split

theorem execCtlBrk_keeps {x : F} (hk : Keeps s0 s) :
    OutcomeKeeps s0 (execCtlBrk x s) := by
  unfold execCtlBrk
  try dsimp only
  with_reducible repeat' first
    | exact hk | exact trivial | apply Verdict.keeps_done | apply Verdict.keeps_doneThen | apply Verdict.keeps_wait
    | apply Verdict.keeps_over | apply Verdict.keeps_trapIn | apply OutcomeKeeps.next | apply OutcomeKeeps.fault | apply ctl_keeps
    | apply State.drain_keeps | apply Ctx.trap_keeps | assumption | (intro _) | split

theorem execCtlEvmark_keeps {x : F} (hk : Keeps s0 s) :
    OutcomeKeeps s0 (execCtlEvmark x s) := by
  unfold execCtlEvmark
  try dsimp only
  with_reducible repeat' first
    | exact hk | exact trivial | apply Verdict.keeps_done | apply Verdict.keeps_doneThen | apply Verdict.keeps_wait
    | apply Verdict.keeps_over | apply Verdict.keeps_trapIn | apply OutcomeKeeps.next | apply OutcomeKeeps.fault | apply ctl_keeps
    | apply State.emit_keeps | assumption | (intro _)

/-! ## Strands -/

theorem execCtlExit_keeps {x : F} (hk : Keeps s0 s) :
    OutcomeKeeps s0 (execCtlExit x s) := by
  unfold execCtlExit
  try dsimp only
  with_reducible repeat' first
    | exact hk | exact trivial | apply Verdict.keeps_done | apply Verdict.keeps_doneThen | apply Verdict.keeps_wait
    | apply Verdict.keeps_over | apply Verdict.keeps_trapIn | apply OutcomeKeeps.next | apply OutcomeKeeps.fault | apply word_keeps
    | apply State.drain_keeps | apply State.setStrand_keeps | apply Ctx.store_keeps | apply Ctx.sigChecked_keeps
    | apply State.dropLoads_keeps | apply State.endStrand_keeps | assumption | (intro _) | split

/-! ## Boundary -/

theorem execAsyncFaultDelivery_keeps {r : StrandRef} (hk : Keeps s0 s) :
    OutcomeKeeps s0 (execAsyncFaultDelivery r s) := by
  unfold execAsyncFaultDelivery
  try dsimp only
  with_reducible repeat' first
    | exact hk | exact trivial | apply Verdict.keeps_done | apply Verdict.keeps_doneThen | apply Verdict.keeps_wait
    | apply Verdict.keeps_over | apply Verdict.keeps_trapIn | apply OutcomeKeeps.next | apply OutcomeKeeps.fault | apply State.visit_keeps

theorem execHostBreak_keeps {r : StrandRef} (hk : Keeps s0 s) :
    OutcomeKeeps s0 (execHostBreak r s) := by
  unfold execHostBreak
  try dsimp only
  with_reducible repeat' first
    | exact hk | exact trivial | apply Verdict.keeps_done | apply Verdict.keeps_doneThen | apply Verdict.keeps_wait
    | apply Verdict.keeps_over | apply Verdict.keeps_trapIn | apply OutcomeKeeps.next | apply OutcomeKeeps.fault
    | apply State.setStrand_keeps | apply State.visit_keeps | assumption | (intro _) | split

theorem execStopBlockHalt_keeps {r : StrandRef} (hk : Keeps s0 s) :
    OutcomeKeeps s0 (execStopBlockHalt r s) := by
  unfold execStopBlockHalt
  try dsimp only
  with_reducible repeat' first
    | exact hk | exact trivial | apply Verdict.keeps_done | apply Verdict.keeps_doneThen | apply Verdict.keeps_wait
    | apply Verdict.keeps_over | apply Verdict.keeps_trapIn | apply OutcomeKeeps.next | apply OutcomeKeeps.fault | apply State.visit_keeps

theorem execTimerFire_keeps {r : StrandRef} (hk : Keeps s0 s) :
    OutcomeKeeps s0 (execTimerFire r s) := by
  unfold execTimerFire
  try dsimp only
  with_reducible repeat' first
    | exact hk | exact trivial | apply Verdict.keeps_done | apply Verdict.keeps_doneThen | apply Verdict.keeps_wait
    | apply Verdict.keeps_over | apply Verdict.keeps_trapIn | apply OutcomeKeeps.next | apply OutcomeKeeps.fault | apply State.visit_keeps

theorem execRcvExpired_keeps {r : StrandRef} {pc : Dword} (hk : Keeps s0 s) :
    OutcomeKeeps s0 (execRcvExpired r pc s) := by
  unfold execRcvExpired
  try dsimp only
  with_reducible repeat' first
    | exact hk | exact trivial | apply Verdict.keeps_done | apply Verdict.keeps_doneThen | apply Verdict.keeps_wait
    | apply Verdict.keeps_over | apply Verdict.keeps_trapIn | apply OutcomeKeeps.next | apply OutcomeKeeps.fault | apply State.expire_keeps

/-! ## Placement -/

theorem execBlockPlace_keeps {fe : Nat} (hk : Keeps s0 s) :
    OutcomeKeeps s0 (execBlockPlace fe s) := by
  unfold execBlockPlace
  split
  · split
    · split
      · next l i _ t e =>
        obtain ⟨la, _, e⟩ := Option.bind_eq_some_iff.1 e
        exact .next (State.placedOne_keeps (State.placeFresh_keeps hk e))
      · exact .next hk
    · exact .next hk
  · exact .next hk

theorem execStrandSelectable_keeps {blk : Nat} (hk : Keeps s0 s) :
    OutcomeKeeps s0 (execStrandSelectable blk s) := by
  unfold execStrandSelectable
  split
  · exact .next (hk.withTime (Nat.le_max_left ..))
  · exact .next hk

theorem execScreenVerdict_keeps {blk : Nat} (hk : Keeps s0 s) :
    OutcomeKeeps s0 (execScreenVerdict blk s) := by
  unfold execScreenVerdict
  try dsimp only
  with_reducible repeat' first
    | exact hk | exact trivial | apply Verdict.keeps_done | apply Verdict.keeps_doneThen | apply Verdict.keeps_wait
    | apply Verdict.keeps_over | apply Verdict.keeps_trapIn | apply OutcomeKeeps.next | apply OutcomeKeeps.fault | apply State.verdict_keeps
    | assumption | (intro _) | split

/-! ## Preempt -/

theorem execDrainExpiry_keeps {blk : Nat} (hk : Keeps s0 s) :
    OutcomeKeeps s0 (execDrainExpiry blk s) := by
  unfold execDrainExpiry
  try dsimp only
  with_reducible repeat' first
    | exact hk | exact trivial | apply Verdict.keeps_done | apply Verdict.keeps_doneThen | apply Verdict.keeps_wait
    | apply Verdict.keeps_over | apply Verdict.keeps_trapIn | apply OutcomeKeeps.next | apply OutcomeKeeps.fault
    | apply State.haltBlock_keeps | assumption | (intro _) | split

theorem execBlockSaved_keeps {blk : Nat} (hk : Keeps s0 s) :
    OutcomeKeeps s0 (execBlockSaved blk s) := by
  unfold execBlockSaved
  try dsimp only
  with_reducible repeat' first
    | exact hk | exact trivial | apply Verdict.keeps_done | apply Verdict.keeps_doneThen | apply Verdict.keeps_wait
    | apply Verdict.keeps_over | apply Verdict.keeps_trapIn | apply OutcomeKeeps.next | apply OutcomeKeeps.fault
    | apply State.saveBlock_keeps | apply State.settle_keeps | apply Keeps.getD | assumption | (intro _) | split

theorem execBlockRetire_keeps {blk : Nat} (hk : Keeps s0 s) :
    OutcomeKeeps s0 (execBlockRetire blk s) := by
  unfold execBlockRetire
  try dsimp only
  with_reducible repeat' first
    | exact hk | exact trivial | apply Verdict.keeps_done | apply Verdict.keeps_doneThen | apply Verdict.keeps_wait
    | apply Verdict.keeps_over | apply Verdict.keeps_trapIn | apply OutcomeKeeps.next | apply OutcomeKeeps.fault | apply State.commit_keeps
    | apply State.retire_keeps | apply State.settle_keeps | apply Keeps.getD | assumption | (intro _) | split

theorem execBlockRestore_keeps {blk : Nat} (hk : Keeps s0 s) :
    OutcomeKeeps s0 (execBlockRestore blk s) := by
  unfold execBlockRestore
  try dsimp only
  with_reducible repeat' first
    | exact hk | exact trivial | apply Verdict.keeps_done | apply Verdict.keeps_doneThen | apply Verdict.keeps_wait
    | apply Verdict.keeps_over | apply Verdict.keeps_trapIn | apply OutcomeKeeps.next | apply OutcomeKeeps.fault
    | apply State.failLaunch_keeps | apply State.restoreBlock_keeps | apply State.placedOne_keeps | assumption | (intro _) | split

theorem execContextSwapOut_keeps {fe : Nat} (hk : Keeps s0 s) :
    OutcomeKeeps s0 (execContextSwapOut fe s) := by
  unfold execContextSwapOut
  try dsimp only
  with_reducible repeat' first
    | exact hk | exact trivial | apply Verdict.keeps_done | apply Verdict.keeps_doneThen | apply Verdict.keeps_wait
    | apply Verdict.keeps_over | apply Verdict.keeps_trapIn | apply OutcomeKeeps.next | apply OutcomeKeeps.fault | apply State.settle_keeps
    | apply State.setFe_keeps | apply State.preemptAll_keeps | assumption | (intro _) | split

theorem execContextSwapIn_keeps {fe cbase : Nat} (hk : Keeps s0 s) :
    OutcomeKeeps s0 (execContextSwapIn fe cbase s) := by
  unfold execContextSwapIn
  try dsimp only
  with_reducible repeat' first
    | exact hk | exact trivial | apply Verdict.keeps_done | apply Verdict.keeps_doneThen | apply Verdict.keeps_wait
    | apply Verdict.keeps_over | apply Verdict.keeps_trapIn | apply OutcomeKeeps.next | apply OutcomeKeeps.fault | apply State.credit_keeps
    | apply State.setFe_keeps | apply State.flushTlb_keeps | apply State.respread_keeps | apply State.emit_keeps | apply State.readmit_keeps
    | assumption | (intro _) | split | apply Keeps.upd

/-! ## FrontEnds -/

theorem execPacketReceive_keeps {vf fe : Nat} {bytes : List Byte} (hk : Keeps s0 s) :
    OutcomeKeeps s0 (execPacketReceive vf fe bytes s) := by
  unfold execPacketReceive
  try dsimp only
  with_reducible repeat' first
    | exact hk | exact trivial | apply Verdict.keeps_done | apply Verdict.keeps_doneThen | apply Verdict.keeps_wait
    | apply Verdict.keeps_over | apply Verdict.keeps_trapIn | apply OutcomeKeeps.next | apply OutcomeKeeps.fault | apply State.modFe_keeps
    | assumption | (intro _) | split

theorem execCmdLaunch_keeps {fe : Nat} (hk : Keeps s0 s) :
    OutcomeKeeps s0 (execCmdLaunch fe s) := by
  unfold execCmdLaunch
  try dsimp only
  with_reducible repeat' first
    | exact hk | exact trivial | apply Verdict.keeps_done | apply Verdict.keeps_doneThen | apply Verdict.keeps_wait
    | apply Verdict.keeps_over | apply Verdict.keeps_trapIn | apply OutcomeKeeps.next | apply OutcomeKeeps.fault
    | apply State.startNext_keeps | apply State.endCmd_keeps | apply State.beginLaunch_keeps | apply State.modFe_keeps | assumption
    | (intro _) | split

theorem execLaunchFitStart_keeps {fe : Nat} (hk : Keeps s0 s) :
    OutcomeKeeps s0 (execLaunchFitStart fe s) := by
  unfold execLaunchFitStart
  try dsimp only
  with_reducible repeat' first
    | exact hk | exact trivial | apply Verdict.keeps_done | apply Verdict.keeps_doneThen | apply Verdict.keeps_wait
    | apply Verdict.keeps_over | apply Verdict.keeps_trapIn | apply OutcomeKeeps.next | apply OutcomeKeeps.fault
    | apply State.beginLaunch_keeps | assumption | (intro _) | split

theorem execLaunchComplete_keeps {l : Nat} (hk : Keeps s0 s) :
    OutcomeKeeps s0 (execLaunchComplete l s) := by
  unfold execLaunchComplete
  try dsimp only
  with_reducible repeat' first
    | exact hk | exact trivial | apply Verdict.keeps_done | apply Verdict.keeps_doneThen | apply Verdict.keeps_wait
    | apply Verdict.keeps_over | apply Verdict.keeps_trapIn | apply OutcomeKeeps.next | apply OutcomeKeeps.fault
    | apply State.endLaunch_keeps | assumption | (intro _) | split

theorem execCmdCopy_keeps {fe : Nat} (hk : Keeps s0 s) :
    OutcomeKeeps s0 (execCmdCopy fe s) := by
  unfold execCmdCopy
  try dsimp only
  with_reducible repeat' first
    | exact hk | exact trivial | apply Verdict.keeps_done | apply Verdict.keeps_doneThen | apply Verdict.keeps_wait
    | apply Verdict.keeps_over | apply Verdict.keeps_trapIn | apply OutcomeKeeps.next | apply OutcomeKeeps.fault
    | apply State.startNext_keeps | assumption | (intro _)

theorem execCopyCmdComplete_keeps {n : Nat} (hk : Keeps s0 s) :
    OutcomeKeeps s0 (execCopyCmdComplete n s) := by
  unfold execCopyCmdComplete
  try dsimp only
  with_reducible repeat' first
    | exact hk | exact trivial | apply Verdict.keeps_done | apply Verdict.keeps_doneThen | apply Verdict.keeps_wait
    | apply Verdict.keeps_over | apply Verdict.keeps_trapIn | apply OutcomeKeeps.next | apply OutcomeKeeps.fault | apply State.endCmd_keeps
    | apply State.cmdAbsent_keeps | apply State.writePage_keeps | apply State.traffic_keeps | apply State.countMem_keeps
    | apply State.modFe_keeps | (refine State.engWrite_keeps ?_ (by assumption)) | assumption | (intro _) | split

theorem execCmdWait_keeps {fe : Nat} (hk : Keeps s0 s) :
    OutcomeKeeps s0 (execCmdWait fe s) := by
  unfold execCmdWait
  try dsimp only
  with_reducible repeat' first
    | exact hk | exact trivial | apply Verdict.keeps_done | apply Verdict.keeps_doneThen | apply Verdict.keeps_wait
    | apply Verdict.keeps_over | apply Verdict.keeps_trapIn | apply OutcomeKeeps.next | apply OutcomeKeeps.fault
    | apply State.startNext_keeps | apply State.endCmd_keeps | assumption | (intro _)

theorem execCmdSignal_keeps {fe : Nat} (hk : Keeps s0 s) :
    OutcomeKeeps s0 (execCmdSignal fe s) := by
  unfold execCmdSignal
  try dsimp only
  with_reducible repeat' first
    | exact hk | exact trivial | apply Verdict.keeps_done | apply Verdict.keeps_doneThen | apply Verdict.keeps_wait
    | apply Verdict.keeps_over | apply Verdict.keeps_trapIn | apply OutcomeKeeps.next | apply OutcomeKeeps.fault
    | apply State.startNext_keeps | assumption | (intro _)

theorem execSignalStore_keeps {n : Nat} (hk : Keeps s0 s) :
    OutcomeKeeps s0 (execSignalStore n s) := by
  unfold execSignalStore
  try dsimp only
  with_reducible repeat' first
    | exact hk | exact trivial | apply Verdict.keeps_done | apply Verdict.keeps_doneThen | apply Verdict.keeps_wait
    | apply Verdict.keeps_over | apply Verdict.keeps_trapIn | apply OutcomeKeeps.next | apply OutcomeKeeps.fault | apply State.endCmd_keeps
    | apply State.cmdAbsent_keeps | apply State.writePage_keeps | apply State.countMem_keeps | apply State.traffic_keeps
    | (refine State.engWrite_keeps ?_ (by assumption)) | assumption | (intro _) | split

theorem execCmdMap_keeps {fe : Nat} (hk : Keeps s0 s) :
    OutcomeKeeps s0 (execCmdMap fe s) := by
  unfold execCmdMap
  try dsimp only
  with_reducible repeat' first
    | exact hk | exact trivial | apply Verdict.keeps_done | apply Verdict.keeps_doneThen | apply Verdict.keeps_wait
    | apply Verdict.keeps_over | apply Verdict.keeps_trapIn | apply OutcomeKeeps.next | apply OutcomeKeeps.fault
    | apply State.startNext_keeps | apply State.endCmd_keeps | assumption | (intro _) | split

theorem execMapComplete_keeps {n : Nat} (hk : Keeps s0 s) :
    OutcomeKeeps s0 (execMapComplete n s) := by
  unfold execMapComplete
  try dsimp only
  with_reducible repeat' first
    | exact hk | exact trivial | apply Verdict.keeps_done | apply Verdict.keeps_doneThen | apply Verdict.keeps_wait
    | apply Verdict.keeps_over | apply Verdict.keeps_trapIn | apply OutcomeKeeps.next | apply OutcomeKeeps.fault | apply State.modFe_keeps
    | apply State.replayHeld_keeps | apply State.flushTlb_keeps | apply State.emit_keeps | apply State.endCmd_keeps | assumption | (intro _)
    | split | apply Keeps.upd

theorem execCmdStopSuspend_keeps {fe : Nat} (hk : Keeps s0 s) :
    OutcomeKeeps s0 (execCmdStopSuspend fe s) := by
  unfold execCmdStopSuspend
  try dsimp only
  with_reducible repeat' first
    | exact hk | exact trivial | apply Verdict.keeps_done | apply Verdict.keeps_doneThen | apply Verdict.keeps_wait
    | apply Verdict.keeps_over | apply Verdict.keeps_trapIn | apply OutcomeKeeps.next | apply OutcomeKeeps.fault | apply State.settle_keeps
    | apply State.startNext_keeps | apply State.endCmd_keeps | apply State.modFe_keeps | apply State.preemptAll_keeps | assumption
    | (intro _) | split

theorem execCmdStopResume_keeps {fe : Nat} (hk : Keeps s0 s) :
    OutcomeKeeps s0 (execCmdStopResume fe s) := by
  unfold execCmdStopResume
  try dsimp only
  with_reducible repeat' first
    | exact hk | exact trivial | apply Verdict.keeps_done | apply Verdict.keeps_doneThen | apply Verdict.keeps_wait
    | apply Verdict.keeps_over | apply Verdict.keeps_trapIn | apply OutcomeKeeps.next | apply OutcomeKeeps.fault
    | apply State.startNext_keeps | apply State.endSuspend_keeps | apply State.modFe_keeps | apply State.endCmd_keeps | assumption
    | (intro _) | split

theorem execCmdStopTerminate_keeps {fe : Nat} (hk : Keeps s0 s) :
    OutcomeKeeps s0 (execCmdStopTerminate fe s) := by
  unfold execCmdStopTerminate
  try dsimp only
  with_reducible repeat' first
    | exact hk | exact trivial | apply Verdict.keeps_done | apply Verdict.keeps_doneThen | apply Verdict.keeps_wait
    | apply Verdict.keeps_over | apply Verdict.keeps_trapIn | apply OutcomeKeeps.next | apply OutcomeKeeps.fault
    | apply State.settleStop_keeps | apply State.startNext_keeps | apply State.beginStop_keeps | assumption | (intro _) | split

/-! ## Code -/

theorem execIcacheFill_keeps {core va : Nat} (hk : Keeps s0 s) :
    OutcomeKeeps s0 (execIcacheFill core va s) := by
  unfold execIcacheFill
  try dsimp only
  with_reducible repeat' first
    | exact hk | exact trivial | apply Verdict.keeps_done | apply Verdict.keeps_doneThen | apply Verdict.keeps_wait
    | apply Verdict.keeps_over | apply Verdict.keeps_trapIn | apply OutcomeKeeps.next | apply OutcomeKeeps.fault
    | apply State.hashFail_keeps | apply State.fetchTrap_keeps | apply State.count_keeps | apply State.setCore_keeps | assumption
    | (intro _) | split

theorem execDemandPageHash_keeps {fe va : Nat} (hk : Keeps s0 s) :
    OutcomeKeeps s0 (execDemandPageHash fe va s) := by
  unfold execDemandPageHash
  try dsimp only
  with_reducible repeat' first
    | exact hk | exact trivial | apply Verdict.keeps_done | apply Verdict.keeps_doneThen | apply Verdict.keeps_wait
    | apply Verdict.keeps_over | apply Verdict.keeps_trapIn | apply OutcomeKeeps.next | apply OutcomeKeeps.fault | apply State.tagLine_keeps
    | apply State.modFe_keeps | apply State.hashFail_keeps | apply Keeps.foldl | apply Keeps.foldlPair | assumption | (intro _) | split

theorem execObjectLoad_keeps {fe va tagTable : Nat} (hk : Keeps s0 s) :
    OutcomeKeeps s0 (execObjectLoad fe va tagTable s) := by
  unfold execObjectLoad
  try dsimp only
  with_reducible repeat' first
    | exact hk | exact trivial | apply Verdict.keeps_done | apply Verdict.keeps_doneThen | apply Verdict.keeps_wait
    | apply Verdict.keeps_over | apply Verdict.keeps_trapIn | apply OutcomeKeeps.next | apply OutcomeKeeps.fault | apply State.modFe_keeps
    | apply State.count_keeps | apply State.tagLine_keeps | apply Keeps.foldl | apply Keeps.foldlPair | assumption | (intro _) | split

/-! ## Float -/

theorem execFadd_keeps {x : F} (hk : Keeps s0 s) :
    OutcomeKeeps s0 (execFadd x s) := by
  unfold execFadd
  try dsimp only
  with_reducible repeat' first
    | exact hk | exact trivial | apply Verdict.keeps_done | apply Verdict.keeps_doneThen | apply Verdict.keeps_wait
    | apply Verdict.keeps_over | apply Verdict.keeps_trapIn | apply OutcomeKeeps.next | apply OutcomeKeeps.fault | apply fpWord_keeps

theorem execFmul_keeps {x : F} (hk : Keeps s0 s) :
    OutcomeKeeps s0 (execFmul x s) := by
  unfold execFmul
  try dsimp only
  with_reducible repeat' first
    | exact hk | exact trivial | apply Verdict.keeps_done | apply Verdict.keeps_doneThen | apply Verdict.keeps_wait
    | apply Verdict.keeps_over | apply Verdict.keeps_trapIn | apply OutcomeKeeps.next | apply OutcomeKeeps.fault | apply fpWord_keeps

theorem execFfma_keeps {x : F} (hk : Keeps s0 s) :
    OutcomeKeeps s0 (execFfma x s) := by
  unfold execFfma
  try dsimp only
  with_reducible repeat' first
    | exact hk | exact trivial | apply Verdict.keeps_done | apply Verdict.keeps_doneThen | apply Verdict.keeps_wait
    | apply Verdict.keeps_over | apply Verdict.keeps_trapIn | apply OutcomeKeeps.next | apply OutcomeKeeps.fault | apply fpWord_keeps

theorem execFaddi_keeps {x : I} (hk : Keeps s0 s) :
    OutcomeKeeps s0 (execFaddi x s) := by
  unfold execFaddi
  try dsimp only
  with_reducible repeat' first
    | exact hk | exact trivial | apply Verdict.keeps_done | apply Verdict.keeps_doneThen | apply Verdict.keeps_wait
    | apply Verdict.keeps_over | apply Verdict.keeps_trapIn | apply OutcomeKeeps.next | apply OutcomeKeeps.fault | apply fpImm_keeps

theorem execFmuli_keeps {x : I} (hk : Keeps s0 s) :
    OutcomeKeeps s0 (execFmuli x s) := by
  unfold execFmuli
  try dsimp only
  with_reducible repeat' first
    | exact hk | exact trivial | apply Verdict.keeps_done | apply Verdict.keeps_doneThen | apply Verdict.keeps_wait
    | apply Verdict.keeps_over | apply Verdict.keeps_trapIn | apply OutcomeKeeps.next | apply OutcomeKeeps.fault | apply fpImm_keeps

theorem execFscale_keeps {x : F} (hk : Keeps s0 s) :
    OutcomeKeeps s0 (execFscale x s) := by
  unfold execFscale
  try dsimp only
  with_reducible repeat' first
    | exact hk | exact trivial | apply Verdict.keeps_done | apply Verdict.keeps_doneThen | apply Verdict.keeps_wait
    | apply Verdict.keeps_over | apply Verdict.keeps_trapIn | apply OutcomeKeeps.next | apply OutcomeKeeps.fault | apply fpWord_keeps

theorem execFminmax_keeps {fn : Fin 4} {x : F} (hk : Keeps s0 s) :
    OutcomeKeeps s0 (execFminmax fn x s) := by
  unfold execFminmax
  try dsimp only
  with_reducible repeat' first
    | exact hk | exact trivial | apply Verdict.keeps_done | apply Verdict.keeps_doneThen | apply Verdict.keeps_wait
    | apply Verdict.keeps_over | apply Verdict.keeps_trapIn | apply OutcomeKeeps.next | apply OutcomeKeeps.fault | apply fpWord_keeps

theorem execFrnd_keeps {x : F} (hk : Keeps s0 s) :
    OutcomeKeeps s0 (execFrnd x s) := by
  unfold execFrnd
  try dsimp only
  with_reducible repeat' first
    | exact hk | exact trivial | apply Verdict.keeps_done | apply Verdict.keeps_doneThen | apply Verdict.keeps_wait
    | apply Verdict.keeps_over | apply Verdict.keeps_trapIn | apply OutcomeKeeps.next | apply OutcomeKeeps.fault | apply fpWord_keeps

theorem execFdiv_keeps {x : F} (hk : Keeps s0 s) :
    OutcomeKeeps s0 (execFdiv x s) := by
  unfold execFdiv
  try dsimp only
  with_reducible repeat' first
    | exact hk | exact trivial | apply Verdict.keeps_done | apply Verdict.keeps_doneThen | apply Verdict.keeps_wait
    | apply Verdict.keeps_over | apply Verdict.keeps_trapIn | apply OutcomeKeeps.next | apply OutcomeKeeps.fault | apply fpWord_keeps

theorem execFsqrt_keeps {x : F} (hk : Keeps s0 s) :
    OutcomeKeeps s0 (execFsqrt x s) := by
  unfold execFsqrt
  try dsimp only
  with_reducible repeat' first
    | exact hk | exact trivial | apply Verdict.keeps_done | apply Verdict.keeps_doneThen | apply Verdict.keeps_wait
    | apply Verdict.keeps_over | apply Verdict.keeps_trapIn | apply OutcomeKeeps.next | apply OutcomeKeeps.fault | apply fpWord_keeps

theorem execFrcp_keeps {x : F} (hk : Keeps s0 s) :
    OutcomeKeeps s0 (execFrcp x s) := by
  unfold execFrcp
  try dsimp only
  with_reducible repeat' first
    | exact hk | exact trivial | apply Verdict.keeps_done | apply Verdict.keeps_doneThen | apply Verdict.keeps_wait
    | apply Verdict.keeps_over | apply Verdict.keeps_trapIn | apply OutcomeKeeps.next | apply OutcomeKeeps.fault | apply fpWord_keeps

theorem execFrsq_keeps {x : F} (hk : Keeps s0 s) :
    OutcomeKeeps s0 (execFrsq x s) := by
  unfold execFrsq
  try dsimp only
  with_reducible repeat' first
    | exact hk | exact trivial | apply Verdict.keeps_done | apply Verdict.keeps_doneThen | apply Verdict.keeps_wait
    | apply Verdict.keeps_over | apply Verdict.keeps_trapIn | apply OutcomeKeeps.next | apply OutcomeKeeps.fault | apply fpWord_keeps

theorem execFtr_keeps {fn : Fin 5} {x : F} (hk : Keeps s0 s) :
    OutcomeKeeps s0 (execFtr fn x s) := by
  unfold execFtr
  try dsimp only
  with_reducible repeat' first
    | exact hk | exact trivial | apply Verdict.keeps_done | apply Verdict.keeps_doneThen | apply Verdict.keeps_wait
    | apply Verdict.keeps_over | apply Verdict.keeps_trapIn | apply OutcomeKeeps.next | apply OutcomeKeeps.fault | apply fpWord_keeps

theorem execTwosum_keeps {x : F} (hk : Keeps s0 s) :
    OutcomeKeeps s0 (execTwosum x s) := by
  unfold execTwosum
  try dsimp only
  with_reducible repeat' first
    | exact hk | exact trivial | apply Verdict.keeps_done | apply Verdict.keeps_doneThen | apply Verdict.keeps_wait
    | apply Verdict.keeps_over | apply Verdict.keeps_trapIn | apply OutcomeKeeps.next | apply OutcomeKeeps.fault | apply twoWord_keeps

theorem execTwoprod_keeps {x : F} (hk : Keeps s0 s) :
    OutcomeKeeps s0 (execTwoprod x s) := by
  unfold execTwoprod
  try dsimp only
  with_reducible repeat' first
    | exact hk | exact trivial | apply Verdict.keeps_done | apply Verdict.keeps_doneThen | apply Verdict.keeps_wait
    | apply Verdict.keeps_over | apply Verdict.keeps_trapIn | apply OutcomeKeeps.next | apply OutcomeKeeps.fault | apply twoWord_keeps

theorem execPkadd_keeps {bf : Bool} {x : F} (hk : Keeps s0 s) :
    OutcomeKeeps s0 (execPkadd bf x s) := by
  unfold execPkadd
  try dsimp only
  with_reducible repeat' first
    | exact hk | exact trivial | apply Verdict.keeps_done | apply Verdict.keeps_doneThen | apply Verdict.keeps_wait
    | apply Verdict.keeps_over | apply Verdict.keeps_trapIn | apply OutcomeKeeps.next | apply OutcomeKeeps.fault | apply alu_keeps

theorem execPkmul_keeps {bf : Bool} {x : F} (hk : Keeps s0 s) :
    OutcomeKeeps s0 (execPkmul bf x s) := by
  unfold execPkmul
  try dsimp only
  with_reducible repeat' first
    | exact hk | exact trivial | apply Verdict.keeps_done | apply Verdict.keeps_doneThen | apply Verdict.keeps_wait
    | apply Verdict.keeps_over | apply Verdict.keeps_trapIn | apply OutcomeKeeps.next | apply OutcomeKeeps.fault | apply alu_keeps

theorem execPkfma_keeps {bf : Bool} {x : F} (hk : Keeps s0 s) :
    OutcomeKeeps s0 (execPkfma bf x s) := by
  unfold execPkfma
  try dsimp only
  with_reducible repeat' first
    | exact hk | exact trivial | apply Verdict.keeps_done | apply Verdict.keeps_doneThen | apply Verdict.keeps_wait
    | apply Verdict.keeps_over | apply Verdict.keeps_trapIn | apply OutcomeKeeps.next | apply OutcomeKeeps.fault | apply alu_keeps

theorem execJseed_keeps {x : F} (hk : Keeps s0 s) :
    OutcomeKeeps s0 (execJseed x s) := by
  unfold execJseed
  try dsimp only
  with_reducible repeat' first
    | exact hk | exact trivial | apply Verdict.keeps_done | apply Verdict.keeps_doneThen | apply Verdict.keeps_wait
    | apply Verdict.keeps_over | apply Verdict.keeps_trapIn | apply OutcomeKeeps.next | apply OutcomeKeeps.fault | apply alu_keeps

theorem execTget_keeps {x : F} (hk : Keeps s0 s) :
    OutcomeKeeps s0 (execTget x s) := by
  unfold execTget
  try dsimp only
  with_reducible repeat' first
    | exact hk | exact trivial | apply Verdict.keeps_done | apply Verdict.keeps_doneThen | apply Verdict.keeps_wait
    | apply Verdict.keeps_over | apply Verdict.keeps_trapIn | apply OutcomeKeeps.next | apply OutcomeKeeps.fault | apply alu_keeps

theorem execTset_keeps {x : F} (hk : Keeps s0 s) :
    OutcomeKeeps s0 (execTset x s) := by
  unfold execTset
  try dsimp only
  with_reducible repeat' first
    | exact hk | exact trivial | apply Verdict.keeps_done | apply Verdict.keeps_doneThen | apply Verdict.keeps_wait
    | apply Verdict.keeps_over | apply Verdict.keeps_trapIn | apply OutcomeKeeps.next | apply OutcomeKeeps.fault | apply alu_keeps

theorem execJzero_keeps {x : F} (hk : Keeps s0 s) :
    OutcomeKeeps s0 (execJzero x s) := by
  unfold execJzero
  try dsimp only
  with_reducible repeat' first
    | exact hk | exact trivial | apply Verdict.keeps_done | apply Verdict.keeps_doneThen | apply Verdict.keeps_wait
    | apply Verdict.keeps_over | apply Verdict.keeps_trapIn | apply OutcomeKeeps.next | apply OutcomeKeeps.fault | apply alu_keeps

theorem execJeval_keeps {x : F} (hk : Keeps s0 s) :
    OutcomeKeeps s0 (execJeval x s) := by
  unfold execJeval
  try dsimp only
  with_reducible repeat' first
    | exact hk | exact trivial | apply Verdict.keeps_done | apply Verdict.keeps_doneThen | apply Verdict.keeps_wait
    | apply Verdict.keeps_over | apply Verdict.keeps_trapIn | apply OutcomeKeeps.next | apply OutcomeKeeps.fault | apply alu_keeps

theorem execFprint_keeps {x : F} (hk : Keeps s0 s) :
    OutcomeKeeps s0 (execFprint x s) := by
  unfold execFprint
  try dsimp only
  with_reducible repeat' first
    | exact hk | exact trivial | apply Verdict.keeps_done | apply Verdict.keeps_doneThen | apply Verdict.keeps_wait
    | apply Verdict.keeps_over | apply Verdict.keeps_trapIn | apply OutcomeKeeps.next | apply OutcomeKeeps.fault | apply alu_keeps

theorem execCvt_keeps {dst : BitVec 4} {x : F} (hk : Keeps s0 s) :
    OutcomeKeeps s0 (execCvt dst x s) := by
  unfold execCvt
  try dsimp only
  with_reducible repeat' first
    | exact hk | exact trivial | apply Verdict.keeps_done | apply Verdict.keeps_doneThen | apply Verdict.keeps_wait
    | apply Verdict.keeps_over | apply Verdict.keeps_trapIn | apply OutcomeKeeps.next | apply OutcomeKeeps.fault | apply alu_keeps

theorem execQntSt_keeps {x : F} (hk : Keeps s0 s) :
    OutcomeKeeps s0 (execQntSt x s) := by
  unfold execQntSt
  try dsimp only
  with_reducible repeat' first
    | exact hk | exact trivial | apply Verdict.keeps_done | apply Verdict.keeps_doneThen | apply Verdict.keeps_wait
    | apply Verdict.keeps_over | apply Verdict.keeps_trapIn | apply OutcomeKeeps.next | apply OutcomeKeeps.fault | apply qntWord_keeps

theorem execQntZ_keeps {x : F} (hk : Keeps s0 s) :
    OutcomeKeeps s0 (execQntZ x s) := by
  unfold execQntZ
  try dsimp only
  with_reducible repeat' first
    | exact hk | exact trivial | apply Verdict.keeps_done | apply Verdict.keeps_doneThen | apply Verdict.keeps_wait
    | apply Verdict.keeps_over | apply Verdict.keeps_trapIn | apply OutcomeKeeps.next | apply OutcomeKeeps.fault | apply qntWord_keeps

theorem execPack_keeps {x : F} (hk : Keeps s0 s) :
    OutcomeKeeps s0 (execPack x s) := by
  unfold execPack
  try dsimp only
  with_reducible repeat' first
    | exact hk | exact trivial | apply Verdict.keeps_done | apply Verdict.keeps_doneThen | apply Verdict.keeps_wait
    | apply Verdict.keeps_over | apply Verdict.keeps_trapIn | apply OutcomeKeeps.next | apply OutcomeKeeps.fault | apply alu_keeps

theorem execUnpack_keeps {x : F} (hk : Keeps s0 s) :
    OutcomeKeeps s0 (execUnpack x s) := by
  unfold execUnpack
  try dsimp only
  with_reducible repeat' first
    | exact hk | exact trivial | apply Verdict.keeps_done | apply Verdict.keeps_doneThen | apply Verdict.keeps_wait
    | apply Verdict.keeps_over | apply Verdict.keeps_trapIn | apply OutcomeKeeps.next | apply OutcomeKeeps.fault | apply alu_keeps

/-! ## Integer -/

theorem execIadd_keeps {fn : Fin 3} {x : F} (hk : Keeps s0 s) :
    OutcomeKeeps s0 (execIadd fn x s) := by
  unfold execIadd
  try dsimp only
  with_reducible repeat' first
    | exact hk | exact trivial | apply Verdict.keeps_done | apply Verdict.keeps_doneThen | apply Verdict.keeps_wait
    | apply Verdict.keeps_over | apply Verdict.keeps_trapIn | apply OutcomeKeeps.next | apply OutcomeKeeps.fault | apply int2_keeps

theorem execIsub_keeps {fn : Fin 3} {x : F} (hk : Keeps s0 s) :
    OutcomeKeeps s0 (execIsub fn x s) := by
  unfold execIsub
  try dsimp only
  with_reducible repeat' first
    | exact hk | exact trivial | apply Verdict.keeps_done | apply Verdict.keeps_doneThen | apply Verdict.keeps_wait
    | apply Verdict.keeps_over | apply Verdict.keeps_trapIn | apply OutcomeKeeps.next | apply OutcomeKeeps.fault | apply int2_keeps

theorem execImul_keeps {fn : Fin 3} {x : F} (hk : Keeps s0 s) :
    OutcomeKeeps s0 (execImul fn x s) := by
  unfold execImul
  try dsimp only
  with_reducible repeat' first
    | exact hk | exact trivial | apply Verdict.keeps_done | apply Verdict.keeps_doneThen | apply Verdict.keeps_wait
    | apply Verdict.keeps_over | apply Verdict.keeps_trapIn | apply OutcomeKeeps.next | apply OutcomeKeeps.fault | apply int2_keeps

theorem execImad_keeps {x : F} (hk : Keeps s0 s) :
    OutcomeKeeps s0 (execImad x s) := by
  unfold execImad
  try dsimp only
  with_reducible repeat' first
    | exact hk | exact trivial | apply Verdict.keeps_done | apply Verdict.keeps_doneThen | apply Verdict.keeps_wait
    | apply Verdict.keeps_over | apply Verdict.keeps_trapIn | apply OutcomeKeeps.next | apply OutcomeKeeps.fault | apply alu_keeps

theorem execIminmax_keeps {fn : Fin 4} {x : F} (hk : Keeps s0 s) :
    OutcomeKeeps s0 (execIminmax fn x s) := by
  unfold execIminmax
  try dsimp only
  with_reducible repeat' first
    | exact hk | exact trivial | apply Verdict.keeps_done | apply Verdict.keeps_doneThen | apply Verdict.keeps_wait
    | apply Verdict.keeps_over | apply Verdict.keeps_trapIn | apply OutcomeKeeps.next | apply OutcomeKeeps.fault | apply int2_keeps

theorem execIabs_keeps {x : F} (hk : Keeps s0 s) :
    OutcomeKeeps s0 (execIabs x s) := by
  unfold execIabs
  try dsimp only
  with_reducible repeat' first
    | exact hk | exact trivial | apply Verdict.keeps_done | apply Verdict.keeps_doneThen | apply Verdict.keeps_wait
    | apply Verdict.keeps_over | apply Verdict.keeps_trapIn | apply OutcomeKeeps.next | apply OutcomeKeeps.fault | apply int1_keeps

theorem execIaddw_keeps {x : F} (hk : Keeps s0 s) :
    OutcomeKeeps s0 (execIaddw x s) := by
  unfold execIaddw
  try dsimp only
  with_reducible repeat' first
    | exact hk | exact trivial | apply Verdict.keeps_done | apply Verdict.keeps_doneThen | apply Verdict.keeps_wait
    | apply Verdict.keeps_over | apply Verdict.keeps_trapIn | apply OutcomeKeeps.next | apply OutcomeKeeps.fault | apply alu_keeps

theorem execLea_keeps {x : F} (hk : Keeps s0 s) :
    OutcomeKeeps s0 (execLea x s) := by
  unfold execLea
  try dsimp only
  with_reducible repeat' first
    | exact hk | exact trivial | apply Verdict.keeps_done | apply Verdict.keeps_doneThen | apply Verdict.keeps_wait
    | apply Verdict.keeps_over | apply Verdict.keeps_trapIn | apply OutcomeKeeps.next | apply OutcomeKeeps.fault | apply int2_keeps

theorem execTwill_keeps {x : F} (hk : Keeps s0 s) :
    OutcomeKeeps s0 (execTwill x s) := by
  unfold execTwill
  try dsimp only
  with_reducible repeat' first
    | exact hk | exact trivial | apply Verdict.keeps_done | apply Verdict.keeps_doneThen | apply Verdict.keeps_wait
    | apply Verdict.keeps_over | apply Verdict.keeps_trapIn | apply OutcomeKeeps.next | apply OutcomeKeeps.fault | apply alu_keeps

theorem execShf_keeps {fn : Fin 5} {x : F} (hk : Keeps s0 s) :
    OutcomeKeeps s0 (execShf fn x s) := by
  unfold execShf
  try dsimp only
  with_reducible repeat' first
    | exact hk | exact trivial | apply Verdict.keeps_done | apply Verdict.keeps_doneThen | apply Verdict.keeps_wait
    | apply Verdict.keeps_over | apply Verdict.keeps_trapIn | apply OutcomeKeeps.next | apply OutcomeKeeps.fault | apply int2_keeps

theorem execBfx_keeps {x : F} (hk : Keeps s0 s) :
    OutcomeKeeps s0 (execBfx x s) := by
  unfold execBfx
  try dsimp only
  with_reducible repeat' first
    | exact hk | exact trivial | apply Verdict.keeps_done | apply Verdict.keeps_doneThen | apply Verdict.keeps_wait
    | apply Verdict.keeps_over | apply Verdict.keeps_trapIn | apply OutcomeKeeps.next | apply OutcomeKeeps.fault | apply int1_keeps

theorem execBfi_keeps {x : F} (hk : Keeps s0 s) :
    OutcomeKeeps s0 (execBfi x s) := by
  unfold execBfi
  try dsimp only
  with_reducible repeat' first
    | exact hk | exact trivial | apply Verdict.keeps_done | apply Verdict.keeps_doneThen | apply Verdict.keeps_wait
    | apply Verdict.keeps_over | apply Verdict.keeps_trapIn | apply OutcomeKeeps.next | apply OutcomeKeeps.fault | apply alu_keeps

theorem execPopc_keeps {x : F} (hk : Keeps s0 s) :
    OutcomeKeeps s0 (execPopc x s) := by
  unfold execPopc
  try dsimp only
  with_reducible repeat' first
    | exact hk | exact trivial | apply Verdict.keeps_done | apply Verdict.keeps_doneThen | apply Verdict.keeps_wait
    | apply Verdict.keeps_over | apply Verdict.keeps_trapIn | apply OutcomeKeeps.next | apply OutcomeKeeps.fault | apply int1_keeps

theorem execClz_keeps {x : F} (hk : Keeps s0 s) :
    OutcomeKeeps s0 (execClz x s) := by
  unfold execClz
  try dsimp only
  with_reducible repeat' first
    | exact hk | exact trivial | apply Verdict.keeps_done | apply Verdict.keeps_doneThen | apply Verdict.keeps_wait
    | apply Verdict.keeps_over | apply Verdict.keeps_trapIn | apply OutcomeKeeps.next | apply OutcomeKeeps.fault | apply int1_keeps

theorem execBrev_keeps {x : F} (hk : Keeps s0 s) :
    OutcomeKeeps s0 (execBrev x s) := by
  unfold execBrev
  try dsimp only
  with_reducible repeat' first
    | exact hk | exact trivial | apply Verdict.keeps_done | apply Verdict.keeps_doneThen | apply Verdict.keeps_wait
    | apply Verdict.keeps_over | apply Verdict.keeps_trapIn | apply OutcomeKeeps.next | apply OutcomeKeeps.fault | apply int1_keeps

theorem execIcmp_keeps {fn : Fin 10} {x : F} (hk : Keeps s0 s) :
    OutcomeKeeps s0 (execIcmp fn x s) := by
  unfold execIcmp
  try dsimp only
  with_reducible repeat' first
    | exact hk | exact trivial | apply Verdict.keeps_done | apply Verdict.keeps_doneThen | apply Verdict.keeps_wait
    | apply Verdict.keeps_over | apply Verdict.keeps_trapIn | apply OutcomeKeeps.next | apply OutcomeKeeps.fault | apply alu_keeps

theorem execFcmp_keeps {fn : Fin 8} {x : F} (hk : Keeps s0 s) :
    OutcomeKeeps s0 (execFcmp fn x s) := by
  unfold execFcmp
  try dsimp only
  with_reducible repeat' first
    | exact hk | exact trivial | apply Verdict.keeps_done | apply Verdict.keeps_doneThen | apply Verdict.keeps_wait
    | apply Verdict.keeps_over | apply Verdict.keeps_trapIn | apply OutcomeKeeps.next | apply OutcomeKeeps.fault | apply alu_keeps

theorem execFclass_keeps {x : F} (hk : Keeps s0 s) :
    OutcomeKeeps s0 (execFclass x s) := by
  unfold execFclass
  try dsimp only
  with_reducible repeat' first
    | exact hk | exact trivial | apply Verdict.keeps_done | apply Verdict.keeps_doneThen | apply Verdict.keeps_wait
    | apply Verdict.keeps_over | apply Verdict.keeps_trapIn | apply OutcomeKeeps.next | apply OutcomeKeeps.fault | apply alu_keeps

theorem execMsk_keeps {fn : Fin 8} {x : F} (hk : Keeps s0 s) :
    OutcomeKeeps s0 (execMsk fn x s) := by
  unfold execMsk
  try dsimp only
  with_reducible repeat' first
    | exact hk | exact trivial | apply Verdict.keeps_done | apply Verdict.keeps_doneThen | apply Verdict.keeps_wait
    | apply Verdict.keeps_over | apply Verdict.keeps_trapIn | apply OutcomeKeeps.next | apply OutcomeKeeps.fault | apply word_keeps
    | apply State.setStrand_keeps | assumption | (intro _)

/-! ## Manage -/

theorem execMgmtPartitionWrite_keeps {fe : Nat} {rec : PartRec} (hk : Keeps s0 s) :
    OutcomeKeeps s0 (execMgmtPartitionWrite fe rec s) := by
  unfold execMgmtPartitionWrite
  try dsimp only
  with_reducible repeat' first
    | exact hk | exact trivial | apply Verdict.keeps_done | apply Verdict.keeps_doneThen | apply Verdict.keeps_wait
    | apply Verdict.keeps_over | apply Verdict.keeps_trapIn | apply OutcomeKeeps.next | apply OutcomeKeeps.fault | apply State.disable_keeps
    | apply State.managed_keeps | apply State.settle_keeps | apply State.setFe_keeps | apply State.createPartition_keeps
    | apply State.saveAll_keeps | apply State.putRecord_keeps | assumption | (intro _) | split

theorem execMgmtPartitionDisable_keeps {fe : Nat} (hk : Keeps s0 s) :
    OutcomeKeeps s0 (execMgmtPartitionDisable fe s) := by
  unfold execMgmtPartitionDisable
  try dsimp only
  with_reducible repeat' first
    | exact hk | exact trivial | apply Verdict.keeps_done | apply Verdict.keeps_doneThen | apply Verdict.keeps_wait
    | apply Verdict.keeps_over | apply Verdict.keeps_trapIn | apply OutcomeKeeps.next | apply OutcomeKeeps.fault | apply State.disable_keeps
    | apply State.managed_keeps

theorem execMgmtPrivilegedVector_keeps {fe : Nat} {va : Dword} (hk : Keeps s0 s) :
    OutcomeKeeps s0 (execMgmtPrivilegedVector fe va s) := by
  unfold execMgmtPrivilegedVector
  try dsimp only
  with_reducible repeat' first
    | exact hk | exact trivial | apply Verdict.keeps_done | apply Verdict.keeps_doneThen | apply Verdict.keeps_wait
    | apply Verdict.keeps_over | apply Verdict.keeps_trapIn | apply OutcomeKeeps.next | apply OutcomeKeeps.fault | apply State.modFe_keeps
    | apply State.managed_keeps

theorem execMgmtWindows_keeps {fe win : Nat} {w : Option Window} (hk : Keeps s0 s) :
    OutcomeKeeps s0 (execMgmtWindows fe win w s) := by
  unfold execMgmtWindows
  try dsimp only
  with_reducible repeat' first
    | exact hk | exact trivial | apply Verdict.keeps_done | apply Verdict.keeps_doneThen | apply Verdict.keeps_wait
    | apply Verdict.keeps_over | apply Verdict.keeps_trapIn | apply OutcomeKeeps.next | apply OutcomeKeeps.fault | apply State.managed_keeps
    | apply State.modFe_keeps | assumption | (intro _) | split

theorem execMgmtReductionGroups_keeps {fe group : Nat} {g : Option RedGroup} (hk : Keeps s0 s) :
    OutcomeKeeps s0 (execMgmtReductionGroups fe group g s) := by
  unfold execMgmtReductionGroups
  try dsimp only
  with_reducible repeat' first
    | exact hk | exact trivial | apply Verdict.keeps_done | apply Verdict.keeps_doneThen | apply Verdict.keeps_wait
    | apply Verdict.keeps_over | apply Verdict.keeps_trapIn | apply OutcomeKeeps.next | apply OutcomeKeeps.fault | apply State.managed_keeps
    | apply State.modFe_keeps | assumption | (intro _) | split

theorem execMgmtReductionGrant_keeps {n : Nat} (hk : Keeps s0 s) :
    OutcomeKeeps s0 (execMgmtReductionGrant n s) := by
  unfold execMgmtReductionGrant
  try dsimp only
  with_reducible repeat' first
    | exact hk | exact trivial | apply Verdict.keeps_done | apply Verdict.keeps_doneThen | apply Verdict.keeps_wait
    | apply Verdict.keeps_over | apply Verdict.keeps_trapIn | apply OutcomeKeeps.next | apply OutcomeKeeps.fault | apply State.managed_keeps
    | apply State.readmit_keeps | assumption | (intro _) | split | apply Keeps.upd

theorem execMgmtTelemetry_keeps {fe : Nat} {cfg : TelemetryCfg} (hk : Keeps s0 s) :
    OutcomeKeeps s0 (execMgmtTelemetry fe cfg s) := by
  unfold execMgmtTelemetry
  try dsimp only
  with_reducible repeat' first
    | exact hk | exact trivial | apply Verdict.keeps_done | apply Verdict.keeps_doneThen | apply Verdict.keeps_wait
    | apply Verdict.keeps_over | apply Verdict.keeps_trapIn | apply OutcomeKeeps.next | apply OutcomeKeeps.fault | apply State.managed_keeps
    | apply State.modFe_keeps | apply State.setCore_keeps | apply Keeps.foldl | apply Keeps.foldlPair | assumption | (intro _) | split

theorem execMgmtStatusBlock_keeps {fe addr : Nat} (hk : Keeps s0 s) :
    OutcomeKeeps s0 (execMgmtStatusBlock fe addr s) := by
  unfold execMgmtStatusBlock
  try dsimp only
  with_reducible repeat' first
    | exact hk | exact trivial | apply Verdict.keeps_done | apply Verdict.keeps_doneThen | apply Verdict.keeps_wait
    | apply Verdict.keeps_over | apply Verdict.keeps_trapIn | apply OutcomeKeeps.next | apply OutcomeKeeps.fault | apply State.modFe_keeps
    | apply State.managed_keeps

theorem execMgmtRetire_keeps {u : RetireUnit} {n : Nat} (hk : Keeps s0 s) :
    OutcomeKeeps s0 (execMgmtRetire u n s) := by
  unfold execMgmtRetire
  try dsimp only
  with_reducible repeat' first
    | exact hk | exact trivial | apply Verdict.keeps_done | apply Verdict.keeps_doneThen | apply Verdict.keeps_wait
    | apply Verdict.keeps_over | apply Verdict.keeps_trapIn | apply OutcomeKeeps.next | apply OutcomeKeeps.fault | apply State.managed_keeps
    | apply State.retireCluster_keeps | apply State.emitAll_keeps | apply State.readmit_keeps | assumption | (intro _) | split
    | apply Keeps.upd

theorem execMgmtPowerLimit_keeps {watts : Nat} (hk : Keeps s0 s) :
    OutcomeKeeps s0 (execMgmtPowerLimit watts s) := by
  unfold execMgmtPowerLimit
  try dsimp only
  with_reducible repeat' first
    | exact hk | exact trivial | apply Verdict.keeps_done | apply Verdict.keeps_doneThen | apply Verdict.keeps_wait
    | apply Verdict.keeps_over | apply Verdict.keeps_trapIn | apply OutcomeKeeps.next | apply OutcomeKeeps.fault | apply State.managed_keeps
    | assumption | (intro _) | split | apply Keeps.upd

theorem execMgmtAgeingMeasure_keeps {r : AgeReading} (hk : Keeps s0 s) :
    OutcomeKeeps s0 (execMgmtAgeingMeasure r s) := by
  unfold execMgmtAgeingMeasure
  try dsimp only
  with_reducible repeat' first
    | exact hk | exact trivial | apply Verdict.keeps_done | apply Verdict.keeps_doneThen | apply Verdict.keeps_wait
    | apply Verdict.keeps_over | apply Verdict.keeps_trapIn | apply OutcomeKeeps.next | apply OutcomeKeeps.fault
    | apply State.ageCluster_keeps | apply State.managed_keeps

theorem execAgeingPeriodicRead_keeps {rs : List AgeReading} (hk : Keeps s0 s) :
    OutcomeKeeps s0 (execAgeingPeriodicRead rs s) := by
  unfold execAgeingPeriodicRead
  try dsimp only
  with_reducible repeat' first
    | exact hk | exact trivial | apply Verdict.keeps_done | apply Verdict.keeps_doneThen | apply Verdict.keeps_wait
    | apply Verdict.keeps_over | apply Verdict.keeps_trapIn | apply OutcomeKeeps.next | apply OutcomeKeeps.fault
    | apply State.ageCluster_keeps | apply Keeps.foldl | apply Keeps.foldlPair | assumption | (intro _) | split | apply Keeps.upd

theorem execPowerCapAdjust_keeps {cluster step : Nat} (hk : Keeps s0 s) :
    OutcomeKeeps s0 (execPowerCapAdjust cluster step s) := by
  unfold execPowerCapAdjust
  try dsimp only
  with_reducible repeat' first
    | exact hk | exact trivial | apply Verdict.keeps_done | apply Verdict.keeps_doneThen | apply Verdict.keeps_wait
    | apply Verdict.keeps_over | apply Verdict.keeps_trapIn | apply OutcomeKeeps.next | apply OutcomeKeeps.fault
    | apply State.tuneCluster_keeps | apply State.emitAll_keeps | apply Keeps.getD | assumption | (intro _) | split

theorem execPowerOn_keeps  (hk : Keeps s0 s) :
    OutcomeKeeps s0 (execPowerOn s) := by
  unfold execPowerOn
  split
  · exact .next hk
  · rename_i ho
    have h1 : Keeps s0 { s with service := .powerOn } :=
      ⟨fun hi => ⟨(hk.inv hi).mem, (hk.inv hi).host, (hk.inv hi).remote, fun h => by simp at h, fun h => by simp at h⟩, hk.time⟩
    try dsimp only
    apply OutcomeKeeps.next
    split
    · split
      · exact h1
      · exact State.emitAll_keeps h1
    · apply State.emitAll_keeps
      split
      · exact h1
      · exact State.emitAll_keeps h1

theorem execEnterReducedService_keeps  (hk : Keeps s0 s) :
    OutcomeKeeps s0 (execEnterReducedService s) := by
  unfold execEnterReducedService
  split
  · rename_i hc
    simp only [Bool.and_eq_true] at hc
    refine .next (State.emitAll_keeps (State.setRates_keeps ?_))
    exact ⟨fun hi => ⟨(hk.inv hi).mem, (hk.inv hi).host, (hk.inv hi).remote, fun _ => ⟨hc.1.1.2, hc.1.2⟩, fun h => by simp at h⟩, hk.time⟩
  · exact .next hk

theorem execEnterFullService_keeps  (hk : Keeps s0 s) :
    OutcomeKeeps s0 (execEnterFullService s) := by
  unfold execEnterFullService
  split
  · rename_i hc
    simp only [Bool.and_eq_true, beq_iff_eq] at hc
    refine .next (State.emitAll_keeps (State.emitAll_keeps (State.setRates_keeps ?_)))
    exact ⟨fun hi => ⟨(hk.inv hi).mem, (hk.inv hi).host, (hk.inv hi).remote, fun _ => (hk.inv hi).signed
        (.inl hc.1.1), fun _ => ⟨hc.1.2, hc.2⟩⟩,
      hk.time⟩
  · exact .next hk

theorem execPortTrain_keeps {u : TrainUnit} {n : Nat} {ok : Bool} (hk : Keeps s0 s) :
    OutcomeKeeps s0 (execPortTrain u n ok s) := by
  unfold execPortTrain
  split
  · exact .next (State.emitAll_keeps hk)
  · split
    · apply OutcomeKeeps.next
      split
      · exact hk.upd
      · exact hk
    · apply OutcomeKeeps.next
      split
      · exact ⟨fun hi => ⟨(hk.inv hi).mem, (hk.inv hi).host, (hk.inv hi).remote, (hk.inv hi).signed, fun h =>
          ⟨by rw [((hk.inv hi).trained h).1]; exact BitVec.allOnes_or, ((hk.inv hi).trained h).2⟩⟩, hk.time⟩
      · exact hk
    · apply OutcomeKeeps.next
      split
      · exact ⟨fun hi => ⟨(hk.inv hi).mem, (hk.inv hi).host, (hk.inv hi).remote, (hk.inv hi).signed, fun h =>
          ⟨((hk.inv hi).trained h).1, by rw [((hk.inv hi).trained h).2]; exact BitVec.allOnes_or⟩⟩, hk.time⟩
      · exact hk

theorem execPortDown_keeps {n : Nat} (hk : Keeps s0 s) :
    OutcomeKeeps s0 (execPortDown n s) := by
  unfold execPortDown
  try dsimp only
  with_reducible repeat' first
    | exact hk | exact trivial | apply Verdict.keeps_done | apply Verdict.keeps_doneThen | apply Verdict.keeps_wait
    | apply Verdict.keeps_over | apply Verdict.keeps_trapIn | apply OutcomeKeeps.next | apply OutcomeKeeps.fault | apply State.emitAll_keeps
    | assumption | (intro _) | split | apply Keeps.upd

theorem execPortUp_keeps {n : Nat} (hk : Keeps s0 s) :
    OutcomeKeeps s0 (execPortUp n s) := by
  unfold execPortUp
  try dsimp only
  with_reducible repeat' first
    | exact hk | exact trivial | apply Verdict.keeps_done | apply Verdict.keeps_doneThen | apply Verdict.keeps_wait
    | apply Verdict.keeps_over | apply Verdict.keeps_trapIn | apply OutcomeKeeps.next | apply OutcomeKeeps.fault | apply State.emitAll_keeps
    | assumption | (intro _) | split | apply Keeps.upd

theorem execFlitCrcReplay_keeps {_port : Nat} (hk : Keeps s0 s) :
    OutcomeKeeps s0 (execFlitCrcReplay _port s) := by
  unfold execFlitCrcReplay
  try dsimp only
  with_reducible repeat' first
    | exact hk | exact trivial | apply Verdict.keeps_done | apply Verdict.keeps_doneThen | apply Verdict.keeps_wait
    | apply Verdict.keeps_over | apply Verdict.keeps_trapIn | apply OutcomeKeeps.next

theorem execEthLink_keeps {port : Nat} {up : Bool} (hk : Keeps s0 s) :
    OutcomeKeeps s0 (execEthLink port up s) := by
  unfold execEthLink
  try dsimp only
  with_reducible repeat' first
    | exact hk | exact trivial | apply Verdict.keeps_done | apply Verdict.keeps_doneThen | apply Verdict.keeps_wait
    | apply Verdict.keeps_over | apply Verdict.keeps_trapIn | apply OutcomeKeeps.next | apply OutcomeKeeps.fault | apply State.emitAll_keeps
    | assumption | (intro _) | split | apply Keeps.upd

theorem execWeftRetransmit_keeps {_port : Nat} (hk : Keeps s0 s) :
    OutcomeKeeps s0 (execWeftRetransmit _port s) := by
  unfold execWeftRetransmit
  try dsimp only
  with_reducible repeat' first
    | exact hk | exact trivial | apply Verdict.keeps_done | apply Verdict.keeps_doneThen | apply Verdict.keeps_wait
    | apply Verdict.keeps_over | apply Verdict.keeps_trapIn | apply OutcomeKeeps.next

theorem execWeftAccessTimeout_keeps {n : Nat} (hk : Keeps s0 s) :
    OutcomeKeeps s0 (execWeftAccessTimeout n s) := by
  unfold execWeftAccessTimeout
  try dsimp only
  with_reducible repeat' first
    | exact hk | exact trivial | apply Verdict.keeps_done | apply Verdict.keeps_doneThen | apply Verdict.keeps_wait
    | apply Verdict.keeps_over | apply Verdict.keeps_trapIn | apply OutcomeKeeps.next | apply OutcomeKeeps.fault | apply State.dropAcc_keeps
    | apply State.asyncFault_keeps | assumption | (intro _) | split

theorem execDeviceFatal_keeps  (hk : Keeps s0 s) :
    OutcomeKeeps s0 (execDeviceFatal s) := by
  unfold execDeviceFatal
  try dsimp only
  with_reducible repeat' first
    | exact hk | exact trivial | apply Verdict.keeps_done | apply Verdict.keeps_doneThen | apply Verdict.keeps_wait
    | apply Verdict.keeps_over | apply Verdict.keeps_trapIn | apply OutcomeKeeps.next | apply OutcomeKeeps.fault | apply State.emitAll_keeps
    | apply State.settleStop_keeps | apply State.beginStop_keeps | apply Keeps.foldl | apply Keeps.foldlPair | assumption | (intro _)
    | split | apply Keeps.upd

theorem execPcSample_keeps {core : Nat} (hk : Keeps s0 s) :
    OutcomeKeeps s0 (execPcSample core s) := by
  unfold execPcSample
  try dsimp only
  with_reducible repeat' first
    | exact hk | exact trivial | apply Verdict.keeps_done | apply Verdict.keeps_doneThen | apply Verdict.keeps_wait
    | apply Verdict.keeps_over | apply Verdict.keeps_trapIn | apply OutcomeKeeps.next | apply OutcomeKeeps.fault | apply State.setCore_keeps
    | apply State.append_keeps | apply Keeps.getD | assumption | (intro _) | split

theorem execHostMemoryWrite_keeps {fe pa : Nat} {bytes : List Byte} (hk : Keeps s0 s) :
    OutcomeKeeps s0 (execHostMemoryWrite fe pa bytes s) := by
  unfold execHostMemoryWrite
  dsimp only
  split
  · exact .next hk
  · exact .next (State.modFe_keeps (State.write_keeps hk))

theorem execHostMemoryRead_keeps {fe pa len : Nat} (hk : Keeps s0 s) :
    OutcomeKeeps s0 (execHostMemoryRead fe pa len s) := by
  unfold execHostMemoryRead
  try dsimp only
  with_reducible repeat' first
    | exact hk | exact trivial | apply Verdict.keeps_done | apply Verdict.keeps_doneThen | apply Verdict.keeps_wait
    | apply Verdict.keeps_over | apply Verdict.keeps_trapIn | apply OutcomeKeeps.next | apply OutcomeKeeps.fault | assumption | (intro _)
    | split | apply Keeps.upd

/-! ## Moves -/

theorem execMovVV_keeps {x : F} (hk : Keeps s0 s) :
    OutcomeKeeps s0 (execMovVV x s) := by
  unfold execMovVV
  try dsimp only
  with_reducible repeat' first
    | exact hk | exact trivial | apply Verdict.keeps_done | apply Verdict.keeps_doneThen | apply Verdict.keeps_wait
    | apply Verdict.keeps_over | apply Verdict.keeps_trapIn | apply OutcomeKeeps.next | apply OutcomeKeeps.fault | apply alu_keeps

theorem execMovVS_keeps {x : F} (hk : Keeps s0 s) :
    OutcomeKeeps s0 (execMovVS x s) := by
  unfold execMovVS
  try dsimp only
  with_reducible repeat' first
    | exact hk | exact trivial | apply Verdict.keeps_done | apply Verdict.keeps_doneThen | apply Verdict.keeps_wait
    | apply Verdict.keeps_over | apply Verdict.keeps_trapIn | apply OutcomeKeeps.next | apply OutcomeKeeps.fault | apply alu_keeps

theorem execMovSV_keeps {x : F} (hk : Keeps s0 s) :
    OutcomeKeeps s0 (execMovSV x s) := by
  unfold execMovSV
  try dsimp only
  with_reducible repeat' first
    | exact hk | exact trivial | apply Verdict.keeps_done | apply Verdict.keeps_doneThen | apply Verdict.keeps_wait
    | apply Verdict.keeps_over | apply Verdict.keeps_trapIn | apply OutcomeKeeps.next | apply OutcomeKeeps.fault | apply perStrand_keeps

theorem execMovSS_keeps {x : F} (hk : Keeps s0 s) :
    OutcomeKeeps s0 (execMovSS x s) := by
  unfold execMovSS
  try dsimp only
  with_reducible repeat' first
    | exact hk | exact trivial | apply Verdict.keeps_done | apply Verdict.keeps_doneThen | apply Verdict.keeps_wait
    | apply Verdict.keeps_over | apply Verdict.keeps_trapIn | apply OutcomeKeeps.next | apply OutcomeKeeps.fault | apply perStrand_keeps

theorem execMovVM_keeps {x : F} (hk : Keeps s0 s) :
    OutcomeKeeps s0 (execMovVM x s) := by
  unfold execMovVM
  try dsimp only
  with_reducible repeat' first
    | exact hk | exact trivial | apply Verdict.keeps_done | apply Verdict.keeps_doneThen | apply Verdict.keeps_wait
    | apply Verdict.keeps_over | apply Verdict.keeps_trapIn | apply OutcomeKeeps.next | apply OutcomeKeeps.fault | apply alu_keeps

theorem execMovMV_keeps {x : F} (hk : Keeps s0 s) :
    OutcomeKeeps s0 (execMovMV x s) := by
  unfold execMovMV
  try dsimp only
  with_reducible repeat' first
    | exact hk | exact trivial | apply Verdict.keeps_done | apply Verdict.keeps_doneThen | apply Verdict.keeps_wait
    | apply Verdict.keeps_over | apply Verdict.keeps_trapIn | apply OutcomeKeeps.next | apply OutcomeKeeps.fault | apply alu_keeps

theorem execMovi_keeps {x : I} (hk : Keeps s0 s) :
    OutcomeKeeps s0 (execMovi x s) := by
  unfold execMovi
  try dsimp only
  with_reducible repeat' first
    | exact hk | exact trivial | apply Verdict.keeps_done | apply Verdict.keeps_doneThen | apply Verdict.keeps_wait
    | apply Verdict.keeps_over | apply Verdict.keeps_trapIn | apply OutcomeKeeps.next | apply OutcomeKeeps.fault | apply immWord_keeps

theorem execIaddi_keeps {x : I} (hk : Keeps s0 s) :
    OutcomeKeeps s0 (execIaddi x s) := by
  unfold execIaddi
  try dsimp only
  with_reducible repeat' first
    | exact hk | exact trivial | apply Verdict.keeps_done | apply Verdict.keeps_doneThen | apply Verdict.keeps_wait
    | apply Verdict.keeps_over | apply Verdict.keeps_trapIn | apply OutcomeKeeps.next | apply OutcomeKeeps.fault | apply immWord_keeps

theorem execAndi_keeps {x : I} (hk : Keeps s0 s) :
    OutcomeKeeps s0 (execAndi x s) := by
  unfold execAndi
  try dsimp only
  with_reducible repeat' first
    | exact hk | exact trivial | apply Verdict.keeps_done | apply Verdict.keeps_doneThen | apply Verdict.keeps_wait
    | apply Verdict.keeps_over | apply Verdict.keeps_trapIn | apply OutcomeKeeps.next | apply OutcomeKeeps.fault | apply immWord_keeps

theorem execOri_keeps {x : I} (hk : Keeps s0 s) :
    OutcomeKeeps s0 (execOri x s) := by
  unfold execOri
  try dsimp only
  with_reducible repeat' first
    | exact hk | exact trivial | apply Verdict.keeps_done | apply Verdict.keeps_doneThen | apply Verdict.keeps_wait
    | apply Verdict.keeps_over | apply Verdict.keeps_trapIn | apply OutcomeKeeps.next | apply OutcomeKeeps.fault | apply immWord_keeps

theorem execXori_keeps {x : I} (hk : Keeps s0 s) :
    OutcomeKeeps s0 (execXori x s) := by
  unfold execXori
  try dsimp only
  with_reducible repeat' first
    | exact hk | exact trivial | apply Verdict.keeps_done | apply Verdict.keeps_doneThen | apply Verdict.keeps_wait
    | apply Verdict.keeps_over | apply Verdict.keeps_trapIn | apply OutcomeKeeps.next | apply OutcomeKeeps.fault | apply immWord_keeps

theorem execSel_keeps {x : F} (hk : Keeps s0 s) :
    OutcomeKeeps s0 (execSel x s) := by
  unfold execSel
  try dsimp only
  with_reducible repeat' first
    | exact hk | exact trivial | apply Verdict.keeps_done | apply Verdict.keeps_doneThen | apply Verdict.keeps_wait
    | apply Verdict.keeps_over | apply Verdict.keeps_trapIn | apply OutcomeKeeps.next | apply OutcomeKeeps.fault | apply alu_keeps

theorem execRead_keeps {fn : Fin 17} {x : F} (hk : Keeps s0 s) :
    OutcomeKeeps s0 (execRead fn x s) := by
  unfold execRead
  try dsimp only
  with_reducible repeat' first
    | exact hk | exact trivial | apply Verdict.keeps_done | apply Verdict.keeps_doneThen | apply Verdict.keeps_wait
    | apply Verdict.keeps_over | apply Verdict.keeps_trapIn | apply OutcomeKeeps.next | apply OutcomeKeeps.fault | apply alu_keeps

theorem execPeek_keeps {fn : Fin 4} {x : F} (hk : Keeps s0 s) :
    OutcomeKeeps s0 (execPeek fn x s) := by
  unfold execPeek
  try dsimp only
  with_reducible repeat' first
    | exact hk | exact trivial | apply Verdict.keeps_done | apply Verdict.keeps_doneThen | apply Verdict.keeps_wait
    | apply Verdict.keeps_over | apply Verdict.keeps_trapIn | apply OutcomeKeeps.next | apply OutcomeKeeps.fault | apply alu_keeps

/-! ## Pairs -/

theorem execPWord_keeps {x : PWord} (hk : Keeps s0 s) :
    OutcomeKeeps s0 (execPWord x s) := by
  unfold execPWord
  apply word_keeps hk
  intro c hc
  try dsimp only
  have h0 := PHalf.verdict_keeps (p := x.h0) hc
  have h1 := PHalf.verdict_keeps (p := x.h1) hc
  split
  · trivial
  · trivial
  · rename_i e _
    rw [e] at h0
    exact h0
  · rename_i e _ _
    rw [e] at h1
    exact h1
  · have h2 : Keeps s0 ({ c with s := c.s.setStrand c.r ((c.k.deliverHalf x.h0 c).deliverHalf x.h1 c) } : Ctx).s := State.setStrand_keeps hc
    have h3 := PHalf.access_keeps (p := x.h0) h2
    split
    · rename_i e
      rw [e] at h3
      exact PHalf.access_keeps (c := { c with s := _ }) h3
    · exact h3

/-! ## Sampler -/

theorem execSampleResult_keeps {n : Nat} (hk : Keeps s0 s) :
    OutcomeKeeps s0 (execSampleResult n s) := by
  unfold execSampleResult
  try dsimp only
  with_reducible repeat' first
    | exact hk | exact trivial | apply Verdict.keeps_done | apply Verdict.keeps_doneThen | apply Verdict.keeps_wait
    | apply Verdict.keeps_over | apply Verdict.keeps_trapIn | apply OutcomeKeeps.next | apply OutcomeKeeps.fault
    | apply State.holdSample_keeps | apply State.dropSample_keeps | apply State.sampleFaults_keeps | apply State.countAt_keeps
    | apply State.modStrand_keeps | apply State.sampleFault_keeps | apply Keeps.foldl | apply Keeps.foldlPair | assumption | (intro _)
    | split

theorem execSample_keeps {x : F} (hk : Keeps s0 s) :
    OutcomeKeeps s0 (execSample x s) := by
  unfold execSample
  try dsimp only
  with_reducible repeat' first
    | exact hk | exact trivial | apply Verdict.keeps_done | apply Verdict.keeps_doneThen | apply Verdict.keeps_wait
    | apply Verdict.keeps_over | apply Verdict.keeps_trapIn | apply OutcomeKeeps.next | apply OutcomeKeeps.fault | apply sampleWord_keeps

theorem execSampleLod_keeps {x : F} (hk : Keeps s0 s) :
    OutcomeKeeps s0 (execSampleLod x s) := by
  unfold execSampleLod
  try dsimp only
  with_reducible repeat' first
    | exact hk | exact trivial | apply Verdict.keeps_done | apply Verdict.keeps_doneThen | apply Verdict.keeps_wait
    | apply Verdict.keeps_over | apply Verdict.keeps_trapIn | apply OutcomeKeeps.next | apply OutcomeKeeps.fault | apply sampleWord_keeps

theorem execTexbComplete_keeps {n : Nat} (hk : Keeps s0 s) :
    OutcomeKeeps s0 (execTexbComplete n s) := by
  unfold execTexbComplete
  split
  · exact .next hk
  · split
    · exact .next hk
    · split
      · split
        · exact .next hk
        · refine .next (State.serviceRead_keeps hk fun t bs h => ?_)
          try dsimp only
          split
          · exact State.serviceTrap_keeps h
          · exact State.served_keeps (State.emit_keeps (State.bindAt_keeps h))
      · split
        · exact .next hk
        · exact .next (State.served_keeps (State.emit_keeps (State.bindAt_keeps hk)))
      · exact .next hk

theorem execTexbBind_keeps {x : F} (hk : Keeps s0 s) :
    OutcomeKeeps s0 (execTexbBind x s) := by
  unfold execTexbBind
  try dsimp only
  with_reducible repeat' first
    | exact hk | exact trivial | apply Verdict.keeps_done | apply Verdict.keeps_doneThen | apply Verdict.keeps_wait
    | apply Verdict.keeps_over | apply Verdict.keeps_trapIn | apply OutcomeKeeps.next | apply OutcomeKeeps.fault | apply texbWord_keeps

theorem execTexbInval_keeps {x : F} (hk : Keeps s0 s) :
    OutcomeKeeps s0 (execTexbInval x s) := by
  unfold execTexbInval
  try dsimp only
  with_reducible repeat' first
    | exact hk | exact trivial | apply Verdict.keeps_done | apply Verdict.keeps_doneThen | apply Verdict.keeps_wait
    | apply Verdict.keeps_over | apply Verdict.keeps_trapIn | apply OutcomeKeeps.next | apply OutcomeKeeps.fault | apply texbWord_keeps

/-! ## System -/

theorem execSysTrap_keeps {x : F} (hk : Keeps s0 s) :
    OutcomeKeeps s0 (execSysTrap x s) := by
  unfold execSysTrap
  try dsimp only
  with_reducible repeat' first
    | exact hk | exact trivial | apply Verdict.keeps_done | apply Verdict.keeps_doneThen | apply Verdict.keeps_wait
    | apply Verdict.keeps_over | apply Verdict.keeps_trapIn | apply OutcomeKeeps.next | apply OutcomeKeeps.fault | apply sysWord_keeps
    | apply State.drain_keeps | apply Ctx.trap_keeps | assumption | (intro _) | split

theorem execSysTret_keeps {x : F} (hk : Keeps s0 s) :
    OutcomeKeeps s0 (execSysTret x s) := by
  unfold execSysTret
  try dsimp only
  with_reducible repeat' first
    | exact hk | exact trivial | apply Verdict.keeps_done | apply Verdict.keeps_doneThen | apply Verdict.keeps_wait
    | apply Verdict.keeps_over | apply Verdict.keeps_trapIn | apply OutcomeKeeps.next | apply OutcomeKeeps.fault | apply tretWord_keeps
    | apply State.setStrand_keeps | assumption | (intro _)

theorem execSysTretRr_keeps {x : F} (hk : Keeps s0 s) :
    OutcomeKeeps s0 (execSysTretRr x s) := by
  unfold execSysTretRr
  try dsimp only
  with_reducible repeat' first
    | exact hk | exact trivial | apply Verdict.keeps_done | apply Verdict.keeps_doneThen | apply Verdict.keeps_wait
    | apply Verdict.keeps_over | apply Verdict.keeps_trapIn | apply OutcomeKeeps.next | apply OutcomeKeeps.fault | apply tretWord_keeps
    | apply State.setStrand_keeps | apply State.emit_keeps | assumption | (intro _) | split | apply Keeps.upd

theorem execSysRdcr_keeps {x : F} (hk : Keeps s0 s) :
    OutcomeKeeps s0 (execSysRdcr x s) := by
  unfold execSysRdcr
  try dsimp only
  with_reducible repeat' first
    | exact hk | exact trivial | apply Verdict.keeps_done | apply Verdict.keeps_doneThen | apply Verdict.keeps_wait
    | apply Verdict.keeps_over | apply Verdict.keeps_trapIn | apply OutcomeKeeps.next | apply OutcomeKeeps.fault | apply sysWord_keeps
    | apply State.setStrand_keeps | assumption | (intro _) | split

theorem execSysWrcr_keeps {x : F} (hk : Keeps s0 s) :
    OutcomeKeeps s0 (execSysWrcr x s) := by
  unfold execSysWrcr
  try dsimp only
  with_reducible repeat' first
    | exact hk | exact trivial | apply Verdict.keeps_done | apply Verdict.keeps_doneThen | apply Verdict.keeps_wait
    | apply Verdict.keeps_over | apply Verdict.keeps_trapIn | apply OutcomeKeeps.next | apply OutcomeKeeps.fault | apply sysWord_keeps
    | apply State.crWrite_keeps | assumption | (intro _) | split

theorem execSysHalt_keeps {x : F} (hk : Keeps s0 s) :
    OutcomeKeeps s0 (execSysHalt x s) := by
  unfold execSysHalt
  try dsimp only
  with_reducible repeat' first
    | exact hk | exact trivial | apply Verdict.keeps_done | apply Verdict.keeps_doneThen | apply Verdict.keeps_wait
    | apply Verdict.keeps_over | apply Verdict.keeps_trapIn | apply OutcomeKeeps.next | apply OutcomeKeeps.fault | apply sysWord_keeps
    | apply State.failLaunch_keeps | assumption | (intro _) | split

theorem execSysHaltRelaunch_keeps {x : F} (hk : Keeps s0 s) :
    OutcomeKeeps s0 (execSysHaltRelaunch x s) := by
  unfold execSysHaltRelaunch
  try dsimp only
  with_reducible repeat' first
    | exact hk | exact trivial | apply Verdict.keeps_done | apply Verdict.keeps_doneThen | apply Verdict.keeps_wait
    | apply Verdict.keeps_over | apply Verdict.keeps_trapIn | apply OutcomeKeeps.next | apply OutcomeKeeps.fault | apply sysWord_keeps
    | apply State.relaunch_keeps | apply State.failLaunch_keeps | assumption | (intro _) | split

theorem execSysXread_keeps {x : F} (hk : Keeps s0 s) :
    OutcomeKeeps s0 (execSysXread x s) := by
  unfold execSysXread
  try dsimp only
  with_reducible repeat' first
    | exact hk | exact trivial | apply Verdict.keeps_done | apply Verdict.keeps_doneThen | apply Verdict.keeps_wait
    | apply Verdict.keeps_over | apply Verdict.keeps_trapIn | apply OutcomeKeeps.next | apply OutcomeKeeps.fault | apply word_keeps
    | apply Ctx.target_keeps | apply State.setStrand_keeps | apply Keeps.getD | assumption | (intro _) | split

theorem execSysXwrite_keeps {x : F} (hk : Keeps s0 s) :
    OutcomeKeeps s0 (execSysXwrite x s) := by
  unfold execSysXwrite
  try dsimp only
  with_reducible repeat' first
    | exact hk | exact trivial | apply Verdict.keeps_done | apply Verdict.keeps_doneThen | apply Verdict.keeps_wait
    | apply Verdict.keeps_over | apply Verdict.keeps_trapIn | apply OutcomeKeeps.next | apply OutcomeKeeps.fault | apply word_keeps
    | apply State.setStrand_keeps | apply State.drain_keeps | apply Ctx.target_keeps | apply State.write_keeps | apply Ctx.misaligned_keeps
    | apply State.modStrand_keeps | apply Ctx.trapAll_keeps | (refine Selector.write_keeps ?_ (by assumption)) | apply Keeps.getD
    | assumption | (intro _) | split

theorem execSysResume_keeps {x : F} (hk : Keeps s0 s) :
    OutcomeKeeps s0 (execSysResume x s) := by
  unfold execSysResume
  try dsimp only
  with_reducible repeat' first
    | exact hk | exact trivial | apply Verdict.keeps_done | apply Verdict.keeps_doneThen | apply Verdict.keeps_wait
    | apply Verdict.keeps_over | apply Verdict.keeps_trapIn | apply OutcomeKeeps.next | apply OutcomeKeeps.fault | apply sysWord_keeps
    | apply State.modStrand_keeps | apply Ctx.trapAll_keeps | assumption | (intro _) | split | apply Keeps.upd

theorem execSysIcinv_keeps {x : F} (hk : Keeps s0 s) :
    OutcomeKeeps s0 (execSysIcinv x s) := by
  unfold execSysIcinv
  try dsimp only
  with_reducible repeat' first
    | exact hk | exact trivial | apply Verdict.keeps_done | apply Verdict.keeps_doneThen | apply Verdict.keeps_wait
    | apply Verdict.keeps_over | apply Verdict.keeps_trapIn | apply OutcomeKeeps.next | apply OutcomeKeeps.fault | apply sysWord_keeps
    | apply Ctx.trapAll_keeps | apply State.dropLines_keeps | assumption | (intro _) | split

/-! ## Tables -/

theorem execTdeWrite_keeps {x : F} (hk : Keeps s0 s) :
    OutcomeKeeps s0 (execTdeWrite x s) := by
  unfold execTdeWrite
  try dsimp only
  with_reducible repeat' first
    | exact hk | exact trivial | apply Verdict.keeps_done | apply Verdict.keeps_doneThen | apply Verdict.keeps_wait
    | apply Verdict.keeps_over | apply Verdict.keeps_trapIn | apply OutcomeKeeps.next | apply OutcomeKeeps.fault | apply tdeWord_keeps

theorem execTdeRead_keeps {x : F} (hk : Keeps s0 s) :
    OutcomeKeeps s0 (execTdeRead x s) := by
  unfold execTdeRead
  try dsimp only
  with_reducible repeat' first
    | exact hk | exact trivial | apply Verdict.keeps_done | apply Verdict.keeps_doneThen | apply Verdict.keeps_wait
    | apply Verdict.keeps_over | apply Verdict.keeps_trapIn | apply OutcomeKeeps.next | apply OutcomeKeeps.fault | apply tdeWord_keeps

theorem execTdeInval_keeps {x : F} (hk : Keeps s0 s) :
    OutcomeKeeps s0 (execTdeInval x s) := by
  unfold execTdeInval
  try dsimp only
  with_reducible repeat' first
    | exact hk | exact trivial | apply Verdict.keeps_done | apply Verdict.keeps_doneThen | apply Verdict.keeps_wait
    | apply Verdict.keeps_over | apply Verdict.keeps_trapIn | apply OutcomeKeeps.next | apply OutcomeKeeps.fault | apply tdeWord_keeps

theorem execTdeComplete_keeps {n : Nat} (hk : Keeps s0 s) :
    OutcomeKeeps s0 (execTdeComplete n s) := by
  unfold execTdeComplete
  split
  · exact .next hk
  · split
    · exact .next hk
    · extract_lets place
      split
      · extract_lets put
        have hp : ∀ t bs, Keeps s0 t → Keeps s0 (put t bs) := fun _ _ h => State.served_keeps (State.emit_keeps (State.setTde_keeps h))
        split
        · exact .next (State.serviceRead_keeps hk hp)
        · split
          · exact .next (State.serviceFault_keeps hk)
          · exact .next (hp _ _ (State.serviceRan_keeps hk))
      · extract_lets bs
        split
        · exact .next (State.serviceWrite_keeps hk)
        · exact .next (State.serviceWrote_keeps (State.write_keeps hk))
      · exact .next (State.served_keeps (State.modFe_keeps hk))
      · exact .next hk

theorem execHdlLoad_keeps {x : F} (hk : Keeps s0 s) :
    OutcomeKeeps s0 (execHdlLoad x s) := by
  unfold execHdlLoad
  try dsimp only
  repeat' first
    | with_reducible exact hk | exact trivial | with_reducible apply Verdict.keeps_done | with_reducible apply Verdict.keeps_doneThen
    | with_reducible apply Verdict.keeps_wait | with_reducible apply Verdict.keeps_over | with_reducible apply Verdict.keeps_trapIn
    | with_reducible apply OutcomeKeeps.next | with_reducible apply OutcomeKeeps.fault | with_reducible apply word_keeps
    | with_reducible apply Ctx.trap_keeps | with_reducible apply Ctx.misaligned_keeps | with_reducible apply State.modStrand_keeps
    | with_reducible apply State.asyncFault_keeps | with_reducible apply Ctx.trapAll_keeps | with_reducible apply State.modBlock_keeps
    | with_reducible assumption | (intro _) | split

theorem execHdlPerm_keeps {x : F} (hk : Keeps s0 s) :
    OutcomeKeeps s0 (execHdlPerm x s) := by
  unfold execHdlPerm
  try dsimp only
  with_reducible repeat' first
    | exact hk | exact trivial | apply Verdict.keeps_done | apply Verdict.keeps_doneThen | apply Verdict.keeps_wait
    | apply Verdict.keeps_over | apply Verdict.keeps_trapIn | apply OutcomeKeeps.next | apply OutcomeKeeps.fault | apply word_keeps
    | apply Ctx.trapAll_keeps | apply State.setStrand_keeps | apply Keeps.foldl | apply Keeps.foldlPair | assumption | (intro _) | split

end Sys2Proof.Machine
end

