-- ==== Sys2Proof/Laws/PerInstr.lean ====
section
/-!
SUPPORT. Statements for every instruction, constructor by constructor: decoding an encoded well-formed instruction gives it back (R57 to R79). An event
has no word, and its statement says nothing.
-/
namespace Sys2Proof.Laws
open Sys2Proof

/-- The word of a well-formed instruction decodes to it. -/
def RoundTrip.Statement (i : Instr) : Prop := ∀ w, i.wf = true → encode i = some w → decode w = .ok i

/-- An instruction with a sound form whose fields give it back. -/
theorem RoundTrip.of {i : Instr} {fm : Form} (hf : i.form = some fm) (hs : fm.sound) (hi : i.wf = true → fm.instr = some i) :
    RoundTrip.Statement i := by
  intro w hw he
  obtain rfl : fm.toWord = w := by simpa [encode, hf] using he
  obtain ⟨h1, h2⟩ := Form.ofWord_toWord fm hs
  exact decode_form hw h1 (hi hw) h2

/-- An event has no word. -/
theorem nofun_event {i : Instr} (h : i.form = none) : RoundTrip.Statement i := by
  intro w _ he; simp [encode, h] at he

theorem nop_roundTrip : RoundTrip.Statement .nop := by
  intro w _ he
  obtain rfl : (Form.f 0 0 F.zero).toWord = w := by simpa [encode, Instr.form] using he
  rfl

theorem fence_read (ord : Fin 3) (scope : Fin 6) (x : F) : (Form.f 0x58 (8 * (ord.val + 1) + scope.val) x).instr = some (.fence ord scope x) := by
  have h1 : (8 * (ord.val + 1) + scope.val) / 8 = ord.val + 1 := by omega
  have h2 : (8 * (ord.val + 1) + scope.val) % 8 = scope.val := by omega
  have h3 : 8 * (ord.val + 1) + scope.val ≠ 0x20 := by omega
  have h4 := ord.isLt
  have h5 := scope.isLt
  simp only [Form.instr, decodeF, if_neg h3, h1, h2]
  rw [dif_pos (by omega)]
  rfl

theorem cvt_read (dst : BitVec 4) (x : F) : (Form.f 0x40 dst.toNat x).instr = some (.cvt dst x) := by
  simp [Form.instr, decodeF, dst.isLt]

theorem barWait_read (x : F) (h : (Instr.barWait x).wf = true) : (Form.f 0x60 2 x).instr = some (.barWait x) := by
  have : x.mod.getLsbD 0 = false := F.mod_bit (Bool.and_eq_true_iff.1 h).1 0 (by decide) (by decide)
  simp only [Form.instr, decodeF, this]; rfl

theorem barWaitPhase_read (x : F) (h : (Instr.barWaitPhase x).wf = true) : (Form.f 0x60 2 x).instr = some (.barWaitPhase x) := by
  have : x.mod = 1 := by simp only [Instr.wf, Bool.and_eq_true, beq_iff_eq] at h; exact h.1.2
  simp only [Form.instr, decodeF, this]; rfl

theorem sample_read (x : F) (h : (Instr.sample x).wf = true) : (Form.f 0x6E 0 x).instr = some (.sample x) := by
  have : x.mod.getLsbD 4 = false := F.mod_bit h 4 (by decide) (by decide)
  simp only [Form.instr, decodeF, fn0, this]; rfl

theorem sampleLod_read (x : F) (h : (Instr.sampleLod x).wf = true) : (Form.f 0x6E 0 x).instr = some (.sampleLod x) := by
  have : x.mod.getLsbD 4 = true := (Bool.and_eq_true_iff.1 h).2
  simp only [Form.instr, decodeF, fn0, this]; rfl

theorem sysTret_read (x : F) (h : (Instr.sysTret x).wf = true) : (Form.f 0x7D 1 x).instr = some (.sysTret x) := by
  have : x.mod.getLsbD 0 = false := F.mod_bit (Bool.and_eq_true_iff.1 h).1 0 (by decide) (by decide)
  simp only [Form.instr, decodeF, this]; rfl

theorem sysTretRr_read (x : F) (h : (Instr.sysTretRr x).wf = true) : (Form.f 0x7D 1 x).instr = some (.sysTretRr x) := by
  have : x.mod = 1 := by simp only [Instr.wf, Bool.and_eq_true, beq_iff_eq] at h; exact h.1.2
  simp only [Form.instr, decodeF, this]; rfl

theorem sysHalt_read (x : F) (h : (Instr.sysHalt x).wf = true) : (Form.f 0x7D 4 x).instr = some (.sysHalt x) := by
  have : x.mod.getLsbD 0 = false := F.mod_bit (Bool.and_eq_true_iff.1 h).1 0 (by decide) (by decide)
  simp only [Form.instr, decodeF, this]; rfl

theorem sysHaltRelaunch_read (x : F) (h : (Instr.sysHaltRelaunch x).wf = true) : (Form.f 0x7D 4 x).instr = some (.sysHaltRelaunch x) := by
  have : x.mod.getLsbD 0 = true := by simp only [Instr.wf, Bool.and_eq_true] at h; exact h.1.2
  simp only [Form.instr, decodeF, this]; rfl

theorem cpl_read (x : E) (h : (Instr.cpl x).wf = true) : (Form.e 0x68 0 x).instr = some (.cpl x) := by
  have hm : x.mod &&& ~~~(0x100#12 ||| 0x600#12) = 0 := by
    simp only [Instr.wf, E.ok, Bool.and_eq_true, beq_iff_eq] at h; exact h.2
  have : x.fo = false := by
    have h0 := congrArg (·.getLsbD 11) hm
    have h1 : x.mod.getLsbD 11 = (0 : BitVec 12).getLsbD 11 := by
      simpa only [BitVec.getLsbD_and, show (~~~(0x100#12 ||| 0x600#12)).getLsbD 11 = true from rfl, Bool.and_true] using h0
    exact h1
  simp only [Form.instr, decodeE, fn0, this]; rfl

theorem cplFo_read (x : E) (h : (Instr.cplFo x).wf = true) : (Form.e 0x68 0 x).instr = some (.cplFo x) := by
  have : x.fo = true := (Bool.and_eq_true_iff.1 h).2
  simp only [Form.instr, decodeE, fn0, this]; rfl

theorem RoundTrip.nop : RoundTrip.Statement (.nop) := nop_roundTrip
theorem RoundTrip.ill : RoundTrip.Statement (.ill) := RoundTrip.of rfl trivial fun _ => rfl
theorem RoundTrip.movVV (x : F) : RoundTrip.Statement (.movVV x) := RoundTrip.of rfl ⟨by decide, by decide, rfl, by decide⟩ fun _ => rfl
theorem RoundTrip.movVS (x : F) : RoundTrip.Statement (.movVS x) := RoundTrip.of rfl ⟨by decide, by decide, rfl, by decide⟩ fun _ => rfl
theorem RoundTrip.movSV (x : F) : RoundTrip.Statement (.movSV x) := RoundTrip.of rfl ⟨by decide, by decide, rfl, by decide⟩ fun _ => rfl
theorem RoundTrip.movSS (x : F) : RoundTrip.Statement (.movSS x) := RoundTrip.of rfl ⟨by decide, by decide, rfl, by decide⟩ fun _ => rfl
theorem RoundTrip.movQueuePop (x : F) : RoundTrip.Statement (.movQueuePop x) := RoundTrip.of rfl ⟨by decide, by decide, rfl, by decide⟩ fun _ => rfl
theorem RoundTrip.movQueuePush (x : F) : RoundTrip.Statement (.movQueuePush x) := RoundTrip.of rfl ⟨by decide, by decide, rfl, by decide⟩ fun _ => rfl
theorem RoundTrip.movVM (x : F) : RoundTrip.Statement (.movVM x) := RoundTrip.of rfl ⟨by decide, by decide, rfl, by decide⟩ fun _ => rfl
theorem RoundTrip.movMV (x : F) : RoundTrip.Statement (.movMV x) := RoundTrip.of rfl ⟨by decide, by decide, rfl, by decide⟩ fun _ => rfl
theorem RoundTrip.movHandleStatus (x : F) : RoundTrip.Statement (.movHandleStatus x) := RoundTrip.of rfl ⟨by decide, by decide, rfl, by decide⟩ fun _ => rfl
theorem RoundTrip.movHandleToken (x : F) : RoundTrip.Statement (.movHandleToken x) := RoundTrip.of rfl ⟨by decide, by decide, rfl, by decide⟩ fun _ => rfl
theorem RoundTrip.movTokenHandle (x : F) : RoundTrip.Statement (.movTokenHandle x) := RoundTrip.of rfl ⟨by decide, by decide, rfl, by decide⟩ fun _ => rfl
theorem RoundTrip.movi (x : I) : RoundTrip.Statement (.movi x) := RoundTrip.of rfl ⟨by decide, rfl⟩ fun _ => rfl
theorem RoundTrip.iaddi (x : I) : RoundTrip.Statement (.iaddi x) := RoundTrip.of rfl ⟨by decide, rfl⟩ fun _ => rfl
theorem RoundTrip.andi (x : I) : RoundTrip.Statement (.andi x) := RoundTrip.of rfl ⟨by decide, rfl⟩ fun _ => rfl
theorem RoundTrip.ori (x : I) : RoundTrip.Statement (.ori x) := RoundTrip.of rfl ⟨by decide, rfl⟩ fun _ => rfl
theorem RoundTrip.xori (x : I) : RoundTrip.Statement (.xori x) := RoundTrip.of rfl ⟨by decide, rfl⟩ fun _ => rfl
theorem RoundTrip.iadd (fn : Fin 3) (x : F) : RoundTrip.Statement (.iadd fn x) := RoundTrip.of rfl ⟨by decide, by decide, rfl, by omega⟩ fun _ => finFn_val fn fun n => .iadd n x
theorem RoundTrip.isub (fn : Fin 3) (x : F) : RoundTrip.Statement (.isub fn x) := RoundTrip.of rfl ⟨by decide, by decide, rfl, by omega⟩ fun _ => finFn_val fn fun n => .isub n x
theorem RoundTrip.imul (fn : Fin 3) (x : F) : RoundTrip.Statement (.imul fn x) := RoundTrip.of rfl ⟨by decide, by decide, rfl, by omega⟩ fun _ => finFn_val fn fun n => .imul n x
theorem RoundTrip.imad (x : F) : RoundTrip.Statement (.imad x) := RoundTrip.of rfl ⟨by decide, by decide, rfl, by decide⟩ fun _ => rfl
theorem RoundTrip.iminmax (fn : Fin 4) (x : F) : RoundTrip.Statement (.iminmax fn x) := RoundTrip.of rfl ⟨by decide, by decide, rfl, by omega⟩ fun _ => finFn_val fn fun n => .iminmax n x
theorem RoundTrip.iabs (x : F) : RoundTrip.Statement (.iabs x) := RoundTrip.of rfl ⟨by decide, by decide, rfl, by decide⟩ fun _ => rfl
theorem RoundTrip.iaddw (x : F) : RoundTrip.Statement (.iaddw x) := RoundTrip.of rfl ⟨by decide, by decide, rfl, by decide⟩ fun _ => rfl
theorem RoundTrip.lea (x : F) : RoundTrip.Statement (.lea x) := RoundTrip.of rfl ⟨by decide, by decide, rfl, by decide⟩ fun _ => rfl
theorem RoundTrip.twill (x : F) : RoundTrip.Statement (.twill x) := RoundTrip.of rfl ⟨by decide, by decide, rfl, by decide⟩ fun _ => rfl
theorem RoundTrip.shf (fn : Fin 5) (x : F) : RoundTrip.Statement (.shf fn x) := RoundTrip.of rfl ⟨by decide, by decide, rfl, by omega⟩ fun _ => finFn_val fn fun n => .shf n x
theorem RoundTrip.bfx (x : F) : RoundTrip.Statement (.bfx x) := RoundTrip.of rfl ⟨by decide, by decide, rfl, by decide⟩ fun _ => rfl
theorem RoundTrip.bfi (x : F) : RoundTrip.Statement (.bfi x) := RoundTrip.of rfl ⟨by decide, by decide, rfl, by decide⟩ fun _ => rfl
theorem RoundTrip.popc (x : F) : RoundTrip.Statement (.popc x) := RoundTrip.of rfl ⟨by decide, by decide, rfl, by decide⟩ fun _ => rfl
theorem RoundTrip.clz (x : F) : RoundTrip.Statement (.clz x) := RoundTrip.of rfl ⟨by decide, by decide, rfl, by decide⟩ fun _ => rfl
theorem RoundTrip.brev (x : F) : RoundTrip.Statement (.brev x) := RoundTrip.of rfl ⟨by decide, by decide, rfl, by decide⟩ fun _ => rfl
theorem RoundTrip.sel (x : F) : RoundTrip.Statement (.sel x) := RoundTrip.of rfl ⟨by decide, by decide, rfl, by decide⟩ fun _ => rfl
theorem RoundTrip.icmp (fn : Fin 10) (x : F) : RoundTrip.Statement (.icmp fn x) := RoundTrip.of rfl ⟨by decide, by decide, rfl, by omega⟩ fun _ => finFn_val fn fun n => .icmp n x
theorem RoundTrip.fcmp (fn : Fin 8) (x : F) : RoundTrip.Statement (.fcmp fn x) := RoundTrip.of rfl ⟨by decide, by decide, rfl, by omega⟩ fun _ => finFn_val fn fun n => .fcmp n x
theorem RoundTrip.fclass (x : F) : RoundTrip.Statement (.fclass x) := RoundTrip.of rfl ⟨by decide, by decide, rfl, by decide⟩ fun _ => rfl
theorem RoundTrip.read (fn : Fin 17) (x : F) : RoundTrip.Statement (.read fn x) := RoundTrip.of rfl ⟨by decide, by decide, rfl, by omega⟩ fun _ => finFn_val fn fun n => .read n x
theorem RoundTrip.peek (fn : Fin 4) (x : F) : RoundTrip.Statement (.peek fn x) := RoundTrip.of rfl ⟨by decide, by decide, rfl, by omega⟩ fun _ => finFn_val fn fun n => .peek n x
theorem RoundTrip.fadd (x : F) : RoundTrip.Statement (.fadd x) := RoundTrip.of rfl ⟨by decide, by decide, rfl, by decide⟩ fun _ => rfl
theorem RoundTrip.fmul (x : F) : RoundTrip.Statement (.fmul x) := RoundTrip.of rfl ⟨by decide, by decide, rfl, by decide⟩ fun _ => rfl
theorem RoundTrip.ffma (x : F) : RoundTrip.Statement (.ffma x) := RoundTrip.of rfl ⟨by decide, by decide, rfl, by decide⟩ fun _ => rfl
theorem RoundTrip.faddi (x : I) : RoundTrip.Statement (.faddi x) := RoundTrip.of rfl ⟨by decide, rfl⟩ fun _ => rfl
theorem RoundTrip.fmuli (x : I) : RoundTrip.Statement (.fmuli x) := RoundTrip.of rfl ⟨by decide, rfl⟩ fun _ => rfl
theorem RoundTrip.fscale (x : F) : RoundTrip.Statement (.fscale x) := RoundTrip.of rfl ⟨by decide, by decide, rfl, by decide⟩ fun _ => rfl
theorem RoundTrip.fminmax (fn : Fin 4) (x : F) : RoundTrip.Statement (.fminmax fn x) := RoundTrip.of rfl ⟨by decide, by decide, rfl, by omega⟩ fun _ => finFn_val fn fun n => .fminmax n x
theorem RoundTrip.frnd (x : F) : RoundTrip.Statement (.frnd x) := RoundTrip.of rfl ⟨by decide, by decide, rfl, by decide⟩ fun _ => rfl
theorem RoundTrip.fdiv (x : F) : RoundTrip.Statement (.fdiv x) := RoundTrip.of rfl ⟨by decide, by decide, rfl, by decide⟩ fun _ => rfl
theorem RoundTrip.fsqrt (x : F) : RoundTrip.Statement (.fsqrt x) := RoundTrip.of rfl ⟨by decide, by decide, rfl, by decide⟩ fun _ => rfl
theorem RoundTrip.frcp (x : F) : RoundTrip.Statement (.frcp x) := RoundTrip.of rfl ⟨by decide, by decide, rfl, by decide⟩ fun _ => rfl
theorem RoundTrip.frsq (x : F) : RoundTrip.Statement (.frsq x) := RoundTrip.of rfl ⟨by decide, by decide, rfl, by decide⟩ fun _ => rfl
theorem RoundTrip.ftr (fn : Fin 5) (x : F) : RoundTrip.Statement (.ftr fn x) := RoundTrip.of rfl ⟨by decide, by decide, rfl, by omega⟩ fun _ => finFn_val fn fun n => .ftr n x
theorem RoundTrip.twosum (x : F) : RoundTrip.Statement (.twosum x) := RoundTrip.of rfl ⟨by decide, by decide, rfl, by decide⟩ fun _ => rfl
theorem RoundTrip.twoprod (x : F) : RoundTrip.Statement (.twoprod x) := RoundTrip.of rfl ⟨by decide, by decide, rfl, by decide⟩ fun _ => rfl
theorem RoundTrip.pkadd (bf : Bool) (x : F) : RoundTrip.Statement (.pkadd bf x) := RoundTrip.of rfl ⟨by decide, by decide, rfl, by cases bf <;> decide⟩ fun _ => by cases bf <;> rfl
theorem RoundTrip.pkmul (bf : Bool) (x : F) : RoundTrip.Statement (.pkmul bf x) := RoundTrip.of rfl ⟨by decide, by decide, rfl, by cases bf <;> decide⟩ fun _ => by cases bf <;> rfl
theorem RoundTrip.pkfma (bf : Bool) (x : F) : RoundTrip.Statement (.pkfma bf x) := RoundTrip.of rfl ⟨by decide, by decide, rfl, by cases bf <;> decide⟩ fun _ => by cases bf <;> rfl
theorem RoundTrip.jseed (x : F) : RoundTrip.Statement (.jseed x) := RoundTrip.of rfl ⟨by decide, by decide, rfl, by decide⟩ fun _ => rfl
theorem RoundTrip.tget (x : F) : RoundTrip.Statement (.tget x) := RoundTrip.of rfl ⟨by decide, by decide, rfl, by decide⟩ fun _ => rfl
theorem RoundTrip.tset (x : F) : RoundTrip.Statement (.tset x) := RoundTrip.of rfl ⟨by decide, by decide, rfl, by decide⟩ fun _ => rfl
theorem RoundTrip.jzero (x : F) : RoundTrip.Statement (.jzero x) := RoundTrip.of rfl ⟨by decide, by decide, rfl, by decide⟩ fun _ => rfl
theorem RoundTrip.jeval (x : F) : RoundTrip.Statement (.jeval x) := RoundTrip.of rfl ⟨by decide, by decide, rfl, by decide⟩ fun _ => rfl
theorem RoundTrip.fprint (x : F) : RoundTrip.Statement (.fprint x) := RoundTrip.of rfl ⟨by decide, by decide, rfl, by decide⟩ fun _ => rfl
theorem RoundTrip.cvt (dst : BitVec 4) (x : F) : RoundTrip.Statement (.cvt dst x) := RoundTrip.of rfl ⟨by decide, by decide, rfl, by have := dst.isLt; omega⟩ fun _ => cvt_read dst x
theorem RoundTrip.qntSt (x : F) : RoundTrip.Statement (.qntSt x) := RoundTrip.of rfl ⟨by decide, by decide, rfl, by decide⟩ fun _ => rfl
theorem RoundTrip.qntZ (x : F) : RoundTrip.Statement (.qntZ x) := RoundTrip.of rfl ⟨by decide, by decide, rfl, by decide⟩ fun _ => rfl
theorem RoundTrip.pack (x : F) : RoundTrip.Statement (.pack x) := RoundTrip.of rfl ⟨by decide, by decide, rfl, by decide⟩ fun _ => rfl
theorem RoundTrip.unpack (x : F) : RoundTrip.Statement (.unpack x) := RoundTrip.of rfl ⟨by decide, by decide, rfl, by decide⟩ fun _ => rfl
theorem RoundTrip.ld (x : M) : RoundTrip.Statement (.ld x) := RoundTrip.of rfl ⟨by decide, rfl⟩ fun _ => rfl
theorem RoundTrip.st (x : M) : RoundTrip.Statement (.st x) := RoundTrip.of rfl ⟨by decide, rfl⟩ fun _ => rfl
theorem RoundTrip.atom (fn : Fin 9) (x : F) : RoundTrip.Statement (.atom fn x) := RoundTrip.of rfl ⟨by decide, by decide, rfl, by omega⟩ fun _ => finFn_val fn fun n => .atom n x
theorem RoundTrip.cas (x : F) : RoundTrip.Statement (.cas x) := RoundTrip.of rfl ⟨by decide, by decide, rfl, by decide⟩ fun _ => rfl
theorem RoundTrip.fxadd (x : F) : RoundTrip.Statement (.fxadd x) := RoundTrip.of rfl ⟨by decide, by decide, rfl, by decide⟩ fun _ => rfl
theorem RoundTrip.fxrdRead (x : F) : RoundTrip.Statement (.fxrdRead x) := RoundTrip.of rfl ⟨by decide, by decide, rfl, by decide⟩ fun _ => rfl
theorem RoundTrip.fxrdClr (x : F) : RoundTrip.Statement (.fxrdClr x) := RoundTrip.of rfl ⟨by decide, by decide, rfl, by decide⟩ fun _ => rfl
theorem RoundTrip.qld (x : M) : RoundTrip.Statement (.qld x) := RoundTrip.of rfl ⟨by decide, rfl⟩ fun _ => rfl
theorem RoundTrip.qst (x : M) : RoundTrip.Statement (.qst x) := RoundTrip.of rfl ⟨by decide, rfl⟩ fun _ => rfl
theorem RoundTrip.fence (ord : Fin 3) (scope : Fin 6) (x : F) : RoundTrip.Statement (.fence ord scope x) := RoundTrip.of rfl ⟨by decide, by decide, rfl, by omega⟩ fun _ => fence_read ord scope x
theorem RoundTrip.fenceSc (x : F) : RoundTrip.Statement (.fenceSc x) := RoundTrip.of rfl ⟨by decide, by decide, rfl, by decide⟩ fun _ => rfl
theorem RoundTrip.waita (x : F) : RoundTrip.Statement (.waita x) := RoundTrip.of rfl ⟨by decide, by decide, rfl, by decide⟩ fun _ => rfl
theorem RoundTrip.barSet (x : F) : RoundTrip.Statement (.barSet x) := RoundTrip.of rfl ⟨by decide, by decide, rfl, by decide⟩ fun _ => rfl
theorem RoundTrip.barMark (x : F) : RoundTrip.Statement (.barMark x) := RoundTrip.of rfl ⟨by decide, by decide, rfl, by decide⟩ fun _ => rfl
theorem RoundTrip.barWait (x : F) : RoundTrip.Statement (.barWait x) := RoundTrip.of rfl ⟨by decide, by decide, rfl, by decide⟩ fun h => barWait_read x h
theorem RoundTrip.barWaitPhase (x : F) : RoundTrip.Statement (.barWaitPhase x) := RoundTrip.of rfl ⟨by decide, by decide, rfl, by decide⟩ fun h => barWaitPhase_read x h
theorem RoundTrip.barOwe (x : F) : RoundTrip.Statement (.barOwe x) := RoundTrip.of rfl ⟨by decide, by decide, rfl, by decide⟩ fun _ => rfl
theorem RoundTrip.barStat (x : F) : RoundTrip.Statement (.barStat x) := RoundTrip.of rfl ⟨by decide, by decide, rfl, by decide⟩ fun _ => rfl
theorem RoundTrip.barShare (x : F) : RoundTrip.Statement (.barShare x) := RoundTrip.of rfl ⟨by decide, by decide, rfl, by decide⟩ fun _ => rfl
theorem RoundTrip.sknJoin (x : F) : RoundTrip.Statement (.sknJoin x) := RoundTrip.of rfl ⟨by decide, by decide, rfl, by decide⟩ fun _ => rfl
theorem RoundTrip.sknLeave (x : F) : RoundTrip.Statement (.sknLeave x) := RoundTrip.of rfl ⟨by decide, by decide, rfl, by decide⟩ fun _ => rfl
theorem RoundTrip.sknSync (x : F) : RoundTrip.Statement (.sknSync x) := RoundTrip.of rfl ⟨by decide, by decide, rfl, by decide⟩ fun _ => rfl
theorem RoundTrip.qcfg (x : F) : RoundTrip.Statement (.qcfg x) := RoundTrip.of rfl ⟨by decide, by decide, rfl, by decide⟩ fun _ => rfl
theorem RoundTrip.hndWait (x : F) : RoundTrip.Statement (.hndWait x) := RoundTrip.of rfl ⟨by decide, by decide, rfl, by decide⟩ fun _ => rfl
theorem RoundTrip.hndTest (x : F) : RoundTrip.Statement (.hndTest x) := RoundTrip.of rfl ⟨by decide, by decide, rfl, by decide⟩ fun _ => rfl
theorem RoundTrip.hndCancel (x : F) : RoundTrip.Statement (.hndCancel x) := RoundTrip.of rfl ⟨by decide, by decide, rfl, by decide⟩ fun _ => rfl
theorem RoundTrip.hndMove (x : F) : RoundTrip.Statement (.hndMove x) := RoundTrip.of rfl ⟨by decide, by decide, rfl, by decide⟩ fun _ => rfl
theorem RoundTrip.cpl (x : E) : RoundTrip.Statement (.cpl x) := RoundTrip.of rfl ⟨by decide, rfl, by decide⟩ fun h => cpl_read x h
theorem RoundTrip.cplFo (x : E) : RoundTrip.Statement (.cplFo x) := RoundTrip.of rfl ⟨by decide, rfl, by decide⟩ fun h => cplFo_read x h
theorem RoundTrip.cps (x : E) : RoundTrip.Statement (.cps x) := RoundTrip.of rfl ⟨by decide, rfl, by decide⟩ fun _ => rfl
theorem RoundTrip.cpm (x : E) : RoundTrip.Statement (.cpm x) := RoundTrip.of rfl ⟨by decide, rfl, by decide⟩ fun _ => rfl
theorem RoundTrip.cpq (x : E) : RoundTrip.Statement (.cpq x) := RoundTrip.of rfl ⟨by decide, rfl, by decide⟩ fun _ => rfl
theorem RoundTrip.cpx (x : E) : RoundTrip.Statement (.cpx x) := RoundTrip.of rfl ⟨by decide, rfl, by decide⟩ fun _ => rfl
theorem RoundTrip.cpr (x : E) : RoundTrip.Statement (.cpr x) := RoundTrip.of rfl ⟨by decide, rfl, by decide⟩ fun _ => rfl
theorem RoundTrip.sample (x : F) : RoundTrip.Statement (.sample x) := RoundTrip.of rfl ⟨by decide, by decide, rfl, by decide⟩ fun h => sample_read x h
theorem RoundTrip.sampleLod (x : F) : RoundTrip.Statement (.sampleLod x) := RoundTrip.of rfl ⟨by decide, by decide, rfl, by decide⟩ fun h => sampleLod_read x h
theorem RoundTrip.texbBind (x : F) : RoundTrip.Statement (.texbBind x) := RoundTrip.of rfl ⟨by decide, by decide, rfl, by decide⟩ fun _ => rfl
theorem RoundTrip.texbInval (x : F) : RoundTrip.Statement (.texbInval x) := RoundTrip.of rfl ⟨by decide, by decide, rfl, by decide⟩ fun _ => rfl
theorem RoundTrip.mxb (x : E) : RoundTrip.Statement (.mxb x) := RoundTrip.of rfl ⟨by decide, rfl, by decide⟩ fun _ => rfl
theorem RoundTrip.mxsw (x : E) : RoundTrip.Statement (.mxsw x) := RoundTrip.of rfl ⟨by decide, rfl, by decide⟩ fun _ => rfl
theorem RoundTrip.mxsq (x : E) : RoundTrip.Statement (.mxsq x) := RoundTrip.of rfl ⟨by decide, rfl, by decide⟩ fun _ => rfl
theorem RoundTrip.mma (sr : Fin 5) (x : E) : RoundTrip.Statement (.mma sr x) := RoundTrip.of rfl ⟨by decide, rfl, by omega⟩ fun _ => finFn_val sr fun n => .mma n x
theorem RoundTrip.mxd (x : E) : RoundTrip.Statement (.mxd x) := RoundTrip.of rfl ⟨by decide, rfl, by decide⟩ fun _ => rfl
theorem RoundTrip.mxdGuide (x : E) : RoundTrip.Statement (.mxdGuide x) := RoundTrip.of rfl ⟨by decide, rfl, by decide⟩ fun _ => rfl
theorem RoundTrip.mxcClear (x : E) : RoundTrip.Statement (.mxcClear x) := RoundTrip.of rfl ⟨by decide, rfl, by decide⟩ fun _ => rfl
theorem RoundTrip.mxcPair (x : E) : RoundTrip.Statement (.mxcPair x) := RoundTrip.of rfl ⟨by decide, rfl, by decide⟩ fun _ => rfl
theorem RoundTrip.mxcUnpair (x : E) : RoundTrip.Statement (.mxcUnpair x) := RoundTrip.of rfl ⟨by decide, rfl, by decide⟩ fun _ => rfl
theorem RoundTrip.tdeWrite (x : F) : RoundTrip.Statement (.tdeWrite x) := RoundTrip.of rfl ⟨by decide, by decide, rfl, by decide⟩ fun _ => rfl
theorem RoundTrip.tdeRead (x : F) : RoundTrip.Statement (.tdeRead x) := RoundTrip.of rfl ⟨by decide, by decide, rfl, by decide⟩ fun _ => rfl
theorem RoundTrip.tdeInval (x : F) : RoundTrip.Statement (.tdeInval x) := RoundTrip.of rfl ⟨by decide, by decide, rfl, by decide⟩ fun _ => rfl
theorem RoundTrip.hdlLoad (x : F) : RoundTrip.Statement (.hdlLoad x) := RoundTrip.of rfl ⟨by decide, by decide, rfl, by decide⟩ fun _ => rfl
theorem RoundTrip.hdlPerm (x : F) : RoundTrip.Statement (.hdlPerm x) := RoundTrip.of rfl ⟨by decide, by decide, rfl, by decide⟩ fun _ => rfl
theorem RoundTrip.bra (x : J) : RoundTrip.Statement (.bra x) := RoundTrip.of rfl ⟨by decide, rfl⟩ fun _ => rfl
theorem RoundTrip.jmpi (x : F) : RoundTrip.Statement (.jmpi x) := RoundTrip.of rfl ⟨by decide, by decide, rfl, by decide⟩ fun _ => rfl
theorem RoundTrip.call (x : J) : RoundTrip.Statement (.call x) := RoundTrip.of rfl ⟨by decide, rfl⟩ fun _ => rfl
theorem RoundTrip.ctlRet (x : F) : RoundTrip.Statement (.ctlRet x) := RoundTrip.of rfl ⟨by decide, by decide, rfl, by decide⟩ fun _ => rfl
theorem RoundTrip.ctlExit (x : F) : RoundTrip.Statement (.ctlExit x) := RoundTrip.of rfl ⟨by decide, by decide, rfl, by decide⟩ fun _ => rfl
theorem RoundTrip.ctlRcv (x : F) : RoundTrip.Statement (.ctlRcv x) := RoundTrip.of rfl ⟨by decide, by decide, rfl, by decide⟩ fun _ => rfl
theorem RoundTrip.ctlRegion (x : F) : RoundTrip.Statement (.ctlRegion x) := RoundTrip.of rfl ⟨by decide, by decide, rfl, by decide⟩ fun _ => rfl
theorem RoundTrip.ctlSigchk (x : F) : RoundTrip.Statement (.ctlSigchk x) := RoundTrip.of rfl ⟨by decide, by decide, rfl, by decide⟩ fun _ => rfl
theorem RoundTrip.ctlSigrst (x : F) : RoundTrip.Statement (.ctlSigrst x) := RoundTrip.of rfl ⟨by decide, by decide, rfl, by decide⟩ fun _ => rfl
theorem RoundTrip.ctlSleep (x : F) : RoundTrip.Statement (.ctlSleep x) := RoundTrip.of rfl ⟨by decide, by decide, rfl, by decide⟩ fun _ => rfl
theorem RoundTrip.ctlYield (x : F) : RoundTrip.Statement (.ctlYield x) := RoundTrip.of rfl ⟨by decide, by decide, rfl, by decide⟩ fun _ => rfl
theorem RoundTrip.ctlTmrset (x : F) : RoundTrip.Statement (.ctlTmrset x) := RoundTrip.of rfl ⟨by decide, by decide, rfl, by decide⟩ fun _ => rfl
theorem RoundTrip.ctlTmrclr (x : F) : RoundTrip.Statement (.ctlTmrclr x) := RoundTrip.of rfl ⟨by decide, by decide, rfl, by decide⟩ fun _ => rfl
theorem RoundTrip.ctlTrapu (x : F) : RoundTrip.Statement (.ctlTrapu x) := RoundTrip.of rfl ⟨by decide, by decide, rfl, by decide⟩ fun _ => rfl
theorem RoundTrip.ctlUret (x : F) : RoundTrip.Statement (.ctlUret x) := RoundTrip.of rfl ⟨by decide, by decide, rfl, by decide⟩ fun _ => rfl
theorem RoundTrip.ctlBrk (x : F) : RoundTrip.Statement (.ctlBrk x) := RoundTrip.of rfl ⟨by decide, by decide, rfl, by decide⟩ fun _ => rfl
theorem RoundTrip.ctlEvmark (x : F) : RoundTrip.Statement (.ctlEvmark x) := RoundTrip.of rfl ⟨by decide, by decide, rfl, by decide⟩ fun _ => rfl
theorem RoundTrip.msk (fn : Fin 8) (x : F) : RoundTrip.Statement (.msk fn x) := RoundTrip.of rfl ⟨by decide, by decide, rfl, by omega⟩ fun _ => finFn_val fn fun n => .msk n x
theorem RoundTrip.sysTrap (x : F) : RoundTrip.Statement (.sysTrap x) := RoundTrip.of rfl ⟨by decide, by decide, rfl, by decide⟩ fun _ => rfl
theorem RoundTrip.sysTret (x : F) : RoundTrip.Statement (.sysTret x) := RoundTrip.of rfl ⟨by decide, by decide, rfl, by decide⟩ fun h => sysTret_read x h
theorem RoundTrip.sysTretRr (x : F) : RoundTrip.Statement (.sysTretRr x) := RoundTrip.of rfl ⟨by decide, by decide, rfl, by decide⟩ fun h => sysTretRr_read x h
theorem RoundTrip.sysRdcr (x : F) : RoundTrip.Statement (.sysRdcr x) := RoundTrip.of rfl ⟨by decide, by decide, rfl, by decide⟩ fun _ => rfl
theorem RoundTrip.sysWrcr (x : F) : RoundTrip.Statement (.sysWrcr x) := RoundTrip.of rfl ⟨by decide, by decide, rfl, by decide⟩ fun _ => rfl
theorem RoundTrip.sysHalt (x : F) : RoundTrip.Statement (.sysHalt x) := RoundTrip.of rfl ⟨by decide, by decide, rfl, by decide⟩ fun h => sysHalt_read x h
theorem RoundTrip.sysHaltRelaunch (x : F) : RoundTrip.Statement (.sysHaltRelaunch x) := RoundTrip.of rfl ⟨by decide, by decide, rfl, by decide⟩ fun h => sysHaltRelaunch_read x h
theorem RoundTrip.sysXread (x : F) : RoundTrip.Statement (.sysXread x) := RoundTrip.of rfl ⟨by decide, by decide, rfl, by decide⟩ fun _ => rfl
theorem RoundTrip.sysXwrite (x : F) : RoundTrip.Statement (.sysXwrite x) := RoundTrip.of rfl ⟨by decide, by decide, rfl, by decide⟩ fun _ => rfl
theorem RoundTrip.sysResume (x : F) : RoundTrip.Statement (.sysResume x) := RoundTrip.of rfl ⟨by decide, by decide, rfl, by decide⟩ fun _ => rfl
theorem RoundTrip.sysIcinv (x : F) : RoundTrip.Statement (.sysIcinv x) := RoundTrip.of rfl ⟨by decide, by decide, rfl, by decide⟩ fun _ => rfl
theorem RoundTrip.pWord (x : PWord) : RoundTrip.Statement (.pWord x) := RoundTrip.of rfl trivial fun _ => rfl
theorem RoundTrip.accessPerformed (acc : Nat) : RoundTrip.Statement (.accessPerformed acc) := nofun_event rfl
theorem RoundTrip.asyncFaultDelivery (r : StrandRef) : RoundTrip.Statement (.asyncFaultDelivery r) := nofun_event rfl
theorem RoundTrip.hostBreak (r : StrandRef) : RoundTrip.Statement (.hostBreak r) := nofun_event rfl
theorem RoundTrip.stopBlockHalt (r : StrandRef) : RoundTrip.Statement (.stopBlockHalt r) := nofun_event rfl
theorem RoundTrip.timerFire (r : StrandRef) : RoundTrip.Statement (.timerFire r) := nofun_event rfl
theorem RoundTrip.rcvExpired (r : StrandRef) (pc : Dword) : RoundTrip.Statement (.rcvExpired r pc) := nofun_event rfl
theorem RoundTrip.waitaWakeOnWrite (r : StrandRef) (t : Nat) : RoundTrip.Statement (.waitaWakeOnWrite r t) := nofun_event rfl
theorem RoundTrip.waitaPeriodicRead (r : StrandRef) (t : Nat) : RoundTrip.Statement (.waitaPeriodicRead r t) := nofun_event rfl
theorem RoundTrip.waitaBoundExpiry (r : StrandRef) (t : Nat) : RoundTrip.Statement (.waitaBoundExpiry r t) := nofun_event rfl
theorem RoundTrip.sleepExpiry (r : StrandRef) : RoundTrip.Statement (.sleepExpiry r) := nofun_event rfl
theorem RoundTrip.heartbeatTick : RoundTrip.Statement (.heartbeatTick) := nofun_event rfl
theorem RoundTrip.queueStalled (blk : Nat) : RoundTrip.Statement (.queueStalled blk) := nofun_event rfl
theorem RoundTrip.queueDeadlock (blk : Nat) : RoundTrip.Statement (.queueDeadlock blk) := nofun_event rfl
theorem RoundTrip.quorumAnswer (op copy : Nat) : RoundTrip.Statement (.quorumAnswer op copy) := nofun_event rfl
theorem RoundTrip.quorumCopyTimeout (op copy : Nat) : RoundTrip.Statement (.quorumCopyTimeout op copy) := nofun_event rfl
theorem RoundTrip.quorumScrub (fe va : Nat) : RoundTrip.Statement (.quorumScrub fe va) := nofun_event rfl
theorem RoundTrip.mxswExchange (op : Nat) : RoundTrip.Statement (.mxswExchange op) := nofun_event rfl
theorem RoundTrip.mxbComplete (op : Nat) : RoundTrip.Statement (.mxbComplete op) := nofun_event rfl
theorem RoundTrip.mmaCommit (op : Nat) : RoundTrip.Statement (.mmaCommit op) := nofun_event rfl
theorem RoundTrip.mxdComplete (op : Nat) : RoundTrip.Statement (.mxdComplete op) := nofun_event rfl
theorem RoundTrip.cplFollowOnIssue (op : Nat) : RoundTrip.Statement (.cplFollowOnIssue op) := nofun_event rfl
theorem RoundTrip.recordFreedStart (op : Nat) : RoundTrip.Statement (.recordFreedStart op) := nofun_event rfl
theorem RoundTrip.copyAccept (op : Nat) : RoundTrip.Statement (.copyAccept op) := nofun_event rfl
theorem RoundTrip.copyUnitWritten (op : Nat) (cell : Nat) : RoundTrip.Statement (.copyUnitWritten op cell) := nofun_event rfl
theorem RoundTrip.copyComplete (op : Nat) : RoundTrip.Statement (.copyComplete op) := nofun_event rfl
theorem RoundTrip.cprComplete (op : Nat) (peers : PeerData) : RoundTrip.Statement (.cprComplete op peers) := nofun_event rfl
theorem RoundTrip.cprTimeout (op : Nat) : RoundTrip.Statement (.cprTimeout op) := nofun_event rfl
theorem RoundTrip.sampleResult (op : Nat) : RoundTrip.Statement (.sampleResult op) := nofun_event rfl
theorem RoundTrip.texbComplete (op : Nat) : RoundTrip.Statement (.texbComplete op) := nofun_event rfl
theorem RoundTrip.tdeComplete (op : Nat) : RoundTrip.Statement (.tdeComplete op) := nofun_event rfl
theorem RoundTrip.packetReceive (vf fe : Nat) (bytes : List Byte) : RoundTrip.Statement (.packetReceive vf fe bytes) := nofun_event rfl
theorem RoundTrip.cmdLaunch (fe : Nat) : RoundTrip.Statement (.cmdLaunch fe) := nofun_event rfl
theorem RoundTrip.launchFitStart (fe : Nat) : RoundTrip.Statement (.launchFitStart fe) := nofun_event rfl
theorem RoundTrip.launchComplete (launch : Nat) : RoundTrip.Statement (.launchComplete launch) := nofun_event rfl
theorem RoundTrip.cmdCopy (fe : Nat) : RoundTrip.Statement (.cmdCopy fe) := nofun_event rfl
theorem RoundTrip.copyCmdComplete (cmd : Nat) : RoundTrip.Statement (.copyCmdComplete cmd) := nofun_event rfl
theorem RoundTrip.cmdWait (fe : Nat) : RoundTrip.Statement (.cmdWait fe) := nofun_event rfl
theorem RoundTrip.cmdSignal (fe : Nat) : RoundTrip.Statement (.cmdSignal fe) := nofun_event rfl
theorem RoundTrip.signalStore (cmd : Nat) : RoundTrip.Statement (.signalStore cmd) := nofun_event rfl
theorem RoundTrip.cmdMap (fe : Nat) : RoundTrip.Statement (.cmdMap fe) := nofun_event rfl
theorem RoundTrip.mapComplete (cmd : Nat) : RoundTrip.Statement (.mapComplete cmd) := nofun_event rfl
theorem RoundTrip.cmdStopSuspend (fe : Nat) : RoundTrip.Statement (.cmdStopSuspend fe) := nofun_event rfl
theorem RoundTrip.cmdStopTerminate (fe : Nat) : RoundTrip.Statement (.cmdStopTerminate fe) := nofun_event rfl
theorem RoundTrip.cmdStopResume (fe : Nat) : RoundTrip.Statement (.cmdStopResume fe) := nofun_event rfl
theorem RoundTrip.drainExpiry (blk : Nat) : RoundTrip.Statement (.drainExpiry blk) := nofun_event rfl
theorem RoundTrip.blockSaved (blk : Nat) : RoundTrip.Statement (.blockSaved blk) := nofun_event rfl
theorem RoundTrip.blockRestore (blk : Nat) : RoundTrip.Statement (.blockRestore blk) := nofun_event rfl
theorem RoundTrip.contextSwapOut (fe : Nat) : RoundTrip.Statement (.contextSwapOut fe) := nofun_event rfl
theorem RoundTrip.contextSwapIn (fe cbase : Nat) : RoundTrip.Statement (.contextSwapIn fe cbase) := nofun_event rfl
theorem RoundTrip.blockPlace (fe : Nat) : RoundTrip.Statement (.blockPlace fe) := nofun_event rfl
theorem RoundTrip.strandSelectable (blk : Nat) : RoundTrip.Statement (.strandSelectable blk) := nofun_event rfl
theorem RoundTrip.blockRetire (blk : Nat) : RoundTrip.Statement (.blockRetire blk) := nofun_event rfl
theorem RoundTrip.screenVerdict (blk : Nat) : RoundTrip.Statement (.screenVerdict blk) := nofun_event rfl
theorem RoundTrip.icacheFill (core : Nat) (va : Nat) : RoundTrip.Statement (.icacheFill core va) := nofun_event rfl
theorem RoundTrip.demandPageHash (fe va : Nat) : RoundTrip.Statement (.demandPageHash fe va) := nofun_event rfl
theorem RoundTrip.objectLoad (fe va tagTable : Nat) : RoundTrip.Statement (.objectLoad fe va tagTable) := nofun_event rfl
theorem RoundTrip.hostMemoryWrite (fe pa : Nat) (bytes : List Byte) : RoundTrip.Statement (.hostMemoryWrite fe pa bytes) := nofun_event rfl
theorem RoundTrip.hostMemoryRead (fe pa len : Nat) : RoundTrip.Statement (.hostMemoryRead fe pa len) := nofun_event rfl
theorem RoundTrip.mgmtPartitionWrite (fe : Nat) (rec : PartRec) : RoundTrip.Statement (.mgmtPartitionWrite fe rec) := nofun_event rfl
theorem RoundTrip.mgmtPartitionDisable (fe : Nat) : RoundTrip.Statement (.mgmtPartitionDisable fe) := nofun_event rfl
theorem RoundTrip.mgmtPrivilegedVector (fe : Nat) (va : Dword) : RoundTrip.Statement (.mgmtPrivilegedVector fe va) := nofun_event rfl
theorem RoundTrip.mgmtWindows (fe win : Nat) (w : Option Window) : RoundTrip.Statement (.mgmtWindows fe win w) := nofun_event rfl
theorem RoundTrip.mgmtReductionGroups (fe group : Nat) (g : Option RedGroup) : RoundTrip.Statement (.mgmtReductionGroups fe group g) := nofun_event rfl
theorem RoundTrip.mgmtReductionGrant (n : Nat) : RoundTrip.Statement (.mgmtReductionGrant n) := nofun_event rfl
theorem RoundTrip.mgmtTelemetry (fe : Nat) (cfg : TelemetryCfg) : RoundTrip.Statement (.mgmtTelemetry fe cfg) := nofun_event rfl
theorem RoundTrip.mgmtStatusBlock (fe addr : Nat) : RoundTrip.Statement (.mgmtStatusBlock fe addr) := nofun_event rfl
theorem RoundTrip.mgmtPowerLimit (watts : Nat) : RoundTrip.Statement (.mgmtPowerLimit watts) := nofun_event rfl
theorem RoundTrip.mgmtAgeingMeasure (r : AgeReading) : RoundTrip.Statement (.mgmtAgeingMeasure r) := nofun_event rfl
theorem RoundTrip.mgmtRetire (u : RetireUnit) (n : Nat) : RoundTrip.Statement (.mgmtRetire u n) := nofun_event rfl
theorem RoundTrip.ageingPeriodicRead (rs : List AgeReading) : RoundTrip.Statement (.ageingPeriodicRead rs) := nofun_event rfl
theorem RoundTrip.powerCapAdjust (cluster step : Nat) : RoundTrip.Statement (.powerCapAdjust cluster step) := nofun_event rfl
theorem RoundTrip.powerOn : RoundTrip.Statement (.powerOn) := nofun_event rfl
theorem RoundTrip.enterReducedService : RoundTrip.Statement (.enterReducedService) := nofun_event rfl
theorem RoundTrip.enterFullService : RoundTrip.Statement (.enterFullService) := nofun_event rfl
theorem RoundTrip.portTrain (u : TrainUnit) (n : Nat) (ok : Bool) : RoundTrip.Statement (.portTrain u n ok) := nofun_event rfl
theorem RoundTrip.portDown (n : Nat) : RoundTrip.Statement (.portDown n) := nofun_event rfl
theorem RoundTrip.portUp (n : Nat) : RoundTrip.Statement (.portUp n) := nofun_event rfl
theorem RoundTrip.flitCrcReplay (port : Nat) : RoundTrip.Statement (.flitCrcReplay port) := nofun_event rfl
theorem RoundTrip.ethLink (port : Nat) (up : Bool) : RoundTrip.Statement (.ethLink port up) := nofun_event rfl
theorem RoundTrip.weftRetransmit (port : Nat) : RoundTrip.Statement (.weftRetransmit port) := nofun_event rfl
theorem RoundTrip.weftAccessTimeout (acc : Nat) : RoundTrip.Statement (.weftAccessTimeout acc) := nofun_event rfl
theorem RoundTrip.pcSample (core : Nat) : RoundTrip.Statement (.pcSample core) := nofun_event rfl
theorem RoundTrip.mxsqComplete (op : Nat) : RoundTrip.Statement (.mxsqComplete op) := nofun_event rfl
theorem RoundTrip.mxcClearComplete (op : Nat) : RoundTrip.Statement (.mxcClearComplete op) := nofun_event rfl
theorem RoundTrip.deviceFatal : RoundTrip.Statement (.deviceFatal) := nofun_event rfl

end Sys2Proof.Laws
end

