-- ==== Sys2Proof/Tests/Slice0.lean ====
section
/-!
SUPPORT. The model's own tests: ill-formed terms that the well-formedness check refuses, words written out from the spec's encoding tables and the instructions
they decode to, single steps with the results that the spec's examples and tables give, and for each statement a state and operands that meet
its hypotheses.
-/
namespace Sys2Proof.Tests
open Sys2Proof Sys2Proof.Machine Sys2Proof.Fp Sys2Proof.Claims

set_option Elab.async false

/-! ## Helpers -/

/-- One strand of 32 threads of a block of a launch on core 0, in focus: 128 registers, 8 of them jets of 8 tangents. -/
def k0 : Strand := { mask := 0xFFFFFFFF, entry := false }
def b0 : Block := { launch := 0, index := 0, strands := 1 }
def s0 : State :=
  { service := .full, strands := [(⟨0, 0⟩, k0)], blocks := [(0, b0)], launches := [(0, benchLaunch)], focus := some ⟨0, 0⟩, uid := 1 }
def c0 : Ctx := ⟨s0, ⟨0, 0⟩, k0, k0, [], b0, benchLaunch, 0xFFFFFFFF, 0⟩

/-- The same device with its strand, its block or its launch changed, and its context. -/
def sWith (k : Strand) (b : Block := b0) (la : Launch := benchLaunch) : State :=
  { s0 with strands := [(⟨0, 0⟩, k)], blocks := [(0, b)], launches := [(0, la)] }
def cWith (k : Strand) (b : Block := b0) (la : Launch := benchLaunch) : Ctx := ⟨sWith k b la, ⟨0, 0⟩, k, k, [], b, la, k.mask, 0⟩

/-- The strand after an outcome. -/
def strandOf (o : Outcome) : Option Strand := match o with | .next t => t.strand? ⟨0, 0⟩ | _ => none

/-- A field of the state after an outcome. -/
def stateOf {α : Type} (o : Outcome) (f : State → α) : Option α := match o with | .next t => some (f t) | _ => none

/-! ## Ill-formed words -/

/-- An F word with a header. -/
def hWord (h : Hdr) : F := ⟨h, 1, 2, 3, 0, 0⟩

-- R59: a guard is inverted only where there is one; R60: unused fields, mask, handle, queue and barrier fields, MOD bits of no use
theorem test_wf_guard : (Instr.movVV ⟨⟨0, false, 0, true⟩, 1, 2, 0, 0, 0⟩).wf = false := by decide
theorem test_wf_unused_d : (Instr.fxadd (fWord 1 2 3 0 0)).wf = false := by decide
theorem test_wf_unused_a : (Instr.read 0 (fWord 1 2 0 0 0)).wf = false := by decide
theorem test_wf_unused_b : (Instr.iabs (fWord 1 2 3 0 0)).wf = false := by decide
theorem test_wf_unused_c : (Instr.iadd 0 (fWord 1 2 3 4 0)).wf = false := by decide
theorem test_wf_mask_field : (Instr.movVM (fWord 1 8 0 0 0)).wf = false := by decide
theorem test_wf_barrier_field : (Instr.barSet (fWord 0 16 3 0 0)).wf = false := by decide
theorem test_wf_mod_bits : (Instr.iadd 0 (fWord 1 2 3 0 1)).wf = false := by decide
theorem test_wf_uniform : (Instr.movHandleToken ⟨⟨0, true, 0, false⟩, 1, 2, 0, 0, 0⟩).wf = false := by decide
-- R64, R128, R132, R144
theorem test_wf_movi_source : (Instr.movi ⟨⟨0, false, 0, false⟩, 1, 2, 0⟩).wf = false := by decide
theorem test_wf_bit_field : (Instr.bfx (fWord 1 2 0 0 (1 <<< 5 ||| 31))).wf = false := by decide
theorem test_wf_peek_segment : (Instr.peek 0 (fWord 1 2 3 0 5)).wf = false := by decide
theorem test_wf_peek_negation : (Instr.peek 0 (fWord 1 2 3 0 0x808)).wf = false ∧ (Instr.peek 1 (fWord 1 2 3 0 0x008)).wf = false := by decide
theorem test_wf_pack_element : (Instr.pack (fWord 1 2 2 0 0x802)).wf = false := by decide
theorem test_wf_pack_rounding : (Instr.pack (fWord 1 2 3 0 0x019)).wf = false := by decide
-- R65: widths, scopes, AW, SX; quorum words are quads
theorem test_wf_width : (Instr.ld ⟨⟨0, false, 0, false⟩, 1, 2, 0, false, 6, 0, 0, 0, false, 0⟩).wf = false := by decide
theorem test_wf_scope : (Instr.ld ⟨⟨0, false, 0, false⟩, 1, 2, 0, false, 2, 6, 0, 0, false, 0⟩).wf = false := by decide
theorem test_wf_aw : (Instr.ld ⟨⟨0, false, 0, false⟩, 1, 2, 2, true, 2, 0, 0, 0, false, 0⟩).wf = false := by decide
theorem test_wf_sx : (Instr.ld ⟨⟨0, false, 0, false⟩, 1, 2, 0, false, 2, 0, 0, 0, true, 0⟩).wf = false := by decide
theorem test_wf_sx_store : (Instr.st ⟨⟨0, false, 0, false⟩, 1, 2, 0, false, 0, 0, 0, 0, true, 0⟩).wf = false := by decide
theorem test_wf_quorum_width : (Instr.qld ⟨⟨0, false, 0, false⟩, 4, 2, 0, false, 2, 0, 0, 0, false, 0⟩).wf = false := by decide
-- R254, R258, R261, R264, R265
theorem test_wf_atom_scope : (Instr.atom 0 (fWord 1 2 3 0 6)).wf = false := by decide
theorem test_wf_cell_format : (Instr.fxadd (fWord 0 2 3 0 0x300)).wf = false := by decide
theorem test_wf_wait_condition : (Instr.waita (fWord 1 2 3 0 0x600)).wf = false := by decide
theorem test_wf_wait_bound : (Instr.waita (fWord 1 2 3 4 0)).wf = false := by decide
theorem test_wf_bar_phase : (Instr.barWaitPhase (fWord 0 1 2 0 0)).wf = false := by decide
theorem test_wf_skein : (Instr.sknJoin (fWord 0 0 16 0 0x800)).wf = false := by decide
-- R67, R192, R272: handle, barrier, flag and their fields; groups that an entry does not use
theorem test_wf_handle : (Instr.cps { eWord 0 0 0 0 with hd := 1 }).wf = false := by decide
theorem test_wf_barrier : (Instr.cps { eWord 0 0 0 0 with bn := 1 }).wf = false := by decide
theorem test_wf_flag : (Instr.cps (eWord 0 0 2 0)).wf = false ∧ (Instr.cps (eWord 0 0 0 0x200)).wf = false := by decide
theorem test_wf_group_a : (Instr.mxsw (eWord 2 0 0 0)).wf = false := by decide
theorem test_wf_group_b : (Instr.mxb (eWord 2 4 0 0)).wf = false := by decide
theorem test_wf_engine_mod : (Instr.cpm (eWord 2 4 0 1)).wf = false := by decide
theorem test_wf_follow : (Instr.cplFo (eWord 2 4 0 0)).wf = false ∧ (Instr.cpl (eWord 2 4 0 0x800)).wf = false := by decide
theorem test_wf_quantiser : (Instr.cpq (eWord 2 4 0 3)).wf = false := by decide
theorem test_wf_reduction : (Instr.cpr (eWord 2 0 0 3)).wf = false ∧ (Instr.cpr (eWord 2 0 0 0x30)).wf = false := by decide
theorem test_wf_drain_rounding : (Instr.mxd (eWord 2 4 0 0x1D)).wf = false := by decide
theorem test_wf_clear_algebra : (Instr.mxcClear (eWord 0 4 0 5)).wf = false := by decide
-- R159, R206, R66, R305, R306, R362
theorem test_wf_sample_level : (Instr.sampleLod (fWord 4 0 1 2 0)).wf = false := by decide
theorem test_wf_draft_space : (Instr.hdlLoad (fWord 0 2 0 0 0)).wf = false := by decide
theorem test_wf_branch_link : (Instr.bra ⟨0, 2, 0, false, 0⟩).wf = false := by decide
theorem test_wf_branch_mask : (Instr.bra ⟨0, 0, 0, true, 0⟩).wf = false := by decide
theorem test_wf_call_link : (Instr.call ⟨0, 0, 0, false, 0⟩).wf = false := by decide
theorem test_wf_control_header : (Instr.ctlYield ⟨⟨0, false, 1, false⟩, 0, 0, 0, 0, 0⟩).wf = false := by decide
theorem test_wf_mask_source : (Instr.msk 3 (fWord 1 2 3 0 0)).wf = false := by decide
theorem test_wf_return_form : (Instr.sysTretRr (fWord 0 0 0 0 0)).wf = false := by decide
theorem test_wf_halt_form : (Instr.sysHaltRelaunch (fWord 0 0 3 0 0)).wf = false := by decide
theorem test_wf_control_index : (Instr.sysRdcr (fWord 2 0 0 0 0x40)).wf = false := by decide
-- R70: the fields of halves
theorem test_wf_half_none : (Instr.pWord ⟨0, ⟨.hnop, false, 1, 0, 0, 0⟩, ⟨.hnop, false, 0, 0, 0, 0⟩⟩).wf = false := by decide
theorem test_wf_half_shift : (Instr.pWord ⟨0, ⟨.shl, false, 0, 1, 0, 32⟩, ⟨.hnop, false, 0, 0, 0, 0⟩⟩).wf = false := by decide
theorem test_wf_half_source : (Instr.pWord ⟨0, ⟨.movi6, false, 0, 1, 2, 0⟩, ⟨.hnop, false, 0, 0, 0, 0⟩⟩).wf = false := by decide
theorem test_wf_half_mask : (Instr.pWord ⟨0, ⟨.mand, false, 0, 8, 1, 0⟩, ⟨.hnop, false, 0, 0, 0, 0⟩⟩).wf = false := by decide
theorem test_wf_half_immediate : (Instr.pWord ⟨0, ⟨.hnop, false, 0, 0, 0, 0⟩, ⟨.iadd, false, 0, 1, 2, 3⟩⟩).wf = false := by decide

/-! ## Words that decode -/

-- the fields of a header and of an F word, bit by bit (R58, R61)
theorem test_decode_fields : (decode (0#1 ++ 0x22#7 ++ 3#4 ++ 1#1 ++ 5#3 ++ 1#1 ++ 1#7 ++ 2#7 ++ 3#7 ++ 4#7 ++ 0#7 ++ 1#12)).toOption =
    some (.ffma ⟨⟨3, true, 5, true⟩, 1, 2, 3, 4, 1⟩) := by decide
-- R56, R57, R59, R79: what is no instruction
theorem test_decode_illegal_opcode : (decode 0x7F00000000000000).toOption = none := by decide
theorem test_decode_zero_opcode : (decode 0x0100000000010000).toOption = none ∧ (decode 1).toOption = none := by decide
theorem test_decode_reserved_function : (decode 0x6000000000006000).toOption = none := by decide
theorem test_decode_reserved_half : (decode 0x8F00000000000000).toOption = none := by decide
theorem test_decode_reserved_fields : (decode 0x58000000FFFFFFFF).toOption = none := by decide
theorem test_decode_ones : (decode 0xFFFFFFFFFFFFFFFF).toOption = some .ill ∧ (decode 0).toOption = some .nop := by decide
theorem test_decode_moves : ∀ e ∈ ([
  (0x0100252400000000, .movVV ⟨⟨0, false, 0, false⟩, 37, 18, 0, 0, 0x0⟩),
  (0x0111A52400001000, .movVS ⟨⟨1, false, 1, true⟩, 37, 18, 0, 0, 0x0⟩),
  (0x0122A5240000201F, .movSV ⟨⟨2, false, 2, true⟩, 37, 18, 0, 0, 0x1F⟩),
  (0x0133A52400003000, .movSS ⟨⟨3, false, 3, true⟩, 37, 18, 0, 0, 0x0⟩),
  (0x0144A50A00004000, .movQueuePop ⟨⟨4, false, 4, true⟩, 37, 5, 0, 0, 0x0⟩),
  (0x0155832400005000, .movQueuePush ⟨⟨5, false, 5, true⟩, 3, 18, 0, 0, 0x0⟩),
  (0x0166A50A00006000, .movVM ⟨⟨6, false, 6, true⟩, 37, 5, 0, 0, 0x0⟩),
  (0x0177832400007000, .movMV ⟨⟨7, false, 7, true⟩, 3, 18, 0, 0, 0x0⟩),
  (0x0180250A00008000, .movHandleStatus ⟨⟨8, false, 0, false⟩, 37, 5, 0, 0, 0x0⟩),
  (0x0191A50A00009000, .movHandleToken ⟨⟨9, false, 1, true⟩, 37, 5, 0, 0, 0x0⟩),
  (0x01A283240000A000, .movTokenHandle ⟨⟨10, false, 2, true⟩, 3, 18, 0, 0, 0x0⟩)
  ] : List (Dword × Instr)), (decode e.1).toOption = some e.2 := by decide

theorem test_decode_immediates : ∀ e ∈ ([
  (0x0223C10089ABCDEF, .movi ⟨⟨2, false, 3, true⟩, 65, 0, 0x89ABCDEF⟩),
  (0x0423C16689ABCDEF, .iaddi ⟨⟨2, false, 3, true⟩, 65, 51, 0x89ABCDEF⟩),
  (0x0B23C16689ABCDEF, .andi ⟨⟨2, false, 3, true⟩, 65, 51, 0x89ABCDEF⟩),
  (0x0C23C16689ABCDEF, .ori ⟨⟨2, false, 3, true⟩, 65, 51, 0x89ABCDEF⟩),
  (0x0D23C16689ABCDEF, .xori ⟨⟨2, false, 3, true⟩, 65, 51, 0x89ABCDEF⟩),
  (0x2323C16689ABCDEF, .faddi ⟨⟨2, false, 3, true⟩, 65, 51, 0x89ABCDEF⟩),
  (0x2423C16689ABCDEF, .fmuli ⟨⟨2, false, 3, true⟩, 65, 51, 0x89ABCDEF⟩)
  ] : List (Dword × Instr)), (decode e.1).toOption = some e.2 := by decide

theorem test_decode_integers : ∀ e ∈ ([
  (0x03001144CC002800, .iadd 2 ⟨⟨0, false, 0, false⟩, 17, 34, 51, 0, 0x800⟩),
  (0x05001144CC001800, .isub 1 ⟨⟨0, false, 0, false⟩, 17, 34, 51, 0, 0x800⟩),
  (0x06001144CC002800, .imul 2 ⟨⟨0, false, 0, false⟩, 17, 34, 51, 0, 0x800⟩),
  (0x08001144CC003800, .iminmax 3 ⟨⟨0, false, 0, false⟩, 17, 34, 51, 0, 0x800⟩),
  (0x0E001144CC004800, .shf 4 ⟨⟨0, false, 0, false⟩, 17, 34, 51, 0, 0x800⟩),
  (0x17000144CC009800, .icmp 9 ⟨⟨0, false, 0, false⟩, 1, 34, 51, 0, 0x800⟩)
  ] : List (Dword × Instr)), (decode e.1).toOption = some e.2 := by decide

theorem test_decode_bits : ∀ e ∈ ([
  (0x0700114402200800, .imad ⟨⟨0, false, 0, false⟩, 17, 34, 0, 68, 0x800⟩),
  (0x0900114400000000, .iabs ⟨⟨0, false, 0, false⟩, 17, 34, 0, 0, 0x0⟩),
  (0x16001144CC000000, .iaddw ⟨⟨0, false, 0, false⟩, 17, 34, 51, 0, 0x0⟩),
  (0x15001144CC00081F, .lea ⟨⟨0, false, 0, false⟩, 17, 34, 51, 0, 0x81F⟩),
  (0x0A001144CE200896, .twill ⟨⟨0, false, 0, false⟩, 17, 34, 51, 68, 0x896⟩),
  (0x0F001144000004BA, .bfx ⟨⟨0, false, 0, false⟩, 17, 34, 0, 0, 0x4BA⟩),
  (0x10001144CC0003E0, .bfi ⟨⟨0, false, 0, false⟩, 17, 34, 51, 0, 0x3E0⟩),
  (0x1100114400000000, .popc ⟨⟨0, false, 0, false⟩, 17, 34, 0, 0, 0x0⟩),
  (0x1200114400000000, .clz ⟨⟨0, false, 0, false⟩, 17, 34, 0, 0, 0x0⟩),
  (0x1300114400000000, .brev ⟨⟨0, false, 0, false⟩, 17, 34, 0, 0, 0x0⟩),
  (0x14001144CC00080F, .sel ⟨⟨0, false, 0, false⟩, 17, 34, 51, 0, 0x80F⟩),
  (0x1800110000010000, .read 0x10 ⟨⟨0, false, 0, false⟩, 17, 0, 0, 0, 0x0⟩),
  (0x19001144CC00280C, .peek 2 ⟨⟨0, false, 0, false⟩, 17, 34, 51, 0, 0x80C⟩)
  ] : List (Dword × Instr)), (decode e.1).toOption = some e.2 := by decide

theorem test_decode_floats : ∀ e ∈ ([
  (0x207009040C000EC3, .fadd ⟨⟨7, false, 0, false⟩, 9, 2, 3, 0, 0xEC3⟩),
  (0x217009040C000201, .fmul ⟨⟨7, false, 0, false⟩, 9, 2, 3, 0, 0x201⟩),
  (0x227009040C200FE2, .ffma ⟨⟨7, false, 0, false⟩, 9, 2, 3, 4, 0xFE2⟩),
  (0x2E7009040C000800, .fscale ⟨⟨7, false, 0, false⟩, 9, 2, 3, 0, 0x800⟩),
  (0x2D70090400000483, .frnd ⟨⟨7, false, 0, false⟩, 9, 2, 0, 0, 0x483⟩),
  (0x287009040C000001, .fdiv ⟨⟨7, false, 0, false⟩, 9, 2, 3, 0, 0x1⟩),
  (0x2970090400000002, .fsqrt ⟨⟨7, false, 0, false⟩, 9, 2, 0, 0, 0x2⟩),
  (0x2A70090400000403, .frcp ⟨⟨7, false, 0, false⟩, 9, 2, 0, 0, 0x403⟩),
  (0x2B70090400000480, .frsq ⟨⟨7, false, 0, false⟩, 9, 2, 0, 0, 0x480⟩),
  (0x2F7009040C000040, .twosum ⟨⟨7, false, 0, false⟩, 9, 2, 3, 0, 0x40⟩),
  (0x307009040C000080, .twoprod ⟨⟨7, false, 0, false⟩, 9, 2, 3, 0, 0x80⟩),
  (0x3270090400000007, .jseed ⟨⟨7, false, 0, false⟩, 9, 2, 0, 0, 0x7⟩),
  (0x3370090400000005, .tget ⟨⟨7, false, 0, false⟩, 9, 2, 0, 0, 0x5⟩),
  (0x3470090400000001, .tset ⟨⟨7, false, 0, false⟩, 9, 2, 0, 0, 0x1⟩),
  (0x367009040C000000, .jeval ⟨⟨7, false, 0, false⟩, 9, 2, 3, 0, 0x0⟩),
  (0x377009040C000000, .fprint ⟨⟨7, false, 0, false⟩, 9, 2, 3, 0, 0x0⟩),
  (0x4170090400001013, .qntZ ⟨⟨7, false, 0, false⟩, 9, 2, 0, 0, 0x13⟩),
  (0x427009040C000803, .pack ⟨⟨7, false, 0, false⟩, 9, 2, 3, 0, 0x803⟩),
  (0x437009040C00080A, .unpack ⟨⟨7, false, 0, false⟩, 9, 2, 3, 0, 0x80A⟩),
  (0x3500090000000000, .jzero ⟨⟨0, false, 0, false⟩, 9, 0, 0, 0, 0x0⟩),
  (0x4100090400000021, .qntSt ⟨⟨0, false, 0, false⟩, 9, 2, 0, 0, 0x21⟩)
  ] : List (Dword × Instr)), (decode e.1).toOption = some e.2 := by decide

theorem test_decode_formats : ∀ e ∈ ([
  (0x260001040C0076C0, .fcmp 7 ⟨⟨0, false, 0, false⟩, 1, 2, 3, 0, 0x6C0⟩),
  (0x27000104000003FF, .fclass ⟨⟨0, false, 0, false⟩, 1, 2, 0, 0, 0x3FF⟩),
  (0x250009040C003EC0, .fminmax 3 ⟨⟨0, false, 0, false⟩, 9, 2, 3, 0, 0xEC0⟩),
  (0x2C00090400004480, .ftr 4 ⟨⟨0, false, 0, false⟩, 9, 2, 0, 0, 0x480⟩),
  (0x400009040000E03F, .cvt 0xE ⟨⟨0, false, 0, false⟩, 9, 2, 0, 0, 0x3F⟩),
  (0x310009040C000EC3, .pkadd false ⟨⟨0, false, 0, false⟩, 9, 2, 3, 0, 0xEC3⟩),
  (0x310009040C001EC3, .pkmul false ⟨⟨0, false, 0, false⟩, 9, 2, 3, 0, 0xEC3⟩),
  (0x310009040C202EC3, .pkfma false ⟨⟨0, false, 0, false⟩, 9, 2, 3, 4, 0xEC3⟩),
  (0x310009040C004EC3, .pkadd true ⟨⟨0, false, 0, false⟩, 9, 2, 3, 0, 0xEC3⟩),
  (0x310009040C005EC3, .pkmul true ⟨⟨0, false, 0, false⟩, 9, 2, 3, 0, 0xEC3⟩),
  (0x310009040C206EC3, .pkfma true ⟨⟨0, false, 0, false⟩, 9, 2, 3, 4, 0xEC3⟩)
  ] : List (Dword × Instr)), (decode e.1).toOption = some e.2 := by decide

theorem test_decode_memory : ∀ e ∈ ([
  (0x500819FFF0D5C000, .ld ⟨⟨0, true, 0, false⟩, 25, 0x7F, 62, false, 1, 5, 1, 1, true, 0x4000⟩),
  (0x5102184406C83FFF, .st ⟨⟨0, false, 2, false⟩, 24, 0x22, 0, true, 5, 4, 2, 0, false, 0x3FFF⟩),
  (0x560008FE22440000, .qld ⟨⟨0, false, 0, false⟩, 8, 0x7F, 4, false, 4, 4, 1, 0, false, 0x0⟩),
  (0x57F0080632387FF0, .qst ⟨⟨15, false, 0, false⟩, 8, 0x3, 6, false, 4, 3, 2, 0, false, 0x7FF0⟩),
  (0x5200030C08008894, .atom 8 ⟨⟨0, false, 0, false⟩, 3, 6, 2, 0, 0x894⟩),
  (0x53000A0C082000FD, .cas ⟨⟨0, false, 0, false⟩, 10, 6, 2, 4, 0xFD⟩),
  (0x540000082400020C, .fxadd ⟨⟨0, false, 0, false⟩, 0, 4, 9, 0, 0x20C⟩),
  (0x5500030800000004, .fxrdRead ⟨⟨0, false, 0, false⟩, 3, 4, 0, 0, 0x4⟩),
  (0x550003080000100C, .fxrdClr ⟨⟨0, false, 0, false⟩, 3, 4, 0, 0, 0xC⟩),
  (0x580000000000D000, .fence 0 5 ⟨⟨0, false, 0, false⟩, 0, 0, 0, 0, 0x0⟩),
  (0x5810000000014000, .fence 1 4 ⟨⟨1, false, 0, false⟩, 0, 0, 0, 0, 0x0⟩),
  (0x582000000001B000, .fence 2 3 ⟨⟨2, false, 0, false⟩, 0, 0, 0, 0, 0x0⟩),
  (0x5800000000020000, .fenceSc ⟨⟨0, false, 0, false⟩, 0, 0, 0, 0, 0x0⟩),
  (0x5900051004480DBC, .waita ⟨⟨0, false, 0, false⟩, 5, 8, 1, 9, 0xDBC⟩)
  ] : List (Dword × Instr)), (decode e.1).toOption = some e.2 := by decide

theorem test_decode_sync : ∀ e ∈ ([
  (0x6000001E0C000800, .barSet ⟨⟨0, false, 0, false⟩, 0, 15, 3, 0, 0x800⟩),
  (0x6000000424001000, .barMark ⟨⟨0, false, 0, false⟩, 0, 2, 9, 0, 0x0⟩),
  (0x6000000200002000, .barWait ⟨⟨0, false, 0, false⟩, 0, 1, 0, 0, 0x0⟩),
  (0x600000081C003800, .barOwe ⟨⟨0, false, 0, false⟩, 0, 4, 7, 0, 0x800⟩),
  (0x6000061000004000, .barStat ⟨⟨0, false, 0, false⟩, 6, 8, 0, 0, 0x0⟩),
  (0x6000001228605000, .barShare ⟨⟨0, false, 0, false⟩, 0, 9, 10, 12, 0x0⟩),
  (0x6000000214002001, .barWaitPhase ⟨⟨0, false, 0, false⟩, 0, 1, 5, 0, 0x1⟩),
  (0x610000003C000800, .sknJoin ⟨⟨0, false, 0, false⟩, 0, 0, 15, 0, 0x800⟩),
  (0x6100000000001000, .sknLeave ⟨⟨0, false, 0, false⟩, 0, 0, 0, 0, 0x0⟩),
  (0x6100000000002000, .sknSync ⟨⟨0, false, 0, false⟩, 0, 0, 0, 0, 0x0⟩),
  (0x6200071200000000, .qcfg ⟨⟨0, false, 0, false⟩, 7, 9, 0, 0, 0x0⟩),
  (0x6300000E00000000, .hndWait ⟨⟨0, false, 0, false⟩, 0, 7, 0, 0, 0x0⟩),
  (0x6300060200001000, .hndTest ⟨⟨0, false, 0, false⟩, 6, 1, 0, 0, 0x0⟩),
  (0x6300000400002000, .hndCancel ⟨⟨0, false, 0, false⟩, 0, 2, 0, 0, 0x0⟩),
  (0x6300050C00003000, .hndMove ⟨⟨0, false, 0, false⟩, 5, 6, 0, 0, 0x0⟩)
  ] : List (Dword × Instr)), (decode e.1).toOption = some e.2 := by decide

theorem test_decode_engines : ∀ e ∈ ([
  (0x68305A2AC2027700, .cpl ⟨3, 5, true, 17, 21, 33, 9, true, true, 0x700⟩),
  (0x68305A2A80026900, .cplFo ⟨3, 5, true, 17, 21, 0, 9, true, false, 0x900⟩),
  (0x69305A2AC2027100, .cps ⟨3, 5, true, 17, 21, 33, 9, true, true, 0x100⟩),
  (0x6A305A2AC2027000, .cpm ⟨3, 5, true, 17, 21, 33, 9, true, true, 0x0⟩),
  (0x6B305A2AC2027002, .cpq ⟨3, 5, true, 17, 21, 33, 9, true, true, 0x2⟩),
  (0x6C305A2AC2027000, .cpx ⟨3, 5, true, 17, 21, 33, 9, true, true, 0x0⟩),
  (0x70305A2042027000, .mxb ⟨3, 5, true, 17, 0, 33, 9, true, true, 0x0⟩),
  (0x72305A2AC2027000, .mxsq ⟨3, 5, true, 17, 21, 33, 9, true, true, 0x0⟩),
  (0x74305A2AC2027022, .mxd ⟨3, 5, true, 17, 21, 33, 9, true, true, 0x22⟩),
  (0x6D005A204202701D, .cpr ⟨0, 5, true, 17, 0, 33, 9, true, true, 0x1D⟩),
  (0x7100180000000000, .mxsw ⟨0, 1, true, 0, 0, 0, 0, false, false, 0x0⟩),
  (0x73000184001001FF, .mma 4 ⟨0, 0, false, 12, 8, 0, 0, false, false, 0x1FF⟩),
  (0x74001A0400040002, .mxdGuide ⟨0, 1, true, 16, 8, 0, 0, false, false, 0x2⟩),
  (0x7500000180000004, .mxcClear ⟨0, 0, false, 0, 3, 0, 0, false, false, 0x4⟩),
  (0x7500000180040000, .mxcPair ⟨0, 0, false, 0, 3, 0, 0, false, false, 0x0⟩),
  (0x7500000000080000, .mxcUnpair ⟨0, 0, false, 0, 0, 0, 0, false, false, 0x0⟩)
  ] : List (Dword × Instr)), (decode e.1).toOption = some e.2 := by decide

theorem test_decode_tables : ∀ e ∈ ([
  (0x6E0410410400000F, .sample ⟨⟨0, false, 4, false⟩, 16, 32, 65, 0, 0xF⟩),
  (0x6E00104105980012, .sampleLod ⟨⟨0, false, 0, false⟩, 16, 32, 65, 51, 0x12⟩),
  (0x6F00000C00000003, .texbBind ⟨⟨0, false, 0, false⟩, 0, 6, 0, 0, 0x3⟩),
  (0x6F0000000000100F, .texbInval ⟨⟨0, false, 0, false⟩, 0, 0, 0, 0, 0xF⟩),
  (0x76000060B8000003, .tdeWrite ⟨⟨0, false, 0, false⟩, 0, 48, 46, 0, 0x3⟩),
  (0x76000060B8001000, .tdeRead ⟨⟨0, false, 0, false⟩, 0, 48, 46, 0, 0x0⟩),
  (0x7600006000002000, .tdeInval ⟨⟨0, false, 0, false⟩, 0, 48, 0, 0, 0x0⟩),
  (0x7700001200000017, .hdlLoad ⟨⟨0, false, 0, false⟩, 0, 9, 0, 0, 0x17⟩),
  (0x7700080800001005, .hdlPerm ⟨⟨0, false, 0, false⟩, 8, 4, 0, 0, 0x5⟩)
  ] : List (Dword × Instr)), (decode e.1).toOption = some e.2 := by decide

theorem test_decode_control : ∀ e ∈ ([
  (0x789000B080000000, .bra ⟨9, 0, 5, true, 0x80000000⟩),
  (0x7A003E007FFFFFFF, .call ⟨0, 62, 0, false, 0x7FFFFFFF⟩),
  (0x7901820C00000000, .jmpi ⟨⟨0, false, 1, true⟩, 2, 6, 0, 0, 0x0⟩),
  (0x7B00000800000000, .ctlRet ⟨⟨0, false, 0, false⟩, 0, 4, 0, 0, 0x0⟩),
  (0x7B03000000001000, .ctlExit ⟨⟨0, false, 3, false⟩, 0, 0, 0, 0, 0x0⟩),
  (0x7B000000A0002800, .ctlRcv ⟨⟨0, false, 0, false⟩, 0, 0, 40, 0, 0x800⟩),
  (0x7B00000000003000, .ctlRegion ⟨⟨0, false, 0, false⟩, 0, 0, 0, 0, 0x0⟩),
  (0x7B0012695BC0400F, .ctlSigchk ⟨⟨0, false, 0, false⟩, 18, 52, 86, 120, 0xF⟩),
  (0x7B00000000005000, .ctlSigrst ⟨⟨0, false, 0, false⟩, 0, 0, 0, 0, 0x0⟩),
  (0x7B00000024006000, .ctlSleep ⟨⟨0, false, 0, false⟩, 0, 0, 9, 0, 0x0⟩),
  (0x7B00000000007000, .ctlYield ⟨⟨0, false, 0, false⟩, 0, 0, 0, 0, 0x0⟩),
  (0x7B00001000008000, .ctlTmrset ⟨⟨0, false, 0, false⟩, 0, 8, 0, 0, 0x0⟩),
  (0x7B00000000009000, .ctlTmrclr ⟨⟨0, false, 0, false⟩, 0, 0, 0, 0, 0x0⟩),
  (0x7B0000000000A0FF, .ctlTrapu ⟨⟨0, false, 0, false⟩, 0, 0, 0, 0, 0xFF⟩),
  (0x7B0000000000B000, .ctlUret ⟨⟨0, false, 0, false⟩, 0, 0, 0, 0, 0x0⟩),
  (0x7B0000000000C000, .ctlBrk ⟨⟨0, false, 0, false⟩, 0, 0, 0, 0, 0x0⟩),
  (0x7B0000002400D000, .ctlEvmark ⟨⟨0, false, 0, false⟩, 0, 0, 9, 0, 0x0⟩)
  ] : List (Dword × Instr)), (decode e.1).toOption = some e.2 := by decide

theorem test_decode_masks : ∀ e ∈ ([
  (0x7C00070C14000000, .msk 0 ⟨⟨0, false, 0, false⟩, 7, 6, 5, 0, 0x0⟩),
  (0x7C00070C14001000, .msk 1 ⟨⟨0, false, 0, false⟩, 7, 6, 5, 0, 0x0⟩),
  (0x7C00070C14002000, .msk 2 ⟨⟨0, false, 0, false⟩, 7, 6, 5, 0, 0x0⟩),
  (0x7C00070C00003000, .msk 3 ⟨⟨0, false, 0, false⟩, 7, 6, 0, 0, 0x0⟩),
  (0x7C00070C14004000, .msk 4 ⟨⟨0, false, 0, false⟩, 7, 6, 5, 0, 0x0⟩),
  (0x7C00070C00005000, .msk 5 ⟨⟨0, false, 0, false⟩, 7, 6, 0, 0, 0x0⟩),
  (0x7C00070C00006000, .msk 6 ⟨⟨0, false, 0, false⟩, 7, 6, 0, 0, 0x0⟩),
  (0x7C00070C00007000, .msk 7 ⟨⟨0, false, 0, false⟩, 7, 6, 0, 0, 0x0⟩)
  ] : List (Dword × Instr)), (decode e.1).toOption = some e.2 := by decide

theorem test_decode_system : ∀ e ∈ ([
  (0x7D0000000000000F, .sysTrap ⟨⟨0, false, 0, false⟩, 0, 0, 0, 0, 0xF⟩),
  (0x7D00000000001000, .sysTret ⟨⟨0, false, 0, false⟩, 0, 0, 0, 0, 0x0⟩),
  (0x7D0038000000203F, .sysRdcr ⟨⟨0, false, 0, false⟩, 56, 0, 0, 0, 0x3F⟩),
  (0x7D00007000003014, .sysWrcr ⟨⟨0, false, 0, false⟩, 0, 56, 0, 0, 0x14⟩),
  (0x7D0000001C004800, .sysHalt ⟨⟨0, false, 0, false⟩, 0, 0, 7, 0, 0x800⟩),
  (0x7D00080C00005000, .sysXread ⟨⟨0, false, 0, false⟩, 8, 6, 0, 0, 0x0⟩),
  (0x7D00000C20006000, .sysXwrite ⟨⟨0, false, 0, false⟩, 0, 6, 8, 0, 0x0⟩),
  (0x7D00000C00007000, .sysResume ⟨⟨0, false, 0, false⟩, 0, 6, 0, 0, 0x0⟩),
  (0x7D00000818008000, .sysIcinv ⟨⟨0, false, 0, false⟩, 0, 4, 6, 0, 0x0⟩),
  (0x7D00000000001001, .sysTretRr ⟨⟨0, false, 0, false⟩, 0, 0, 0, 0, 0x1⟩),
  (0x7D0200001C004001, .sysHaltRelaunch ⟨⟨0, false, 2, false⟩, 0, 0, 7, 0, 0x1⟩)
  ] : List (Dword × Instr)), (decode e.1).toOption = some e.2 := by decide

theorem test_decode_halves : ∀ e ∈ ([
  (0xF80C8A2FCD87E02A, .pWord ⟨7, ⟨.ldp, false, 3, 17, 34, 63⟩, ⟨.movi6, true, 0, 63, 0, 42⟩⟩),
  (0x8600082000000000, .pWord ⟨0, ⟨.mand, false, 0, 1, 2, 0⟩, ⟨.hnop, false, 0, 0, 0, 0⟩⟩)
  ] : List (Dword × Instr)), (decode e.1).toOption = some e.2 := by decide

/-! ## Witnesses of hypotheses -/

/-- The context of the strand 0 of block 0 in a state that holds it. -/
def ctxOf (s : State) (k : Strand) (b : Block) (la : Launch) : Ctx := ⟨s, ⟨0, 0⟩, k, k, [], b, la, k.mask, 0⟩

/-- A strand without a pending request, whose masks have good parity and whose results are written, is ready for a word (R73 to R75). -/
theorem ready_of {s : State} {k : Strand} {b : Block} {la : Launch} (h : s.ctx? = some (ctxOf s k b la)) (ha : s.accs = []) (hq : s.quorums = [])
    (hs : s.samples = []) (hp : ∀ m, k.badParity m = false) (hl : k.late = [] ∧ k.bad = []) (hd : la.d ≤ 8) (rs ws : List Loc) :
    Ready s (ctxOf s k b la) rs ws :=
  ⟨h, fun _ _ => by simp [State.pending, ha, hq, hs], fun m _ => hp m, fun _ h => by simp [ctxOf, hl] at h, fun _ h => by simp [ctxOf, hl] at h, hd⟩

theorem parity_of {k : Strand} (hm : k.m = []) (hp : k.mpar = 0) (h0 : k.m0bad = false) (m : Nat) : k.badParity m = false := by
  simp only [Strand.badParity, hm, hp, h0]; rw [show Cells.get ([] : Cells 32) m = 0 from rfl, show parity 0 = false by decide]; simp

theorem in_range {c : Ctx} {u : Bool} {rs : List Nat} (h : (rs.all fun r => if u then decide (r < 64) else decide (r < c.la.nregs)) = true) :
    InRange c u rs := by
  intro r hr
  have := List.all_eq_true.mp h r hr
  cases u <;> simpa using this

theorem ready0 (rs ws : List Loc) : Ready s0 c0 rs ws :=
  ready_of (k := k0) (b := b0) (la := benchLaunch) rfl rfl rfl rfl (parity_of rfl rfl rfl) ⟨rfl, rfl⟩ (by decide) rs ws

/-! ### Words on registers -/

-- register numbers at the end of their ranges: V127, the pairs V126 and V124, S63 and S62 under U = 1
theorem witness_IntegerArithmetic : (∀ rs ws, Ready s0 c0 rs ws) ∧ okAB (fWord 127 127 127 0 0) c0 ∧ okABC (fWord 127 127 127 127 0) c0
    ∧ okAB { fWord 63 63 0x7F 0 0x800 with h := ⟨0, true, 0, false⟩ } c0 ∧ okPairs ⟨0, false, 0, false⟩ [126, 124, 122] c0
    ∧ okPairs ⟨0, true, 0, false⟩ [62, 60, 0] c0 :=
  ⟨ready0, in_range rfl, in_range rfl, in_range rfl, ⟨in_range rfl, in_range rfl, by decide⟩, in_range rfl, in_range rfl, by decide⟩
theorem witness_ShiftsAndBits : (∀ rs ws, Ready s0 c0 rs ws) ∧ okAB (fWord 127 127 127 0 0) c0 ∧ okABC (fWord 127 127 127 127 0) c0
    ∧ okA (fWord 127 127 0 0 0) c0 ∧ (let x := fWord 1 2 0 0 (31 <<< 5); x.modN 9 5 + (x.modN 4 0 + 1) ≤ 32) :=
  ⟨ready0, in_range rfl, in_range rfl, in_range rfl, by decide⟩
theorem witness_MasksAndSelections : (∀ rs ws, Ready s0 c0 rs ws) ∧ inRange ⟨0, false, 0, false⟩ [127, 127] c0 ∧ okAB (fWord 127 127 127 0 7) c0
    ∧ (fWord 7 127 127 0 0).d ≠ 0 ∧ k0.ivt = false ∧ okPairs ⟨0, true, 0, false⟩ [62] c0 ∧ (fWord 1 2 3 0 4).modN 2 0 ≤ 4 :=
  ⟨ready0, in_range rfl, in_range rfl, by decide, rfl, ⟨in_range rfl, in_range rfl, by decide⟩, by decide⟩
theorem witness_FloatArithmetic : (∀ rs ws, Ready s0 c0 rs ws) ∧ okABC (fWord 127 127 127 127 0) c0 ∧ okAB (fWord 7 127 127 0 0) c0 ∧ k0.ivt = false
    ∧ inRange ⟨0, false, 0, false⟩ [7, 0] c0 := ⟨ready0, in_range rfl, in_range rfl, rfl, in_range rfl⟩
theorem witness_FloatResults : (∀ rs ws, Ready s0 c0 rs ws) ∧ okAB (fWord 127 127 127 0 0) c0 ∧ okA (fWord 7 7 0 0 0) c0 ∧ k0.ivt = false :=
  ⟨ready0, in_range rfl, in_range rfl, rfl⟩
theorem witness_PairedResults : (∀ rs ws, Ready s0 c0 rs ws) ∧ (okAB (fWord 126 127 127 0 0) c0 ∧ InRange c0 false [127]) ∧ okABC (fWord 127 127 127 127 0) c0 ∧ k0.ivt = false :=
  ⟨ready0, ⟨in_range rfl, in_range rfl⟩, in_range rfl, rfl⟩
-- component 7 of jet register 7; 8 offsets up to S63
theorem witness_JetWords : (∀ rs ws, Ready s0 c0 rs ws) ∧ (inRange ⟨0, false, 0, false⟩ [7] c0 ∧ 7 < c0.la.jregs ∧ (fWord 7 63 0 0 7).modN 2 0 < c0.d)
    ∧ (c0.d = 8 ∧ 56 + c0.d ≤ 64 ∧ okA (fWord 127 7 56 0 0) c0)
    ∧ (inRange ⟨0, false, 0, false⟩ [125, 7, 6] c0 ∧ InRange c0 false [126, 127]) :=
  ⟨ready0, ⟨in_range rfl, by decide, by decide⟩, ⟨by decide, by decide, in_range rfl⟩, in_range rfl, in_range rfl⟩
theorem witness_Conversions : (∀ rs ws, Ready s0 c0 rs ws) ∧ okA (fWord 127 127 0 0 0) c0 ∧ (inRange ⟨0, false, 0, false⟩ [127] c0 ∧ okPairs ⟨0, false, 0, false⟩ [126] c0)
    ∧ okPairs ⟨0, false, 0, false⟩ [126, 124] c0 ∧ (fWord 1 2 0 0 0xE).modN 3 0 = 0xE ∧ (fWord 1 2 0 0 3).modN 3 0 ≠ 0 ∧ packCount ((fWord 1 2 0 0 6).modN 3 0) = 5
    ∧ okAB (fWord 127 127 127 0 3) c0 ∧ k0.ivt = false :=
  ⟨ready0, in_range rfl, ⟨in_range rfl, in_range rfl, in_range rfl, by decide⟩, ⟨in_range rfl, in_range rfl, by decide⟩, by decide, by decide, by decide, in_range rfl, rfl⟩
theorem witness_Moves : (∀ rs ws, Ready s0 c0 rs ws) ∧ okA (fWord 127 127 0 0 0) c0 ∧ (inRange ⟨0, false, 0, false⟩ [127] c0 ∧ (63 : Nat) < 64) ∧ inRange ⟨0, true, 0, false⟩ [63] c0 :=
  ⟨ready0, in_range rfl, ⟨in_range rfl, by decide⟩, in_range rfl⟩

/-- A strand with the trap on IV enabled, +infinity in V1 and −infinity in V2 of thread 31. -/
def kInf : Strand := { k0 with ivt := true, v := Cells.set (Cells.set [] ((1 * 32 + 31) * 16) 0x7F800000) ((2 * 32 + 31) * 16) 0xFF800000 }
theorem witness_OperandTraps : (∀ rs ws, Ready (sWith kInf) (cWith kInf) rs ws) ∧ kInf.ivt = true
    ∧ raisesIV false 0xFFFFFFFF (fun t => (jAdd 8 false .rn ((cWith kInf).fpA (fWord 127 1 2 0 0) t) ((cWith kInf).fpB (fWord 127 1 2 0 0) t)).fl)
    ∧ Timely s0 c0 ∧ actF (fWord 8 8 0 0 0) c0 ≠ 0 ∧ ({ benchLaunch with nregs := 127 } : Launch).nregs ≤ (127 : BitVec 7).toNat ∧ 64 ≤ (64 : BitVec 7).toNat
    ∧ (inRange ⟨0, false, 0, false⟩ [8, 8] c0 ∧ c0.la.jregs ≤ (8 : BitVec 7).toNat) ∧ inRange ⟨0, false, 0, false⟩ [127, 127] c0 :=
  ⟨ready_of (k := kInf) (b := b0) (la := benchLaunch) rfl rfl rfl rfl (parity_of rfl rfl rfl) ⟨rfl, rfl⟩ (by decide), rfl, ⟨31, by decide, by decide, by decide⟩,
    ⟨rfl, fun _ h => by cases h⟩, by decide, by decide, by decide, ⟨in_range rfl, by decide⟩, in_range rfl⟩

/-- A strand with no pending word is ready on the one-strand device, whatever else it holds. -/
theorem ready_with {k : Strand} {b : Block} {la : Launch} (hb : b.launch = 0) (hm : k.m = [] ∧ k.m0bad = false) (hp : k.mpar = 0) (hl : k.late = [] ∧ k.bad = []) (hd : la.d ≤ 8)
    (rs ws : List Loc) : Ready (sWith k b la) (cWith k b la) rs ws :=
  ready_of (k := k) (b := b) (la := la) (by
    obtain ⟨l, _⟩ := b; cases hb; rfl) rfl rfl rfl (parity_of hm.1 hp hm.2) hl hd rs ws

/-- Words of P: IADD V126, V127 beside FMUL V124, V125 of a jet launch; LDP.w V126, [V125 + 252] beside FADD, first and second; STP.w [V125 + 252], V126. -/
def pTwo : PWord := ⟨0, ⟨.iadd, false, 0, 126, 127, 0⟩, ⟨.fmul, false, 0, 124, 125, 0⟩⟩
def pPad : PWord := ⟨0, ⟨.ldp, false, 0, 126, 125, 63⟩, ⟨.fadd, false, 0, 124, 123, 0⟩⟩
def pPad1 : PWord := ⟨0, ⟨.fadd, false, 0, 124, 123, 0⟩, ⟨.ldp, false, 0, 126, 125, 63⟩⟩
def pStore : PWord := ⟨0, ⟨.stp, false, 0, 126, 125, 63⟩, ⟨.fadd, false, 0, 124, 123, 0⟩⟩
theorem witness_PairedHalves : (∀ rs ws, Ready s0 c0 rs ws) ∧ c0.k.ivt = false ∧ computing pTwo.h0 ∧ computing pTwo.h1 ∧ PWord.paired pTwo = true
    ∧ (∀ x ∈ [pTwo, pPad, pPad1, pStore], PWord.paired x = true ∧ ∀ p ∈ [x.h0, x.h1], InRange c0 p.u (nums (PHalf.vec p)) ∧ (p.hop.mask = true → p.d ≠ 0))
    ∧ ∀ p ∈ [pPad.h0, pPad1.h1, pStore.h0], ¬ computing p ∧ (∀ e ∈ halfPieces p c0, e.addr % 4 = 0 ∧ e.addr + 4 ≤ c0.la.corePad)
      ∧ (halfAct p c0).gate (mStorage c0 (PHalf.mWord p) (p.hop == .stp)) ((halfPieces p c0).map Piece.addr) = none := by
  refine ⟨ready0, rfl, ⟨by decide, by decide⟩, ⟨by decide, by decide⟩, by decide, ?_, ?_⟩
  · intro x hx
    simp only [List.mem_cons, List.not_mem_nil, or_false] at hx
    rcases hx with rfl | rfl | rfl | rfl <;> refine ⟨by decide, fun p hp => ?_⟩ <;> simp only [List.mem_cons, List.not_mem_nil, or_false] at hp <;>
      rcases hp with rfl | rfl <;> exact ⟨in_range rfl, by decide⟩
  · intro p hp
    simp only [List.mem_cons, List.not_mem_nil, or_false] at hp
    rcases hp with rfl | rfl | rfl <;> exact ⟨by simp [computing, pPad, pPad1, pStore], by decide, by decide⟩

theorem pair62 : Claims.pairOk 62 := ⟨by decide, by decide⟩
theorem witness_PlainControl : (∀ rs ws, Ready s0 c0 rs ws) ∧ Claims.pairOk 62 ∧ (s0.unperformed ⟨0, 0⟩ = false ∧ s0.samples = []) ∧ argOk (fWord 0 0 0x7F 0 0x800)
    ∧ argOk (fWord 0 0 63 0 0) ∧ b0.shadow = false := ⟨ready0, pair62, ⟨rfl, rfl⟩, Or.inl (by decide), Or.inr (by decide), rfl⟩

-- a target in every thread, and a return address, in registers that hold 0
theorem witness_Branches : (∀ rs ws, Ready s0 c0 rs ws) ∧ Claims.pairOk 62 ∧ ((0 : Dword).toNat % 8 = 0 ∧ okPairs ⟨0, false, 0, false⟩ [126] c0
    ∧ ∀ t < 32, c0.pair false 126 t = 0) ∧ (c0.k.sPair 62).toNat % 8 = 0 :=
  ⟨ready0, pair62, ⟨by decide, ⟨in_range rfl, in_range rfl, by decide⟩, by decide⟩, by decide⟩

/-- A strand whose threads 0 and 1 are current, 2 and 3 wait at another PC and 4 waits at the current one; the others have exited. -/
def kSplit : Strand := { k0 with mask := 0x3, pc := 0x100, exited := 0xFFFFFFE0, groups := [⟨0xC, 0x108, none, false⟩, ⟨0x10, 0x100, none, false⟩] }
theorem apart_kSplit : Apart kSplit := ⟨by decide, by decide, by decide, by decide⟩
theorem witness_SplitsAndMerges : Apart kSplit ∧ kSplit.mask ≠ 0 ∧ (⟨0x10, 0x100, none, false⟩ ∈ kSplit.groups ∧ (0x100 : Dword) = kSplit.pc)
    ∧ ∀ g ∈ k0.groups, g.pc ≠ k0.pc := ⟨apart_kSplit, by decide, by decide, by decide⟩
theorem witness_YieldAndHold : (∀ rs ws, Ready s0 c0 rs ws) ∧ argOk (fWord 0 0 63 0 0) ∧ (Apart { kSplit with pc := 0x110 } ∧ ∀ g ∈ kSplit.groups, g.pc ≠ 0x110 + 8)
    ∧ kSplit.groups ≠ [] ∧ (∀ g ∈ kSplit.groups, g.pc ≠ 0x110) ∧ kSplit.mask ||| kSplit.exited ≠ 0xFFFFFFFF :=
  ⟨ready0, Or.inr (by decide), ⟨⟨by decide, by decide, by decide, by decide⟩, by decide⟩, by decide, by decide, by decide⟩
theorem witness_ExitAndSleep : (∀ rs ws, Ready s0 c0 rs ws) ∧ s0.heldThreads ⟨0, 0⟩ = 0 ∧ b0.committing = none ∧ s0.quorums = [] ∧ k0.sigPend = none
    ∧ (Apart kSplit ∧ kSplit.mask &&& kSplit.exited = 0 ∧ (2 : Word) &&& ~~~kSplit.mask = 0) ∧ argOk (fWord 0 0 0 0 0x800) ∧ benchLaunch.contained = false :=
  ⟨ready0, rfl, rfl, rfl, rfl, ⟨apart_kSplit, by decide, by decide⟩, Or.inl (by decide), rfl⟩

/-- Strands with handlers; one in its privileged handler, one in its user handler. -/
def kVec : Strand := { k0 with pvec := 0x8000, uvec := 0x9000 }
def kPriv : Strand := { kVec with ph := true, pepc := 0x100 }
def kUser : Strand := { kVec with uh := true, uepc := 0x200 }
/-- A block in stop-block mode of two strands. -/
def sStop : State := { sWith kVec { b0 with sb := true } with strands := [(⟨0, 0⟩, kVec), (⟨0, 1⟩, kVec)] }
theorem witness_HandlerEntries : ((sWith kVec).strand? ⟨0, 0⟩ = some kVec ∧ (sWith kVec).block? 0 = some b0 ∧ b0.shadow = false ∧ kVec.ph = false ∧ kVec.pvec ≠ 0)
    ∧ (s0.strand? ⟨0, 0⟩ = some k0 ∧ s0.launch? b0.launch = some benchLaunch ∧ benchLaunch.failed = none ∧ k0.ph = false ∧ k0.pvec = 0)
    ∧ ((sWith kPriv).strand? ⟨0, 0⟩ = some kPriv ∧ kPriv.ph = true)
    ∧ (sStop.strand? ⟨0, 0⟩ = some kVec ∧ sStop.block? 0 = some { b0 with sb := true } ∧ sStop.strand? ⟨0, 1⟩ = some kVec ∧ kVec.ended = false ∧ kVec.stopped = false) :=
  ⟨⟨rfl, rfl, rfl, rfl, by decide⟩, ⟨rfl, rfl, rfl, rfl, rfl⟩, ⟨rfl, rfl⟩, rfl, rfl, rfl, rfl, rfl⟩
theorem witness_UserHandlerEntry : ((sWith kVec).strand? ⟨0, 0⟩ = some kVec ∧ kVec.uh = false ∧ kVec.uvec ≠ 0)
    ∧ ((sWith kUser).strand? ⟨0, 0⟩ = some kUser ∧ kUser.uh = true) ∧ (s0.strand? ⟨0, 0⟩ = some k0 ∧ k0.uvec = 0) ∧ (sWith kVec).block? 0 = some b0 :=
  ⟨⟨rfl, rfl, by decide⟩, ⟨rfl, rfl⟩, ⟨rfl, rfl⟩, rfl⟩
-- a guard that no thread passes: M1 holds 0
theorem witness_TrapWords : s0.ctx? = some c0 ∧ c0.k.mask ≠ 0 ∧ (∀ rs ws, Ready s0 c0 rs ws) ∧ actF (fWord 0 0 0 0 15) c0 ≠ 0
    ∧ actF { fWord 0 0 0 0 15 with h := ⟨0, false, 1, false⟩ } c0 = 0 := ⟨rfl, by decide, ready0, by decide, by decide⟩
theorem witness_Returns : (∀ rs ws, Ready (sWith kUser) (cWith kUser) rs ws) ∧ (kUser.uh = true ∧ kUser.sigPend = none)
    ∧ (∀ rs ws, Ready (sWith kPriv) (cWith kPriv) rs ws) ∧ (kPriv.ph = true ∧ actF (fWord 0 0 0 0 0) (cWith kPriv) ≠ 0 ∧ kPriv.sigPend = none)
    ∧ actF { fWord 0 0 0 0 0 with h := ⟨0, false, 1, false⟩ } (cWith kPriv) = 0 :=
  ⟨ready_with rfl ⟨rfl, rfl⟩ rfl ⟨rfl, rfl⟩ (by decide), ⟨rfl, rfl⟩, ready_with rfl ⟨rfl, rfl⟩ rfl ⟨rfl, rfl⟩ (by decide), ⟨rfl, by decide, rfl⟩, by decide⟩
-- the indices 0x0B and 0x0C on either side of the boundary
theorem witness_Privilege : Timely s0 c0 ∧ c0.k.ph = false ∧ 0x0C ≤ (fWord 0 0 0 0 0x0C).modN 5 0 ∧ (fWord 62 62 0 0 0x0B).modN 5 0 < 0x0C
    ∧ (∀ rs ws, Ready s0 c0 rs ws) ∧ s0.flagsPending ⟨0, 0⟩ = false ∧ (∀ n ∈ [0, 0x0B], crOk n 62) ∧ actF (fWord 62 62 0 0 0x0B) c0 ≠ 0 :=
  ⟨⟨rfl, fun _ h => by cases h⟩, rfl, by decide, by decide, ready0, rfl, by unfold crOk crListed; decide, by decide⟩
theorem witness_ControlRegisters : (∀ rs ws, Ready (sWith kPriv) (cWith kPriv) rs ws) ∧ (crListed 0x27 ∧ 0x27 ∉ crDoubles ∧ kPriv.ph = true) ∧ (crListed 0x14 ∧ Claims.pairOk 62 ∧ ¬ crFixed 0x14)
    ∧ ((sWith kPriv).flagsPending ⟨0, 0⟩ = false) ∧ (crListed 0x1F ∧ ¬ crFixed 0x1F ∧ 0x1F ≠ 0x1C) ∧ crFixed 0x10 ∧ crListed 0x11 :=
  ⟨ready_with rfl ⟨rfl, rfl⟩ rfl ⟨rfl, rfl⟩ (by decide), ⟨by unfold crListed; decide, by decide, rfl⟩, ⟨by unfold crListed; decide, pair62, by unfold crFixed; decide⟩, rfl,
    ⟨by unfold crListed; decide, by unfold crFixed; decide, by decide⟩, by unfold crFixed; decide, by unfold crListed; decide⟩

/-- A privileged strand whose S62 selects register V127, component 7, of its own thread 31, and whose S60 its word S61. -/
def kSel : Strand := { kPriv with s := Cells.set (Cells.set [] 60 0x000A3D20) 62 0x080FFF00 }
theorem witness_Selectors : (∀ rs ws, Ready (sWith kSel) (cWith kSel) rs ws) ∧ kSel.ph = true
    ∧ selOpen (sWith kSel) (cWith kSel) (fWord 63 60 0 0 0) kSel
    ∧ (∃ w, (selOf (cWith kSel) (fWord 63 60 0 0 0)).read kSel b0 benchLaunch = some w)
    ∧ (∃ s', (selOf (cWith kSel) (fWord 0 60 63 0 0)).write (sWith kSel) ⟨0, 0⟩ (selStrand (cWith kSel) (fWord 0 60 63 0 0)) kSel b0 benchLaunch 0 = some s')
    ∧ (∃ k', (selectorOf 0x080F0700).put k0 benchLaunch 5 = some k') ∧ (selectorOf 0x080F0700).thread < 32 ∧ (selectorOf 0x080F0700).kind < 3 ∧ benchLaunch.d ≤ 8
    ∧ (let k : Strand := { kSplit with mask := 0 }; k.mask = 0 ∧ k.ended = false) :=
  ⟨ready_with rfl ⟨rfl, rfl⟩ rfl ⟨rfl, rfl⟩ (by decide), rfl, ⟨by decide, by decide, rfl, fun h => absurd rfl h⟩, ⟨_, rfl⟩, ⟨_, rfl⟩, ⟨_, rfl⟩, by decide, by decide, by decide, rfl, rfl⟩

/-- A privileged strand with 2^20 in S63 and, in S61, strand 1, which is stopped; and S59 with bit 5. -/
def kAct : Strand := { kPriv with s := Cells.set (Cells.set (Cells.set [] 59 0x20) 61 1) 63 0x100000 }
def sAct : State := { sWith kAct with strands := [(⟨0, 0⟩, kAct), (⟨0, 1⟩, { k0 with stopped := true })] }
theorem witness_PrivilegedActions : (∀ rs ws, Ready sAct (ctxOf sAct kAct b0 benchLaunch) rs ws) ∧ kAct.ph = true
    ∧ (∃ k, sAct.strand? ⟨0, (kAct.sGet 61).toNat % 32⟩ = some k ∧ k.stopped = true) ∧ (kAct.sGet 61).getLsbD 5 = false ∧ (kAct.sGet 59).getLsbD 5 = true
    ∧ Claims.pairOk 62 ∧ 1 ≤ (kAct.sGet 63).toNat ∧ (kAct.sGet 63).toNat ≤ 2 ^ 20 ∧ argOk (fWord 0 0 63 0 0) :=
  ⟨ready_of (k := kAct) (b := b0) (la := benchLaunch) rfl rfl rfl rfl (parity_of rfl rfl rfl) ⟨rfl, rfl⟩ (by decide), rfl, ⟨_, rfl, rfl⟩, by decide, by decide, pair62, by decide, by decide,
    Or.inr (by decide)⟩

/-! ### Words on memory -/

-- the last word of the core pad in every thread, at the bound of R210; device addresses from a pair that holds 0
def mPad : M := ⟨⟨0, false, 0, false⟩, 127, 0x7F, 2, false, 2, 0, 0, 1, false, 0⟩
def mDev : M := ⟨⟨0, false, 0, false⟩, 124, 126, 0, true, 4, 0, 0, 0, false, 0⟩
def kPad : Strand := { k0 with s := [(2, 4092)] }
/-- A block of a contained launch, and a store of a word to device memory in it. -/
def cCont : Ctx := cWith k0 b0 { benchLaunch with contained := true }
def mCont : M := ⟨⟨0, false, 0, false⟩, 127, 0x7F, 0, false, 2, 0, 0, 0, false, 0⟩
theorem witness_LoadsAndStores : (∀ rs ws, Ready (sWith kPad) (cWith kPad) rs ws) ∧ okM mPad (cWith kPad) ∧ okM mDev (cWith kPad)
    ∧ reaches (cWith kPad) (mStorage (cWith kPad) mPad true) ((cWith kPad).mAddr mPad)
    ∧ reaches (cWith kPad) (mStorage (cWith kPad) mDev false) ((cWith kPad).mAddr mDev) ∧ (∀ ps, storeFree (cWith kPad) (mStorage (cWith kPad) mPad true) ps)
    ∧ (cCont.la.contained = true ∧ storeFree cCont (mStorage cCont mCont true) (unitsAt cCont mCont 0 0 (fun _ n => .store (bytesOf n 0)) fun _ => none)) :=
  ⟨ready_with rfl ⟨rfl, rfl⟩ rfl ⟨rfl, rfl⟩ (by decide),
    ⟨in_range rfl, by decide, by decide, fun h => absurd rfl h, fun h => absurd h (by decide), by decide, by decide⟩,
    ⟨in_range rfl, by decide, by decide, fun _ => in_range rfl, fun _ => ⟨by decide, by decide, in_range rfl⟩, by decide, by decide⟩,
    ⟨by decide, by decide⟩, ⟨by decide, by decide⟩, fun _ h => absurd h (by decide),
    rfl, fun _ _ => ⟨fun h => absurd rfl h, fun _ _ h => absurd h (by decide), fun _ => ⟨by decide +kernel, by decide +kernel⟩⟩⟩
theorem witness_ReadModifyWrites : (∀ rs ws, Ready s0 c0 rs ws) ∧ okAddrF c0 (fWord 127 126 127 0 0) ∧ (okGroup c0 false 127 1 ∧ okGroup c0 false 126 2 ∧ okGroup c0 false 124 2)
    ∧ reaches c0 (fStorage (fWord 126 126 124 122 0x80) 8 true) (c0.fAddr (fWord 126 126 124 122 0x80))
    ∧ reaches c0 (fStorage (fWord 127 126 127 0 0) 16 true) (c0.fAddr (fWord 127 126 127 0 0)) ∧ commitDone c0 2
    ∧ (cCont.la.contained = true ∧ commitDone cCont 2) ∧ (∀ ps, storeFree c0 (fStorage (fWord 127 126 127 0 0) 16 true) ps) ∧ b0.shadow = false :=
  ⟨ready0, ⟨in_range rfl, by decide⟩, ⟨⟨in_range rfl, by decide⟩, ⟨in_range rfl, by decide⟩, ⟨in_range rfl, by decide⟩⟩, ⟨by decide, by decide⟩, ⟨by decide, by decide⟩,
    fun h => absurd h (by decide), ⟨rfl, fun _ => ⟨by decide, _, rfl, rfl, rfl⟩⟩, fun _ h => absurd h (by decide), rfl⟩
theorem witness_QuorumWords : (∀ rs ws, Ready s0 c0 rs ws) ∧ okM mDev c0 ∧ reaches c0 (qStorage mDev true) (c0.mAddr mDev) ∧ commitDone c0 4
    ∧ (({ s0 with cores := [(0, { qst := (0, 3) })] } : State).core 0).qst.2 < 4 ∧ b0.shadow = false :=
  ⟨ready0, ⟨in_range rfl, by decide, by decide, fun _ => in_range rfl, fun _ => ⟨by decide, by decide, in_range rfl⟩, by decide, by decide⟩,
    ⟨by decide, by decide⟩, fun h => absurd h (by decide), by decide, rfl⟩
theorem witness_IssuedAccesses : ∀ n, s0.uid ≤ n → s0.accs.get? n = none := fun _ _ => rfl

/-- A strand past the first step of a FENCE.sc, and the heartbeat count that it waits for. -/
def kFence : Strand := { k0 with wait := .fence 1 }
theorem witness_FencesAndWaits : (∀ rs ws, Ready s0 c0 rs ws) ∧ (s0.heldThreads ⟨0, 0⟩ = 0 ∧ s0.readsPending ⟨0, 0⟩ = false ∧ s0.unperformed ⟨0, 0⟩ = false ∧ commitDone c0 5)
    ∧ (Ready { sWith kFence with ns := 512 } (ctxOf { sWith kFence with ns := 512 } kFence b0 benchLaunch) [] [] ∧ 1 < ({ sWith kFence with ns := 512 } : State).beat
      ∧ (sWith kFence).observedDone kFence 0xFFFFFFFF = true)
    ∧ (actF (fWord 0 0 0 0 0) c0 ≠ 0 ∧ k0.wait = .none ∧ s0.orderWait ⟨0, 0⟩ = none ∧ benchLaunch.contained = false)
    ∧ (F.sp (fWord 5 126 1 127 0x880) ≠ 3 ∧ okAddrF c0 (fWord 5 126 1 127 0x880) ∧ reaches c0 (fStorage (fWord 5 126 1 127 0x880) 4 false) (c0.fAddr (fWord 5 126 1 127 0x880))) :=
  ⟨ready0, ⟨rfl, rfl, rfl, fun h => absurd h (by decide)⟩,
    ⟨ready_of (k := kFence) (b := b0) (la := benchLaunch) rfl rfl rfl rfl (parity_of rfl rfl rfl) ⟨rfl, rfl⟩ (by decide) _ _, by decide, by decide +kernel⟩, ⟨by decide, rfl, by decide, rfl⟩,
    ⟨by decide, ⟨in_range rfl, by decide⟩, by decide, by decide⟩⟩

/-! ### Barriers, skeins, queues and handles -/

-- one arrival below the expectation; barrier 15; a source table of 17 entries
def bBar : Block := { b0 with bars := [(15, { init := true, aexp := 1, perSource := true, src := (List.range 17).map fun n => ⟨n, 0, 0⟩ })] }
def kPhase : Strand := { k0 with s := [(63, 1)] }
def kReleased : Strand := { k0 with wait := .released }
theorem witness_BarrierWords : (∀ rs ws, Ready (sWith kPhase bBar) (cWith kPhase bBar) rs ws) ∧ noWaiter (cWith kPhase bBar) 15 ∧ argOk (fWord 0 15 1 0 0x800)
    ∧ usable (bBar.bar 15) ∧ (sWith kPhase bBar).orderWait ⟨0, 0⟩ = none ∧ (bBar.bar 15).acnt + 1 ≤ (bBar.bar 15).aexp
    ∧ (arrived (cWith kPhase bBar) (bBar.bar 15) 1).full = true ∧ (bBar.bar 15).phases % 2 ^ 16 ≠ (kPhase.sGet 63).toNat % 2 ^ 16
    ∧ (Ready (sWith kReleased bBar) (cWith kReleased bBar) [] [] ∧ kReleased.wait = .released) ∧ sNamed [63, 63] ∧ (bBar.bar 15).src.length < 18 ∧ (bBar.bar 15).perSource = true :=
  ⟨ready_with rfl ⟨rfl, rfl⟩ rfl ⟨rfl, rfl⟩ (by decide), by intro e he _ act tok; rcases List.mem_singleton.mp he with rfl; simp [kPhase, k0], Or.inl (by decide), ⟨by decide, by decide⟩, by decide,
    by decide, by decide, by decide, ⟨ready_with rfl ⟨rfl, rfl⟩ rfl ⟨rfl, rfl⟩ (by decide) _ _, rfl⟩, by unfold sNamed; decide, by decide, by decide⟩
theorem witness_BarrierPhases : (sWith k0 bBar).block? 0 = some bBar ∧ (sWith k0 bBar).launch? 0 = some benchLaunch ∧ benchLaunch.mmr = 2
    ∧ (∃ x : Barrier, x.ovf = false ∧ x.full = true) ∧ ∃ x : Barrier, x.ovf = false ∧ x.full = false :=
  ⟨rfl, rfl, rfl, ⟨{ init := true, aexp := 1, acnt := 1 }, by decide, by decide⟩, ⟨{ init := true, aexp := 1 }, by decide, by decide⟩⟩

/-- Queue 0 with one entry of four, and queue 15 empty. -/
def bQueue : Block := { b0 with queues := [(0, { depth := 4, entries := [List.replicate 32 7] }), (15, { depth := 1 })], qreserve := 5 }
def kSkein : Strand := { k0 with skein := some 15 }
theorem witness_SkeinsAndQueues : (∀ rs ws, Ready (sWith k0 bQueue) (cWith k0 bQueue) rs ws) ∧ noOps c0 ∧ argOk (fWord 0 0 15 0 0x800) ∧ ~~~k0.exited &&& ~~~k0.mask = 0 ∧ s0.orderWait ⟨0, 0⟩ = none ∧ k0.skein = none
    ∧ (Ready (sWith kSkein) (cWith kSkein) [] [] ∧ kSkein.skein = some 15 ∧ ((sWith kSkein).strands.map Prod.fst).Nodup ∧ ∀ e ∈ (sWith kSkein).skeinOf 0 15, e.1 = ⟨0, 0⟩)
    ∧ (bQueue.queue 0).depth ≠ 0 ∧ (bQueue.queue 0).entries = [List.replicate 32 7] ∧ (sWith k0 bQueue).pushBlocked bQueue 15 = false ∧ (127 : Nat) < benchLaunch.nregs :=
  ⟨ready_with rfl ⟨rfl, rfl⟩ rfl ⟨rfl, rfl⟩ (by decide), by intro e he; simp [c0, s0] at he, Or.inl (by decide), by decide, by decide, rfl,
    ⟨ready_with rfl ⟨rfl, rfl⟩ rfl ⟨rfl, rfl⟩ (by decide) _ _, rfl, by decide, by decide⟩, by decide, by decide, by decide, by decide⟩

/-- A handle register that names record 511 of core 0, which holds a completed operation or one under way. -/
def kHandle : Strand := { k0 with h := [(15, some (token 3 0 511))] }
def sHandle (status : Option Word) (ops : Table Nat EngOp) : State :=
  { sWith kHandle with cores := [(0, { recs := [(511, { gen := 3, busy := true, blk := 0, op := 9, status })] })], ops }
def opCopy : EngOp := { kind := .cps, blk := 0, launch := 0, core := 0, fe := 0, skein := none, bk := false, arr := [⟨0, 0, 0xFFFFFFFF, 0, ⟨eWord 0 0 0 0, 0, [], [], []⟩, none, 0⟩], stage := .running }
theorem witness_HandleWords : (∀ st ops rs ws, Ready (sHandle st ops) (ctxOf (sHandle st ops) kHandle b0 benchLaunch) rs ws)
    ∧ names (ctxOf (sHandle (some 0) []) kHandle b0 benchLaunch) (fWord 63 15 0 0 0) 511 { gen := 3, busy := true, blk := 0, op := 9, status := some 0 }
    ∧ names (ctxOf (sHandle none [(9, opCopy)]) kHandle b0 benchLaunch) (fWord 63 15 0 0 0) 511 { gen := 3, busy := true, blk := 0, op := 9 }
    ∧ ((sHandle none [(9, opCopy)]).op? 9 = some opCopy ∧ opCopy.kind.copy = true ∧ opCopy.kind ≠ .cpr ∧ opCopy.posts = [] ∧ opCopy.lead.w.be = false ∧ opCopy.follow = none) :=
  ⟨fun _ _ => ready_of (k := kHandle) (b := b0) (la := benchLaunch) rfl rfl rfl rfl (parity_of rfl rfl rfl) ⟨rfl, rfl⟩ (by decide), ⟨_, rfl, by decide⟩, ⟨_, rfl, by decide⟩,
    rfl, by decide, by decide, rfl, rfl, rfl⟩

/-! ### Engines, samplers, tables -/

-- an E word with no group: MXSW; with the pair kinds the strand needs a skein, and FENCE etc. nothing
theorem mayArrive0 (w : CollWord) (hr : engRange w.kind w.w = false)
    (hc : ∀ e ∈ (arrivalChecks benchLaunch none w.kind (operands c0 w)).1 ++ (arrivalChecks benchLaunch none w.kind (operands c0 w)).2
      ++ flagChecks benchLaunch (operands c0 w), e.1 = false) (hb : w.w.be = false) (hp : w.kind ≠ .pair) : MayArrive c0 w :=
  ⟨hr, rfl, rfl, hc, by decide, ⟨rfl, rfl⟩, fun h => by simp [hb] at h, by cases w.kind <;> rfl, rfl, fun h => absurd h hp⟩

/-- CPM between S58 to S61 and S61 to S63, at the end of the registers; MXB S60; the copy's record 0. -/
def eCpm : E := { eWord 58 61 0 0 with hw := true, hd := 15 }
theorem witness_EngineWords : ((.cpm eCpm, ⟨.cpm, eCpm, 0⟩) ∈ engineWords eCpm) ∧ (∀ rs ws, Ready s0 c0 rs ws) ∧ MayArrive c0 ⟨.cpm, eCpm, 0⟩
    ∧ (Ready (sWith { k0 with wait := .started 3 }) (cWith { k0 with wait := .started 3 }) [] [] ∧ engRange .cpm eCpm = false ∧ b0.shadow = false) :=
  ⟨by decide, ready0, mayArrive0 _ (by decide) (by decide) rfl (by decide), ready_with rfl ⟨rfl, rfl⟩ rfl ⟨rfl, rfl⟩ (by decide) _ _, by decide, rfl⟩

theorem live0 : s0.live 0 = true := by decide
theorem witness_CopiesStart : ((.cpm eCpm, ⟨.cpm, eCpm, 0⟩) ∈ engineWords eCpm) ∧ EngKind.cpm.copy = true ∧ (∀ rs ws, Ready s0 c0 rs ws) ∧ MayArrive c0 ⟨.cpm, eCpm, 0⟩
    ∧ k0.skein = none ∧ eCpm.be = false ∧ benchLaunch.contained = false ∧ s0.ops = [] ∧ (s0.core 0).freeRec = some 0 ∧ s0.live 0 = true
    ∧ s0.startCause benchLaunch { beginning c0 ⟨.cpm, eCpm, 0⟩ with descs := s0.readDescs (beginning c0 ⟨.cpm, eCpm, 0⟩) } 0 = none :=
  ⟨by decide, rfl, ready0, mayArrive0 _ (by decide) (by decide) rfl (by decide), rfl, rfl, rfl, rfl, by decide +kernel, live0, by decide +kernel⟩

-- one word of each kind that enters array order: 32 rows from row 0, K = 256 and N = 512; MXB of a matrix of 1 by 1 elements of E4M3 that TID 0 describes
def sTde : State := { s0 with fes := [(0, { tdes := [(0, 0x100000100000100000100000123000000000000000000000000000000000000000000000000)] })] }
def kClear : Strand := { k0 with s := [(62, 0x1F)] }
/-- A live bank of E4M3 and 1,024 scale bytes in order. -/
def arrLoaded : MatrixArray := { owner := 0, liveMeta := { loaded := true, fmt := 3, k := 256, n := 512 }, count := 1024 }
def wMma : EngWord := ⟨eWord 58 62 0 0x033, 0, [0, 0, 0, 0], [0x1F, 0x1FF00FF, 0], []⟩
-- a strand of skein 15 that names skein 3, unconditional, and a word of skein 3 that names skein 15
def kPair : Strand := { k0 with skein := some 15, s := [(63, 0x13)] }
def qPair : EngOp := { kind := .pair, blk := 0, launch := 0, core := 0, fe := 0, skein := some 3, bk := false, stage := .ready
                       arr := [⟨1, 0, 0xFFFFFFFF, 0, ⟨eWord 0 63 0 1, 1, [], [15], []⟩, none, 0⟩] }
def sPair : State := { sWith kPair with ops := [(0, qPair)], uid := 1 }
def ePair : E := eWord 0 63 0 1
theorem witness_ArrayWordsEnter : (∀ rs ws, Ready s0 c0 rs ws) ∧ ((arrayFor s0 c0).owner = 0 ∧ (arrayFor s0 c0).pair = none ∧ s0.live 0 = true ∧ s0.op? s0.uid = none ∧ (s0.core 0).freeRec = some 0
      ∧ k0.skein = none ∧ s0.ops = [])
    ∧ (MayArrive c0 ⟨.mxsw, eWord 0 0 0 0, 0⟩ ∧ mayEnter arrLoaded .mxsw (operands c0 ⟨.mxsw, eWord 0 0 0 0, 0⟩) 0) ∧ MayArrive c0 ⟨.unpair, eWord 0 0 0 2, 2⟩
    ∧ (MayArrive c0 ⟨.clear, eWord 0 62 0 0, 0⟩ ∧ rowsFit (operands (cWith kClear) ⟨.clear, eWord 0 62 0 0, 0⟩))
    ∧ mxbCause (operands (ctxOf sTde k0 b0 benchLaunch) ⟨.mxb, eWord 60 0 0 0, 0⟩) ((sTde.fe 0).tde 0) = none
    ∧ mayEnter arrLoaded .mma wMma 0 ∧ mayEnter arrLoaded .mxd wMma 0 ∧ mayEnter { arrLoaded with count := 0 } .mxsq wMma 0
    ∧ (Ready sPair (ctxOf sPair kPair b0 benchLaunch) (engReads ⟨.pair, ePair, 1⟩) (engWrites ⟨.pair, ePair, 1⟩) ∧ sPair.ops = [(0, qPair)] ∧ (∀ e ∈ sPair.skeinOf 0 15, e.1 = ⟨0, 0⟩)
      ∧ sPair.op? sPair.uid = none ∧ (let named := operands (ctxOf sPair kPair b0 benchLaunch) ⟨.pair, ePair, 1⟩
        qPair.skein = some (pairPartner named) ∧ pairPartner qPair.lead = 15 ∧ pairCond qPair.lead ≠ pairCond named) ∧ qPair.handles = [] ∧ qPair.lead.w.be = false)
    ∧ MayArrive (ctxOf sPair kPair b0 benchLaunch) ⟨.pair, ePair, 1⟩ :=
  ⟨ready0, ⟨rfl, rfl, live0, rfl, by decide +kernel, rfl, rfl⟩, ⟨mayArrive0 _ (by decide) (by decide) rfl (by decide), trivial⟩, mayArrive0 _ (by decide) (by decide) rfl (by decide),
    ⟨mayArrive0 _ (by decide) (by decide) rfl (by decide), by unfold rowsFit; decide +kernel⟩, by decide +kernel,
    ⟨rfl, by unfold rowsFit; decide +kernel, by decide +kernel, by decide +kernel, by decide +kernel⟩, (by show rowsFit wMma; unfold rowsFit; decide +kernel), (by show _ ≤ _; decide +kernel),
    ⟨ready_of (k := kPair) (b := b0) (la := benchLaunch) rfl rfl rfl rfl (parity_of rfl rfl rfl) ⟨rfl, rfl⟩ (by decide) _ _, rfl, by decide, rfl, by decide +kernel, rfl, rfl⟩,
    ⟨by decide, rfl, rfl, by decide, by decide, ⟨by decide +kernel, by decide +kernel⟩, by decide, rfl, by decide +kernel, fun _ => rfl⟩⟩

/-- The device with a page table over its first GiB. -/
def sDev : State := { s0 with fes := [(0, benchFe {})], mem := benchTables [] }
theorem witness_SamplerAndTableWords : (∀ rs ws, Ready s0 c0 rs ws) ∧ (inRange ⟨0, false, 0, false⟩ [127, 127, 127] c0 ∧ InRange c0 false (groupOf 124 4) ∧ s0.service ≠ .reduced)
    ∧ (({ s0 with fes := [(0, { binds := [(15, 0)] })] } : State).fe 0).binds.get? ((fWord 124 127 127 127 15).modN 3 0) = some 0
    ∧ (Claims.pairOk 62 ∧ (k0.sPair 62).toNat % 64 = 0) ∧ tdeFits (fWord 0 63 62 0 0) c0 ∧ s0.heldInRange ⟨0, 0⟩ (inRanges ((sampleOf c0 (fWord 124 127 127 127 15) true 0 31).vas (textureOf 0) benchLaunch) 64) = false
    ∧ tdeFits (fWord 0 63 62 0 1) (cWith { k0 with s := [(62, 4032), (63, 4095)] })
    ∧ (∃ n, Strand.wait { k0 with wait := .started 3 } = .started n) ∧ (actF (fWord 0 0 0 0 0) c0 ≠ 0 ∧ k0.wait = .none ∧ tdeFree s0 ⟨0, 0⟩ ∧ texbFree s0 ⟨0, 0⟩) ∧ s0.acquireWait ⟨0, 0⟩ = none :=
  ⟨ready0, ⟨in_range rfl, in_range rfl, by decide⟩, rfl, ⟨pair62, by decide⟩, ⟨by decide, pair62, by decide, by decide, by decide⟩, rfl,
    ⟨by decide, pair62, by decide, by decide, by decide⟩, ⟨3, rfl⟩, ⟨by decide, rfl, by unfold tdeFree; decide, by unfold texbFree; decide⟩, by decide⟩

/-- A block with the draft 3 loaded: every byte 0, and byte 127 0x7F. -/
def bDraft : Block := { b0 with drafts := [(895, 0x7F), (896, 1)] }
theorem witness_HeddleWords : (∀ rs ws, Ready (sWith k0 bDraft) (cWith k0 bDraft) rs ws) ∧ InRange (cWith k0 bDraft) false (groupOf 124 4 ++ groupOf 124 4) ∧ bDraft.draftReady 3 = true
    ∧ (∀ j < 4, ∀ t < 32, (Cells.get bDraft.drafts (256 * 3 + 32 * j + t)).toNat < 128)
    ∧ ((k0.sGet 63).toNat % 16 = 0 ∧ (k0.sGet 63).toNat + 128 ≤ benchLaunch.padSize .die ∧ c0.draftWait .die 0 = none ∧ s0.padPoisoned (.die 0 0) 0 128 = false
      ∧ (s0.readRunAs (.die 0 0) (k0.viewOf 0xFFFFFFFF) 1 0 128 0).bytes = List.replicate 128 0) :=
  ⟨ready_with rfl ⟨rfl, rfl⟩ rfl ⟨rfl, rfl⟩ (by decide), in_range rfl, by decide,
    fun j _ t _ => by
      show (if 895 = 256 * 3 + 32 * j + t then (0x7F : Byte) else if 896 = 256 * 3 + 32 * j + t then 1 else 0).toNat < 128
      split
      · decide
      · split <;> decide,
    by decide, by decide, by decide, by decide, by decide +kernel⟩

/-! ### Events -/

/-- A translation finds a page with a property. -/
def pageOf (w : Walk) (p : Page → Bool) : Bool := match w with | .page q => p q | _ => false

/-- An ATOM.add of 4 bytes at the end of the core pad, and a store of 4 bytes to device memory, both due. -/
def aPad : Access := { strand := ⟨0, 0⟩, fe := 0, launch := 0, core := 0, po := 0, threads := 1, pc := 0, region := 0, space := .core, addr := 4092, size := 4
                       kind := .atom 0 5, dst := some ⟨true, 63, 0, none⟩, acq := false, rel := false, scope := 0 }
def aDev : Access := { aPad with space := .device, addr := 0x20000, kind := .store [1, 2, 3, 4], dst := none }
def sAccs : State := { sDev with accs := [(4, aPad), (5, aDev)] }
/-- Device memory whose first GiB is an FXCELL page, and accesses of each kind to it and to a plain one. -/
def sCells : State := { s0 with fes := [(0, benchFe {})], mem := (Memory.put [] benchRoot (bytesOf 8 (benchTable + 1))).put benchTable (bytesOf 8 0xF) }
def aCell (kind : AccKind) : Access := { aDev with size := 16, kind, dst := some ⟨true, 63, 0, none⟩ }
def due1 (s : State) (a : Access) : State := { s with accs := [(5, a)] }
theorem witness_AccessesPerformed : due sAccs 4 aPad ∧ due sAccs 5 aDev ∧ sAccs.block? 0 = some b0 ∧ sAccs.accs.get? 6 = none
    ∧ sAccs.padPoisoned (.core 0) 4092 4 = false ∧ upToDate sAccs ⟨0, 0⟩ 1 (.core 0) 4092 4
    ∧ ¬ ({ sAccs with accs := [(4, { aPad with held := .held })] } : State).mayPerform 4 { aPad with held := .held }
    ∧ (∀ k ∈ [AccKind.load true, .atom 8 0xFFFFFFFF, .cas 0 0xFFFFFFFF, .store [1, 2, 3, 4]], let a := { aDev with kind := k }
      fitsUnit k 4 ∧ due (due1 sDev a) 5 a ∧ pageOf (lookup (sDev.tlb 0) (sDev.fe 0) (k.reach 4) 0x20000 4) (fun p => p.attr ≠ .hostwin ∧ a.splits p = false ∧ (p.entry < p.pa ∨ p.pa + 4 ≤ p.entry)) = true)
    ∧ (∀ k ∈ [AccKind.fxadd 2 0x3F80, .fxrd true, .fxrd false], let a := aCell k
      fitsUnit k 16 ∧ due (due1 sCells a) 5 a ∧ pageOf (lookup (sCells.tlb 0) (sCells.fe 0) (k.reach 16) 0x20000 16) (fun p => p.attr = .fxcell ∧ a.splits p = false
        ∧ sCells.poisoned p 16 = false) = true) ∧ sCells.bufPoisoned 0 0x20000 16 = false ∧ sCells.buffered 0 = [] ∧ (sCells.fe 0).eventBase = 0 := by
  refine ⟨⟨by decide +kernel, by decide +kernel⟩, ⟨by decide +kernel, by decide +kernel⟩, rfl, by decide, by decide, (fun e he => by cases he), by decide +kernel, ?_, ?_, by decide, by decide, rfl⟩ <;>
    intro k hk <;> simp only [List.mem_cons, List.not_mem_nil, or_false] at hk
  · rcases hk with rfl | rfl | rfl | rfl <;> exact ⟨by simp [fitsUnit], ⟨by decide +kernel, by decide +kernel⟩, by decide +kernel⟩
  · rcases hk with rfl | rfl | rfl <;> exact ⟨by simp [fitsUnit], ⟨by decide +kernel, by decide +kernel⟩, by decide +kernel⟩
-- a store of a word that a halfword's store overlaps (each byte for itself), and one that every write covers exactly
theorem witness_UnitReads : (∃ e ∈ [({ seq := 1, place := .device, addr := 2, old := [some 0, some 0] } : Past)], e.isUnit 0 4 = false)
    ∧ ∀ e ∈ [({ seq := 1, place := .device, addr := 0, old := [some 0, some 0, some 0, some 0] } : Past)], e.isUnit 0 4 = true := by decide

/-- Strands at a boundary: with a stop due, a timer that has run out, a held fault, a sleeper whose time has come, a group whose count has ended. -/
def kTimer : Strand := { kVec with tmrArmed := true }
def kFault : Strand := { kVec with faults := [⟨Cause.memPoison, 1, 0, 0, 0, false, 0⟩] }
def kSleep : Strand := { kVec with mask := 0xFFFFFFFE, asleep := 1, sleepers := [(0, ⟨1, some 0, none⟩)] }
def kHeld : Strand := { kVec with mask := 0xFFFFFFFE, groups := [⟨1, 0x200, some 0, false⟩] }
theorem witness_StrandEvents : (∀ k ∈ [{ kVec with stopDue := true }, kTimer, kFault, kVec], (sWith k).strand? ⟨0, 0⟩ = some k ∧ (sWith k).runs b0 = true ∧ k.ph = false
      ∧ k.boundary = true ∧ quiet k ∧ k.stepDue = none) ∧ s0.block? 0 = some b0
    ∧ (kTimer.tmrcmp.toNat ≤ (sWith kTimer).clock 0 ∧ kTimer.uh = false) ∧ kFault.faults ≠ [] ∧ (kSleep.sleepers = [(0, ⟨1, some 0, none⟩)] ∧ (0 : Nat) ≤ (sWith kSleep).ns)
    ∧ (kHeld.groups = [⟨1, 0x200, some 0, false⟩] ∧ 0 < ({ sWith kHeld with ns := 1 } : State).clock 0 ∧ kHeld.mask ≠ 0 ∧ (0x200 : Dword) + 8 ≠ kHeld.pc ∧ kHeld.stopped = false)
    ∧ (let k := { kHeld with pc := 0x208 }; k.mask ≠ 0 ∧ (0x200 : Dword) + 8 = k.pc ∧ k.wait = .none) ∧ { kHeld with mask := 0 }.mask = 0 := by
  refine ⟨?_, rfl, ⟨by decide, rfl⟩, by decide, ⟨rfl, by decide⟩, ⟨rfl, by decide, by decide, by decide, rfl⟩, ⟨by decide, by decide, rfl⟩, rfl⟩
  intro k hk
  simp only [List.mem_cons, List.not_mem_nil, or_false] at hk
  rcases hk with rfl | rfl | rfl | rfl <;> exact ⟨rfl, by decide, rfl, by decide, ⟨rfl, by decide⟩, rfl⟩

/-- A thread that waits at the last word of the pad, with a value read before and a bound that has come. -/
def wPad : Waita := { space := .core, addr := 4092, cond := 0, b := 0, acq := false, scope := 0, dst := ⟨true, 63, 0, none⟩, pc := 0, region := 0, last := some 7 }
def kWaita : Strand := { k0 with mask := 0xFFFFFFFE, asleep := 1, sleepers := [(0, ⟨1, some 0, some wPad⟩)] }
theorem witness_WaitEvents : (sWith kWaita).strand? ⟨0, 0⟩ = some kWaita ∧ (sWith kWaita).block? 0 = some b0 ∧ ((sWith kWaita).launch? 0).isSome ∧ (sWith kWaita).live 0 = true
    ∧ kWaita.sleepers.get? 0 = some ⟨1, some 0, some wPad⟩ ∧ wPad.space = .core ∧ wPad.held = .no ∧ (0 : Nat) ≤ (sWith kWaita).ns ∧ wPad.dst.uni = true ∧ wPad.dst.part = none ∧ (sWith kWaita).accs = []
    ∧ (sWith kWaita).padPoisoned (.core 0) 4092 4 = false ∧ upToDate (sWith kWaita) ⟨0, 0⟩ 0xFFFFFFFF (.core 0) 4092 4 :=
  ⟨rfl, rfl, by decide, by decide, by decide, rfl, rfl, by decide, rfl, rfl, rfl, by decide, (fun e he => by cases he)⟩

/-- A block whose one strand waits to pop an empty queue, since cycle 0. -/
def kQueue : Strand := { kVec with wait := .queue 15 false 0xFFFFFFFF }
def bStall : Block := { b0 with queues := [(15, { depth := 1 })], qstall := some 0 }
theorem witness_HeartbeatAndQueues : (let s := { sWith kQueue bStall with ns := 2 ^ 20 }
    s.block? 0 = some bStall ∧ s.launch? 0 = some benchLaunch ∧ s.queueStalled 0 bStall = true ∧ 2 ^ 20 ≤ s.stallCount bStall ∧ bStall.qreported = false
      ∧ s.strands = [(⟨0, 0⟩, kQueue)] ∧ kQueue.ph = false ∧ kQueue.pvec ≠ 0) ∧ (sWith kQueue bStall).stallCount bStall < 2 ^ 16 :=
  ⟨⟨rfl, rfl, by decide, by decide, rfl, rfl, rfl, by decide⟩, by decide⟩

/-- A QST in progress, two of whose three copies have answered. -/
def qOp : QuorumOp := { strand := ⟨0, 0⟩, fe := 0, launch := 0, core := 0, po := 0, threads := 1, pc := 0, region := 0, va := 0, store := some (1, 2), dst := none, acq := false
                        rel := false, scope := 4, issued := 0, slot := some (0x30000, 3), copies := [.answered 0 0, .answered 0 0, .none], chosen := none, confirmed := [] }
/-- A QLD of one uniform thread whose first copy has answered with tag 0. -/
def qRead : QuorumOp := { qOp with store := none, dst := some ⟨true, 60, 0, none⟩, copies := [.answered 0 0, .none, .none] }
-- the tables of levels 3 to 1 and the leaf of 64 KiB with 3 copies, for the scrubber
def memQuorum : Memory := (((Memory.put [] benchRoot (bytesOf 8 0x2001)).put 0x2000 (bytesOf 8 0x3001)).put 0x3000 (bytesOf 8 0x4001)).put 0x4000 (bytesOf 8 0x20007)
theorem witness_QuorumEvents : (let s := { sWith k0 with quorums := [(9, qOp)], ns := 19999 }
    s.quorums.get? 9 = some qOp ∧ s.live 0 = true ∧ qOp.held = .no ∧ qOp.slot = some (0x30000, 3) ∧ qOp.copies.length = 3 ∧ qOp.copies.getD 2 .lost = .none ∧ s.copyLost (copyPa 0x30000 2) = false
      ∧ (∀ a ∈ qOp.copies, a ≠ .lost) ∧ s.ns < qOp.issued + 20000 ∧ (1 : Nat) / 4096 < s.beat)
    ∧ (let s := { sWith k0 with quorums := [(9, qRead)] }
      qRead.copies.getD 1 .lost = .none ∧ (∀ a ∈ qRead.copies, a = .none ∨ a = .answered (slotTag s.mem (copyPa 0x30000 1)) (slotPayload s.mem (copyPa 0x30000 1)))
        ∧ s.strand? qRead.strand = some k0 ∧ (s.launchOf 0).isSome = true)
    ∧ qOp.issued + 20000 ≤ ({ s0 with ns := 20000 } : State).ns
    ∧ (pageOf (lookup { mem := memQuorum } (benchFe { chan := BitVec.allOnes 384 }) .qld 0 16) (fun p => p.attr.copies = 3 && (List.range 3).all fun i =>
        (benchFe { chan := BitVec.allOnes 384 }).owns (copyPa p.pa i) 32 && !(s0.copyLost (copyPa p.pa i))) = true) ∧ (benchFe {}).eventBase = 0 :=
  ⟨⟨rfl, by decide, rfl, rfl, rfl, rfl, by decide +kernel, by decide, by decide, by decide⟩, ⟨rfl, by decide +kernel, rfl, by decide⟩, by decide, by decide +kernel, rfl⟩

/-- An operation on the array of core 0, running and alone in order. -/
def opOn (kind : EngKind) (sb : List Word) : EngOp :=
  { kind, blk := 0, launch := 0, core := 0, fe := 0, skein := none, bk := false, stage := .running, arr := [⟨0, 0, 0xFFFFFFFF, 0, ⟨eWord 0 0 0 0, 0, [], sb, []⟩, none, 0⟩] }
def arr9 : MatrixArray := { owner := 0, order := [9] }
def sArray (o : EngOp) : State := { s0 with cores := [(0, { array := some arr9 })], ops := [(9, o)] }
-- the matched MMAs of a pair, of 16 rows each
def opCond : EngOp := { opOn .mma [15, 0] with partner := some 8, role := some true }
def opUncond : EngOp := { opOn .mma [15, 0] with partner := some 9, role := some false, stage := .ready }
def sMatched : State := { sArray opCond with ops := [(8, opUncond), (9, opCond)] }
theorem witness_ArrayEvents : (∀ k ∈ [EngKind.mxsw, .mxsq, .clear, .mxb, .mma, .mxd], (sArray (opOn k [31, 0])).arrayDue 9 k = some (opOn k [31, 0], arr9))
    ∧ s0.op? 9 = none ∧ (layoutOf (opOn .mma [31, 0]).lead.sa).isSome = true
    ∧ (let z := bLoadOf (opOn .mxb []).lead 0; let s := sArray (opOn .mxb [])
      (s.bElems (opOn .mxb []) z).absent = none ∧ (s.engLines 0 0 {} 1 z.scaleVas).absent = none ∧ (s.bElems (opOn .mxb []) z).bad = [] ∧ (s.engLines 0 0 {} 1 z.scaleVas).bad = [])
    ∧ (let s := sArray (opOn .mma [31, 0]); (∀ e ∈ s.past, e.seq ≤ 0) ∧ s.padBad = [] ∧ (s.aTile (opOn .mma [31, 0]) (opOn .mma [31, 0]).lead ⟨(opOn .mma [31, 0]).lead, none⟩).t.bad = none)
    ∧ arr9.badRead (opOn .mma [31, 0]).lead [⟨(opOn .mma [31, 0]).lead, none⟩] = false
    ∧ ({ arr9 with bad := List.range 512 } : MatrixArray).badRead (opOn .mma [31, 7]).lead [⟨(opOn .mma [31, 7]).lead, none⟩] = true
    ∧ (sMatched.arrayDue 9 .mma = some (opCond, arr9) ∧ opCond.cancelled = false ∧ opCond.partner = some 8 ∧ sMatched.op? 8 = some opUncond ∧ (layoutOf opCond.lead.sa).isSome = true
      ∧ row0Of (rowsWord opCond.lead) + rowsOf (rowsWord opCond.lead) = 16
      ∧ arr9.badRead opCond.lead [⟨opCond.lead, some true⟩, ⟨opUncond.lead, some false⟩] = false
      ∧ (sMatched.aTile opCond opCond.lead ⟨opCond.lead, some true⟩).t.bad = none ∧ (sMatched.aTile opUncond opCond.lead ⟨opUncond.lead, some false⟩).t.bad = none) :=
  ⟨by decide +kernel, rfl, by decide +kernel, by decide +kernel, by decide +kernel, by decide +kernel, by decide +kernel, by decide +kernel⟩

def eZero : EngWord := ⟨eWord 0 0 0 0, 0, [0, 0, 0, 0], [0, 0, 0], []⟩
def opCpm (moved : List Nat) : EngOp := { opOn .cpm [] with arr := [⟨0, 0, 0xFFFFFFFF, 0, eZero, none, 0⟩], moved }
def opCpr : EngOp := { opOn .cpr [] with group := some ⟨[1], 1, 1000000⟩ }
def sOp (o : EngOp) : State := { s0 with ops := [(9, o)] }
theorem witness_CopyEvents : (∀ o ∈ [{ opCpm [] with isFollow := true }, opCpm [], opCpm [0], opCpr], (sOp o).op? 9 = some o ∧ (sOp o).opLive o = true) ∧ s0.op? 9 = none
    ∧ ((opCpm []).moves = [⟨⟨.core, 0, 0, 0, 0, 0⟩, ⟨.core, 0, 0, 0, 0, 0⟩, 1, 1, 1, 1⟩] ∧ 0 ∉ (opCpm []).moved ∧ (opCpm []).landed = false ∧ (opCpm []).posts = [])
    ∧ (let o := { opCpm [] with stage := .queued }; o.stage = .queued ∧ o.kind.copy = true ∧ (sOp o).portUse 0 < 16 ∧ o.lead.w.be = false ∧ ∀ e ∈ (sOp o).ops, o.ready ≤ e.2.ready)
    ∧ (0 ∈ (opCpm [0]).moved ∧ (opCpm [0]).landed = true ∧ (opCpm [0]).lead.w.fe = false ∧ (opCpm [0]).follow = none ∧ (opCpm [0]).discard = false)
    ∧ (opCpr.group = some ⟨[1], 1, 1000000⟩ ∧ opCpr.moved = [] ∧ (∃ p ∈ [[[(0 : Word)]]], List.length p ≠ cprCount opCpr.lead) ∧ s0.ns < opCpr.started + 1000000
      ∧ opCpr.started + 1000000 ≤ ({ sOp opCpr with ns := 1000000 } : State).ns) :=
  ⟨by decide +kernel, rfl, ⟨by decide +kernel, by decide, by decide +kernel, rfl⟩, ⟨rfl, rfl, by decide, rfl, by decide⟩, ⟨by decide, by decide +kernel, rfl, rfl, rfl⟩,
    rfl, rfl, ⟨_, List.mem_singleton.mpr rfl, by decide +kernel⟩, by decide, by decide⟩

/-- A service under way; a texture record of one texel in device memory. -/
def service (what : Request) : ServiceOp := ⟨⟨0, 0⟩, 0, 0, 0, 0, 0xFFFFFFFF, 0, what, .no, 0⟩
def sService (what : Request) : State := { sDev with services := [(9, service what)], mem := (benchTables []).put 0x40000 (bytesOf 64 (2 ^ 160)) }
def sampleNan : SampleOp := ⟨⟨0, 0⟩, 0, 0, 0, 0, 0, 0, 124, 3, 0, 0x7FC00000, 0, [], [], (0, 0), (0, 0), none, .no, {}, 0, 0⟩
/-- An engine's read succeeds with a property. -/
def reads (x : Reached Ran) (p : Ran → Bool) : Bool := match x with | .ok r => p r | _ => false
theorem witness_ServiceEvents : (∀ r ∈ [Request.inval 3, .bind 3 0x40000, .tdeInval 4095, .tdeRead 0 .core 4032, .tdeWrite 4095 .core 4032],
      (sService r).services.get? 9 = some (service r) ∧ (service r).held = .no ∧ (sService r).live 0 = true ∧ (sService r).samplesAt 0 3 = false)
    ∧ reads ((sService (.bind 3 0x40000)).engRead 0 0 ((sService (.bind 3 0x40000)).serviceView (service (.bind 3 0x40000))) 4 0x40000 64)
      (fun r => (textureOf (BitVec.ofNat 512 (numOf r.bytes))).valid) = true
    ∧ ({ sService (.inval 3) with samples := [(8, sampleNan)] } : State).samplesAt 0 3 = true ∧ (sService (.inval 3)).block? 0 = some b0
    ∧ (sService (.inval 3)).launch? 0 = some benchLaunch ∧ (v32 sampleNan.u).isNan = true
    ∧ (let r := (sService (.inval 3)).engLines 0 0 {} 4 (sampleNan.vas (textureOf sampleNan.record) benchLaunch); r.absent = none ∧ r.bad = [])
    ∧ (sampleNan.held = .no ∧ (sService (.inval 3)).live 0 = true)
    ∧ ((sService (.inval 3)).sampleEarly sampleNan = false ∧ ({ sAccs with accs := [(5, aDev)] } : State).sampleEarly { sampleNan with po := 1 } = true)
    ∧ (sService (.tdeWrite 4095 .core 4032)).padPoisoned (.core 0) 4032 64 = false :=
  ⟨by decide +kernel, by decide +kernel, by decide, rfl, rfl, by decide, by decide +kernel, ⟨rfl, by decide⟩, ⟨by decide +kernel, by decide +kernel⟩, by decide⟩

/-! ### Front ends -/

/-- A packet of a type with a body; its SEQ is 5. -/
def packet (typ : Nat) (body : List Byte) : List Byte := bytesOf 16 (typ + 5 * 65536) ++ body ++ List.replicate (48 - body.length) 0
/-- A device whose front end 0 has the packets and is in a state. -/
def sFe (f : FrontEnd) : State := { sDev with service := .full, fes := [(0, f)], strands := [], blocks := [], launches := [], focus := none }
def feWith (bs : List Byte) (st : FeState := .running) : FrontEnd := { benchFe {} with st, queue := [bs] }
theorem start_of {bs : List Byte} (hm : malformed bs = false) (hw : waitTok bs = 0) : mayStart (sFe (feWith bs)) 0 bs [] :=
  ⟨rfl, Or.inr rfl, rfl, rfl, rfl, rfl, rfl, hm, Or.inl hw⟩
def copyPacket : List Byte := packet 2 (bytesOf 8 0x40000 ++ bytesOf 8 0x80000 ++ bytesOf 8 64)
def launchPacket : List Byte := packet 1 (bytesOf 8 0x10000 ++ bytesOf 4 32 ++ bytesOf 2 32 ++ bytesOf 1 128 ++ bytesOf 8 0 ++ bytesOf 1 1)
def mapPacket : List Byte := packet 5 (bytesOf 8 0x10000 ++ bytesOf 8 0x10000)
def stopPacket (mode : Nat) : List Byte := packet 6 (bytesOf 1 mode)
-- a packet whose type is 0; one that waits for token 9, which holds a failure or is pending
def badPacket : List Byte := packet 0 []
def tokenPacket : List Byte := bytesOf 16 (3 + 9 * 2 ^ 48) ++ List.replicate 48 0
theorem witness_PacketsAndStarts : (packet 3 []).length = 64
    ∧ (∀ bs ∈ [packet 3 [], copyPacket, launchPacket, packet 4 [], mapPacket], mayStart (sFe (feWith bs)) 0 bs [] ∧ (cmdOf bs).caddr = 0)
    ∧ ((cmdOf copyPacket).typ = 2 ∧ (cmdOf (packet 4 [])).typ = 4 ∧ (cmdOf (packet 3 [])).typ = 3 ∧ (cmdOf mapPacket).typ = 5 ∧ (cmdOf launchPacket).typ = 1)
    ∧ ((cmdOf mapPacket).at 24 8 % 65536 = 0 ∧ (cmdOf mapPacket).at 24 8 ≠ 0) ∧ (cmdOf (packet 5 [])).at 24 8 = 0 ∧ ((sFe (feWith launchPacket)).fe 0).kernelAt 0x10000 = none
    ∧ (malformed badPacket = true ∧ waitTok badPacket = 0) ∧ (malformed tokenPacket = false ∧ waitTok tokenPacket = 9)
    ∧ ({ feWith tokenPacket with tokens := [(9, some 0x23)] } : FrontEnd).tokens.get? 9 = some (some 0x23)
    ∧ ({ feWith tokenPacket with tokens := [(9, none)] } : FrontEnd).tokens.get? 9 = some none := by
  refine ⟨rfl, ?_, by decide +kernel, by decide +kernel, by decide +kernel, rfl, by decide +kernel, by decide +kernel, rfl, rfl⟩
  intro bs h
  simp only [List.mem_cons, List.not_mem_nil, or_false] at h
  rcases h with rfl | rfl | rfl | rfl | rfl <;> exact ⟨start_of (by decide +kernel) (by decide +kernel), by decide +kernel⟩

/-- A kernel at 0x10000 of 8 registers under revision 2; the front end that has it; a launch whose pads do not fit beside another. -/
def kernelRec : List Byte := bytesOf 12 0 ++ bytesOf 1 8 ++ bytesOf 3 0x020000 ++ List.replicate 112 0
def feCode (f : FrontEnd) : FrontEnd := { f with codes := [⟨0x10000, 256, [(0x10000, 128)], [kernelRec], [], 0, 0x20000⟩] }
def laWide : Launch := { benchLaunch with clusterPad := 96 * 65536 }
def cmd (typ : Nat) (bs : List Byte) : Cmd := { cmdOf bs with typ }
/-- A front end with a command in progress under the number 9. -/
def feCmd (c : Cmd) : FrontEnd := { benchFe {} with cmds := [(9, c)] }
def sCmd (c : Cmd) : State := { sFe (feCmd c) with mem := (Memory.put [] benchRoot (bytesOf 8 (benchTable + 1))).put benchTable (bytesOf 8 0xC3) }
def signalPacket : List Byte := packet 4 (bytesOf 8 0x40000 ++ bytesOf 8 7)
theorem witness_CommandsProgress :
    (mayStart (sFe (feCode (feWith launchPacket))) 0 launchPacket [] ∧ (feCode (feWith launchPacket)).kernelAt 0x10000 = some kernelRec
      ∧ (let la := launchOfCmd 0 1 (started (sFe (feCode (feWith launchPacket))) 0 (cmdOf launchPacket)) kernelRec
         (feCode (feWith launchPacket)).launchCause (started (sFe (feCode (feWith launchPacket))) 0 (cmdOf launchPacket)) kernelRec la = none ∧ (sFe (feCode (feWith launchPacket))).padsFit la = true))
    ∧ (let s := sFe { benchFe {} with fitWait := some (9, benchLaunch) }; (s.fe 0).fitWait = some (9, benchLaunch) ∧ s.padsFit { benchLaunch with diePad := 0 } = true)
    ∧ (({ sFe { benchFe {} with fitWait := some (9, laWide) } with launches := [(3, benchLaunch)] } : State).padsFit laWide = false)
    ∧ (let s := { sCmd (cmdOf launchPacket) with launches := [(3, { benchLaunch with cmd := 9 })] }
      (s.launch? 3 = some { benchLaunch with cmd := 9 } ∧ (s.fe 0).cmds.get? 9 = some (cmdOf launchPacket) ∧ benchLaunch.nblocks ≤ benchLaunch.next ∧ s.blocks = [] ∧ s.accs = []))
    ∧ (runsCmd (sCmd (cmdOf copyPacket)) 0 9 (cmdOf copyPacket) ∧ (cmdOf copyPacket).pos < (cmdOf copyPacket).at 32 8 ∧ (sCmd (cmdOf copyPacket)).service = .full
      ∧ pageOf (lookup ((sCmd (cmdOf copyPacket)).tlb 0) (benchFe {}) .engRead 0x40000 64) (fun p => p.attr ≠ .hostwin) = true
      ∧ pageOf (lookup ((sCmd (cmdOf copyPacket)).tlb 0) (benchFe {}) .engWrite 0x80000 64) (fun p => p.attr ≠ .hostwin ∧ p.dirty = true) = true
      ∧ ∀ pa, readsNewest (sCmd (cmdOf copyPacket)) (cmdOf copyPacket) pa 64)
    ∧ (runsCmd (sCmd (cmdOf signalPacket)) 0 9 (cmdOf signalPacket) ∧ (cmdOf signalPacket).at 16 8 ≠ 0 ∧ (cmdOf (packet 4 [])).at 16 8 = 0)
    ∧ (runsCmd (sCmd (cmdOf mapPacket)) 0 9 (cmdOf mapPacket) ∧ ((cmdOf mapPacket).at 32 1).testBit 0 = false
      ∧ ((cmdOf (packet 5 (bytesOf 8 0x10000 ++ bytesOf 8 0x10000 ++ [1]))).at 32 1).testBit 0 = true) ∧ (sCmd (cmdOf mapPacket)).cmdFe 8 = none :=
  ⟨⟨⟨rfl, Or.inr rfl, rfl, rfl, rfl, rfl, rfl, by decide +kernel, Or.inl (by decide +kernel)⟩, by decide +kernel, by decide +kernel⟩, ⟨rfl, by decide +kernel⟩, by decide +kernel,
    ⟨rfl, rfl, by decide, rfl, rfl⟩, ⟨rfl, by decide +kernel, rfl, by decide +kernel, by decide +kernel, (fun _ e he => by cases he)⟩, ⟨rfl, by decide +kernel, by decide +kernel⟩,
    ⟨rfl, by decide +kernel, by decide +kernel⟩, rfl⟩

theorem witness_StopCommands : (∀ m ∈ [0, 1], mayStart (sFe (feWith (stopPacket m))) 0 (stopPacket m) [] ∧ (cmdOf (stopPacket m)).typ = 6 ∧ (cmdOf (stopPacket m)).at 16 1 = m
      ∧ (cmdOf (stopPacket m)).caddr = 0)
    ∧ (let f := feWith (stopPacket 2) .suspended; f.en = true ∧ f.st = .suspended ∧ f.cmds = [] ∧ malformed (stopPacket 2) = false ∧ (cmdOf (stopPacket 2)).at 16 1 = 2)
    ∧ (let f := feWith (stopPacket 0) .suspended; f.en = true ∧ f.st = .suspended ∧ malformed (stopPacket 0) = false)
    ∧ (let f := feWith (packet 3 []) .stopped; f.st = .stopped ∧ f.stopping = none ∧ (cmdOf (packet 3 [])).typ ≠ 6) := by
  refine ⟨?_, ⟨rfl, rfl, rfl, by decide +kernel, by decide +kernel⟩, ⟨rfl, rfl, by decide +kernel⟩, rfl, rfl, by decide +kernel⟩
  intro m h
  simp only [List.mem_cons, List.not_mem_nil, or_false] at h
  rcases h with rfl | rfl <;> exact ⟨start_of (by decide +kernel) (by decide +kernel), by decide +kernel⟩

/-! ### Blocks, pre-emption, code, management -/

def laNew : Launch := { benchLaunch with next := 0 }
def sNew : State := { sFe (benchFe {}) with launches := [(0, laNew)] }
def bEnd : Block := { b0 with screenWith := none }
def sEnd (b : Block) : State := sWith { k0 with ended := true, exited := 0xFFFFFFFF, mask := 0 } b
theorem witness_BlockEvents : (sNew.mayPlace 0 = true ∧ sNew.decide 0 = some (.fresh 0 0) ∧ sNew.launch? 0 = some laNew ∧ laNew.avoid.get? 0 = none ∧ laNew.staging.get? 0 = none
      ∧ seatsOf sNew laNew 0 ≠ [] ∧ sNew.strands = [])
    ∧ sNew.ns < (({ sNew with fes := [(0, { benchFe {} with placeAt := 4 })] } : State).fe 0).placeAt ∧ s0.block? 0 = some b0
    ∧ ((sEnd b0).ended 0 b0 = true ∧ b0.buf = [] ∧ b0.committing = none ∧ b0.partner = none ∧ b0.screenWith = none) ∧ s0.ended 0 b0 = false
    ∧ (sEnd { b0 with screenWith := some [] }).ended 0 { b0 with screenWith := some [] } = true :=
  ⟨⟨by decide +kernel, by decide +kernel, rfl, rfl, rfl, by decide +kernel, rfl⟩, by decide, rfl, ⟨by decide, rfl, rfl, rfl, rfl⟩, by decide, by decide⟩

def sHalt (b : Block) : State := { sDev with blocks := [(0, b)] }
def bSaved : Block := { b0 with life := .saved, gen := 1 }
theorem witness_PreemptionEvents : ((sHalt { b0 with life := .draining }).block? 0 = some { b0 with life := .draining } ∧ b0.drainBy ≤ (sHalt b0).ns)
    ∧ ((sHalt { b0 with life := .halting }).haltWaits 0 = false ∧ ({ sHalt { b0 with life := .halting } with accs := [(4, { aDev with addr := 0 })] } : State).haltWaits 0 = true)
    ∧ (let s := sHalt bSaved; s.mayPlace 0 = true ∧ s.decide 0 = some (.restore 0) ∧ (s.restoreSeat bSaved).isSome = true ∧ s.ops = [] ∧ bSaved.committing = none ∧ bSaved.ctxBad = false)
    ∧ (((sFe (benchFe {})).fe 0).en = true ∧ ((sFe (benchFe {})).fe 0).stopping = none) ∧ (sFe (benchFe {})).blocks = []
    ∧ (let s := sFe { benchFe {} with swapped := true }; (s.fe 0).swapped = true ∧ s.rangeTaken 0 31 31 = false)
    ∧ ({ sFe { benchFe {} with swapped := true } with fes := [(0, { benchFe {} with swapped := true }), (1, { benchFe {} with cbase := 31, clim := 31 })] } : State).rangeTaken 0 31 31 = true :=
  ⟨⟨rfl, by decide⟩, ⟨by decide, by decide +kernel⟩, ⟨by decide +kernel, by decide +kernel, by decide +kernel, rfl, rfl, rfl⟩, ⟨rfl, rfl⟩, rfl, ⟨rfl, by decide +kernel⟩, by decide +kernel⟩

/-- A strand that waits for the line of its PC, in an object whose tags stand at 0x20000. -/
def kFetch : Strand := { k0 with pc := 0x10000, fetchHeld := .no, why := .fetch }
def feFetch : FrontEnd := feCode (benchFe {})
def sFetch : State := { sDev with fes := [(0, feFetch)], strands := [(⟨0, 0⟩, kFetch)] }
def feDemand : FrontEnd := { benchFe {} with codes := [⟨0x10000, 65536, [], [], [(0x10000, 0)], 0, 0x20000⟩] }
theorem witness_CodeAndHostEvents : (sFetch.ownerOf 0 = some 0 ∧ (sFetch.core 0).icache.get? (0, 0x10000) = none ∧ pageOf (lookup (sFetch.tlb 0) feFetch .fetch 0x10000 128) (fun _ => true) = true
      ∧ feFetch.failed = [] ∧ feFetch.demandHash 0x10000 = none ∧ (feFetch.codeAt 0x10000).isSome = true ∧ feFetch.owns 0x20000 8 = true ∧ sFetch.fetching 0 (some 0) 0x10000 128 = [⟨0, 0⟩])
    ∧ (feDemand.demandHash 0x10000 = some 0 ∧ (feDemand.codeAt 0x10000).isSome = true ∧ pageOf (lookup { mem := benchTables [] } feDemand .fetch 0x10000 128) (fun p => feDemand.owns p.pa 65536) = true)
    ∧ ((sDev.readVa 0 0x80000 64).isSome = true ∧ (sDev.readRun 0 0x80000 0).isSome = true ∧ (iluopOf []).text = [])
    ∧ sDev.readVa 0 (2 ^ 52) 64 = none ∧ (sDev.fe 0).owns 0x40000 1 = true ∧ (sDev.fe 0).owns (2 ^ 36) 1 = false :=
  ⟨by decide +kernel, by decide +kernel, by decide +kernel, by decide +kernel, by decide +kernel, by decide +kernel⟩

def recGood : PartRec := ⟨1, 1, 0x1000, true, false, 0, 31, 31, 1, 1, 0, 0, 0⟩
def sFull : State := { State.reset with service := .reduced, dieLinks := 0xF, hbmStacks := 0xFFF }
/-- A store to an Ethernet-remote window whose timeout of 100 µs has passed. -/
def sWin : State :=
  { sCells with fes := [(0, { benchFe {} with windows := [(0, { kind := .ethernetRemote, base := 0, size := 16384, timeout := 100000 })] })], accs := [(5, aDev)], ns := 100000
                mem := (Memory.put [] benchRoot (bytesOf 8 (benchTable + 1))).put benchTable (bytesOf 8 0x13) }
theorem witness_ManagementAndBringUp : ((sFe {}).recordBad 0 (PartRec.norm recGood) = false ∧ (PartRec.norm recGood).en = true ∧ ((sFe {}).fe 0).nextRec = none ∧ ((sFe {}).fe 0).en = false)
    ∧ (sFe (benchFe {})).recordBad 0 (PartRec.norm recGood) = false ∧ (sFe {}).recordBad 0 (PartRec.norm { recGood with clim := 0 }) = true
    ∧ State.reset.service = .off ∧ (∃ p < 5, ({ State.reset with service := .powerOn, ports := 0x10 } : State).ports.getLsbD p = true)
    ∧ (sFull.service = .reduced ∧ sFull.dieLinks = BitVec.allOnes 4 ∧ sFull.hbmStacks = BitVec.allOnes 12)
    ∧ (600 ≤ 600 ∧ 2400 ≤ 2400) ∧ State.reset.agedAt + 3600000000000000 ≤ ({ State.reset with ns := 3600000000000000 } : State).ns
    ∧ (State.reset.clusters.getD 31 {}).step < 6 ∧ (6 : Nat) > (({ State.reset with clusters := [(31, { step := 6 })] } : State).clusters.getD 31 {}).step - 1
    ∧ (sFe { benchFe {} with sampleK := 10 }).ownerOf 0 = some 0 ∧ (let s := { sFe { benchFe {} with sampleK := 10 } with ns := 2048 }; (s.core 0).sampleAt / 2 ^ 10 < s.clock 0 / 2 ^ 10)
    ∧ (sWin.remoteOf aDev = some (0, 100000) ∧ (sWin.placeOf aDev).any (fun x => x.1 ≠ .device) = true ∧ sWin.mayPerform 5 aDev = true ∧ sWin.strand? ⟨0, 0⟩ = some k0) :=
  ⟨by decide +kernel, by decide +kernel, by decide +kernel, rfl, by decide, by decide, by decide, by decide, by decide, by decide, by decide +kernel, by decide +kernel, by decide +kernel⟩

/-! ### The machine as a whole -/

/-- A strand in its turn, with the line of its PC in the instruction cache: FFMA.rz, and a word that is no instruction behind it. -/
def lineF : List Byte := bytesOf 8 0x223001040C200001 ++ bytesOf 8 1 ++ List.replicate 112 0
def kTurn (pc : Dword) : Strand := { k0 with pc }
def sTurn (pc : Dword) (cached : Bool) : State :=
  { sDev with
    fes := [(0, benchFe {})], cores := [(0, { icache := if cached then [((0, 0x10000), lineF)] else [] })], strands := [(⟨0, 0⟩, kTurn pc)], focus := none
    turns := [.issue ⟨0, 0⟩] }
def rTurn : StrandRef := ⟨0, 0⟩
/-- The act that comes next: the strand's start in the first cycle. -/
def xTurn : Act := ⟨rTurn, 0, 0, true, 0, [⟨rTurn, 0, 0, 0, 0, 1, some 0, some 0⟩], false⟩
theorem attempts_turn {e : State} {k : Strand} (h : e.strand? rTurn = some k) (hb : e.block? 0 = some b0) (hl : e.launch? 0 = some benchLaunch)
    (hk : k.able = true ∧ k.entry = false ∧ k.groups = [] ∧ k.stopDue = false ∧ k.stepDue = none ∧ k.faults = [] ∧ k.hostBreak = false ∧ k.tmrArmed = false)
    (hr : e.runs b0 = true) : Attempts e rTurn k b0 benchLaunch :=
  ⟨h, hb, hl, hr, hk.1, fun _ => ⟨⟨hk.2.1, fun g hg => by rw [hk.2.2.1] at hg; cases hg⟩, Or.inl hk.2.2.2.1,
    Or.inr ⟨hk.2.2.2.2.1, hk.2.2.2.2.2.1, hk.2.2.2.2.2.2.1, by simp [State.timerDue, hk.2.2.2.2.2.2.2]⟩⟩⟩
theorem witness_StepRunsTheFetchedWord : (∀ pc ∈ [0x10000, 0x10008, 0x10004], (sTurn pc true).turns = [.issue rTurn] ∧ (sTurn pc true).tock.nextAct (some rTurn) = some xTurn
      ∧ Attempts (begun (sTurn pc true) [] xTurn) rTurn (kTurn pc) b0 benchLaunch)
    ∧ pageOf (lookup ((sTurn 0x10008 true).tlb 0) (benchFe {}) .fetch 0x10008 8) (fun _ => true) = true
    ∧ ((begun (sTurn 0x10000 true) [] xTurn).core 0).icache.get? (0, lineOf 0x10000) = some lineF
    ∧ (decode (BitVec.ofNat 64 (numOf ((lineF.drop 0).take 8)))).toOption = some (.ffma (fWord 1 2 3 4 1 3))
    ∧ (decode (BitVec.ofNat 64 (numOf ((lineF.drop 8).take 8)))).toOption = none
    ∧ ((sTurn 0x10000 false).tock.act? rTurn = none ∧ Attempts (({ (sTurn 0x10000 false).tock with turns := [] } : State).lapse rTurn) rTurn (kTurn 0x10000) b0 benchLaunch
      ∧ (({ (sTurn 0x10000 false).tock with turns := [] } : State).lapse rTurn |>.core 0).icache.get? (0, lineOf 0x10000) = none)
    ∧ (let i := Instr.portUp 17; i.form = none ∧ s0.passesTo i = none ∧ samples i = false ∧ ∀ r, i ≠ .timerFire r)
    ∧ ({ sTurn 0x10000 true with turns := [.event (.timerFire rTurn)] } : State).tock.firesTimer rTurn = false := by
  refine ⟨?_, by decide +kernel, by decide +kernel, by decide +kernel, by decide +kernel, ⟨by decide +kernel, attempts_turn (by decide +kernel) (by decide +kernel) (by decide +kernel) (by decide) (by decide +kernel), by decide +kernel⟩, ⟨rfl, rfl, rfl, fun r h => by cases h⟩, by decide +kernel⟩
  intro pc h
  simp only [List.mem_cons, List.not_mem_nil, or_false] at h
  rcases h with rfl | rfl | rfl <;>
    exact ⟨rfl, by decide +kernel, attempts_turn (by decide +kernel) (by decide +kernel) (by decide +kernel) (by decide) (by decide +kernel)⟩

-- a word of each format
theorem witness_EncodingIsExact : ∀ i ∈ [Instr.ffma (fWord 127 127 127 127 0x7E3 15), .movi ⟨⟨15, true, 7, true⟩, 63, 0, 0xFFFFFFFF⟩, .bra ⟨15, 0, 7, true, 0xFFFFFFFF⟩,
    .mxsw (eWord 0 0 0 0), .pWord ⟨7, ⟨.iadd, true, 7, 63, 62, 0⟩, ⟨.fmul, false, 0, 127, 127, 0⟩⟩, .nop, .ill, .ld mDev], i.wf = true ∧ (encode i).isSome = true := by decide +kernel

-- what ResetLeaves says of every front end, core and record is said of one that no table lists
theorem witness_StepKeepsInvariant : State.Inv State.reset ∧ ∃ t, step State.reset = .next t :=
  ⟨⟨rfl, rfl, rfl, fun h => absurd h (by decide), fun h => absurd h (by decide)⟩, _, rfl⟩

/-! ## Words with the results that the spec's examples and tables give -/

/-- A strand of one active thread whose V registers hold values. -/
def k1 (vs : List (Nat × Word)) : Strand := { k0 with mask := 1, exited := 0xFFFFFFFE, v := vs.foldl (fun c e => Cells.set c (e.1 * 512) e.2) [] }
/-- A register of thread 0 after a word, and the flags. -/
def v1 (o : Outcome) (r : Nat) : Option Word := (strandOf o).map (·.vGet r 0)
def both (o : Outcome) (r : Nat) : Option (Word × Flags) := (strandOf o).map fun k => (k.vGet r 0, k.fpflags)

-- R125, R127, R128: the examples of IADD.sat, SHF.shl and BFX.sx
theorem test_iadd_sat : v1 (exec (.iadd 1 (fWord 4 5 6 0 0)) (sWith (k1 [(5, 0x7FFFFFF0), (6, 0x20)]))) 4 = some 0x7FFFFFFF := by decide +kernel
theorem test_shl_40 : v1 (exec (.shf 0 (fWord 1 2 40 0 0x800)) (sWith (k1 [(1, 5), (2, 0xFFFFFFFF)]))) 1 = some 0 := by decide +kernel
theorem test_bfx_sx : v1 (exec (.bfx (fWord 3 4 0 0 (0x400 ||| (8 <<< 5) ||| 3))) (sWith (k1 [(4, 0x0000FA00)]))) 3 = some 0xFFFFFFFA := by decide +kernel
-- R125: the high words of −1 × −1 and of (2^32 − 1)²
theorem test_imul_high : v1 (exec (.imul 1 (fWord 1 2 2 0 0)) (sWith (k1 [(2, 0xFFFFFFFF)]))) 1 = some 0
    ∧ v1 (exec (.imul 2 (fWord 1 2 2 0 0)) (sWith (k1 [(2, 0xFFFFFFFF)]))) 1 = some 0xFFFFFFFE := by decide +kernel
-- R126: a AND (b OR c) has the table 0xA8
theorem test_twill_a8 : v1 (exec (.twill (fWord 1 2 3 4 0xA8)) (sWith (k1 [(2, 0xFF00FF00), (3, 0xF0F00000), (4, 0x0F000F00)]))) 1 = some 0xFF000F00 := by decide +kernel
-- R132: PEEK.flip with 1 exchanges adjacent threads
theorem test_peek_flip : (strandOf (exec (.peek 3 (fWord 5 4 1 0 0x800)) (sWith { k1 [] with mask := 3, exited := 0xFFFFFFFC, v := [(4 * 512, 7), (4 * 512 + 16, 9)] }))).map
    (fun k => (k.vGet 5 0, k.vGet 5 1)) = some (9, 7) := by decide +kernel
-- R142 and the table of worked conversions: 300.0, 500.0 and 0.003 to E4M3, −inf to E5M2, 2.5 to E2M1, NaN to E2M3, −3.7 to INT8, 1.0e10 to INT32
theorem test_cvt_300 : both (exec (.cvt 3 (fWord 8 3 0 0 0)) (sWith (k1 [(3, 0x43960000)]))) 8 = some (0x79, NX) := by decide +kernel
theorem test_cvt_table : cvtF 3 0 .rn 0x43FA0000 = ⟨0x7E, OF ||| NX⟩ ∧ cvtF 3 0 .rn 0x3B449BA6 = ⟨0x02, UF ||| NX⟩ ∧ cvtF 4 0 .rn 0xFF800000 = ⟨0xFB, OF ||| NX⟩
    ∧ cvtF 7 0 .rn 0x40200000 = ⟨4, NX⟩ ∧ cvtF 2 0 .rn 0x3F808000 = ⟨0x3F80, NX⟩ ∧ cvtF 6 0 .rn 0x7FC00000 = ⟨0, IV⟩ ∧ (cvtF 9 0 .rn 0xC06CCCCD).code % 256 = 0xFC
    ∧ cvtF 0xD 0 .rn 0x501502F9 = ⟨0x7FFFFFFF, IV⟩ := by decide +kernel
-- the MXFP4 block with 5.0 and −0.3 under a scale of 1
theorem test_quantise_mx : quantise 7 [v32 0x40A00000, v32 0xBE99999A] = ⟨0x7F, [6, 9]⟩ := by decide +kernel
-- R143, R144: QNT.st.e2m1 of 2.5; PACK and UNPACK of 300.0
theorem test_qnt : both (exec (.qntSt (fWord 14 13 0 0 7)) (sWith (k1 [(13, 0x40200000)]))) 14 = some (0x40000000, NX) := by decide +kernel
theorem test_pack : both (exec (.pack (fWord 9 2 1 0 0x803)) (sWith (k1 [(2, 0x43960000)]))) 9 = some (0x7900, NX) := by decide +kernel
theorem test_unpack : v1 (exec (.unpack (fWord 15 9 1 0 0x803)) (sWith (k1 [(9, 0x7900)]))) 15 = some 0x43900000 := by decide +kernel
-- R134: FMINMAX.maxnum of NaN and 0 gives +0
theorem test_maxnum : v1 (exec (.fminmax 3 (fWord 16 16 0 0 0x800)) (sWith (k1 [(16, 0x7FC00000)]))) 16 = some 0 := by decide +kernel
-- R136: the two pairs
theorem test_twosum : (strandOf (exec (.twosum (fWord 10 2 3 0 0)) (sWith (k1 [(2, 0x3F800000), (3, 0x30800000)])))).map
    (fun k => (k.vGet 10 0, k.vGet 11 0, k.fpflags)) = some (0x3F800000, 0x30800000, NX) := by decide +kernel
theorem test_twoprod : (strandOf (exec (.twoprod (fWord 10 2 2 0 0)) (sWith (k1 [(2, 0x3F800800)])))).map
    (fun k => (k.vGet 10 0, k.vGet 11 0, k.fpflags)) = some (0x3F801000, 0x33800000, NX) := by decide +kernel
-- R137: PKADD.f16
theorem test_pkadd : v1 (exec (.pkadd false (fWord 13 14 15 0 0)) (sWith (k1 [(14, 0x3C003C00), (15, 0x40003800)]))) 13 = some 0x42003E00 := by decide +kernel
-- R118, R140: JEVAL of the stored pixel, FPRINT of the footprint
theorem test_jeval : (let k := { k1 [] with v := [(0, 0x3E800000), (1, 0x3F000000), (2, 0xC0000000)], s := [(24, 0x3D800000), (25, 0x3C000000)] }
    both (exec (.jeval (fWord 20 0 24 0 0)) (sWith k b0 { benchLaunch with tangents := [3, 4] })) 20) = some (0x3E880000, 0) := by decide +kernel
theorem test_fprint : (let ax := axesFv (v32 0x40000000) .zero .zero (v32 0x3F000000)
    ∀ rm ∈ [Rm.ru, .rd], (toWord (round fp32 rm ax.major), toWord (round fp32 rm ax.minor), toWord (round fp32 rm ax.lod)) = (0x40000000, 0x3F000000, 0x3F800000)) := by
  decide +kernel
-- R105: a product of jets, FMUL of 3 with component 1 and 2 with component 0
theorem test_fmul_jet : (let k := { k1 [(1, 0x40400000), (2, 0x40000000)] with v := [(512, 0x40400000), (513, 0x3F800000), (1024, 0x40000000)] }
    (strandOf (exec (.fmul (fWord 3 1 2 0 0)) (sWith k b0 { benchLaunch with tangents := [0] }))).map fun k => (k.vGet 3 0, k.compGet 3 0 0)) =
      some (0x40C00000, 0x40000000) := by decide +kernel
-- R306: MSK.ffs of 0x00F0F000 is 0x1000
theorem test_msk_ffs : (strandOf (exec (.msk 6 ⟨⟨0, true, 0, false⟩, 2, 1, 0, 0, 0⟩) (sWith (k0.setM 1 0x00F0F000)))).map (·.mGet 2) = some 0x1000 := by decide +kernel
-- R294: BRA takes the threads of its mask four words back
theorem test_bra : (strandOf (exec (.bra ⟨0, 0, 3, false, 0xFFFFFFFC⟩) (sWith { k0.setM 3 0xFF with pc := 0x100 }))).map (fun k => (k.pc, k.mask, k.groups)) =
    some (0xE0, 0xFF, [⟨0xFFFFFF00, 0x108, none, false⟩]) := by decide +kernel
-- R57, R347, R349: ILL in a strand with a privileged handler
theorem test_ill : (strandOf (exec .ill (sWith { kVec with pc := 0x100 }))).map (fun k => (k.pc, k.ph, k.pepc, k.pmask, k.pcause)) =
    some (0x8000, true, 0x100, 0xFFFFFFFF, 0x06) := by decide +kernel
-- R300, R302: TRAPU and SYS.TRAP resume at the next word
theorem test_trapu : (strandOf (exec (.ctlTrapu (fWord 0 0 0 0 0x2A)) (sWith { kVec with pc := 0x100 }))).map (fun k => (k.pc, k.uh, k.uepc, k.ucause)) =
    some (0x9000, true, 0x108, 0x2A61) := by decide +kernel
theorem test_sys_trap : (strandOf (exec (.sysTrap (fWord 0 0 0 0 5)) (sWith { kVec with pc := 0x100 }))).map (fun k => (k.pc, k.pepc, k.pcause)) =
    some (0x8000, 0x108, 0x75) := by decide +kernel
-- R262, R263: BAR.SET with an expectation of 3; its PHASE and ACNT
theorem test_bar_set : stateOf (exec (.barSet (fWord 0 2 3 0 0x800)) s0) (fun s => ((s.bar 0 2).init, (s.bar 0 2).aexp, (s.bar 0 2).acnt)) = some (true, 3, 0) := by decide +kernel
-- R257: an ATOM.add of 5 on a word that holds 0xFFFFFFFE: the word becomes 3, the register the old word
theorem test_atom_add : stateOf (exec (.accessPerformed 4) { sAccs with blocks := [(0, { b0 with pad := Memory.put [] 4092 (bytesOf 4 0xFFFFFFFE) })] })
    (fun s => ((s.padOf 0 0 0 .core).num 4092 4, (s.strand? ⟨0, 0⟩).map (·.sGet 63), s.accs.length)) = some (3, some 0xFFFFFFFE, 1) := by decide +kernel
-- R246: a store to device memory, little-endian
theorem test_store : stateOf (exec (.accessPerformed 5) sAccs) (fun s => s.mem.num 0x20000 4) = some 0x04030201 := by decide +kernel
-- R99: 1.5, −2^−70 and 3.0e17 into a cell that holds zero
theorem test_fxadd_value : (fxAdd 0 (v32 0x3FC00000)).extractLsb' 0 120 = 0x18000000000000000 ∧ fxAdd 0 (v32 0x9C800000) = fxCell 2 0 ∧ fxAdd 0 (v32 0x5C853A0D) = fxCell 4 0 := by decide +kernel
-- R194: MXSW exchanges the banks
theorem test_mxsw : stateOf (exec (.mxswExchange 9) { sArray (opOn .mxsw []) with cores := [(0, { array := some { arr9 with shadow := { loaded := true, k := 32, n := 8 } } })] })
    (fun s => (s.core 0).array.map fun a => (a.live.k, a.shadow.k)) = some (some (32, 0)) := by decide +kernel
-- R265 to R267: a pop takes the oldest entry
theorem test_pop : v1 (exec (.movQueuePop (fWord 127 0 0 0 0)) (sWith k0 bQueue)) 127 = some 7 := by decide +kernel
-- R369: a SIGNAL starts with the packet's SEQ
theorem test_signal_start : stateOf (exec (.cmdSignal 0) (sFe (feWith signalPacket))) (fun s => ((s.fe 0).seqStart, (s.fe 0).cmds.length)) = some (5, 1) := by decide +kernel
-- the word that step fetches and runs first after reset
theorem test_first_step : v1 (step (State.reset.withFetchWord 64 0x0200010000000007)) 1 = some 7 := by decide +kernel

end Sys2Proof.Tests
end

section
/-!
SUPPORT. What a step keeps (R7, R377, log 1): every instruction by its own lemma of Laws/Keeps.lean and Laws/KeepsWords.lean, then the operations of Issue.lean in
the order of their definitions, up to `step`.
-/
namespace Sys2Proof.Machine

variable {s0 s : State}

/-! ## Outcomes -/

/-- The state after an outcome that keeps the form of a safe run. -/
theorem stateAfter_keeps {o : Outcome} (hk : Keeps s0 s) (ho : OutcomeKeeps s0 o) : Keeps s0 (stateAfter s o) := by
  cases o with
  | next t => exact ho.keeps t rfl
  | fault _ => exact hk
  | refused _ => exact hk

/-! ## Every instruction -/

theorem exec_keeps (hk : Keeps s0 s) : ∀ i, OutcomeKeeps s0 (exec i s)
  | .nop => execNop_keeps hk
  | .ill => execIll_keeps hk
  | .movVV _ => execMovVV_keeps hk
  | .movVS _ => execMovVS_keeps hk
  | .movSV _ => execMovSV_keeps hk
  | .movSS _ => execMovSS_keeps hk
  | .movQueuePop _ => execMovQueuePop_keeps hk
  | .movQueuePush _ => execMovQueuePush_keeps hk
  | .movVM _ => execMovVM_keeps hk
  | .movMV _ => execMovMV_keeps hk
  | .movHandleStatus _ => execMovHandleStatus_keeps hk
  | .movHandleToken _ => execMovHandleToken_keeps hk
  | .movTokenHandle _ => execMovTokenHandle_keeps hk
  | .movi _ => execMovi_keeps hk
  | .iaddi _ => execIaddi_keeps hk
  | .andi _ => execAndi_keeps hk
  | .ori _ => execOri_keeps hk
  | .xori _ => execXori_keeps hk
  | .iadd _ _ => execIadd_keeps hk
  | .isub _ _ => execIsub_keeps hk
  | .imul _ _ => execImul_keeps hk
  | .imad _ => execImad_keeps hk
  | .iminmax _ _ => execIminmax_keeps hk
  | .iabs _ => execIabs_keeps hk
  | .iaddw _ => execIaddw_keeps hk
  | .lea _ => execLea_keeps hk
  | .twill _ => execTwill_keeps hk
  | .shf _ _ => execShf_keeps hk
  | .bfx _ => execBfx_keeps hk
  | .bfi _ => execBfi_keeps hk
  | .popc _ => execPopc_keeps hk
  | .clz _ => execClz_keeps hk
  | .brev _ => execBrev_keeps hk
  | .sel _ => execSel_keeps hk
  | .icmp _ _ => execIcmp_keeps hk
  | .fcmp _ _ => execFcmp_keeps hk
  | .fclass _ => execFclass_keeps hk
  | .read _ _ => execRead_keeps hk
  | .peek _ _ => execPeek_keeps hk
  | .fadd _ => execFadd_keeps hk
  | .fmul _ => execFmul_keeps hk
  | .ffma _ => execFfma_keeps hk
  | .faddi _ => execFaddi_keeps hk
  | .fmuli _ => execFmuli_keeps hk
  | .fscale _ => execFscale_keeps hk
  | .fminmax _ _ => execFminmax_keeps hk
  | .frnd _ => execFrnd_keeps hk
  | .fdiv _ => execFdiv_keeps hk
  | .fsqrt _ => execFsqrt_keeps hk
  | .frcp _ => execFrcp_keeps hk
  | .frsq _ => execFrsq_keeps hk
  | .ftr _ _ => execFtr_keeps hk
  | .twosum _ => execTwosum_keeps hk
  | .twoprod _ => execTwoprod_keeps hk
  | .pkadd _ _ => execPkadd_keeps hk
  | .pkmul _ _ => execPkmul_keeps hk
  | .pkfma _ _ => execPkfma_keeps hk
  | .jseed _ => execJseed_keeps hk
  | .tget _ => execTget_keeps hk
  | .tset _ => execTset_keeps hk
  | .jzero _ => execJzero_keeps hk
  | .jeval _ => execJeval_keeps hk
  | .fprint _ => execFprint_keeps hk
  | .cvt _ _ => execCvt_keeps hk
  | .qntSt _ => execQntSt_keeps hk
  | .qntZ _ => execQntZ_keeps hk
  | .pack _ => execPack_keeps hk
  | .unpack _ => execUnpack_keeps hk
  | .ld _ => execLd_keeps hk
  | .st _ => execSt_keeps hk
  | .atom _ _ => execAtom_keeps hk
  | .cas _ => execCas_keeps hk
  | .fxadd _ => execFxadd_keeps hk
  | .fxrdRead _ => execFxrdRead_keeps hk
  | .fxrdClr _ => execFxrdClr_keeps hk
  | .qld _ => execQld_keeps hk
  | .qst _ => execQst_keeps hk
  | .fence _ _ _ => execFence_keeps hk
  | .fenceSc _ => execFenceSc_keeps hk
  | .waita _ => execWaita_keeps hk
  | .barSet _ => execBarSet_keeps hk
  | .barMark _ => execBarMark_keeps hk
  | .barWait _ => execBarWait_keeps hk
  | .barWaitPhase _ => execBarWaitPhase_keeps hk
  | .barOwe _ => execBarOwe_keeps hk
  | .barStat _ => execBarStat_keeps hk
  | .barShare _ => execBarShare_keeps hk
  | .sknJoin _ => execSknJoin_keeps hk
  | .sknLeave _ => execSknLeave_keeps hk
  | .sknSync _ => execSknSync_keeps hk
  | .qcfg _ => execQcfg_keeps hk
  | .hndWait _ => execHndWait_keeps hk
  | .hndTest _ => execHndTest_keeps hk
  | .hndCancel _ => execHndCancel_keeps hk
  | .hndMove _ => execHndMove_keeps hk
  | .cpl _ => execCpl_keeps hk
  | .cplFo _ => execCplFo_keeps hk
  | .cps _ => execCps_keeps hk
  | .cpm _ => execCpm_keeps hk
  | .cpq _ => execCpq_keeps hk
  | .cpx _ => execCpx_keeps hk
  | .cpr _ => execCpr_keeps hk
  | .sample _ => execSample_keeps hk
  | .sampleLod _ => execSampleLod_keeps hk
  | .texbBind _ => execTexbBind_keeps hk
  | .texbInval _ => execTexbInval_keeps hk
  | .mxb _ => execMxb_keeps hk
  | .mxsw _ => execMxsw_keeps hk
  | .mxsq _ => execMxsq_keeps hk
  | .mma _ _ => execMma_keeps hk
  | .mxd _ => execMxd_keeps hk
  | .mxdGuide _ => execMxdGuide_keeps hk
  | .mxcClear _ => execMxcClear_keeps hk
  | .mxcPair _ => execMxcPair_keeps hk
  | .mxcUnpair _ => execMxcUnpair_keeps hk
  | .tdeWrite _ => execTdeWrite_keeps hk
  | .tdeRead _ => execTdeRead_keeps hk
  | .tdeInval _ => execTdeInval_keeps hk
  | .hdlLoad _ => execHdlLoad_keeps hk
  | .hdlPerm _ => execHdlPerm_keeps hk
  | .bra _ => execBra_keeps hk
  | .jmpi _ => execJmpi_keeps hk
  | .call _ => execCall_keeps hk
  | .ctlRet _ => execCtlRet_keeps hk
  | .ctlExit _ => execCtlExit_keeps hk
  | .ctlRcv _ => execCtlRcv_keeps hk
  | .ctlRegion _ => execCtlRegion_keeps hk
  | .ctlSigchk _ => execCtlSigchk_keeps hk
  | .ctlSigrst _ => execCtlSigrst_keeps hk
  | .ctlSleep _ => execCtlSleep_keeps hk
  | .ctlYield _ => execCtlYield_keeps hk
  | .ctlTmrset _ => execCtlTmrset_keeps hk
  | .ctlTmrclr _ => execCtlTmrclr_keeps hk
  | .ctlTrapu _ => execCtlTrapu_keeps hk
  | .ctlUret _ => execCtlUret_keeps hk
  | .ctlBrk _ => execCtlBrk_keeps hk
  | .ctlEvmark _ => execCtlEvmark_keeps hk
  | .msk _ _ => execMsk_keeps hk
  | .sysTrap _ => execSysTrap_keeps hk
  | .sysTret _ => execSysTret_keeps hk
  | .sysTretRr _ => execSysTretRr_keeps hk
  | .sysRdcr _ => execSysRdcr_keeps hk
  | .sysWrcr _ => execSysWrcr_keeps hk
  | .sysHalt _ => execSysHalt_keeps hk
  | .sysHaltRelaunch _ => execSysHaltRelaunch_keeps hk
  | .sysXread _ => execSysXread_keeps hk
  | .sysXwrite _ => execSysXwrite_keeps hk
  | .sysResume _ => execSysResume_keeps hk
  | .sysIcinv _ => execSysIcinv_keeps hk
  | .pWord _ => execPWord_keeps hk
  | .accessPerformed _ => execAccessPerformed_keeps hk
  | .asyncFaultDelivery _ => execAsyncFaultDelivery_keeps hk
  | .hostBreak _ => execHostBreak_keeps hk
  | .stopBlockHalt _ => execStopBlockHalt_keeps hk
  | .timerFire _ => execTimerFire_keeps hk
  | .rcvExpired _ _ => execRcvExpired_keeps hk
  | .waitaWakeOnWrite _ _ => execWaitaWakeOnWrite_keeps hk
  | .waitaPeriodicRead _ _ => execWaitaPeriodicRead_keeps hk
  | .waitaBoundExpiry _ _ => execWaitaBoundExpiry_keeps hk
  | .sleepExpiry _ => execSleepExpiry_keeps hk
  | .heartbeatTick => execHeartbeatTick_keeps hk
  | .queueStalled _ => execQueueStalled_keeps hk
  | .queueDeadlock _ => execQueueDeadlock_keeps hk
  | .quorumAnswer _ _ => execQuorumAnswer_keeps hk
  | .quorumCopyTimeout _ _ => execQuorumCopyTimeout_keeps hk
  | .quorumScrub _ _ => execQuorumScrub_keeps hk
  | .mxswExchange _ => execMxswExchange_keeps hk
  | .mxbComplete _ => execMxbComplete_keeps hk
  | .mmaCommit _ => execMmaCommit_keeps hk
  | .mxdComplete _ => execMxdComplete_keeps hk
  | .cplFollowOnIssue _ => execCplFollowOnIssue_keeps hk
  | .recordFreedStart _ => execRecordFreedStart_keeps hk
  | .copyAccept _ => execCopyAccept_keeps hk
  | .copyUnitWritten _ _ => execCopyUnitWritten_keeps hk
  | .copyComplete _ => execCopyComplete_keeps hk
  | .cprComplete _ _ => execCprComplete_keeps hk
  | .cprTimeout _ => execCprTimeout_keeps hk
  | .sampleResult _ => execSampleResult_keeps hk
  | .texbComplete _ => execTexbComplete_keeps hk
  | .tdeComplete _ => execTdeComplete_keeps hk
  | .packetReceive _ _ _ => execPacketReceive_keeps hk
  | .cmdLaunch _ => execCmdLaunch_keeps hk
  | .launchFitStart _ => execLaunchFitStart_keeps hk
  | .launchComplete _ => execLaunchComplete_keeps hk
  | .cmdCopy _ => execCmdCopy_keeps hk
  | .copyCmdComplete _ => execCopyCmdComplete_keeps hk
  | .cmdWait _ => execCmdWait_keeps hk
  | .cmdSignal _ => execCmdSignal_keeps hk
  | .signalStore _ => execSignalStore_keeps hk
  | .cmdMap _ => execCmdMap_keeps hk
  | .mapComplete _ => execMapComplete_keeps hk
  | .cmdStopSuspend _ => execCmdStopSuspend_keeps hk
  | .cmdStopTerminate _ => execCmdStopTerminate_keeps hk
  | .cmdStopResume _ => execCmdStopResume_keeps hk
  | .drainExpiry _ => execDrainExpiry_keeps hk
  | .blockSaved _ => execBlockSaved_keeps hk
  | .blockRestore _ => execBlockRestore_keeps hk
  | .contextSwapOut _ => execContextSwapOut_keeps hk
  | .contextSwapIn _ _ => execContextSwapIn_keeps hk
  | .blockPlace _ => execBlockPlace_keeps hk
  | .strandSelectable _ => execStrandSelectable_keeps hk
  | .blockRetire _ => execBlockRetire_keeps hk
  | .screenVerdict _ => execScreenVerdict_keeps hk
  | .icacheFill _ _ => execIcacheFill_keeps hk
  | .demandPageHash _ _ => execDemandPageHash_keeps hk
  | .objectLoad _ _ _ => execObjectLoad_keeps hk
  | .hostMemoryWrite _ _ _ => execHostMemoryWrite_keeps hk
  | .hostMemoryRead _ _ _ => execHostMemoryRead_keeps hk
  | .mgmtPartitionWrite _ _ => execMgmtPartitionWrite_keeps hk
  | .mgmtPartitionDisable _ => execMgmtPartitionDisable_keeps hk
  | .mgmtPrivilegedVector _ _ => execMgmtPrivilegedVector_keeps hk
  | .mgmtWindows _ _ _ => execMgmtWindows_keeps hk
  | .mgmtReductionGroups _ _ _ => execMgmtReductionGroups_keeps hk
  | .mgmtReductionGrant _ => execMgmtReductionGrant_keeps hk
  | .mgmtTelemetry _ _ => execMgmtTelemetry_keeps hk
  | .mgmtStatusBlock _ _ => execMgmtStatusBlock_keeps hk
  | .mgmtPowerLimit _ => execMgmtPowerLimit_keeps hk
  | .mgmtAgeingMeasure _ => execMgmtAgeingMeasure_keeps hk
  | .mgmtRetire _ _ => execMgmtRetire_keeps hk
  | .ageingPeriodicRead _ => execAgeingPeriodicRead_keeps hk
  | .powerCapAdjust _ _ => execPowerCapAdjust_keeps hk
  | .powerOn => execPowerOn_keeps hk
  | .enterReducedService => execEnterReducedService_keeps hk
  | .enterFullService => execEnterFullService_keeps hk
  | .portTrain _ _ _ => execPortTrain_keeps hk
  | .portDown _ => execPortDown_keeps hk
  | .portUp _ => execPortUp_keeps hk
  | .flitCrcReplay p => execFlitCrcReplay_keeps (_port := p) hk
  | .ethLink _ _ => execEthLink_keeps hk
  | .weftRetransmit p => execWeftRetransmit_keeps (_port := p) hk
  | .weftAccessTimeout _ => execWeftAccessTimeout_keeps hk
  | .pcSample _ => execPcSample_keeps hk
  | .mxsqComplete _ => execMxsqComplete_keeps hk
  | .mxcClearComplete _ => execMxcClearComplete_keeps hk
  | .deviceFatal => execDeviceFatal_keeps hk

/-! ## One word of one strand -/

theorem runWord_keeps {r : StrandRef} {i : Instr} (hk : Keeps s0 s) : OutcomeKeeps s0 (runWord s r i) := by
  have hi : OutcomeKeeps s0 (exec i { s with focus := some r }) := exec_keeps hk.upd i
  unfold runWord
  split
  · next t ht => exact .next (State.modStrand_keeps (hi.keeps t ht).upd)
  · exact hi

theorem decodeRun_keeps {r : StrandRef} {k : Strand} {w : Dword} (hk : Keeps s0 s) : OutcomeKeeps s0 (decodeRun s r k w) := by
  unfold decodeRun
  split
  · exact runWord_keeps hk
  · exact .next (State.enterPriv_keeps hk)

theorem fetchRun_keeps {r : StrandRef} {k : Strand} {b : Block} {la : Launch} (hk : Keeps s0 s) : OutcomeKeeps s0 (fetchRun s r k b la) := by
  unfold fetchRun
  split
  · exact decodeRun_keeps (State.modStrand_keeps hk)
  · exact .next (State.stall_keeps (State.modStrand_keeps hk))
  · exact .next (State.holdFetch_keeps hk)
  · exact .next (State.enterPriv_keeps hk)

/-- The state in which a strand has come to its boundary, whether or not it goes on from there. -/
theorem State.comeToBoundary_keepsState {r : StrandRef} {k : Strand} {b : Block} {t : State} {goesOn : Bool} (hk : Keeps s0 s)
    (e : s.comeToBoundary r k b = (t, goesOn)) : Keeps s0 t := by
  have h : Keeps s0 (s.comeToBoundary r k b).1 := State.comeToBoundary_keeps hk
  rwa [e] at h

theorem issueOne_keeps {r : StrandRef} (hk : Keeps s0 s) : OutcomeKeeps s0 (issueOne s r) := by
  have hl : Keeps s0 (s.lapse r) := State.lapse_keeps hk
  unfold issueOne
  dsimp only
  split
  · split
    · exact .next hl
    · split
      · exact .next hl
      · split
        · split
          · next ht => exact .next (State.comeToBoundary_keepsState hl ht)
          · next ht =>
            have ht := State.comeToBoundary_keepsState hl ht
            split
            · exact fetchRun_keeps ht
            · exact .next ht
        · exact fetchRun_keeps hl
  · exact .next hl

/-! ## Acts and turns -/

theorem State.doAct_keeps {x : Act} (hk : Keeps s0 s) : OutcomeKeeps s0 (s.doAct x) := by
  have hr : Keeps s0 (s.reachCycle x.core x.cyc) := State.reachCycle_keeps hk
  have hi : OutcomeKeeps s0 (issueOne (s.reachCycle x.core x.cyc) x.r) := issueOne_keeps hr
  unfold State.doAct
  split
  · exact execPcSample_keeps (State.observe_keeps hr)
  · split
    · next t ht =>
      have ht : Keeps s0 t := hi.keeps t ht
      split
      · exact .next (State.tookLane_keeps ht)
      · exact .next ht
    · exact hi

theorem issueTurn_keeps {r : StrandRef} {rest : List Turn} (hk : Keeps s0 s) : OutcomeKeeps s0 (issueTurn s r rest) := by
  unfold issueTurn
  split
  · exact issueOne_keeps hk.upd
  · split
    · exact State.doAct_keeps hk.upd
    · split
      · exact issueOne_keeps hk.upd
      · exact State.doAct_keeps hk

theorem eventTurn_keeps {e : Instr} {rest : List Turn} (hk : Keeps s0 s) : OutcomeKeeps s0 (eventTurn s e rest) := by
  have hr : Keeps s0 { s with turns := rest } := hk.upd
  unfold eventTurn
  split
  · exact .next hr
  · split
    · split
      · exact issueTurn_keeps hk
      · exact .next hr
    · split
      · exact State.doAct_keeps hk
      · apply exec_keeps
        split
        · exact State.observe_keeps hr
        · exact hr

/-! ## When the schedule is empty -/

theorem firstEvent_keeps {es : List Instr} (hk : Keeps s0 s) {t : State} (e : firstEvent s es = some t) : Keeps s0 t := by
  induction es with
  | nil => cases e
  | cons x xs ih =>
    simp only [firstEvent] at e
    split at e
    · exact ih e
    · cases e
      exact stateAfter_keeps hk (eventTurn_keeps hk)

theorem State.rereadAll_keeps (hk : Keeps s0 s) : Keeps s0 s.rereadAll :=
  Keeps.foldl (fun _ _ h => Keeps.foldl (fun _ _ h => State.waitaRead_keeps h) h) hk

theorem State.tick_keeps (hk : Keeps s0 s) : Keeps s0 s.tick :=
  State.rereadAll_keeps (stateAfter_keeps hk (execHeartbeatTick_keeps hk))

theorem State.idle_keeps (hk : Keeps s0 s) : Keeps s0 s.idle := by
  unfold State.idle
  dsimp only
  split
  · exact State.rereadAll_keeps hk
  · exact State.tick_keeps hk

theorem defaultTurn_keeps (hk : Keeps s0 s) : Keeps s0 (defaultTurn s) := by
  unfold defaultTurn
  split
  · exact State.tick_keeps hk
  · split
    · next t ht => exact firstEvent_keeps hk ht
    · split
      · split
        · exact stateAfter_keeps hk (State.doAct_keeps hk)
        · exact State.idle_keeps hk
      · exact State.idle_keeps hk

/-- A step is a strand's turn, an event, an error of the hardware, or the default turn; each keeps the form of a safe run. -/
theorem step_keeps (s : State) : OutcomeKeeps s (step s) := by
  have hk : Keeps s s.tock := State.tock_keeps (.refl s)
  unfold step
  split
  · exact issueTurn_keeps hk
  · exact eventTurn_keeps hk
  · exact .next (State.upset_keeps hk.upd)
  · exact .next (defaultTurn_keeps hk)

/-- Settles O59: the turn of a step is carried out by operations each of which keeps the invariant and lets device time only rise. -/
theorem stepKeepsInvariant : Obligations.StepKeepsInvariant := by
  intro s t hs ht
  have hk : Keeps s t := (step_keeps s).keeps t ht
  exact ⟨hk.inv hs, hk.time⟩

end Sys2Proof.Machine
end

section
/-!
SUPPORT. The entry to the privileged handler of one strand (R347, R350), the heartbeat tick (R7), and the events of queue-stalled blocks (R320); then what reset
leaves (R7, R376, R377).
-/
namespace Sys2Proof.Machine

variable {s : State} {r : StrandRef} {k : Strand} {b : Block} {la : Launch} {blk : Nat}

/-! ## Entry to the privileged handler -/

theorem State.strand?_count (s : State) (fe i n : Nat) (r : StrandRef) : (s.count fe i n).strand? r = s.strand? r := by
  obtain ⟨cs, h⟩ := s.count_eq fe i n
  rw [h]
  rfl

theorem State.clock_count (s : State) (fe i n core : Nat) : (s.count fe i n).clock core = s.clock core := by
  obtain ⟨cs, h⟩ := s.count_eq fe i n
  rw [h]
  rfl

/-- Stop-block mode leaves the strand that has entered its handler as it is (R304, R350). -/
@[simp] theorem State.strand?_stopOthers_self (s : State) (r : StrandRef) (on : Bool) : (s.stopOthers r on).strand? r = s.strand? r := by
  simp only [State.strand?, State.stopOthers]
  induction s.strands with
  | nil => rfl
  | cons e l ih =>
    obtain ⟨q, k⟩ := e
    by_cases hq : q = r
    · simp [hq, Table.get?]
    · simp only [List.map_cons]
      split
      · simpa [Table.get?, hq] using ih
      · simpa [Table.get?, hq] using ih

/-- A trap of a strand outside its privileged handler, which it has, with the strand in a block that is no shadow (R347). -/
theorem State.strand?_enterPriv {p : Report} (hk : s.strand? r = some k) (hb : s.block? r.blk = some b) (hs : b.shadow = false)
    (hp : k.ph = false) (hv : k.pvec ≠ 0) : (s.enterPriv r p).strand? r = some (k.trapped (s.clock b.core) p) := by
  unfold State.enterPriv
  simp only [hk, hb, hs, hp, hv, Bool.false_eq_true, if_false, State.clock_count]
  split
  · rw [State.strand?_stopOthers_self, State.strand?_setStrand_self]
  · rw [State.strand?_setStrand_self]

/-- A synchronous cause of a word, with no detail and no original cause, is the whole of pcause (R349). -/
theorem Report.pcause_plain {p : Report} (hd : p.detail = 0) (ho : p.orig = 0) (ha : p.async = false) (he : p.eng = false) :
    p.pcause = BitVec.ofNat 32 p.cause.toNat := by
  simp [Report.pcause, hd, ho, ha, he]

/-! ## The heartbeat -/

/-- The heartbeat's instant after a tick (R7). -/
def State.tickNs (s : State) : Nat := if s.beatNs + 256 ≤ s.ns then s.ns / 256 * 256 else s.beatNs + 256

theorem State.tickNs_aligned (h : s.beatNs % 256 = 0) : s.tickNs % 256 = 0 ∧ s.beatNs + 256 ≤ s.tickNs := by
  unfold State.tickNs
  split <;> omega

/-- The QSTs that a tick lets complete change neither clock. -/
theorem heartbeatTick_clocks (s : State) : ∃ t, exec .heartbeatTick s = .next t ∧ t.ns = max s.ns s.tickNs ∧ t.beatNs = s.tickNs := by
  refine ⟨_, rfl, ?_⟩
  have h : Only (.echoes :: .tags :: .uid :: .clusters :: trapParts) { s with ns := max s.ns s.tickNs, beatNs := s.tickNs }
      (stateAfter s (exec .heartbeatTick s)) := by
    refine Only.foldl (fun t e ht => ?_) (State.credit_only (.refl ..) (by decide))
    split
    · split
      · exact State.settleQuorum_only ht (by decide)
      · exact ht
    · exact ht
  exact ⟨h.ns (by decide), h.beatNs (by decide)⟩

/-! ## Queue-stalled blocks -/

section
variable (hb : s.block? blk = some b)
include hb

theorem execQueueStalled_reports (hl : s.launch? b.launch = some la) (hq : s.queueStalled blk b = true) (hc : 2 ^ 16 ≤ s.stallCount b)
    (hr : b.qreported = false) :
    execQueueStalled blk s = .next ((s.setBlock blk { b with qreported := true }).emit la.fe la.lid Cause.queueStalled .core b.core
      (bytesOf 4 b.index ++ bytesOf 1 b.slot ++ bytesOf 1 (s.queueMask blk))) := by
  have hla : s.launchOf blk = some la := by rw [State.launchOf, hb, Option.bind_some, hl]
  simp only [execQueueStalled, hb, hla, hq, hr, decide_eq_true hc, Bool.and_self, Bool.not_false, if_true]

theorem execQueueStalled_early (hc : s.stallCount b < 2 ^ 16) : execQueueStalled blk s = .next s := by
  have hc : decide (2 ^ 16 ≤ s.stallCount b) = false := decide_eq_false (by omega)
  unfold execQueueStalled
  split
  · next c _ hc' _ =>
    obtain rfl : b = c := by rw [hb] at hc'; exact Option.some.inj hc'
    simp only [hc, Bool.and_false, Bool.false_and, Bool.false_eq_true, if_false]
  · rfl

theorem execQueueDeadlock_early (hc : s.stallCount b < 2 ^ 20) : execQueueDeadlock blk s = .next s := by
  have hc : decide (2 ^ 20 ≤ s.stallCount b) = false := decide_eq_false (by omega)
  simp only [execQueueDeadlock, hb, hc, Bool.and_false, Bool.false_eq_true, if_false]

/-- The device's one strand, which waits at a queue, enters its handler with the threads of its wait; that the counts of queue-stalled cycles are kept
afterwards changes no strand. -/
theorem execQueueDeadlock_traps {sid q : Nat} {push : Bool} {act : Word} (hq : s.queueStalled blk b = true) (hc : 2 ^ 20 ≤ s.stallCount b)
    (hs : s.strands = [(⟨blk, sid⟩, k)]) (hw : k.wait = .queue q push act) (hp : k.ph = false) (hv : k.pvec ≠ 0) (hsh : b.shadow = false) :
    ∃ t, execQueueDeadlock blk s = .next t ∧ t.strand? ⟨blk, sid⟩ = some (k.trapped (s.clock b.core)
      { cause := Cause.queueDeadlock, mask := act, resume := k.pc, fpc := k.pc, region := k.region }) := by
  have hk : s.strand? ⟨blk, sid⟩ = some k := by simp [State.strand?, hs, Table.get?]
  have hof : s.strandsOf blk = [(⟨blk, sid⟩, k)] := by simp [State.strandsOf, hs]
  refine ⟨(s.trapWaiting ⟨blk, sid⟩ Cause.queueDeadlock act).noteStalls b.core (some blk), ?_, ?_⟩
  · simp only [execQueueDeadlock, hb, hq, hof, hw, decide_eq_true hc, Bool.and_self, if_true, List.foldl_cons, List.foldl_nil]
  · simp only [State.trapWaiting, hk]
    exact State.strand?_enterPriv hk hb hsh hp hv

end

/-- Settles O42: the tick by its instant, and the events of queues by the count of queue-stalled cycles. -/
theorem heartbeatAndQueues : Obligations.HeartbeatAndQueues := by
  intro s blk b la
  refine ⟨?_, fun hb hl hq => ⟨fun hc hr => execQueueStalled_reports hb hl hq hc hr, ?_, fun hc => ?_⟩⟩
  · obtain ⟨t, ht, hns, hbeat⟩ := heartbeatTick_clocks s
    rw [← hbeat] at hns
    exact ⟨t, ht, by omega, by omega, fun h => hbeat ▸ State.tickNs_aligned h⟩
  · intro k sid q push act hc hs hw hp hv hsh
    obtain ⟨t, ht, hk⟩ := execQueueDeadlock_traps hb hq hc hs hw hp hv hsh
    exact ⟨t, _, ht, hk, rfl, rfl, rfl, rfl, Report.pcause_plain rfl rfl rfl rfl⟩
  · exact ⟨execQueueStalled_early hb hc, execQueueDeadlock_early hb (by omega)⟩

/-! ## Reset -/

theorem State.fe_reset (f : Nat) : State.reset.fe f = {} := rfl

theorem State.core_reset (c : Nat) : State.reset.core c = {} := rfl

theorem Core.record_empty (n : Nat) : ({} : Core).record n = {} := rfl

/-- Settles O57: every table of the reset state is empty, so that a front end, a core and a record are read as their defaults. -/
theorem resetLeaves : Obligations.ResetLeaves := by
  refine ⟨rfl, rfl, rfl, rfl, rfl, rfl, rfl, rfl, fun f => ?_, fun c => ?_, rfl, rfl, rfl, rfl, rfl, Cells.get_nil, rfl⟩
  · rw [State.fe_reset]
    exact ⟨rfl, rfl, rfl⟩
  · rw [State.core_reset]
    exact ⟨rfl, fun n => by rw [Core.record_empty]⟩

end Sys2Proof.Machine
end

section
/-!
SUPPORT. The course of a block (R30, R308 to R312, R357): which seat the dispatcher chooses, what a placed block and its strands are, what a verdict
and a retirement leave.
-/
namespace Sys2Proof.Machine
open Sys2Proof.Claims

variable {s : State} {la : Launch} {p : Seat} {l i n reserve blk : Nat} {b : Block} {more : Nat → Bool}

/-! ## Reading a table that an operation leaves -/

section
variable {pts : List Part} {t : State}

theorem Only.block?_eq (h : Only pts s t) (hn : .blocks ∉ pts) (blk : Nat) : t.block? blk = s.block? blk := by rw [State.block?, h.blocks hn, State.block?]
theorem Only.launch?_eq (h : Only pts s t) (hn : .launches ∉ pts) (l : Nat) : t.launch? l = s.launch? l := by rw [State.launch?, h.launches hn, State.launch?]
theorem Only.core_eq (h : Only pts s t) (hn : .cores ∉ pts) (c : Nat) : t.core c = s.core c := by rw [State.core, h.cores hn, State.core]

end

theorem State.launch?_modLaunch_self (s : State) (l : Nat) (f : Launch → Launch) : (s.modLaunch l f).launch? l = (s.launch? l).map f :=
  (Table.get?_mod ..).trans (if_pos rfl)

theorem State.block?_setBlock_self (s : State) (blk : Nat) (b : Block) : (s.setBlock blk b).block? blk = some b := Table.get?_put_self ..

/-! ## The choice among seats -/

/-- A fold that keeps one of the elements that it meets ends with an element of the list. -/
theorem foldl_pick_mem {α : Type} (better : α → α → Prop) [∀ a b, Decidable (better a b)] (x : α) (xs : List α) :
    xs.foldl (fun b y => if better b y then y else b) x ∈ x :: xs := by
  induction xs generalizing x with
  | nil => exact List.mem_singleton_self x
  | cons y ys ih =>
    rw [List.foldl_cons]
    split
    · exact List.mem_cons_of_mem _ (ih y)
    · exact List.cons_subset_cons x (List.subset_cons_self y ys) (ih x)

/-- `p` comes before `q` in the dispatcher's order (R311): more free strand slots, then the lower core. -/
def Seat.precedes (p q : Seat) : Prop := q.free < p.free ∨ (q.free = p.free ∧ p.core ≤ q.core)

/-- Of seats in ascending order of cores, a fold for the most free slots keeps the first of them. -/
theorem foldl_free_precedes (x : Seat) (xs : List Seat) (h : (x :: xs).Pairwise fun a b => a.core ≤ b.core) :
    ∀ q ∈ x :: xs, (xs.foldl (fun b y => if b.free < y.free then y else b) x).precedes q := by
  induction xs generalizing x with
  | nil => simp [Seat.precedes]
  | cons y ys ih =>
    obtain ⟨hx, hys⟩ := List.pairwise_cons.1 h
    have hxy := hx y List.mem_cons_self
    rw [List.foldl_cons]
    split
    · next hlt =>
      have hy := ih y hys
      have hy' := hy y List.mem_cons_self
      refine List.forall_mem_cons.2 ⟨?_, hy⟩
      unfold Seat.precedes at hy' ⊢
      omega
    · next hge =>
      have hxs := ih x (List.pairwise_cons.2 ⟨fun a ha => hx a (List.mem_cons_of_mem _ ha), (List.pairwise_cons.1 hys).2⟩)
      obtain ⟨hx', hrest⟩ := List.forall_mem_cons.1 hxs
      refine List.forall_mem_cons.2 ⟨hx', List.forall_mem_cons.2 ⟨?_, hrest⟩⟩
      unfold Seat.precedes at hx' ⊢
      omega

theorem bestSeat_spec {xs : List Seat} (hne : xs ≠ []) (h : xs.Pairwise fun a b => a.core ≤ b.core) :
    ∃ p ∈ xs, bestSeat xs = some p ∧ ∀ q ∈ xs, p.precedes q := by
  cases xs with
  | nil => exact absurd rfl hne
  | cons x xs => exact ⟨_, foldl_pick_mem (fun b y => b.free < y.free) x xs, rfl, foldl_free_precedes x xs h⟩

/-! ## Seats -/

theorem assignLanes_length {g : Nat} {rooms : List LaneRoom} {ls : List (Nat × Nat)} (h : assignLanes g n rooms = some ls) : ls.length = n := by
  induction n generalizing rooms ls with
  | zero => cases h; rfl
  | succ n ih =>
    unfold assignLanes at h
    split at h
    · cases h
    · dsimp only at h
      split at h
      · cases h
      · obtain ⟨ks, hks, rfl⟩ := Option.map_eq_some_iff.1 h
        rw [List.length_cons, ih hks]

theorem State.seat_spec {core : Nat} (h : s.seat la n reserve core = some p) : p.core = core ∧ p.lanes.length = n := by
  simp only [State.seat] at h
  split at h
  · cases h
  · split at h
    · cases h
    · obtain ⟨ls, hls, rfl⟩ := Option.map_eq_some_iff.1 h
      exact ⟨rfl, assignLanes_length hls⟩

/-- The seats of one cluster. -/
theorem State.clusterSeats_spec {cl : Nat}
    (h : p ∈ ((List.range 18).map (18 * cl + ·)).filterMap fun c => if more c then s.seat la n reserve c else none) :
    p.lanes.length = n ∧ 18 * cl ≤ p.core ∧ p.core < 18 * cl + 18 := by
  obtain ⟨c, hc, hp⟩ := List.mem_filterMap.1 h
  obtain ⟨j, hj, rfl⟩ := List.mem_map.1 hc
  have hj := List.mem_range.1 hj
  split at hp
  · obtain ⟨hcore, hlen⟩ := State.seat_spec hp
    exact ⟨hlen, by omega, by omega⟩
  · cases hp

theorem State.seats_lanes (h : p ∈ s.seats la i n reserve more) : p.lanes.length = n := by
  obtain ⟨cl, -, hp⟩ := List.mem_flatMap.1 h
  exact (State.clusterSeats_spec hp).1

/-- Seats are listed in ascending order of their cores. -/
theorem State.seats_ascending (s : State) (la : Launch) (i n reserve : Nat) (more : Nat → Bool) :
    (s.seats la i n reserve more).Pairwise fun a b => a.core ≤ b.core := by
  refine List.pairwise_flatMap.2 ⟨fun cl _ => ?_, ?_⟩
  · refine List.pairwise_filterMap.2 (List.pairwise_map.2 (List.pairwise_lt_range.imp fun {j j'} hlt x hx y hy => ?_))
    split at hx
    · split at hy
      · obtain ⟨hxc, -⟩ := State.seat_spec hx
        obtain ⟨hyc, -⟩ := State.seat_spec hy
        omega
      · cases hy
    · cases hx
  · refine List.Pairwise.filter _ (List.Pairwise.filter _ (List.pairwise_lt_range.imp fun {cl cl'} hlt x hx y hy => ?_))
    obtain ⟨-, -, hx⟩ := State.clusterSeats_spec hx
    obtain ⟨-, hy, -⟩ := State.clusterSeats_spec hy
    omega

/-! ## Strands at their start -/

/-- Collecting the threads of a list for which `f` holds adds their bits alone. -/
theorem getLsbD_foldl_bit (f : Nat → Bool) {t : Nat} (ht : t < 32) (ts : List Nat) (m : Word) :
    (ts.foldl (fun m t => if f t then m ||| bit t else m) m).getLsbD t = (m.getLsbD t || (decide (t ∈ ts) && f t)) := by
  induction ts generalizing m with
  | nil => simp only [List.foldl_nil, List.not_mem_nil, decide_false, Bool.false_and, Bool.or_false]
  | cons u us ih =>
    rw [List.foldl_cons, ih]
    by_cases hu : t = u
    · subst hu
      cases hf : f t <;> simp only [if_true, if_false, Bool.false_eq_true, BitVec.getLsbD_or, getLsbD_bit _ _ ht] <;> simp
    · have hu' : ¬ u = t := fun h => hu h.symm
      split <;> simp only [BitVec.getLsbD_or, getLsbD_bit _ _ ht, List.mem_cons, hu, hu', decide_false, Bool.or_false, false_or]

theorem getLsbD_maskOf (f : Nat → Bool) {t : Nat} (ht : t < 32) : (maskOf f).getLsbD t = f t := by
  rw [maskOf, getLsbD_foldl_bit f ht, decide_eq_true (List.mem_range.2 ht), Bool.true_and]
  exact congrArg (· || f t) BitVec.getLsbD_zero

theorem Strand.sPair_setSPair (k : Strand) (r : Nat) (w : Dword) : (k.setSPair r w).sPair r = w := by
  simp only [Strand.sPair, Strand.sGet, Strand.setSPair_s, Cells.get_set, if_true, if_neg (Nat.ne_of_lt (Nat.lt_succ_self r))]
  exact (BitVec.extractLsb'_append_extractLsb'_eq_extractLsb' (start₁ := 0) (len₁ := 32) rfl).trans BitVec.extractLsb'_eq_self

theorem startStrand_startsAs (la : Launch) (pvec : Dword) (index sid : Nat) (lane : Nat × Nat) :
    StartsAs (startStrand la pvec index sid lane) la pvec index sid where
  pc := rfl
  mask t ht := by
    show (~~~maskOf _ : Word).getLsbD t = true ↔ _
    rw [BitVec.getLsbD_not, getLsbD_maskOf _ ht]
    simp [ht]
  consts := Strand.sPair_setSPair ..
  scal r hr := by
    show Cells.get (Cells.set (Cells.set _ _ _) _ _) r = 0
    rw [Cells.get_set_ne _ _ (by omega), Cells.get_set_ne _ _ (by omega), Cells.get_nil]
  vec _ _ := rfl
  handle := rfl
  pvec := rfl

/-! ## Placement -/

/-- A launch that is not screened takes the best of its seats (R311), with no shadow. -/
theorem State.freshSeats_plain (hsc : la.screen = 0) (hav : la.avoid.get? i = none) (hp : bestSeat (seatsOf s la i) = some p) :
    s.freshSeats l la i = some (p, none) := by
  have hchoose : la.choose i (seatsOf s la i) = some p := by rw [Launch.choose, hav, hp]
  unfold seatsOf at hchoose
  simp only [State.freshSeats, hchoose, Launch.screened, hsc, bne_self_eq_false, Bool.false_and, Bool.false_eq_true, if_false]

/-- What putting a block on a seat leaves (R308): the block under the device's next number, and its strands at their start. -/
theorem State.putBlock_tables (s : State) (l : Nat) (la : Launch) (i : Nat) (p : Seat) (hst : la.staging.get? i = none) :
    ∃ b, (s.putBlock l la i p false).2.blocks = s.blocks.put s.uid b ∧ b.launch = l ∧ b.index = i ∧ b.core = p.core ∧ b.slot = p.slot
      ∧ b.selectable = s.ns + 32 ∧ b.pad = [] ∧ b.bars = []
      ∧ (s.putBlock l la i p false).2.strands
          = s.strands ++ p.lanes.zipIdx.map fun e => (⟨s.uid, e.2⟩, startStrand la (s.fe la.fe).pvec i e.2 e.1) := by
  have hframe : ∀ u : State, Only recordParts u ((u.count la.fe 10 1).emit la.fe la.lid Cause.blockPlace .dispatcher p.core []) := fun u =>
    State.emit_only (State.count_only (.refl ..) (by decide)) .same
  simp only [State.putBlock, State.name]
  exact ⟨_, (hframe _).blocks (by decide), rfl, rfl, rfl, rfl, rfl, by rw [hst]; rfl, rfl, (hframe _).strands (by decide)⟩

/-- Placing a block without a shadow changes, beside what putting it on its seat does, its launch alone. -/
theorem State.placeFresh_plain (h : s.freshSeats l la i = some (p, none)) :
    ∃ g, s.placeFresh l la i = some ((s.putBlock l la i p false).2.modLaunch l g) :=
  ⟨_, by rw [State.placeFresh, h]; rfl⟩

/-- The strands of a new block stand at the end of the table, by sid. -/
theorem Table.get?_append_zipIdx {α : Type} (t : Table StrandRef Strand) (ls : List α) (f : α × Nat → Strand) {blk : Nat}
    (ht : ∀ e ∈ t, e.1.blk ≠ blk) {sid n : Nat} (hs : n ≤ sid) (x : α) (hx : ls[sid - n]? = some x) :
    Table.get? (t ++ (ls.zipIdx n).map fun e => ((⟨blk, e.2⟩ : StrandRef), f e)) ⟨blk, sid⟩ = some (f (x, sid)) := by
  induction t with
  | cons e t ih =>
    obtain ⟨he, ht⟩ := List.forall_mem_cons.1 ht
    have hne : e.1 ≠ ⟨blk, sid⟩ := fun h => he (by rw [h])
    rw [List.cons_append, Table.get?, if_neg hne]
    exact ih ht
  | nil =>
    rw [List.nil_append]
    induction ls generalizing n with
    | nil => simp at hx
    | cons y ys ih =>
      rw [List.zipIdx_cons, List.map_cons, Table.get?]
      rcases Nat.eq_or_lt_of_le hs with rfl | hlt
      · simp at hx
        simp [hx]
      · have hne : (⟨blk, n⟩ : StrandRef) ≠ ⟨blk, sid⟩ := fun h => by injection h; omega
        rw [if_neg hne]
        exact ih hlt (by rwa [show sid - n = (sid - (n + 1)) + 1 by omega, List.getElem?_cons_succ] at hx)

/-- A placement leaves the new block and its strands as its seat has them (R308 to R311). -/
theorem execBlockPlace_plain {fe : Nat} (hmay : s.mayPlace fe = true) (hdec : s.decide fe = some (.fresh l i)) (hla : s.launch? l = some la)
    (hfe : la.fe = fe) (hst : la.staging.get? i = none) (hseats : s.freshSeats l la i = some (p, none)) (hlen : p.lanes.length = la.strandsIn i)
    (hnew : ∀ e ∈ s.strands, e.1.blk ≠ s.uid) :
    ∃ t b, exec (.blockPlace fe) s = .next t ∧ t.block? s.uid = some b ∧ b.launch = l ∧ b.index = i ∧ b.core = p.core ∧ b.slot = p.slot
      ∧ b.selectable = s.ns + 32 ∧ b.pad = [] ∧ b.bars = [] ∧ (t.fe fe).placeAt = s.ns + 4
      ∧ ∀ sid < la.strandsIn i, ∃ k, t.strand? ⟨s.uid, sid⟩ = some k ∧ StartsAs k la (s.fe fe).pvec i sid := by
  obtain ⟨g, hg⟩ := State.placeFresh_plain hseats
  obtain ⟨b, hblocks, hl, hi, hcore, hslot, hsel, hpad, hbars, hstrands⟩ := s.putBlock_tables l la i p hst
  have hns : ((s.putBlock l la i p false).2.modLaunch l g).ns = s.ns := (State.placeFresh_only (.refl _ s) .same hg).ns (by decide)
  refine ⟨((s.putBlock l la i p false).2.modLaunch l g).placedOne fe, b, ?_, ?_, hl, hi, hcore, hslot, hsel, hpad, hbars, ?_, fun sid hsid => ?_⟩
  · show execBlockPlace fe s = _
    simp only [execBlockPlace, hmay, hdec, hla, Option.bind_some, hg, if_true]
  · rw [State.block?, State.placedOne, State.modFe_blocks, State.modLaunch_blocks, hblocks, Table.get?_put_self]
  · rw [State.placedOne, State.modFe, State.fe_setFe, if_pos rfl, hns]
  · have hx : p.lanes[sid - 0]? = some p.lanes[sid] := List.getElem?_eq_getElem (hlen ▸ hsid)
    subst hfe
    refine ⟨startStrand la (s.fe la.fe).pvec i sid p.lanes[sid], ?_, startStrand_startsAs ..⟩
    rw [State.strand?, State.placedOne, State.modFe_strands, State.modLaunch_strands, hstrands]
    exact Table.get?_append_zipIdx _ _ (fun e => startStrand la (s.fe la.fe).pvec i e.2 e.1) hnew (Nat.zero_le sid) _ hx

theorem execBlockPlace_early {fe : Nat} (h : s.ns < (s.fe fe).placeAt) : exec (.blockPlace fe) s = .next s := by
  have hmay : s.mayPlace fe = false := by rw [State.mayPlace, decide_eq_false (Nat.not_le.2 h), Bool.and_false, Bool.false_and]
  show execBlockPlace fe s = _
  rw [execBlockPlace, hmay, if_neg Bool.false_ne_true]

/-! ## Verdicts -/

theorem State.verdict_unscreened (hb : s.block? blk = some b) (hw : b.screenWith = none) : s.verdict blk = s := by
  simp only [State.verdict, hb, hw]

/-- A block on which the verdict has been given is screened with none. -/
def Block.judged (b : Block) : Block := { b with screenWith := none, partner := none }

/-- The verdict on a screened block (R357): it is recorded, and a mismatch stands in its launch's status. -/
theorem State.verdict_eq {w : List (Word × Word)} (hb : s.block? blk = some b) (hw : b.screenWith = some w) :
    ∃ fe lid code, s.verdict blk = State.emit (if w = s.screenOf blk then s.setBlock blk b.judged
      else (s.setBlock blk b.judged).modLaunch b.launch fun l => { l with status := 0x85 }) fe lid code .core b.core [] := by
  simp only [State.verdict, hb, hw]
  by_cases h : w = s.screenOf blk
  · rw [if_pos h]
    exact ⟨_, _, _, if_pos (beq_iff_eq.2 h)⟩
  · rw [if_neg h]
    exact ⟨_, _, _, if_neg (mt beq_iff_eq.1 h)⟩

theorem State.verdict_screened {w : List (Word × Word)} (hb : s.block? blk = some b) (hw : b.screenWith = some w)
    (hla : s.launch? b.launch = some la) : (s.verdict blk).block? blk = some b.judged
      ∧ ((s.verdict blk).launch? b.launch).map Launch.status = some (if w = s.screenOf blk then la.status else 0x85) := by
  obtain ⟨fe, lid, code, heq⟩ := State.verdict_eq hb hw
  have hframe := heq ▸ State.emit_only (.refl recordParts _) .same
  rw [hframe.block?_eq (by decide), hframe.launch?_eq (by decide)]
  split
  · exact ⟨State.block?_setBlock_self .., by rw [State.launch?, State.setBlock_launches, ← State.launch?, hla]; rfl⟩
  · refine ⟨State.block?_setBlock_self .., ?_⟩
    rw [State.launch?_modLaunch_self, State.launch?, State.setBlock_launches, ← State.launch?, hla]
    rfl

/-! ## Retirement -/

/-- Changing the records of a table in place. -/
theorem Table.get?_map {κ α : Type} [DecidableEq κ] (t : Table κ α) (g : κ × α → κ × α) (hg : ∀ e, (g e).1 = e.1) (k : κ) :
    Table.get? (t.map g) k = (Table.get? t k).map fun x => (g (k, x)).2 := by
  induction t with
  | nil => rfl
  | cons e t ih =>
    obtain ⟨a, x⟩ := e
    rw [List.map_cons, Table.get?, hg, Table.get?, ih]
    by_cases h : a = k
    · subst h; rw [if_pos rfl, if_pos rfl, Option.map_some]
    · rw [if_neg h, if_neg h]

/-- In `t` the launch of a number is `la`, but for where its pads are. -/
def State.holds (t : State) (l : Nat) (la : Launch) : Prop := ∃ ps, t.launch? l = some { la with padsAt := ps }

theorem Only.holds {pts : List Part} {t : State} (h : Only pts s t) (hn : .launches ∉ pts) (hs : s.holds l la) : t.holds l la := by
  obtain ⟨ps, hps⟩ := hs
  exact ⟨ps, (h.launch?_eq hn l).trans hps⟩

theorem State.respread_holds {fe : Nat} {t : State} (ht : t.holds l la) : (t.respread fe).holds l la := by
  obtain ⟨ps, hps⟩ := ht
  simp only [State.holds, State.launch?, State.respread]
  rw [Table.get?_map _ _ (fun e => by split <;> rfl), show Table.get? t.launches l = _ from hps, Option.map_some]
  split
  · exact ⟨_, rfl⟩
  · exact ⟨_, rfl⟩

theorem State.putRecord_holds {fe : Nat} {r : PartRec} {t : State} (ht : t.holds l la) : (t.putRecord fe r).holds l la := by
  have hbefore : ((t.credit).modFe fe fun f => f.setRecord r).holds l la :=
    (State.modFe_only (State.credit_only (.refl [.clusters, .fes] t) .same) (by decide)).holds (by decide) ht
  exact (State.readmit_only (.refl recordParts _) .same).holds (by decide) (State.respread_holds hbefore)

/-- What waits for a partition's blocks changes of a launch at most where its pads are (R324, R344, R370). -/
theorem State.settle_holds {fe : Nat} (hla : s.launch? l = some la) : (s.settle fe).holds l la := by
  have hs : s.holds l la := ⟨la.padsAt, hla⟩
  have hsuspended : (match (s.fe fe).suspending with
      | some (n, c) => (s.emit fe 0 Cause.suspended .frontEnd fe []).endCmd fe n c 0
      | none => s).holds l la := by
    split
    · exact (State.endCmd_only (State.emit_only (.refl recordParts s) .same) .same).holds (by decide) hs
    · exact hs
  have hrecorded : ∀ t : State, t.holds l la → (match (s.fe fe).nextRec with | some r => t.putRecord fe r | none => t).holds l la := by
    intro t ht
    split
    · exact State.putRecord_holds ht
    · exact ht
  unfold State.settle
  dsimp only
  split
  · exact hs
  · split
    · exact (State.modFe_only (State.emit_only (State.credit_only (.refl (.clusters :: recordParts) _) (by decide)) (by decide)) (by decide)).holds
        (by decide) (hrecorded _ hsuspended)
    · exact hrecorded _ hsuspended

/-- What a launch counts of a block that retires. -/
def Block.countedIn (b : Block) (blk ns : Nat) (l : Launch) : Launch :=
  { l with retired := l.retired + 1, residSum := l.residSum + b.resided + (ns - b.placed), gone := blk :: l.gone }

/-- The state that a block has left, before its retirement is recorded and the stalls on its core are noted. -/
def State.without (s : State) (blk : Nat) (b : Block) : State :=
  { ((s.modLaunch b.launch (b.countedIn blk s.ns)).dropStrands blk).setCore b.core ((s.core b.core).freeBlock blk) with blocks := s.blocks.drop blk }

theorem State.without_noteStalls_launches (s : State) (blk core : Nat) (b : Block) :
    ((s.without blk b).noteStalls core).launches = s.launches.mod b.launch (b.countedIn blk s.ns) := rfl

theorem State.without_noteStalls_strands (s : State) (blk core : Nat) (b : Block) :
    ((s.without blk b).noteStalls core).strands = s.strands.filter fun e => e.1.blk != blk := rfl

theorem State.without_noteStalls_cores (s : State) (blk core : Nat) (b : Block) :
    ((s.without blk b).noteStalls core).cores = s.cores.put b.core ((s.core b.core).freeBlock blk) := rfl

theorem State.without_blocks (s : State) (blk : Nat) (b : Block) : (s.without blk b).blocks = s.blocks.drop blk := rfl

/-- The retirement of a block that no other is screened with (R30, R313). -/
theorem State.retire_eq (hb : s.block? blk = some b) (hp : b.partner = none) (hw : b.screenWith = none) (hsh : b.shadow = false) :
    ∃ fe lid, s.retire blk b = ((s.without blk b).noteStalls b.core).emit fe lid Cause.blockRetire .dispatcher b.core [] := by
  have hpartner : (s.block? blk).bind Block.partner = none := by rw [hb, Option.bind_some, hp]
  simp only [State.retire, State.verdict_unscreened hb hw, hpartner, hsh, Bool.false_eq_true, if_false]
  exact ⟨_, _, rfl⟩

theorem State.block?_noteStalls_none {core : Nat} (h : s.block? blk = none) : (s.noteStalls core).block? blk = none := by
  simp only [State.block?, State.noteStalls]
  rw [Table.get?_map _ _ (fun e => by split; rfl; split; rfl; split <;> rfl), show Table.get? s.blocks blk = none from h]
  rfl

theorem State.retire_leaves (hb : s.block? blk = some b) (hla : s.launch? b.launch = some la) (hp : b.partner = none) (hw : b.screenWith = none)
    (hsh : b.shadow = false) :
    (s.retire blk b).block? blk = none ∧ (∀ e ∈ (s.retire blk b).strands, e.1.blk ≠ blk)
      ∧ (s.retire blk b).launch? b.launch = some (b.countedIn blk s.ns la)
      ∧ (s.retire blk b).core b.core = (s.core b.core).freeBlock blk := by
  obtain ⟨fe, lid, heq⟩ := State.retire_eq hb hp hw hsh
  have hframe : Only recordParts ((s.without blk b).noteStalls b.core) (s.retire blk b) := heq ▸ State.emit_only (.refl ..) .same
  rw [hframe.block?_eq (by decide), hframe.strands (by decide), hframe.launch?_eq (by decide), hframe.core_eq (by decide),
    State.without_noteStalls_strands, State.launch?, State.without_noteStalls_launches, State.core, State.without_noteStalls_cores]
  refine ⟨State.block?_noteStalls_none ?_, fun e he => ?_, ?_, ?_⟩
  · rw [State.block?, State.without_blocks, Table.get?_drop, if_pos rfl]
  · simpa using (List.mem_filter.1 he).2
  · rw [Table.get?_mod, if_pos rfl, ← State.launch?, hla, Option.map_some]
  · rw [Table.getD_put, if_pos rfl]

theorem Core.freeBlock_array {c : Core} {a : MatrixArray} (ha : c.array = some a) (ho : a.owner = blk) : (c.freeBlock blk).array = none := by
  simp [Core.freeBlock, ha, ho]

/-- The retirement of an ended block that has nothing left to commit. -/
theorem execBlockRetire_leaves (hb : s.block? blk = some b) (hend : s.ended blk b = true) (hbuf : b.buf = []) (hcom : b.committing = none) :
    exec (.blockRetire blk) s = .next ((s.retire blk b).settle (((s.launch? b.launch).map Launch.fe).getD 0)) := by
  show execBlockRetire blk s = _
  simp only [execBlockRetire, hb, hend, hbuf, hcom, List.isEmpty_nil, Bool.not_true, Bool.false_eq_true, if_false, if_true, Option.isSome_none]

/-- Settles O50: the fold of R311 ends with the first of the best seats, and each event of a block is read off its operation. -/
theorem blockEvents : Obligations.BlockEvents := by
  intro s
  refine ⟨?_, fun fe h => execBlockPlace_early h, fun blk b hb => ?_, fun blk b la hb hla => ⟨?_, fun hend => ⟨?_, ?_⟩, fun w hend hw => ?_⟩⟩
  · intro fe l i la hmay hdec hla hfe hsc hav hst hne hnew
    obtain ⟨p, hp, hbest, hprec⟩ := bestSeat_spec hne (State.seats_ascending ..)
    obtain ⟨t, b, hplace⟩ := execBlockPlace_plain hmay hdec hla hfe hst (State.freshSeats_plain hsc hav hbest) (State.seats_lanes hp) hnew
    exact ⟨p, t, b, hp, hprec, hplace⟩
  · show execStrandSelectable blk s = _
    rw [execStrandSelectable, hb]
  · intro hend hbuf hcom hpart hw hsh
    have hex := execBlockRetire_leaves hb hend hbuf hcom
    generalize ((s.launch? b.launch).map Launch.fe).getD 0 = fe at hex
    obtain ⟨hblk, hstr, hlaunch, hcore⟩ := State.retire_leaves hb hla hpart hw hsh
    have hframe := State.settle_only (fe := fe) (.refl _ (s.retire blk b)) .same
    obtain ⟨ps, hps⟩ := State.settle_holds (fe := fe) hlaunch
    refine ⟨_, _, hex, ?_, ?_, hps, rfl, rfl, fun a ha ho => ?_⟩
    · rw [hframe.block?_eq (by decide), hblk]
    · rw [hframe.strands (by decide)]
      exact hstr
    · rw [hframe.core_eq (by decide), hcore, Core.freeBlock_array ha ho]
  · show execBlockRetire blk s = _
    simp only [execBlockRetire, hb, hend, Bool.not_false, if_true]
  · show execScreenVerdict blk s = _
    simp only [execScreenVerdict, hb, hend, Bool.false_eq_true, if_false]
  · refine ⟨s.verdict blk, ?_, State.verdict_screened hb hw hla⟩
    show execScreenVerdict blk s = _
    simp only [execScreenVerdict, hb, hend, if_true]

end Sys2Proof.Machine
end

section
/-!
SUPPORT. A strand's turn (log 1): what a boundary where nothing falls due leaves, how the fetched word is run, that a strand which waits is never what its
lane chooses (R315), and the turn of an event.
-/
namespace Sys2Proof.Machine
open Sys2Proof.Claims

variable {s : State} {r : StrandRef} {k : Strand} {b : Block} {la : Launch}

/-! ## The boundary -/

theorem Table.put_of_get? {κ α : Type} [DecidableEq κ] {t : Table κ α} {x : κ} {v : α} (h : Table.get? t x = some v) : Table.put t x v = t := by
  induction t with
  | nil => cases h
  | cons c t ih =>
    obtain ⟨a, y⟩ := c
    by_cases ha : a = x
    · rw [Table.get?, if_pos ha] at h
      cases h
      rw [Table.put, if_pos ha]
    · rw [Table.get?, if_neg ha] at h
      rw [Table.put, if_neg ha, ih h]

theorem State.setStrand_of_strand? (h : s.strand? r = some k) : s.setStrand r k = s := by
  rw [State.setStrand, Table.put_of_get? h]

/-- A strand that comes to its boundary without an entry and without a group at its PC stays as it is. -/
theorem Strand.arrive_quiet (h : Claims.quiet k) : k.arrive = ⟨k, none⟩ := by
  obtain ⟨hentry, hgroups⟩ := h
  have hblock : k.blockEntry = (k, none) := by simp [Strand.blockEntry, hentry]
  have hmerge : k.merge = (k, false) := by
    have hfind : (k.groups.find? fun g => g.pc == k.pc) = none := List.find?_eq_none.2 fun g hg => by simpa using hgroups g hg
    simp [Strand.merge, hfind]
  simp [Strand.arrive, hblock, hmerge]

theorem State.boundaryCause_none
    (h : k.ph = true ∨ k.stepDue = none ∧ k.faults = [] ∧ k.hostBreak = false ∧ s.timerDue b k = false) : s.boundaryCause r k b none = none := by
  rcases h with hp | ⟨hstep, hfaults, hbreak, htimer⟩
  · simp [State.boundaryCause, hp]
  · simp [State.boundaryCause, hstep, hfaults, hbreak, htimer]

/-- A boundary at which nothing falls due leaves the device as it is (R351). -/
theorem State.comeToBoundary_quiet (hk : s.strand? r = some k) (hq : Claims.quiet k) (hstop : k.stopDue = false ∨ k.ph = true)
    (hcause : k.ph = true ∨ k.stepDue = none ∧ k.faults = [] ∧ k.hostBreak = false ∧ s.timerDue b k = false) :
    s.comeToBoundary r k b = (s, k.mask != 0) := by
  have hstop : (k.stopDue && !k.ph) = false := by rcases hstop with h | h <;> simp [h]
  simp only [State.comeToBoundary, hstop, Strand.arrive_quiet hq, State.setStrand_of_strand? hk, State.boundaryCause_none hcause,
    Bool.false_eq_true, if_false]

theorem Strand.mask_of_boundary (h : k.boundary = true) : (k.mask != 0) = true := by
  simp only [Strand.boundary, Strand.able, Bool.and_eq_true] at h
  exact h.1.1.1.1.1.2

/-- An attempt comes to the strand's fetch (R23, R351). -/
theorem issueOne_of_attempts (h : Attempts (s.lapse r) r k b la) : issueOne s r = fetchRun (s.lapse r) r k b la := by
  obtain ⟨hstrand, hblock, hlaunch, hruns, hable, hquiet⟩ := h
  simp only [issueOne, hstrand, hblock, hlaunch, hruns, hable, Bool.and_self, Bool.not_true, Bool.false_eq_true, if_false]
  by_cases hb : k.boundary = true
  · obtain ⟨hq, hstop, hcause⟩ := hquiet hb
    simp only [State.comeToBoundary_quiet hstrand hq hstop hcause, Strand.mask_of_boundary hb, hb, hstrand, if_true]
  · rw [if_neg hb]

/-! ## The fetched word -/

section
variable {fe core : Nat} {pc : Dword} {p : Page} {line : List Byte}

theorem State.fetchAt_misaligned (h : pc.toNat % 8 ≠ 0) : s.fetchAt fe core pc = .fault Cause.misaligned := by
  simp [State.fetchAt, h]

theorem State.fetchAt_word (h : pc.toNat % 8 = 0) (hp : lookup (s.tlb fe) (s.fe fe) .fetch pc.toNat 8 = .page p)
    (hl : (s.core core).icache.get? (fe, lineOf pc.toNat) = some line) :
    s.fetchAt fe core pc = .word (BitVec.ofNat 64 (numOf ((line.drop (pc.toNat % 128)).take 8))) := by
  simp [State.fetchAt, h, hp, hl]

theorem State.fetchAt_miss (h : pc.toNat % 8 = 0) (hp : lookup (s.tlb fe) (s.fe fe) .fetch pc.toNat 8 = .page p)
    (hl : (s.core core).icache.get? (fe, lineOf pc.toNat) = none) : s.fetchAt fe core pc = .miss := by
  simp [State.fetchAt, h, hp, hl]

end

/-- What a strand's word that has come does (R57, R79). -/
theorem fetchRun_word {w : Dword} (h : s.fetchAt la.fe b.core k.pc = .word w) : fetchRun s r k b la = decodeRun (fetched s r) r k w := by
  rw [fetchRun, h]
  rfl

theorem fetchRun_misaligned (h : k.pc.toNat % 8 ≠ 0) : fetchRun s r k b la = .next (s.enterPriv r
    { cause := Cause.misaligned, mask := k.mask, resume := k.pc, fpc := k.pc, va := k.pc, region := k.region }) := by
  rw [fetchRun, State.fetchAt_misaligned h]
  rfl

theorem decodeRun_error {w : Dword} {d : DecodeError} (h : decode w = .error d) : decodeRun s r k w = .next (s.enterPriv r
    { cause := causeOf d, mask := k.activeIn w, resume := k.pc, fpc := k.pc, region := k.region }) := by
  rw [decodeRun, h]
  rfl

/-- A strand whose line is not in the instruction cache waits at its PC (R209, R381). -/
theorem fetchRun_miss (hk : s.strand? r = some k) (h : s.fetchAt la.fe b.core k.pc = .miss) :
    ∃ t k', fetchRun s r k b la = .next t ∧ t.strand? r = some k' ∧ k'.pc = k.pc ∧ k'.why = .fetch ∧ t.mem = s.mem := by
  refine ⟨(s.modStrand r fun k => { k with fetchHeld := .no }).stall r .fetch, { k with fetchHeld := .no, why := .fetch, parked := 0 },
    by rw [fetchRun, h], ?_, rfl, rfl, rfl⟩
  rw [State.stall, State.strand?_modStrand_self, State.strand?_modStrand_self, hk]
  rfl

/-! ## A strand's turn -/

/-- The turn of a strand whose act comes next is that act. -/
theorem step_issue {rest : List Turn} {x : Act} (ht : s.turns = .issue r :: rest) (hx : s.tock.nextAct (some r) = some x) (hr : x.r = r)
    (hs : x.sample = false) : step s = ({ s.tock with turns := rest } : State).doAct x := by
  have hcond : (x.r == r && !x.sample) = true := by simp [hr, hs]
  rw [step, ht]
  simp only [issueTurn, hx, hcond, if_true]

/-- What an act's attempt answers (R316). -/
theorem doAct_issue {x : Act} (hs : x.sample = false) : s.doAct x = match issueOne (s.reachCycle x.core x.cyc) x.r with
    | .next t => .next (tookAct s x t)
    | o => o := by
  simp only [State.doAct, hs, Bool.false_eq_true, if_false]
  rfl

theorem step_attempts {rest : List Turn} {x : Act} (ht : s.turns = .issue r :: rest) (hx : s.tock.nextAct (some r) = some x) (hr : x.r = r)
    (hs : x.sample = false) (ha : Attempts (begun s rest x) r k b la) : step s = match fetchRun (begun s rest x) r k b la with
      | .next t => .next (tookAct s x t)
      | o => o := by
  subst hr
  rw [step_issue ht hx rfl hs, doAct_issue hs, issueOne_of_attempts ha]
  rfl

/-! ## A strand that waits is not chosen -/

theorem State.act?_r {x : Act} (h : s.act? r = some x) : x.r = r := by
  simp only [State.act?] at h
  split at h
  · split at h
    · cases h; rfl
    · split at h
      · cases h; rfl
      · split at h
        · cases h
        · cases h; rfl
  · cases h

theorem mem_of_firstAct {xs : List Act} {x : Act} (h : s.firstAct xs = some x) : x ∈ xs := by
  cases xs with
  | nil => cases h
  | cons y ys =>
    cases h
    exact foldl_pick_mem (fun b y => s.before y b = true) y ys

theorem mem_of_chosen {es : List LaneStrand} {last : Nat} {x : LaneStrand} (h : chosen es last = some x) : x ∈ es := by
  cases es with
  | nil => cases h
  | cons y ys =>
    cases h
    exact foldl_pick_mem (fun b z => keysBefore (z.keys (y :: ys) last) (b.keys (y :: ys) last) = true) y ys

/-- A lane starts only a strand that has a start among what the strands do next (R315). -/
theorem State.laneAct_mem {xs : List Act} {core lane : Nat} {x : Act} (h : s.laneAct xs core lane = some x) : ∃ y ∈ xs, y.r = x.r := by
  simp only [State.laneAct] at h
  split at h
  · cases h
  · obtain ⟨z, hz, rfl⟩ := Option.map_eq_some_iff.1 h
    obtain ⟨hview, helig⟩ := List.mem_filter.1 (mem_of_chosen hz)
    simp only [State.laneView] at hview
    obtain ⟨e, he, hz⟩ := List.mem_filterMap.1 hview
    obtain ⟨c, -, rfl⟩ := List.mem_map.1 he
    split at hz
    · cases hz
    · obtain ⟨l, -, rfl⟩ := Option.map_eq_some_iff.1 hz
      obtain ⟨t, ht, -⟩ := (Option.any_eq_true ..).1 helig
      obtain ⟨y, hy, -⟩ := Option.map_eq_some_iff.1 ht
      have hyr := List.find?_some hy
      exact ⟨y, List.mem_of_find?_eq_some hy, by simpa using (Bool.and_eq_true_iff.1 hyr).1⟩

/-- Whatever happens next is a sample or the act of a strand that has one. -/
theorem State.acts_spec {x : Act} (h : x ∈ s.acts) : x.sample = true ∨ s.act? x.r ≠ none := by
  have hact : ∀ y ∈ s.strands.filterMap fun e => s.act? e.1, s.act? y.r ≠ none := by
    intro y hy
    obtain ⟨e, -, he⟩ := List.mem_filterMap.1 hy
    rw [State.act?_r he, he]
    exact Option.some_ne_none y
  simp only [State.acts, List.mem_append] at h
  rcases h with (hlane | hother) | hsample
  · obtain ⟨c, -, hc⟩ := List.mem_filterMap.1 hlane
    obtain ⟨y, hy, hyr⟩ := State.laneAct_mem hc
    exact Or.inr (hyr ▸ hact y hy)
  · exact Or.inr (hact x (List.mem_filter.1 hother).1)
  · obtain ⟨f, -, hf⟩ := List.mem_flatMap.1 hsample
    split at hf
    · cases hf
    · obtain ⟨c, -, rfl⟩ := List.mem_map.1 hf
      exact Or.inl rfl

theorem State.nextAct_spec {q : Option StrandRef} {x : Act} (h : s.nextAct q = some x) : x.sample = true ∨ s.act? x.r ≠ none := by
  rcases List.mem_append.1 (mem_of_firstAct h) with hx | hx
  · exact State.acts_spec (List.mem_filter.1 hx).1
  · exact State.acts_spec (List.mem_filter.1 hx).1

/-- The turn of a strand that waits tries its word. -/
theorem step_issue_waiting {rest : List Turn} (ht : s.turns = .issue r :: rest) (hw : s.tock.act? r = none) :
    step s = issueOne { s.tock with turns := rest } r := by
  rw [step, ht]
  simp only [issueTurn, hw, Option.isNone_none, if_true]
  split
  · rfl
  · next x hx =>
    have hcond : ¬ (x.r == r && !x.sample) = true := by
      intro h
      simp only [Bool.and_eq_true, beq_iff_eq, Bool.not_eq_true'] at h
      obtain ⟨hr, hs⟩ := h
      rcases State.nextAct_spec hx with h | h
      · rw [hs] at h; cases h
      · exact h (hr ▸ hw)
    rw [if_neg hcond]

/-! ## The turn of an event -/

theorem State.passesTo_tock (s : State) (i : Instr) : s.tock.passesTo i = s.passesTo i := by
  cases i <;> rfl

/-- The arm of TIMER_FIRE is left out by `hi`, and the one in which a strand comes first by `hp`. -/
theorem step_event {i : Instr} {rest : List Turn} (ht : s.turns = .event i :: rest) (hf : i.form = none) (hp : s.passesTo i = none)
    (hs : samples i = false) (hi : ∀ r, i ≠ .timerFire r) : step s = exec i { s.tock with turns := rest } := by
  rw [step, ht]
  simp only [eventTurn, hf, Option.isSome_none, State.passesTo_tock, hp, Option.bind_none, hs, Bool.false_eq_true, if_false]

/-- Settles O54: the act of a turn attempts the strand's word, which comes to its fetch where no cause falls due; a strand that waits is no act. -/
theorem stepRunsTheFetchedWord : Obligations.StepRunsTheFetchedWord := by
  intro s
  refine ⟨fun r rest x k b la ht hx hr hs ha => ⟨fun p line hal hp hl => ⟨fun i hi => ?_, fun d hd => ?_⟩, fun hal => ?_⟩,
    fun r rest k b la ht hw ha p hal hp hl => ?_, fun i rest ht hf hp hs hi => step_event ht hf hp hs hi, fun r rest ht hfire => ?_⟩
  · rw [step_attempts ht hx hr hs ha, fetchRun_word (State.fetchAt_word hal hp hl), decodeRun, hi]
    dsimp only [runWord]
    cases exec i { fetched (begun s rest x) r with focus := some r } <;> rfl
  · rw [step_attempts ht hx hr hs ha, fetchRun_word (State.fetchAt_word hal hp hl), decodeRun_error hd]
    cases d <;> rfl
  · rw [step_attempts ht hx hr hs ha, fetchRun_misaligned hal]
  · rw [step_issue_waiting ht hw, issueOne_of_attempts ha]
    exact fetchRun_miss ha.strand (State.fetchAt_miss hal hp hl)
  · rw [step, ht]
    have hform : (Instr.timerFire r).form = none := rfl
    simp only [eventTurn, hform, Option.isSome_none, Bool.false_eq_true, if_false, hfire]

end Sys2Proof.Machine
end

section
/-!
SUPPORT. Every step answers a next state (R56, R79, R352): the meaning of a word is one `word`, which answers wherever a strand has the focus; every event answers;
and a strand's turn gives the focus only to a strand that resides in a block of a launch.
-/
namespace Sys2Proof.Machine

variable {s : State}

/-! ## The meanings of words and events -/

/-- The meaning of every instruction word is one `word`, of its own Spec and its own effect: its definition, and the shape that it shares with others of its
family, unfold to it. -/
theorem exec_eq_word (i : Instr) (hi : i.form.isSome) (s : State) : ∃ spec eff, exec i s = word i s spec eff := by
  cases i
  all_goals first
    | exact absurd hi Bool.false_ne_true
    | dsimp only [exec]
      delta
        execNop execIll execMovVV execMovVS execMovSV execMovSS execMovQueuePop execMovQueuePush execMovVM execMovMV execMovHandleStatus
        execMovHandleToken execMovTokenHandle execMovi execIaddi execAndi execOri execXori execIadd execIsub execImul execImad execIminmax
        execIabs execIaddw execLea execTwill execShf execBfx execBfi execPopc execClz execBrev execSel execIcmp execFcmp execFclass execRead
        execPeek execFadd execFmul execFfma execFaddi execFmuli execFscale execFminmax execFrnd execFdiv execFsqrt execFrcp execFrsq execFtr
        execTwosum execTwoprod execPkadd execPkmul execPkfma execJseed execTget execTset execJzero execJeval execFprint execCvt execQntSt
        execQntZ execPack execUnpack execLd execSt execAtom execCas execFxadd execFxrdRead execFxrdClr execQld execQst execFence execFenceSc
        execWaita execBarSet execBarMark execBarWait execBarWaitPhase execBarOwe execBarStat execBarShare execSknJoin execSknLeave execSknSync
        execQcfg execHndWait execHndTest execHndCancel execHndMove execCpl execCplFo execCps execCpm execCpq execCpx execCpr execSample
        execSampleLod execTexbBind execTexbInval execMxb execMxsw execMxsq execMma execMxd execMxdGuide execMxcClear execMxcPair execMxcUnpair
        execTdeWrite execTdeRead execTdeInval execHdlLoad execHdlPerm execBra execJmpi execCall execCtlRet execCtlExit execCtlRcv
        execCtlRegion execCtlSigchk execCtlSigrst execCtlSleep execCtlYield execCtlTmrset execCtlTmrclr execCtlTrapu execCtlUret execCtlBrk
        execCtlEvmark execMsk execSysTrap execSysTret execSysTretRr execSysRdcr execSysWrcr execSysHalt execSysHaltRelaunch execSysXread
        execSysXwrite execSysResume execSysIcinv execPWord alu perStrand handleWord immWord int2 int1 fpWord fpImm twoWord qntWord rmwWord
        fxrdWord barWord sknWord collWord sampleWord texbWord tdeWord ctl sysWord tretWord
      exact ⟨_, _, rfl⟩

/-- Every event answers a next state, whatever its operands are and whatever has become of what it names: each branch of its definition ends with one. -/
theorem exec_event_answers (i : Instr) (hi : i.form.isNone) (s : State) : ∃ t, exec i s = .next t := by
  cases i
  all_goals first
    | exact absurd hi Bool.false_ne_true
    | dsimp only [exec]
      delta
        execAccessPerformed execAsyncFaultDelivery execHostBreak execStopBlockHalt execTimerFire execRcvExpired execWaitaWakeOnWrite
        execWaitaPeriodicRead execWaitaBoundExpiry execSleepExpiry execHeartbeatTick execQueueStalled execQueueDeadlock execQuorumAnswer
        execQuorumCopyTimeout execQuorumScrub execMxswExchange execMxbComplete execMmaCommit execMxdComplete execCplFollowOnIssue
        execRecordFreedStart execCopyAccept execCopyUnitWritten execCopyComplete execCprComplete execCprTimeout execSampleResult
        execTexbComplete execTdeComplete execPacketReceive execCmdLaunch execLaunchFitStart execLaunchComplete execCmdCopy execCopyCmdComplete
        execCmdWait execCmdSignal execSignalStore execCmdMap execMapComplete execCmdStopSuspend execCmdStopTerminate execCmdStopResume
        execDrainExpiry execBlockSaved execBlockRestore execContextSwapOut execContextSwapIn execBlockPlace execStrandSelectable
        execBlockRetire execScreenVerdict execIcacheFill execDemandPageHash execObjectLoad execHostMemoryWrite execHostMemoryRead
        execMgmtPartitionWrite execMgmtPartitionDisable execMgmtPrivilegedVector execMgmtWindows execMgmtReductionGroups
        execMgmtReductionGrant execMgmtTelemetry execMgmtStatusBlock execMgmtPowerLimit execMgmtAgeingMeasure execMgmtRetire
        execAgeingPeriodicRead execPowerCapAdjust execPowerOn execEnterReducedService execEnterFullService execPortTrain execPortDown
        execPortUp execFlitCrcReplay execEthLink execWeftRetransmit execWeftAccessTimeout execPcSample execMxsqComplete execMxcClearComplete
        execDeviceFatal State.startNext
      repeat' first | exact ⟨_, rfl⟩ | split | dsimp only

/-! ## One word of one strand -/

/-- A strand that `word` can carry out a word for: it, its block and its launch are there. -/
structure Resident (s : State) (r : StrandRef) (k : Strand) (b : Block) (la : Launch) : Prop where
  strand : s.strand? r = some k
  block  : s.block? r.blk = some b
  launch : s.launch? b.launch = some la

variable {r : StrandRef} {k : Strand} {b : Block} {la : Launch}

theorem Resident.setStrand (h : Resident s r k b la) (k' : Strand) : Resident (s.setStrand r k') r k' b la :=
  ⟨State.strand?_setStrand_self .., h.block, h.launch⟩

theorem Resident.modStrand (h : Resident s r k b la) (f : Strand → Strand) : Resident (s.modStrand r f) r (f k) b la :=
  ⟨by rw [State.strand?_modStrand_self, h.strand, Option.map_some], h.block, h.launch⟩

theorem exec_answers (h : Resident s r k b la) (i : Instr) : ∃ t, exec i { s with focus := some r } = .next t := by
  by_cases hi : i.form.isSome
  · obtain ⟨spec, eff, he⟩ := exec_eq_word i hi { s with focus := some r }
    rw [he]
    exact word_answers (State.ctx?_some (s := { s with focus := some r }) rfl h.strand h.block h.launch) i spec eff
  · exact exec_event_answers i (by simpa using hi) _

theorem runWord_answers (h : Resident s r k b la) (i : Instr) : ∃ t, runWord s r i = .next t := by
  obtain ⟨t, ht⟩ := exec_answers h i
  exact ⟨_, by rw [runWord, ht]⟩

theorem decodeRun_answers (h : Resident s r k b la) (k' : Strand) (w : Dword) : ∃ t, decodeRun s r k' w = .next t := by
  unfold decodeRun
  split
  · exact runWord_answers h _
  · exact ⟨_, rfl⟩

theorem fetchRun_answers (h : Resident s r k b la) (k' : Strand) (b' : Block) (la' : Launch) : ∃ t, fetchRun s r k' b' la' = .next t := by
  unfold fetchRun
  split
  · exact decodeRun_answers (h.modStrand _) _ _
  all_goals exact ⟨_, rfl⟩

/-- Where no cause falls due at a boundary, the strand has changed in itself alone. -/
theorem State.comeToBoundary_goesOn {t : State} (h : s.comeToBoundary r k b = (t, true)) : t = s.setStrand r k.arrive.k := by
  unfold State.comeToBoundary at h
  split at h
  · cases h
  · dsimp only at h
    split at h
    · cases h
    · exact (congrArg Prod.fst h).symm

theorem issueOne_answers (s : State) (r : StrandRef) : ∃ t, issueOne s r = .next t := by
  unfold issueOne
  dsimp only
  split
  · next k b hk hb =>
    split
    · exact ⟨_, rfl⟩
    · next la hl =>
      have h : Resident (s.lapse r) r k b la := ⟨hk, hb, hl⟩
      split
      · exact ⟨_, rfl⟩
      · split
        · split
          · exact ⟨_, rfl⟩
          · next t ht =>
            obtain rfl := State.comeToBoundary_goesOn ht
            split
            · exact fetchRun_answers (h.setStrand _) _ _ _
            · exact ⟨_, rfl⟩
        · exact fetchRun_answers h _ _ _
  · exact ⟨_, rfl⟩

/-! ## Turns -/

theorem State.doAct_answers (s : State) (x : Act) : ∃ t, s.doAct x = .next t := by
  unfold State.doAct
  split
  · exact exec_event_answers (.pcSample x.core) rfl _
  · obtain ⟨t, ht⟩ := issueOne_answers (s.reachCycle x.core x.cyc) x.r
    rw [ht]
    exact ⟨_, rfl⟩

theorem issueTurn_answers (s : State) (r : StrandRef) (rest : List Turn) : ∃ t, issueTurn s r rest = .next t := by
  unfold issueTurn
  split
  · exact issueOne_answers _ _
  · split
    · exact State.doAct_answers _ _
    · split
      · exact issueOne_answers _ _
      · exact State.doAct_answers _ _

theorem eventTurn_answers (s : State) (e : Instr) (rest : List Turn) : ∃ t, eventTurn s e rest = .next t := by
  unfold eventTurn
  split
  · exact ⟨_, rfl⟩
  · next hform =>
    split
    · split
      · exact issueTurn_answers _ _ _
      · exact ⟨_, rfl⟩
    · split
      · exact State.doAct_answers _ _
      · exact exec_event_answers e (by simpa using hform) _

/-- Settles O60: a step gives the focus to a strand whose block and launch are there, and there every word answers; events always answer. -/
theorem stepAlwaysAnswers : Obligations.StepAlwaysAnswers := by
  intro s
  unfold step
  split
  · exact issueTurn_answers _ _ _
  · exact eventTurn_answers _ _ _
  · exact ⟨_, rfl⟩
  · exact ⟨_, rfl⟩

end Sys2Proof.Machine
end

section
/-!
SUPPORT. The traps of a word's register fields (R56, R60, R101): which check of its registers applies first, and that a word whose causes start with those checks
traps by it. Then the FP_INVALID trap (R87): the threads that raise IV.
-/
namespace Sys2Proof.Machine
open Sys2Proof.Fp (JOut Flags)
open Sys2Proof.Claims

variable {g : Regs} {c : Ctx} {h : Hdr} {u : Bool} {r : BitVec 7}

/-! ## The first check that applies -/

/-- The checks of R56 before the ranks of jet registers and masks pass for vector fields in range. -/
theorem Regs.checks_vec {rs js : List (BitVec 7)} {noComp noU m0 : Bool} (hv : inRange h rs c) (hu : noU = true → h.u = false) :
    ({ vec := rs, jets := js, noComp := noComp, noU := noU, m0 := m0 } : Regs).checks c h.u = [(false, Cause.uniformOperand),
      (false, Cause.regRange), (noComp || js.any (fun r => c.la.jregs ≤ r.toNat), Cause.jetRange), (m0, Cause.maskWriteM0)] := by
  have hvec : ∀ r ∈ rs, if h.u then r.toNat < 64 else r.toNat < c.la.nregs := fun r hr => hv _ (List.mem_map_of_mem hr)
  have huni : (h.u && (noU || rs.any fun r => 64 ≤ r.toNat)) = false := by
    cases hhu : h.u
    · rfl
    · have hn : noU = false := by simpa [hhu] using hu
      simpa [hn, hhu] using hvec
  have hreg : (!h.u && rs.any fun r => c.la.nregs ≤ r.toNat) = false := by
    cases hhu : h.u
    · simpa [hhu] using hvec
    · rfl
  simp [Regs.checks, huni, hreg]

theorem Regs.checks_uniformOperand (hu : u = true) (h : g.noU = true ∨ ∃ r ∈ g.vec, 64 ≤ r.toNat) (own : List (Bool × Cause)) :
    (g.checks c u ++ own).find? Prod.fst = some (true, Cause.uniformOperand) := by
  have huni : (u && (g.noU || g.vec.any fun r => 64 ≤ r.toNat)) = true := by
    rcases h with h | h
    · simp [hu, h]
    · simpa [hu] using Or.inr h
  simp [Regs.checks, huni]

theorem Regs.checks_regRange (hu : u = false) (hr : r ∈ g.vec) (h : c.la.nregs ≤ r.toNat) (own : List (Bool × Cause)) :
    (g.checks c u ++ own).find? Prod.fst = some (true, Cause.regRange) := by
  have hreg : (g.vec.any fun r => c.la.nregs ≤ r.toNat) = true := by simpa using ⟨r, hr, h⟩
  simp [Regs.checks, hu, hreg]

/-! ## A word that names registers -/

/-- The causes of a word start with the checks of its registers, and its header's guard decides which threads are active for it (R25, R56). -/
def NamesRegs (i : Instr) (h : Hdr) (g : Ctx → Regs) : Prop := ∀ s, ∃ spec eff, exec i s = word i s spec eff
  ∧ ∀ c, (∃ own, (spec c).checks = (g c).checks c h.u ++ own) ∧ ∀ k : Strand, k.activeFor (spec c).halves (spec c).g (spec c).gn = k.active h.g h.gn

theorem alu_namesRegs {i : Instr} {g : Ctx → Shape} {f : Ctx → Nat → Out} {gs : Ctx → Regs} (he : ∀ s, exec i s = alu i s h g f)
    (hg : ∀ c, (g c).regs = gs c) : NamesRegs i h gs :=
  fun s => ⟨_, _, he s, fun c => ⟨⟨(g c).own, by rw [← hg]; rfl⟩, fun _ => rfl⟩⟩

theorem perStrand_namesRegs {i : Instr} {g : Ctx → Shape} {f : Ctx → Strand → Strand} (he : ∀ s, exec i s = perStrand i s h g f) :
    NamesRegs i h fun c => (g c).regs :=
  fun s => ⟨_, _, he s, fun _ => ⟨⟨_, rfl⟩, fun _ => rfl⟩⟩

section
variable {s : State} {x : F} {i : Instr} {gs : Ctx → Regs} (hn : NamesRegs i x.h gs) (ht : Timely s c) (hact : actF x c ≠ 0)
include hn ht hact

theorem NamesRegs.traps {cause : Cause} (hc : ∀ own, ((gs c).checks c x.h.u ++ own).find? Prod.fst = some (true, cause)) :
    Traps i s c cause (actF x c) := by
  obtain ⟨spec, eff, he, hsp⟩ := hn s
  obtain ⟨⟨own, hchecks⟩, hactive⟩ := hsp c
  obtain ⟨hfocus, hlate⟩ := ht
  exact word_traps he hfocus hlate (hchecks ▸ hc own) (hactive c.k) hact

theorem NamesRegs.traps_uniformOperand (hu : x.h.u = true) (h : (gs c).noU = true ∨ ∃ r ∈ (gs c).vec, 64 ≤ r.toNat) :
    Traps i s c Cause.uniformOperand (actF x c) :=
  hn.traps ht hact (Regs.checks_uniformOperand hu h)

theorem NamesRegs.traps_regRange (hu : x.h.u = false) (hr : r ∈ (gs c).vec) (h : c.la.nregs ≤ r.toNat) : Traps i s c Cause.regRange (actF x c) :=
  hn.traps ht hact (Regs.checks_regRange hu hr h)

theorem NamesRegs.traps_jetRange {rs js : List (BitVec 7)} {noComp noU m0 : Bool}
    (hg : gs c = { vec := rs, jets := js, noComp := noComp, noU := noU, m0 := m0 }) (hv : inRange x.h rs c) (hu : x.h.u = false) (hr : r ∈ js)
    (h : c.la.jregs ≤ r.toNat) : Traps i s c Cause.jetRange (actF x c) := by
  refine hn.traps ht hact fun own => ?_
  have hjet : (js.any fun r => c.la.jregs ≤ r.toNat) = true := by simpa using ⟨r, hr, h⟩
  rw [hg, Regs.checks_vec hv fun _ => hu]
  simp [hjet]

theorem NamesRegs.traps_maskWriteM0 {rs : List (BitVec 7)} {noU : Bool} (hg : gs c = { vec := rs, noU := noU, m0 := true })
    (hv : inRange x.h rs c) (hu : noU = true → x.h.u = false) : Traps i s c Cause.maskWriteM0 (actF x c) := by
  refine hn.traps ht hact fun own => ?_
  rw [hg, Regs.checks_vec hv hu]
  rfl

end

/-! ## The words and their fields -/

/-- The vector fields that a word names are `rs`. -/
def NamesVec (i : Instr) (h : Hdr) (rs : List (BitVec 7)) : Prop := ∃ gs, NamesRegs i h gs ∧ ∀ c, (gs c).vec = rs

theorem alu_namesVec {i : Instr} {rs : List (BitVec 7)} {g : Ctx → Shape} {f : Ctx → Nat → Out} (he : ∀ s, exec i s = alu i s h g f)
    (hv : ∀ c, (g c).regs.vec = rs) : NamesVec i h rs := ⟨_, alu_namesRegs he fun _ => rfl, hv⟩

/-- The words of `fieldsOf` name the vector fields that stand with them. -/
theorem fieldsOf_namesVec (x : F) (n3 : Fin 3) (n4 : Fin 4) (n5 : Fin 5) (n8 : Fin 8) (n10 : Fin 10) (bf : Bool) (dst : BitVec 4) :
    ∀ e ∈ fieldsOf x n3 n4 n5 n8 n10 bf dst, ∀ i ∈ e.2, NamesVec i x.h e.1 := by
  simp only [fieldsOf, List.forall_mem_cons, List.not_mem_nil, false_imp_iff, implies_true, and_true]
  and_intros
  all_goals
    apply alu_namesVec
    · intro s
      dsimp only [exec]
      delta
        execIadd execIsub execImul execIminmax execIaddw execLea execShf execFadd execFmul execFscale execFdiv execFminmax execTwosum execTwoprod
        execPkadd execPkmul execPack execUnpack execImad execTwill execFfma execPkfma execMovVV execIabs execBfx execPopc execClz execBrev execFrnd
        execFsqrt execFrcp execFrsq execFtr execCvt execQntSt execQntZ execBfi execIcmp execFcmp execFclass execMovVS execMovVM int2 int1 fpWord
        twoWord qntWord
      exact rfl
    · exact fun _ => rfl

section
variable (x : F)

theorem sel_namesRegs : NamesRegs (.sel x) x.h fun _ => { vec := x.d :: x.a :: x.srcB, noU := true } :=
  alu_namesRegs (execSel.eq_def x) fun _ => rfl

theorem peek_namesRegs (fn : Fin 4) : NamesRegs (.peek fn x) x.h fun _ => { vec := x.d :: x.a :: x.srcB, noU := true } :=
  alu_namesRegs (execPeek.eq_def fn x) fun _ => rfl

theorem read_namesRegs (fn : Fin 17) (h : readPerThread fn.val = true) : ∃ gs, NamesRegs (.read fn x) x.h gs ∧ ∀ c, (gs c).noU = true :=
  ⟨_, alu_namesRegs (execRead.eq_def fn x) (fun _ => rfl), fun _ => h⟩

theorem tget_namesRegs : NamesRegs (.tget x) x.h fun c => { vec := [x.d, x.a], jets := [x.a], noComp := c.d ≤ x.modN 2 0, noU := true } :=
  alu_namesRegs (execTget.eq_def x) fun _ => rfl

theorem tset_namesRegs : NamesRegs (.tset x) x.h fun c => { vec := [x.d, x.a], jets := [x.d], noComp := c.d ≤ x.modN 2 0, noU := true } :=
  alu_namesRegs (execTset.eq_def x) fun _ => rfl

theorem jzero_namesRegs : NamesRegs (.jzero x) x.h fun _ => { vec := [x.d], jets := [x.d], noU := true } :=
  alu_namesRegs (execJzero.eq_def x) fun _ => rfl

theorem icmp_namesRegs (fn : Fin 10) : NamesRegs (.icmp fn x) x.h fun _ => { vec := x.a :: x.srcB, m0 := x.d == 0 } :=
  alu_namesRegs (execIcmp.eq_def fn x) fun _ => rfl

theorem fcmp_namesRegs (fn : Fin 8) : NamesRegs (.fcmp fn x) x.h fun _ => { vec := x.a :: x.srcB, m0 := x.d == 0 } :=
  alu_namesRegs (execFcmp.eq_def fn x) fun _ => rfl

theorem fclass_namesRegs : NamesRegs (.fclass x) x.h fun _ => { vec := [x.a], m0 := x.d == 0 } :=
  alu_namesRegs (execFclass.eq_def x) fun _ => rfl

theorem movMV_namesRegs : NamesRegs (.movMV x) x.h fun _ => { vec := [x.a], noU := true, m0 := x.d == 0 } :=
  alu_namesRegs (execMovMV.eq_def x) fun _ => rfl

/-- The Spec of MSK differs under U = 1 in its results alone (R306). -/
theorem msk_namesRegs (fn : Fin 8) : NamesRegs (.msk fn x) x.h fun _ => { m0 := x.d == 0 } := by
  refine fun s => ⟨_, _, execMsk.eq_def fn x s, fun c => ?_⟩
  dsimp only
  split
  · exact ⟨⟨[], rfl⟩, fun _ => rfl⟩
  · exact ⟨⟨[], rfl⟩, fun _ => rfl⟩

/-- The words of `perThreadOnly` are not allowed under U = 1. -/
theorem perThreadOnly_namesRegs (n4 : Fin 4) : ∀ i ∈ perThreadOnly x n4, ∃ gs, NamesRegs i x.h gs ∧ ∀ c, (gs c).noU = true := by
  simp only [perThreadOnly, List.forall_mem_cons, List.not_mem_nil, false_imp_iff, implies_true, and_true]
  exact ⟨⟨_, sel_namesRegs x, fun _ => rfl⟩, ⟨_, peek_namesRegs x n4, fun _ => rfl⟩,
    ⟨_, perStrand_namesRegs (execMovSV.eq_def x), fun _ => rfl⟩, ⟨_, movMV_namesRegs x, fun _ => rfl⟩,
    read_namesRegs x 0 rfl, read_namesRegs x 1 rfl, read_namesRegs x 3 rfl, read_namesRegs x 14 rfl, read_namesRegs x 15 rfl,
    ⟨_, alu_namesRegs (execJseed.eq_def x) fun _ => rfl, fun _ => rfl⟩, ⟨_, tget_namesRegs x, fun _ => rfl⟩,
    ⟨_, tset_namesRegs x, fun _ => rfl⟩, ⟨_, jzero_namesRegs x, fun _ => rfl⟩,
    ⟨_, alu_namesRegs (execJeval.eq_def x) fun _ => rfl, fun _ => rfl⟩, ⟨_, alu_namesRegs (execFprint.eq_def x) fun _ => rfl, fun _ => rfl⟩⟩

end

/-- The checks of registers in the order of R56, each where those before it pass. -/
theorem rangeTraps : RangeTraps := by
  intro x s c ht hact
  refine ⟨?fields, ?perThread, ?selPeek, ?jets, ?compares, ?classes, ?masks⟩
  case fields =>
    intro n3 n4 n5 n8 n10 bf dst e he r hr i hi
    obtain ⟨gs, hn, hvec⟩ := fieldsOf_namesVec x n3 n4 n5 n8 n10 bf dst e he i hi
    rw [← hvec c] at hr
    exact ⟨fun hu h => hn.traps_uniformOperand ht hact hu (.inr ⟨r, hr, h⟩), fun hu h => hn.traps_regRange ht hact hu hr h⟩
  case perThread =>
    intro hu n4 i hi
    obtain ⟨gs, hn, hnoU⟩ := perThreadOnly_namesRegs x n4 i hi
    exact hn.traps_uniformOperand ht hact hu (.inl (hnoU c))
  case selPeek =>
    intro hu r hr h n4
    exact ⟨(sel_namesRegs x).traps_regRange ht hact hu hr h, (peek_namesRegs x n4).traps_regRange ht hact hu hr h⟩
  case jets =>
    intro hu hv
    have hd : inRange x.h [x.d] c := fun n hn => hv n (by simp_all [nums])
    exact ⟨fun h => (tget_namesRegs x).traps_jetRange ht hact rfl hv hu (List.mem_singleton_self _) h,
      fun h => ⟨(tset_namesRegs x).traps_jetRange ht hact rfl hv hu (List.mem_singleton_self _) h,
        (jzero_namesRegs x).traps_jetRange ht hact (noComp := false) (m0 := false) rfl hd hu (List.mem_singleton_self _) h⟩⟩
  case compares =>
    intro hv hd n8 n10
    exact ⟨(icmp_namesRegs x n10).traps_maskWriteM0 ht hact (noU := false) (by simp [hd]) hv nofun,
      (fcmp_namesRegs x n8).traps_maskWriteM0 ht hact (noU := false) (by simp [hd]) hv nofun⟩
  case classes =>
    intro hv hd
    exact ⟨(fclass_namesRegs x).traps_maskWriteM0 ht hact (noU := false) (by simp [hd]) hv nofun,
      fun hu => (movMV_namesRegs x).traps_maskWriteM0 ht hact (noU := true) (by simp [hd]) hv fun _ => hu⟩
  case masks =>
    intro hd n8
    exact (msk_namesRegs x n8).traps_maskWriteM0 ht hact (rs := []) (noU := false) (by simp [hd]) nofun nofun

/-! ## FP_INVALID -/

/-- The threads of an FP_INVALID trap (R87): those that raise IV, under U = 1 every active one. -/
def ivThreads (u : Bool) (act : Word) (fl : Nat → Flags) : Word := if u then act else maskOf fun t => act.getLsbD t && hasIV (fl t)

theorem ivThreads_ne_zero {act : Word} {fl : Nat → Flags} (h : raisesIV u act fl) : ivThreads u act fl ≠ 0 := by
  cases u with
  | true => exact h.1
  | false =>
    obtain ⟨t, ht, hact, hiv⟩ := h
    intro hz
    have hbit : (ivThreads false act fl).getLsbD t = true := (getLsbD_maskOf _ ht).trans (by rw [hact, hiv]; rfl)
    rw [hz] at hbit
    cases BitVec.getLsbD_zero.symm.trans hbit

theorem ivMask_outs {f : Nat → Out} (h : raisesIV u c.act fun t => (f t).fl) :
    ivMask u c.act (c.outs u f) = ivThreads u c.act fun t => (f t).fl := by
  cases u with
  | true =>
    obtain ⟨hact, hiv⟩ := h
    have houts : c.outs true f = [(0, f 0)] := by simp only [Ctx.outs, Ctx.lanes, if_true, if_neg hact, List.map_cons, List.map_nil]
    simp only [ivMask, houts, List.any_cons, hiv, Bool.true_or, if_true, ivThreads]
  | false =>
    refine BitVec.eq_of_getLsbD_eq fun t ht => ?_
    have hbits := getLsbD_foldl_bit (fun t => hasIV (f t).fl) ht (threadsOf c.act) 0
    simp only [ivMask, Ctx.outs, Ctx.lanes, ivThreads, Bool.false_eq_true, if_false, List.foldl_map, getLsbD_maskOf _ ht]
    simpa [mem_threadsOf, ht] using hbits

theorem deliver_invalid {f : Nat → Out} (hivt : c.k.ivt = true) (h : raisesIV u c.act fun t => (f t).fl) :
    c.deliver u (c.outs u f) = .trap Cause.fpInvalid (ivThreads u c.act fun t => (f t).fl) 0 0 := by
  simp only [Ctx.deliver, ivMask_outs h, hivt, Bool.true_and]
  exact if_pos (bne_iff_ne.2 (ivThreads_ne_zero h))

/-- The registers that a computing word reads, its guard before them. -/
theorem Shape.full_reads (g : Shape) (h : Hdr) (c : Ctx) :
    (g.spec h c).full.reads = Hdr.guard h ++ (g.src.map (fun r => locOf h.u r.toNat) ++ g.reads) := by
  show (g.spec h c).guards ++ _ = _
  rw [Spec.guards_ofHdr _ rfl]
  rfl

/-- A computing word whose results do not depend on its start traps FP_INVALID where its registers are in range, with no effect. -/
theorem alu_invalid {i : Instr} {x : F} {srcs : List (BitVec 7)} {lat : Option Nat} {slots : Ctx → Nat} {f : Ctx → Nat → Out}
    (he : ∀ s, exec i s = alu i s x.h (fun c => shapeOf x.d srcs lat (slots c)) f)
    (hf : ∀ (c : Ctx) act start, f (c.seen act start) = f (c.seen act 0)) {s : State}
    (hr : ReadyF x s c (regs x.h srcs) [locOf x.h.u x.d.toNat]) (hin : inRange x.h (x.d :: srcs) c) (hivt : c.k.ivt = true)
    (hiv : raisesIV x.h.u (actF x c) fun t => (f (c.seen (actF x c) 0) t).fl) :
    Traps i s c Cause.fpInvalid (ivThreads x.h.u (actF x c) fun t => (f (c.seen (actF x c) 0) t).fl) := by
  refine word_effectTraps (he s) (act := actF x c) ?ready ?checks nofun rfl fun start => ?deliver
  case ready =>
    rw [Shape.full_reads]
    exact hr.mono (by simp [shapeOf, regs, vecLocs, nums]) (by simp [Shape.spec, shapeOf])
  case checks =>
    show (Regs.checks { vec := x.d :: srcs } c x.h.u ++ []).find? Prod.fst = none
    rw [Regs.checks_vec (noU := false) hin nofun]
    rfl
  case deliver =>
    rw [← hf c _ start] at hiv ⊢
    exact deliver_invalid (c := c.seen (actF x c) start) hivt hiv

theorem fpWord_invalid {i : Instr} {x : F} {srcs : List (BitVec 7)} {lat : Option Nat} {slots : Nat → Nat} {f : Ctx → Nat → JOut}
    (he : ∀ s, exec i s = fpWord i x srcs lat slots f s) (hf : ∀ (c : Ctx) act start, f (c.seen act start) = f (c.seen act 0)) (s : State)
    (c : Ctx) (hr : ReadyF x s c (regs x.h srcs) [locOf x.h.u x.d.toNat]) (hin : inRange x.h (x.d :: srcs) c) (hivt : c.k.ivt = true)
    (hiv : raisesIV x.h.u (actF x c) fun t => (f (c.seen (actF x c) 0) t).fl) :
    Traps i s c Cause.fpInvalid (ivThreads x.h.u (actF x c) fun t => (f (c.seen (actF x c) 0) t).fl) :=
  alu_invalid (f := fun c t => .jet x.d (f c t)) he (fun c act start => by rw [hf]) hr hin hivt hiv

theorem invalidTraps : InvalidTraps := by
  intro x meets
  have hadd := fpWord_invalid (i := .fadd x) (execFadd.eq_def x) fun _ _ _ => rfl
  have hmul := fpWord_invalid (i := .fmul x) (execFmul.eq_def x) fun _ _ _ => rfl
  have hdiv := fpWord_invalid (i := .fdiv x) (execFdiv.eq_def x) fun _ _ _ => rfl
  have hsqrt := fpWord_invalid (i := .fsqrt x) (execFsqrt.eq_def x) fun _ _ _ => rfl
  exact ⟨hadd, hmul, hdiv, hsqrt⟩

/-- Settles O10: the first check of R56 that applies traps before the word has an effect, and the delivery of results traps FP_INVALID. -/
theorem operandTraps : Obligations.OperandTraps := ⟨invalidTraps, rangeTraps⟩

end Sys2Proof.Machine
end

section
/-!
SUPPORT. The words that act for the strand alone (R52, R300, R305, R362): a word whose Spec is its header's with causes that pass completes with its effect.
-/
namespace Sys2Proof.Machine
open Sys2Proof.Claims

/-- A Spec takes the guard of a header, with the given registers read and written; `moves` and `folded` are the effect's. -/
structure Spec.Of (sp : Spec) (h : Hdr) (reads writes : List Loc) (moves folded : Bool) : Prop where
  halves : sp.halves = none
  g      : sp.g = h.g
  gn     : sp.gn = h.gn
  reads  : sp.reads = reads
  writes : sp.writes = writes
  moves  : sp.moves = moves
  folded : sp.folded = folded

variable {sp : Spec} {h : Hdr} {reads writes : List Loc} {moves folded : Bool}

theorem Spec.Of.full_reads (ho : sp.Of h reads writes moves folded) : sp.full.reads = Hdr.guard h ++ reads := by
  show sp.guards ++ sp.reads = _
  rw [Spec.guards_ofHdr sp ho.halves, ho.g, ho.reads]
  rfl

theorem Spec.Of.active (ho : sp.Of h reads writes moves folded) (k : Strand) : k.activeFor sp.halves sp.g sp.gn = k.active h.g h.gn := by
  rw [ho.halves, ho.g, ho.gn]
  rfl

/-- A word of that Spec, where its causes pass and it ends with the effect `e`, does it. -/
theorem word_does {i : Instr} {x : F} {spec : Ctx → Spec} {eff : Ctx → Verdict} {ok : Ctx → Prop} {e : Ctx → State}
    (he : ∀ s, exec i s = word i s spec eff) (ho : ∀ c, (spec c).Of x.h reads writes moves folded)
    (hc : ∀ c, ok c → (spec c).checks.find? Prod.fst = none) (hn : ∀ c, ok c → (spec c).noShadow = true → c.b.shadow = false)
    (heff : ∀ c start, c.rd = c.k → ok c → eff (c.seen (actF x c) start) = .done (e (c.seen (actF x c) start)))
    (hk : ∀ c, c.s.strand? c.r = some c.k → ((e c).strand? c.r).isSome) : Does i x reads writes ok e moves folded := by
  intro s c hr hok
  obtain ⟨-, hstrand, -, -, hs, hrd, -, -⟩ := State.ctx?_eq hr.focus
  refine word_effects (he s) ?_ (hc c hok) (hn c hok) ((ho c).active c.k) (ho c).moves (ho c).folded (fun start => heff c start hrd hok)
    fun start => hk (c.seen (actF x c) start) (hs ▸ hstrand)
  rw [(ho c).full_reads, (ho c).writes]
  exact hr

/-! ## Plain control words -/

/-- NOP (R59): it reads no register and changes nothing. -/
theorem nop_effects {s : State} {c : Ctx} (hr : Ready s c [] []) : Effects .nop s c c.k.mask Ctx.s := by
  obtain ⟨-, hstrand, -, -, hs, -, -, -⟩ := State.ctx?_eq hr.focus
  refine word_effects (execNop.eq_def s) hr rfl nofun rfl rfl rfl (fun _ => rfl) fun start => ?_
  show (c.s.strand? c.r).isSome
  rw [hs, hstrand]
  rfl

/-- A word without registers of its own has no cause from them. -/
theorem Regs.checks_empty (c : Ctx) (u : Bool) : (({} : Regs).checks c u ++ []).find? Prod.fst = none := by
  rw [List.append_nil]
  exact Regs.checks_none nofun nofun nofun nofun nofun rfl rfl nofun rfl

/-- The even pair of S registers that a word names is in range. -/
theorem Regs.checks_pair {r : BitVec 7} (h : Claims.pairOk r) (c : Ctx) (u : Bool) :
    (({ sreg := [r], even := [r] } : Regs).checks c u ++ []).find? Prod.fst = none := by
  obtain ⟨hrange, heven⟩ := h
  rw [List.append_nil]
  exact Regs.checks_none nofun nofun (by simpa using heven) (by simpa using hrange) nofun rfl rfl nofun rfl

/-- The argument of a form with S[b] or an immediate is in range. -/
theorem argShape_checks {x : F} (h : argOk x) (c : Ctx) (u : Bool) : ((argShape x).regs.checks c u ++ (argShape x).own).find? Prod.fst = none := by
  unfold argShape
  split
  · exact Regs.checks_empty c u
  · next hbi =>
    have hb : x.b.toNat < 64 := h.resolve_left hbi
    exact (congrArg _ (List.append_nil _)).trans (Regs.checks_none nofun nofun nofun (by simpa using hb) nofun rfl rfl nofun rfl)

theorem argShape_reads (x : F) (u : Bool) : (argShape x).src.map (fun r => locOf u r.toNat) ++ (argShape x).reads = argLocs x := by
  unfold argShape argLocs
  split <;> rfl

theorem argShape_writes (x : F) (u : Bool) : (argShape x).dst.map (locOf u) ++ (argShape x).writes = [] := by
  unfold argShape
  split <;> rfl

theorem Ctx.arg_eq (c : Ctx) (x : F) (h : c.rd = c.k) : c.arg x = argOf c x := by rw [Ctx.arg, argOf, h]

theorem with_isSome (c : Ctx) (k : Strand) : ((c.with k).strand? c.r).isSome := by
  rw [c.strand?_with]
  rfl

/-- An event record leaves the strands as they are. -/
theorem State.strand?_emit (s : State) (fe lid : Nat) (code : Cause) (src : Src) (unit : Nat) (pay : List Byte) (r : StrandRef) :
    (s.emit fe lid code src unit pay).strand? r = s.strand? r := by
  have hframe := State.emit_only (fe := fe) (lid := lid) (code := code) (src := src) (unit := unit) (pay := pay) (sub := 0) (.refl recordParts s) .same
  rw [State.strand?, hframe.strands (by decide)]
  rfl

section
variable (x : F)

theorem ctlSigchk_does : Does (.ctlSigchk x) x [] [] (fun _ => True) fun c => c.with { c.k with sigPend := some (sigConst x) } :=
  word_does (execCtlSigchk.eq_def x) (fun _ => ⟨rfl, rfl, rfl, rfl, rfl, rfl, rfl⟩) (fun c _ => Regs.checks_empty c x.h.u) (fun _ _ => nofun)
    (fun _ _ _ _ => rfl) fun c _ => with_isSome c _

theorem ctlSigrst_does : Does (.ctlSigrst x) x [] [] (fun _ => True) (fun c => c.with { c.k with sig := 0xFFFFFFFF, sigPend := none }) false true :=
  word_does (execCtlSigrst.eq_def x) (fun _ => ⟨rfl, rfl, rfl, rfl, rfl, rfl, rfl⟩) (fun c _ => Regs.checks_empty c x.h.u) (fun _ _ => nofun)
    (fun _ _ _ _ => rfl) fun c _ => with_isSome c _

theorem ctlTmrset_does : Does (.ctlTmrset x) x (pairLocs x.a) [] (fun _ => Claims.pairOk x.a)
    fun c => c.with { c.k with tmrcmp := c.k.sPair x.a.toNat, tmrArmed := true } :=
  word_does (execCtlTmrset.eq_def x) (fun _ => ⟨rfl, rfl, rfl, rfl, rfl, rfl, rfl⟩) (fun c h => Regs.checks_pair h c x.h.u) (fun _ _ => nofun)
    (fun c start hrd _ => by simp only [Ctx.seen, hrd]; rfl) fun c _ => with_isSome c _

theorem ctlTmrclr_does : Does (.ctlTmrclr x) x [] [] (fun _ => True) fun c => c.with { c.k with tmrArmed := false } :=
  word_does (execCtlTmrclr.eq_def x) (fun _ => ⟨rfl, rfl, rfl, rfl, rfl, rfl, rfl⟩) (fun c _ => Regs.checks_empty c x.h.u) (fun _ _ => nofun)
    (fun _ _ _ _ => rfl) fun c _ => with_isSome c _

/-- CTL.REGION goes on where no request of the region that ends is left (R305). -/
theorem ctlRegion_does : Does (.ctlRegion x) x [] [] (fun c => c.s.unperformed c.r = false ∧ ∀ e ∈ c.s.samples, e.2.strand ≠ c.r)
    fun c => c.with { c.k with region := c.k.region + 1, regionpc := c.k.pc + 8, rv := true } := by
  refine word_does (execCtlRegion.eq_def x) (fun _ => ⟨rfl, rfl, rfl, rfl, rfl, rfl, rfl⟩) (fun c _ => Regs.checks_empty c x.h.u) (fun _ _ => nofun)
    (fun c start _ h => ?_) fun c _ => with_isSome c _
  obtain ⟨hperformed, hsamples⟩ := h
  have hany : (c.s.samples.any fun e => e.2.strand == c.r) = false := List.any_eq_false.2 fun e he => by simpa using hsamples e he
  exact if_neg (by simp [Ctx.seen, hperformed, hany])

theorem ctlEvmark_does : Does (.ctlEvmark x) x (argLocs x) [] (fun c => argOk x ∧ c.b.shadow = false) fun c =>
    c.s.emit c.la.fe c.la.lid Cause.programMark .core c.b.core
      (bytesOf 8 c.k.pc.toNat ++ bytesOf 4 (argOf c x).toNat ++ bytesOf 4 c.r.sid) := by
  refine word_does (execCtlEvmark.eq_def x) (fun _ => ⟨rfl, rfl, rfl, argShape_reads x x.h.u, argShape_writes x x.h.u, rfl, rfl⟩)
    (fun c h => argShape_checks h.1 c x.h.u) (fun _ h _ => h.2) (fun c start hrd _ => ?_) fun c hk => ?_
  · rw [Ctx.arg_eq (c.seen (actF x c) start) x hrd]
  · rw [State.strand?_emit, hk]
    rfl

end

/-- Settles O12: each word ends with its effect wherever its registers are in range, and CTL.REGION once its region's requests are done. -/
theorem plainControl : Obligations.PlainControl :=
  ⟨fun _ _ hr => nop_effects hr, fun x => ⟨ctlSigchk_does x, ctlSigrst_does x, ctlTmrset_does x, ctlTmrclr_does x, ctlRegion_does x, ctlEvmark_does x⟩⟩

end Sys2Proof.Machine
end

section
/-!
SUPPORT. Returns from handlers (R52, R300, R354, R362): an event record does not depend on the strands, a word whose effect differs from the stated one in the strand's
entry and drain marks alone, and the restored state of each return word.
-/
namespace Sys2Proof.Machine
open Sys2Proof.Claims

variable {s : State} {r : StrandRef} {k : Strand}

/-! ## Event records and strands -/

theorem State.write_setStrand (pl : Place) (a : Nat) (bs : List Byte) (w : Author) (sel : Nat → Bool) :
    (s.setStrand r k).write pl a bs w sel = (s.write pl a bs w sel).setStrand r k := by
  cases pl <;> rfl

theorem State.writeVa_setStrand (fe va : Nat) (bs : List Byte) (w : Author) :
    (s.setStrand r k).writeVa fe va bs w = (s.writeVa fe va bs w).map (·.setStrand r k) := by
  have hl : lookup ((s.setStrand r k).tlb fe) ((s.setStrand r k).fe fe) .engWrite va bs.length = lookup (s.tlb fe) (s.fe fe) .engWrite va bs.length := rfl
  rw [State.writeVa, hl, State.writeVa]
  split
  · exact congrArg some (State.write_setStrand (s := { s with mem := setDirty s.mem _ }) ..)
  · rfl

theorem State.readVa_setStrand (fe va n : Nat) : (s.setStrand r k).readVa fe va n = s.readVa fe va n := rfl

theorem State.publish_setStrand (fe va : Nat) : (s.setStrand r k).publish fe va = s.publish fe va := rfl

theorem State.count_setStrand (fe i n : Nat) : (s.setStrand r k).count fe i n = (s.count fe i n).setStrand r k := rfl

theorem State.append_setStrand (fe base : Nat) (rec : List Byte) : (s.setStrand r k).append fe base rec = (s.append fe base rec).setStrand r k := by
  simp only [State.append, State.readVa_setStrand]
  split
  · rfl
  · split
    · rfl
    · split
      · have hdrop : (if rec.length = 32 then (s.setStrand r k).count fe 15 1 else s.setStrand r k) =
            (if rec.length = 32 then s.count fe 15 1 else s).setStrand r k := by split <;> rfl
        rw [hdrop, State.writeVa_setStrand]
        exact Option.getD_map ..
      · rw [State.writeVa_setStrand]
        cases s.writeVa fe _ rec {} with
        | none => rfl
        | some t =>
          simp only [Option.map_some, State.publish_setStrand, State.writeVa_setStrand]
          exact Option.getD_map ..

theorem State.emit_setStrand (fe lid : Nat) (code : Cause) (src : Src) (unit : Nat) (pay : List Byte) :
    (s.setStrand r k).emit fe lid code src unit pay = (s.emit fe lid code src unit pay).setStrand r k :=
  State.append_setStrand ..

/-! ## Effects up to the entry and drain marks -/

/-- `t` is `e` but for the entry and drain marks of the strand `r`, which a completed word sets anew (R52, R76). -/
def SameButMarks (r : StrandRef) (e t : State) : Prop :=
  ∃ u k entry drain, e = State.setStrand u r k ∧ t = State.setStrand u r { k with entry := entry, drain := drain }

theorem State.setStrand_alone (u : State) (r : StrandRef) (k k' : Strand) : Alone (u.setStrand r k) (u.setStrand r k') r where
  strands q hq := by rw [State.strand?_setStrand_ne u k (Ne.symm hq), State.strand?_setStrand_ne u k' (Ne.symm hq)]
  fes _ := rfl
  cores _ := rfl
  rest := rfl
  bytes _ := rfl
  time := Nat.le_refl _

theorem Alone.trans {s t u : State} (h : Alone s t r) (h' : Alone t u r) : Alone s u r where
  strands q hq := (h'.strands q hq).trans (h.strands q hq)
  fes f := (h'.fes f).trans (h.fes f)
  cores n := (h'.cores n).trans (h.cores n)
  rest := h'.rest.trans h.rest
  bytes a := (h'.bytes a).trans (h.bytes a)
  time := Nat.le_trans h.time h'.time

/-- What completes an effect completes one that differs from it in those marks. -/
theorem Finishes.of_sameButMarks {i : Instr} {c : Ctx} {e e' t : State} {moves folded : Bool} (hm : SameButMarks c.r e e')
    (h : Finishes i c e' t moves folded) : Finishes i c e t moves folded := by
  obtain ⟨u, k, entry, drain, rfl, rfl⟩ := hm
  obtain ⟨k0, k1, hk0, hk1, halone, hrest⟩ := h
  rw [State.strand?_setStrand_self] at hk0
  obtain rfl := Option.some.inj hk0
  exact ⟨k, k1, State.strand?_setStrand_self .., hk1, (State.setStrand_alone u c.r _ _).trans halone, hrest⟩

/-- A word whose effect is the stated one but for those marks does the stated one. -/
theorem word_does_sameButMarks {i : Instr} {x : F} {spec : Ctx → Spec} {eff : Ctx → Verdict} {reads writes : List Loc} {moves folded : Bool}
    {ok : Ctx → Prop} {e : Ctx → State} (he : ∀ s, exec i s = word i s spec eff) (ho : ∀ c, (spec c).Of x.h reads writes moves folded)
    (hc : ∀ c, ok c → (spec c).checks.find? Prod.fst = none) (hn : ∀ c, ok c → (spec c).noShadow = true → c.b.shadow = false)
    (heff : ∀ c start, ok c → ∃ e', eff (c.seen (actF x c) start) = .done e' ∧ SameButMarks c.r (e (c.seen (actF x c) start)) e') :
    Does i x reads writes ok e moves folded := by
  intro s c hr hok
  obtain ⟨e', heff⟩ := Classical.skolem.1 fun start => heff c start hok
  have hready : Ready s c (spec c).full.reads (spec c).writes := by rw [(ho c).full_reads, (ho c).writes]; exact hr
  obtain ⟨start, t, hready, hclock, hexec, hfin⟩ := word_effects (e := fun c => e' c.start) (he s) hready (hc c hok) (hn c hok) ((ho c).active c.k)
    (ho c).moves (ho c).folded (fun start => (heff start).1) fun start => by
      obtain ⟨-, u, k, entry, drain, -, ht⟩ := heff start
      show ((e' start).strand? c.r).isSome
      rw [ht, State.strand?_setStrand_self]
      rfl
  exact ⟨start, t, hready, hclock, hexec, hfin.of_sameButMarks (heff start).2⟩

/-! ## Return words -/

theorem not_crooked {pc : Dword} (h : pc.toNat % 8 = 0) : crooked pc = false := by
  have hz : pc.extractLsb' 0 3 = 0#3 := BitVec.eq_of_toNat_eq (by simpa [BitVec.extractLsb'_toNat] using h)
  simp [crooked, hz]

/-- A pending constant that the word's own fold meets is consumed (R52). -/
theorem Ctx.sigChecked_meets {c : Ctx} {i : Instr} (h : sigMeets i c) (ok : Strand → Verdict) :
    c.sigChecked i ok = ok { c.k.fold i with sigPend := none } := by
  have hbad : (c.k.fold i).sigBad = false := by
    unfold Strand.sigBad
    split
    · next w hw => simpa using h w hw
    · rfl
  simp only [Ctx.sigChecked, hbad, Bool.false_eq_true, if_false]

theorem ctlUret_does (x : F) : Does (.ctlUret x) x [] [] (fun c => c.k.uh = true ∧ c.k.uepc.toNat % 8 = 0 ∧ sigMeets (.ctlUret x) c)
    (fun c => c.with { resumed c.k c.k.usigsv c.k.usigpv with uh := false, pc := c.k.uepc }) true true := by
  refine word_does_sameButMarks (execCtlUret.eq_def x) (fun _ => ⟨rfl, rfl, rfl, rfl, rfl, rfl, rfl⟩) (fun c h => ?checks) (fun _ _ => nofun)
    fun c start h => ?effect
  case checks => simp [h.1]
  case effect =>
    obtain ⟨huh, halign, hsig⟩ := h
    refine ⟨_, ?_, c.s, { resumed c.k c.k.usigsv c.k.usigpv with uh := false, pc := c.k.uepc }, false, true, rfl, rfl⟩
    have hcrooked : crooked (c.seen (actF x c) start).k.uepc = false := not_crooked halign
    rw [hcrooked, Ctx.sigChecked_meets (c := c.seen (actF x c) start) hsig]
    rfl

/-- SYS.TRET and SYS.TRET.rr with an active thread, in the privileged handler (R362): `eff` makes the effect `e` of the strand that leaves it. -/
theorem tretWord_does {i : Instr} {x : F} {eff : Ctx → Strand → Verdict} {e : Ctx → State} (he : ∀ s, exec i s = tretWord i x eff s)
    (heff : ∀ c : Ctx, ∃ e', eff c (({ c.k.fold i with sigPend := none } : Strand).tret c.start) = .done e' ∧ SameButMarks c.r (e c) e') :
    Does i x [] [] (fun c => c.k.ph = true ∧ actF x c ≠ 0 ∧ c.k.pepc.toNat % 8 = 0 ∧ sigMeets i c) e true true := by
  refine word_does_sameButMarks he (fun _ => ⟨rfl, rfl, rfl, rfl, rfl, rfl, rfl⟩) (fun c h => ?checks) (fun _ _ => nofun) fun c start h => ?effect
  case checks => simp [h.1]
  case effect =>
    obtain ⟨hph, hact, halign, hsig⟩ := h
    obtain ⟨e', he', hm⟩ := heff (c.seen (actF x c) start)
    refine ⟨e', ?_, hm⟩
    have hcrooked : crooked (c.seen (actF x c) start).k.pepc = false := not_crooked halign
    have hact : ¬ (c.seen (actF x c) start).act = 0 := hact
    rw [if_neg hact, hcrooked, Ctx.sigChecked_meets (c := c.seen (actF x c) start) hsig]
    exact he'

/-- A return word with no active thread goes on, folded (R25, R52). -/
theorem tretWord_idle {i : Instr} {x : F} {eff : Ctx → Strand → Verdict} (he : ∀ s, exec i s = tretWord i x eff s) {s : State} {c : Ctx}
    (hr : ReadyF x s c [] []) (hph : c.k.ph = true) (hact : actF x c = 0) :
    Effects i s c 0 (fun c => c.with { c.k with pc := c.k.pc + 8, sig := foldWord c.k.sig (foldOf i) }) true true := by
  have hdoes : Does i x [] [] (fun c => c.k.ph = true ∧ actF x c = 0)
      (fun c => c.with { c.k with pc := c.k.pc + 8, sig := foldWord c.k.sig (foldOf i) }) true true :=
    word_does he (fun _ => ⟨rfl, rfl, rfl, rfl, rfl, rfl, rfl⟩) (fun c h => by simp [h.1]) (fun _ _ => nofun) (fun c start _ h => if_pos h.2)
      fun c _ => with_isSome c _
  exact hact ▸ hdoes s c hr ⟨hph, hact⟩

/-- Restoring S registers changes the S registers alone (R348): what is restored depends on none of them. -/
theorem foldl_setS {w : Strand → Nat → Word} (hw : ∀ k s i, w { k with s := s } i = w k i) (k : Strand) (l : List Nat) :
    l.foldl (fun k i => k.setS (56 + i) (w k i)) k = { k with s := l.foldl (fun s i => s.set (56 + i) (w k i)) k.s } := by
  induction l generalizing k with
  | nil => rfl
  | cons i l ih =>
    rw [List.foldl_cons, ih, Strand.setS]
    simp only [hw, List.foldl_cons]

/-- A strand that leaves its handler after the return word's fold: `left`, with the folded signature and no pending constant. -/
theorem tret_eq (c : Ctx) (i : Instr) : ({ c.k.fold i with sigPend := none } : Strand).tret c.start =
    { left c with sig := foldWord c.k.sig (foldOf i), sigPend := none, drain := true } := by
  have htret := foldl_setS (w := fun k i => k.psave.get i) (fun _ _ _ => rfl) { c.k.fold i with sigPend := none } (List.range 8)
  have hleft := foldl_setS (w := fun _ i => c.k.psave.get i) (fun _ _ _ => rfl) c.k (List.range 8)
  rw [Strand.tret, left, htret, hleft]
  rfl

theorem sysTret_does (x : F) : Does (.sysTret x) x [] []
    (fun c => c.k.ph = true ∧ actF x c ≠ 0 ∧ c.k.pepc.toNat % 8 = 0 ∧ sigMeets (.sysTret x) c)
    (fun c => c.with (resumed (left c) c.k.psigsv c.k.psigpv)) true true :=
  tretWord_does (execSysTret.eq_def x) fun c => ⟨_, rfl, c.s, resumed (left c) c.k.psigsv c.k.psigpv, false, true, rfl, by rw [tret_eq]; rfl⟩

/-- The strand that SYS.TRET.rr leaves (R354): every thread that has not exited in one group at pepc, without the restarted region's held faults. -/
def restarted (x : F) (c : Ctx) : Strand :=
  { left c with
    mask := ~~~c.k.exited, m0bad := false, groups := [], sleepers := [], asleep := 0, parked := 0, fetchHeld := .no, sigPend := none
    sig := foldWord c.k.sig (foldOf (.sysTretRr x)), faults := c.k.faults.filter fun f => f.region ≠ c.k.pregion }

/-- The device without the strand's held requests. -/
def unheld (c : Ctx) : State :=
  { c.s with
    accs := c.s.accs.filter fun e => !(e.2.strand == c.r && e.2.held == .held)
    quorums := c.s.quorums.filter fun e => !(e.2.strand == c.r && e.2.held == .held)
    samples := c.s.samples.filter fun e => !(e.2.strand == c.r && e.2.held == .held) }

/-- The state that SYS.TRET.rr leaves, its event record written. -/
def regionRestarted (x : F) (c : Ctx) : State := ((unheld c).setStrand c.r (restarted x c)).emit c.la.fe c.la.lid Cause.regionRestart .core c.b.core []

theorem sysTretRr_does (x : F) : Does (.sysTretRr x) x [] []
    (fun c => c.k.ph = true ∧ actF x c ≠ 0 ∧ c.k.pepc.toNat % 8 = 0 ∧ sigMeets (.sysTretRr x) c) (regionRestarted x) true true := by
  refine tretWord_does (execSysTretRr.eq_def x) fun c => ⟨_, rfl, (unheld c).emit c.la.fe c.la.lid Cause.regionRestart .core c.b.core [],
    restarted x c, true, true, State.emit_setStrand .., ?_⟩
  rw [← State.emit_setStrand, tret_eq]
  simp only [restarted, ne_eq, decide_not]
  rfl

/-- Settles O20: each return word's effect is the restored strand, up to marks that completing the word sets anew. -/
theorem returns : Obligations.Returns := fun x =>
  ⟨ctlUret_does x, sysTret_does x, sysTretRr_does x, fun _ _ hr hph hact =>
    ⟨tretWord_idle (i := .sysTret x) (execSysTret.eq_def x) hr hph hact, tretWord_idle (i := .sysTretRr x) (execSysTretRr.eq_def x) hr hph hact⟩⟩

end Sys2Proof.Machine
end

section
/-!
SUPPORT. Decoding read backwards (R57 to R79): the fields read from a word give the word back, and what the opcode maps give for a form has that form. With the
round trips of Laws/PerInstr.lean, decoding and encoding are exact.
-/
namespace Sys2Proof
open Laws

/-! ## The fields of a word give it back -/

/-- A bit of a word as a field of one bit. -/
theorem bit1_getLsbD {n : Nat} (w : BitVec n) (i : Nat) : bit1 (w.getLsbD i) = w.extractLsb' i 1 := by
  rw [BitVec.getLsbD_eq_extractLsb']
  rcases BitVec.eq_zero_or_eq_one (w.extractLsb' i 1) with h | h <;> rw [h] <;> rfl

theorem extract_of_bit {w : Dword} {i : Nat} (h : w.getLsbD i = false) : w.extractLsb' i 1 = 0#1 := by
  rw [← bit1_getLsbD, h]
  rfl

/-- A number read from a field is that field. -/
theorem field_toNat (w : Dword) (i n : Nat) : BitVec.ofNat n (w.extractLsb' i n).toNat = w.extractLsb' i n :=
  (BitVec.ofNat_toNat ..).trans (BitVec.setWidth_eq _)

/-- Bit 63 and OPC of a word that is no P word (R57). -/
theorem opcode_field {w : Dword} (h : w.getLsbD 63 = false) : 0#1 ++ w.extractLsb' 56 7 = w.extractLsb' 56 8 := by
  rw [← extract_of_bit h]
  exact BitVec.extractLsb'_append_extractLsb'_eq_extractLsb' rfl

section
variable {w : Dword} (h : w.getLsbD 63 = false)
include h

theorem F.toWord_ofWord : (F.ofWord w).toWord (w.extractLsb' 56 7).toNat (w.extractLsb' 12 7).toNat = w := by
  simp (disch := decide) only [F.toWord, Hdr.toBits, F.ofWord, Hdr.ofWord, bit1_getLsbD, field_toNat, opcode_field h,
    BitVec.extractLsb'_append_extractLsb'_eq_extractLsb']
  exact BitVec.extractLsb'_eq_self

theorem I.toWord_ofWord (h32 : w.getLsbD 32 = false) : (I.ofWord w).toWord (w.extractLsb' 56 7).toNat = w := by
  simp only [I.toWord, field_toNat, opcode_field h]
  simp (disch := decide) only [Hdr.toBits, I.ofWord, Hdr.ofWord, bit1_getLsbD, ← extract_of_bit h32,
    BitVec.extractLsb'_append_extractLsb'_eq_extractLsb']
  exact BitVec.extractLsb'_eq_self

theorem M.toWord_ofWord : (M.ofWord w).toWord (w.extractLsb' 56 7).toNat = w := by
  simp (disch := decide) only [M.toWord, Hdr.toBits, M.ofWord, Hdr.ofWord, bit1_getLsbD, field_toNat, opcode_field h,
    BitVec.extractLsb'_append_extractLsb'_eq_extractLsb']
  exact BitVec.extractLsb'_eq_self

theorem J.toWord_ofWord (h47 : w.extractLsb' 47 5 = 0#5) (h32 : w.extractLsb' 32 4 = 0#4) :
    (J.ofWord w).toWord (w.extractLsb' 56 7).toNat = w := by
  simp (disch := decide) only [J.toWord, J.ofWord, bit1_getLsbD, field_toNat, opcode_field h, ← h47, ← h32,
    BitVec.extractLsb'_append_extractLsb'_eq_extractLsb']
  exact BitVec.extractLsb'_eq_self

theorem E.toWord_ofWord (h47 : w.extractLsb' 47 5 = 0#5) :
    (E.ofWord w).toWord (w.extractLsb' 56 7).toNat (w.extractLsb' 18 7).toNat = w := by
  simp (disch := decide) only [E.toWord, E.ofWord, bit1_getLsbD, field_toNat, opcode_field h, ← h47,
    BitVec.extractLsb'_append_extractLsb'_eq_extractLsb']
  exact BitVec.extractLsb'_eq_self

end

theorem Hop.code_ofCode {n : Nat} {hop : Hop} (h : Hop.ofCode n = some hop) : hop.code.toNat = n := by
  unfold Hop.ofCode at h
  split at h <;> cases h <;> rfl

theorem PHalf.toBits_ofBits {b : BitVec 30} {p : PHalf} (h : PHalf.ofBits b = some p) : p.toBits = b := by
  obtain ⟨hop, hcode, rfl⟩ := Option.map_eq_some_iff.1 h
  have hhop : hop.code = b.extractLsb' 24 6 := BitVec.eq_of_toNat_eq (Hop.code_ofCode hcode)
  simp (disch := decide) only [PHalf.toBits, hhop, bit1_getLsbD, BitVec.extractLsb'_append_extractLsb'_eq_extractLsb']
  exact BitVec.extractLsb'_eq_self

theorem PWord.toWord_ofWord {w : Dword} {h0 h1 : PHalf} (h : w.getLsbD 63 = true) (hh0 : PHalf.ofBits (w.extractLsb' 30 30) = some h0)
    (hh1 : PHalf.ofBits (w.extractLsb' 0 30) = some h1) : (⟨w.extractLsb' 60 3, h0, h1⟩ : PWord).toWord = w := by
  have hone : w.extractLsb' 63 1 = 1#1 := by
    rw [← bit1_getLsbD, h]
    rfl
  simp (disch := decide) only [PWord.toWord, PHalf.toBits_ofBits hh0, PHalf.toBits_ofBits hh1, ← hone, BitVec.extractLsb'_append_extractLsb'_eq_extractLsb']
  exact BitVec.extractLsb'_eq_self

/-- The word that a form is read from is the form's word, where no bit outside the fields is set. -/
theorem Form.toWord_of_ofWord {w : Dword} {fm : Form} (h : Form.ofWord w = some fm) (hr : reservedBits w fm = false) : fm.toWord = w := by
  unfold Form.ofWord at h
  split at h
  case isTrue hones =>
    cases h
    exact hones.symm
  case isFalse =>
    split at h
    case isTrue h63 =>
      split at h
      case h_1 h0 h1 hh0 hh1 =>
        cases h
        exact PWord.toWord_ofWord h63 hh0 hh1
      case h_2 => cases h
    case isFalse h63 =>
      rw [Bool.not_eq_true] at h63
      dsimp only at h
      split at h <;> cases h
      case h_1 => exact F.toWord_ofWord h63
      case h_2 => exact I.toWord_ofWord h63 hr
      case h_3 => exact M.toWord_ofWord h63
      case h_4 =>
        simp only [reservedBits, Bool.or_eq_false_iff, bne_eq_false_iff_eq] at hr
        exact J.toWord_ofWord h63 hr.1 hr.2
      case h_5 => exact E.toWord_ofWord h63 (bne_eq_false_iff_eq.1 hr)

/-! ## The form of a decoded instruction -/

/-- What the opcode maps (R77) give for the form `fm` has that form. -/
def GivesForm (o : Option Instr) (fm : Form) : Prop := ∀ i, o = some i → i.form = some fm

theorem none_givesForm {fm : Form} : GivesForm none fm := fun _ h => by cases h

theorem some_givesForm {j : Instr} {fm : Form} (hj : j.form = some fm) : GivesForm (some j) fm := by
  rintro _ ⟨⟩
  exact hj

theorem fn0_givesForm {j : Instr} {fm : Nat → Form} {fn : Nat} (hj : j.form = some (fm 0)) : GivesForm (fn0 fn j) (fm fn) := by
  unfold fn0
  split
  case isTrue h => exact some_givesForm (h ▸ hj)
  case isFalse => exact none_givesForm

theorem finFn_givesForm {n fn : Nat} {mk : Fin n → Instr} {fm : Nat → Form} (hm : ∀ k, (mk k).form = some (fm k.val)) :
    GivesForm (finFn n fn mk) (fm fn) := by
  unfold finFn
  split
  · exact some_givesForm (hm _)
  · exact none_givesForm

/-- Two instructions of one form, told apart by a bit of the word. -/
theorem ite_form {b : Prop} [Decidable b] {j k : Instr} {fm : Form} (hj : j.form = some fm) (hk : k.form = some fm) :
    (if b then j else k).form = some fm := by
  split
  · exact hj
  · exact hk

/-- CVT's function code is its destination's format code (R142). -/
theorem cvt_form {fn : Nat} (h : fn < 16) (x : F) : (Instr.cvt (BitVec.ofNat 4 fn) x).form = some (.f 0x40 fn x) :=
  congrArg (fun n => some (Form.f 0x40 n x)) (BitVec.toNat_ofNat .. |>.trans (Nat.mod_eq_of_lt h))

/-- FENCE's function code holds its order and its scope (R77). -/
theorem fence_form {fn : Nat} (h : 1 ≤ fn / 8 ∧ fn / 8 ≤ 3 ∧ fn % 8 < 6) (x : F) :
    (Instr.fence ⟨fn / 8 - 1, by omega⟩ ⟨fn % 8, h.2.2⟩ x).form = some (.f 0x58 fn x) := by
  have hfn : 8 * (fn / 8 - 1 + 1) + fn % 8 = fn := by omega
  exact congrArg (fun n => some (Form.f 0x58 n x)) hfn

/-- Every opcode but NOP's gives an instruction of its word's form. -/
theorem decodeF_givesForm {opc fn : Nat} (h0 : opc ≠ 0) (x : F) : GivesForm (decodeF opc fn x) (.f opc fn x) := by
  fun_cases decodeF opc fn x
  case case1 => exact absurd rfl h0
  case case61 hfn => exact some_givesForm (cvt_form hfn x)
  case case75 hfn => exact some_givesForm (fence_form hfn x)
  case case80 => exact some_givesForm (ite_form rfl rfl)
  case case95 => exact fn0_givesForm (fm := (.f _ · x)) (ite_form rfl rfl)
  case case124 => exact some_givesForm (ite_form rfl rfl)
  case case127 => exact some_givesForm (ite_form rfl rfl)
  any_goals exact fn0_givesForm (fm := (.f _ · x)) rfl
  any_goals exact finFn_givesForm (fm := (.f _ · x)) fun _ => rfl
  any_goals exact some_givesForm rfl
  all_goals exact none_givesForm

theorem decodeI_givesForm {opc : Nat} (x : I) : GivesForm (decodeI opc x) (.i opc x) := by
  fun_cases decodeI opc x
  any_goals exact some_givesForm rfl
  exact none_givesForm

theorem decodeM_givesForm {opc : Nat} (x : M) : GivesForm (decodeM opc x) (.m opc x) := by
  fun_cases decodeM opc x
  any_goals exact some_givesForm rfl
  exact none_givesForm

theorem decodeJ_givesForm {opc : Nat} (x : J) : GivesForm (decodeJ opc x) (.j opc x) := by
  fun_cases decodeJ opc x
  any_goals exact some_givesForm rfl
  exact none_givesForm

theorem decodeE_givesForm {opc fn : Nat} (x : E) : GivesForm (decodeE opc fn x) (.e opc fn x) := by
  fun_cases decodeE opc fn x
  case case1 => exact fn0_givesForm (fm := (.e _ · x)) (ite_form rfl rfl)
  any_goals exact fn0_givesForm (fm := (.e _ · x)) rfl
  any_goals exact finFn_givesForm (fm := (.e _ · x)) fun _ => rfl
  any_goals exact some_givesForm rfl
  all_goals exact none_givesForm

/-- A form of NOP's opcode; its function code and fields are lost, and its word must be 0 (R59). -/
def Form.isNop : Form → Prop
  | .f opc _ _ => opc = 0
  | _ => False

theorem Form.instr_givesForm {fm : Form} (h : ¬ fm.isNop) : GivesForm fm.instr fm :=
  match fm with
  | .allOnes => some_givesForm rfl
  | .f _ _ x => decodeF_givesForm h x
  | .i _ x => decodeI_givesForm x
  | .m _ x => decodeM_givesForm x
  | .j _ x => decodeJ_givesForm x
  | .e _ _ x => decodeE_givesForm x
  | .p _ => some_givesForm rfl

/-- NOP is the word 0. -/
theorem Form.nop_word {fm : Form} {w : Dword} {i : Instr} (h : fm.isNop) (hi : fm.instr = some i) (hr : reservedBits w fm = false) :
    i = .nop ∧ w = 0 := by
  cases fm <;> cases h
  exact ⟨(Option.some.inj hi).symm, bne_eq_false_iff_eq.1 hr⟩

/-! ## Both directions -/

/-- What the decoder has found of a word that it decodes. -/
theorem decode_eq_ok {w : Dword} {i : Instr} (h : decode w = .ok i) :
    ∃ fm, Form.ofWord w = some fm ∧ fm.instr = some i ∧ reservedBits w fm = false ∧ i.wf = true := by
  unfold decode at h
  split at h
  · cases h
  · next fm hfm =>
    split at h
    · cases h
    · next j hj =>
      split at h <;> cases h
      next hok =>
        simp only [Bool.or_eq_true, Bool.not_eq_true', not_or, Bool.not_eq_true, Bool.not_eq_false] at hok
        exact ⟨fm, hfm, hj, hok⟩

theorem wf_of_decode {w : Dword} {i : Instr} (h : decode w = .ok i) : i.wf = true := by
  obtain ⟨-, -, -, -, hwf⟩ := decode_eq_ok h
  exact hwf

theorem encode_of_decode {w : Dword} {i : Instr} (h : decode w = .ok i) : encode i = some w := by
  obtain ⟨fm, hfm, hi, hr, -⟩ := decode_eq_ok h
  by_cases hnop : fm.isNop
  · obtain ⟨rfl, rfl⟩ := Form.nop_word hnop hi hr
    rfl
  · rw [encode, Form.instr_givesForm hnop i hi, Option.map_some, Form.toWord_of_ofWord hfm hr]

/-- Every instruction is read back from its word, by its own lemma of Laws/PerInstr.lean. -/
theorem decode_of_encode : ∀ i, RoundTrip.Statement i
  | .nop => RoundTrip.nop
  | .ill => RoundTrip.ill
  | .movVV _ => RoundTrip.movVV _
  | .movVS _ => RoundTrip.movVS _
  | .movSV _ => RoundTrip.movSV _
  | .movSS _ => RoundTrip.movSS _
  | .movQueuePop _ => RoundTrip.movQueuePop _
  | .movQueuePush _ => RoundTrip.movQueuePush _
  | .movVM _ => RoundTrip.movVM _
  | .movMV _ => RoundTrip.movMV _
  | .movHandleStatus _ => RoundTrip.movHandleStatus _
  | .movHandleToken _ => RoundTrip.movHandleToken _
  | .movTokenHandle _ => RoundTrip.movTokenHandle _
  | .movi _ => RoundTrip.movi _
  | .iaddi _ => RoundTrip.iaddi _
  | .andi _ => RoundTrip.andi _
  | .ori _ => RoundTrip.ori _
  | .xori _ => RoundTrip.xori _
  | .iadd _ _ => RoundTrip.iadd _ _
  | .isub _ _ => RoundTrip.isub _ _
  | .imul _ _ => RoundTrip.imul _ _
  | .imad _ => RoundTrip.imad _
  | .iminmax _ _ => RoundTrip.iminmax _ _
  | .iabs _ => RoundTrip.iabs _
  | .iaddw _ => RoundTrip.iaddw _
  | .lea _ => RoundTrip.lea _
  | .twill _ => RoundTrip.twill _
  | .shf _ _ => RoundTrip.shf _ _
  | .bfx _ => RoundTrip.bfx _
  | .bfi _ => RoundTrip.bfi _
  | .popc _ => RoundTrip.popc _
  | .clz _ => RoundTrip.clz _
  | .brev _ => RoundTrip.brev _
  | .sel _ => RoundTrip.sel _
  | .icmp _ _ => RoundTrip.icmp _ _
  | .fcmp _ _ => RoundTrip.fcmp _ _
  | .fclass _ => RoundTrip.fclass _
  | .read _ _ => RoundTrip.read _ _
  | .peek _ _ => RoundTrip.peek _ _
  | .fadd _ => RoundTrip.fadd _
  | .fmul _ => RoundTrip.fmul _
  | .ffma _ => RoundTrip.ffma _
  | .faddi _ => RoundTrip.faddi _
  | .fmuli _ => RoundTrip.fmuli _
  | .fscale _ => RoundTrip.fscale _
  | .fminmax _ _ => RoundTrip.fminmax _ _
  | .frnd _ => RoundTrip.frnd _
  | .fdiv _ => RoundTrip.fdiv _
  | .fsqrt _ => RoundTrip.fsqrt _
  | .frcp _ => RoundTrip.frcp _
  | .frsq _ => RoundTrip.frsq _
  | .ftr _ _ => RoundTrip.ftr _ _
  | .twosum _ => RoundTrip.twosum _
  | .twoprod _ => RoundTrip.twoprod _
  | .pkadd _ _ => RoundTrip.pkadd _ _
  | .pkmul _ _ => RoundTrip.pkmul _ _
  | .pkfma _ _ => RoundTrip.pkfma _ _
  | .jseed _ => RoundTrip.jseed _
  | .tget _ => RoundTrip.tget _
  | .tset _ => RoundTrip.tset _
  | .jzero _ => RoundTrip.jzero _
  | .jeval _ => RoundTrip.jeval _
  | .fprint _ => RoundTrip.fprint _
  | .cvt _ _ => RoundTrip.cvt _ _
  | .qntSt _ => RoundTrip.qntSt _
  | .qntZ _ => RoundTrip.qntZ _
  | .pack _ => RoundTrip.pack _
  | .unpack _ => RoundTrip.unpack _
  | .ld _ => RoundTrip.ld _
  | .st _ => RoundTrip.st _
  | .atom _ _ => RoundTrip.atom _ _
  | .cas _ => RoundTrip.cas _
  | .fxadd _ => RoundTrip.fxadd _
  | .fxrdRead _ => RoundTrip.fxrdRead _
  | .fxrdClr _ => RoundTrip.fxrdClr _
  | .qld _ => RoundTrip.qld _
  | .qst _ => RoundTrip.qst _
  | .fence _ _ _ => RoundTrip.fence _ _ _
  | .fenceSc _ => RoundTrip.fenceSc _
  | .waita _ => RoundTrip.waita _
  | .barSet _ => RoundTrip.barSet _
  | .barMark _ => RoundTrip.barMark _
  | .barWait _ => RoundTrip.barWait _
  | .barWaitPhase _ => RoundTrip.barWaitPhase _
  | .barOwe _ => RoundTrip.barOwe _
  | .barStat _ => RoundTrip.barStat _
  | .barShare _ => RoundTrip.barShare _
  | .sknJoin _ => RoundTrip.sknJoin _
  | .sknLeave _ => RoundTrip.sknLeave _
  | .sknSync _ => RoundTrip.sknSync _
  | .qcfg _ => RoundTrip.qcfg _
  | .hndWait _ => RoundTrip.hndWait _
  | .hndTest _ => RoundTrip.hndTest _
  | .hndCancel _ => RoundTrip.hndCancel _
  | .hndMove _ => RoundTrip.hndMove _
  | .cpl _ => RoundTrip.cpl _
  | .cplFo _ => RoundTrip.cplFo _
  | .cps _ => RoundTrip.cps _
  | .cpm _ => RoundTrip.cpm _
  | .cpq _ => RoundTrip.cpq _
  | .cpx _ => RoundTrip.cpx _
  | .cpr _ => RoundTrip.cpr _
  | .sample _ => RoundTrip.sample _
  | .sampleLod _ => RoundTrip.sampleLod _
  | .texbBind _ => RoundTrip.texbBind _
  | .texbInval _ => RoundTrip.texbInval _
  | .mxb _ => RoundTrip.mxb _
  | .mxsw _ => RoundTrip.mxsw _
  | .mxsq _ => RoundTrip.mxsq _
  | .mma _ _ => RoundTrip.mma _ _
  | .mxd _ => RoundTrip.mxd _
  | .mxdGuide _ => RoundTrip.mxdGuide _
  | .mxcClear _ => RoundTrip.mxcClear _
  | .mxcPair _ => RoundTrip.mxcPair _
  | .mxcUnpair _ => RoundTrip.mxcUnpair _
  | .tdeWrite _ => RoundTrip.tdeWrite _
  | .tdeRead _ => RoundTrip.tdeRead _
  | .tdeInval _ => RoundTrip.tdeInval _
  | .hdlLoad _ => RoundTrip.hdlLoad _
  | .hdlPerm _ => RoundTrip.hdlPerm _
  | .bra _ => RoundTrip.bra _
  | .jmpi _ => RoundTrip.jmpi _
  | .call _ => RoundTrip.call _
  | .ctlRet _ => RoundTrip.ctlRet _
  | .ctlExit _ => RoundTrip.ctlExit _
  | .ctlRcv _ => RoundTrip.ctlRcv _
  | .ctlRegion _ => RoundTrip.ctlRegion _
  | .ctlSigchk _ => RoundTrip.ctlSigchk _
  | .ctlSigrst _ => RoundTrip.ctlSigrst _
  | .ctlSleep _ => RoundTrip.ctlSleep _
  | .ctlYield _ => RoundTrip.ctlYield _
  | .ctlTmrset _ => RoundTrip.ctlTmrset _
  | .ctlTmrclr _ => RoundTrip.ctlTmrclr _
  | .ctlTrapu _ => RoundTrip.ctlTrapu _
  | .ctlUret _ => RoundTrip.ctlUret _
  | .ctlBrk _ => RoundTrip.ctlBrk _
  | .ctlEvmark _ => RoundTrip.ctlEvmark _
  | .msk _ _ => RoundTrip.msk _ _
  | .sysTrap _ => RoundTrip.sysTrap _
  | .sysTret _ => RoundTrip.sysTret _
  | .sysTretRr _ => RoundTrip.sysTretRr _
  | .sysRdcr _ => RoundTrip.sysRdcr _
  | .sysWrcr _ => RoundTrip.sysWrcr _
  | .sysHalt _ => RoundTrip.sysHalt _
  | .sysHaltRelaunch _ => RoundTrip.sysHaltRelaunch _
  | .sysXread _ => RoundTrip.sysXread _
  | .sysXwrite _ => RoundTrip.sysXwrite _
  | .sysResume _ => RoundTrip.sysResume _
  | .sysIcinv _ => RoundTrip.sysIcinv _
  | .pWord _ => RoundTrip.pWord _
  | .accessPerformed _ => RoundTrip.accessPerformed _
  | .asyncFaultDelivery _ => RoundTrip.asyncFaultDelivery _
  | .hostBreak _ => RoundTrip.hostBreak _
  | .stopBlockHalt _ => RoundTrip.stopBlockHalt _
  | .timerFire _ => RoundTrip.timerFire _
  | .rcvExpired _ _ => RoundTrip.rcvExpired _ _
  | .waitaWakeOnWrite _ _ => RoundTrip.waitaWakeOnWrite _ _
  | .waitaPeriodicRead _ _ => RoundTrip.waitaPeriodicRead _ _
  | .waitaBoundExpiry _ _ => RoundTrip.waitaBoundExpiry _ _
  | .sleepExpiry _ => RoundTrip.sleepExpiry _
  | .heartbeatTick => RoundTrip.heartbeatTick
  | .queueStalled _ => RoundTrip.queueStalled _
  | .queueDeadlock _ => RoundTrip.queueDeadlock _
  | .quorumAnswer _ _ => RoundTrip.quorumAnswer _ _
  | .quorumCopyTimeout _ _ => RoundTrip.quorumCopyTimeout _ _
  | .quorumScrub _ _ => RoundTrip.quorumScrub _ _
  | .mxswExchange _ => RoundTrip.mxswExchange _
  | .mxbComplete _ => RoundTrip.mxbComplete _
  | .mmaCommit _ => RoundTrip.mmaCommit _
  | .mxdComplete _ => RoundTrip.mxdComplete _
  | .cplFollowOnIssue _ => RoundTrip.cplFollowOnIssue _
  | .recordFreedStart _ => RoundTrip.recordFreedStart _
  | .copyAccept _ => RoundTrip.copyAccept _
  | .copyUnitWritten _ _ => RoundTrip.copyUnitWritten _ _
  | .copyComplete _ => RoundTrip.copyComplete _
  | .cprComplete _ _ => RoundTrip.cprComplete _ _
  | .cprTimeout _ => RoundTrip.cprTimeout _
  | .sampleResult _ => RoundTrip.sampleResult _
  | .texbComplete _ => RoundTrip.texbComplete _
  | .tdeComplete _ => RoundTrip.tdeComplete _
  | .packetReceive _ _ _ => RoundTrip.packetReceive _ _ _
  | .cmdLaunch _ => RoundTrip.cmdLaunch _
  | .launchFitStart _ => RoundTrip.launchFitStart _
  | .launchComplete _ => RoundTrip.launchComplete _
  | .cmdCopy _ => RoundTrip.cmdCopy _
  | .copyCmdComplete _ => RoundTrip.copyCmdComplete _
  | .cmdWait _ => RoundTrip.cmdWait _
  | .cmdSignal _ => RoundTrip.cmdSignal _
  | .signalStore _ => RoundTrip.signalStore _
  | .cmdMap _ => RoundTrip.cmdMap _
  | .mapComplete _ => RoundTrip.mapComplete _
  | .cmdStopSuspend _ => RoundTrip.cmdStopSuspend _
  | .cmdStopTerminate _ => RoundTrip.cmdStopTerminate _
  | .cmdStopResume _ => RoundTrip.cmdStopResume _
  | .drainExpiry _ => RoundTrip.drainExpiry _
  | .blockSaved _ => RoundTrip.blockSaved _
  | .blockRestore _ => RoundTrip.blockRestore _
  | .contextSwapOut _ => RoundTrip.contextSwapOut _
  | .contextSwapIn _ _ => RoundTrip.contextSwapIn _ _
  | .blockPlace _ => RoundTrip.blockPlace _
  | .strandSelectable _ => RoundTrip.strandSelectable _
  | .blockRetire _ => RoundTrip.blockRetire _
  | .screenVerdict _ => RoundTrip.screenVerdict _
  | .icacheFill _ _ => RoundTrip.icacheFill _ _
  | .demandPageHash _ _ => RoundTrip.demandPageHash _ _
  | .objectLoad _ _ _ => RoundTrip.objectLoad _ _ _
  | .hostMemoryWrite _ _ _ => RoundTrip.hostMemoryWrite _ _ _
  | .hostMemoryRead _ _ _ => RoundTrip.hostMemoryRead _ _ _
  | .mgmtPartitionWrite _ _ => RoundTrip.mgmtPartitionWrite _ _
  | .mgmtPartitionDisable _ => RoundTrip.mgmtPartitionDisable _
  | .mgmtPrivilegedVector _ _ => RoundTrip.mgmtPrivilegedVector _ _
  | .mgmtWindows _ _ _ => RoundTrip.mgmtWindows _ _ _
  | .mgmtReductionGroups _ _ _ => RoundTrip.mgmtReductionGroups _ _ _
  | .mgmtReductionGrant _ => RoundTrip.mgmtReductionGrant _
  | .mgmtTelemetry _ _ => RoundTrip.mgmtTelemetry _ _
  | .mgmtStatusBlock _ _ => RoundTrip.mgmtStatusBlock _ _
  | .mgmtPowerLimit _ => RoundTrip.mgmtPowerLimit _
  | .mgmtAgeingMeasure _ => RoundTrip.mgmtAgeingMeasure _
  | .mgmtRetire _ _ => RoundTrip.mgmtRetire _ _
  | .ageingPeriodicRead _ => RoundTrip.ageingPeriodicRead _
  | .powerCapAdjust _ _ => RoundTrip.powerCapAdjust _ _
  | .powerOn => RoundTrip.powerOn
  | .enterReducedService => RoundTrip.enterReducedService
  | .enterFullService => RoundTrip.enterFullService
  | .portTrain _ _ _ => RoundTrip.portTrain _ _ _
  | .portDown _ => RoundTrip.portDown _
  | .portUp _ => RoundTrip.portUp _
  | .flitCrcReplay _ => RoundTrip.flitCrcReplay _
  | .ethLink _ _ => RoundTrip.ethLink _ _
  | .weftRetransmit _ => RoundTrip.weftRetransmit _
  | .weftAccessTimeout _ => RoundTrip.weftAccessTimeout _
  | .pcSample _ => RoundTrip.pcSample _
  | .mxsqComplete _ => RoundTrip.mxsqComplete _
  | .mxcClearComplete _ => RoundTrip.mxcClearComplete _
  | .deviceFatal => RoundTrip.deviceFatal

/-- Settles O56: the fields of a word give it back, and the opcode maps keep its form. -/
theorem encodingIsExact : Obligations.EncodingIsExact := fun i w =>
  ⟨fun hwf he => decode_of_encode i w hwf he, fun h => ⟨wf_of_decode h, encode_of_decode h⟩⟩

/-- The instructions that the spec gives for its words are well-formed, and their encodings are those words. -/
theorem specWords_encode : ∀ e ∈ Claims.specWords, e.2.wf = true ∧ encode e.2 = some e.1 := by decide

/-- Settles O55: a spec's word decodes because it is its instruction's encoding. -/
theorem specWordsDecode : Obligations.SpecWordsDecode := by
  refine ⟨fun e he => ?_, rfl, rfl⟩
  obtain ⟨hwf, hword⟩ := specWords_encode e he
  exact ⟨decode_of_encode e.2 e.1 hwf hword, hword⟩

end Sys2Proof
end

section
/-!
SUPPORT. The level of SYS (R78, R348, R362): PRIVILEGED is the first cause of a SYS word, and the moves of control registers complete where their causes pass.
-/
namespace Sys2Proof.Machine
open Sys2Proof.Claims

/-! ## Privileged forms -/

/-- A word whose first cause is PRIVILEGED (R56, R78): at user level it traps wherever a thread is active. -/
theorem privileged_traps {i : Instr} {x : F} {s : State} {c : Ctx} {spec : Ctx → Spec} {eff : Ctx → Verdict} {rest : List (Bool × Cause)}
    (he : exec i s = word i s spec eff) (hchecks : (spec c).checks = (!c.k.ph, Cause.privileged) :: rest)
    (hactive : c.k.activeFor (spec c).halves (spec c).g (spec c).gn = actF x c) (ht : Timely s c) (hph : c.k.ph = false) (hact : actF x c ≠ 0) :
    Traps i s c Cause.privileged (actF x c) := by
  obtain ⟨hfocus, hlate⟩ := ht
  exact word_traps he hfocus hlate (b := true) (by rw [hchecks, hph]; rfl) hactive hact

section
variable {i : Instr} {x : F} {s : State} {c : Ctx} (ht : Timely s c) (hph : c.k.ph = false) (hact : actF x c ≠ 0)
include ht hph hact

/-- A SYS form that the user level may not execute. -/
theorem sysWord_traps {g : Shape} {user : Bool} {eff : Ctx → Verdict} (he : exec i s = sysWord i x.h g user id eff s) (hu : user = false) :
    Traps i s c Cause.privileged (actF x c) := by
  subst hu
  exact privileged_traps he rfl rfl ht hph hact

theorem tretWord_traps {eff : Ctx → Strand → Verdict} (he : exec i s = tretWord i x eff s) : Traps i s c Cause.privileged (actF x c) :=
  privileged_traps he rfl rfl ht hph hact

/-- The forms of SYS that only the privileged level may execute, whatever they name. -/
theorem sysForms_trap : ∀ i ∈ [Instr.sysTret x, .sysTretRr x, .sysHalt x, .sysHaltRelaunch x, .sysXread x, .sysXwrite x, .sysResume x, .sysIcinv x],
    Traps i s c Cause.privileged (actF x c) := by
  simp only [List.forall_mem_cons, List.not_mem_nil, false_imp_iff, implies_true, and_true]
  refine ⟨?tret, ?tretRr, ?halt, ?relaunch, ?xread, ?xwrite, ?resume, ?icinv⟩
  case tret => exact tretWord_traps ht hph hact (execSysTret.eq_def x s)
  case tretRr => exact tretWord_traps ht hph hact (execSysTretRr.eq_def x s)
  case halt => exact sysWord_traps ht hph hact (execSysHalt.eq_def x s) rfl
  case relaunch => exact sysWord_traps ht hph hact (execSysHaltRelaunch.eq_def x s) rfl
  case xread => exact privileged_traps (execSysXread.eq_def x s) rfl rfl ht hph hact
  case xwrite => exact privileged_traps (execSysXwrite.eq_def x s) rfl rfl ht hph hact
  case resume => exact sysWord_traps ht hph hact (execSysResume.eq_def x s) rfl
  case icinv => exact sysWord_traps ht hph hact (execSysIcinv.eq_def x s) rfl

/-- RDCR and WRCR of a privileged control register (R348). -/
theorem crMoves_trap (hn : 0x0C ≤ x.modN 5 0) : Traps (.sysRdcr x) s c Cause.privileged (actF x c) ∧ Traps (.sysWrcr x) s c Cause.privileged (actF x c) :=
  have huser : decide (crIndex x < 0x0C) = false := decide_eq_false (Nat.not_lt.2 hn)
  ⟨sysWord_traps ht hph hact (execSysRdcr.eq_def x s) huser, sysWord_traps ht hph hact (execSysWrcr.eq_def x s) huser⟩

end

/-! ## Forms that the user level may execute -/

/-- SYS.TRAP traps behind its completed word (R362). -/
theorem sysTrap_effectsThenTraps {x : F} {s : State} {c : Ctx} (hr : ReadyF x s c [] []) (hact : actF x c ≠ 0) :
    EffectsThenTraps (.sysTrap x) s c (actF x c) Ctx.s (0x70 + BitVec.ofNat 8 (x.modN 3 0)) := by
  obtain ⟨-, hstrand, -, -, hs, -, -, -⟩ := State.ctx?_eq hr.focus
  have hcode : (0x70 + BitVec.ofNat 8 (x.modN 3 0) : Cause) = Cause.syscall (x.modN 3 0) := (BitVec.ofNat_add ..).symm
  rw [hcode]
  refine word_effectsThenTraps (execSysTrap.eq_def x s) ?ready (Regs.checks_empty c x.h.u) nofun rfl rfl rfl (fun _ => if_neg hact)
    fun _ => ⟨c.k, ?strand, rfl⟩
  case ready =>
    show Ready s c (Spec.guards _ ++ []) []
    rw [Spec.guards_ofHdr _ rfl]
    exact hr
  case strand =>
    show c.s.strand? c.r = some c.k
    rw [hs, hstrand]

/-- The control registers of 64 bits. -/
theorem crWide_eq (n : Nat) : (crWide n == some true) = decide (n ∈ crDoubles) := by
  rw [Bool.eq_iff_iff]
  unfold crWide crDoubles
  split
  · simp; omega
  · split
    · simp_all; omega
    · simp_all; omega

theorem crWide_isNone {n : Nat} (h : crListed n) : (crWide n).isNone = false := by
  unfold crWide
  rcases h with h | ⟨hlow, hhigh⟩
  · rw [if_pos h]
    rfl
  · rw [if_neg (by omega), if_pos (by simp [hlow, hhigh])]
    rfl

theorem crReadonly_iff (n : Nat) : crReadonly n = true ↔ crFixed n := by
  simp [crReadonly, crFixed]
  omega

theorem crLocs_eq (x : F) (r : BitVec 7) : crLocs x r = crPair (x.modN 5 0) r := by
  simp only [crLocs, crPair, crIndex, crWide_eq, decide_eq_true_eq]
  rfl

/-- A write of a control register keeps its strand in place. -/
theorem crWrite_isSome {c : Ctx} (hk : c.s.strand? c.r = some c.k) (n : Nat) (v : Dword) : ((c.s.crWrite c.r c.r n v).strand? c.r).isSome := by
  have hmod : ((c.s.modStrand c.r fun k => k.crWrite n v).strand? c.r).isSome := by
    rw [State.strand?_modStrand_self, hk]
    rfl
  unfold State.crWrite
  split
  · dsimp only
    split
    · exact hmod
    · rw [State.setSb, State.strand?_stopOthers_self]
      exact hmod
  · exact hmod

/-- Where RDCR and WRCR go on (R348): a listed register, S registers of its width, a level that may name it; fpflags waits for the flags of cell
reads (R88). -/
def crReady (x : F) (r : BitVec 7) (c : Ctx) : Prop :=
  crOk (x.modN 5 0) r ∧ (c.k.ph = true ∨ x.modN 5 0 < 0x0C) ∧ (x.modN 5 0 = 0 → c.s.flagsPending c.r = false)

section
variable {x : F} {r : BitVec 7} {c : Ctx} (h : crReady x r c)
include h

theorem crReady.privileged_passes : (!decide (crIndex x < 0x0C) && !c.k.ph) = false := by
  obtain ⟨-, hlevel, -⟩ := h
  rcases hlevel with hph | hlow
  · simp [hph]
  · simp [crIndex, hlow]

theorem crReady.goes_on (act : Word) (start : Nat) :
    (decide (crIndex x = 0) && (c.seen act start).s.flagsPending (c.seen act start).r) = false := by
  obtain ⟨-, -, hflags⟩ := h
  by_cases h0 : x.modN 5 0 = 0
  · simp [Ctx.seen, hflags h0]
  · simp [crIndex, h0]

/-- The checks of a control register's S registers pass. -/
theorem crReady.regs_pass (u : Bool) : ((crShape x r).regs.checks c u).find? Prod.fst = none := by
  obtain ⟨⟨-, hrange, heven⟩, -, -⟩ := h
  refine Regs.checks_none nofun nofun ?even (by simpa [crShape] using hrange) nofun rfl rfl nofun rfl
  simp only [crShape, crIndex, crWide_eq, decide_eq_true_eq]
  split
  case isTrue hwide => simpa using heven hwide
  case isFalse => exact nofun

/-- Every check before the word's own passes, that of the index with them. -/
theorem crReady.checks_pass {own : List (Bool × Cause)} (hown : own.find? Prod.fst = none) (u : Bool) :
    ((!decide (crIndex x < 0x0C) && !c.k.ph, Cause.privileged) :: ((crShape x r).regs.checks c u ++ ((crShape x r).own ++ own))).find? Prod.fst = none := by
  have hindex : (crShape x r).own = [(false, Cause.crIndex)] := by
    obtain ⟨⟨hlisted, -, -⟩, -, -⟩ := h
    simp only [crShape, crIndex, crWide_isNone hlisted]
  rw [List.find?_cons_of_neg (by rw [h.privileged_passes]; exact Bool.false_ne_true), List.find?_append, h.regs_pass, hindex]
  exact hown

end

theorem sysRdcr_does (x : F) : Does (.sysRdcr x) x [] (crPair (x.modN 5 0) x.d) (crReady x x.d) (rdcr (x.modN 5 0) x) := by
  refine word_does (execSysRdcr.eq_def x) (fun _ => ⟨rfl, rfl, rfl, rfl, crLocs_eq x x.d, rfl, rfl⟩) (fun c h => ?checks) (fun _ _ => nofun)
    (fun c start _ h => ?effect) fun c hk => ?strand
  case checks => exact h.checks_pass (own := []) rfl x.h.u
  case effect =>
    simp only [h.goes_on, Bool.false_eq_true, if_false, ← apply_ite Verdict.done, rdcr, crWide_eq, decide_eq_true_eq]
    rfl
  case strand =>
    unfold rdcr
    dsimp only
    split
    · rw [hk]; rfl
    · exact with_isSome c _

theorem sysWrcr_does (x : F) : Does (.sysWrcr x) x (crPair (x.modN 5 0) x.a) [] (fun c => crReady x x.a c ∧ ¬ crFixed (x.modN 5 0))
    (wrcr (x.modN 5 0) x) := by
  refine word_does (execSysWrcr.eq_def x) (fun _ => ⟨rfl, rfl, rfl, crLocs_eq x x.a, rfl, rfl, rfl⟩) (fun c h => ?checks) (fun _ _ => nofun)
    (fun c start hrd h => ?effect) fun c hk => ?strand
  case checks =>
    obtain ⟨hready, hfixed⟩ := h
    refine hready.checks_pass (own := [(crReadonly (crIndex x), Cause.crReadonly)]) ?_ x.h.u
    rw [Bool.eq_false_iff.2 (mt (crReadonly_iff (crIndex x)).1 hfixed)]
    rfl
  case effect =>
    simp only [h.1.goes_on, Bool.false_eq_true, if_false, ← apply_ite Verdict.done, wrcr, crWide_eq, decide_eq_true_eq]
    simp only [Ctx.seen, hrd]
    rfl
  case strand =>
    unfold wrcr
    split
    · rw [hk]; rfl
    · exact crWrite_isSome hk _ _

theorem controlRegisterMoves : ControlRegisterMoves := fun x => ⟨sysRdcr_does x, sysWrcr_does x⟩

/-- The read-only registers are privileged ones (R348). -/
theorem not_crFixed {n : Nat} (h : n < 0x0C) : ¬ crFixed n := by
  simp [crFixed]
  omega

/-- Settles O21: PRIVILEGED is the first cause of every form but three, and those complete with their effect. -/
theorem privilege : Obligations.Privilege := by
  intro x s c ht hph hact
  refine ⟨sysForms_trap ht hph hact, crMoves_trap ht hph hact, fun hn hflags => ⟨fun hr hok => ?read, fun hr hok => ?write⟩,
    fun hr => sysTrap_effectsThenTraps hr hact⟩
  all_goals
    obtain ⟨-, -, -, -, hs, -, -, -⟩ := State.ctx?_eq hr.focus
    rw [← hs] at hflags
  case read => exact ⟨_, fun _ => rfl, (controlRegisterMoves x).1 s c hr ⟨hok, .inr hn, hflags⟩⟩
  case write => exact ⟨_, fun _ => rfl, (controlRegisterMoves x).2 s c hr ⟨⟨hok, .inr hn, hflags⟩, not_crFixed hn⟩⟩

end Sys2Proof.Machine
end

section
/-!
SUPPORT. P words (R68 to R72): a storage word that reaches what it accesses issues it, a half delivers from the registers before the word, and the two halves
make one effect.
-/
namespace Sys2Proof.Machine
open Sys2Proof.Claims

/-! ## What a half delivers -/

theorem computing_iff {p : PHalf} : computing p ↔ p.hop.pad = false := by
  obtain ⟨hop, -, -, -, -, -⟩ := p
  cases hop <;> simp [computing, Hop.pad]

/-- Where no delivery raises IV, no thread of the IV mask is set (R87). -/
theorem ivMask_eq_zero {u : Bool} {act : Word} {os : List (Nat × Out)} (h : ∀ e ∈ os, hasIV e.2.fl = false) : ivMask u act os = 0 := by
  cases u with
  | true =>
    have hany : (os.any fun e => hasIV e.2.fl) = false := List.any_eq_false.2 fun e he => by simp [h e he]
    simp [ivMask, hany]
  | false =>
    induction os with
    | nil => rfl
    | cons e os ih =>
      obtain ⟨hhead, htail⟩ := List.forall_mem_cons.1 h
      simpa [ivMask, hhead] using ih htail

section
variable {p : PHalf} {c : Ctx} (hrd : c.rd = c.k) (hrdT : c.rdT = [])
include hrd hrdT

/-- A half's situation in a word that reads no result untimely (R72, R75). -/
theorem PHalf.ctx_eq : PHalf.ctx p c = halfAct p c := by
  simp only [PHalf.ctx, Ctx.maskBy, hrdT, List.isEmpty_nil, if_true, hrd, halfAct]

theorem PHalf.outs_eq : PHalf.outs p c = halfOuts p c := by
  rw [PHalf.outs, PHalf.ctx_eq hrd hrdT]
  rfl

theorem deliverHalf_eq (k : Strand) :
    k.deliverHalf p c = (halfOuts p c).foldl (fun k e => k.deliver c.la (p.u && !p.hop.mask) c.k.mask e) k := by
  rw [Strand.deliverHalf, PHalf.outs_eq hrd hrdT]

/-- A half that raises no IV under IVT has the verdict of its accesses (R87). -/
theorem PHalf.verdict_eq (hiv : c.k.ivt = true → ∀ e ∈ halfOuts p c, hasIV e.2.fl = false) : PHalf.verdict p c = PHalf.access p c := by
  rw [PHalf.verdict, PHalf.outs_eq hrd hrdT]
  refine if_neg fun h => ?_
  obtain ⟨hivt, hmask⟩ := Bool.and_eq_true_iff.1 h
  exact bne_iff_ne.1 hmask (ivMask_eq_zero (hiv hivt))

end

/-! ## The accesses of a half -/

theorem PHalf.access_computing {p : PHalf} (h : p.hop.pad = false) (c : Ctx) : PHalf.access p c = .done c.s := by
  simp only [PHalf.access, h]
  rfl

/-- A storage word whose threads all reach what they access (R210, R219, R255). -/
theorem Ctx.storage_of_reaches {c : Ctx} {m : Storage} {addr : Nat → Int} (h : reaches c m addr) (go : List (Nat × Nat) → Verdict) :
    c.storage m addr go = if c.lanes m.uni = [] then .done c.s else go (targets c m.uni addr) := by
  obtain ⟨hthreads, hgate⟩ := h
  have hcrooked : (((c.lanes m.uni).map fun t => (t, addr t)).filter fun e => e.2 % (m.size : Int) != 0) = [] := by
    refine List.filter_eq_nil_iff.2 (List.forall_mem_map.2 fun t ht => ?_)
    simp [(hthreads t ht).1]
  have houtside : (((c.lanes m.uni).map fun t => (t, addr t)).filter fun e =>
      m.space != .device && (e.2 < 0 || (c.la.padSize m.space : Int) < e.2 + (m.bytes : Int))) = [] := by
    refine List.filter_eq_nil_iff.2 (List.forall_mem_map.2 fun t ht => ?_)
    intro hbad
    simp only [Bool.and_eq_true, bne_iff_ne, Bool.or_eq_true, decide_eq_true_eq] at hbad
    obtain ⟨hspace, hout⟩ := hbad
    obtain ⟨hlow, hhigh⟩ := (hthreads t ht).2 hspace
    omega
  unfold Ctx.storage
  dsimp only
  rw [hcrooked, houtside]
  simp only [List.isEmpty_map, List.isEmpty_iff, List.isEmpty_nil, Bool.not_true, Bool.false_eq_true, if_false, List.map_map]
  refine ite_congr rfl (fun _ => rfl) fun _ => ?_
  rw [show (fun e : Nat × Int => e.2.toNat) ∘ (fun t => (t, addr t)) = fun t => (addr t).toNat from rfl, hgate]
  rfl

/-- A store to the core pad needs no commit where its scope is at most block (R232, R242). -/
theorem Ctx.store_core {c : Ctx} {m : Storage} (hcore : m.space = .core) (hscope : m.scope ≤ 1) (w : Nat) (stores : List (Nat × List Byte))
    (ps : List Piece) : c.store m w stores ps = .done (c.issue m ps c.s) := by
  have hwide : (ps.filter fun p => m.rel && (decide (1 < m.scope) || (m.space == .device && c.s.inWindow c.la.fe p.addr))) = [] := by
    refine List.filter_eq_nil_iff.2 fun p _ => ?_
    simp [hcore, Nat.not_lt.2 hscope]
  have hfold : c.screened m.space w stores = id := by
    funext s
    simp [Ctx.screened, hcore]
  unfold Ctx.store
  dsimp only
  rw [hwide, hfold]
  simp [hcore]

/-- A change of one strand keeps every strand in place. -/
theorem State.isSome_strand?_modStrand (s : State) (q r : StrandRef) (f : Strand → Strand) :
    ((s.modStrand q f).strand? r).isSome = (s.strand? r).isSome := by
  by_cases h : q = r
  · subst h
    rw [State.strand?_modStrand_self, Option.isSome_map]
  · rw [State.strand?_modStrand_ne s f h]

/-- The state `s` with a pad half's accesses issued (R69). -/
def padIssued (p : PHalf) (c : Ctx) (s : State) : State :=
  if halfLanes p c = [] then s else (halfAct p c).issue (mStorage c (PHalf.mWord p) (p.hop == .stp)) (halfPieces p c) s

/-- Issuing accesses keeps every strand in place. -/
theorem Ctx.issue_isSome {c : Ctx} {m : Storage} {ps : List Piece} {s : State} {r : StrandRef} (h : (s.strand? r).isSome) :
    ((c.issue m ps s).strand? r).isSome := by
  unfold Ctx.issue State.nextPo
  induction ps generalizing s with
  | nil =>
    rw [List.foldl_nil, State.isSome_strand?_modStrand]
    exact h
  | cons p ps ih => exact ih (s := { s.name.2 with accs := s.accs.put s.name.1 (c.access m p) }) h

theorem padIssued_isSome {p : PHalf} {c : Ctx} {s : State} {r : StrandRef} (h : (s.strand? r).isSome) : ((padIssued p c s).strand? r).isSome := by
  unfold padIssued
  split
  · exact h
  · exact Ctx.issue_isSome h

/-- The address of a pad half in a thread (R69). -/
def halfAddr (p : PHalf) (c : Ctx) (t : Nat) : Nat := (c.val p.u p.b t).toNat + 4 * p.h6.toNat

theorem PHalf.addr_eq (p : PHalf) (c : Ctx) (t : Nat) : PHalf.addr p (halfAct p c) t = (halfAddr p c t : Int) := rfl

theorem halfPieces_addr (p : PHalf) (c : Ctx) : (halfPieces p c).map Piece.addr = (halfLanes p c).map (halfAddr p c) := by
  simp only [halfPieces, List.map_map]
  refine List.map_congr_left fun t _ => ?_
  simp only [Function.comp_apply]
  split <;> rfl

/-- A half whose pieces are aligned and in the pad's allocation reaches what it accesses. -/
theorem reaches_pad {p : PHalf} {c : Ctx} {store : Bool} (hpieces : ∀ e ∈ halfPieces p c, e.addr % 4 = 0 ∧ e.addr + 4 ≤ c.la.corePad)
    (hgate : (halfAct p c).gate (mStorage c (PHalf.mWord p) store) ((halfPieces p c).map Piece.addr) = none) :
    reaches (halfAct p c) (mStorage c (PHalf.mWord p) store) (PHalf.addr p (halfAct p c)) := by
  refine ⟨fun t ht => ?threads, ?gate⟩
  case threads =>
    have hmem : halfAddr p c t ∈ (halfPieces p c).map Piece.addr := by
      rw [halfPieces_addr]
      exact List.mem_map_of_mem ht
    obtain ⟨e, he, haddr⟩ := List.mem_map.1 hmem
    obtain ⟨halign, hin⟩ := hpieces e he
    rw [haddr] at halign hin
    rw [PHalf.addr_eq]
    refine ⟨?_, fun _ => ⟨?_, ?_⟩⟩
    · exact_mod_cast halign
    · exact Int.natCast_nonneg _
    · exact_mod_cast hin
  case gate =>
    rw [halfPieces_addr] at hgate
    exact hgate

/-- A pad half's access has strand scope, which revision 1 widens to block (R69, R251). -/
theorem mStorage_mWord_scope (c : Ctx) (p : PHalf) (store : Bool) : (mStorage c (PHalf.mWord p) store).scope ≤ 1 := by
  show (if _ then max 1 0 else 0) ≤ 1
  split <;> decide

theorem halfPieces_stp {p : PHalf} (h : p.hop = .stp) (c : Ctx) : halfPieces p c =
    (halfLanes p c).map fun t => ⟨t, halfAddr p c t, 4, .store (bytesOf 4 (c.val p.u p.d t).toNat), none⟩ := by
  simp only [halfPieces, if_pos h]
  rfl

theorem halfPieces_ldp {p : PHalf} (h : p.hop ≠ .stp) (c : Ctx) : halfPieces p c =
    (halfLanes p c).map fun t => ⟨t, halfAddr p c t, 4, .load false, some ⟨p.u, p.d.toNat, t, none⟩⟩ := by
  simp only [halfPieces, if_neg h]
  rfl

/-- A pad half that reaches what it accesses issues its pieces. -/
theorem PHalf.access_pad {p : PHalf} {c : Ctx} (hrd : c.rd = c.k) (hrdT : c.rdT = []) (hpad : p.hop.pad = true)
    (hpieces : ∀ e ∈ halfPieces p c, e.addr % 4 = 0 ∧ e.addr + 4 ≤ c.la.corePad)
    (hgate : (halfAct p c).gate (mStorage c (PHalf.mWord p) (p.hop == .stp)) ((halfPieces p c).map Piece.addr) = none) :
    PHalf.access p c = .done (padIssued p c c.s) := by
  have htargets : targets (halfAct p c) p.u (PHalf.addr p (halfAct p c)) = (halfLanes p c).map fun t => (t, halfAddr p c t) := rfl
  unfold PHalf.access padIssued
  rw [PHalf.ctx_eq hrd hrdT]
  dsimp only
  rw [hpad, if_neg (by decide), apply_ite Verdict.done]
  refine (Ctx.storage_of_reaches (reaches_pad hpieces hgate) _).trans (ite_congr rfl (fun _ => rfl) fun _ => ?_)
  show (if _ then Ctx.store _ _ _ _ (List.map _ (targets _ p.u _)) else Verdict.done (Ctx.issue _ _ (List.map _ (targets _ p.u _)) _)) = _
  rw [htargets, List.map_map, List.map_map]
  by_cases hstp : p.hop = .stp
  · rw [if_pos (beq_iff_eq.2 hstp), halfPieces_stp hstp]
    exact Ctx.store_core rfl (mStorage_mWord_scope ..) ..
  · rw [if_neg (mt beq_iff_eq.1 hstp), halfPieces_ldp hstp]
    rfl

/-! ## The word -/

/-- The halves of a P word, and the threads that are active for either (R72). -/
def halves (x : PWord) : List PHalf := [x.h0, x.h1]
def actP (x : PWord) (c : Ctx) : Word := c.k.active x.h0.g false ||| c.k.active x.h1.g false

/-- The guards that a P word reads. -/
def guardsP (x : PWord) : List Loc := (((halves x).map PHalf.g).filter (· ≠ 0)).map fun g => .m g.toNat

theorem pSpec_full_reads (x : PWord) (c : Ctx) : (pSpec x c).full.reads = guardsP x ++ (halves x).flatMap PHalf.reads := by
  refine congrArg (· ++ _) (congrArg (List.map _) (List.filter_congr fun g _ => ?_))
  rw [bne, decide_not]
  rfl

/-- The pairing rules give both halves one U (R71). -/
theorem paired_u {x : PWord} (h : PWord.paired x = true) : x.h0.u = x.h1.u := by
  simp only [PWord.paired, Bool.and_eq_true, beq_iff_eq] at h
  exact h.1.1.2

/-- The pairing rules allow one pad half (R71). -/
theorem paired_pad {x : PWord} (h : PWord.paired x = true) : x.h0.hop.pad = false ∨ x.h1.hop.pad = false := by
  simp only [PWord.paired, Bool.and_eq_true, Bool.not_eq_true', Bool.and_eq_false_iff] at h
  exact h.2

theorem pSpec_checks {x : PWord} {c : Ctx} (hpaired : PWord.paired x = true)
    (hrange : ∀ p ∈ halves x, InRange c p.u (nums (PHalf.vec p)) ∧ (p.hop.mask = true → p.d ≠ 0)) :
    (pSpec x c).checks.find? Prod.fst = none := by
  have hu : ∀ p ∈ halves x, p.u = x.h0.u := List.forall_mem_cons.2 ⟨rfl, List.forall_mem_singleton.2 (paired_u hpaired).symm⟩
  have hm0 : ((halves x).any fun p => p.hop.mask && p.d == 0) = false := List.any_eq_false.2 fun p hp => by simpa using (hrange p hp).2
  show List.find? _ ((_, _) :: Regs.checks _ _ _) = _
  rw [hpaired]
  refine Regs.checks_none (fun r hr => ?_) nofun nofun nofun nofun rfl rfl nofun hm0
  obtain ⟨p, hp, hmem⟩ := List.mem_flatMap.1 hr
  rw [← hu p hp]
  exact (hrange p hp).1 _ (List.mem_map_of_mem hmem)

/-- Both halves' results, as the word delivers them. -/
theorem halvesDone_eq {x : PWord} {c : Ctx} (hrd : c.rd = c.k) (hrdT : c.rdT = []) :
    (c.k.deliverHalf x.h0 c).deliverHalf x.h1 c = halvesDone x c := by
  rw [deliverHalf_eq hrd hrdT, deliverHalf_eq hrd hrdT]
  rfl

/-- A P word that may go on completes with its results and the accesses of its halves, the first half's before the second's. -/
theorem pWord_effects {x : PWord} {s : State} {c : Ctx} {e : Ctx → State}
    (hr : Ready s c (guardsP x ++ (halves x).flatMap PHalf.reads) ((halves x).flatMap PHalf.writes)) (hpaired : PWord.paired x = true)
    (hrange : ∀ p ∈ halves x, InRange c p.u (nums (PHalf.vec p)) ∧ (p.hop.mask = true → p.d ≠ 0))
    (hiv : c.k.ivt = true → ∀ p ∈ halves x, ∀ e ∈ halfOuts p c, hasIV e.2.fl = false)
    (hgo : ∀ start, let c' := c.seen (actP x c) start
      (∃ a, PHalf.access x.h0 c' = .done a) ∧ (∃ a, PHalf.access x.h1 c' = .done a)
        ∧ ∃ t, PHalf.access x.h0 { c' with s := c'.with (halvesDone x c') } = .done t ∧ PHalf.access x.h1 { c' with s := t } = .done (e c'))
    (hk : ∀ start, ((e (c.seen (actP x c) start)).strand? c.r).isSome) : Effects (.pWord x) s c (actP x c) e := by
  obtain ⟨-, -, -, -, -, hrd, -, -⟩ := State.ctx?_eq hr.focus
  have hrdT := State.ctx?_rdT hr.focus
  refine word_effects (execPWord.eq_def x s) ?ready (pSpec_checks hpaired hrange) nofun rfl rfl rfl (fun start => ?effect) hk
  case ready =>
    rw [pSpec_full_reads]
    exact hr
  case effect =>
    obtain ⟨⟨a0, h0⟩, ⟨a1, h1⟩, t, hfirst, hsecond⟩ := hgo start
    have hv : ∀ p ∈ halves x, PHalf.verdict p (c.seen (actP x c) start) = PHalf.access p (c.seen (actP x c) start) :=
      fun p hp => PHalf.verdict_eq (c := c.seen (actP x c) start) hrd hrdT fun hivt => hiv hivt p hp
    rw [hv x.h0 (by simp [halves]), hv x.h1 (by simp [halves]), h0, h1]
    dsimp only
    rw [halvesDone_eq (c := c.seen (actP x c) start) hrd hrdT]
    rw [Ctx.with] at hfirst
    rw [hfirst]
    exact hsecond

/-- Settles O11: either half delivers from the registers before the word, and the one that may access the pad issues its pieces. -/
theorem pairedHalves : Obligations.PairedHalves := by
  intro x s c hs act hr hpaired hrange hiv
  obtain ⟨-, -, -, -, -, hrd, -, -⟩ := State.ctx?_eq hr.focus
  have hrdT := State.ctx?_rdT hr.focus
  refine ⟨?computing, ?pad⟩
  case computing =>
    intro h0 h1
    rw [computing_iff] at h0 h1
    exact pWord_effects hr hpaired hrange hiv (fun start => ⟨⟨_, PHalf.access_computing h0 _⟩, ⟨_, PHalf.access_computing h1 _⟩, _,
      PHalf.access_computing h0 _, PHalf.access_computing h1 _⟩) fun start => with_isSome _ _
  case pad =>
    intro p hp hpad m hpieces hgate
    rw [computing_iff, Bool.not_eq_false] at hpad
    have hgo : ∀ start, PHalf.access p (c.seen act start) = .done (padIssued p (c.seen act start) c.s) := fun start =>
      PHalf.access_pad (c := c.seen act start) hrd hrdT hpad hpieces hgate
    have hissue : ∀ start k, PHalf.access p { c.seen act start with s := (c.seen act start).with k } =
        .done (padIssued p (c.seen act start) ((c.seen act start).with k)) := fun start k =>
      PHalf.access_pad (c := { c.seen act start with s := (c.seen act start).with k }) hrd hrdT hpad hpieces hgate
    refine pWord_effects hr hpaired hrange hiv (fun start => ?_) fun start =>
      padIssued_isSome (c := c.seen act start) (with_isSome (c.seen act start) _)
    rcases List.mem_cons.1 hp with rfl | hp
    · have h1 : x.h1.hop.pad = false := (paired_pad hpaired).resolve_left (by simp [hpad])
      exact ⟨⟨_, hgo start⟩, ⟨_, PHalf.access_computing h1 _⟩, _, hissue start _, PHalf.access_computing h1 _⟩
    · obtain rfl := List.mem_singleton.1 hp
      have h0 : x.h0.hop.pad = false := (paired_pad hpaired).resolve_right (by simp [hpad])
      exact ⟨⟨_, PHalf.access_computing h0 _⟩, ⟨_, hgo start⟩, _, PHalf.access_computing h0 _, hissue start _⟩

end Sys2Proof.Machine
end

section
/-!
SUPPORT. Floating-point words (R104, R105, R133): a word of modified sources that delivers one jet result completes with it.
-/
namespace Sys2Proof.Machine
open Sys2Proof.Fp (JOut)
open Sys2Proof.Claims

/-- Every word of `fpWord` meets what a jet word is to do. -/
theorem fpWord_jetWord {i : Instr} {x : F} {srcs : List (BitVec 7)} {lat : Option Nat} {slots : Nat → Nat} {f : Ctx → Nat → JOut}
    (he : ∀ s, exec i s = fpWord i x srcs lat slots f s) : JetWord i x srcs f :=
  shapeOf_computes he fun _ _ _ => ⟨rfl, rfl, rfl, List.pairwise_singleton ..⟩

/-- Settles O4: the six words deliver one jet result from their sources, the immediate forms with RN and no modifier. -/
theorem floatArithmetic : Obligations.FloatArithmetic := by
  refine ⟨fun x => ⟨?fadd, ?fmul, ?ffma, ?fscale⟩, fun x => ⟨?faddi, ?fmuli⟩⟩
  case fadd => exact fpWord_jetWord (execFadd.eq_def x)
  case fmul => exact fpWord_jetWord (execFmul.eq_def x)
  case ffma => exact fpWord_jetWord (execFfma.eq_def x)
  case fscale => exact fpWord_jetWord (execFscale.eq_def x)
  case faddi => exact shapeOf_computes (execFaddi.eq_def x) fun _ _ _ => ⟨rfl, rfl, rfl, List.pairwise_singleton ..⟩
  case fmuli => exact shapeOf_computes (execFmuli.eq_def x) fun _ _ _ => ⟨rfl, rfl, rfl, List.pairwise_singleton ..⟩

end Sys2Proof.Machine
end

section
/-!
SUPPORT. A block leaves the machine together with its strands (R341): whatever a commit does (R233, R234, R358, R384), where the block of a
strand is still there, so is the strand.
-/
namespace Sys2Proof.Machine

variable {s t : State} {r : StrandRef}

/-- Where the block of a strand is in the machine, the strand is too. -/
structure State.Houses (s : State) (r : StrandRef) : Prop where
  strand : (s.block? r.blk).isSome → (s.strand? r).isSome

/-- An operation that brings in no block and takes out no strand. -/
theorem State.Houses.mono (h : s.Houses r) (hb : (t.block? r.blk).isSome → (s.block? r.blk).isSome)
    (hs : (s.strand? r).isSome → (t.strand? r).isSome) : t.Houses r :=
  ⟨fun ht => hs (h.strand (hb ht))⟩

theorem State.Houses.only {pts : List Part} (h : s.Houses r) (ho : Only pts s t) (hb : .blocks ∉ pts) (hs : .strands ∉ pts) : t.Houses r := by
  refine h.mono (fun ht => ho.block?_eq hb r.blk ▸ ht) fun hk => ?_
  rwa [State.strand?, ho.strands hs]

theorem State.Houses.foldl {α : Type} {f : State → α → State} (hf : ∀ s e, s.Houses r → (f s e).Houses r) (l : List α) (h : s.Houses r) :
    (l.foldl f s).Houses r := by
  induction l generalizing s with
  | nil => exact h
  | cons e l ih => exact ih (hf s e h)

/-! ## Strands and blocks in their tables -/

theorem Table.isSome_get?_put {κ α : Type} [DecidableEq κ] (t : Table κ α) (k j : κ) (v : α) :
    (Table.get? (Table.put t k v) j).isSome ↔ k = j ∨ (Table.get? t j).isSome := by
  rw [Table.get?_put]
  split <;> simp_all

theorem Table.isSome_get?_mod {κ α : Type} [DecidableEq κ] (t : Table κ α) (k j : κ) (f : α → α) :
    (Table.get? (Table.mod t k f) j).isSome = (Table.get? t j).isSome := by
  rw [Table.get?_mod]
  split <;> simp

/-- A filter by key keeps the records of the keys that pass. -/
theorem Table.get?_filter {κ α : Type} [DecidableEq κ] (t : Table κ α) (p : κ → Bool) {k : κ} (hk : p k = true) :
    Table.get? (t.filter fun e => p e.1) k = Table.get? t k := by
  induction t with
  | nil => rfl
  | cons e t ih =>
    obtain ⟨a, x⟩ := e
    by_cases ha : a = k
    · subst ha
      rw [List.filter_cons, if_pos hk, Table.get?, Table.get?, if_pos rfl, if_pos rfl]
    · rw [Table.get?, if_neg ha, ← ih, List.filter_cons]
      split
      · rw [Table.get?, if_neg ha]
      · rfl

theorem State.Houses.setStrand (h : s.Houses r) (q : StrandRef) (k : Strand) : (s.setStrand q k).Houses r :=
  h.mono id fun hk => (Table.isSome_get?_put ..).2 (.inr hk)

theorem State.Houses.modStrand (h : s.Houses r) (q : StrandRef) (f : Strand → Strand) : (s.modStrand q f).Houses r :=
  h.mono id fun hk => (Table.isSome_get?_mod ..).trans hk

theorem State.Houses.modBlock (h : s.Houses r) (blk : Nat) (f : Block → Block) : (s.modBlock blk f).Houses r :=
  h.mono (fun hb => (Table.isSome_get?_mod ..).symm.trans hb) id

theorem State.Houses.setBlock {blk : Nat} {b : Block} (h : s.Houses r) (hb : s.block? blk = some b) (b' : Block) : (s.setBlock blk b').Houses r := by
  refine h.mono (fun ht => ?_) id
  rcases (Table.isSome_get?_put ..).1 ht with rfl | ht
  · rw [hb]; rfl
  · exact ht

theorem State.Houses.modLaunch (h : s.Houses r) (l : Nat) (f : Launch → Launch) : (s.modLaunch l f).Houses r := h.mono id id

theorem State.Houses.setLaunch (h : s.Houses r) (l : Nat) (la : Launch) : (s.setLaunch l la).Houses r := h.mono id id

theorem State.Houses.emit (h : s.Houses r) (fe lid : Nat) (code : Cause) (src : Src) (unit : Nat) (pay : List Byte) (sub : Nat) :
    (s.emit fe lid code src unit pay sub).Houses r :=
  h.only (State.emit_only (.refl recordParts s) .same) (by decide) (by decide)

theorem State.Houses.noteStalls (h : s.Houses r) (core : Nat) : (s.noteStalls core).Houses r := by
  refine h.mono (fun hb => ?_) id
  simp only [State.block?, State.noteStalls] at hb
  rwa [Table.get?_map _ _ (fun e => by split; rfl; split; rfl; split <;> rfl), Option.isSome_map] at hb

/-! ## Blocks that are killed -/

/-- A state in which a block is gone with its strands. -/
theorem State.Houses.without {blk : Nat} (h : s.Houses r) (hb : t.blocks = s.blocks.drop blk) (hs : t.strands = (s.dropStrands blk).strands) :
    t.Houses r := by
  by_cases hr : blk = r.blk
  · refine ⟨fun ht => ?_⟩
    rw [State.block?, hb, Table.get?_drop, if_pos hr] at ht
    cases ht
  · refine h.mono (fun ht => ?_) fun hk => ?_
    · rwa [State.block?, hb, Table.get?_drop, if_neg hr] at ht
    · rw [State.strand?, hs]
      exact (congrArg Option.isSome (Table.get?_filter s.strands (fun q => q.blk != blk) (bne_iff_ne.2 (Ne.symm hr)))).trans hk

theorem State.Houses.killBlock (h : s.Houses r) (blk : Nat) : (s.killBlock blk).Houses r := by
  have hlines : ((s.ops.filter fun e => e.2.blk == blk).foldl (fun s e => s.endLines e.2) s).Houses r :=
    h.only (Only.foldl (fun _ _ ho => State.endLines_only ho .same) (.refl recordParts s)) (by decide) (by decide)
  unfold State.killBlock
  refine State.Houses.noteStalls ?_ _
  exact hlines.without rfl rfl

theorem State.Houses.abandonShadow (h : s.Houses r) (blk : Nat) : (s.abandonShadow blk).Houses r := by
  unfold State.abandonShadow
  split
  · exact h
  · dsimp only
    refine State.Houses.emit (State.Houses.killBlock ?_ blk) ..
    split
    · exact h.modBlock ..
    · exact h

theorem State.Houses.failLaunch (h : s.Houses r) (l : Nat) (c : Cause) (sub : Nat) (pay : List Byte) : (s.failLaunch l c sub pay).Houses r := by
  unfold State.failLaunch
  split
  · exact h
  · split
    · exact h
    · exact ((h.setLaunch ..).foldl (fun _ _ ht => ht.killBlock _) _).emit ..

theorem State.Houses.relaunch (h : s.Houses r) (blk : Nat) : (s.relaunch blk).Houses r := by
  have hpair : (s.abandonPair blk).Houses r := by
    unfold State.abandonPair
    split
    · exact h.abandonShadow _
    · exact h
  have hrequeue : ∀ t : State, t.Houses r → (t.requeue blk).Houses r := by
    intro t ht
    unfold State.requeue
    split
    · exact ht
    · exact (ht.killBlock blk).modLaunch ..
  unfold State.relaunch
  split
  · exact h
  · split
    · exact h
    · dsimp only
      split
      · exact h.failLaunch ..
      · exact (hrequeue _ (hpair.modLaunch ..)).emit ..

/-! ## Faults of a commit -/

theorem State.Houses.consume {blk : Nat} {cause : Cause} (h : s.Houses r) (e : s.consume blk cause = some t) : t.Houses r := by
  unfold State.consume at e
  repeat' split at e
  all_goals cases e
  · exact h.abandonShadow blk
  · exact h.relaunch blk
  · exact h.failLaunch ..

theorem State.Houses.unheard (h : s.Houses r) (blk : Nat) (b : Block) (f : HeldFault) : (s.unheard blk b f).Houses r := by
  unfold State.unheard State.blockFails
  split
  · exact h.abandonShadow blk
  · exact h.failLaunch ..

theorem State.Houses.asyncFault (h : s.Houses r) (q : StrandRef) (f : HeldFault) : (s.asyncFault q f).Houses r := by
  unfold State.asyncFault
  split
  · next e => exact h.consume e
  · split
    · split
      · exact h.unheard ..
      · exact h.setStrand ..
    · exact h.unheard ..
    · split
      · exact h.failLaunch ..
      · exact h

/-! ## Commits -/

theorem commitEntry_houses {blk : Nat} {b : Block} {la : Launch} {w : Author} {again : Hold} {c : Committing} {e : Buffered} (h : c.s.Houses r) :
    (commitEntry blk b la w again c e).s.Houses r := by
  unfold commitEntry
  split
  split
  · dsimp only
    split
    · exact h
    · exact h.only (State.refault_only (.refl _ c.s) .same) (by decide) (by decide)
  · exact h
  · split
    · exact h
    · dsimp only
      split
      · exact h
      · next p _ _ _ bs _ =>
        have hpage : ∀ {size : Nat} {z : Author}, ((((c.s.writePage (c.s.fe la.fe) p bs z).countMem la.fe 6 size p).traffic la.fe p)).Houses r :=
          fun {_ _} => ((h.only (State.writePage_only (.refl _ c.s) .same) (by decide) (by decide)).only
            (State.countMem_only (.refl _ _) .same) (by decide) (by decide)).only (State.traffic_only (.refl _ _) .same) (by decide) (by decide)
        dsimp only
        split
        · exact hpage.only (State.cellEvents_only (.refl _ _) .same) (by decide) (by decide)
        · exact hpage

theorem State.Houses.afterCommit (h : s.Houses r) (blk : Nat) (spans : List Span) (who : Option CommitBy) (b : Block) :
    (s.afterCommit blk spans who b).Houses r := by
  have hmap : ∀ g : StrandRef × Strand → StrandRef × Strand, (∀ e, (g e).1 = e.1) → ∀ t : State, t.blocks = s.blocks →
      t.strands = s.strands.map g → t.Houses r := by
    intro g hg t hb hs
    refine h.mono (fun ht => ?_) fun hk => ?_
    · rwa [State.block?, hb] at ht
    · rwa [State.strand?, hs, Table.get?_map _ _ hg, Option.isSome_map]
  unfold State.afterCommit
  dsimp only
  split
  · exact h
  · split
    · exact hmap _ (fun e => by split <;> rfl) _ rfl rfl
    · refine State.Houses.modStrand ?_ _ _
      exact hmap _ (fun e => by split <;> rfl) _ rfl rfl

theorem State.Houses.commitList (h : s.Houses r) (blk : Nat) (es : List Buffered) (who : Option CommitBy) (again : Hold) :
    (s.commitList blk es who again).Houses r := by
  have hentries : ∀ (b : Block) (la : Launch) (w : Author) (es : List Buffered) (c : Committing), c.s.Houses r →
      (es.foldl (commitEntry blk b la w again) c).s.Houses r := by
    intro b la w es
    induction es with
    | nil => exact fun _ hc => hc
    | cons e es ih => exact fun c hc => ih _ (commitEntry_houses hc)
  unfold State.commitList
  split
  · refine State.Houses.foldl (fun t e ht => ?_) _ (((hentries _ _ _ es _ h).modBlock ..).afterCommit ..)
    split
    · exact ht
    · split
      · exact ht.asyncFault ..
      · exact ht.failLaunch ..
  · exact h

theorem State.Houses.commit (h : s.Houses r) (blk : Nat) (who : Option CommitBy) : (s.commit blk who).Houses r := by
  unfold State.commit
  split
  · exact h
  · next b hb =>
    split
    · exact h
    · split
      · have hclean := h.setBlock hb { b with bufBad := [] }
        dsimp only
        split
        · exact hclean.asyncFault ..
        · cases hc : State.consume _ blk Cause.eccStorebuf with
          | none => exact hclean.failLaunch ..
          | some t => exact hclean.consume hc
      · exact (h.setBlock hb _).commitList ..

theorem State.Houses.bufferEntry (h : s.Houses r) (blk : Nat) (e : Buffered) : (s.bufferEntry blk e).Houses r := h.modBlock ..

theorem State.Houses.forceCommit (h : s.Houses r) (w : CommitBy) (b : Block) : (s.forceCommit w b).Houses r := (h.commit ..).emit ..

theorem State.Houses.bufferFrom {w : CommitBy} {busy : Bool} {es : List Buffered} {n : Nat} (h : s.Houses r) :
    (s.bufferFrom w busy es n).1.Houses r := by
  induction es generalizing s n with
  | nil => exact h
  | cons e es ih =>
    unfold State.bufferFrom
    split
    · exact h
    · next b _ =>
      split
      · exact ih (h.bufferEntry ..)
      · split
        · exact h
        · dsimp only
          have hforced := h.forceCommit w b
          split
          · exact hforced
          · split
            · exact hforced
            · refine ih ?_
              split
              · exact (hforced.bufferEntry ..).commit ..
              · exact hforced.bufferEntry ..

end Sys2Proof.Machine
end

section
/-!
SUPPORT. LD and ST (R231 to R235, R253 to R256): the registers that an M word names, the units of a thread, and what the stores of a word do
where nothing keeps them waiting.
-/
namespace Sys2Proof.Machine
open Sys2Proof.Claims

/-! ## The registers of an M word -/

variable {x : M} {c : Ctx} {m : Storage} {ps : List Piece}

theorem one_le_widthRegs (w : Nat) : 1 ≤ widthRegs w := by
  unfold widthRegs
  split <;> decide

theorem groupOf_one (r : BitVec 7) : groupOf r 1 = [r.toNat] := rfl
theorem groupOf_two (r : BitVec 7) : groupOf r 2 = [r.toNat, r.toNat + 1] := rfl

theorem field_eq_7F (r : BitVec 7) : r.toNat = 0x7F ↔ r = 0x7F#7 := BitVec.toNat_inj (y := 0x7F#7)
theorem width_eq_5 (w : BitVec 3) : w.toNat = 5 ↔ w = 5#3 := BitVec.toNat_inj (y := 5#3)
theorem width_eq_4 (w : BitVec 3) : w.toNat = 4 ↔ w = 4#3 := BitVec.toNat_inj (y := 4#3)

/-- What an M word reads, as its Spec lists it: its address, and a store's data (R65). -/
theorem mShape_reads (haw : x.aw = true → x.a ≠ 0x7F) (store : Bool) (slots : Nat) :
    ∀ l ∈ (mShape x store slots).src.map (fun r => locOf x.h.u r.toNat) ++ (mShape x store slots).reads,
      l ∈ addrM x ++ if store then dataM x else [] := by
  have hdata : ((List.range (widthRegs x.w.toNat)).map fun i => x.d.toNat + i).map (locOf x.h.u) = dataM x := rfl
  intro l hl
  by_cases ha : x.a = 0x7F#7
  · have hnarrow : x.aw = false := by simpa [ha] using haw
    simpa [mShape, addrM, field_eq_7F, ha, hnarrow, hdata] using hl
  · have hsrc : (mShape x store slots).src.map (fun r => locOf x.h.u r.toNat) = [locOf x.h.u x.a.toNat] := by simp [mShape, field_eq_7F, ha]
    rw [hsrc] at hl
    cases hw : x.aw with
    | true => simpa [mShape, addrM, ha, hw, vecLocs, groupOf_two, hdata, or_assoc] using hl
    | false => simpa [mShape, addrM, ha, hw, vecLocs, groupOf_one, hdata] using hl

theorem mShape_writes (x : M) (slots : Nat) : (mShape x false slots).dst.map (locOf x.h.u) ++ (mShape x false slots).writes = dataM x :=
  List.append_nil _

/-- A wide address stands in a register (R253). -/
theorem okM_address (h : okM x c) (haw : x.aw = true) : x.a ≠ 0x7F := by
  obtain ⟨-, -, -, -, hwide, -, -⟩ := h
  exact (hwide haw).1

/-- The checks of R56 pass for an M word whose fields are in range. -/
theorem mShape_checks (h : okM x c) (store : Bool) (slots : Nat) :
    ((mShape x store slots).regs.checks c x.h.u ++ (mShape x store slots).own).find? Prod.fst = none := by
  obtain ⟨hdata, heven, hjet, ha, haw, hsb, hu⟩ := h
  have hone := one_le_widthRegs x.w.toNat
  have hd : ∀ i < widthRegs x.w.toNat, if x.h.u then x.d.toNat + i < 64 else x.d.toNat + i < c.la.nregs := fun i hi =>
    hdata _ (List.mem_map_of_mem (List.mem_range.2 hi))
  show (Regs.checks _ c x.h.u ++ []).find? Prod.fst = none
  rw [List.append_nil]
  refine Regs.checks_none ?vec ?span ?even nofun ?jets ?range rfl ?uniform rfl
  case vec =>
    refine List.forall_mem_cons.2 ⟨hd 0 hone, ?_⟩
    by_cases h7F : x.a = 0x7F#7
    · simp [h7F]
    · simpa [field_eq_7F, h7F, InRange] using ha h7F
  case span =>
    refine List.forall_mem_cons.2 ⟨?_, ?_⟩
    · have := hd (widthRegs x.w.toNat - 1) (by omega)
      rwa [← Nat.add_sub_assoc hone] at this
    · cases hw : x.aw with
      | false => nofun
      | true => exact (haw hw).2.2
  case even =>
    refine fun r hr => ?_
    rcases List.mem_append.1 hr with hr | hr
    · by_cases h3 : 3 ≤ x.w.toNat
      · rw [if_pos h3, List.mem_singleton] at hr
        exact hr ▸ heven h3
      · simp [h3] at hr
    · cases hw : x.aw with
      | false => simp [hw] at hr
      | true =>
        rw [hw, if_pos rfl, List.mem_singleton] at hr
        exact hr ▸ (haw hw).2.1
  case jets =>
    by_cases h5 : x.w = 5#3
    · simpa [mShape, h5] using hjet h5
    · simp [mShape, width_eq_5, h5]
  case range =>
    have hodd : x.sb.getLsbD 0 = false := by simp [BitVec.getLsbD, Nat.testBit_zero, hsb]
    have hwide : (x.aw && decide (x.a.toNat = 0x7F)) = false := by
      cases hw : x.aw with
      | false => rfl
      | true => simpa [field_eq_7F] using (haw hw).1
    show (x.sb.getLsbD 0 || (x.aw && decide (x.a.toNat = 0x7F))) = false
    rw [hodd, hwide]
    rfl
  case uniform =>
    cases huni : x.h.u with
    | false => exact fun _ => rfl
    | true =>
      obtain ⟨h7F, hnarrow, h5⟩ := hu huni
      have h5 : ¬ x.w = 5#3 := h5
      simp [mShape, h7F, hnarrow, width_eq_5, h5]

/-! ## Units -/

theorem unitsOf_eq (c : Ctx) (x : M) (t a : Nat) (kind : Nat → Nat → AccKind) (dst : Nat → Option Dst) :
    unitsOf c x t a kind dst = unitsAt c x t a kind dst := by
  simp only [unitsOf, unitsAt, width_eq_5, width_eq_4, Bool.and_eq_true, bne_iff_ne, ne_eq, decide_eq_true_eq]
  rfl

/-! ## Stores -/

theorem Ctx.commitScope_eq (c : Ctx) (m : Storage) (ps : List Piece) : c.commitScope m ps = windowScope c m (ps.map Piece.addr) := by
  have hany : (ps.any fun p => c.s.inWindow c.la.fe p.addr) = true ↔ ∃ a ∈ ps.map Piece.addr, c.s.inWindow c.la.fe a = true := by
    rw [← List.any_eq_true, List.any_map]
    exact Iff.rfl
  unfold Ctx.commitScope windowScope
  simp only [Bool.and_eq_true, beq_iff_eq, hany]

/-- A word whose commit is done goes on after it (R232, R234). -/
theorem Ctx.committed_of_done {scope : Nat} (h : commitDone c scope) (go : State → Verdict) : c.committed go scope = go (afterCommit c scope) := by
  unfold Ctx.committed
  by_cases hc : c.la.contained = true
  · obtain ⟨hwait, b, hb, hheld, hbuf⟩ := h hc
    have hstate : afterCommit c scope = c.s.commit c.r.blk (some (c.commitBy scope)) := if_pos hc
    rw [hstate] at hb ⊢
    simp [hc, hwait, hb, hheld, hbuf]
  · simp [hc, afterCommit]

/-- Units that the buffer takes without a wait (R231). -/
theorem Ctx.bufferPieces_of_taken {scope n : Nat} {s : State}
    (h : (s.bufferFrom (c.commitBy scope) (c.s.orderWait c.r).isSome ((ps.filterMap Piece.entry).drop n) n).2 = none)
    (hb : ((s.bufferFrom (c.commitBy scope) (c.s.orderWait c.r).isSome ((ps.filterMap Piece.entry).drop n) n).1.block? c.r.blk).isSome)
    (go : State → Verdict) :
    c.bufferPieces scope ps n s go = go (s.bufferFrom (c.commitBy scope) (c.s.orderWait c.r).isSome ((ps.filterMap Piece.entry).drop n) n).1 := by
  unfold Ctx.bufferPieces
  split
  · next t ht =>
    rw [ht] at hb ⊢
    exact if_pos hb
  · next ht =>
    rw [ht] at h
    cases h

/-- The units of a word that are no release wider than block, and those that are. -/
def narrowUnits (c : Ctx) (m : Storage) (ps : List Piece) : List Piece := ps.filter fun p => !(wideUnit c m p)
def wideUnits (c : Ctx) (m : Storage) (ps : List Piece) : List Piece := ps.filter (wideUnit c m)

/-- The branches of a word's stores (R231, R232, R357), with the units named by the scope of their release. -/
theorem Ctx.store_eq (c : Ctx) (m : Storage) (w : Nat) (stores : List (Nat × List Byte)) (ps : List Piece) : c.store m w stores ps =
    let go := fun s => Verdict.done (c.screened m.space w stores s)
    if c.b.shadow && m.space != .core then go c.s
    else if !c.la.contained then go (c.issue m ps c.s)
    else if m.space == .core then
      if (wideUnits c m ps).isEmpty then go (c.issue m ps c.s) else c.committed (fun s => go (c.issue m ps s)) (storeScope c m ps)
    else if m.space != .device then c.committed (fun s => go (c.issue m ps s)) (storeScope c m ps)
    else match c.k.wait with
      | .buffered n => c.bufferPieces m.scope (narrowUnits c m ps) n c.s go
      | _ =>
        if (wideUnits c m ps).isEmpty then c.bufferPieces m.scope (narrowUnits c m ps) 0 c.s go
        else c.committed (fun s => c.bufferPieces m.scope (narrowUnits c m ps) 0 (c.issue m (wideUnits c m ps) s) go) (storeScope c m ps) := by
  unfold storeScope
  rw [← Ctx.commitScope_eq]
  rfl

theorem wideUnits_isEmpty (c : Ctx) (m : Storage) (ps : List Piece) : (wideUnits c m ps).isEmpty = true ↔ ps.any (wideUnit c m) = false := by
  simp [wideUnits]

/-- A word that a forced commit held up goes on in the buffer (R230, R234). -/
theorem buffered_resumed {n : Nat} (hw : c.k.wait = .buffered n) : buffered c m ps =
    c.s.bufferFrom (c.commitBy m.scope) (c.s.orderWait c.r).isSome (((narrowUnits c m ps).filterMap Piece.entry).drop n) n := by
  unfold buffered
  simp only [hw, true_or, if_true]
  rfl

/-- A word begins with its wide units, which a commit precedes (R232). -/
theorem buffered_first (hw : ∀ n, c.k.wait ≠ .buffered n) : buffered c m ps =
    (if (wideUnits c m ps).isEmpty then c.s else c.issue m (wideUnits c m ps) (afterCommit c (storeScope c m ps))).bufferFrom (c.commitBy m.scope)
      (c.s.orderWait c.r).isSome (((narrowUnits c m ps).filterMap Piece.entry).drop 0) 0 := by
  unfold buffered
  split
  · next n hn => exact absurd hn (hw n)
  · simp only [hw, false_or, wideUnits_isEmpty]
    rfl

section
variable (hshadow : c.b.shadow = false) (hcont : c.la.contained = true) (hdev : m.space = .device) (w : Nat) (stores : List (Nat × List Byte))
include hshadow hcont hdev

theorem Ctx.store_resumed {n : Nat} (hn : c.k.wait = .buffered n) : c.store m w stores ps =
    c.bufferPieces m.scope (narrowUnits c m ps) n c.s fun s => .done (c.screened m.space w stores s) := by
  simp [Ctx.store_eq, hshadow, hcont, hdev, hn]

theorem Ctx.store_first (hfirst : ∀ n, c.k.wait ≠ .buffered n) : c.store m w stores ps =
    if (wideUnits c m ps).isEmpty then c.bufferPieces m.scope (narrowUnits c m ps) 0 c.s fun s => .done (c.screened m.space w stores s)
    else c.committed (fun s => c.bufferPieces m.scope (narrowUnits c m ps) 0 (c.issue m (wideUnits c m ps) s)
      fun s => .done (c.screened m.space w stores s)) (storeScope c m ps) := by
  cases hw : c.k.wait with
  | buffered n => exact absurd hw (hfirst n)
  | _ => simp [Ctx.store_eq, hshadow, hcont, hdev, hw]

/-- Stores of a contained block to device memory are put in the buffer, and the wide units issued before them after a commit (R231, R232). -/
theorem Ctx.store_device (h : storeFree c m ps) : c.store m w stores ps = .done (c.screened m.space w stores (buffered c m ps).1) := by
  obtain ⟨-, hcommit, hbuf⟩ := h hcont (.inl hshadow)
  obtain ⟨htaken, hblock⟩ := hbuf hdev
  by_cases hw : ∃ n, c.k.wait = .buffered n
  · obtain ⟨n, hn⟩ := hw
    rw [buffered_resumed hn] at htaken hblock ⊢
    rw [Ctx.store_resumed hshadow hcont hdev w stores hn]
    exact Ctx.bufferPieces_of_taken htaken hblock _
  · have hfirst : ∀ n, c.k.wait ≠ .buffered n := not_exists.1 hw
    rw [buffered_first hfirst] at htaken hblock ⊢
    rw [Ctx.store_first hshadow hcont hdev w stores hfirst]
    by_cases hwide : (wideUnits c m ps).isEmpty = true
    · rw [if_pos hwide] at htaken hblock ⊢
      rw [if_pos hwide]
      exact Ctx.bufferPieces_of_taken htaken hblock _
    · rw [if_neg hwide] at htaken hblock ⊢
      rw [if_neg hwide, Ctx.committed_of_done (hcommit hdev hfirst (Bool.not_eq_false _ ▸ mt (wideUnits_isEmpty c m ps).2 hwide))]
      exact Ctx.bufferPieces_of_taken htaken hblock _

end

/-- Stores that do not stay in a shadow's hash (R357). -/
theorem plain_or_core (h : ¬ (c.b.shadow = true ∧ m.space ≠ .core)) : c.b.shadow = false ∨ m.space = .core := by
  cases hshadow : c.b.shadow with
  | false => exact .inl rfl
  | true => exact .inr (Decidable.not_not.1 fun hcore => h ⟨hshadow, hcore⟩)

/-- Stores that are not issued at once are a contained block's, and leave the core or are wider than block. -/
theorem contained_of_not_direct (h : ¬ (c.la.contained = false ∨ (m.space = .core ∧ ps.any (wideUnit c m) = false))) :
    c.la.contained = true ∧ (ps.any (wideUnit c m) = true ∨ m.space ≠ .core) := by
  obtain ⟨hcont, hwide⟩ := not_or.1 h
  refine ⟨Bool.not_eq_false _ ▸ hcont, ?_⟩
  by_cases hcore : m.space = .core
  · exact .inl (Bool.not_eq_false _ ▸ fun hnone => hwide ⟨hcore, hnone⟩)
  · exact .inr hcore

/-- What a word's stores do where nothing keeps them waiting (R215, R231, R232, R357). -/
theorem Ctx.store_of_free (h : storeFree c m ps) (w : Nat) (stores : List (Nat × List Byte)) :
    c.store m w stores ps = .done (storeEffect c m w stores ps) := by
  unfold storeEffect
  by_cases hshadow : c.b.shadow = true ∧ m.space ≠ .core
  · rw [if_pos hshadow]
    simp [Ctx.store_eq, hshadow]
  rw [if_neg hshadow]
  have hown := plain_or_core hshadow
  have hfolds : (c.b.shadow && m.space != .core) = false := by simpa using hshadow
  by_cases hdirect : c.la.contained = false ∨ (m.space = .core ∧ ps.any (wideUnit c m) = false)
  · rw [if_pos hdirect, Ctx.store_eq, hfolds]
    rcases hdirect with hcont | ⟨hcore, hnarrow⟩
    · simp [hcont]
    · simp [hcore, (wideUnits_isEmpty c m ps).2 hnarrow]
  rw [if_neg hdirect]
  obtain ⟨hcont, hwide⟩ := contained_of_not_direct hdirect
  by_cases hdev : m.space = .device
  · rw [if_pos hdev]
    exact Ctx.store_device (hown.resolve_right (by simp [hdev])) hcont hdev w stores h
  · rw [if_neg hdev, Ctx.store_eq, hfolds]
    obtain ⟨hcommit, -, -⟩ := h hcont hown
    have hdone := hcommit hdev hwide
    by_cases hcore : m.space = .core
    · have hany := hwide.resolve_right (not_not_intro hcore)
      have hsome : (wideUnits c m ps).isEmpty = false := by simpa [wideUnits] using hany
      simp [hcont, hcore, hsome, Ctx.committed_of_done hdone]
    · simp [hcont, hcore, hdev, Ctx.committed_of_done hdone]

/-! ## The strand after its stores -/

theorem Ctx.screened_isSome {s : State} (hk : (s.strand? c.r).isSome) (sp : Space) (w : Nat) (stores : List (Nat × List Byte)) :
    ((c.screened sp w stores s).strand? c.r).isSome := by
  unfold Ctx.screened
  split
  · exact hk
  · rwa [State.isSome_strand?_modStrand]

theorem afterCommit_houses (hk : (c.s.strand? c.r).isSome) (scope : Nat) : (afterCommit c scope).Houses c.r := by
  have hstart : c.s.Houses c.r := ⟨fun _ => hk⟩
  unfold afterCommit
  split
  · exact hstart.commit ..
  · exact hstart

/-- After a commit that is done, the strand of its word is in the machine. -/
theorem afterCommit_isSome {scope : Nat} (hk : (c.s.strand? c.r).isSome) (hcont : c.la.contained = true) (h : commitDone c scope) :
    ((afterCommit c scope).strand? c.r).isSome := by
  obtain ⟨-, b, hb, -, -⟩ := h hcont
  exact (afterCommit_houses hk scope).strand (by rw [hb]; rfl)

theorem buffered_houses (hk : (c.s.strand? c.r).isSome) (m : Storage) (ps : List Piece) : (buffered c m ps).1.Houses c.r := by
  have hstart : c.s.Houses c.r := ⟨fun _ => hk⟩
  by_cases hw : ∃ n, c.k.wait = .buffered n
  · obtain ⟨n, hn⟩ := hw
    rw [buffered_resumed hn]
    exact hstart.bufferFrom
  · rw [buffered_first (not_exists.1 hw)]
    refine State.Houses.bufferFrom ?_
    split
    · exact hstart
    · exact (afterCommit_houses hk _).mono (fun hb => (Ctx.issue_only (.refl _ _) .same).block?_eq (by decide) c.r.blk ▸ hb) Ctx.issue_isSome

theorem storeEffect_isSome (hk : (c.s.strand? c.r).isSome) (h : storeFree c m ps) (w : Nat) (stores : List (Nat × List Byte)) :
    ((storeEffect c m w stores ps).strand? c.r).isSome := by
  refine Ctx.screened_isSome ?_ ..
  by_cases hshadow : c.b.shadow = true ∧ m.space ≠ .core
  · rwa [if_pos hshadow]
  rw [if_neg hshadow]
  have hown := plain_or_core hshadow
  by_cases hdirect : c.la.contained = false ∨ (m.space = .core ∧ ps.any (wideUnit c m) = false)
  · rw [if_pos hdirect]
    exact Ctx.issue_isSome hk
  rw [if_neg hdirect]
  obtain ⟨hcont, hwide⟩ := contained_of_not_direct hdirect
  obtain ⟨hcommit, -, hbuf⟩ := h hcont hown
  by_cases hdev : m.space = .device
  · rw [if_pos hdev]
    exact (buffered_houses hk m ps).strand (hbuf hdev).2
  · rw [if_neg hdev]
    exact Ctx.issue_isSome (afterCommit_isSome hk hcont (hcommit hdev hwide))

/-! ## The words -/

theorem Ready.strand_isSome {s : State} {reads writes : List Loc} (hr : Ready s c reads writes) : (c.s.strand? c.r).isSome := by
  obtain ⟨-, hstrand, -, -, hs, -, -, -⟩ := State.ctx?_eq hr.focus
  rw [hs, hstrand]
  rfl

/-- A word of storage that reaches what it accesses has its accesses' effect where a thread computes (R25, R210, R255). -/
theorem storageWord_effects {i : Instr} {s : State} {c : Ctx} {h : Hdr} {g : Ctx → Shape} {mem : Ctx → Storage} {addr : Ctx → Nat → Int}
    {go : Ctx → List (Nat × Nat) → Verdict} {e : Ctx → State} {reads writes : List Loc}
    (he : exec i s = word i s (fun c => (g c).spec h c) fun c => c.storage (mem c) (addr c) (go c))
    (hr : Ready s c (Hdr.guard h ++ reads) writes)
    (hreads : ∀ l ∈ (g c).src.map (fun r => locOf h.u r.toNat) ++ (g c).reads, l ∈ reads)
    (hwrites : ∀ l ∈ (g c).dst.map (locOf h.u) ++ (g c).writes, l ∈ writes)
    (hc : ((g c).regs.checks c h.u ++ (g c).own).find? Prod.fst = none)
    (hreach : ∀ start, let c := c.seen (c.k.active h.g h.gn) start
      reaches c (mem c) (addr c))
    (hgo : ∀ start, let c := c.seen (c.k.active h.g h.gn) start
      go c (targets c (mem c).uni (addr c)) = .done (e c) ∧ ((e c).strand? c.r).isSome) :
    Effects i s c (c.k.active h.g h.gn) fun c => if c.lanes (mem c).uni = [] then c.s else e c := by
  refine word_effects he ?ready hc nofun rfl rfl rfl (fun start => ?effect) fun start => ?strand
  case ready =>
    rw [Shape.full_reads]
    exact hr.mono (fun l hl => (List.mem_append.1 hl).elim (List.mem_append_left _) fun hl => List.mem_append_right _ (hreads l hl))
      fun l hl => .inr (hwrites l hl)
  case effect =>
    rw [Ctx.storage_of_reaches (hreach start), (hgo start).1, apply_ite Verdict.done]
  case strand =>
    split
    · exact hr.strand_isSome
    · exact (hgo start).2

/-- Settles O25: an M word in range has the shape of a storage word, whose units are those of each thread's own address; what its stores then do is
`Ctx.store_of_free`. -/
theorem loadsAndStores : Obligations.LoadsAndStores := by
  intro x s c act c0 units hok
  have haw := okM_address hok
  refine ⟨fun hr hreach => ?load, fun hr hreach hfree => ?store⟩
  case load =>
    refine storageWord_effects (execLd.eq_def x s) hr ?reads ?writes (mShape_checks hok ..) (fun start => hreach) fun start => ⟨?effect, ?strand⟩
    case reads => simpa using mShape_reads haw false (if x.w = 5 then 1 + c.d else 1)
    case writes =>
      rw [mShape_writes]
      exact fun _ hl => hl
    case effect =>
      simp only [unitsOf_eq]
      rfl
    case strand => exact Ctx.issue_isSome hr.strand_isSome
  case store =>
    rw [List.append_assoc] at hr
    refine storageWord_effects (g := fun c => mShape x true (if x.w = 5 then 1 + c.d else 1)) (mem := fun c => mStorage c x true)
      (addr := fun c => c.mAddr x) (execSt.eq_def x s) hr ?reads nofun (mShape_checks hok ..) (fun start => hreach)
      fun start => ⟨?effect, ?strand⟩
    case reads => simpa using mShape_reads haw true (if x.w = 5 then 1 + c.d else 1)
    case effect =>
      simp only [unitsOf_eq]
      exact Ctx.store_of_free (c := c.seen act start) hfree ..
    case strand => exact storeEffect_isSome (c := c.seen act start) hr.strand_isSome hfree ..

end Sys2Proof.Machine
end

section
/-!
SUPPORT. The words of the sampler and of the descriptor table (R159, R162, R163, R204, R205): a word over a service asks once and completes when
the service is done; SAMPLE adds one request for each active thread.
-/
namespace Sys2Proof.Machine
open Sys2Proof.Claims

/-- A word that is ready, has no cause and has to wait keeps its place, with the reason of its wait (R381). -/
theorem word_waits {i : Instr} {s s' : State} {c : Ctx} {spec : Ctx → Spec} {eff : Ctx → Verdict} {act : Word} {why : Stall}
    (he : exec i s = word i s spec eff) (hr : Ready s c (spec c).full.reads (spec c).writes) (hc : (spec c).checks.find? Prod.fst = none)
    (hn : (spec c).noShadow = true → c.b.shadow = false) (ha : c.k.activeFor (spec c).halves (spec c).g (spec c).gn = act)
    (heff : ∀ start, eff (c.seen act start) = .wait why s') : exec i s = .next (s'.stall c.r why) := by
  subst ha
  have h := word_effect (i := i) (eff := eff) hr hc hn
  dsimp only at h
  rw [heff] at h
  exact he.trans h

/-! ## Services -/

section
variable {c : Ctx} {release : Bool} {what : Request} {wait : Option Stall}

/-- The device after a word has asked for a service (R163, R204): it has acted as its release before (R160, R205), and waits. -/
def Ctx.asked (c : Ctx) (release : Bool) (what : Request) : State :=
  let s := if release then c.s.modStrand c.r fun k => k.learn c.act fun z => z.fence (.ofStrand c.r c.b.core) false true 4 else c.s
  ({ s with uid := c.s.uid + 1, services := c.s.services.put c.s.uid ⟨c.r, c.la.fe, c.b.launch, c.b.core, c.k.pc, c.act, c.k.region, what, .no, 0⟩ }
    : State).modStrand c.r fun k => { k with wait := .op c.s.uid }

theorem Ctx.committed_of_plain (h : c.la.contained = false) (go : State → Verdict) (scope : Nat) : c.committed go scope wait = go c.s := by
  simp [Ctx.committed, h]

theorem Ctx.serve_of_started {n : Nat} (h : c.k.wait = .started n) : c.serve release what wait = .done c.s := by
  simp only [Ctx.serve, h]

/-- A word asks for its service once nothing that stands before it is left (R205). -/
theorem Ctx.serve_asks (hw : c.k.wait = .none) (hcont : c.la.contained = false) (hwait : wait = none) :
    c.serve release what wait = .wait .other (c.asked release what) := by
  subst hwait
  cases release with
  | false => simp only [Ctx.serve, hw, Bool.false_eq_true, if_false]; rfl
  | true => simp only [Ctx.serve, hw, if_true, Ctx.committed_of_plain hcont]; rfl

end

/-- A word of that Spec that serves `what` where a thread is active is a word over that service; `wait` is what it waits for. -/
theorem serviceWord_of_serve {i : Instr} {x : F} {reads : List Loc} {release : Bool} {free : State → StrandRef → Prop} {ok : Ctx → Prop}
    {what : Ctx → Request} {spec : Ctx → Spec} {eff : Ctx → Verdict} {wait : Ctx → Option Stall} (he : ∀ s, exec i s = word i s spec eff)
    (ho : ∀ c, (spec c).Of x.h reads [] false false) (hc : ∀ c, ok c → (spec c).checks.find? Prod.fst = none)
    (hskip : ∀ c, c.act = 0 → eff c = .done c.s)
    (hserve : ∀ c start, c.rd = c.k → ok c → actF x c ≠ 0 → let c' := c.seen (actF x c) start
      eff c' = c'.serve release (what c) (wait c))
    (hfree : ∀ c, free c.s c.r → wait c = none) : ServiceWord i x reads release free ok what := by
  refine ⟨word_does he ho (fun c h => hc c h.1) (fun c h _ => h.2.1) ?done fun c hk => by rw [hk]; rfl, ?asks⟩
  case done =>
    intro c start hrd hok
    obtain ⟨hok, -, hdone⟩ := hok
    by_cases hact : actF x c = 0
    · exact hskip (c.seen (actF x c) start) hact
    · obtain ⟨n, hn⟩ := hdone.resolve_left hact
      exact (hserve c start hrd hok hact).trans (Ctx.serve_of_started (c := c.seen (actF x c) start) hn)
  case asks =>
    intro s c hr hok hshadow hact hw hfr hcont
    obtain ⟨-, -, -, -, hs, hrd, -, -⟩ := State.ctx?_eq hr.focus
    refine (word_waits (why := .other) (s' := (c.seen (actF x c) 0).asked release (what c)) (he s) ?_ (hc c hok) (fun _ => hshadow) ((ho c).active c.k)
      fun start => ?_).trans ?_
    · rw [(ho c).full_reads, (ho c).writes]
      exact hr
    · exact (hserve c start hrd hok hact).trans (Ctx.serve_asks (c := c.seen (actF x c) start) hw hcont (hfree c (hs ▸ hfr)))
    · rw [← hs]
      rfl

/-! ## Bind points -/

theorem texbBind_serviceWord (x : F) : ServiceWord (.texbBind x) x (pairLocs x.a) true texbFree
    (fun c => Claims.pairOk x.a ∧ (c.k.sPair x.a.toNat).toNat % 64 = 0 ∧ c.s.service ≠ .reduced)
    fun c => .bind (x.modN 3 0) (c.k.sPair x.a.toNat).toNat := by
  refine serviceWord_of_serve (wait := Ctx.texbWait) (execTexbBind.eq_def x) (fun _ => ⟨rfl, rfl, rfl, rfl, rfl, rfl, rfl⟩)
    (fun c h => Regs.checks_pair h.1 c x.h.u) (fun _ hact => if_pos hact) (fun c start hrd hok hact => ?_) fun _ h => h
  obtain ⟨-, halign, hserv⟩ := hok
  simp only [Ctx.seen, hrd, hact, if_false, halign, bne_self_eq_false, Bool.false_eq_true, beq_iff_eq, hserv]
  rfl

theorem texbInval_serviceWord (x : F) : ServiceWord (.texbInval x) x [] true texbFree (fun c => c.s.service ≠ .reduced)
    fun _ => .inval (x.modN 3 0) := by
  refine serviceWord_of_serve (wait := Ctx.texbWait) (execTexbInval.eq_def x) (fun _ => ⟨rfl, rfl, rfl, rfl, rfl, rfl, rfl⟩)
    (fun c _ => Regs.checks_empty c x.h.u) (fun _ hact => if_pos hact) (fun c start _ hserv hact => ?_) fun _ h => h
  simp only [Ctx.seen, hact, if_false, beq_iff_eq, hserv]
  rfl

/-! ## The descriptor table -/

section
variable {x : F} {c : Ctx}

theorem Ctx.tdeAddr_eq (h : c.rd = c.k) : c.tdeAddr x = tdePlace c x := by rw [Ctx.tdeAddr, tdePlace, h]

theorem Ctx.tdeTid_eq (h : c.rd = c.k) : c.tdeTid x = (c.k.sGet x.a.toNat).toNat % 4096 := by rw [Ctx.tdeTid, h]

theorem spaceOf_ne_device {n : Nat} : spaceOf n ≠ .device ↔ n ≠ 0 := by
  unfold spaceOf
  split <;> simp_all

/-- The checks of R204 pass for a TID in range and an aligned place in its allocation. -/
theorem Ctx.tdeOk_of_fits (hrd : c.rd = c.k) (h : tdeFits x c) (go : Verdict) : c.tdeOk x false go = go := by
  obtain ⟨-, -, htid, halign, hpad⟩ := h
  have hfit : ¬ (spaceOf (x.modN 1 0) ≠ .device ∧ c.la.padSize (spaceOf (x.modN 1 0)) < tdePlace c x + 64) := by
    rw [spaceOf_ne_device]
    rintro ⟨hsp, hlt⟩
    exact absurd (hpad hsp) (by omega)
  simp only [Ctx.tdeOk, Ctx.tdeAddr_eq hrd, hrd, Nat.div_eq_of_lt htid, halign, bne_self_eq_false, Bool.false_eq_true, if_false,
    Bool.and_eq_true, bne_iff_ne, decide_eq_true_eq, hfit]

/-- The registers of TDE.write and TDE.read are in range. -/
theorem tdeShape_checks (h : tdeFits x c) : ((tdeShape x).regs.checks c x.h.u ++ []).find? Prod.fst = none := by
  obtain ⟨ha, ⟨hb, heven⟩, -⟩ := h
  rw [List.append_nil]
  exact Regs.checks_none nofun nofun (by simpa [tdeShape] using heven) (by simpa [tdeShape] using ⟨ha, hb⟩) nofun rfl rfl nofun rfl

end

/-- TDE.write and TDE.read: a word of the table with a place, which asks for `req`. -/
theorem tdeWord_serviceWord {i : Instr} {x : F} {noShadow release : Bool} {req : Nat → Space → Nat → Request}
    (he : ∀ s, exec i s = tdeWord i x (tdeShape x) false noShadow release (fun c => req (c.tdeTid x) (spaceOf (x.modN 1 0)) (c.tdeAddr x)) s) :
    ServiceWord i x (tdeRegs x) release tdeFree (tdeFits x)
      fun c => req ((c.k.sGet x.a.toNat).toNat % 4096) (spaceOf (x.modN 1 0)) (tdePlace c x) := by
  refine serviceWord_of_serve (wait := fun c => c.s.orderWait c.r) he (fun _ => ⟨rfl, rfl, rfl, rfl, rfl, rfl, rfl⟩)
    (fun c h => tdeShape_checks h) (fun _ hact => if_pos hact) (fun c start hrd hok hact => ?_) fun _ h => h
  refine (if_neg hact).trans ((Ctx.tdeOk_of_fits (c := c.seen (actF x c) start) hrd hok _).trans ?_)
  dsimp only
  rw [Ctx.tdeTid_eq (c := c.seen (actF x c) start) hrd, Ctx.tdeAddr_eq (c := c.seen (actF x c) start) hrd]
  rfl

theorem tdeInval_serviceWord (x : F) : ServiceWord (.tdeInval x) x [.s x.a.toNat] true tdeFree
    (fun c => x.a.toNat < 64 ∧ (c.k.sGet x.a.toNat).toNat < 4096) fun c => .tdeInval ((c.k.sGet x.a.toNat).toNat % 4096) := by
  refine serviceWord_of_serve (wait := fun c => c.s.orderWait c.r) (execTdeInval.eq_def x) (fun _ => ⟨rfl, rfl, rfl, rfl, rfl, rfl, rfl⟩)
    (fun c h => ?checks) (fun _ hact => if_pos hact) (fun c start hrd hok hact => ?serve) fun _ h => h
  case checks =>
    show (Regs.checks { sreg := [x.a] } c x.h.u ++ []).find? Prod.fst = none
    rw [List.append_nil]
    exact Regs.checks_none nofun nofun nofun (by simpa using h.1) nofun rfl rfl nofun rfl
  case serve =>
    obtain ⟨-, htid⟩ := hok
    simp only [Ctx.tdeTid_eq (c := c.seen (actF x c) start) hrd]
    simp only [Ctx.seen, hact, if_false, Ctx.tdeOk, hrd, Nat.div_eq_of_lt htid, bne_self_eq_false, Bool.false_eq_true, if_true]

theorem serviceRequests : ServiceRequests := fun x =>
  ⟨texbBind_serviceWord x, texbInval_serviceWord x, tdeWord_serviceWord (execTdeWrite.eq_def x), tdeWord_serviceWord (execTdeRead.eq_def x),
    tdeInval_serviceWord x⟩

/-! ## Samples -/

theorem Ctx.sampleOp_eq {c : Ctx} (h : c.rd = c.k) (x : F) (lod : Bool) (record : BitVec 512) : c.sampleOp x lod record = sampleOf c x lod record := by
  funext t
  simp only [Ctx.sampleOp, sampleOf, h, decide_eq_true_eq]

@[simp] theorem addSamples_strand? (s : State) (os : List SampleOp) (r : StrandRef) : (addSamples s os).strand? r = s.strand? r := by
  unfold addSamples
  induction os generalizing s with
  | nil => rfl
  | cons o os ih => exact ih _

theorem nextPo_addSamples_isSome {s : State} {r : StrandRef} (h : (s.strand? r).isSome) (os : List SampleOp) :
    (((addSamples s os).nextPo r).strand? r).isSome := by
  rwa [State.nextPo, State.strand?_modStrand_self, addSamples_strand?, Option.isSome_map]

/-- The registers that SAMPLE names. -/
def sampleShape (x : F) (lod : Bool) : Shape :=
  let srcs := [x.a, x.b] ++ if lod then [x.c] else []
  { regs := { vec := x.d :: srcs, span := [x.d.toNat + 3], noU := true }, src := srcs, dst := groupOf x.d 4, lat := none }

/-- The registers of SAMPLE are in range where its sources and its group of four are. -/
theorem sampleShape_checks {x : F} {lod : Bool} {c : Ctx} (hu : x.h.u = false) (hsrc : inRange x.h ([x.a, x.b] ++ if lod then [x.c] else []) c)
    (hdst : InRange c false (groupOf x.d 4)) : ((sampleShape x lod).regs.checks c x.h.u ++ []).find? Prod.fst = none := by
  have hgroup : ∀ i < 4, x.d.toNat + i < c.la.nregs := fun i hi => hdst _ (List.mem_map_of_mem (List.mem_range.2 hi))
  rw [inRange, hu] at hsrc
  rw [hu, List.append_nil]
  refine Regs.checks_none ?vec (by simpa [sampleShape] using hgroup 3 (by decide)) nofun nofun nofun rfl rfl (fun _ => rfl) rfl
  refine List.forall_mem_cons.2 ⟨hgroup 0 (by decide), fun r hr => hsrc _ (List.mem_map_of_mem hr)⟩

/-- Requests that read no range in which one of the strand is held do not wait behind it (R219). -/
theorem sampleOf_not_held {c : Ctx} {x : F} {lod : Bool} {record : BitVec 512} {act : Word} (hheld : ∀ t < 32, act.getLsbD t →
    c.s.heldInRange c.r (inRanges ((sampleOf c x lod record t).vas (textureOf record) c.la) 64) = false) :
    (((threadsOf act).map (sampleOf c x lod record)).any fun o => c.s.heldInRange c.r (inRanges (o.vas (textureOf record) c.la) 64)) = false := by
  rw [List.any_map]
  refine List.any_eq_false.2 fun t ht => ?_
  obtain ⟨hlt, hbit⟩ := mem_threadsOf.1 ht
  exact Bool.eq_false_iff.1 (hheld t hlt hbit)

theorem sample_eq_sampleWord (x : F) (lod : Bool) (s : State) :
    exec (if lod then .sampleLod x else .sample x) s = sampleWord (if lod then .sampleLod x else .sample x) x lod s := by
  cases lod with
  | false => exact execSample.eq_def x s
  | true => exact execSampleLod.eq_def x s

theorem sampleRequests : SampleRequests := by
  intro x lod record srcs s c hr hok
  obtain ⟨hu, hsrc, hdst, hserv, hcommit, hacq, hbound, hheld⟩ := hok
  obtain ⟨-, -, -, -, -, hrd, -, -⟩ := State.ctx?_eq hr.focus
  refine word_effects (act := actF x c) ((sample_eq_sampleWord x lod s).trans (sampleWord.eq_def ..)) ?ready (sampleShape_checks hu hsrc hdst) nofun
    rfl rfl rfl (fun start => ?effect) fun start => ?strand
  case ready =>
    have hreads : ((sampleShape x lod).spec x.h c).full.reads = Hdr.guard x.h ++ srcs.map fun r => .v r.toNat := by
      rw [Shape.full_reads]
      simp [sampleShape, srcs, hu, locOf]
    have hwrites : ((sampleShape x lod).spec x.h c).writes = (groupOf x.d 4).map .v := by simp [Shape.spec, sampleShape, hu, locOf]
    exact hr.mono (fun l hl => hreads ▸ hl) fun l hl => .inr (hwrites ▸ hl)
  case effect =>
    have hops := Ctx.sampleOp_eq (c := c.seen (actF x c) start) hrd x lod record
    have hfree := sampleOf_not_held (c := c.seen (actF x c) start) hheld
    simp only [Ctx.seen] at hops hfree ⊢
    by_cases hact : actF x c = 0
    · exact (if_pos hact).trans (congrArg _ (if_pos hact).symm)
    · refine (if_neg hact).trans (Eq.trans ?_ (congrArg _ (if_neg hact).symm))
      simp only [beq_iff_eq, hserv, hcommit, Option.isSome_none, hacq, hbound, hops, hfree, Bool.and_false, Bool.false_eq_true, if_false]
      rfl
  case strand =>
    show (State.strand? (if actF x c = 0 then _ else _) c.r).isSome
    split
    · exact hr.strand_isSome
    · exact nextPo_addSamples_isSome hr.strand_isSome _

/-- Settles O37: a word over a service asks for it and completes once it is done; SAMPLE adds a request for each active thread. -/
theorem samplerAndTableWords : Obligations.SamplerAndTableWords := ⟨sampleRequests, serviceRequests⟩

end Sys2Proof.Machine
end

section
/-!
SUPPORT. The events of samples and services (R156 to R160, R163, R204): an event record leaves a front end as it was but for its counters, what
each request does at its completion, and the sample that is delivered.
-/
namespace Sys2Proof.Machine

/-! ## Front ends, strands and memory under the operations of a service -/

section
variable {s t : State}

theorem Only.strand?_eq {pts : List Part} (h : Only pts s t) (hn : .strands ∉ pts) (r : StrandRef) : t.strand? r = s.strand? r := by
  rw [State.strand?, h.strands hn, State.strand?]

theorem Only.fe_eq {pts : List Part} (h : Only pts s t) (hn : .fes ∉ pts) (f : Nat) : t.fe f = s.fe f := by rw [State.fe, h.fes hn, State.fe]

theorem Only.lidOf_eq {pts : List Part} (h : Only pts s t) (hn : .launches ∉ pts) (l : Nat) : t.lidOf l = s.lidOf l := by
  rw [State.lidOf, h.launch?_eq hn, State.lidOf]

theorem State.fe_writeVa {fe va : Nat} {bs : List Byte} {w : Author} (h : s.writeVa fe va bs w = some t) (f : Nat) : t.fe f = s.fe f :=
  (State.writeVa_only (.refl _ s) .same h).fe_eq (by decide) f

/-- A record of a buffer changes no front end but in its counters, where a full buffer counts the drop (R380). -/
theorem State.fe_append (s : State) (fe base : Nat) (rec : List Byte) (f : Nat) :
    { (s.append fe base rec).fe f with counters := [] } = { s.fe f with counters := [] } := by
  unfold State.append
  split
  · rfl
  split
  · rfl
  dsimp only
  split
  · cases hw : State.writeVa _ fe _ _ _ with
    | none => rfl
    | some t =>
      rw [Option.getD_some, State.fe_writeVa hw]
      split
      · exact s.fe_count fe 15 1 f
      · rfl
  · split
    · next u hu =>
      cases hw : u.writeVa fe _ _ _ with
      | none => rw [Option.getD_none, State.fe_writeVa hu]
      | some t => rw [Option.getD_some, State.fe_writeVa hw, State.fe_writeVa hu]
    · rfl

theorem State.tde_emit (s : State) (fe lid : Nat) (code : Cause) (src : Src) (unit : Nat) (pay : List Byte) (f tid : Nat) :
    ((s.emit fe lid code src unit pay).fe f).tde tid = (s.fe f).tde tid := by
  have htdes := congrArg FrontEnd.tdes (State.fe_append s fe (s.fe fe).eventBase (eventBytes s.ns fe lid 0 code src unit pay) f)
  exact congrArg (fun t => (Table.get? t tid).getD 0) htdes

/-- An entry is stored with bits 511 to 504 zero (R204). -/
theorem State.tde_setTde_self (s : State) (fe tid : Nat) (e : BitVec 512) : ((s.setTde fe tid e).fe fe).tde tid = e &&& (BitVec.allOnes 512 >>> 8) := by
  rw [State.setTde, State.modFe, State.fe_setFe, if_pos rfl, FrontEnd.tde, Table.get?_put_self, Option.getD_some]

theorem State.binds_bindAt_self (s : State) (fe point : Nat) (f : Table Nat (BitVec 512) → Table Nat (BitVec 512)) :
    ((s.bindAt fe point f).fe fe).binds = f (s.fe fe).binds := by
  rw [State.bindAt, State.modFe, State.fe_setFe, if_pos rfl]

theorem State.memAt_core {blk : Nat} {b : Block} (h : s.block? blk = some b) : s.memAt (.core blk) = b.pad := by
  simp only [State.memAt, h, Option.map_some, Option.getD_some]

/-- A write of a core pad puts its bytes there. -/
theorem State.block?_write_core {blk : Nat} {b : Block} (h : s.block? blk = some b) (a : Nat) (bs : List Byte) (w : Author) :
    (s.write (.core blk) a bs w).block? blk = some { b with pad := b.pad.put a bs } := by
  have hnew : ((bs.zip (b.pad.bytes a bs.length)).zipIdx.map fun e => e.1.1) = bs := by
    have hfst := List.zipIdx_map_fst 0 (bs.zip (b.pad.bytes a bs.length))
    have hzip := List.map_fst_zip (l₁ := bs) (l₂ := b.pad.bytes a bs.length) (by simp)
    calc _ = (((bs.zip (b.pad.bytes a bs.length)).zipIdx.map Prod.fst).map Prod.fst) := List.map_map.symm
      _ = bs := by rw [hfst, hzip]
  unfold State.write
  simp only [State.memAt_core h, if_true, hnew]
  exact (Table.get?_mod ..).trans (by rw [if_pos rfl]; exact congrArg _ h)

/-- A run of which every write happens before the observer is read as it is now (R246). -/
theorem State.readRunAs_of_seen {pl : Place} {v : View} {a n : Nat} (h : ∀ e ∈ s.past, e.seq ≤ v.base ∨ e.touches pl a n = false) (g seed : Nat) :
    s.readRunAs pl v g a n seed = ⟨(s.memAt pl).bytes a n, v, []⟩ :=
  if_pos (List.all_eq_true.2 fun e he => by simpa using h e he)

theorem State.block?_serviceWrote (s : State) (n : Nat) (o : ServiceOp) (blk : Nat) : (s.serviceWrote n o).block? blk = s.block? blk :=
  (State.serviceWrote_only (.refl _ s) .same).block?_eq (by decide) blk

theorem State.fe_served (s : State) (n : Nat) (o : ServiceOp) (f : Nat) : (s.served n o).fe f = s.fe f :=
  (State.served_only (.refl _ s) .same).fe_eq (by decide) f

/-- A strand that waits for a service goes on when it is done. -/
theorem State.wait_served {n : Nat} {o : ServiceOp} {k : Strand} (hk : s.strand? o.strand = some k) (hw : k.wait = .op n) :
    ((s.served n o).strand? o.strand).map Strand.wait = some (.started n) := by
  have hdrop : (s.dropService n).strand? o.strand = some k := hk
  rw [State.served, State.strand?_modStrand_self, hdrop]
  simp only [Option.map_some, hw, beq_self_eq_true, if_true]

end

/-! ## The completion of services -/

/-- A service that is not held, of a block that has not ended, goes on (R160, R205). -/
theorem service_goes_on {s : State} {o : ServiceOp} (hh : o.held = .no) (hl : s.live o.strand.blk = true) :
    (o.held == .held || !s.live o.strand.blk) = false := by
  rw [hh, hl]
  rfl

section
variable {s : State} {n : Nat} {o : ServiceOp} (ho : s.services.get? n = some o) (hh : o.held = .no) (hl : s.live o.strand.blk = true)
include ho hh hl

/-- A bind or an inval waits for the samples of its bind point (R160). -/
theorem texbComplete_waits {point va : Nat} (hw : o.what = .bind point va ∨ o.what = .inval point) (hout : s.samplesAt o.fe point = true) :
    exec (.texbComplete n) s = .next s := by
  show execTexbComplete n s = _
  rcases hw with hw | hw
  · simp only [execTexbComplete, ho, service_goes_on hh hl, hw, hout, Bool.false_eq_true, if_false, if_true]
  · simp only [execTexbComplete, ho, service_goes_on hh hl, hw, hout, Bool.false_eq_true, if_false, if_true]

/-- An inval unbinds (R156). -/
theorem texbComplete_inval {point : Nat} (hw : o.what = .inval point) (hout : s.samplesAt o.fe point = false) :
    exec (.texbComplete n) s = .next (((s.bindAt o.fe point fun bs => bs.drop point).emit o.fe (s.lidOf o.launch) Cause.bindDone .sampler o.core
      []).served n o) := by
  show execTexbComplete n s = _
  simp only [execTexbComplete, ho, service_goes_on hh hl, hw, hout, Bool.false_eq_true, if_false]
  rfl

/-- A bind takes the record that it read, where that is valid (R156, R163). -/
theorem texbComplete_bind {point va : Nat} {r : Ran} (hw : o.what = .bind point va) (hout : s.samplesAt o.fe point = false)
    (hr : s.engRead o.fe o.strand.blk (s.serviceView o) 4 va 64 = .ok r) (hv : (textureOf (BitVec.ofNat 512 (numOf r.bytes))).valid = true) :
    exec (.texbComplete n) s = .next (((((s.serviceRan o r).countAt o.fe va 64).bindAt o.fe point fun bs =>
      bs.put point (BitVec.ofNat 512 (numOf r.bytes))).emit o.fe (s.lidOf o.launch) Cause.bindDone .sampler o.core []).served n o) := by
  have hlid : ∀ f, (((s.serviceRan o r).countAt o.fe va 64).bindAt o.fe point f).lidOf o.launch = s.lidOf o.launch := fun f =>
    Only.lidOf_eq (s := s.serviceRan o r) (State.bindAt_only (State.countAt_only (.refl _ _) .same) .same) (by decide) o.launch
  show execTexbComplete n s = _
  simp only [execTexbComplete, ho, service_goes_on hh hl, hw, hout, State.serviceRead, hr, hv, hlid, Bool.not_true, Bool.false_eq_true, if_false]

theorem tdeComplete_inval {tid : Nat} (hw : o.what = .tdeInval tid) :
    exec (.tdeComplete n) s = .next ((s.modFe o.fe fun f => { f with tdes := f.tdes.drop tid }).served n o) := by
  show execTdeComplete n s = _
  simp only [execTdeComplete, ho, service_goes_on hh hl, hw, Bool.false_eq_true, if_false]

/-- TDE.read stores the entry to a pad (R204). -/
theorem tdeComplete_read {tid a : Nat} (hw : o.what = .tdeRead tid .core a) : exec (.tdeComplete n) s =
    .next ((s.write (.core o.strand.blk) a (bytesOf 64 ((s.fe o.fe).tde tid).toNat) (s.serviceAuthor o)).serviceWrote n o) := by
  show execTdeComplete n s = _
  simp only [execTdeComplete, ho, service_goes_on hh hl, hw, Bool.false_eq_true, if_false]
  rfl

/-- TDE.write stores the run of a pad that it read as the entry (R204). -/
theorem tdeComplete_write {tid a : Nat} (hw : o.what = .tdeWrite tid .core a) (hclean : s.padPoisoned (.core o.strand.blk) a 64 = false) :
    let r := s.readRunAs (.core o.strand.blk) (s.serviceView o) 4 a 64 s.fresh
    exec (.tdeComplete n) s = .next ((((s.serviceRan o r).setTde o.fe tid (BitVec.ofNat 512 (numOf r.bytes))).emit o.fe
      (s.lidOf o.launch) Cause.bindDone .core o.core []).served n o) := by
  show execTdeComplete n s = _
  simp only [execTdeComplete, ho, service_goes_on hh hl, hw, padPlace, hclean, Bool.false_eq_true, if_false]
  rfl

end

/-! ## Samples -/

section
variable {s : State} {m : Nat} {z : SampleOp} (hz : s.samples.get? m = some z)
include hz

theorem sampleResult_early (he : s.sampleEarly z = true) : exec (.sampleResult m) s = .next s := by
  show execSampleResult m s = _
  simp only [execSampleResult, hz, he, Bool.or_true, if_true]

/-- A sample whose texels are all present is delivered to its strand (R149 to R152, R158); they are read at its delivery (log 25). -/
theorem sampleResult_delivers {la : Launch} (hh : z.held = .no) (hl : s.live z.strand.blk = true) (hla : s.launch? z.launch = some la)
    (he : s.sampleEarly z = false) :
    let x := textureOf z.record
    let r := s.engLines z.fe z.strand.blk z.view 4 (z.vas x la)
    let counted := (z.vas x la).foldl (fun s va => s.countAt z.fe va 8) s
    r.absent = none → r.bad = [] → exec (.sampleResult m) s = .next ((counted.dropSample m).modStrand z.strand fun k =>
      ((sampleJets x z (footprint x z) (counted.texelLines z x (z.vas x la) r) la.d).zipIdx).foldl (fun k e => k.put la false z.t (z.d + e.2, e.1))
        (k.sync (bit z.t) r.view)) := by
  intro x r counted habsent hbad
  show execSampleResult m s = _
  have hgo : (z.held == .held || !s.live z.strand.blk || s.sampleEarly z) = false := by rw [hh, hl, he]; rfl
  have hfirst : (z.held == .replay) = false := by rw [hh]; rfl
  simp only [execSampleResult, hz, hgo, hfirst, hla, Bool.false_eq_true, if_false]
  split
  · next h => cases habsent.symm.trans h
  · next h => cases hbad.symm.trans h
  · rfl

end

/-- Settles O46: each event is one operation of the model, whose strand, bind point, entry or pad is read off it. -/
theorem serviceEvents : Obligations.ServiceEvents := by
  intro s n o ho hh hl
  refine ⟨fun point hw hout => texbComplete_inval ho hh hl hw hout, fun point va r hw hout hr hv => texbComplete_bind ho hh hl hw hout hr hv,
    fun point va hw hout => texbComplete_waits ho hh hl hw hout, fun tid hw => tdeComplete_inval ho hh hl hw,
    ?read, fun fe point f => s.binds_bindAt_self fe point f, ?write, fun k hk hw => State.wait_served hk hw, ?sample,
    fun m z hz he => sampleResult_early hz he⟩
  case read =>
    intro tid a b hw hb
    exact ⟨_, _, tdeComplete_read ho hh hl hw, (State.block?_serviceWrote ..).trans (State.block?_write_core hb ..), rfl⟩
  case write =>
    intro tid a b hw hb hclean hseen
    refine ⟨_, tdeComplete_write ho hh hl hw hclean, ?_⟩
    rw [State.fe_served, State.tde_emit, State.tde_setTde_self, State.readRunAs_of_seen hseen, State.memAt_core hb]
    rfl
  case sample =>
    intro m z la hz hheld hlive hla he x vas r counted habsent hbad
    have hcount : Only [.fes] s counted := Only.foldl (fun _ _ ht => State.countAt_only ht .same) (.refl _ s)
    refine ⟨_, sampleResult_delivers hz hheld hlive hla he habsent hbad, ?_, ?_, fun k hk => ?_⟩
    · exact congrArg (Table.drop · m) (hcount.samples (by decide))
    · exact hcount.mem (by decide)
    · have hthere : (counted.dropSample m).strand? z.strand = some k := (hcount.strand?_eq (by decide) z.strand).trans hk
      rw [State.strand?_modStrand_self]
      exact congrArg _ hthere

end Sys2Proof.Machine
end

section
/-!
SUPPORT. Copies that start (R181, R193, R268, R271, R274): an engine word that passes its checks is its arrival; on a device with one engine
operation, what the arrival of a copy's only member, its checks, its port and its record do to that operation, its strand and its block.
-/
namespace Sys2Proof.Machine
open Sys2Proof.Claims

/-! ## The words that issue engine operations -/

section
variable {s : State} {c : Ctx} {x : E} {i : Instr} {w : CollWord}

/-- Each engine word is a collective word over what it issues (R192, R272). -/
theorem exec_engineWord (s : State) : ∀ e ∈ engineWords x, exec e.1 s = collWord e.1 e.2 s := by
  simp only [engineWords, List.forall_mem_cons]
  exact ⟨execCpl.eq_def x s, execCps.eq_def x s, execCpm.eq_def x s, execCpq.eq_def x s, execCpx.eq_def x s, execCpr.eq_def x s,
    execMxb.eq_def x s, execMxsw.eq_def x s, execMxsq.eq_def x s, execMma.eq_def 0 x s, execMma.eq_def 1 x s, execMma.eq_def 2 x s,
    execMma.eq_def 3 x s, execMma.eq_def 4 x s, execMxd.eq_def x s, execMxdGuide.eq_def x s, execMxcClear.eq_def x s,
    execMxcPair.eq_def x s, execMxcUnpair.eq_def x s, List.forall_mem_nil _⟩

theorem engineWord_w : ∀ e ∈ engineWords x, e.2.w = x := by simp [engineWords]

theorem firstCause_none {cs : List (Bool × Cause × Nat)} (h : ∀ e ∈ cs, e.1 = false) : firstCause cs = none := by
  rw [firstCause, List.find?_eq_none.2 fun e he => by simp [h e he]]
  rfl

theorem State.pairedOp_none {o : EngOp} (h : (s.core o.core).array.bind MatrixArray.pair = none) : s.pairedOp o = none := by
  unfold State.pairedOp
  split
  · next a ha =>
    rw [ha] at h
    simp only [Option.bind_some] at h
    simp only [h]
    split <;> rfl
  · rfl

/-- A word that may arrive passes every check and waits for nothing: what it does is its arrival. -/
theorem Ctx.collect_of_mayArrive (h : MayArrive c w) (hrd : c.rd = c.k) (fo : Option EngWord) (is : List Instr) :
    c.collect w [] fo is = c.join w (operands c w) fo is := by
  obtain ⟨-, -, hfresh, hchecks, hwhole, ⟨halone, hsync⟩, hbar, hopen, horder, hpair⟩ := h
  have hmissing : (c.k.live &&& ~~~c.k.mask != 0) = false := by simp [hwhole, Strand.live]
  have hset : (w.w.be && !(c.b.bar w.w.bn.toNat).init) = false := by
    cases hbe : w.w.be with
    | false => rfl
    | true => simp [hbar hbe]
  have hown : ∀ o : EngOp, o.core = c.b.core → (w.kind == .pair && (c.s.pairedOp o).isSome) = false := by
    intro o ho
    by_cases hk : w.kind = .pair
    · rw [State.pairedOp_none (ho ▸ hpair hk), Option.isSome_none, Bool.and_false]
    · simp [hk]
  rw [List.append_assoc] at hchecks
  obtain ⟨hpre, hpost⟩ := List.forall_mem_append.1 hchecks
  simp only [operands] at hpre hpost
  simp only [Ctx.collect, hfresh, hrd, firstCause_none hpre, Option.getD_none, if_true, hmissing, Bool.false_eq_true, if_false, halone, List.any_nil,
    hsync, Bool.false_or, hset, hown, List.append_nil, firstCause_none hpost, hopen, horder]
  rfl

theorem mayArrive_seen (h : MayArrive c w) (act : Word) (start : Nat) : MayArrive (c.seen act start) w := { h with }

/-- An engine word whose arrival is the effect `e` of a state in which its strand still stands completes with it, folded at its arrival (R52). -/
theorem engineWord_effects {e : Ctx → State} (hi : (i, w) ∈ engineWords x) (hr : Ready s c (engReads w) (engWrites w)) (hm : MayArrive c w)
    (hj : ∀ start, (c.seen c.k.mask start).join w (operands c w) none [i] = .done (e (c.seen c.k.mask start)))
    (hk : ∀ start, ((e (c.seen c.k.mask start)).strand? c.r).isSome) : Effects i s c c.k.mask e false true := by
  obtain ⟨-, -, -, -, -, hrd, -, -⟩ := State.ctx?_eq hr.focus
  refine word_effects ((exec_engineWord s _ hi).trans (collWord.eq_def i w s)) hr ?_ (fun _ => hm.shadow) rfl rfl rfl (fun start => ?_) hk
  · simp [hm.range]
  · exact (Ctx.collect_of_mayArrive (c := c.seen c.k.mask start) (mayArrive_seen hm _ start) hrd none [i]).trans (hj start)

end

/-! ## A device with one engine operation -/

/-- The operation `o`, by the number `n`, is the device's only one, and the strand `r` is `k`. -/
structure State.Sole (s : State) (n : Nat) (o : EngOp) (r : StrandRef) (k : Strand) : Prop where
  ops : s.ops = [(n, o)]
  strand : s.strand? r = some k

namespace State.Sole

variable {s t : State} {n : Nat} {o : EngOp} {r : StrandRef} {k : Strand} {a : Arrival}

theorem op? (h : s.Sole n o r k) : s.op? n = some o := by
  simp [State.op?, h.ops, Table.get?]

theorem only {pts : List Part} (h : s.Sole n o r k) (ho : Only pts s t) (hops : .ops ∉ pts) (hstr : .strands ∉ pts) : t.Sole n o r k :=
  ⟨(ho.ops hops).trans h.ops, (ho.strand?_eq hstr r).trans h.strand⟩

theorem setOp (h : s.Sole n o r k) (o' : EngOp) : (s.setOp n o').Sole n o' r k :=
  ⟨by simp [State.setOp, h.ops, Table.put], h.strand⟩

theorem modStrand (h : s.Sole n o r k) (f : Strand → Strand) : (s.modStrand r f).Sole n o r (f k) :=
  ⟨h.ops, by rw [State.strand?_modStrand_self, h.strand, Option.map_some]⟩

theorem setRec (h : s.Sole n o r k) (core i : Nat) (x : HandleRec) : (s.setRec core i x).Sole n o r k :=
  h.only (State.setRec_only (.refl [.cores] s) .same) (by decide) (by decide)

theorem sweep (h : s.Sole n o r k) (blk : Nat) : (s.sweep blk).Sole n o r k :=
  h.only (State.sweep_only (.refl [.cores] s) .same) (by decide) (by decide)

/-- The strand waits in the operation, whose one member it is. -/
theorem setWaits (h : s.Sole n o r k) {o' : EngOp} (harr : o'.arr = [a]) (hr : ⟨o'.blk, a.sid⟩ = r) (hw : k.wait = .op n) (f : Strand → Strand) :
    (s.setWaits n o' f).Sole n o r (f k) := by
  have := h.modStrand fun k => if k.wait == .op n then f k else k
  simpa [State.setWaits, harr, hr, hw] using this

theorem portFirst (h : s.Sole n o r k) {o' : EngOp} (hr : o'.ready = o.ready) : s.portFirst o' = true := by
  simp [State.portFirst, h.ops, hr]

theorem portUse (h : s.Sole n o r k) (hst : o.stage ≠ .running) (core : Nat) : s.portUse core = 0 := by
  simp [State.portUse, h.ops, hst]

/-- A member that asked for a handle names the record `i` (R268). -/
theorem takeRec (h : s.Sole n o r k) {b : Block} {sid : Nat} (hb : s.block? o.blk = some b) (hr : ⟨o.blk, sid⟩ = r) (i d : Nat) :
    (s.takeRec n i [(sid, d)]).Sole n { o with record := some i } r (k.setH d (some (token ((s.core o.core).record i).gen b.slot i))) := by
  subst hr
  simp only [State.takeRec, h.op?, Option.bind_some, hb, List.foldl_cons, List.foldl_nil]
  exact (((h.setRec ..).modStrand _).setOp _).sweep _

end State.Sole

section
variable {s t : State} {n : Nat} {o : EngOp} {r : StrandRef} {k : Strand} {a : Arrival} {b : Block}

theorem EngOp.lead_of_single (h : o.arr = [a]) : o.lead = a.word := by
  simp [EngOp.lead, h, lowestSid]

theorem EngOp.handles_of_single (h : o.arr = [a]) : o.handles = if a.word.w.hw then [(a.sid, a.word.w.hd.toNat)] else [] := by
  rw [EngOp.handles, h]
  cases hw : a.word.w.hw <;> simp [hw]

theorem State.postExpect_of_not_be (h : o.lead.w.be = false) : s.postExpect n o = s := by
  unfold State.postExpect
  split
  · simp [h]
  · rfl

/-! ## Ports -/

/-- The event records that a copy's start writes. -/
def State.startEvents (s : State) (o : EngOp) : State :=
  if o.kind != .cpr then s.opEvent o Cause.copyStart
  else if o.fallback then (s.opEvent o Cause.cprStart).opEvent o Cause.cprFallback else s.opEvent o Cause.cprStart

theorem State.startEvents_only : Only recordParts s (s.startEvents o) := by
  unfold State.startEvents
  split
  · exact State.opEvent_only (.refl _ s) .same
  split
  · exact State.opEvent_only (State.opEvent_only (.refl _ s) .same) .same
  · exact State.opEvent_only (.refl _ s) .same

/-- A port with room takes a copy that is alone and posts no expectation (R271). -/
theorem State.Sole.acceptCopy_eq (h : s.Sole n o r k) (hq : o.stage = .queued) (hlive : s.opLive o = true) (hbe : o.lead.w.be = false) :
    s.acceptCopy n = ((s.setOp n { o with stage := .running }).passMembers n { o with stage := .running }).startEvents { o with stage := .running } := by
  have hroom : s.portUse o.core = 0 := h.portUse (by rw [hq]; decide) _
  have hpost : ∀ t : State, t.postExpect n { o with stage := .running } = t := fun t => State.postExpect_of_not_be hbe
  simp only [State.acceptCopy, h.op?, hq, hlive, hroom, h.portFirst rfl, hpost, bne_self_eq_false, Bool.not_true, Nat.not_le_of_lt (by decide : 0 < 16),
    decide_false, Bool.or_self, Bool.false_eq_true, if_false]
  rfl

/-- It runs, and its one member goes on. -/
theorem State.Sole.acceptCopy (h : s.Sole n o r k) (hq : o.stage = .queued) (hlive : s.opLive o = true)
    (harr : o.arr = [a]) (hr : ⟨o.blk, a.sid⟩ = r) (hw : k.wait = .op n) (hbe : o.lead.w.be = false) :
    (s.acceptCopy n).Sole n { o with stage := .running } r { k with wait := .started n }
      ∧ Only (.ops :: .strands :: recordParts) s (s.acceptCopy n) := by
  rw [h.acceptCopy_eq hq hlive hbe]
  have hrun : ((s.setOp n { o with stage := .running }).passMembers n { o with stage := .running }).Sole n { o with stage := .running } r
      { k with wait := .started n } := (h.setOp { o with stage := .running }).setWaits harr hr hw _
  have hparts : Only (.ops :: .strands :: recordParts) s ((s.setOp n { o with stage := .running }).passMembers n { o with stage := .running }) :=
    State.passMembers_only (State.setOp_only (.refl _ _) (by decide)) (by decide)
  exact ⟨hrun.only State.startEvents_only (by decide) (by decide), hparts.trans (State.startEvents_only.mono (by decide))⟩

/-! ## Start -/

/-- The operation as it stands in its port: with its number and its group where it is a CPR (R287, R366). -/
def State.ported (s : State) (o : EngOp) : EngOp × State :=
  let (o, s) := s.numberCpr { o with stage := .queued }
  s.startCpr o

/-- A copy that is alone takes its place in its port, with the record `i` where its member asked for a handle (R268). -/
def State.queueCopy (s : State) (n : Nat) (o : EngOp) (i : Nat) : State :=
  let t := (s.ported o).2.setOp n (s.ported o).1
  if o.handles = [] then t else t.takeRec n i o.handles

/-- What the number, the group and the start of a CPR leave of the operation. -/
theorem State.ported_spec (s : State) (o : EngOp) : let p := (s.ported o).1
    p.kind = o.kind ∧ p.blk = o.blk ∧ p.launch = o.launch ∧ p.core = o.core ∧ p.arr = o.arr ∧ p.stage = .queued ∧ p.ready = o.ready
      ∧ p.record = o.record ∧ p.held = o.held ∧ p.moved = o.moved ∧ p.cause = o.cause ∧ (o.kind = .cpr → p.started = s.ns) := by
  by_cases hk : o.kind = .cpr <;> simp [State.ported, State.numberCpr, State.startCpr, hk]

theorem State.engCommit_of_plain (h : ∀ la, s.launch? o.launch = some la → la.contained = false) : s.engCommit o = (s, true) := by
  unfold State.engCommit
  split
  · rfl
  · next la hla => simp [h la hla]

theorem State.passMembers_nobody (h : o.arr = []) (n : Nat) : s.passMembers n o = s := by
  simp [State.passMembers, State.setWaits, h]

/-- A copy that is alone, with no commit before it and no MMA behind it, takes its place and goes on to its port (R268, R271). -/
theorem State.Sole.startCopy_eq {i : Nat} (h : s.Sole n o r k) (harr : o.arr = [a])
    (hfo : o.kind = .cpl → o.lead.w.fo = false) (hcont : ∀ la, s.launch? o.launch = some la → la.contained = false)
    (hrec : (s.core o.core).freeRec = some i) :
    s.startCopy n = ((s.queueCopy n o i).setWaits n (s.ported o).1 fun k => { k with why := .other }).acceptCopy n := by
  have hcommit : ∀ b : Bool, (if b = true then s.engCommit o else (s, true)) = (s, true) := fun b => by
    rw [State.engCommit_of_plain hcont, ite_self]
  have hfollow : (o.kind == .cpl && o.lead.w.fo) = false := by
    by_cases hk : o.kind = .cpl
    · simp [hfo hk]
    · simp [hk]
  obtain ⟨-, -, -, -, hparr, -⟩ := s.ported_spec o
  have hearly : ∀ t : State, t.passMembers n { (s.ported o).1 with arr := (s.ported o).1.arr.dropLast } = t := fun t =>
    State.passMembers_nobody (by simp [hparr, harr]) n
  have hhand : (s.ported o).1.handles = o.handles := by simp only [EngOp.handles, hparr]
  simp only [State.startCopy, h.op?, h.portFirst rfl, hfollow, hcommit, Bool.not_true, Bool.false_eq_true, if_false, Option.map_none, Option.getD_none,
    List.isEmpty_nil, if_true, hrec, Option.map_some]
  rw [State.queueCopy]
  by_cases hh : o.handles = []
  · simp only [hh, List.isEmpty_nil, if_true]
    exact congrArg (fun t : State => (State.setWaits t n _ _).acceptCopy n) (hearly _)
  · simp only [hh, List.isEmpty_iff, if_false]
    rw [← hhand]
    exact congrArg (fun t : State => (State.setWaits t n _ _).acceptCopy n) (hearly _)

theorem State.live_of_block (hb : s.block? r.blk = some b) {f : Bool} (ht : t.block? r.blk = some { b with cprIssued := f }) :
    t.live r.blk = s.live r.blk := by
  simp only [State.live, hb, ht]

theorem State.ported_only (s : State) (o : EngOp) : Only [.fes, .blocks] s (s.ported o).2 :=
  State.startCpr_only (State.numberCpr_only (.refl _ s) (by decide)) (by decide)

/-- A CPR is noted on its block (R333); the block is otherwise as before. -/
theorem State.block?_ported (hb : s.block? o.blk = some b) : ∃ f, (s.ported o).2.block? o.blk = some { b with cprIssued := f } := by
  by_cases hk : o.kind = .cpr
  · refine ⟨true, ?_⟩
    have hmod : (s.ported o).2.block? o.blk = (s.block? o.blk).map fun b => { b with cprIssued := true } := by
      simp [State.ported, State.numberCpr, State.startCpr, hk, State.block?, State.modBlock, State.modFe, Table.get?_mod]
    rw [hmod, hb, Option.map_some]
  · refine ⟨b.cprIssued, ?_⟩
    simp [State.ported, State.numberCpr, State.startCpr, hk, hb]

/-- A strand after its word has asked for a handle and received the token `t`, or has not asked (R268). -/
def Strand.handed (k : Strand) (w : E) (t : Word) : Strand := if w.hw then k.setH w.hd.toNat (some t) else k

theorem Strand.handed_keeps (k : Strand) (w : E) (t : Word) : (k.handed w t).v = k.v ∧ (k.handed w t).s = k.s ∧ (k.handed w t).m = k.m
    ∧ (k.handed w t).pc = k.pc ∧ (k.handed w t).sig = k.sig ∧ (k.handed w t).wait = k.wait := by
  unfold Strand.handed
  split <;> exact ⟨rfl, rfl, rfl, rfl, rfl, rfl⟩

theorem State.queueCopy_only (s : State) (n : Nat) (o : EngOp) (i : Nat) :
    Only [.cores, .ops, .strands] (s.ported o).2 (s.queueCopy n o i) := by
  unfold State.queueCopy
  dsimp only
  split
  · exact State.setOp_only (.refl _ _) (by decide)
  · exact State.takeRec_only (State.setOp_only (.refl _ _) (by decide)) .same

theorem State.Sole.queueCopy (h : s.Sole n o r k) (hb : s.block? o.blk = some b) (harr : o.arr = [a]) (hr : ⟨o.blk, a.sid⟩ = r) (i : Nat) :
    (s.queueCopy n o i).Sole n { (s.ported o).1 with record := if a.word.w.hw then some i else o.record } r
      (k.handed a.word.w (token ((s.core o.core).record i).gen b.slot i)) := by
  obtain ⟨-, hblk, -, hcore, -, -, -, hrecord, -⟩ := s.ported_spec o
  have hput : ((s.ported o).2.setOp n (s.ported o).1).Sole n (s.ported o).1 r k :=
    ⟨by simp [State.setOp, (s.ported_only o).ops (by decide), h.ops, Table.put], ((s.ported_only o).strand?_eq (by decide) r).trans h.strand⟩
  rw [State.queueCopy, EngOp.handles_of_single harr, Strand.handed]
  by_cases hw : a.word.w.hw = true
  · obtain ⟨f, hf⟩ := State.block?_ported hb
    have hsame : ((s.ported o).2.setOp n (s.ported o).1).core (s.ported o).1.core = s.core o.core :=
      ((s.ported_only o).core_eq (by decide) _).trans (congrArg s.core hcore)
    have htaken := hput.takeRec (b := { b with cprIssued := f }) (sid := a.sid) (hblk ▸ hf) (hblk ▸ hr) i a.word.w.hd.toNat
    simpa only [hsame, hw, if_true, List.cons_ne_nil, if_false] using htaken
  · simpa only [hw, if_false, if_true, Bool.false_eq_true, ← hrecord] using hput

/-- A copy that is alone, with no commit before it and no MMA behind it, starts at once where there is a record (R268, R271): it runs, its member
passes and names the record, and its block is as before but for a CPR's note. -/
theorem State.Sole.startCopy {i : Nat} (h : s.Sole n o r k) (hb : s.block? o.blk = some b) (harr : o.arr = [a]) (hr : ⟨o.blk, a.sid⟩ = r)
    (hw : k.wait = .op n) (hlive : s.opLive o = true) (hbe : a.word.w.be = false) (hfo : o.kind = .cpl → a.word.w.fo = false)
    (hcont : ∀ la, s.launch? o.launch = some la → la.contained = false) (hrec : (s.core o.core).freeRec = some i) :
    (s.startCopy n).Sole n { (s.ported o).1 with record := if a.word.w.hw then some i else o.record, stage := .running } r
      { k.handed a.word.w (token ((s.core o.core).record i).gen b.slot i) with why := .other, wait := .started n }
      ∧ ∃ f, (s.startCopy n).block? o.blk = some { b with cprIssued := f } := by
  obtain ⟨-, hblk, -, -, hparr, hstage, -, -, hheld, -⟩ := s.ported_spec o
  obtain ⟨f, hf⟩ := State.block?_ported hb
  obtain ⟨-, -, -, -, -, hwait⟩ := k.handed_keeps a.word.w (token ((s.core o.core).record i).gen b.slot i)
  have hlead := EngOp.lead_of_single harr
  rw [h.startCopy_eq harr (hlead ▸ hfo) hcont hrec]
  have hqueued := (h.queueCopy hb harr hr i).setWaits (hparr.trans harr) (hblk ▸ hr) (hwait.trans hw) fun k => { k with why := .other }
  have honly : Only [.cores, .ops, .strands] (s.ported o).2 ((s.queueCopy n o i).setWaits n (s.ported o).1 fun k => { k with why := .other }) :=
    State.setWaits_only (s.queueCopy_only n o i) (by decide)
  have hthere := (honly.block?_eq (by decide) o.blk).trans hf
  have hlive' : ((s.queueCopy n o i).setWaits n (s.ported o).1 fun k => { k with why := .other }).opLive
      { (s.ported o).1 with record := if a.word.w.hw then some i else o.record } = true := by
    subst hr
    rw [← hlive, State.opLive, State.opLive, hheld, hblk, State.live_of_block (r := ⟨o.blk, a.sid⟩) hb hthere]
  have hbe' : ({ (s.ported o).1 with record := if a.word.w.hw then some i else o.record } : EngOp).lead.w.be = false :=
    (congrArg (fun w => w.w.be) (EngOp.lead_of_single (hparr.trans harr))).trans hbe
  obtain ⟨hrun, hparts⟩ := hqueued.acceptCopy hstage hlive' (hparr.trans harr) (hblk ▸ hr) (hwait.trans hw) hbe'
  exact ⟨hrun, f, (hparts.block?_eq (by decide) o.blk).trans hthere⟩

end

section
variable {s t : State} {n : Nat} {o : EngOp} {r : StrandRef} {k : Strand} {a : Arrival} {b : Block} {la : Launch}

/-! ## The checks at start -/

/-- The checks at start read an operation's members and descriptors, the front ends and the blocks. -/
theorem State.startCause_congr (hf : t.fes = s.fes) (hb : t.blocks = s.blocks) (la : Launch) (o : EngOp) (st : OpStage) (m : Nat) (v : View) (i : Nat) :
    t.startCause la { o with stage := st, ready := m, view := v } i = s.startCause la o i := by
  simp only [State.startCause, State.startChecks, State.mcastBad, State.blockAt, EngOp.shadow, State.block?, State.fe, hf, hb]

/-- A copy whose members have all arrived, with its place in the order of its port and its descriptors as they then are (R271, R275). -/
def State.ripe (s : State) (o : EngOp) : EngOp := { o with stage := .ready, ready := s.uid, descs := s.readDescs o }

/-- The device once that copy has passed its checks at start (R274). -/
def State.ripened (s : State) (n : Nat) (o : EngOp) : State :=
  ((s.name.2).setOp n { o with stage := .ready, ready := s.uid }).setOp n (s.ripe o)

theorem State.ripened_only (s : State) (n : Nat) (o : EngOp) : Only [.uid, .ops] s (s.ripened n o) :=
  State.setOp_only (State.setOp_only (State.name_only (.refl _ s) (by decide)) (by decide)) (by decide)

theorem State.Sole.name (h : s.Sole n o r k) : s.name.2.Sole n o r k :=
  h.only (State.name_only (.refl [.uid] s) .same) (by decide) (by decide)

theorem State.Sole.ripened (h : s.Sole n o r k) : (s.ripened n o).Sole n (s.ripe o) r k := (h.name.setOp _).setOp _

/-- A copy that no check at start stops has passed them. -/
theorem State.Sole.checkCopy_eq (h : s.Sole n o r k) (hb : s.block? o.blk = some b) (hla : s.launch? o.launch = some la)
    (hcause : s.startCause la { o with descs := s.readDescs o } b.index = none) :
    (s.name.2.setOp n { o with stage := .ready, ready := s.uid }).checkCopy n = s.ripened n o := by
  have hop := (h.name.setOp { o with stage := .ready, ready := s.uid }).op?
  have hb' : (s.name.2.setOp n { o with stage := .ready, ready := s.uid }).block? o.blk = some b := hb
  have hla' : (s.name.2.setOp n { o with stage := .ready, ready := s.uid }).launch? o.launch = some la := hla
  have hnone : (s.name.2.setOp n { o with stage := .ready, ready := s.uid }).startCause la (s.ripe o) b.index = none :=
    (State.startCause_congr rfl rfl la { o with descs := s.readDescs o } .ready s.uid o.view b.index).trans hcause
  simp only [State.checkCopy, hop, Option.bind_some, hb', hla']
  split
  · next hsome => exact nomatch hnone.symm.trans hsome
  · rfl

/-- A copy of a strand outside every skein, which no check at start stops, starts as soon as the strand has arrived (R274). -/
theorem State.Sole.tryStart_eq (h : s.Sole n o r k) (hcopy : o.kind.copy = true) (hstage : o.stage = .gathering) (harr : o.arr = [a])
    (hskein : o.skein = none) (hbk : o.bk = false) (hpost : o.posting = false) (hlive : s.opLive o = true)
    (hb : s.block? o.blk = some b) (hla : s.launch? o.launch = some la)
    (hcause : s.startCause la { o with descs := s.readDescs o } b.index = none) :
    s.tryStart n = (s.ripened n o).startCopy n := by
  have hgathered : s.gathered o = true := by simp [State.gathered, State.members, harr, hskein, hbk]
  have hripen : s.ripen n o = s.ripened n o := by
    simp only [State.ripen, hstage, hgathered, hcopy, bne_self_eq_false, Bool.not_true, Bool.or_self, Bool.false_eq_true, if_false, if_true]
    exact h.checkCopy_eq hb hla hcause
  have hready : ((s.ripened n o).op? n).map EngOp.stage = some .ready := by rw [h.ripened.op?]; rfl
  simp only [State.tryStart, h.op?, hlive, hpost, hcopy, hripen, hready, Bool.not_true, Bool.false_eq_true, if_false]

/-- A copy as it runs after it has started at once, with the record `i` where its member's word `w` asks for a handle (R268). -/
def State.started (s : State) (n : Nat) (o : EngOp) (w : E) (i : Nat) : EngOp :=
  { ((s.ripened n o).ported (s.ripe o)).1 with record := if w.hw then some i else o.record, stage := .running }

/-- It is still what the operation was, but for its record, its stage and a CPR's start. -/
theorem State.started_spec (s : State) (n : Nat) (o : EngOp) (w : E) (i : Nat) : let p := s.started n o w i
    p.kind = o.kind ∧ p.arr = o.arr ∧ p.stage = .running ∧ (o.kind = .cpr → p.started = s.ns) ∧ p.record = (if w.hw then some i else o.record)
      ∧ p.blk = o.blk ∧ p.moved = o.moved ∧ p.cause = o.cause := by
  obtain ⟨hkind, hblk, -, -, harr, -, -, -, -, hmoved, hcause, hstarted⟩ := (s.ripened n o).ported_spec (s.ripe o)
  exact ⟨hkind, harr, rfl, fun hk => (hstarted hk).trans ((s.ripened_only n o).ns (by decide)), rfl, hblk, hmoved, hcause⟩

/-- The operation runs, its member has passed its word and names the record, and the block is as before but for a CPR's note. -/
theorem State.Sole.tryStart {i : Nat} (h : s.Sole n o r k) (hcopy : o.kind.copy = true) (hstage : o.stage = .gathering) (harr : o.arr = [a])
    (hr : ⟨o.blk, a.sid⟩ = r) (hw : k.wait = .op n) (hskein : o.skein = none) (hbk : o.bk = false) (hpost : o.posting = false)
    (hlive : s.opLive o = true) (hb : s.block? o.blk = some b) (hla : s.launch? o.launch = some la)
    (hcause : s.startCause la { o with descs := s.readDescs o } b.index = none) (hbe : a.word.w.be = false)
    (hfo : o.kind = .cpl → a.word.w.fo = false) (hcont : la.contained = false) (hrec : (s.core o.core).freeRec = some i) :
    (s.tryStart n).Sole n (s.started n o a.word.w i) r
      { k.handed a.word.w (token ((s.core o.core).record i).gen b.slot i) with why := .other, wait := .started n }
      ∧ ∃ f, (s.tryStart n).block? o.blk = some { b with cprIssued := f } := by
  rw [h.tryStart_eq hcopy hstage harr hskein hbk hpost hlive hb hla hcause]
  exact h.ripened.startCopy hb harr hr hw hlive hbe hfo (fun _ hl => Option.some.inj (hla.symm.trans hl) ▸ hcont) hrec

end

/-! ## The arrival of a strand that issues alone -/

section
variable {c : Ctx} {w : CollWord} {i : Instr}

/-- The operation that a strand alone begins with its arrival, before which stands what stands before the strand's threads (R182, R243). -/
def Ctx.aloneOp (c : Ctx) (w : CollWord) : EngOp :=
  { beginning c w with ready := c.s.uid, view := ({} : View).join (c.k.viewOf c.act) }

/-- A strand that has arrived with its word, which it has folded (R52), and waits in the operation `n`. -/
def Strand.waiting (k : Strand) (i : Instr) (n : Nat) (o : EngOp) : Strand := { k.fold i with wait := .op n, why := o.stall }

/-- The device when the strand has arrived, before its operation is tried. -/
def Ctx.joined (c : Ctx) (w : CollWord) (i : Instr) : State :=
  ((c.s.name.2.setOp c.s.uid { beginning c w with ready := c.s.uid }).setOp c.s.uid (c.aloneOp w)).modStrand c.r fun k =>
    k.waiting i c.s.uid (c.aloneOp w)

theorem Ctx.joined_only (c : Ctx) (w : CollWord) (i : Instr) : Only [.uid, .ops, .strands] c.s (c.joined w i) :=
  State.modStrand_only (State.setOp_only (State.setOp_only (State.name_only (.refl _ c.s) (by decide)) (by decide)) (by decide)) (by decide)

theorem Ctx.joined_sole (hops : c.s.ops = []) (hk : c.s.strand? c.r = some c.k) :
    (c.joined w i).Sole c.s.uid (c.aloneOp w) c.r (c.k.waiting i c.s.uid (c.aloneOp w)) := by
  have hbegun : (c.s.name.2.setOp c.s.uid { beginning c w with ready := c.s.uid }).Sole c.s.uid { beginning c w with ready := c.s.uid } c.r c.k :=
    ⟨by simp [State.setOp, State.name, hops, Table.put], hk⟩
  exact (hbegun.setOp (c.aloneOp w)).modStrand _

theorem State.op?_setOp_self (s : State) (n : Nat) (o : EngOp) : (s.setOp n o).op? n = some o := Table.get?_put_self ..

/-- A copy word of a strand outside every skein, which no operation awaits, begins an operation of its own and tries to start it (R181, R274). -/
theorem Ctx.join_alone (hcopy : w.kind.copy = true) (hbk : w.bk = false) (hskein : c.k.skein = none) (hact : c.act = c.k.mask)
    (halone : c.s.awaiting c.r.blk c.k.skein = []) :
    c.join w (operands c w) none [i] = ((c.joined w i).tryStart c.s.uid).arrived c.r c.s.uid := by
  have hmma : w.kind ≠ .mma := fun h => by simp [h, EngKind.copy] at hcopy
  have hguide : w.kind ≠ .guide := fun h => by simp [h, EngKind.copy] at hcopy
  have hplain : (w.kind == .mma || w.kind == .guide) = false := by simp [hmma, hguide]
  rw [hskein] at halone
  simp only [Ctx.join, hcopy, if_true, hskein, halone, List.filter_nil, hbk, hplain, Bool.and_false, Bool.false_eq_true, if_false, State.op?_setOp_self,
    hact]
  rw [Ctx.joined, Ctx.aloneOp, beginning, arrival, hact]
  rfl

/-- The strand has passed its word once its operation has started. -/
theorem State.arrived_of_started {t : State} {r : StrandRef} {n : Nat} {k : Strand} (hk : t.strand? r = some k) (hw : k.wait = .started n) :
    t.arrived r n = .done t := by
  simp [State.arrived, hk, hw]

end

/-! ## Copies that start -/

/-- The copy word of a strand that issues alone, for which a record and a port are free and which no check at start stops (R193, R268, R271, R274). -/
structure CopyAlone (c : Ctx) (w : CollWord) (i : Nat) : Prop where
  copy      : w.kind.copy = true
  arrive    : MayArrive c w
  skein     : c.k.skein = none
  bk        : w.bk = false
  be        : w.w.be = false
  follow    : w.kind = .cpl → w.w.fo = false
  contained : c.la.contained = false
  ops       : c.s.ops = []
  record    : (c.s.core c.b.core).freeRec = some i
  live      : c.s.live c.r.blk = true
  cause     : c.s.startCause c.la { beginning c w with descs := c.s.readDescs (beginning c w) } c.b.index = none
  strand    : c.s.strand? c.r = some c.k
  block     : c.s.block? c.r.blk = some c.b
  launch    : c.s.launch? c.b.launch = some c.la

section
variable {c : Ctx} {w : CollWord} {rec : Nat}

/-- The operation runs, the strand has passed, and the block is as before but for a CPR's note. -/
theorem CopyAlone.starts (h : CopyAlone c w rec) (i : Instr) :
    ((c.joined w i).tryStart c.s.uid).Sole c.s.uid ((c.joined w i).started c.s.uid (c.aloneOp w) w.w rec) c.r
        { (c.k.waiting i c.s.uid (c.aloneOp w)).handed w.w (token ((c.s.core c.b.core).record rec).gen c.b.slot rec) with
          why := .other, wait := .started c.s.uid }
      ∧ ∃ f, ((c.joined w i).tryStart c.s.uid).block? c.r.blk = some { c.b with cprIssued := f } := by
  have hj := c.joined_only w i
  have hsole := Ctx.joined_sole (w := w) (i := i) h.ops h.strand
  have hblock := (hj.block?_eq (by decide) c.r.blk).trans h.block
  have hlaunch := (hj.launch?_eq (by decide) c.b.launch).trans h.launch
  have hcore : (c.joined w i).core (c.aloneOp w).core = c.s.core c.b.core := hj.core_eq (by decide) c.b.core
  have hlive : (c.joined w i).opLive (c.aloneOp w) = true := by
    rw [← h.live]
    exact (Bool.true_and _).trans (State.live_of_block (r := c.r) (f := c.b.cprIssued) h.block hblock)
  have hdescs : (c.joined w i).readDescs (c.aloneOp w) = c.s.readDescs (beginning c w) := by
    simp only [State.readDescs, State.fe, hj.fes (by decide)]
    rfl
  have hcause : (c.joined w i).startCause c.la { c.aloneOp w with descs := (c.joined w i).readDescs (c.aloneOp w) } c.b.index = none := by
    rw [hdescs, ← h.cause]
    exact State.startCause_congr (hj.fes (by decide)) (hj.blocks (by decide)) c.la { beginning c w with descs := c.s.readDescs (beginning c w) } _ _ _ _
  have hstart := hsole.tryStart (a := arrival c w) h.copy rfl rfl rfl rfl rfl rfl rfl hlive hblock hlaunch hcause h.be h.follow h.contained
    ((congrArg Core.freeRec hcore).trans h.record)
  rw [hcore] at hstart
  exact hstart

/-- So the word is done with its arrival. -/
theorem CopyAlone.join_eq (h : CopyAlone c w rec) (hact : c.act = c.k.mask) (i : Instr) :
    c.join w (operands c w) none [i] = .done ((c.joined w i).tryStart c.s.uid) := by
  rw [Ctx.join_alone h.copy h.bk h.skein hact h.arrive.alone.1]
  exact State.arrived_of_started (h.starts i).1.strand rfl

theorem CopyAlone.seen (h : CopyAlone c w rec) (act : Word) (start : Nat) : CopyAlone (c.seen act start) w rec :=
  { h with arrive := mayArrive_seen h.arrive act start }

end

/-- A handle that was asked for names the record, and no other register changes (R268). -/
theorem gotHandle_of_handed {c : Ctx} {w : CollWord} {rec : Nat} {k k' : Strand} (hk : k.h = c.k.h)
    (hk' : k'.h = (k.handed w.w (token ((c.s.core c.b.core).record rec).gen c.b.slot rec)).h) : gotHandle c w rec k' := by
  unfold gotHandle
  rw [Strand.handed] at hk'
  split
  · next hw =>
    rw [if_pos hw] at hk'
    simp [Strand.hGet, hk', Strand.setH]
  · next hw =>
    rw [if_neg hw] at hk'
    exact hk'.trans hk

theorem Strand.h_of_fixed {k k' : Strand} (h : k.fixed = k'.fixed) : k.h = k'.h := (congrArg Strand.h h :)

theorem Alone.ops {s t : State} {r : StrandRef} (h : Alone s t r) : t.ops = s.ops := (congrArg State.ops h.rest :)

theorem Alone.block? {s t : State} {r : StrandRef} (h : Alone s t r) (blk : Nat) : t.block? blk = s.block? blk :=
  congrArg (Table.get? · blk) (congrArg State.blocks h.rest :)

/-- Settles O34: the arrival of a word that issues alone starts its copy at once, and the strand passes with nothing changed but its handle. -/
theorem copiesStart : Obligations.CopiesStart := by
  intro x i w s c rec hi hcopy hr hm hskein hbk hbe hcont hops hrec hfo hlive hcause
  obtain ⟨-, hk, hb, hla, hs, -, -, -⟩ := State.ctx?_eq hr.focus
  subst hs
  obtain rfl : w.w = x := engineWord_w _ hi
  have halone : CopyAlone c w rec := ⟨hcopy, hm, hskein, hbk, hbe, hfo, hcont, hops, hrec, hlive, hcause, hk, hb, hla⟩
  obtain ⟨start, t, -, -, hexec, hfin⟩ := engineWord_effects (e := fun c => (c.joined w i).tryStart c.s.uid) hi hr hm
    (fun start => (halone.seen c.k.mask start).join_eq rfl i)
    fun start => Option.isSome_iff_exists.2 ⟨_, ((halone.seen c.k.mask start).starts i).1.strand⟩
  obtain ⟨hsole, f, hblock⟩ := (halone.seen c.k.mask start).starts i
  obtain ⟨k0, k, hk0, hkt, hrest, hfixed, hv, hs, hmask, -, -, hpc, hsig⟩ := hfin
  obtain rfl := Option.some.inj (hk0.symm.trans hsole.strand)
  obtain ⟨hv', hs', hm', hpc', hsig', -⟩ := Strand.handed_keeps (c.k.waiting i c.s.uid ((c.seen c.k.mask start).aloneOp w)) w.w
    (token ((c.s.core c.b.core).record rec).gen c.b.slot rec)
  obtain ⟨hkind, harr, hstage, hstarted, hrecord, hblk, hmoved, hnocause⟩ :=
    ((c.seen c.k.mask start).joined w i).started_spec c.s.uid ((c.seen c.k.mask start).aloneOp w) w.w rec
  refine ⟨t, k, c.s.uid, _, hexec, hkt, hrest.ops.trans hsole.ops, hpc.trans (congrArg (· + 8) hpc'), hv.trans hv',
    hs.trans hs', hmask.trans hm', hsig.trans hsig',
    gotHandle_of_handed (k := c.k.waiting i c.s.uid ((c.seen c.k.mask start).aloneOp w)) rfl (Strand.h_of_fixed hfixed), hkind, harr, hstage,
    fun hcpr => (hstarted hcpr).trans (((c.seen c.k.mask start).joined_only w i).ns (by decide)), hrecord, hblk, hmoved, hnocause, fun b hbt => ?_⟩
  obtain rfl := Option.some.inj (hbt.symm.trans ((hrest.block? c.r.blk).trans hblock))
  rfl

end Sys2Proof.Machine
end
